-- ==== Sys2Proof/Word.lean ====
section
/-! DEFINITION. The word types of the Linoitor (00_scope.md R4, R5): nothing here but names for widths and the
plainest arithmetic. -/

namespace Sys2Proof

/-- One byte of memory (R5). -/
abbrev Byte := BitVec 8
/-- A vector register element in one lane (R51). -/
abbrev Word := BitVec 32
/-- A scalar register, or a register pair of one lane (R51). -/
abbrev DWord := BitVec 64
/-- One bit for each of the 32 lanes of a fibre (R14). -/
abbrev Mask := BitVec 32
/-- A virtual address, bits 55:0 (R25, R189). -/
abbrev VA := BitVec 56
/-- The 32 lanes of one register row (R14, R51). -/
abbrev Row := Vector Word 32

/-- The integers below `n`, in rising order. -/
def upTo (n : Nat) : List Nat := List.range n

/-- ⌈a / b⌉ for b > 0. -/
def ceilDiv (a b : Nat) : Nat := (a + b - 1) / b

/-- `a` is a multiple of `b`. -/
def dvd (b a : Nat) : Bool := a % b == 0

/-- Bit `l` of a lane mask. -/
def lane (m : Mask) (l : Nat) : Bool := m.getLsbD l

/-- The mask whose set lanes are those where `p` holds. -/
def maskOf (p : Nat → Bool) : Mask := BitVec.ofBoolListLE ((upTo 32).map p) |>.setWidth 32

/-- The set lanes of a mask, lowest first. -/
def lanesOf (m : Mask) : List Nat := (upTo 32).filter (lane m)

/-- The row that holds `f l` in lane `l`. -/
def mkRow (f : Nat → Word) : Row := Vector.ofFn fun l => f l.val

/-- Lane `l` of a row, 0 beyond lane 31 (no lane is beyond). -/
def Row.at (r : Row) (l : Nat) : Word := r.getD l 0

/-- Choose lane by lane. -/
def Row.select (m : Mask) (new old : Row) : Row := mkRow fun l => if lane m l then Row.at new l else Row.at old l

end Sys2Proof
end

