-- ==== Sys2Proof/Syntax.lean ====
section
/-! DEFINITION. The steps of the Linoitor as syntax: one constructor of `Instr` per row of spec/opcode_table.json.
The first 175 rows are instruction words (02_instruction_word.md R39 to R63), the others are the events, mailbox
commands and protocol requests of 95_what_each_step_holds.md. A choice that the spec leaves to an engine or to
the outside (which cores, which answer, which bytes) is an argument of the event that makes it. -/

namespace Sys2Proof

/-! ### Codes shared by the instruction groups -/

/-- The lengths of R40. -/
inductive Len where | l64 | l96 | l128
  deriving DecidableEq, Repr

/-- The principal type codes of R60. -/
inductive Ty where
  | i32 | n32 | i64 | n64 | i16 | n16 | i8 | n8 | f32 | f16 | bf16 | e4m3 | e5m2 | e2m1 | le8 | grp
  deriving DecidableEq, Repr

/-- The address spaces of R25 (codes 6 and 7 are no space). -/
inductive Space where | prv | tm | cl | gl | ko | rm
  deriving DecidableEq, Repr

/-- The scopes of R28. -/
inductive Scope where | lane | fibre | slot | team | cluster | die | device | host | pod | span
  deriving DecidableEq, Repr

/-- The rounding modes of R92 (code 111 is none). -/
inductive RMode where | rne | rz | rdn | rup | rna | rst | dyn
  deriving DecidableEq, Repr

/-- The integer conditions of R150 and R338. -/
inductive Cond where | eq | ne | lt | le | gt | ge
  deriving DecidableEq, Repr

/-- The floating conditions of R165. -/
inductive FCond where | eq | ne | lt | le | gt | ge | num | nan
  deriving DecidableEq, Repr

/-- The special registers of R58. -/
inductive SReg where
  | lane | slice | fibre | slot | team | cluster | cx | cy | cz | core | die | dev
  | tags | lcd | fpm | fps | le8s | fp4x | rng | cyc | quota | grp
  | ecause | epc | eaddr | emask | xretry
  deriving DecidableEq, Repr

/-- The guard and the switch bit of an instruction executed per lane (R44, R48). -/
structure Hdr where
  sw : Bool
  pg : BitVec 3
  pn : Bool
  deriving DecidableEq, Repr

/-- An A, B or C field of class V, V2 or S: index, X bit and last-use bit (R49, R52). -/
structure Opnd where
  idx : BitVec 8
  x : Bool
  last : Bool
  deriving DecidableEq, Repr

/-- Fields of an instruction with one source (`sc` is the scalar form, MOD[0]). -/
structure Op1 where
  h : Hdr
  sc : Bool
  d : BitVec 8
  a : Opnd
  deriving DecidableEq, Repr

/-- Fields of an instruction with two sources. -/
structure Op2 where
  h : Hdr
  sc : Bool
  d : BitVec 8
  a : Opnd
  b : Opnd
  deriving DecidableEq, Repr

/-- Fields of an instruction with three sources (C has no X bit, R52). -/
structure Op3 where
  h : Hdr
  sc : Bool
  d : BitVec 8
  a : Opnd
  b : Opnd
  c : Opnd
  deriving DecidableEq, Repr

/-- Fields of the lattice instructions of R181: C is of class S. -/
structure LatOp where
  h : Hdr
  hi : Bool
  d : BitVec 8
  a : Opnd
  b : Opnd
  c : BitVec 8
  deriving DecidableEq, Repr

/-- A tile operand of class T: handle and layout register numbers (R52). -/
structure Tile where
  hn : BitVec 4
  ln : BitVec 4
  deriving DecidableEq, Repr

/-- g of PLOP (R152); `none` leaves C reserved. -/
inductive PlopG where | none | and (c : BitVec 3) | or (c : BitVec 3) | xor (c : BitVec 3)
  deriving DecidableEq, Repr

/-- The modes of VOTE (R153). -/
inductive VoteMode where | any | all | uni
  deriving DecidableEq, Repr

/-- The modes of SHFL (R155). -/
inductive ShflMode where | idx | up | down | xor
  deriving DecidableEq, Repr

/-- The operations of ATOM, RED and XATOM (R224). -/
inductive AtomOp where | add | min | max | and | or | xor | exch | cas
  deriving DecidableEq, Repr

/-- The ordering field of ATOM (R224). -/
inductive AtomOrd where | none | acq | rel | ar
  deriving DecidableEq, Repr

/-- The modes of FENCE (R230). -/
inductive FenceMode where | acq | rel | ar
  deriving DecidableEq, Repr

/-- The count of a memory instruction: 1, 2 or 4 registers or pairs (R211). -/
inductive Count where | one | two | four
  deriving DecidableEq, Repr

/-- The levels of PREF (R228). -/
inductive PrefLevel where | l1 | dc
  deriving DecidableEq, Repr

/-- ACQ's operation with its operands (R248). -/
inductive AcqOp where | ld | cas (b c : Opnd)
  deriving DecidableEq, Repr

/-- RELS's operation (R249). -/
inductive RelsOp where | st | add
  deriving DecidableEq, Repr

/-- The operations of GRED (R327). -/
inductive GredOp where | add | min | max | and | or | xor
  deriving DecidableEq, Repr

/-- The queries of GQRY (R326). -/
inductive GQuery where | id | ph | cnt | arr | lvl | res
  deriving DecidableEq, Repr

/-- Element formats of handles (R61). -/
inductive Fmt where
  | i32 | n32 | i64 | n64 | i16 | n16 | i8 | n8 | f32 | f16 | bf16 | e4m3 | e5m2 | e2m1 | le8
  | q4 | q8 | cb4 | x8
  deriving DecidableEq, Repr

/-- Storage kinds of handles (R256). -/
inductive Kind where | vr | tm | cl | gl | rm | pg
  deriving DecidableEq, Repr

/-- The engines of R263. -/
inductive Engine where | ce | wf | af | ll
  deriving DecidableEq, Repr

/-- The queries of LQRY (R274); `size` and `span` take no handle. -/
inductive LQuery where
  | size | span | cls (e : Engine) (h : BitVec 4) | deg (h : BitVec 4) | clst (h : BitVec 4)
  deriving DecidableEq, Repr

/-- The handle fields of HSET and HQRY (R276). -/
inductive HField where | base | kind | fmt | gsize | tdev | asid | sbase | sshift | fp4x | tscale | dstride
  deriving DecidableEq, Repr

/-- HSET's value: EXT64, or a 64-bit scalar (R276). -/
inductive HVal where | imm (v : DWord) | reg (a : BitVec 8)
  deriving DecidableEq, Repr

/-- The queries of MQRY (R300). -/
inductive MQuery where | pln | prog | flt | own
  deriving DecidableEq, Repr

/-- The queries of JQRY (R315); `ffl` takes no tag. -/
inductive JQuery where | st (a : BitVec 8) | prog (a : BitVec 8) | cause (a : BitVec 8) | addr (a : BitVec 8) | ffl
  deriving DecidableEq, Repr

/-- The queries of CGQRY (R452). -/
inductive CgQuery where | st | ndst | recs | why | una
  deriving DecidableEq, Repr

/-- XATOM's form: with .arv a counter increment, otherwise an atomic on memory (R430, R433). -/
inductive XatomForm where | arv | mem (d : BitVec 6) (op : AtomOp) (ty : Ty)
  deriving DecidableEq, Repr

/-- The two forms of TLBINV (R386): the whole ASID, or a range. -/
inductive InvRange where | all | range (a b : BitVec 8)
  deriving DecidableEq, Repr

/-! ### Arguments of events -/

/-- A fibre by its cluster's identity number, team rank and number in the team (R20). -/
structure FibreRef where
  cl : Nat
  team : Nat
  fib : Nat
  deriving DecidableEq, Repr

/-- A kernel by the queue and packet index it was taken from (R381), and by a number of its own, since QRESET may let an index come
again (R362). -/
structure KernelRef where
  q : Nat
  pkt : Nat
  gen : Nat
  deriving DecidableEq, Repr

/-- A die of the package (01_machine.md R22). -/
inductive DieId where | compute (d : Fin 4) | port (p : Fin 2) | masthead
  deriving DecidableEq, Repr

/-- A rail of R471. -/
inductive Rail where | standby | ports | hbm | core (d : Fin 4)
  deriving DecidableEq, Repr

/-- A UCIe link of a compute die (R2): to its neighbours in the ring, to the port dies, to the masthead die. -/
inductive UcieLink where | before | after | port (p : Fin 2) | masthead
  deriving DecidableEq, Repr

/-- What an uncached agent asks at a remote home (R412, R430). -/
inductive RemOp where
  | read (len : Nat)
  | write (bytes : List Byte)
  | atom (op : AtomOp) (ty : Ty) (b d : DWord)
  | arrive (id : BitVec 8) (n : DWord)
  | post (q : BitVec 6) (img : List Byte)
  | staged (cgid : BitVec 32) (seq : Nat) (arrival : Option (BitVec 8)) (bytes : List Byte) (inc : DWord)
  deriving DecidableEq, Repr

/-- A remote request as it travels (R412, R418, R420): source, target context, address, operation, sequence
number if it carries one, the lowest unacknowledged number, the incarnation it names, and the counter that a
data packet increments; of a multicast packet, which a member may be sent again by unicast, also the group and the incarnations that the
source knows, by device (R422). -/
structure RemReq where
  sdev : BitVec 16
  sasid : BitVec 16
  asid : BitVec 16
  va : VA
  op : RemOp
  seq : Option (BitVec 16)
  lowest : BitVec 16
  inc : Option (BitVec 32)
  arv : Option (BitVec 8)
  scope : Scope
  grp : Option (BitVec 16) := none
  known : List (BitVec 16 × BitVec 32) := []
  deriving DecidableEq, Repr

/-- The replies of R414. -/
inductive Reply where
  | ack (data : List Byte)
  | status (s : DWord)
  | rnr | errAsid | errDeny | errTag | errData | errInc
  | linkDown
  deriving DecidableEq, Repr

/-- Who replies (R420, R422): its incarnation, its device id, which tells the members of a multicast group apart, and whether the reply to a
multicast is the last that the Yardarm returns. -/
structure Replier where
  inc : BitVec 32
  dev : BitVec 16
  last : Bool
  deriving DecidableEq, Repr

/-- What the memory processor answers to a fault report (R199): the table words it wrote, then the fibre
replays; or that no allocation covers the named frames (64 KiB units of the VA). -/
inductive FaultAnswer where
  | serviced (writes : List (Nat × DWord))
  | noAllocation (frames : List Nat)
  deriving DecidableEq, Repr

/-- The attributes of a leaf that MAP and PROTECT give (R194, R210). -/
structure LeafAttr where
  r : Bool
  w : Bool
  x : Bool
  na : Bool
  rp : Bool
  ms : Bool
  cp : Bool
  key : BitVec 8
  deriving DecidableEq, Repr

/-- Why a cluster is pre-empted (R355, R369, R377, R465). -/
inductive PreemptWhy where | class0 | parked | evict | quiesce
  deriving DecidableEq, Repr

/-- A destination's answer to a prepare (R414, R444, R445). -/
inductive CgReply where
  | ready | notReady (why : BitVec 8) | rnr | error | linkDown | remoteReset
  deriving DecidableEq, Repr

/-- An initiator's decision (R447). -/
inductive CgAnswer where | hoisted | other
  deriving DecidableEq, Repr

/-- What a leader sends across the span (R436): plain words, or LE8 codes with their X8 block scales. -/
inductive LeaderData where
  | plain (words : List Word)
  | coded (codes : List (BitVec 16)) (x8 : List Byte)
  deriving DecidableEq, Repr

/-- LINKSET's requests (R409, R441, R470). -/
inductive LinkSetReq where
  | up (port : Nat) | down (port : Nat) | staging (size : Nat) | tier2Rate (rate : Nat) | rekey (port : Nat)
  deriving DecidableEq, Repr

/-- LINKQUERY's selections (R470). -/
inductive LinkQueryReq where | port (n : Nat) | channel (n : Nat)
  deriving DecidableEq, Repr

/-- PLANESET's requests (R423). -/
inductive PlaneReq where | drain | enable
  deriving DecidableEq, Repr

/-- The record kinds of R472. -/
inductive LifeKind where | soft | link | droop | temperature | voltage
  deriving DecidableEq, Repr

/-- A structure whose soft errors are counted (R472). -/
inductive SoftStruct where | vrf | sram | acc | scaleCache | dieCache | hbm | tier2 | siroccoBuffer | staging
  deriving DecidableEq, Repr

/-- The record CTXCREATE carries (R375, R377). -/
structure CtxArgs where
  asid : BitVec 16
  sysop : Bool
  dbg : Bool
  dbh : Bool
  conf : Bool
  ptroot : Nat
  bindtab : Nat
  savebase : Nat
  savesize : Nat
  keymask : BitVec 256
  deriving DecidableEq, Repr

/-- The instructions and events of the part, one constructor per row of spec/opcode_table.json. -/
inductive Instr where
  -- control
  | nop (h : Hdr) (len : Len)
  | bra (h : Hdr) (off : Word)
  | brx (h : Hdr) (a : Opnd)
  | call (h : Hdr) (d : BitVec 8) (off : Word)
  | callx (h : Hdr) (d : BitVec 8) (a : Opnd)
  | ret (h : Hdr) (a : Opnd)
  | regang (sw : Bool) (a : BitVec 8)
  | exit (h : Hdr)
  | yield (sw : Bool)
  | trap (h : Hdr) (n : BitVec 8)
  | bkpt (h : Hdr)
  | rtt (sw : Bool)
  | rdsr (h : Hdr) (sc : Bool) (d : BitVec 8) (sr : SReg)
  | wrsr (h : Hdr) (sr : SReg) (a : Opnd)
  | setseg (sw : Bool) (lim : Bool) (sp : Space) (a : BitVec 8)
  | getseg (sw : Bool) (lim : Bool) (sp : Space) (d : BitVec 6)
  | rdcyc (h : Hdr) (sc : Bool) (ord : Bool) (d : BitVec 8)
  | dbnz (h : Hdr) (sc : Bool) (d : BitVec 8) (off : Word)
  | savectx (sw : Bool) (a : BitVec 8)
  | loadctx (sw : Bool) (a : BitVec 8)
  | tlbinv (sw : Bool) (dev : Bool) (rng : InvRange)
  -- integer
  | mov (o : Op1) (ty : Ty)
  | movi (h : Hdr) (sc : Bool) (ty : Ty) (d : BitVec 8) (v : DWord)
  | iadd (o : Op2) (ty : Ty) (sat : Bool)
  | isub (o : Op2) (ty : Ty) (sat : Bool)
  | imul (o : Op2) (ty : Ty)
  | imulh (o : Op2) (ty : Ty)
  | imad (o : Op3) (ty : Ty)
  | imin (o : Op2) (ty : Ty)
  | imax (o : Op2) (ty : Ty)
  | iabs (o : Op1) (ty : Ty) (sat : Bool)
  | ineg (o : Op1) (ty : Ty) (sat : Bool)
  | and (o : Op2) (ty : Ty)
  | or (o : Op2) (ty : Ty)
  | xor (o : Op2) (ty : Ty)
  | not (o : Op1) (ty : Ty)
  | shl (o : Op2) (ty : Ty)
  | shr (o : Op2) (ty : Ty)
  | shra (o : Op2) (ty : Ty)
  | rot (o : Op2) (ty : Ty) (right : Bool)
  | popc (o : Op1) (ty : Ty)
  | clz (o : Op1) (ty : Ty)
  | brev (o : Op1) (ty : Ty)
  | bfe (o : Op2) (ty : Ty)
  | bfi (o : Op3) (ty : Ty)
  | lea (o : Op2) (ty : Ty) (s : BitVec 3) (disp : Word)
  | icmp (h : Hdr) (sc : Bool) (cc : Cond) (ty : Ty) (pd : BitVec 3) (a b : Opnd)
  | sel (o : Op2) (ty : Ty) (pc : BitVec 3)
  | plop (h : Hdr) (f : BitVec 4) (g : PlopG) (pd pa pb : BitVec 3)
  | vote (h : Hdr) (m : VoteMode) (pd pa : BitVec 3)
  | ballot (h : Hdr) (d : BitVec 8) (pa : BitVec 3)
  | v2s (sw : Bool) (ty : Ty) (d : BitVec 6) (a : Opnd) (b : BitVec 8)
  | iaddc (o : Op2) (ty : Ty) (q : BitVec 3) (ci : Option (BitVec 3))
  | isubb (o : Op2) (ty : Ty) (q : BitVec 3) (ci : Option (BitVec 3))
  | shfl (o : Op2) (ty : Ty) (m : ShflMode) (w : Fin 6)
  | prmt (o : Op3)
  -- floating point
  | fadd (o : Op2) (rm : RMode)
  | fsub (o : Op2) (rm : RMode)
  | fmul (o : Op2) (rm : RMode)
  | ffma (o : Op3) (rm : RMode)
  | fmin (o : Op2) (nan : Bool)
  | fmax (o : Op2) (nan : Bool)
  | fcmp (h : Hdr) (sc : Bool) (cc : FCond) (pd : BitVec 3) (a b : Opnd)
  | frcp (o : Op1) (rm : RMode)
  | frsq (o : Op1)
  | fsqrt (o : Op1) (rm : RMode)
  | fexp2 (o : Op1)
  | flog2 (o : Op1)
  | fsin (o : Op1)
  | fcos (o : Op1)
  | ftanh (o : Op1)
  | fscale (o : Op2) (rm : RMode)
  | frnd (o : Op1) (rm : RMode)
  | fclass (o : Op1) (ty : Ty)
  | ffma2 (o : Op3) (ty : Ty) (rm : RMode)
  | fadd2 (o : Op2) (ty : Ty) (rm : RMode)
  | fmul2 (o : Op2) (ty : Ty) (rm : RMode)
  | fdot2 (o : Op3) (ty : Ty) (rm : RMode)
  | fdot4 (o : Op3) (ty : Ty) (rm : RMode) (mx : Bool)
  -- conversion and lattice
  | cvt (o : Op1) (dst src : Ty) (rm : RMode) (sat : Bool)
  | cvtp (o : Op2) (dst : Ty) (rm : RMode) (sat : Bool) (p : BitVec 2)
  | cvtu (o : Op1) (src : Ty) (i : BitVec 3) (scale : Option Opnd)
  | bscale (o : Op1) (ty : Ty) (inv : Bool)
  | qparm (o : Op2) (q8 : Bool)
  | qapply (o : Op2) (q8 : Bool) (rm : RMode)
  | dq (o : Op2) (q8 : Bool) (i : BitVec 3)
  | qle8 (o : LatOp)
  | dle8 (o : LatOp)
  | rle8 (o : LatOp)
  | ule8 (o : LatOp)
  | cbq (h : Hdr) (d : BitVec 8) (a b : Opnd)
  -- fibre
  | requota (sw : Bool) (a b : BitVec 8)
  | fbar (sw : Bool) (a : BitVec 8)
  | fpost (sw : Bool) (a b : BitVec 8)
  | fwait (sw : Bool) (a b : BitVec 8)
  -- group
  | gbar (sw : Bool) (nf : Bool) (g : BitVec 2)
  | garv (sw : Bool) (nf : Bool) (d : BitVec 6) (g : BitVec 2)
  | gwait (sw : Bool) (nf : Bool) (g : BitVec 2) (b : BitVec 8)
  | gred (sw : Bool) (nf : Bool) (op : GredOp) (ty : Ty) (d : BitVec 6) (g : BitVec 2) (b : BitVec 8)
  | gqry (sw : Bool) (q : GQuery) (d : BitVec 6) (g : BitVec 2)
  -- barrier words and monitors
  | binit (sw : Bool) (sp : Space) (a b : BitVec 8)
  | barv (sw : Bool) (nf : Bool) (sp : Space) (sc : Scope) (d : BitVec 6) (a : BitVec 8)
  | bwait (sw : Bool) (nf : Bool) (sp : Space) (sc : Scope) (a b : BitVec 8)
  | bdrop (sw : Bool) (sp : Space) (a : BitVec 8)
  | waitcmp (h : Hdr) (cc : Cond) (acq : Bool) (ty : Ty) (sc : Scope) (d : BitVec 8) (a b : Opnd)
  -- memory
  | ld (h : Hdr) (scf : Bool) (acq : Option Scope) (cnt : Count) (sp : Space) (ty : Ty) (d : BitVec 8) (a : Opnd)
      (c : BitVec 8)
  | st (h : Hdr) (rel : Option Scope) (cnt : Count) (sp : Space) (ty : Ty) (a b : Opnd) (c : BitVec 8)
  | ldl (sw : Bool) (k : BitVec 3) (d : BitVec 8) (t : Tile) (b : BitVec 8)
  | stl (sw : Bool) (k : BitVec 3) (t : Tile) (b : BitVec 8) (c : Opnd)
  | gath (h : Hdr) (cont sx : Bool) (sp : Space) (ty : Ty) (d : BitVec 8) (a b : Opnd) (cb : BitVec 3)
  | scat (h : Hdr) (cont sx : Bool) (sp : Space) (ty : Ty) (d : BitVec 8) (a b : Opnd) (cb : BitVec 3)
  | atom (h : Hdr) (op : AtomOp) (sp : Space) (ty : Ty) (sc : Scope) (ord : AtomOrd) (d : BitVec 8) (a b : Opnd)
  | red (h : Hdr) (op : AtomOp) (sp : Space) (ty : Ty) (sc : Scope) (rel : Bool) (a b : Opnd)
  | fence (sw : Bool) (m : FenceMode) (sc : Scope)
  | bind (sw : Bool) (i : BitVec 10) (a b c : BitVec 8)
  | unbind (sw : Bool) (i : BitVec 10)
  | unbindObj (sw : Bool) (a : BitVec 8)
  | acq (h : Hdr) (op : AcqOp) (sc : Scope) (d : BitVec 8) (a : Opnd)
  | rels (h : Hdr) (op : RelsOp) (sc : Scope) (a b : Opnd)
  | pref (h : Hdr) (lvl : PrefLevel) (sp : Space) (a : Opnd) (c : BitVec 8)
  | cinv (h : Hdr) (sc : Scope) (sp : Space) (a : Opnd) (c : BitVec 8)
  | cwb (h : Hdr) (sc : Scope) (sp : Space) (a : Opnd) (c : BitVec 8)
  -- layout, handle and crossbar
  | lld (sw : Bool) (sp : Space) (d : BitVec 4) (a : BitVec 8)
  | lst (sw : Bool) (sp : Space) (a : BitVec 8) (b : BitVec 4)
  | lset (sw : Bool) (clr level : Bool) (mode : BitVec 3) (d : BitVec 4) (ext : BitVec 16) (step : BitVec 24)
  | lchain (sw : Bool) (d a b : BitVec 4)
  | lpart (sw : Bool) (die : Bool) (mode : BitVec 3) (d a : BitVec 4) (tile : BitVec 16)
  | ltrans (sw : Bool) (d a : BitVec 4) (perm : BitVec 18)
  | lflat (sw : Bool) (byMode : Bool) (mode : BitVec 3) (d a : BitVec 4)
  | lslice (sw : Bool) (mode : BitVec 3) (d a : BitVec 4) (b : BitVec 8) (c : BitVec 4) (imm : Word)
  | lswz (sw : Bool) (d a : BitVec 4) (b : BitVec 8)
  | lqry (sw : Bool) (q : LQuery) (d : BitVec 6) (a : BitVec 4)
  | hmk (sw : Bool) (gsize : BitVec 2) (kind : Kind) (fmt : Fmt) (d : BitVec 4) (a b : BitVec 8) (stride : BitVec 48)
  | hset (sw : Bool) (f : HField) (d : BitVec 4) (v : HVal)
  | hqry (sw : Bool) (f : HField) (d : BitVec 6) (a : BitVec 4)
  | permx (sw : Bool) (t : BitVec 4) (d : BitVec 8) (a : Opnd)
  | ptld (sw : Bool) (sp : Space) (t : BitVec 4) (a : BitVec 8)
  | lmov (sw : Bool) (hnd : Bool) (d a : BitVec 4)
  -- matrix
  | mwld (sw : Bool) (bmc : Bool) (t : Tile)
  | mwsw (sw : Bool)
  | mrel (sw : Bool)
  | mstr (sw : Bool) (init : Bool) (zb : Option (BitVec 8)) (d : BitVec 2) (t : Tile) (row0 : BitVec 7)
  | mzero (sw : Bool) (d : BitVec 2)
  | mzld (sw : Bool) (d : BitVec 2) (t : Tile) (b : BitVec 8)
  | mzst (sw : Bool) (rm : RMode) (d : BitVec 2) (t : Tile) (b : BitVec 8)
  | mzmvTo (sw : Bool) (c : BitVec 2) (d : BitVec 8) (a : BitVec 2) (b : BitVec 8)
  | mzmvFrom (sw : Bool) (c : BitVec 2) (d : BitVec 2) (a : Opnd) (b : BitVec 8)
  | mresc (sw : Bool) (d : BitVec 2) (a : Opnd)
  | mcbld (sw : Bool) (sp : Space) (a : BitVec 8)
  | mqry (sw : Bool) (q : MQuery) (d : BitVec 6)
  | tred (sw : Bool) (sum : Bool) (d : BitVec 8) (a : BitVec 2) (b : BitVec 8)
  -- copy job
  | cpy (sw : Bool) (tag : BitVec 6) (sp : Space) (a b : Tile) (c : BitVec 8)
  | cpym (sw : Bool) (tag : BitVec 6) (sp : Space) (a b : Tile) (c : BitVec 8)
  | twany (sw : Bool) (d : BitVec 6) (a : BitVec 8)
  | twall (sw : Bool) (a : BitVec 8)
  | tffr (sw : Bool) (d : BitVec 6) (a : BitVec 8)
  | tclr (sw : Bool) (a : BitVec 8)
  | jqry (sw : Bool) (q : JQuery) (d : BitVec 6)
  | jcan (sw : Bool) (a : BitVec 8)
  -- fabric
  | xfer (sw : Bool) (cg arv : Bool) (sp : Space) (a b : BitVec 8) (c : BitVec 6)
  | xget (sw : Bool) (sp : Space) (a b : BitVec 8) (c : BitVec 6)
  | xatom (sw : Bool) (cg rel : Bool) (f : XatomForm) (a b : BitVec 8) (c : BitVec 6)
  | xpost (sw : Bool) (sp : Space) (d : BitVec 6) (a b : BitVec 8)
  | xmc (sw : Bool) (arv : Bool) (sp : Space) (a b : BitVec 8) (c : BitVec 6)
  | arvset (sw : Bool) (clr : Bool) (a b c : BitVec 8)
  | arvwait (sw : Bool) (nf : Bool) (a : BitVec 8)
  | coll (sw : Bool) (a : BitVec 8)
  | xfence (sw : Bool)
  -- commit group and queue
  | cgopen (sw : Bool) (d : BitVec 6) (a b : BitVec 8)
  | cgopenJoin (sw : Bool) (d : BitVec 6) (a : BitVec 8)
  | cgprep (sw : Bool) (d : BitVec 6)
  | cghoist (sw : Bool) (d : BitVec 6)
  | cgabort (sw : Bool)
  | cgqry (sw : Bool) (q : CgQuery) (d : BitVec 6) (a : BitVec 8)
  | qpush (sw : Bool) (sp : Space) (d : BitVec 6) (a b : BitVec 8)
  -- a word whose opcode the assignment does not assign
  | unassignedOpcode (op : BitVec 9) (lenCode : BitVec 2)
  -- events of fibres
  | resultReturn (f : FibreRef) (n : Nat)
  | deferredFpostApply (f : FibreRef)
  | fbarArrivalCount (f : FibreRef)
  | forcedRotation (f : FibreRef)
  | gangTurnLimit (f : FibreRef)
  | asyncDataError (f : FibreRef)
  | matrixDataError (f : FibreRef)
  | jobFaultSignal (f : FibreRef)
  | remoteErrorTrap (f : FibreRef)
  | faultServiced (f : FibreRef) (ans : FaultAnswer)
  -- events of pages, caches and monitors
  | migrationCopyComplete (asid : BitVec 16) (va : VA)
  | migrationCopyError (asid : BitVec 16) (va : VA)
  | shootdownComplete (asid : BitVec 16) (va : VA)
  | lineReplacement (core : Option Nat) (die : Fin 4) (line : Nat)
  | monitorFire (f : FibreRef) (g : Nat)
  | monitorPoll (f : FibreRef) (g : Nat)
  -- events of queues, kernels and clusters
  | queueProducerWrite (q : Nat)
  | packetTake (q : Nat) (noAlloc : List Nat)
  | launchLoadComplete (k : KernelRef) (noAlloc : List Nat)
  | clusterPlace (k : KernelRef) (clu : Nat) (cores : List Nat)
  | preemptRequest (cl : Nat) (why : PreemptWhy)
  | parkedClusterTimeout (cl : Nat)
  | clusterSaveComplete (cl : Nat)
  | clusterResume (cl : Nat) (cores : List Nat)
  | kernelRetire (k : KernelRef) (noAlloc : List Nat)
  -- steps of a warm reset
  | quiesceComplete (d : Fin 4)
  | coreResetComplete (d : Fin 4)
  -- events of copy jobs and the matrix array
  | jobStart (cl team tag : Nat)
  | jobLanded (cl team tag : Nat)
  | jobDone (cl team tag : Nat)
  | jobFaulted (cl team tag : Nat)
  | jobReplay (cl team tag : Nat) (ans : FaultAnswer)
  | cpymFollowOn (cl team tag : Nat)
  | weightLoadComplete (cl team : Nat)
  | streamRowCommit (cl team : Nat)
  | arrayDeferredAct (cl team : Nat)
  -- events of links
  | remoteRequestArrive (r : RemReq)
  | remoteReply (id : Nat) (rep : Reply) (src : Replier)
  | rnrRetry (id : Nat)
  | counterPacketArrive (asid : BitVec 16) (id : BitVec 8) (n : DWord)
  | multicastPacketArrive (r : RemReq)
  | xpostArrive (r : RemReq)
  | collResultArrive (id : Nat) (parts : List (List Word))
  | leaderExchangeArrive (id : Nat) (data : List LeaderData)
  | planeDrainComplete (plane : Nat)
  | portTrained (port : Nat) (lanes : Nat) (far : BitVec 16) (inc : BitVec 32)
  | portTrainingFail (port : Nat)
  | laneLost (port : Nat)
  | replayLimit (port : Nat)
  | flitCrcError (port : Nat)
  | portDown (port : Nat)
  | frameAck (port : Nat) (n : Nat)
  | siroccoKeyRollover (port : Nat)
  | hostMemRead (pa : Nat) (n : Nat)
  | hostMemWrite (pa : Nat) (bytes : List Byte)
  | hostSnoop (pa : Nat)
  -- events of commit groups
  | cgRecordArrive (r : RemReq)
  | cgPrepareArrive (sdev : BitVec 16) (cgid : BitVec 32) (asid : BitVec 16) (obj : VA) (n : Nat) (crc : DWord)
  | cgPrepareReply (cgid : BitVec 32) (dst : Nat) (rep : CgReply)
  | cgWindowExpire (cgid : BitVec 32)
  | cgAbortArrive (cgid : BitVec 32) (asid : BitVec 16)
  | cgHoistArrive (cgid : BitVec 32) (asid : BitVec 16)
  | cgApplyAck (cgid : BitVec 32) (dst : Nat) (applied : Bool)
  | cgHoldExpire (cgid : BitVec 32) (asid : BitVec 16)
  | cgDecisionAnswer (cgid : BitVec 32) (asid : BitVec 16) (ans : CgAnswer)
  -- events of dies
  | powerOnReset
  | dieMeasurement (d : DieId) (digest : BitVec 384) (ok : Bool)
  | ucieTrained (d : DieId)
  | operatingPointGrant (d : Fin 4) (freq : Nat)
  | diewarm (d : Fin 4)
  | dieRetrainComplete (d : Fin 4) (digest : BitVec 384) (ok : Bool)
  | mgmtCoreStart (p : Fin 2)
  | portDieFail (p : Fin 2)
  | railPowerGood (r : Rail)
  | railPowerLoss (r : Rail)
  | frequencyChange (d : Fin 4) (freq : Nat)
  | linkWidthReduction (d : Fin 4) (width : UcieLink × Nat)
  | lifetimeCommit
  -- mailbox commands
  | ctxcreate (c : CtxArgs)
  | ctxrestore (asid : BitVec 16)
  | ctxevict (asid : BitVec 16)
  | ctxclose (asid : BitVec 16)
  | ctxquery (asid : BitVec 16)
  | map (asid : BitVec 16) (va : VA) (level : Nat) (pas : List Nat) (tier : BitVec 2) (home : BitVec 2) (attr : LeafAttr)
      (tables : List Nat)
  | unmap (asid : BitVec 16) (va : VA) (len : Nat)
  | protect (asid : BitVec 16) (va : VA) (len : Nat) (attr : LeafAttr)
  | migrate (asid : BitVec 16) (va : VA) (len : Nat) (tier : BitVec 2) (home : BitVec 2) (pas : List Nat)
  | pin (asid : BitVec 16) (va : VA) (len : Nat)
  | unpin (asid : BitVec 16) (va : VA) (len : Nat)
  | translate (asid : BitVec 16) (va : VA)
  | qcreate (q : Nat) (asid : BitVec 16) (lsz : BitVec 4) (cap : BitVec 2) (rva pva cva : VA)
  | qdestroy (q : Nat)
  | qreset (q : Nat)
  | aclset (i : Nat) (v : Bool) (sdev sasid : BitVec 16) (cap : BitVec 2) (qmask : DWord)
  | linkset (r : LinkSetReq)
  | linkquery (r : LinkQueryReq)
  | planeset (plane : Nat) (r : PlaneReq)
  | spanset (pod : BitVec 7) (mask : BitVec 8)
  | devid (pod : BitVec 7) (dev : BitVec 9)
  | dhalt (d : Fin 4)
  | dresume (d : Fin 4)
  | dread (asid : BitVec 16) (f : FibreRef) (off n : Nat)
  | dwrite (asid : BitVec 16) (f : FibreRef) (off : Nat) (bytes : List Byte)
  | dcont (f : FibreRef)
  | liferead (k : LifeKind)
  | powerset (d : Fin 4) (amps : Nat)
  | mailboxUnsupported (opcode : BitVec 16)
  -- out-of-band requests
  | mctpPowerset (d : Fin 4) (amps : Nat)
  | lifeget (k : LifeKind)
  | keyload (id : BitVec 8) (key : BitVec 512)
  | getVersion
  | getCapabilities
  | negotiateAlgorithms
  | getDigests
  | getCertificate
  | challenge (nonce : BitVec 256)
  | getMeasurements (i : Nat)
  | keyExchange (rnd : BitVec 256)
  | finish (hmacOk : Bool)
  | endSession
  | yardarmRouteReport (plane : Nat) (dev : BitVec 16) (present : Bool)
  | orderlyPowerDown
  | droopEvent (d : Fin 4) (mv : Nat)
  | lifetimeMinute (temps : List Nat) (mv : List Nat)
  deriving DecidableEq, Repr

end Sys2Proof
end

