-- ==== Sys2Proof/WellFormed.lean ====
section
/-! DEFINITION. Which instructions have an encoding: the class, alignment, type and index conditions of step 4 of R67
(02_instruction_word.md R42, R43, R46, R49, R52 to R55, and the encoding table of each group). A field that a
constructor does not carry is reserved and encoded as zero. -/

namespace Sys2Proof

/-- The type has 64-bit elements. -/
def Ty.is64 : Ty → Bool
  | .i64 | .n64 => true
  | _ => false

/-- One of the integer types of 32 or 64 bits (types 0x0 to 0x3). -/
def Ty.isInt : Ty → Bool
  | .i32 | .n32 | .i64 | .n64 => true
  | _ => false

/-- FP16 or BF16. -/
def Ty.isHalf : Ty → Bool
  | .f16 | .bf16 => true
  | _ => false

/-- A type of floating elements of 4 to 16 bits (types 0x9 to 0xD). -/
def Ty.isSmallFloat : Ty → Bool
  | .f16 | .bf16 | .e4m3 | .e5m2 | .e2m1 => true
  | _ => false

/-- The 64-bit special registers (R58). -/
def SReg.wide : SReg → Bool
  | .tags | .cyc | .epc | .eaddr => true
  | _ => false

/-- A scalar-space code that R53 does not reserve. -/
def sOk (n : BitVec 8) : Bool := n.toNat < 0x8A

/-- An even register number (class V2). -/
def isEven (n : BitVec 8) : Bool := n.getLsbD 0 == false

/-- A source of class V, or V2 when `w`, or S when its X bit is set; class S in the scalar form (R49, R52). -/
def srcOk (sc w : Bool) (o : Opnd) : Bool :=
  if sc || o.x then sOk o.idx && !o.last else !w || isEven o.idx

/-- A source that is a vector register, or pair when `w`, whatever the form gives: it has no X bit. -/
def vecOk (w : Bool) (o : Opnd) : Bool := !o.x && (!w || isEven o.idx)

/-- A C source: class V or V2, class S in the scalar form; C has no X bit (R52). -/
def srcCOk (sc w : Bool) (o : Opnd) : Bool := !o.x && srcOk sc w o

/-- A destination of class V, or V2 when `w`; s0–s63 in the scalar form (R55). -/
def dstOk (sc w : Bool) (d : BitVec 8) : Bool := if sc then d.toNat < 0x40 else !w || isEven d

/-- A run of `n` registers from `d` does not pass v255. -/
def runOk (n : Nat) (d : BitVec 8) : Bool := d.toNat + n ≤ 256

def Op1.ok (o : Op1) (wd wa : Bool) : Bool := dstOk o.sc wd o.d && srcOk o.sc wa o.a
def Op2.ok (o : Op2) (wd wa wb : Bool) : Bool := dstOk o.sc wd o.d && srcOk o.sc wa o.a && srcOk o.sc wb o.b
def Op3.ok (o : Op3) (wd wa wb wc : Bool) : Bool :=
  dstOk o.sc wd o.d && srcOk o.sc wa o.a && srcOk o.sc wb o.b && srcCOk o.sc wc o.c

/-- The address field of a memory instruction: V2 in the 64-bit spaces, V elsewhere, S with XA (R212). -/
def addrOk (sc : Bool) (sp : Space) (a : Opnd) : Bool :=
  srcOk sc (match sp with | .gl | .rm => true | _ => false) a

/-- The width in bits of a memory element type; 0 for a type no memory instruction takes (R213). -/
def Ty.memBits : Ty → Nat
  | .i8 | .n8 | .e4m3 | .e5m2 => 8
  | .i16 | .n16 | .f16 | .bf16 | .le8 => 16
  | .i32 | .n32 | .f32 => 32
  | .i64 | .n64 => 64
  | .e2m1 | .grp => 0

def Count.num : Count → Nat
  | .one => 1
  | .two => 2
  | .four => 4

/-- The counts that a width accepts, and the alignment of the run (R213). -/
def memRunOk (bits : Nat) (c : Count) (r : BitVec 8) : Bool :=
  match bits with
  | 8 | 16 => c == .one
  | 32 => dvd c.num r.toNat
  | 64 => c != .four && dvd (2 * c.num) r.toNat
  | _ => false

/-- The spaces of BINIT, BARV, BWAIT and BDROP (R334), and of gathers (R214). -/
def Space.isTmClGl : Space → Bool
  | .tm | .cl | .gl => true
  | _ => false

/-- The spaces of LLD, MCBLD, CPY, PTLD, XPOST and QPUSH (R265, R292, R306, R372). -/
def Space.isTmGlKo : Space → Bool
  | .tm | .gl | .ko => true
  | _ => false

/-- The scalar-form or vector-form C field of an LD or ST: the remote space names s0–s63 (R212). -/
def memCOk (sp : Space) (c : BitVec 8) : Bool := sp != .rm || c.toNat < 0x40

/-- The type accepted by an operation of R224. -/
def AtomOp.accepts : AtomOp → Ty → Bool
  | .add, t | .min, t | .max, t => t.isInt || t == .f32 || t.isHalf
  | _, t => t == .n32 || t == .n64

/-- R187: the codebook operand of CBQ. -/
def codebookOk (b : Opnd) : Bool :=
  if b.x then b.idx.toNat ≤ 60 && dvd 4 b.idx.toNat && !b.last else b.idx.toNat ≤ 248

/-- R181: the operands shared by the lattice instructions. -/
def LatOp.ok (o : LatOp) : Bool := vecOk false o.a && srcOk false false o.b && sOk o.c

/-- A mode field of the layout group: 6 and 7 are none (R265). -/
def modeOk (m : BitVec 3) : Bool := m.toNat < 6

/-- A pair s(c), s(c + 1) of R430. -/
def pairOk (c : BitVec 6) : Bool := c.getLsbD 0 == false

/-- The instruction words that step 4 of R67 lets through; the rows that are no words have no encoding and are
never refused here. -/
def Instr.wf : Instr → Bool
  | .nop .. | .exit _ | .trap .. | .bkpt _ | .yield _ | .rtt _ => true
  | .bra _ off => dvd 4 off.toNat
  | .brx _ a | .ret _ a => srcOk false true a && !a.last
  | .call _ d off => isEven d && dvd 4 off.toNat
  | .callx _ d a => isEven d && srcOk false true a && !a.last
  | .regang _ a => sOk a
  | .rdsr _ sc d sr => dstOk sc sr.wide d
  | .wrsr _ sr a => srcOk false sr.wide a && !a.last
  | .setseg _ _ sp a => sOk a && sp != .tm && sp != .cl
  | .getseg .. => true
  | .rdcyc _ sc _ d => dstOk sc true d
  | .dbnz _ sc d off => dstOk sc false d && dvd 4 off.toNat
  | .savectx _ a | .loadctx _ a => sOk a
  | .tlbinv _ _ r => match r with | .all => true | .range a b => sOk a && sOk b
  | .mov o t | .not o t | .brev o t => t.isInt && o.ok t.is64 t.is64
  | .movi _ sc t d v => (t.isInt || t == .f32) && dstOk sc t.is64 d && (t.is64 || v.toNat < 2 ^ 32)
  | .iadd o t _ | .isub o t _ | .imul o t | .imulh o t | .imin o t | .imax o t | .and o t | .or o t | .xor o t =>
    t.isInt && o.ok t.is64 t.is64 t.is64
  | .imad o t => t.isInt && o.ok t.is64 t.is64 t.is64 t.is64
  | .iabs o t _ | .ineg o t _ => (t == .i32 || t == .i64) && o.ok t.is64 t.is64
  | .shl o t | .shr o t | .shra o t | .rot o t _ | .bfe o t => t.isInt && o.ok t.is64 t.is64 false
  | .popc o t | .clz o t => t.isInt && o.ok false t.is64
  | .bfi o t => t.isInt && o.ok t.is64 t.is64 false t.is64
  | .lea o t _ _ => t.isInt && o.ok true true t.is64
  | .icmp _ sc _ t _ a b => t.isInt && srcOk sc t.is64 a && srcOk sc t.is64 b
  | .sel o t _ => t.isInt && o.ok t.is64 t.is64 t.is64
  | .plop .. | .vote .. | .ballot .. => true
  | .v2s _ t _ a b => (t == .n32 || t == .n64) && vecOk t.is64 a && sOk b
  | .iaddc o t _ _ | .isubb o t _ _ => (t == .n32 || t == .n64) && o.ok t.is64 t.is64 t.is64
  | .shfl o t _ _ => (t == .n32 || t == .n64) && !o.sc && dstOk false t.is64 o.d && vecOk t.is64 o.a &&
      srcOk false false o.b
  | .prmt o => o.ok false false false false
  | .fadd o _ | .fsub o _ | .fmul o _ | .fmin o _ | .fmax o _ | .fscale o _ => o.ok false false false
  | .ffma o _ => o.ok false false false false
  | .fcmp _ sc _ _ a b => srcOk sc false a && srcOk sc false b
  | .frcp o _ | .frsq o | .fsqrt o _ | .fexp2 o | .flog2 o | .fsin o | .fcos o | .ftanh o | .frnd o _ => o.ok false false
  | .fclass o t => (t == .f32 || t.isHalf) && o.ok false false
  | .ffma2 o t _ | .fdot2 o t _ => t.isHalf && o.ok false false false false
  | .fadd2 o t _ | .fmul2 o t _ => t.isHalf && o.ok false false false
  | .fdot4 o t _ _ => (t == .e4m3 || t == .e5m2) && o.ok false false false false
  | .cvt o dst src _ _ => dst != .le8 && dst != .grp && src != .le8 && src != .grp && o.ok dst.is64 src.is64
  | .cvtp o dst _ _ p => o.ok false false false &&
      match dst with
      | .f16 | .bf16 => p == 0
      | .e4m3 | .e5m2 => p.toNat < 2
      | .e2m1 => true
      | _ => false
  | .cvtu o src i b => o.ok false false && (match b with | none => true | some b => srcOk o.sc false b) &&
      match src with
      | .i16 | .n16 => i.toNat < 2 && b == none
      | .i8 | .n8 => i.toNat < 4 && b == none
      | .f16 | .bf16 => i.toNat < 2
      | .e4m3 | .e5m2 => i.toNat < 4
      | .e2m1 => true
      | _ => false
  | .bscale o t _ => (t == .e4m3 || t == .e5m2 || t == .e2m1) && o.ok false false
  | .qparm o _ | .qapply o _ _ => o.ok false false false
  | .dq o q8 i => o.ok false false false && (!q8 || i.toNat < 4)
  | .qle8 o => o.ok && runOk 8 o.a.idx
  | .ule8 o => o.ok && runOk 8 o.a.idx
  | .dle8 o => srcOk false false o.a && srcOk false false o.b && sOk o.c && runOk 8 o.d
  | .rle8 o => o.ok && runOk 8 o.a.idx && !o.a.last && !(o.a.idx.toNat ≤ o.d.toNat && o.d.toNat ≤ o.a.idx.toNat + 7)
  | .cbq _ _ a b => srcOk false false a && codebookOk b
  | .requota _ a b | .fpost _ a b | .fwait _ a b => sOk a && sOk b
  | .fbar _ a => sOk a
  | .gbar .. | .garv .. | .gqry .. => true
  | .gwait _ _ _ b => sOk b
  | .gred _ _ op t _ _ b => sOk b && (t.isInt || t == .f32) &&
      match op with
      | .add | .min | .max => true
      | _ => t == .n32 || t == .n64
  | .binit _ sp a b => sp.isTmClGl && sOk a && sOk b
  | .barv _ _ sp _ _ a => sp.isTmClGl && sOk a
  | .bwait _ _ sp _ a b => sp.isTmClGl && sOk a && sOk b
  | .bdrop _ sp a => sp.isTmClGl && sOk a
  | .waitcmp _ _ _ t _ d a b => t.isInt && dstOk false t.is64 d && srcOk false true a && srcOk false t.is64 b
  | .ld _ scf _ n sp t d a c => t.memBits != 0 && addrOk scf sp a && memCOk sp c &&
      (if scf then n == .one && d.toNat < 0x40 else memRunOk t.memBits n d)
  | .st _ _ n sp t a b c => t.memBits != 0 && addrOk false sp a && memCOk sp c &&
      (if b.x then n == .one && srcOk false false b else memRunOk t.memBits n b.idx)
  | .ldl _ k d _ b => k.toNat < 7 && runOk (2 ^ k.toNat) d && sOk b
  | .stl _ k _ b c => k.toNat < 7 && runOk (2 ^ k.toNat) c.idx && !c.x && sOk b
  | .gath _ _ _ sp t d a b _ | .scat _ _ _ sp t d a b _ => (sp.isTmClGl || sp == .ko) && t.memBits != 0 &&
      dstOk false (t.memBits == 64) d && addrOk false sp a && srcOk false false b
  | .atom _ op sp t _ _ d a b => sp != .rm && op.accepts t && dstOk false t.is64 d && addrOk false sp a &&
      srcOk false t.is64 b
  | .red _ op sp t _ _ a b => sp != .rm && op.accepts t && op != .exch && op != .cas && addrOk false sp a &&
      srcOk false t.is64 b
  | .fence .. | .unbind .. => true
  | .bind _ _ a b c => sOk a && sOk b && sOk c
  | .unbindObj _ a => sOk a
  | .acq _ op _ d a => isEven d && srcOk false true a &&
      match op with
      | .ld => true
      | .cas b c => srcOk false true b && vecOk true c
  | .rels _ _ _ a b => srcOk false true a && srcOk false true b
  | .pref _ _ sp a _ => (sp == .prv || sp == .gl || sp == .ko) && addrOk false sp a
  | .cinv _ _ sp a _ | .cwb _ _ sp a _ => sp != .rm && addrOk false sp a
  | .lld _ sp _ a => sp.isTmGlKo && sOk a
  | .lst _ sp a _ => (sp == .tm || sp == .gl) && sOk a
  | .lset _ _ _ m .. | .lpart _ _ m .. | .lflat _ _ m .. => modeOk m
  | .lslice _ m _ _ b _ _ => modeOk m && sOk b
  | .lchain .. | .ltrans .. | .lqry .. | .hqry .. | .lmov .. => true
  | .lswz _ _ _ b => sOk b
  | .hmk _ g k _ _ a b _ => g.toNat < 3 && sOk a && sOk b && (k == .rm || b == 0)
  | .hset _ _ _ v => match v with | .imm _ => true | .reg a => sOk a
  | .permx _ _ _ a => vecOk false a
  | .ptld _ sp _ a => sp.isTmGlKo && sOk a
  | .mwld .. | .mwsw _ | .mrel _ | .mzero .. | .mqry .. => true
  | .mstr _ _ zb _ _ _ => match zb with | none => true | some c => sOk c
  | .mzld _ _ _ b => sOk b
  | .mzst _ rm _ _ b => rm != .rst && sOk b
  | .mzmvTo _ c d _ b => runOk (4 * 2 ^ c.toNat) d && sOk b
  | .mzmvFrom _ c _ a b => vecOk false a && runOk (4 * 2 ^ c.toNat) a.idx && sOk b
  | .mresc _ _ a => vecOk false a && runOk 4 a.idx
  | .mcbld _ sp a => sp.isTmGlKo && sOk a
  | .tred _ _ d _ b => runOk 4 d && sOk b
  | .cpy _ _ sp _ _ c | .cpym _ _ sp _ _ c => sp.isTmGlKo && sOk c
  | .twany _ _ a | .twall _ a | .tffr _ _ a | .tclr _ a | .jcan _ a => sOk a
  | .jqry _ q _ => match q with | .ffl => true | .st a | .prog a | .cause a | .addr a => sOk a
  | .xfer _ _ _ sp a b c => (sp.isTmClGl || sp == .ko) && sOk a && sOk b && pairOk c
  | .xget _ sp a b c => sp.isTmClGl && sOk a && sOk b && pairOk c
  | .xatom _ cg _ f a b _ => sOk a && sOk b &&
      match f with
      | .arv => true
      | .mem _ op t => !cg && op.accepts t && !t.isHalf
  | .xpost _ sp _ a b | .qpush _ sp _ a b => sp.isTmGlKo && sOk a && sOk b
  | .xmc _ _ sp a b c => (sp.isTmClGl || sp == .ko) && sOk a && sOk b && pairOk c
  | .arvset _ _ a b c => sOk a && sOk b && sOk c
  | .arvwait _ _ a | .coll _ a => sOk a
  | .xfence _ | .cgprep .. | .cghoist .. | .cgabort _ => true
  | .cgopen _ _ a b => sOk a && sOk b
  | .cgopenJoin _ _ a | .cgqry _ _ _ a => sOk a
  | _ => true

end Sys2Proof
end

