-- ==== Sys2Proof/Decode.lean ====
section
/-! DEFINITION. Instruction words (02_instruction_word.md R36 to R64 and the encoding table of every group): the code of
each field, the fields of each instruction (`Instr.toFields`), the reading of a field record (`Fields.read`), and the
decoder over bytes. The decoder answers an instruction only when encoding that instruction gives the word back and the
instruction is well formed, so a nonzero reserved field, a length that the opcode does not accept and a field outside
its class are all refused (R41, R42, R52, R67 step 4). -/

namespace Sys2Proof

/-! ### Codes -/

/-- The codes of R60, from 0 in order. -/
def Ty.codes : List Ty := [.i32, .n32, .i64, .n64, .i16, .n16, .i8, .n8, .f32, .f16, .bf16, .e4m3, .e5m2, .e2m1, .le8, .grp]
def Ty.code (t : Ty) : BitVec 4 := BitVec.ofNat 4 (Ty.codes.idxOf t)
def Ty.ofCode (c : BitVec 4) : Option Ty := Ty.codes[c.toNat]?
theorem Ty.ofCode_code (t : Ty) : Ty.ofCode t.code = some t := by cases t <;> rfl

/-- The codes of R25, from 0 in order. -/
def Space.codes : List Space := [.prv, .tm, .cl, .gl, .ko, .rm]
def Space.code (t : Space) : BitVec 3 := BitVec.ofNat 3 (Space.codes.idxOf t)
def Space.ofCode (c : BitVec 3) : Option Space := Space.codes[c.toNat]?
theorem Space.ofCode_code (t : Space) : Space.ofCode t.code = some t := by cases t <;> rfl

/-- The codes of R28, from 0 in order. -/
def Scope.codes : List Scope := [.lane, .fibre, .slot, .team, .cluster, .die, .device, .host, .pod, .span]
def Scope.code (t : Scope) : BitVec 4 := BitVec.ofNat 4 (Scope.codes.idxOf t)
def Scope.ofCode (c : BitVec 4) : Option Scope := Scope.codes[c.toNat]?
theorem Scope.ofCode_code (t : Scope) : Scope.ofCode t.code = some t := by cases t <;> rfl

/-- The codes of R92, from 0 in order. -/
def RMode.codes : List RMode := [.rne, .rz, .rdn, .rup, .rna, .rst, .dyn]
def RMode.code (t : RMode) : BitVec 3 := BitVec.ofNat 3 (RMode.codes.idxOf t)
def RMode.ofCode (c : BitVec 3) : Option RMode := RMode.codes[c.toNat]?
theorem RMode.ofCode_code (t : RMode) : RMode.ofCode t.code = some t := by cases t <;> rfl

/-- The codes of R150, from 0 in order. -/
def Cond.codes : List Cond := [.eq, .ne, .lt, .le, .gt, .ge]
def Cond.code (t : Cond) : BitVec 3 := BitVec.ofNat 3 (Cond.codes.idxOf t)
def Cond.ofCode (c : BitVec 3) : Option Cond := Cond.codes[c.toNat]?
theorem Cond.ofCode_code (t : Cond) : Cond.ofCode t.code = some t := by cases t <;> rfl

/-- The codes of R165, from 0 in order. -/
def FCond.codes : List FCond := [.eq, .ne, .lt, .le, .gt, .ge, .num, .nan]
def FCond.code (t : FCond) : BitVec 4 := BitVec.ofNat 4 (FCond.codes.idxOf t)
def FCond.ofCode (c : BitVec 4) : Option FCond := FCond.codes[c.toNat]?
theorem FCond.ofCode_code (t : FCond) : FCond.ofCode t.code = some t := by cases t <;> rfl

/-- The codes of R153, from 0 in order. -/
def VoteMode.codes : List VoteMode := [.any, .all, .uni]
def VoteMode.code (t : VoteMode) : BitVec 2 := BitVec.ofNat 2 (VoteMode.codes.idxOf t)
def VoteMode.ofCode (c : BitVec 2) : Option VoteMode := VoteMode.codes[c.toNat]?
theorem VoteMode.ofCode_code (t : VoteMode) : VoteMode.ofCode t.code = some t := by cases t <;> rfl

/-- The codes of R155, from 0 in order. -/
def ShflMode.codes : List ShflMode := [.idx, .up, .down, .xor]
def ShflMode.code (t : ShflMode) : BitVec 2 := BitVec.ofNat 2 (ShflMode.codes.idxOf t)
def ShflMode.ofCode (c : BitVec 2) : Option ShflMode := ShflMode.codes[c.toNat]?
theorem ShflMode.ofCode_code (t : ShflMode) : ShflMode.ofCode t.code = some t := by cases t <;> rfl

/-- The codes of R224, from 0 in order. -/
def AtomOp.codes : List AtomOp := [.add, .min, .max, .and, .or, .xor, .exch, .cas]
def AtomOp.code (t : AtomOp) : BitVec 3 := BitVec.ofNat 3 (AtomOp.codes.idxOf t)
def AtomOp.ofCode (c : BitVec 3) : Option AtomOp := AtomOp.codes[c.toNat]?
theorem AtomOp.ofCode_code (t : AtomOp) : AtomOp.ofCode t.code = some t := by cases t <;> rfl

/-- The codes of R224, from 0 in order. -/
def AtomOrd.codes : List AtomOrd := [.none, .acq, .rel, .ar]
def AtomOrd.code (t : AtomOrd) : BitVec 2 := BitVec.ofNat 2 (AtomOrd.codes.idxOf t)
def AtomOrd.ofCode (c : BitVec 2) : Option AtomOrd := AtomOrd.codes[c.toNat]?
theorem AtomOrd.ofCode_code (t : AtomOrd) : AtomOrd.ofCode t.code = some t := by cases t <;> rfl

/-- The codes of R211, from 0 in order. -/
def Count.codes : List Count := [.one, .two, .four]
def Count.code (t : Count) : BitVec 2 := BitVec.ofNat 2 (Count.codes.idxOf t)
def Count.ofCode (c : BitVec 2) : Option Count := Count.codes[c.toNat]?
theorem Count.ofCode_code (t : Count) : Count.ofCode t.code = some t := by cases t <;> rfl

/-- The codes of R228, from 0 in order. -/
def PrefLevel.codes : List PrefLevel := [.l1, .dc]
def PrefLevel.code (t : PrefLevel) : BitVec 2 := BitVec.ofNat 2 (PrefLevel.codes.idxOf t)
def PrefLevel.ofCode (c : BitVec 2) : Option PrefLevel := PrefLevel.codes[c.toNat]?
theorem PrefLevel.ofCode_code (t : PrefLevel) : PrefLevel.ofCode t.code = some t := by cases t <;> rfl

/-- The codes of R249, from 0 in order. -/
def RelsOp.codes : List RelsOp := [.st, .add]
def RelsOp.code (t : RelsOp) : BitVec 3 := BitVec.ofNat 3 (RelsOp.codes.idxOf t)
def RelsOp.ofCode (c : BitVec 3) : Option RelsOp := RelsOp.codes[c.toNat]?
theorem RelsOp.ofCode_code (t : RelsOp) : RelsOp.ofCode t.code = some t := by cases t <;> rfl

/-- The codes of R327, from 0 in order. -/
def GredOp.codes : List GredOp := [.add, .min, .max, .and, .or, .xor]
def GredOp.code (t : GredOp) : BitVec 3 := BitVec.ofNat 3 (GredOp.codes.idxOf t)
def GredOp.ofCode (c : BitVec 3) : Option GredOp := GredOp.codes[c.toNat]?
theorem GredOp.ofCode_code (t : GredOp) : GredOp.ofCode t.code = some t := by cases t <;> rfl

/-- The codes of R326, from 0 in order. -/
def GQuery.codes : List GQuery := [.id, .ph, .cnt, .arr, .lvl, .res]
def GQuery.code (t : GQuery) : BitVec 3 := BitVec.ofNat 3 (GQuery.codes.idxOf t)
def GQuery.ofCode (c : BitVec 3) : Option GQuery := GQuery.codes[c.toNat]?
theorem GQuery.ofCode_code (t : GQuery) : GQuery.ofCode t.code = some t := by cases t <;> rfl

/-- The codes of R274, from 0 in order. -/
def Engine.codes : List Engine := [.ce, .wf, .af, .ll]
def Engine.code (t : Engine) : BitVec 2 := BitVec.ofNat 2 (Engine.codes.idxOf t)
def Engine.ofCode (c : BitVec 2) : Option Engine := Engine.codes[c.toNat]?
theorem Engine.ofCode_code (t : Engine) : Engine.ofCode t.code = some t := by cases t <;> rfl

/-- The codes of R256, from 0 in order. -/
def Kind.codes : List Kind := [.vr, .tm, .cl, .gl, .rm, .pg]
def Kind.code (t : Kind) : BitVec 3 := BitVec.ofNat 3 (Kind.codes.idxOf t)
def Kind.ofCode (c : BitVec 3) : Option Kind := Kind.codes[c.toNat]?
theorem Kind.ofCode_code (t : Kind) : Kind.ofCode t.code = some t := by cases t <;> rfl

/-- The codes of R276, from 0 in order. -/
def HField.codes : List HField := [.base, .kind, .fmt, .gsize, .tdev, .asid, .sbase, .sshift, .fp4x, .tscale, .dstride]
def HField.code (t : HField) : BitVec 4 := BitVec.ofNat 4 (HField.codes.idxOf t)
def HField.ofCode (c : BitVec 4) : Option HField := HField.codes[c.toNat]?
theorem HField.ofCode_code (t : HField) : HField.ofCode t.code = some t := by cases t <;> rfl

/-- The codes of R300, from 0 in order. -/
def MQuery.codes : List MQuery := [.pln, .prog, .flt, .own]
def MQuery.code (t : MQuery) : BitVec 3 := BitVec.ofNat 3 (MQuery.codes.idxOf t)
def MQuery.ofCode (c : BitVec 3) : Option MQuery := MQuery.codes[c.toNat]?
theorem MQuery.ofCode_code (t : MQuery) : MQuery.ofCode t.code = some t := by cases t <;> rfl

/-- The codes of R452, from 0 in order. -/
def CgQuery.codes : List CgQuery := [.st, .ndst, .recs, .why, .una]
def CgQuery.code (t : CgQuery) : BitVec 3 := BitVec.ofNat 3 (CgQuery.codes.idxOf t)
def CgQuery.ofCode (c : BitVec 3) : Option CgQuery := CgQuery.codes[c.toNat]?
theorem CgQuery.ofCode_code (t : CgQuery) : CgQuery.ofCode t.code = some t := by cases t <;> rfl

/-- The codes of R60 and R61 for element formats; 0x0F is reserved. -/
def Fmt.codes : List Fmt :=
  [.i32, .n32, .i64, .n64, .i16, .n16, .i8, .n8, .f32, .f16, .bf16, .e4m3, .e5m2, .e2m1, .le8]
def Fmt.grouped : List Fmt := [.q4, .q8, .cb4, .x8]
def Fmt.code (t : Fmt) : BitVec 5 :=
  if t ∈ Fmt.codes then BitVec.ofNat 5 (Fmt.codes.idxOf t) else BitVec.ofNat 5 (16 + Fmt.grouped.idxOf t)
def Fmt.ofCode (c : BitVec 5) : Option Fmt :=
  if c.toNat < 16 then Fmt.codes[c.toNat]? else Fmt.grouped[c.toNat - 16]?
theorem Fmt.ofCode_code (t : Fmt) : Fmt.ofCode t.code = some t := by cases t <;> rfl

/-- The special register numbers of R58. -/
def SReg.table : List (Nat × SReg) :=
  [(0x00, .lane), (0x01, .slice), (0x02, .fibre), (0x03, .slot), (0x04, .team), (0x05, .cluster), (0x06, .cx),
   (0x07, .cy), (0x08, .cz), (0x09, .core), (0x0A, .die), (0x0B, .dev), (0x10, .tags), (0x11, .lcd), (0x20, .fpm),
   (0x21, .fps), (0x22, .le8s), (0x23, .fp4x), (0x24, .rng), (0x30, .cyc), (0x31, .quota), (0x32, .grp),
   (0x40, .ecause), (0x41, .epc), (0x42, .eaddr), (0x43, .emask), (0x44, .xretry)]
def SReg.code (r : SReg) : BitVec 8 :=
  match SReg.table.find? (fun p => p.2 == r) with
  | some p => BitVec.ofNat 8 p.1
  | none => 0xFF
def SReg.ofCode (c : BitVec 8) : Option SReg := (SReg.table.find? (fun p => p.1 == c.toNat)).map (·.2)
theorem SReg.ofCode_code (r : SReg) : SReg.ofCode r.code = some r := by cases r <;> rfl

/-- The modes of FENCE (R230); 00 is none. -/
def FenceMode.code : FenceMode → BitVec 2
  | .acq => 1 | .rel => 2 | .ar => 3
def FenceMode.ofCode (c : BitVec 2) : Option FenceMode :=
  match c.toNat with
  | 1 => some .acq | 2 => some .rel | 3 => some .ar | _ => none
theorem FenceMode.ofCode_code (m : FenceMode) : FenceMode.ofCode m.code = some m := by cases m <;> rfl

/-- The length codes of R40. -/
def Len.code : Len → BitVec 2
  | .l64 => 0 | .l96 => 1 | .l128 => 2
def Len.ofCode (c : BitVec 2) : Option Len :=
  match c.toNat with
  | 0 => some .l64 | 1 => some .l96 | 2 => some .l128 | _ => none
theorem Len.ofCode_code (l : Len) : Len.ofCode l.code = some l := by cases l <;> rfl

/-- The length in bytes (R40). -/
def Len.bytes : Len → Nat
  | .l64 => 8 | .l96 => 12 | .l128 => 16

/-- The space field of PTLD (R279): global, team, constant; 11 is none. -/
def ptldCode : Space → BitVec 2
  | .tm => 1 | .ko => 2 | _ => 0
def ptldSpace (c : BitVec 2) : Option Space :=
  match c.toNat with
  | 0 => some .gl | 1 => some .tm | 2 => some .ko | _ => none

/-! ### The fields of a word (R39, R40) -/

/-- The fields of one instruction word; `hi`, `ty` and `lo` are MOD[10:5], MOD[4:1] and MOD[0], `ext` holds IMM32 or
EXT64 and is zero in a 64-bit word. -/
structure Fields where
  len : Len
  sw : Bool
  pg : BitVec 3
  pn : Bool
  op : BitVec 9
  d : BitVec 8
  a : BitVec 8
  b : BitVec 8
  c : BitVec 8
  la : Bool
  lb : Bool
  lc : Bool
  xa : Bool
  xb : Bool
  hi : BitVec 6
  ty : BitVec 4
  lo : BitVec 1
  ext : DWord
  deriving DecidableEq, Repr

def bit (b : Bool) : BitVec 1 := BitVec.ofBool b

/-- Bits 63:0 of the word (R39). -/
def Fields.low (f : Fields) : BitVec 64 :=
  f.hi ++ f.ty ++ f.lo ++ bit f.xb ++ bit f.xa ++ bit f.lc ++ bit f.lb ++ bit f.la ++ f.c ++ f.b ++ f.a ++ f.d ++ f.op ++
    bit f.pn ++ f.pg ++ bit f.sw ++ f.len.code

/-- The fields of a word whose bits 63:0 are `w` and whose bits above are `ext`, of length `len` (R39). -/
def Fields.ofLow (len : Len) (w : BitVec 64) (ext : DWord) : Fields where
  len := len
  sw := w.getLsbD 2
  pg := w.extractLsb' 3 3
  pn := w.getLsbD 6
  op := w.extractLsb' 7 9
  d := w.extractLsb' 16 8
  a := w.extractLsb' 24 8
  b := w.extractLsb' 32 8
  c := w.extractLsb' 40 8
  la := w.getLsbD 48
  lb := w.getLsbD 49
  lc := w.getLsbD 50
  xa := w.getLsbD 51
  xb := w.getLsbD 52
  hi := w.extractLsb' 58 6
  ty := w.extractLsb' 54 4
  lo := w.extractLsb' 53 1
  ext := ext

/-! ### Reading and writing parts of MOD -/

def Fields.m108 (f : Fields) : BitVec 3 := f.hi.extractLsb' 3 3
def Fields.m75 (f : Fields) : BitVec 3 := f.hi.extractLsb' 0 3
def Fields.m85 (f : Fields) : BitVec 4 := f.hi.extractLsb' 0 4
def Fields.m109 (f : Fields) : BitVec 2 := f.hi.extractLsb' 4 2
def Fields.m98 (f : Fields) : BitVec 2 := f.hi.extractLsb' 3 2
def Fields.m65 (f : Fields) : BitVec 2 := f.hi.extractLsb' 0 2
def Fields.m86 (f : Fields) : BitVec 3 := f.hi.extractLsb' 1 3
def Fields.m97 (f : Fields) : BitVec 3 := f.hi.extractLsb' 2 3
def Fields.m76 (f : Fields) : BitVec 2 := f.hi.extractLsb' 1 2
def Fields.m10 (f : Fields) : Bool := f.hi.getLsbD 5
def Fields.m9 (f : Fields) : Bool := f.hi.getLsbD 4
def Fields.m8 (f : Fields) : Bool := f.hi.getLsbD 3
def Fields.m5 (f : Fields) : Bool := f.hi.getLsbD 0
def Fields.sc (f : Fields) : Bool := f.lo == 1
def Fields.hdr (f : Fields) : Hdr := ⟨f.sw, f.pg, f.pn⟩
def Fields.oa (f : Fields) : Opnd := ⟨f.a, f.xa, f.la⟩
def Fields.ob (f : Fields) : Opnd := ⟨f.b, f.xb, f.lb⟩
def Fields.oc (f : Fields) : Opnd := ⟨f.c, false, f.lc⟩
def Fields.op1 (f : Fields) : Op1 := ⟨f.hdr, f.sc, f.d, f.oa⟩
def Fields.op2 (f : Fields) : Op2 := ⟨f.hdr, f.sc, f.d, f.oa, f.ob⟩
def Fields.op3 (f : Fields) : Op3 := ⟨f.hdr, f.sc, f.d, f.oa, f.ob, f.oc⟩
def Fields.lat (f : Fields) : LatOp := ⟨f.hdr, f.m5, f.d, f.oa, f.ob, f.c⟩
def Fields.ta (f : Fields) : Tile := ⟨f.a.extractLsb' 4 4, f.a.extractLsb' 0 4⟩
def Fields.tb (f : Fields) : Tile := ⟨f.b.extractLsb' 4 4, f.b.extractLsb' 0 4⟩
def Tile.code (t : Tile) : BitVec 8 := t.hn ++ t.ln

/-- The low bits of a field that names one of 2^n things. -/
def lowBits (n : Nat) (v : BitVec 8) : BitVec n := v.setWidth n
/-- A short register number as a field. -/
def reg8 {n : Nat} (v : BitVec n) : BitVec 8 := v.setWidth 8

/-- A word of length `len` and opcode `op` with guard and switch bit `h`, every other field zero. -/
def laneWord (len : Len) (h : Hdr) (op : Nat) : Fields where
  len := len
  sw := h.sw
  pg := h.pg
  pn := h.pn
  op := BitVec.ofNat 9 op
  d := 0
  a := 0
  b := 0
  c := 0
  la := false
  lb := false
  lc := false
  xa := false
  xb := false
  hi := 0
  ty := 0
  lo := 0
  ext := 0

/-- A fibre-wide word: PG = 7 and PN = 0 (R46). -/
def wideWord (len : Len) (sw : Bool) (op : Nat) : Fields := laneWord len ⟨sw, 7, false⟩ op

def Fields.setA (f : Fields) (o : Opnd) : Fields := { f with a := o.idx, xa := o.x, la := o.last }
def Fields.setB (f : Fields) (o : Opnd) : Fields := { f with b := o.idx, xb := o.x, lb := o.last }
def Fields.setC (f : Fields) (o : Opnd) : Fields := { f with c := o.idx, lc := o.last }

def Op1.fields (o : Op1) (op : Nat) (hi : BitVec 6) (ty : BitVec 4) : Fields :=
  { (laneWord .l64 o.h op).setA o.a with d := o.d, hi := hi, ty := ty, lo := bit o.sc }
def Op2.fields (o : Op2) (op : Nat) (hi : BitVec 6) (ty : BitVec 4) : Fields :=
  { ((laneWord .l64 o.h op).setA o.a).setB o.b with d := o.d, hi := hi, ty := ty, lo := bit o.sc }
def Op3.fields (o : Op3) (op : Nat) (hi : BitVec 6) (ty : BitVec 4) : Fields :=
  { (((laneWord .l64 o.h op).setA o.a).setB o.b).setC o.c with d := o.d, hi := hi, ty := ty, lo := bit o.sc }
def LatOp.fields (o : LatOp) (op : Nat) : Fields :=
  { ((laneWord .l64 o.h op).setA o.a).setB o.b with
    d := o.d, c := o.c, hi := (0#5 ++ bit o.hi : BitVec 6), ty := Ty.code .le8 }

/-- MOD[10:5] of two 3-bit parts. -/
def hi33 (x y : BitVec 3) : BitVec 6 := x ++ y
/-- MOD[10:5] with only MOD[5]. -/
def hi5 (x : Bool) : BitVec 6 := (0#5 ++ bit x : BitVec 6)
/-- MOD[10:5] with MOD[8] and MOD[7:5]. -/
def hi83 (x : Bool) (y : BitVec 3) : BitVec 6 := (0#2 ++ bit x ++ y : BitVec 6)

/-- The scope field of LD and ST: present with its ordering bit (R211). -/
def scopeField (s : Option Scope) : BitVec 8 := match s with | none => 0 | some x => reg8 x.code
def scopeRead (on : Bool) (v : BitVec 8) : Option (Option Scope) :=
  if on then (Scope.ofCode (lowBits 4 v)).map some else some none

/-- The number of a query of LQRY (R274), its engine and its handle. -/
def LQuery.parts : LQuery → BitVec 3 × BitVec 2 × BitVec 4
  | .size => (0, 0, 0)
  | .span => (1, 0, 0)
  | .cls e h => (2, e.code, h)
  | .deg h => (3, 0, h)
  | .clst h => (4, 0, h)
def LQuery.ofParts (q : BitVec 3) (e : BitVec 2) (h : BitVec 4) : Option LQuery :=
  match q.toNat with
  | 0 => some .size
  | 1 => some .span
  | 2 => (Engine.ofCode e).map (.cls · h)
  | 3 => some (.deg h)
  | 4 => some (.clst h)
  | _ => none

/-- The number of a query of JQRY (R315) and its tag operand. -/
def JQuery.parts : JQuery → BitVec 3 × BitVec 8
  | .st a => (0, a)
  | .prog a => (1, a)
  | .cause a => (2, a)
  | .addr a => (3, a)
  | .ffl => (4, 0)
def JQuery.ofParts (q : BitVec 3) (a : BitVec 8) : Option JQuery :=
  match q.toNat with
  | 0 => some (.st a)
  | 1 => some (.prog a)
  | 2 => some (.cause a)
  | 3 => some (.addr a)
  | 4 => some .ffl
  | _ => none

/-- g of PLOP: MOD[10:9] and C (R152). -/
def PlopG.parts : PlopG → BitVec 2 × BitVec 3
  | .none => (0, 0)
  | .and c => (1, c)
  | .or c => (2, c)
  | .xor c => (3, c)
def PlopG.ofParts (g : BitVec 2) (c : BitVec 3) : PlopG :=
  match g.toNat with
  | 0 => .none
  | 1 => .and c
  | 2 => .or c
  | _ => .xor c

/-- The ordering and scope byte of ATOM and RED (R211, R224). -/
def atomC (sc : Scope) (o : AtomOrd) : BitVec 8 := (sc.code ++ o.code ++ 0#2 : BitVec 8)

/-! ### Encoding -/

/-- The fields of an instruction word; the rows that are no words have none, and an unassigned opcode carries too
little of its word to be written again. -/
def Instr.toFields : Instr → Option Fields
  | .nop h len => some (laneWord len h 0x000)
  | .bra h off => some { laneWord .l96 h 0x001 with ext := off.setWidth 64 }
  | .brx h a => some ((laneWord .l64 h 0x002).setA a)
  | .call h d off => some { laneWord .l96 h 0x003 with d := d, ext := off.setWidth 64 }
  | .callx h d a => some { (laneWord .l64 h 0x004).setA a with d := d }
  | .ret h a => some ((laneWord .l64 h 0x005).setA a)
  | .regang sw a => some { wideWord .l64 sw 0x006 with a := a }
  | .exit h => some (laneWord .l64 h 0x007)
  | .yield sw => some (wideWord .l64 sw 0x008)
  | .trap h n => some { laneWord .l64 h 0x009 with
      hi := n.extractLsb' 2 6, ty := (n.extractLsb' 0 2 ++ 0#2 : BitVec 4) }
  | .bkpt h => some (laneWord .l64 h 0x00A)
  | .rtt sw => some (wideWord .l64 sw 0x00B)
  | .rdsr h sc d sr => some { laneWord .l64 h 0x00C with d := d, a := sr.code, lo := bit sc }
  | .wrsr h sr a => some { (laneWord .l64 h 0x00D).setA a with d := sr.code }
  | .setseg sw lim sp a => some { wideWord .l64 sw 0x00E with a := a, hi := hi83 lim sp.code }
  | .getseg sw lim sp d => some { wideWord .l64 sw 0x00F with d := reg8 d, hi := hi83 lim sp.code }
  | .rdcyc h sc ord d => some { laneWord .l64 h 0x010 with d := d, hi := hi5 ord, lo := bit sc }
  | .dbnz h sc d off => some { laneWord .l96 h 0x011 with d := d, lo := bit sc, ext := off.setWidth 64 }
  | .savectx sw a => some { wideWord .l64 sw 0x014 with a := a, hi := hi33 0 Space.gl.code }
  | .loadctx sw a => some { wideWord .l64 sw 0x015 with a := a, hi := hi33 0 Space.gl.code }
  | .tlbinv sw dev r =>
    let w := { wideWord .l64 sw 0x016 with ty := (if dev then Scope.device else Scope.die).code }
    match r with
    | .all => some w
    | .range a b => some { w with a := a, b := b, hi := hi83 true 0 }
  | .mov o t => some (o.fields 0x040 0 t.code)
  | .movi h sc t d v => some { laneWord (if t.is64 then .l128 else .l96) h 0x041 with
      d := d, ty := t.code, lo := bit sc, ext := v }
  | .iadd o t s => some (o.fields 0x042 (hi5 s) t.code)
  | .isub o t s => some (o.fields 0x043 (hi5 s) t.code)
  | .imul o t => some (o.fields 0x044 0 t.code)
  | .imulh o t => some (o.fields 0x045 0 t.code)
  | .imad o t => some (o.fields 0x046 0 t.code)
  | .imin o t => some (o.fields 0x047 0 t.code)
  | .imax o t => some (o.fields 0x048 0 t.code)
  | .iabs o t s => some (o.fields 0x049 (hi5 s) t.code)
  | .ineg o t s => some (o.fields 0x04A (hi5 s) t.code)
  | .and o t => some (o.fields 0x04B 0 t.code)
  | .or o t => some (o.fields 0x04C 0 t.code)
  | .xor o t => some (o.fields 0x04D 0 t.code)
  | .not o t => some (o.fields 0x04E 0 t.code)
  | .shl o t => some (o.fields 0x04F 0 t.code)
  | .shr o t => some (o.fields 0x050 0 t.code)
  | .shra o t => some (o.fields 0x051 0 t.code)
  | .rot o t r => some (o.fields 0x052 (hi5 r) t.code)
  | .popc o t => some (o.fields 0x053 0 t.code)
  | .clz o t => some (o.fields 0x054 0 t.code)
  | .brev o t => some (o.fields 0x055 0 t.code)
  | .bfe o t => some (o.fields 0x056 0 t.code)
  | .bfi o t => some (o.fields 0x057 0 t.code)
  | .lea o t s disp => some { o.fields 0x058 (hi33 0 s) t.code with len := .l96, ext := disp.setWidth 64 }
  | .icmp h sc cc t pd a b => some { ((laneWord .l64 h 0x059).setA a).setB b with
      d := reg8 pd, hi := hi33 0 cc.code, ty := t.code, lo := bit sc }
  | .sel o t pc => some { o.fields 0x05A 0 t.code with c := reg8 pc }
  | .plop h f g pd pa pb => some { laneWord .l64 h 0x05B with
      d := reg8 pd, a := reg8 pa, b := reg8 pb, c := reg8 g.parts.2, hi := (g.parts.1 ++ f : BitVec 6), ty := 1 }
  | .vote h m pd pa => some { laneWord .l64 h 0x05C with
      d := reg8 pd, a := reg8 pa, hi := (0#4 ++ m.code : BitVec 6), ty := 1 }
  | .ballot h d pa => some { laneWord .l64 h 0x05D with d := d, a := reg8 pa, ty := 1 }
  | .v2s sw t d a b => some { (wideWord .l64 sw 0x05E).setA a with d := reg8 d, b := b, ty := t.code }
  | .iaddc o t q ci => some { o.fields 0x061 (hi83 ci.isSome q) t.code with c := reg8 (ci.getD 0) }
  | .isubb o t q ci => some { o.fields 0x062 (hi83 ci.isSome q) t.code with c := reg8 (ci.getD 0) }
  | .shfl o t m w => some (o.fields 0x063 (0#1 ++ BitVec.ofNat 3 w.val ++ m.code : BitVec 6) t.code)
  | .prmt o => some (o.fields 0x064 0 1)
  | .fadd o rm => some (o.fields 0x080 (hi33 0 rm.code) 8)
  | .fsub o rm => some (o.fields 0x081 (hi33 0 rm.code) 8)
  | .fmul o rm => some (o.fields 0x082 (hi33 0 rm.code) 8)
  | .ffma o rm => some (o.fields 0x083 (hi33 0 rm.code) 8)
  | .fmin o n => some (o.fields 0x084 (hi83 n 0) 8)
  | .fmax o n => some (o.fields 0x085 (hi83 n 0) 8)
  | .fcmp h sc cc pd a b => some { ((laneWord .l64 h 0x086).setA a).setB b with
      d := reg8 pd, hi := (0#2 ++ cc.code : BitVec 6), ty := 8, lo := bit sc }
  | .frcp o rm => some (o.fields 0x087 (hi33 0 rm.code) 8)
  | .frsq o => some (o.fields 0x088 0 8)
  | .fsqrt o rm => some (o.fields 0x089 (hi33 0 rm.code) 8)
  | .fexp2 o => some (o.fields 0x08A 0 8)
  | .flog2 o => some (o.fields 0x08B 0 8)
  | .fsin o => some (o.fields 0x08C 0 8)
  | .fcos o => some (o.fields 0x08D 0 8)
  | .ftanh o => some (o.fields 0x08E 0 8)
  | .fscale o rm => some (o.fields 0x08F (hi33 0 rm.code) 8)
  | .frnd o rm => some (o.fields 0x090 (hi33 0 rm.code) 8)
  | .fclass o t => some (o.fields 0x091 0 t.code)
  | .ffma2 o t rm => some (o.fields 0x092 (hi33 0 rm.code) t.code)
  | .fadd2 o t rm => some (o.fields 0x093 (hi33 0 rm.code) t.code)
  | .fmul2 o t rm => some (o.fields 0x094 (hi33 0 rm.code) t.code)
  | .fdot2 o t rm => some (o.fields 0x095 (hi33 0 rm.code) t.code)
  | .fdot4 o t rm mx => some (o.fields 0x096 (hi83 mx rm.code) t.code)
  | .cvt o dst src rm sat => some { o.fields 0x0C0 (hi83 sat rm.code) dst.code with c := reg8 src.code }
  | .cvtp o dst rm sat p => some (o.fields 0x0C1 (p ++ bit sat ++ rm.code : BitVec 6) dst.code)
  | .cvtu o src i none => some (o.fields 0x0C2 (hi33 i 0) src.code)
  | .cvtu o src i (some b) => some ((o.fields 0x0C2 (hi33 i 1) src.code).setB b)
  | .bscale o t inv => some (o.fields 0x0C3 (hi5 inv) t.code)
  | .qparm o q8 => some (o.fields 0x0C4 (hi83 q8 0) 0xF)
  | .qapply o q8 rm => some (o.fields 0x0C5 (hi83 q8 rm.code) 0xF)
  | .dq o q8 i => some (o.fields 0x0C6 (hi83 q8 i) 0xF)
  | .qle8 o => some (o.fields 0x0C7)
  | .dle8 o => some (o.fields 0x0C8)
  | .rle8 o => some (o.fields 0x0C9)
  | .ule8 o => some (o.fields 0x0CA)
  | .cbq h d a b => some { ((laneWord .l64 h 0x0CB).setA a).setB b with d := d, ty := 8 }
  | .requota sw a b => some { wideWord .l64 sw 0x0E0 with a := a, b := b }
  | .fbar sw a => some { wideWord .l64 sw 0x0E1 with a := a }
  | .fpost sw a b => some { wideWord .l64 sw 0x0E2 with a := a, b := b }
  | .fwait sw a b => some { wideWord .l64 sw 0x0E3 with a := a, b := b }
  | .gbar sw nf g => some { wideWord .l64 sw 0x0E4 with a := reg8 g, hi := hi83 nf 0 }
  | .garv sw nf d g => some { wideWord .l64 sw 0x0E5 with d := reg8 d, a := reg8 g, hi := hi83 nf 0 }
  | .gwait sw nf g b => some { wideWord .l64 sw 0x0E6 with a := reg8 g, b := b, hi := hi83 nf 0 }
  | .gred sw nf op t d g b => some { wideWord .l64 sw 0x0E7 with
      d := reg8 d, a := reg8 g, b := b, hi := hi83 nf op.code, ty := t.code }
  | .gqry sw q d g => some { wideWord .l64 sw 0x0E8 with d := reg8 d, a := reg8 g, hi := hi33 0 q.code }
  | .binit sw sp a b => some { wideWord .l64 sw 0x0E9 with a := a, b := b, hi := hi33 0 sp.code }
  | .barv sw nf sp sc d a => some { wideWord .l64 sw 0x0EA with d := reg8 d, a := a, hi := hi83 nf sp.code, ty := sc.code }
  | .bwait sw nf sp sc a b => some { wideWord .l64 sw 0x0EB with a := a, b := b, hi := hi83 nf sp.code, ty := sc.code }
  | .bdrop sw sp a => some { wideWord .l64 sw 0x0EC with a := a, hi := hi33 0 sp.code }
  | .waitcmp h cc aq t sc d a b => some { ((laneWord .l64 h 0x0ED).setA a).setB b with
      d := d, c := reg8 sc.code, hi := (cc.code ++ 0#2 ++ bit aq : BitVec 6), ty := t.code }
  | .ld h scf aq n sp t d a c => some { (laneWord .l64 h 0x100).setA a with
      d := d, b := scopeField aq, c := c, hi := (bit aq.isSome ++ n.code ++ sp.code : BitVec 6), ty := t.code, lo := bit scf }
  | .st h rel n sp t a b c => some { ((laneWord .l64 h 0x101).setA a).setB b with
      d := scopeField rel, c := c, hi := (bit rel.isSome ++ n.code ++ sp.code : BitVec 6), ty := t.code }
  | .ldl sw k d t b => some { wideWord .l64 sw 0x102 with d := d, a := t.code, b := b, hi := hi33 0 k }
  | .stl sw k t b c => some { (wideWord .l64 sw 0x103).setC c with a := t.code, b := b, hi := hi33 0 k }
  | .gath h cont sx sp t d a b cb => some { ((laneWord .l64 h 0x104).setA a).setB b with
      d := d, c := reg8 cb, hi := (0#1 ++ bit cont ++ bit sx ++ sp.code : BitVec 6), ty := t.code }
  | .scat h cont sx sp t d a b cb => some { ((laneWord .l64 h 0x105).setA a).setB b with
      d := d, c := reg8 cb, hi := (0#1 ++ bit cont ++ bit sx ++ sp.code : BitVec 6), ty := t.code }
  | .atom h op sp t sc o d a b => some { ((laneWord .l64 h 0x106).setA a).setB b with
      d := d, c := atomC sc o, hi := hi33 op.code sp.code, ty := t.code }
  | .red h op sp t sc rel a b => some { ((laneWord .l64 h 0x107).setA a).setB b with
      c := atomC sc (if rel then .rel else .none), hi := hi33 op.code sp.code, ty := t.code }
  | .fence sw m sc => some { wideWord .l64 sw 0x109 with hi := (0#4 ++ m.code : BitVec 6), ty := sc.code }
  | .bind sw i a b c => some { wideWord .l64 sw 0x10A with
      a := a, b := b, c := c, hi := (0#1 ++ i.extractLsb' 5 5 : BitVec 6), ty := i.extractLsb' 1 4, lo := i.extractLsb' 0 1 }
  | .unbind sw i => some { wideWord .l64 sw 0x10B with
      hi := (0#1 ++ i.extractLsb' 5 5 : BitVec 6), ty := i.extractLsb' 1 4, lo := i.extractLsb' 0 1 }
  | .unbindObj sw a => some { wideWord .l64 sw 0x10B with a := a, hi := 0x20 }
  | .acq h (.ld) sc d a => some { (laneWord .l64 h 0x10C).setA a with d := d, ty := sc.code }
  | .acq h (.cas b c) sc d a => some { (((laneWord .l64 h 0x10C).setA a).setB b).setC c with
      d := d, hi := hi33 1 0, ty := sc.code }
  | .rels h op sc a b => some { ((laneWord .l64 h 0x10D).setA a).setB b with hi := hi33 op.code 0, ty := sc.code }
  | .pref h lvl sp a c => some { (laneWord .l64 h 0x10E).setA a with
      c := c, hi := (0#1 ++ lvl.code ++ sp.code : BitVec 6) }
  | .cinv h sc sp a c => some { (laneWord .l64 h 0x10F).setA a with b := reg8 sc.code, c := c, hi := hi33 0 sp.code }
  | .cwb h sc sp a c => some { (laneWord .l64 h 0x110).setA a with b := reg8 sc.code, c := c, hi := hi33 0 sp.code }
  | .lld sw sp d a => some { wideWord .l64 sw 0x140 with d := reg8 d, a := a, hi := hi33 0 sp.code }
  | .lst sw sp a b => some { wideWord .l64 sw 0x141 with a := a, b := reg8 b, hi := hi33 0 sp.code }
  | .lset sw clr level m d e strd => some { wideWord .l128 sw 0x142 with
      d := reg8 d, hi := (0#1 ++ bit clr ++ bit level ++ m : BitVec 6), ext := (0#24 ++ strd ++ e : BitVec 64) }
  | .lchain sw d a b => some { wideWord .l64 sw 0x143 with d := reg8 d, a := reg8 a, b := reg8 b }
  | .lpart sw die m d a tile => some { wideWord .l96 sw 0x144 with
      d := reg8 d, a := reg8 a, hi := hi83 die m, ext := tile.setWidth 64 }
  | .ltrans sw d a perm => some { wideWord .l96 sw 0x145 with d := reg8 d, a := reg8 a, ext := perm.setWidth 64 }
  | .lflat sw byMode m d a => some { wideWord .l64 sw 0x146 with d := reg8 d, a := reg8 a, hi := hi83 byMode m }
  | .lslice sw m d a b c imm => some { wideWord .l96 sw 0x147 with
      d := reg8 d, a := reg8 a, b := b, c := reg8 c, hi := hi33 0 m, ext := imm.setWidth 64 }
  | .lswz sw d a b => some { wideWord .l64 sw 0x148 with d := reg8 d, a := reg8 a, b := b }
  | .lqry sw q d a => some { wideWord .l64 sw 0x149 with
      d := reg8 d, a := reg8 a, b := reg8 q.parts.2.2, hi := (0#1 ++ q.parts.2.1 ++ q.parts.1 : BitVec 6) }
  | .hmk sw g k fm d a b strd => some { wideWord .l128 sw 0x14A with
      d := reg8 d, a := a, b := b, hi := (g ++ k.code ++ fm.code.extractLsb' 4 1 : BitVec 6), ty := fm.code.extractLsb' 0 4,
      ext := strd.setWidth 64 }
  | .hset sw f d (.imm v) => some { wideWord .l128 sw 0x14B with d := reg8 d, hi := (0#2 ++ f.code : BitVec 6), ext := v }
  | .hset sw f d (.reg a) => some { wideWord .l128 sw 0x14B with
      d := reg8 d, a := a, xa := true, hi := (0#2 ++ f.code : BitVec 6) }
  | .hqry sw f d a => some { wideWord .l64 sw 0x14C with d := reg8 d, a := reg8 a, hi := (0#2 ++ f.code : BitVec 6) }
  | .permx sw t d a => some { (wideWord .l64 sw 0x14D).setA a with d := d, hi := (0#2 ++ t : BitVec 6) }
  | .ptld sw sp t a => some { wideWord .l64 sw 0x14E with a := a, hi := (ptldCode sp ++ t : BitVec 6) }
  | .lmov sw hnd d a => some { wideWord .l64 sw 0x14F with d := reg8 d, a := reg8 a, hi := hi5 hnd }
  | .mwld sw bmc t => some { wideWord .l64 sw 0x160 with a := t.code, hi := hi5 bmc }
  | .mwsw sw => some (wideWord .l64 sw 0x161)
  | .mrel sw => some (wideWord .l64 sw 0x162)
  | .mstr sw init zb d t row0 => some { wideWord .l96 sw 0x163 with
      d := reg8 d, a := t.code, c := zb.getD 0, hi := (0#4 ++ bit zb.isSome ++ bit init : BitVec 6), ext := row0.setWidth 64 }
  | .mzero sw d => some { wideWord .l64 sw 0x164 with d := reg8 d }
  | .mzld sw d t b => some { wideWord .l64 sw 0x165 with d := reg8 d, a := t.code, b := b }
  | .mzst sw rm d t b => some { wideWord .l64 sw 0x166 with d := reg8 d, a := t.code, b := b, hi := hi33 0 rm.code }
  | .mzmvTo sw c d a b => some { wideWord .l64 sw 0x167 with
      d := d, a := reg8 a, b := b, hi := (0#3 ++ c ++ 0#1 : BitVec 6) }
  | .mzmvFrom sw c d a b => some { (wideWord .l64 sw 0x167).setA a with
      d := reg8 d, b := b, hi := (0#3 ++ c ++ 1#1 : BitVec 6) }
  | .mresc sw d a => some { (wideWord .l64 sw 0x168).setA a with d := reg8 d }
  | .mcbld sw sp a => some { wideWord .l64 sw 0x169 with a := a, hi := hi33 0 sp.code }
  | .mqry sw q d => some { wideWord .l64 sw 0x16A with d := reg8 d, hi := hi33 0 q.code }
  | .tred sw sum d a b => some { wideWord .l64 sw 0x16B with d := d, a := reg8 a, b := b, hi := hi5 sum }
  | .cpy sw tag sp a b c => some { wideWord .l64 sw 0x180 with
      a := a.code, b := b.code, c := c, hi := tag, ty := (sp.code ++ 0#1 : BitVec 4) }
  | .cpym sw tag sp a b c => some { wideWord .l64 sw 0x181 with
      a := a.code, b := b.code, c := c, hi := tag, ty := (sp.code ++ 0#1 : BitVec 4) }
  | .twany sw d a => some { wideWord .l64 sw 0x182 with d := reg8 d, a := a }
  | .twall sw a => some { wideWord .l64 sw 0x183 with a := a }
  | .tffr sw d a => some { wideWord .l64 sw 0x184 with d := reg8 d, a := a }
  | .tclr sw a => some { wideWord .l64 sw 0x185 with a := a }
  | .jqry sw q d => some { wideWord .l64 sw 0x186 with d := reg8 d, a := q.parts.2, hi := hi33 0 q.parts.1 }
  | .jcan sw a => some { wideWord .l64 sw 0x187 with a := a }
  | .xfer sw cg arv sp a b c => some { wideWord .l64 sw 0x1A0 with
      a := a, b := b, c := reg8 c, hi := (bit cg ++ bit arv ++ 0#1 ++ sp.code : BitVec 6) }
  | .xget sw sp a b c => some { wideWord .l64 sw 0x1A1 with a := a, b := b, c := reg8 c, hi := hi33 0 sp.code }
  | .xatom sw cg rel (.arv) a b c => some { wideWord .l64 sw 0x1A2 with
      a := a, b := b, c := reg8 c, hi := (bit cg ++ 1#1 ++ bit rel ++ 0#3 : BitVec 6), ty := Ty.n64.code }
  | .xatom sw cg rel (.mem d op t) a b c => some { wideWord .l64 sw 0x1A2 with
      d := reg8 d, a := a, b := b, c := reg8 c, hi := (bit cg ++ 0#1 ++ bit rel ++ op.code : BitVec 6), ty := t.code }
  | .xpost sw sp d a b => some { wideWord .l64 sw 0x1A3 with d := reg8 d, a := a, b := b, hi := hi33 0 sp.code }
  | .xmc sw arv sp a b c => some { wideWord .l64 sw 0x1A4 with
      a := a, b := b, c := reg8 c, hi := (0#1 ++ bit arv ++ 0#1 ++ sp.code : BitVec 6) }
  | .arvset sw clr a b c => some { wideWord .l64 sw 0x1A5 with a := a, b := b, c := c, hi := hi5 clr }
  | .arvwait sw nf a => some { wideWord .l64 sw 0x1A6 with a := a, hi := hi5 nf }
  | .coll sw a => some { wideWord .l64 sw 0x1A7 with a := a }
  | .xfence sw => some (wideWord .l64 sw 0x1AD)
  | .cgopen sw d a b => some { wideWord .l64 sw 0x1A8 with d := reg8 d, a := a, b := b }
  | .cgopenJoin sw d a => some { wideWord .l64 sw 0x1A8 with d := reg8 d, a := a, hi := hi5 true }
  | .cgprep sw d => some { wideWord .l64 sw 0x1A9 with d := reg8 d }
  | .cghoist sw d => some { wideWord .l64 sw 0x1AA with d := reg8 d }
  | .cgabort sw => some (wideWord .l64 sw 0x1AB)
  | .cgqry sw q d a => some { wideWord .l64 sw 0x1AC with d := reg8 d, a := a, hi := hi33 0 q.code }
  | .qpush sw sp d a b => some { wideWord .l64 sw 0x1AE with d := reg8 d, a := a, b := b, hi := hi33 0 sp.code }
  | _ => none

/-- The opcodes that R63 assigns: every other one is in a range of R64. -/
def assignedOp (n : Nat) : Bool :=
  n ≤ 0x011 || (0x014 ≤ n && n ≤ 0x016) || (0x040 ≤ n && n ≤ 0x05E) || (0x061 ≤ n && n ≤ 0x064) ||
  (0x080 ≤ n && n ≤ 0x096) || (0x0C0 ≤ n && n ≤ 0x0CB) || (0x0E0 ≤ n && n ≤ 0x0ED) || (0x100 ≤ n && n ≤ 0x107) ||
  (0x109 ≤ n && n ≤ 0x110) || (0x140 ≤ n && n ≤ 0x14F) || (0x160 ≤ n && n ≤ 0x16B) || (0x180 ≤ n && n ≤ 0x187) ||
  (0x1A0 ≤ n && n ≤ 0x1AE)

/-- The instruction that the opcode and the fields name, before reserved fields and classes are checked (R63 and the
encoding tables); `none` where a code of the word is reserved. -/
def Fields.read (f : Fields) : Option Instr :=
  match f.op.toNat with
  | 0x000 => some (.nop f.hdr f.len)
  | 0x001 => some (.bra f.hdr (f.ext.setWidth 32))
  | 0x002 => some (.brx f.hdr f.oa)
  | 0x003 => some (.call f.hdr f.d (f.ext.setWidth 32))
  | 0x004 => some (.callx f.hdr f.d f.oa)
  | 0x005 => some (.ret f.hdr f.oa)
  | 0x006 => some (.regang f.sw f.a)
  | 0x007 => some (.exit f.hdr)
  | 0x008 => some (.yield f.sw)
  | 0x009 => some (.trap f.hdr (f.hi ++ f.ty.extractLsb' 2 2 : BitVec 8))
  | 0x00A => some (.bkpt f.hdr)
  | 0x00B => some (.rtt f.sw)
  | 0x00C => (SReg.ofCode f.a).map (.rdsr f.hdr f.sc f.d ·)
  | 0x00D => (SReg.ofCode f.d).map (.wrsr f.hdr · f.oa)
  | 0x00E => (Space.ofCode f.m75).map (.setseg f.sw f.m8 · f.a)
  | 0x00F => (Space.ofCode f.m75).map (.getseg f.sw f.m8 · (lowBits 6 f.d))
  | 0x010 => some (.rdcyc f.hdr f.sc f.m5 f.d)
  | 0x011 => some (.dbnz f.hdr f.sc f.d (f.ext.setWidth 32))
  | 0x014 => some (.savectx f.sw f.a)
  | 0x015 => some (.loadctx f.sw f.a)
  | 0x016 => some (.tlbinv f.sw (f.ty == Scope.device.code) (if f.m8 then .range f.a f.b else .all))
  | 0x040 => (Ty.ofCode f.ty).map (.mov f.op1 ·)
  | 0x041 => (Ty.ofCode f.ty).map (.movi f.hdr f.sc · f.d f.ext)
  | 0x042 => (Ty.ofCode f.ty).map (.iadd f.op2 · f.m5)
  | 0x043 => (Ty.ofCode f.ty).map (.isub f.op2 · f.m5)
  | 0x044 => (Ty.ofCode f.ty).map (.imul f.op2 ·)
  | 0x045 => (Ty.ofCode f.ty).map (.imulh f.op2 ·)
  | 0x046 => (Ty.ofCode f.ty).map (.imad f.op3 ·)
  | 0x047 => (Ty.ofCode f.ty).map (.imin f.op2 ·)
  | 0x048 => (Ty.ofCode f.ty).map (.imax f.op2 ·)
  | 0x049 => (Ty.ofCode f.ty).map (.iabs f.op1 · f.m5)
  | 0x04A => (Ty.ofCode f.ty).map (.ineg f.op1 · f.m5)
  | 0x04B => (Ty.ofCode f.ty).map (.and f.op2 ·)
  | 0x04C => (Ty.ofCode f.ty).map (.or f.op2 ·)
  | 0x04D => (Ty.ofCode f.ty).map (.xor f.op2 ·)
  | 0x04E => (Ty.ofCode f.ty).map (.not f.op1 ·)
  | 0x04F => (Ty.ofCode f.ty).map (.shl f.op2 ·)
  | 0x050 => (Ty.ofCode f.ty).map (.shr f.op2 ·)
  | 0x051 => (Ty.ofCode f.ty).map (.shra f.op2 ·)
  | 0x052 => (Ty.ofCode f.ty).map (.rot f.op2 · f.m5)
  | 0x053 => (Ty.ofCode f.ty).map (.popc f.op1 ·)
  | 0x054 => (Ty.ofCode f.ty).map (.clz f.op1 ·)
  | 0x055 => (Ty.ofCode f.ty).map (.brev f.op1 ·)
  | 0x056 => (Ty.ofCode f.ty).map (.bfe f.op2 ·)
  | 0x057 => (Ty.ofCode f.ty).map (.bfi f.op3 ·)
  | 0x058 => (Ty.ofCode f.ty).map (.lea f.op2 · f.m75 (f.ext.setWidth 32))
  | 0x059 => do some (.icmp f.hdr f.sc (← Cond.ofCode f.m75) (← Ty.ofCode f.ty) (lowBits 3 f.d) f.oa f.ob)
  | 0x05A => (Ty.ofCode f.ty).map (.sel f.op2 · (lowBits 3 f.c))
  | 0x05B => some (.plop f.hdr f.m85 (PlopG.ofParts f.m109 (lowBits 3 f.c)) (lowBits 3 f.d) (lowBits 3 f.a) (lowBits 3 f.b))
  | 0x05C => (VoteMode.ofCode f.m65).map (.vote f.hdr · (lowBits 3 f.d) (lowBits 3 f.a))
  | 0x05D => some (.ballot f.hdr f.d (lowBits 3 f.a))
  | 0x05E => (Ty.ofCode f.ty).map (.v2s f.sw · (lowBits 6 f.d) f.oa f.b)
  | 0x061 => (Ty.ofCode f.ty).map (.iaddc f.op2 · f.m75 (if f.m8 then some (lowBits 3 f.c) else none))
  | 0x062 => (Ty.ofCode f.ty).map (.isubb f.op2 · f.m75 (if f.m8 then some (lowBits 3 f.c) else none))
  | 0x063 => do
    let m ← ShflMode.ofCode f.m65
    let t ← Ty.ofCode f.ty
    if h : f.m97.toNat < 6 then some (.shfl f.op2 t m ⟨f.m97.toNat, h⟩) else none
  | 0x064 => some (.prmt f.op3)
  | 0x080 => (RMode.ofCode f.m75).map (.fadd f.op2 ·)
  | 0x081 => (RMode.ofCode f.m75).map (.fsub f.op2 ·)
  | 0x082 => (RMode.ofCode f.m75).map (.fmul f.op2 ·)
  | 0x083 => (RMode.ofCode f.m75).map (.ffma f.op3 ·)
  | 0x084 => some (.fmin f.op2 f.m8)
  | 0x085 => some (.fmax f.op2 f.m8)
  | 0x086 => (FCond.ofCode f.m85).map (.fcmp f.hdr f.sc · (lowBits 3 f.d) f.oa f.ob)
  | 0x087 => (RMode.ofCode f.m75).map (.frcp f.op1 ·)
  | 0x088 => some (.frsq f.op1)
  | 0x089 => (RMode.ofCode f.m75).map (.fsqrt f.op1 ·)
  | 0x08A => some (.fexp2 f.op1)
  | 0x08B => some (.flog2 f.op1)
  | 0x08C => some (.fsin f.op1)
  | 0x08D => some (.fcos f.op1)
  | 0x08E => some (.ftanh f.op1)
  | 0x08F => (RMode.ofCode f.m75).map (.fscale f.op2 ·)
  | 0x090 => (RMode.ofCode f.m75).map (.frnd f.op1 ·)
  | 0x091 => (Ty.ofCode f.ty).map (.fclass f.op1 ·)
  | 0x092 => do some (.ffma2 f.op3 (← Ty.ofCode f.ty) (← RMode.ofCode f.m75))
  | 0x093 => do some (.fadd2 f.op2 (← Ty.ofCode f.ty) (← RMode.ofCode f.m75))
  | 0x094 => do some (.fmul2 f.op2 (← Ty.ofCode f.ty) (← RMode.ofCode f.m75))
  | 0x095 => do some (.fdot2 f.op3 (← Ty.ofCode f.ty) (← RMode.ofCode f.m75))
  | 0x096 => do some (.fdot4 f.op3 (← Ty.ofCode f.ty) (← RMode.ofCode f.m75) f.m8)
  | 0x0C0 => do some (.cvt f.op1 (← Ty.ofCode f.ty) (← Ty.ofCode (lowBits 4 f.c)) (← RMode.ofCode f.m75) f.m8)
  | 0x0C1 => do some (.cvtp f.op2 (← Ty.ofCode f.ty) (← RMode.ofCode f.m75) f.m8 f.m109)
  | 0x0C2 => (Ty.ofCode f.ty).map (.cvtu f.op1 · f.m108 (if f.m5 then some f.ob else none))
  | 0x0C3 => (Ty.ofCode f.ty).map (.bscale f.op1 · f.m5)
  | 0x0C4 => some (.qparm f.op2 f.m8)
  | 0x0C5 => (RMode.ofCode f.m75).map (.qapply f.op2 f.m8 ·)
  | 0x0C6 => some (.dq f.op2 f.m8 f.m75)
  | 0x0C7 => some (.qle8 f.lat)
  | 0x0C8 => some (.dle8 f.lat)
  | 0x0C9 => some (.rle8 f.lat)
  | 0x0CA => some (.ule8 f.lat)
  | 0x0CB => some (.cbq f.hdr f.d f.oa f.ob)
  | 0x0E0 => some (.requota f.sw f.a f.b)
  | 0x0E1 => some (.fbar f.sw f.a)
  | 0x0E2 => some (.fpost f.sw f.a f.b)
  | 0x0E3 => some (.fwait f.sw f.a f.b)
  | 0x0E4 => some (.gbar f.sw f.m8 (lowBits 2 f.a))
  | 0x0E5 => some (.garv f.sw f.m8 (lowBits 6 f.d) (lowBits 2 f.a))
  | 0x0E6 => some (.gwait f.sw f.m8 (lowBits 2 f.a) f.b)
  | 0x0E7 => do some (.gred f.sw f.m8 (← GredOp.ofCode f.m75) (← Ty.ofCode f.ty) (lowBits 6 f.d) (lowBits 2 f.a) f.b)
  | 0x0E8 => (GQuery.ofCode f.m75).map (.gqry f.sw · (lowBits 6 f.d) (lowBits 2 f.a))
  | 0x0E9 => (Space.ofCode f.m75).map (.binit f.sw · f.a f.b)
  | 0x0EA => do some (.barv f.sw f.m8 (← Space.ofCode f.m75) (← Scope.ofCode f.ty) (lowBits 6 f.d) f.a)
  | 0x0EB => do some (.bwait f.sw f.m8 (← Space.ofCode f.m75) (← Scope.ofCode f.ty) f.a f.b)
  | 0x0EC => (Space.ofCode f.m75).map (.bdrop f.sw · f.a)
  | 0x0ED => do
    some (.waitcmp f.hdr (← Cond.ofCode f.m108) f.m5 (← Ty.ofCode f.ty) (← Scope.ofCode (lowBits 4 f.c)) f.d f.oa f.ob)
  | 0x100 => do
    some (.ld f.hdr f.sc (← scopeRead f.m10 f.b) (← Count.ofCode f.m98) (← Space.ofCode f.m75) (← Ty.ofCode f.ty) f.d f.oa f.c)
  | 0x101 => do
    some (.st f.hdr (← scopeRead f.m10 f.d) (← Count.ofCode f.m98) (← Space.ofCode f.m75) (← Ty.ofCode f.ty) f.oa f.ob f.c)
  | 0x102 => some (.ldl f.sw f.m75 f.d f.ta f.b)
  | 0x103 => some (.stl f.sw f.m75 f.ta f.b f.oc)
  | 0x104 => do
    some (.gath f.hdr f.m9 f.m8 (← Space.ofCode f.m75) (← Ty.ofCode f.ty) f.d f.oa f.ob (lowBits 3 f.c))
  | 0x105 => do
    some (.scat f.hdr f.m9 f.m8 (← Space.ofCode f.m75) (← Ty.ofCode f.ty) f.d f.oa f.ob (lowBits 3 f.c))
  | 0x106 => do
    some (.atom f.hdr (← AtomOp.ofCode f.m108) (← Space.ofCode f.m75) (← Ty.ofCode f.ty)
      (← Scope.ofCode (f.c.extractLsb' 4 4)) (← AtomOrd.ofCode (f.c.extractLsb' 2 2)) f.d f.oa f.ob)
  | 0x107 => do
    some (.red f.hdr (← AtomOp.ofCode f.m108) (← Space.ofCode f.m75) (← Ty.ofCode f.ty)
      (← Scope.ofCode (f.c.extractLsb' 4 4)) (f.c.extractLsb' 2 2 == AtomOrd.rel.code) f.oa f.ob)
  | 0x109 => do some (.fence f.sw (← FenceMode.ofCode f.m65) (← Scope.ofCode f.ty))
  | 0x10A => some (.bind f.sw (f.hi.extractLsb' 0 5 ++ f.ty ++ f.lo : BitVec 10) f.a f.b f.c)
  | 0x10B => if f.m10 then some (.unbindObj f.sw f.a)
    else some (.unbind f.sw (f.hi.extractLsb' 0 5 ++ f.ty ++ f.lo : BitVec 10))
  | 0x10C => (Scope.ofCode f.ty).map (.acq f.hdr (if f.m8 then .cas f.ob f.oc else .ld) · f.d f.oa)
  | 0x10D => do some (.rels f.hdr (← RelsOp.ofCode f.m108) (← Scope.ofCode f.ty) f.oa f.ob)
  | 0x10E => do some (.pref f.hdr (← PrefLevel.ofCode f.m98) (← Space.ofCode f.m75) f.oa f.c)
  | 0x10F => do some (.cinv f.hdr (← Scope.ofCode (lowBits 4 f.b)) (← Space.ofCode f.m75) f.oa f.c)
  | 0x110 => do some (.cwb f.hdr (← Scope.ofCode (lowBits 4 f.b)) (← Space.ofCode f.m75) f.oa f.c)
  | 0x140 => (Space.ofCode f.m75).map (.lld f.sw · (lowBits 4 f.d) f.a)
  | 0x141 => (Space.ofCode f.m75).map (.lst f.sw · f.a (lowBits 4 f.b))
  | 0x142 => some (.lset f.sw f.m9 f.m8 f.m75 (lowBits 4 f.d) (f.ext.extractLsb' 0 16) (f.ext.extractLsb' 16 24))
  | 0x143 => some (.lchain f.sw (lowBits 4 f.d) (lowBits 4 f.a) (lowBits 4 f.b))
  | 0x144 => some (.lpart f.sw f.m8 f.m75 (lowBits 4 f.d) (lowBits 4 f.a) (f.ext.setWidth 16))
  | 0x145 => some (.ltrans f.sw (lowBits 4 f.d) (lowBits 4 f.a) (f.ext.setWidth 18))
  | 0x146 => some (.lflat f.sw f.m8 f.m75 (lowBits 4 f.d) (lowBits 4 f.a))
  | 0x147 => some (.lslice f.sw f.m75 (lowBits 4 f.d) (lowBits 4 f.a) f.b (lowBits 4 f.c) (f.ext.setWidth 32))
  | 0x148 => some (.lswz f.sw (lowBits 4 f.d) (lowBits 4 f.a) f.b)
  | 0x149 => (LQuery.ofParts f.m75 f.m98 (lowBits 4 f.b)).map (.lqry f.sw · (lowBits 6 f.d) (lowBits 4 f.a))
  | 0x14A => do
    some (.hmk f.sw f.m109 (← Kind.ofCode f.m86) (← Fmt.ofCode (f.hi.extractLsb' 0 1 ++ f.ty : BitVec 5)) (lowBits 4 f.d) f.a f.b
      (f.ext.setWidth 48))
  | 0x14B => (HField.ofCode f.m85).map (.hset f.sw · (lowBits 4 f.d) (if f.xa then .reg f.a else .imm f.ext))
  | 0x14C => (HField.ofCode f.m85).map (.hqry f.sw · (lowBits 6 f.d) (lowBits 4 f.a))
  | 0x14D => some (.permx f.sw f.m85 f.d f.oa)
  | 0x14E => (ptldSpace f.m109).map (.ptld f.sw · f.m85 f.a)
  | 0x14F => some (.lmov f.sw f.m5 (lowBits 4 f.d) (lowBits 4 f.a))
  | 0x160 => some (.mwld f.sw f.m5 f.ta)
  | 0x161 => some (.mwsw f.sw)
  | 0x162 => some (.mrel f.sw)
  | 0x163 => some (.mstr f.sw f.m5 (if f.hi.getLsbD 1 then some f.c else none) (lowBits 2 f.d) f.ta (f.ext.setWidth 7))
  | 0x164 => some (.mzero f.sw (lowBits 2 f.d))
  | 0x165 => some (.mzld f.sw (lowBits 2 f.d) f.ta f.b)
  | 0x166 => (RMode.ofCode f.m75).map (.mzst f.sw · (lowBits 2 f.d) f.ta f.b)
  | 0x167 => if f.m5 then some (.mzmvFrom f.sw f.m76 (lowBits 2 f.d) f.oa f.b)
    else some (.mzmvTo f.sw f.m76 f.d (lowBits 2 f.a) f.b)
  | 0x168 => some (.mresc f.sw (lowBits 2 f.d) f.oa)
  | 0x169 => (Space.ofCode f.m75).map (.mcbld f.sw · f.a)
  | 0x16A => (MQuery.ofCode f.m75).map (.mqry f.sw · (lowBits 6 f.d))
  | 0x16B => some (.tred f.sw f.m5 f.d (lowBits 2 f.a) f.b)
  | 0x180 => (Space.ofCode (f.ty.extractLsb' 1 3)).map (.cpy f.sw f.hi · f.ta f.tb f.c)
  | 0x181 => (Space.ofCode (f.ty.extractLsb' 1 3)).map (.cpym f.sw f.hi · f.ta f.tb f.c)
  | 0x182 => some (.twany f.sw (lowBits 6 f.d) f.a)
  | 0x183 => some (.twall f.sw f.a)
  | 0x184 => some (.tffr f.sw (lowBits 6 f.d) f.a)
  | 0x185 => some (.tclr f.sw f.a)
  | 0x186 => (JQuery.ofParts f.m75 f.a).map (.jqry f.sw · (lowBits 6 f.d))
  | 0x187 => some (.jcan f.sw f.a)
  | 0x1A0 => (Space.ofCode f.m75).map (.xfer f.sw f.m10 f.m9 · f.a f.b (lowBits 6 f.c))
  | 0x1A1 => (Space.ofCode f.m75).map (.xget f.sw · f.a f.b (lowBits 6 f.c))
  | 0x1A2 => if f.m9 then some (.xatom f.sw f.m10 f.m8 .arv f.a f.b (lowBits 6 f.c))
    else do
      some (.xatom f.sw f.m10 f.m8 (.mem (lowBits 6 f.d) (← AtomOp.ofCode f.m75) (← Ty.ofCode f.ty)) f.a f.b (lowBits 6 f.c))
  | 0x1A3 => (Space.ofCode f.m75).map (.xpost f.sw · (lowBits 6 f.d) f.a f.b)
  | 0x1A4 => (Space.ofCode f.m75).map (.xmc f.sw f.m9 · f.a f.b (lowBits 6 f.c))
  | 0x1A5 => some (.arvset f.sw f.m5 f.a f.b f.c)
  | 0x1A6 => some (.arvwait f.sw f.m5 f.a)
  | 0x1A7 => some (.coll f.sw f.a)
  | 0x1A8 => if f.m5 then some (.cgopenJoin f.sw (lowBits 6 f.d) f.a) else some (.cgopen f.sw (lowBits 6 f.d) f.a f.b)
  | 0x1A9 => some (.cgprep f.sw (lowBits 6 f.d))
  | 0x1AA => some (.cghoist f.sw (lowBits 6 f.d))
  | 0x1AB => some (.cgabort f.sw)
  | 0x1AC => (CgQuery.ofCode f.m75).map (.cgqry f.sw · (lowBits 6 f.d) f.a)
  | 0x1AD => some (.xfence f.sw)
  | 0x1AE => (Space.ofCode f.m75).map (.qpush f.sw · (lowBits 6 f.d) f.a f.b)
  | _ => none

/-! ### Decoding and encoding bytes -/

/-- Why a word is no instruction: the trap of step 2 or of step 4 of R67. -/
inductive DecodeErr where
  | illegalLength
  | illegalInstruction
  | cutShort
  deriving DecidableEq, Repr

/-- The little-endian value of bytes (R5). -/
def leNat : List Byte → Nat
  | [] => 0
  | b :: bs => b.toNat + 256 * leNat bs

/-- `n` bytes of a value, the lowest first (R5). -/
def leBytes : Nat → Nat → List Byte
  | 0, _ => []
  | n + 1, v => BitVec.ofNat 8 v :: leBytes n (v / 256)

/-- Step 4 of R67 for a field record: an unassigned opcode is the table's own row, any other word is the instruction
that it encodes exactly. -/
def Fields.decode (f : Fields) : Option Instr :=
  if assignedOp f.op.toNat then
    match f.read with
    | some i => if i.toFields == some f && i.wf then some i else none
    | none => none
  else some (.unassignedOpcode f.op f.len.code)

/-- The instruction at the head of a list of bytes, and the bytes after it; total on every list. -/
def decode (bs : List Byte) : Except DecodeErr (Instr × List Byte) :=
  let w : BitVec 64 := BitVec.ofNat 64 (leNat (bs.take 8))
  if bs.length < 8 then .error .cutShort
  else match Len.ofCode (w.extractLsb' 0 2) with
    | none => .error .illegalLength
    | some len =>
      if bs.length < len.bytes then .error .cutShort
      else match (Fields.ofLow len w (BitVec.ofNat 64 (leNat ((bs.take len.bytes).drop 8)))).decode with
        | some i => .ok (i, bs.drop len.bytes)
        | none => .error .illegalInstruction

/-- The bytes of an instruction word, the lowest address first (R5, R37); nothing for the rows that are no words. -/
def encode (i : Instr) : List Byte :=
  match i.toFields with
  | some f => leBytes 8 f.low.toNat ++ leBytes (f.len.bytes - 8) f.ext.toNat
  | none => []

/-- The length in bytes of an instruction word (R37, R40); 8 for a word that carries no fields. -/
def Instr.bytes (i : Instr) : Nat :=
  match i with
  | .unassignedOpcode _ l => (match Len.ofCode l with | some l => l.bytes | none => 8)
  | _ => match i.toFields with | some f => f.len.bytes | none => 8

/-- The host's question of its opcode table: the instruction whose bits, from bit 0 of the first word on, are `w`, every
bit above the table's being 0. -/
def decodeTableWord (_nbits w : Nat) : Option Instr :=
  match decode (leBytes 16 w) with
  | .ok (i, _) => some i
  | .error _ => none

end Sys2Proof
end

