-- ==== Sys2Proof/Config.lean ====
section
/-! DEFINITION. What the manual leaves open and a run fixes: free values, each an opaque constant that nothing can
evaluate (log entries 5, 6, 10, 11, 17 to 19 and 22 to 24), and the figures that a part is built with. -/

namespace Sys2Proof.Config

/-- Free value (log entry 5): how many cycles of a core's clock pass in one step of the machine (R33). -/
opaque elapsed : Nat → Nat → Nat

/-- Free value (log entry 6): a faithful function returns the upper of the two neighbours of its exact result (R169);
the function is named by its opcode, the operand by its code. -/
opaque faithfulUp : Nat → Word → Bool

/-- Free value (log entry 17): the die cache slice, 0 to 15, of a line of memory (R22, R341). -/
opaque slice : Nat → Fin 16

/-- Free value (log entry 18): the plane that a request to a target leaves through (R413). -/
opaque planeOf : Nat → Nat → Nat

/-- Free value (log entry 18): by how many bytes more than one a frame of a Sirocco port exceeds the data it carries (R426). -/
opaque frameExtra : Nat → Nat

/-- Free value (log entry 17): the unit of 48 KiB of a core's SRAM, 0 to 31, that holds a line of its L1 (R31, R352). -/
opaque l1Unit : Nat → Fin 32

/-- The fused spare cores of a die's 6 × 7 mesh, by row × 7 + column (R21; log entry 16). -/
def spareCores : List Nat := [40, 41]

/-- Free value (log entry 18): the port die whose channels hold a 4 KiB granule of tier-2 memory (R470). -/
opaque tier2Port : Nat → Fin 2

/-- Free value (log entry 18): the ranks, one or two, of a tier-2 channel (R470). -/
opaque tier2Ranks : Nat → Fin 2

/-- Free value (log entry 24): the local id, less one, that the n-th group of a device is given when it is not in use (R438). -/
opaque cgLocal : Nat → Fin 65535

/-- Free value (log entry 22): a digest of the masthead die (R461, R462). -/
opaque digest : List Byte → BitVec 384

/-- Free value (log entry 22): the bytes of a signed or certified SPDM answer (R462). -/
opaque spdmBytes : Nat → List Byte → List Byte

/-- Free value (log entry 19): the sector count, 0 to 8, that is guessed for a read of a compressed block, by the block and the number
of the read (R208, R209). -/
opaque sectorGuess : Nat → Nat → Fin 9

/-- Free value (log entry 19): the code, 0 to 7, of a block that is not all zero, by its contents (R208). -/
opaque sectorCode : Nat → Fin 8

/-- Free value (log entry 19): what a unit of 16 bytes that was written under one key reads as under another, by the two keys, the
unit's number and its contents (R194). -/
opaque recipher : BitVec 512 → BitVec 512 → Nat → BitVec 128 → BitVec 128

/-- Free value (log entry 10): the device-defined encoding in a fibre block, from 0x2C4, of the n-th image (R391). -/
opaque contextCode : Nat → BitVec 480

/-- Free value (log entry 11): a cluster's entry of the save directory, by its queue, packet, cluster index, first granule and number of
granules (R394). -/
opaque dirEntry : Nat → Nat → Nat → Nat → Nat → BitVec 128

/-- Free value (log entry 11): a byte of the parts of a save block whose encoding is the device's own, by step and address (R394). -/
opaque saveByte : Nat → Nat → Byte

/-- Free value (log entry 23): the random state with which an element is rounded under RST where sr.fpm.rm selects it for a
job or for MZST, which have no lane's state (R95, R296, R308). -/
opaque engineRandom : Nat → Nat → Word

end Sys2Proof.Config
end

