-- ==== Sys2Proof/Machine/State.lean ====
section
/-! DEFINITION. The state of the device as plain data: one record per thing that the manual gives a life of its own
(fibres, gangs, slots, teams, clusters, kernels, contexts, copies of memory, objects of engines and links), kept in
lists keyed by name, with the fixed register files as vectors. -/

namespace Sys2Proof.Machine

open Sys2Proof

/-! ### Memory -/

/-- Home memory: the bytes of every physical address (R191), at the home slice of each. Addresses rise strictly and no
entry is 0, which is what an unlisted byte reads as (log entry 1). -/
abbrev Memory := List Host.Cell

/-- Where a copy of memory is held (R233): an L1, a core's scale cache, which belongs to the L1 level (R286), or a die cache. -/
inductive CopyAt where
  | l1 (core : Nat)
  | sc (core : Nat)
  | dc (die : Nat)
  deriving DecidableEq, Repr

/-- One word of a line held by an L1 or a die cache (R233 to R235): the word's number is its physical address over 4;
the virtual address and ASID are those its line was filled under (R240); `home` is its home die, `repl` marks a word of a replicated page
(R207), `cp` one of a compressed page (R208), and `key` is the page's key id (R194). -/
structure Copy where
  pos : CopyAt
  word : Nat
  val : Word
  dirty : Bool
  poison : Bool
  asid : BitVec 16
  va : VA
  home : Nat
  repl : Bool
  cp : Bool
  key : Byte
  deriving DecidableEq, Repr

/-- A cached leaf (R197): the page's first virtual address, its size and the leaf word. -/
structure TlbEntry where
  asid : BitVec 16
  base : Nat
  size : Nat
  leaf : DWord
  deriving DecidableEq, Repr

/-- A cached table entry of levels 1 to 4 (R197): `key` is the virtual address bits above the level's index, index
included. -/
structure WalkEntry where
  asid : BitVec 16
  level : Nat
  key : Nat
  next : Nat
  deriving DecidableEq, Repr

/-- The bound regions of one object as a die caches them (R238): base and length. -/
structure BindEntry where
  asid : BitVec 16
  obj : VA
  regions : List (Nat × Nat)
  deriving DecidableEq, Repr

/-- The counters of compressed pages of one die cache slice (R209). -/
structure CmpCount where
  rd : Nat
  hit : Nat
  short : Nat
  long : Nat
  zero : Nat
  wr : Nat
  deriving DecidableEq, Repr

/-- A 4-byte or 8-byte word by where it lives: a scratchpad by cluster and rank, or a physical address with its home die
(R23), the key id of its page (R194) and whether the page is compressed (R208). -/
inductive Place where
  | pad (cl team off : Nat)
  | home (pa die : Nat) (key : Byte) (cp : Bool)
  deriving DecidableEq, Repr

/-! ### Fibres -/

/-- A register that has a pending bit and belongs to the fibre (R114), pattern tables included (R279); vector rows belong to
the slot. -/
inductive Reg where
  | s (n : Nat) | p (n : Nat) | l (n : Nat) | h (n : Nat) | cb (n : Nat) | pat (n : Nat)
  deriving DecidableEq, Repr

/-- A register write, made at once or held until a result returns (R114). -/
inductive RegUpd where
  | v (row : Nat) (mask : Mask) (val : Row)
  | s (n : Nat) (val : DWord)
  | p (n : Nat) (mask : Mask) (val : Mask)
  | l (n : Nat) (val : BitVec 512)
  | h (n : Nat) (val : BitVec 256)
  | cb (n : Nat) (val : Mask)
  | pat (n : Nat) (val : List Byte)
  deriving DecidableEq, Repr

/-- The traps of R379, by name. -/
inductive Trap where
  | illegalInstruction | illegalLength | fetchCross | registerBound | markerHazard | deadRead | segmentLimit | misaligned
  | permission | pageFault | mappingError | dataError | layoutReject | layoutCompose | layoutFlatten | le8Partial
  | shellOverflow | collectiveDivergence | arrayState | barrierClobber | remoteFault | remoteReset | linkDown | jobFault
  | queueAccess | commitState | breakpoint | softTrap | fibreQuota
  deriving DecidableEq, Repr

/-- What a trap writes to the trap registers (R380): the cause fields, the PC, the address and the lanes. -/
structure TrapRec where
  code : Trap
  info : Byte
  rp : Bool
  asy : Bool
  epc : VA
  eaddr : DWord
  emask : Mask
  deriving DecidableEq, Repr

/-- The kind of a group phase (R321). -/
inductive GroupKind where
  | barrier
  | reduce (op : GredOp) (ty : Ty)
  deriving DecidableEq, Repr

/-- What a release that had to wait for earlier accesses still does when they are performed: the work of a FENCE (R230). -/
inductive Tail where
  | fence (m : FenceMode) (sc : Scope)
  deriving DecidableEq, Repr

/-- A result that is outstanding (R114 to R117): the writes that it makes when it returns, the flags that it merges then
(R101), what it leaves pending meanwhile, the asynchronous error found in its data (R478), the remote requests it waits for, and
the errors of the lanes of a remote access (R416). -/
structure Out where
  id : Nat
  upds : List RegUpd
  rows : List Nat
  regs : List Reg
  fps : BitVec 32
  le8s : BitVec 32
  err : Option TrapRec
  remote : List Nat
  fail : List TrapRec
  /-- A FENCE, BINIT, BIND or the like: no later memory access of the fibre comes before its completion (R231, R335); an
  XFENCE: no later remote request (R437). -/
  fence : Bool
  rfence : Bool
  /-- The gang whose wait makes the result, which returns when the wait ends (R114, R117), and what the return of a release still
  does. -/
  waiter : Option Nat
  tail : Option Tail
  deriving DecidableEq, Repr

/-- An asynchronous trap that is held (R383), with the kind of its event. -/
inductive HeldKind where | data | matrix | job | remote
  deriving DecidableEq, Repr
structure HeldTrap where
  kind : HeldKind
  rcd : TrapRec
  deriving DecidableEq, Repr

/-- What a waiting gang waits for. The instruction is issued again when the condition holds (`arrive`), or its
remaining effect is made then. -/
inductive Wait where
  /-- GRED, GBAR and GARV of a member whose arrived bit is still set (R323). -/
  | arrive (id : Nat) (phase : BitVec 16)
  /-- GWAIT and GBAR (R326): the slot, the phase awaited, and whether an acquire follows. -/
  | group (id : Nat) (phase : BitVec 16) (nf : Bool) (len : Nat)
  /-- GRED: as `group`, with the destination. -/
  | gred (id : Nat) (phase : BitVec 16) (nf : Bool) (d : Nat)
  /-- BARV, RELS, QPUSH, XPOST or the arrival of a group member until the accesses that its release orders have been performed (R249, R328, R335, R373);
  it is then issued again, and counts as an outstanding result until then. -/
  | released (sc : Scope)
  /-- BWAIT (R335); `ended` that it has been released although its die, fibre or cluster does not go on yet (R332). -/
  | bword (w : Place) (gen : BitVec 16) (nf : Bool) (sc : Scope) (ended : Bool)
  /-- WAITCMP (R339): the lanes that are not done with the places they read, the values of the done lanes, the
  lanes whose places have a monitor armed, the acquire, whether a lane read a dead register (R101, R113), and the rows of which the
  instruction is the last use, which die when it completes (R45). -/
  | cmp (cc : Cond) (ty : Ty) (sc : Scope) (aq : Bool) (d : Nat) (left : List (Nat × VA × Place × DWord))
      (vals : List (Nat × DWord)) (armed : List Nat) (dead : Bool) (kills : List Nat)
  /-- TWANY and TWALL (R314): the mask of tags. -/
  | tagsAny (d : Nat) (mask : DWord)
  | tagsAll (mask : DWord)
  /-- ARVWAIT (R434). -/
  | counter (asid : BitVec 16) (id : Nat) (nf : Bool) (target : Nat)
  /-- CGPREP, CGHOIST and CGABORT wait for the group's state to leave the one named (R450). -/
  | commit (cgid : BitVec 32) (st : Nat) (d : Nat)
  deriving DecidableEq, Repr

/-- The scalar register that a waiting instruction will write (R114). -/
def Wait.dst : Wait → Option Nat
  | .gred _ _ _ d | .tagsAny d _ | .commit _ _ d => some d
  | .arrive .. | .group .. | .released .. | .bword .. | .cmp .. | .tagsAll .. | .counter .. => none

/-- What a gang does (R129, R131, R137): issues in its turn, waits at a rendezvous, or waits for a condition. -/
inductive GangSt where
  | run
  | rendezvous (id : Byte)
  | wait (w : Wait)
  deriving DecidableEq, Repr

/-- A gang (R129): a name that its fibre gives no other gang, its live lanes, its PC, and how many instructions it has
issued in a row (R118). The deferral entries of the slices are the gangs themselves. -/
structure Gang where
  id : Nat
  lanes : Mask
  pc : VA
  st : GangSt
  count : Nat
  deriving DecidableEq, Repr

/-- Why a fibre is parked (R106); waits of gangs are kept with the gang. -/
inductive Park where
  | results
  | flag (f n : Nat)
  | barrier (b : Nat)
  | waits
  | groupExit
  deriving DecidableEq, Repr

/-- Why a fibre is frozen (R107): for replay with the frames that the fault report names and whether the memory processor
has answered, by a context fault, or at a breakpoint. -/
inductive Frozen where
  | replay (frames : List Nat)
  | fault
  | breakpoint (gang : Nat)
  deriving DecidableEq, Repr

/-- The states of R106; `run` is ready, or issuing when the fibre holds its slot. -/
inductive FibreSt where
  | run
  | parked (p : Park)
  | frozen (z : Frozen)
  | exited
  deriving DecidableEq, Repr

/-- The completion bitmap of an instruction that a replayable fault or a trap cut short (R200, R201, R223): the gang and
PC of the instruction, the lanes performed, their register writes, the destinations that stay pending, the frames
for which no allocation was found, by the invalid entries of their walks (R199), an error in the data read so far, and whether an error
that has become a held trap keeps the destinations from being written (R478). -/
structure Replay where
  gang : Nat
  pc : VA
  done : Mask
  upds : List RegUpd
  rows : List Nat
  regs : List Reg
  noAlloc : List Nat
  err : Option TrapRec
  mute : Bool
  deriving DecidableEq, Repr

/-- What a fibre block holds in the device's own encoding (R391): gangs with their states, the turn, the handler gang and the
PC at which its trap was taken, held asynchronous traps, the replay records, deferred posts and arrivals, the arrived bits of
its groups, and the current CGID (R440). -/
structure Snap where
  live : Mask
  gangs : List Gang
  turn : Nat
  nextGang : Nat
  hgang : Nat
  tookAt : VA
  held : List HeldTrap
  replay : List Replay
  trapped : Option Replay
  posts : List (Nat × Nat × List Nat)
  arrivals : List (Nat × List Nat)
  garr : List (Nat × BitVec 16)
  cgid : BitVec 32
  aside : Option (VA × GangSt)
  deriving DecidableEq, Repr

/-- An XFER, XMC or XGET that is held at issue with some packets sent (R121, R418, R426): its gang and PC, the target or group and ASID, the
remote range, the counter of its arrivals, the commit group of its records, the bytes that it has read or the places of the words that it
will write, and how many packets have been sent. -/
structure Sending where
  gang : Nat
  pc : VA
  dev : BitVec 16
  mc : Bool
  asid : BitVec 16
  at_ : Nat
  len : Nat
  arrival : Option (BitVec 8)
  cgid : Option (BitVec 32)
  bytes : List Byte
  places : Option (List Place)
  sent : Nat
  deriving DecidableEq, Repr

/-- A segment register (R188). -/
structure Seg where
  base : VA
  limit : DWord
  deriving DecidableEq, Repr

/-- One fibre (R14, R51, R58, R106). -/
structure Fibre where
  ref : FibreRef
  asid : BitVec 16
  kern : KernelRef
  /-- The slot on its core, and the fibre's position in it (R109). -/
  slot : Nat
  pos : Nat
  st : FibreSt
  live : Mask
  gangs : List Gang
  /-- The gang that holds the fibre's turn, and the next unused gang name. -/
  turn : Nat
  nextGang : Nat
  /-- R120. -/
  age : Nat
  s : Vector DWord 64
  p : Vector Mask 7
  l : Vector (BitVec 512) 16
  h : Vector (BitVec 256) 16
  cb : Vector Mask 8
  g : Vector Byte 4
  grp : BitVec 32
  quota : BitVec 32
  fpm : BitVec 32
  fps : BitVec 32
  le8s : BitVec 32
  fp4x : BitVec 32
  lcd : BitVec 32
  xretry : BitVec 32
  ecause : BitVec 32
  emask : BitVec 32
  epc : DWord
  eaddr : DWord
  rng : Row
  seg : Vector Seg 6
  /-- Pending bits of the registers that are not vector rows (R114). -/
  pend : List Reg
  out : List Out
  nextOut : Nat
  /-- R382. -/
  hmode : Bool
  hgang : Nat
  held : List HeldTrap
  /-- A trap that waits for the outstanding results before the handler is entered (R383). -/
  taking : Option (Nat × TrapRec)
  /-- The PC at which the trap that the handler serves was taken (R389). -/
  tookAt : VA
  /-- The instructions that replay, at most one of a gang, and the one whose trap the handler serves (R201, R389). -/
  replay : List Replay
  trapped : Option Replay
  /-- Deferred FPOSTs (R125): flag, increment and the results that they wait for. -/
  posts : List (Nat × Nat × List Nat)
  /-- Deferred FBAR arrivals (R127): barrier, and the results that they wait for. -/
  arrivals : List (Nat × List Nat)
  /-- The current CGID, 0 for none (R440). -/
  cgid : BitVec 32
  /-- Arrived bits and phases of the group slots (R323). -/
  garr : List (Nat × BitVec 16)
  /-- What LOADCTX loaded that takes effect at the next RTT (R392). -/
  loaded : Option Snap
  /-- The frames of the next fetch that no allocation covers (R199). -/
  noFetch : List Nat
  /-- The PC that the debugger last wrote to sr.epc while the fibre is stopped (R388). -/
  dbgPc : Option VA
  /-- The instructions held with some packets sent, at most one of a gang. -/
  sending : List Sending
  /-- The wait that the handler gang had begun when a trap readied its parked fibre, with its PC (R478; log entry 20). -/
  aside : Option (VA × GangSt)
  deriving DecidableEq, Repr

/-- One slot of a team (R14, R107, R109, R125 to R127): its number on the core at launch, which sr.slot keeps (R20), and its
number on the core now (R359), the position of the fibre that holds it and of the one that held it last, the live rows, the rows that are pending, the flags, the queue of each flag, and the arrivals at each fibre barrier. -/
structure Slot where
  cl : Nat
  team : Nat
  slot : Nat
  phys : Nat
  holder : Option Nat
  last : Nat
  rows : List (Nat × Row)
  pend : List Nat
  flags : Vector Nat 16
  queue : List (Nat × Nat × Nat)
  bars : Vector Nat 4
  deriving DecidableEq, Repr

/-- Where a mapped byte is, with what its accesses depend on: the physical address and its home die, the virtual address and
ASID, and the page's attributes (R194). -/
structure Mapped where
  pa : Nat
  die : Nat
  va : VA
  asid : BitVec 16
  key : Byte
  ms : Bool
  na : Bool
  rp : Bool
  cp : Bool
  hbm : Bool
  host : Bool
  w : Bool
  r : Bool
  deriving DecidableEq, Repr

/-- A byte's or word's place for the operations below: a scratchpad, or mapped memory. -/
inductive Target where
  | pad (cl team off : Nat)
  | mem (m : Mapped)
  deriving DecidableEq, Repr

/-! ### The matrix array (chapter 11) -/

/-- A byte range that a feeder reads or writes: its address as the access names it, and its parts with their places. -/
structure Piece where
  addr : Nat
  parts : List (Target × Nat)
  deriving DecidableEq, Repr

/-- A unit of a tile operand: in memory, or a value already known; `half` marks a unit whose upper element is padding
(R258). -/
inductive Src where
  | mem (p : Piece) (half : Bool)
  | imm (x : Nat)
  deriving DecidableEq, Repr

/-- One row of activations or one column of weights: its units along k, and the scale of each chunk of 32, if it has
one. -/
structure RowSrc where
  units : List Src
  scales : List Piece
  deriving DecidableEq, Repr

/-- As read: the units and the scales. -/
structure FeedRow where
  units : List Nat
  scales : List Nat
  deriving DecidableEq, Repr

/-- What a feeder needs of a handle and of sr.fpm: format, reduction length, FP4X, tensor scale and modes (R99, R287). -/
structure Feed where
  fmt : Fmt
  k : Nat
  x4 : BitVec 16
  tscale : BitVec 32
  fpm : BitVec 32
  deriving DecidableEq, Repr

/-- The states of a weight plane (R289). -/
inductive WtSt where | empty | loading | valid | active | released
  deriving DecidableEq, Repr

/-- A weight plane (R289): its state, what it latched, its columns, and its codebook. -/
structure Plane where
  st : WtSt
  feed : Feed
  n : Nat
  cols : List FeedRow
  book : List Nat
  deriving DecidableEq, Repr

/-- A command in array order (R283). `follow` is a follow-on that its copy job has not released yet (R313). -/
inductive ArrOp where
  | wload (fd : Feed) (heads : List Piece) (cols : List RowSrc)
  | swap
  | rel
  | stream (z row0 : Nat) (init : Bool) (fd : Feed) (zb : List Piece) (rows : List RowSrc)
  | zero (z : Nat)
  | zload (z row0 : Nat) (fd : Feed) (rows : List (List Src))
  | zstore (z row0 : Nat) (fd : Feed) (rm : RMode) (rows : List (List (Piece × Option Piece)))
  | mvTo (z row0 : Nat) (rows : List (Option Nat))
  | mvFrom (z row0 : Nat) (vals : List (List Word))
  | resc (z : Nat) (f : List Word) (fpm : BitVec 32)
  | cbload (ps : List Piece)
  | tred (z : Nat) (sum : Bool) (c : Nat) (fpm : BitVec 32) (rows : List (Option Nat))
  | follow (tag : Nat) (weights : Bool) (z row0 : Nat) (init : Bool) (fd : Feed) (n : Nat)
  deriving DecidableEq, Repr

/-- A command with the fibre and PC that issued it and the rows committed so far. -/
structure ArrCmd where
  id : Nat
  f : FibreRef
  pc : VA
  op : ArrOp
  prog : Nat
  /-- The cluster was saved since: the pages of the operands are found again (R302). -/
  stale : Bool
  deriving DecidableEq, Repr

/-- The matrix array as a team holds it (R282): the two planes, the rows of Z0 to Z3 that are not +0 throughout by tile ×
128 + row, the codebook store, the commands in array order, the PC of the last DataError, and the latest MSTR, MZLD or MZST
with its progress (R300). -/
structure Arr where
  shadow : Plane
  other : Plane
  z : List (Nat × List Word)
  book : List Nat
  queue : List ArrCmd
  flt : VA
  last : Nat
  prog : Nat
  deriving DecidableEq, Repr

/-! ### Copy jobs (chapter 12) -/

/-- A region of a job card (R305). -/
structure Region where
  sp : Space
  base : Nat
  len : Nat
  tdev : BitVec 16
  asid : BitVec 16
  deriving DecidableEq, Repr

/-- The states of R311; a free job has no record. -/
inductive JobSt where | blocked | queued | running | landed | done | faulted
  deriving DecidableEq, Repr

/-- A remote word that a job reads or writes (R480). -/
structure JobKey where
  write : Bool
  dev : BitVec 16
  asid : BitVec 16
  addr : Nat
  len : Nat
  deriving DecidableEq, Repr

/-- A copy job (R311): a name that no other job has, its tag and issuing fibre; the source and destination handles and
layouts, the footprint, scope, rounding mode, sampled modes and retry limit; the earlier jobs it waits for; the elements
performed, the fault, the frames of a replayable fault, the frames without an allocation, the remote words read for the next
element, the remote request it waits for, and the follow-on command. -/
structure Job where
  id : Nat
  tag : Nat
  f : FibreRef
  st : JobSt
  src : BitVec 256 × BitVec 512
  dst : BitVec 256 × BitVec 512
  reads : List Region
  writes : List Region
  scope : Scope
  rm : RMode
  fpm : BitVec 32
  xretry : BitVec 32
  edges : List Nat
  prog : Nat
  cause : Byte
  addr : DWord
  frames : List Nat
  noAlloc : List Nat
  buf : List (JobKey × List Byte)
  req : Option Nat
  broken : Option (Byte × Nat)
  cmd : Option Nat
  deriving DecidableEq, Repr

/-! ### Teams, clusters, kernels -/

/-- One team (R14, R17, R352): its core, its scratchpad of `k` units of 48 KiB from unit `unit` with the tag bits and the
poisoned words, its pattern tables, its tags and jobs, and the array state when the kernel holds the array. -/
structure Team where
  cl : Nat
  rank : Nat
  core : Nat
  unit : Nat
  k : Nat
  retired : Bool
  pad : List Host.Cell
  padTags : List Nat
  padPoison : List Nat
  pats : List (List Byte)
  /-- sr.tags (R303), the jobs whose tag is not free, and the array. -/
  tags : DWord
  jobs : List Job
  arr : Option Arr
  deriving DecidableEq, Repr

/-- What a unit that has retired leaves in the storage of its core until another team comes there (R399; log entry 50): a fibre's registers,
with the rows of its window, a slot's flags, or a team's scratchpad, patterns and tags. -/
inductive Relic where
  | fibre (f : Fibre) (rows : List (Nat × Row))
  | slot (x : Slot)
  | team (t : Team)
  deriving DecidableEq, Repr

/-- The cluster shapes (R14, R346): rows and columns. -/
inductive Shape where | s11 | s12 | s21 | s22 | s14
  deriving DecidableEq, Repr

/-- The states of R355; a waiting cluster has no record yet. -/
inductive ClusterSt where | running | preempting | saved | retired
  deriving DecidableEq, Repr

/-- One placed or saved cluster (R355, R368): `gran` is its run of granules in the save area when it is pre-empted, `dir` its entry of the save directory (R394),
`idle` that all its live fibres have been parked for 16,384 core cycles (R369), `woken` that an event fired for it while it was out (R342,
R368), `order` when it was placed. -/
structure Cluster where
  id : Nat
  kern : KernelRef
  index : Nat
  die : Nat
  shape : Shape
  st : ClusterSt
  gran : Option (Nat × Nat)
  dir : Nat := 0
  idle : Bool
  woken : Bool
  order : Nat
  deriving DecidableEq, Repr

/-- A group table entry (R321); the exact accumulator is the list of contributions. -/
structure Group where
  id : Nat
  res : DWord
  n : Nat
  a : Nat
  phase : BitVec 16
  scope : Scope
  lvl : BitVec 2
  kind : Option GroupKind
  acc : List DWord
  deriving DecidableEq, Repr

/-- A launch record as read (R346), with its arrays (R318, R251, R255, R277) and the constant base in force (R363). -/
structure Launch where
  entry : VA
  handler : VA
  gx : Nat
  gy : Nat
  gz : Nat
  seed : Word
  ranges : List (Nat × Nat)
  l : Vector (BitVec 512) 16
  h : Vector (BitVec 256) 16
  pats : List (List Byte)
  priv : Seg
  cons : Seg
  glob : Seg
  rem : Seg
  fpm : BitVec 32
  tags : Nat
  patn : Nat
  arr : Bool
  m : Nat
  n : Nat
  k : Nat
  shape : Shape
  xretry : BitVec 4
  smask : BitVec 4
  scount : Nat
  counts : List Nat
  members : List (Nat × DWord)
  deriving DecidableEq, Repr

/-- A launch packet (R363). -/
structure Packet where
  hdr : DWord
  recd : DWord
  cobj : DWord
  cval : DWord
  deps : List (DWord × DWord)
  args : DWord
  deriving DecidableEq, Repr

/-- The states of R354. -/
inductive KernelSt where | loading | failed | dispatching | running | ending | retired
  deriving DecidableEq, Repr

/-- One taken kernel (R354): its class (R366), its packet, what has been read for its record so far by address and length (R349), its record once read, the cluster indices not yet placed as
(die, first, count), the cores that ran a cluster of it, the cores that have discarded their clean lines for it (R367),
its group table, and the clusters that a later cluster has been placed before (R351). -/
structure Kernel where
  ref : KernelRef
  asid : BitVec 16
  cls : Nat
  pkt : Packet
  rcd : Option Launch
  st : KernelSt
  left : List (Nat × Nat × Nat)
  cores : List Nat
  seen : List Nat
  groups : List Group
  order : Nat
  overtaken : List Nat
  reads : List ((Nat × Nat) × List Byte)
  deriving DecidableEq, Repr

/-- The states of a queue (R360). -/
inductive QueueSt where | disabled | active | error | draining
  deriving DecidableEq, Repr

/-- A queue's descriptor (R360), with what the device has observed of its head: the dependences seen satisfied (R365). -/
structure Queue where
  cva : VA
  pva : VA
  rva : VA
  asid : BitVec 16
  lsz : Nat
  cap : Nat
  st : QueueSt
  met : List Nat
  deriving DecidableEq, Repr

/-- An entry of the access-control table (R371). -/
structure Acl where
  v : Bool
  sdev : BitVec 16
  sasid : BitVec 16
  cap : BitVec 2
  qmask : DWord
  deriving DecidableEq, Repr

/-! ### Contexts -/

/-- The states of R375. -/
inductive CtxSt where | created | resident | running | preempting | saved | faulted | closed
  deriving DecidableEq, Repr

/-- What the record keeps of the first context fault (R375). -/
structure CtxFault where
  cause : BitVec 32
  mask : BitVec 32
  epc : DWord
  eaddr : DWord
  clu : Nat
  team : Nat
  fib : Nat
  die : Nat
  q : Nat
  pkt : Nat
  deriving DecidableEq, Repr

/-- A request to the memory processor for the pages of a range (R210): MAP names a leaf level and the new pages with the
frames that its tables may take, MIGRATE the new pages. -/
inductive PageOp where
  | map (level : Nat) (pas : List Nat) (tier home : BitVec 2) (attr : LeafAttr) (tables : List Nat)
  | unmap
  | protect (attr : LeafAttr)
  | migrate (tier home : BitVec 2) (pas : List Nat)
  | pin
  | unpin
  | translate
  deriving DecidableEq, Repr

/-- A request in arrival order: the start of its range, the next page and the end, whether its service has begun, and the fibres and copy
jobs, by cluster, team and name, whose faults arrived before it. -/
structure PageReq where
  op : PageOp
  first : Nat
  va : Nat
  stop : Nat
  begun : Bool
  after : List FibreRef
  jobs : List (Nat × Nat × Nat)
  deriving DecidableEq, Repr

/-- One context (R374, R375), with the memory processor's own records of it: pinned frames of 64 KiB (R203), pages under
migration by first address with the new page, tier and home (R202), downgrade shootdowns in progress by first address and size
with the old leaf and whether a migration waits for it (R205), its requests in arrival order and the ranges of the MIGRATEs that are not yet
answered (R210), whether the host has been told
of work that waits for it, and whether a CTXEVICT of it is still unanswered (R377). -/
structure Context where
  asid : BitVec 16
  ridx : Option Nat
  st : CtxSt
  sysop : Bool
  dbg : Bool
  dbh : Bool
  conf : Bool
  ptroot : Nat
  bindtab : Nat
  savebase : Nat
  savesize : Nat
  keymask : BitVec 256
  fault : Option CtxFault
  errcnt : Nat
  errpa : Nat
  pins : List Nat
  moving : List (Nat × Nat × Nat × Nat)
  shoot : List (Nat × Nat × DWord × Bool)
  work : List PageReq
  owed : List (Nat × Nat)
  told : Bool
  evict : Bool
  deriving DecidableEq, Repr

/-- What a monitor is armed for: a waiting gang (R341), or a queue (R362, R365). -/
inductive MonitorOf where
  | gang (f : FibreRef) (g : Nat)
  | queue (q : Nat)
  deriving DecidableEq, Repr

/-- An armed monitor (R341): the word it watches, the die of its slice, whether that is the home slice of the word or a slice of the waiting
fibre's die cache, and what it is armed for. -/
structure Monitor where
  at_ : Place
  die : Nat
  home : Bool
  owner : MonitorOf
  deriving DecidableEq, Repr

/-! ### Links (chapter 21) -/

/-- The states of a port (R409). -/
inductive PortSt where | down | training | up | degraded | retraining
  deriving DecidableEq, Repr

/-- A port: 0 to 31 Halyard, 32 to 39 Sirocco (R408, R409): working lanes, replays of one flit or
frame in a row, the far end's device id and incarnation, the bytes of the frames in the replay buffer (R426), the frames
sent under the key in use, the keys used, and whether the host asked for a new key (R425). -/
structure Port where
  st : PortSt
  lanes : Nat
  replays : Nat
  far : BitVec 16
  farInc : BitVec 32
  frames : List Nat
  sent : Nat
  key : Nat
  rekey : Bool
  retries : Nat
  changes : Nat
  deriving DecidableEq, Repr

/-- The states of a plane (R423). -/
inductive PlaneSt where | available | draining | unavailable
  deriving DecidableEq, Repr

/-- The way of a request: the device's own ingress (R27), a plane by one of its ports (R413), or a Sirocco port (R427). -/
inductive Path where
  | self
  | plane (p port : Nat)
  | span (port : Nat)
  deriving DecidableEq, Repr

/-- What the reply to a request does at the source: the result that waits for it and where the data go, the local words
that XGET writes, or the staged record's destination in its commit group. -/
inductive ReplyUse where
  | nothing
  | vec (out lane : Nat) (rows : List Nat) (ty : Ty)
  | scalar (out n : Nat) (ty : Ty)
  | status (out n : Nat)
  | get (out : Nat) (words : List Place)
  | job (cl team id : Nat) (key : JobKey)
  | record (cgid : BitVec 32) (dst : Nat)
  deriving DecidableEq, Repr

/-- A request without a final reply (R412 to R420): its number, the issuing fibre and lanes, the target device or multicast
group, how it travels, the attempts allowed (R415) and made, whether it waits to be sent again, whether it has been resent after a
port went Down (R419), of a request to the device itself, the answer that its ingress gave, and of a multicast the first error that a member
answered (R422). -/
structure Request where
  id : Nat
  f : FibreRef
  lanes : Mask
  dst : BitVec 16
  mc : Bool
  req : RemReq
  path : Path
  limit : Nat
  tries : Nat
  backoff : Bool
  resent : Bool
  answer : Option Reply
  broken : Option (Trap × Byte)
  use : ReplyUse
  deriving DecidableEq, Repr

/-- A descriptor of COLL (R435). -/
structure CollDesc where
  op : Nat
  w : Nat
  cmp : Bool
  np : Nat
  id : BitVec 8
  grp : Nat
  n : Nat
  src : Nat
  dst : Nat
  res : Nat
  leads : List (BitVec 16 × BitVec 16)
  deriving DecidableEq, Repr

/-- The stages of a collective of which this device is a member (R436): the combined result of the pod is awaited, the data of
the other pods' leaders, or the leader's multicast. -/
inductive CollSt where | combine | exchange | spread
  deriving DecidableEq, Repr

/-- A collective without its completion arrival (R436): its number, issuer and descriptor, the places of dst and res, which its
issue fixed and which stay pinned, its stage, what this device contributed, and what it as its pod's leader sent to the others. -/
structure Coll where
  id : Nat
  f : FibreRef
  asid : BitVec 16
  desc : CollDesc
  dst : List Place
  res : List Place
  st : CollSt
  src : List Word
  own : LeaderData
  deriving DecidableEq, Repr

/-- What the device sends that is no request of a fibre: replies of its ingress (R414), messages of commit groups (R445, R447),
contributions, exchanges and multicasts of collectives (R436), and requests to the memory processor to service a page (R414). -/
inductive Message where
  | reply (r : RemReq) (rep : Reply) (inc : BitVec 32)
  | prepare (dev : BitVec 16) (cgid : BitVec 32) (asid : BitVec 16) (obj : VA) (n : Nat) (crc : DWord)
  | prepared (dev : BitVec 16) (cgid : BitVec 32) (asid : BitVec 16) (rep : CgReply)
  | hoist (dev : BitVec 16) (cgid : BitVec 32) (asid : BitVec 16)
  | abort (dev : BitVec 16) (cgid : BitVec 32) (asid : BitVec 16)
  | aborted (dev : BitVec 16) (cgid : BitVec 32) (asid : BitVec 16)
  | applied (dev : BitVec 16) (cgid : BitVec 32) (asid : BitVec 16) (ok : Bool)
  | decision (dev : BitVec 16) (cgid : BitVec 32) (asid : BitVec 16)
  | coll (grp : Nat) (words : List Word)
  | leader (dev asid : BitVec 16) (data : LeaderData)
  | multicast (grp : Nat) (words : List Word)
  | service (asid : BitVec 16) (va : VA)
  deriving DecidableEq, Repr

/-- The states of an arrival entry (R421). -/
inductive ArrSt where | unarmed | armed | saved
  deriving DecidableEq, Repr

/-- An arrival entry of a context (R421); the owner also by its cluster's name. -/
structure Arrival where
  asid : BitVec 16
  id : BitVec 8
  st : ArrSt
  tgt : DWord
  spill : DWord
  off : Nat
  kern : KernelRef
  cl : Nat
  clu : Nat
  rank : Nat
  deriving DecidableEq, Repr

/-! ### Commit groups (chapter 22) -/

/-- The states of R445. -/
inductive CgSt where | open_ | staging | preparing | prepared | hoisted | applied | aborted | torn
  deriving DecidableEq, Repr

/-- A destination of a group as its initiator knows it (R439, R442, R443): records sent, their CRC so far, the reason
marked at the initiator, whether it is Ready, how its apply was acknowledged, how often its prepare was answered RNR, and the name
of the retry that waits for the back-off (R415). -/
structure CgDest where
  dev : BitVec 16
  asid : BitVec 16
  recs : Nat
  crc : DWord
  failed : Option (BitVec 8)
  ready : Bool
  acked : Option Bool
  tries : Nat
  retry : Option Nat
  deriving DecidableEq, Repr

/-- A group at its initiator (R438, R445); `asked` that its prepares have been sent, each at most
`limit` times (R415). -/
structure CommitGroup where
  cgid : BitVec 32
  asid : BitVec 16
  kern : KernelRef
  obj : VA
  val : DWord
  st : CgSt
  dests : List CgDest
  why : BitVec 8
  failDev : BitVec 16
  asked : Bool
  limit : Nat
  deriving DecidableEq, Repr

/-- An abort that a destination has not received yet (R450). -/
structure AbortSent where
  id : Nat
  cgid : BitVec 32
  dev : BitVec 16
  asid : BitVec 16
  deriving DecidableEq, Repr

/-- A staged record (R442), and whether its stored bytes hold an uncorrectable error (R459). -/
structure Staged where
  seq : Nat
  va : VA
  arrival : Option (BitVec 8)
  bytes : List Byte
  inc : DWord
  bad : Bool
  deriving DecidableEq, Repr

/-- A group at a destination (R447): its records, the reason it failed here, and the object and pinned frames once
prepared. -/
structure StagedGroup where
  cgid : BitVec 32
  sdev : BitVec 16
  asid : BitVec 16
  recs : List Staged
  failed : Option (BitVec 8)
  prepared : Bool
  asking : Bool
  obj : VA
  pins : List Nat
  deriving DecidableEq, Repr

/-! ### Dies (chapter 25) -/

/-- The states of a compute die (R464). -/
inductive DieSt where | held | measured | admitted | running | quiescing | quiesced | retraining
  deriving DecidableEq, Repr

/-- A compute die (R464 to R467, R471): whether requests homed on it are answered with errors, its measurement block, whether a failed
measurement keeps it out of service, a debugger halt and one that waits for pre-emptions to end (R395), the rail current limit in A and the
core rail's voltage in mV, the operating point with a change in progress and a held request, the widths of the links that have been
reduced, the links in retraining, and the held reductions, oldest first. -/
structure Die where
  st : DieSt
  errs : Bool
  digest : BitVec 384
  barred : Bool
  halted : Bool
  halting : Bool
  amps : Nat
  volt : Nat
  freq : Nat
  changing : Bool
  heldFreq : Option Nat
  widths : List (UcieLink × Nat)
  linking : List UcieLink
  heldWidths : List (UcieLink × Nat)
  deriving DecidableEq, Repr

/-- The states of a port die (R468). -/
inductive PortDieSt where | held | measured | admitted | running | failed
  deriving DecidableEq, Repr

structure PortDie where
  st : PortDieSt
  digest : BitVec 384
  barred : Bool
  deriving DecidableEq, Repr

/-- The lifetime records (R472): counts by die or port and by structure or bin; temperature and voltage in minutes; and the rails that
were lost while their dies ran, by how often (R471). -/
structure Life where
  soft : List ((Nat × SoftStruct) × (Nat × Nat))
  retries : List ((Nat × Nat) × Nat)
  droop : List ((Nat × Nat) × Nat)
  temp : List ((Nat × Nat) × Nat)
  volt : List ((Nat × Nat) × Nat)
  rails : List (Rail × Nat)
  deriving DecidableEq, Repr

/-- The SPDM session with the masthead die (R462, R463). -/
inductive Session where | none | exchanging | secured
  deriving DecidableEq, Repr

/-- A release of a completion object that waits for a replayable fault (R479): whether it adds. -/
structure Release where
  asid : BitVec 16
  obj : DWord
  val : DWord
  add : Bool
  /-- The failed launch or the marker whose object it is (R354). -/
  owner : Option KernelRef
  deriving DecidableEq, Repr

/-! ### The host's side -/

/-- How the device answers a command or request of the host (R429, R462). -/
inductive AnswerCode where | success | refused | unsupported
  deriving DecidableEq, Repr

/-- Notifications to the host (R350, R362, R378, R383, R384, R385 and the chapters of links and dies). -/
inductive Note where
  | launchFailed (k : KernelRef) (reason : Byte)
  | queueError (q producer consumer : Nat)
  | packetError (q head : Nat)
  | workFor (asid : BitVec 16)
  | breakpoint (f : FibreRef)
  | contextFault (asid : BitVec 16)
  | contextError (asid : BitVec 16) (pa : Nat)
  | answer (code : AnswerCode) (data : List DWord)
  | spdm (bytes : List Byte)
  | hostRead (bytes : List Byte)
  | homeGone (pa : Nat)
  | portTraining (port : Nat)
  | portRefused (port : Nat)
  | planeDrained (plane : Nat)
  | dieHeld (d : DieId)
  | dieFailed (d : DieId)
  | railLost (r : Rail)
  deriving DecidableEq, Repr

/-! ### The whole device -/

/-- Where an uncorrectable error strikes (R232, R477): a word of home, of a copy or of a scratchpad, the metadata code of a
compressed block (R208), which then holds a reserved code, or a staged record (R459); and an error of a structure of a die that is only
counted (R472): corrected, or uncorrected in a structure whose words the manual gives no mark (log entry 44). -/
inductive Strike where
  | home (word : Nat)
  | copy (pos : CopyAt) (word : Nat)
  | pad (cl team word : Nat)
  | code (block : Nat) (c : BitVec 4)
  | record (cgid : BitVec 32) (seq : Nat)
  | corrected (who : Nat) (x : SoftStruct)
  | uncorrected (who : Nat) (x : SoftStruct)
  deriving DecidableEq, Repr

/-- Who moves next: a fibre's gang issues, an event comes about, or a unit acts where the table has no row: an
uncorrectable error, a tier-2 channel that does not train (R470), a die's power manager that sets its core rail's voltage in mV (R471),
the memory processor that finds no allocation for frames of releases (R199, R479), or a destination that has received an abort (R450). -/
inductive Turn where
  | issue (f : FibreRef)
  | event (e : Instr)
  | strike (x : Strike)
  | channelOut (ch : Fin 48)
  | coreVolt (d : Fin 4) (mv : Nat)
  | noAlloc (asid : BitVec 16) (frames : List Nat)
  | abortHeard (id : Nat)
  deriving DecidableEq, Repr

/-- The gang that issues in this step, and its PC. -/
structure Issue where
  f : FibreRef
  gang : Nat
  pc : VA
  deriving DecidableEq, Repr

/-- The device. -/
structure State where
  /-- Home memory, the poisoned words of home (R477) by address over 4, the tagged words (R331) by address over 8. -/
  mem : Memory
  /-- The keys under which units of 16 bytes of home were last written, where it is not the zero key (R194), and the metadata codes of
  the 256-byte blocks of compressed pages that have been written (R208). -/
  locks : List (Nat × BitVec 512)
  codes : List (Nat × BitVec 4)
  poison : List Nat
  tags : List Nat
  copies : List Copy
  coreTlb : List (Nat × TlbEntry)
  dieTlb : List (Nat × TlbEntry)
  walks : List (Nat × WalkEntry)
  binds : List (Nat × BindEntry)
  fibres : List Fibre
  slots : List Slot
  teams : List Team
  clusters : List Cluster
  relics : List Relic
  kernels : List Kernel
  queues : Vector Queue 64
  acl : List (Nat × Acl)
  ctxs : List Context
  monitors : List Monitor
  /-- Counters of R209 by die × 16 + slice. -/
  cmp : List (Nat × CmpCount)
  /-- Key ids with an installed key (R194, R463). -/
  keys : List (Byte × BitVec 512)
  /-- sr.cyc of every core (R33), and sr.dev (R20). -/
  cyc : Vector DWord 160
  dev : BitVec 16
  /-- The round-robin pointers of the quadrants (R119), by core × 4 + quadrant. -/
  robin : List (Nat × Nat)
  /-- The next unused cluster name and placement number. -/
  nextId : Nat
  /-- Links: ports, planes, routes that Yardarms report by plane and device, the span table, whether DEVID was accepted and a
  port has left Down since (R408 to R411, R423, R427). -/
  ports : Vector Port 40
  planes : Vector PlaneSt 16
  routes : List (Nat × BitVec 16)
  span : Vector (BitVec 8) 128
  devGiven : Bool
  leftDown : Bool
  /-- The incarnation number (R420), the incarnations known of others, the next sequence numbers by target or multicast
  group, the open requests, the reply cache by multicast group, source and number, and the arrival entries (R418, R421). -/
  inc : BitVec 32
  farInc : List (BitVec 16 × BitVec 32)
  seqs : List ((Bool × BitVec 16) × BitVec 16)
  requests : List Request
  replies : List (((Option (BitVec 16) × BitVec 16) × BitVec 16) × Reply)
  arrivals : List Arrival
  /-- Collectives in progress (R436), what the device has sent otherwise, newest first, and what waits for room in a replay buffer or for a
  Sirocco port (R426), oldest first. -/
  colls : List Coll
  sent : List Message
  outbox : List Message
  /-- Commit groups: the initiator's table, the aborts on their way, the groups staged here, the bytes of the staging region (R438, R441,
  R447), and the releases of objects that still wait for a fault (R479). -/
  cgs : List CommitGroup
  aborts : List AbortSent
  staged : List StagedGroup
  staging : Nat
  releases : List Release
  /-- Dies, rails that report power-good, warm-reset requests in arrival order, the tier-2 data rate in MT/s and the GiB of each channel in service (R470), the lifetime records as counted and as
  committed, and the SPDM session (R462, R464, R468, R471, R472). -/
  dies : Vector Die 4
  pdies : Vector PortDie 2
  rails : List Rail
  warm : List (Fin 4)
  t2rate : Nat
  t2chan : Vector Nat 48
  life : Life
  kept : Life
  session : Session
  /-- The parts of fibre blocks that the device encodes for itself, by the code that the block carries (R391, log entry 10). -/
  snaps : List (BitVec 480 × Snap)

  /-- What the host has been told, newest first, and what it was answered. -/
  notes : List Note
  /-- The model's own: who moves next, the gang that issues now, and the steps taken. -/
  agenda : List Turn
  cur : Option Issue
  ticks : Nat
  deriving DecidableEq, Repr

/-- Why the machine stops. -/
inductive Fault where
  /-- A page-table walk or a table of the memory processor names a physical address outside the ranges of R191, which
  the manual gives no memory. Raised by translation; safe. -/
  | physicalHole (pa : Nat)
  deriving DecidableEq, Repr

/-- Why an instruction has no meaning here. -/
inductive Refusal where
  /-- Raised by an arm of the dispatcher whose meaning is not written; safe. -/
  | notModelled (mnemonic : String)
  /-- Raised by `exec` of an instruction word in a state in which no gang issues; a step never does this; safe. -/
  | noIssuer
  deriving DecidableEq, Repr

/-- A disabled queue's descriptor (R360). -/
def Queue.reset : Queue := { cva := 0, pva := 0, rva := 0, asid := 0, lsz := 0, cap := 0, st := .disabled, met := [] }

/-- A port that is Down. -/
def Port.reset : Port :=
  { st := .down, lanes := 0, replays := 0, far := 0, farInc := 0, frames := [], sent := 0, key := 0,
    rekey := false, retries := 0, changes := 0 }

/-- A compute die in Held after a power-on reset (R464, R471). -/
def Die.reset : Die :=
  { st := .held, errs := false, digest := 0, barred := false, halted := false, halting := false, amps := 900, volt := 650, freq := 0, changing := false,
    heldFreq := none, widths := [], linking := [], heldWidths := [] }

def PortDie.reset : PortDie := { st := .held, digest := 0, barred := false }

/-- No counts. -/
def Life.empty : Life := { soft := [], retries := [], droop := [], temp := [], volt := [], rails := [] }

/-- The device after a power-on reset. -/
def State.reset : State where
  mem := []
  locks := []
  codes := []
  poison := []
  tags := []
  copies := []
  coreTlb := []
  dieTlb := []
  walks := []
  binds := []
  fibres := []
  slots := []
  teams := []
  clusters := []
  relics := []
  kernels := []
  queues := Vector.replicate 64 Queue.reset
  acl := []
  ctxs := []
  monitors := []
  cmp := []
  keys := []
  cyc := Vector.replicate 160 0
  dev := 0
  robin := []
  nextId := 0
  ports := Vector.replicate 40 Port.reset
  planes := Vector.replicate 16 .available
  routes := []
  span := Vector.replicate 128 0
  devGiven := false
  leftDown := false
  inc := 0
  farInc := []
  seqs := []
  requests := []
  replies := []
  arrivals := []
  colls := []
  sent := []
  outbox := []
  cgs := []
  aborts := []
  staged := []
  staging := 2 ^ 26
  releases := []
  dies := Vector.replicate 4 Die.reset
  pdies := Vector.replicate 2 PortDie.reset
  rails := []
  warm := []
  t2rate := 14375
  t2chan := Vector.replicate 48 16
  life := Life.empty
  kept := Life.empty
  session := .none
  snaps := []
  notes := []
  agenda := []
  cur := none
  ticks := 0

end Sys2Proof.Machine
end

