-- ==== Sys2Proof/Machine/Numbers.lean ====
section
/-! DEFINITION. Exact values, the floating-point formats, rounding, saturation and exact sums (03_numbers.md R76 to R105),
and the LE8 lattice (R86 to R91). -/

namespace Sys2Proof.Machine

open Sys2Proof

/-! ### Exact values -/

/-- An exact value: a NaN, an infinity, or a sign with a magnitude (R77). -/
inductive XVal where
  | nan
  | inf (neg : Bool)
  | fin (neg : Bool) (mag : Rat)
  deriving DecidableEq, Repr

def XVal.zero : XVal := .fin false 0

/-- 2 to an integer power. -/
def pow2 (e : Int) : Rat := if 0 ≤ e then ((2 ^ e.toNat : Nat) : Rat) else mkRat 1 (2 ^ (-e).toNat)

/-- ⌊q⌋ of a magnitude. -/
def floorNat (q : Rat) : Nat := q.num.toNat / q.den

/-- The exponent E with 2^E ≤ q < 2^(E + 1), for q > 0. -/
def ilog2 (q : Rat) : Int :=
  let k : Int := (Nat.log2 q.num.toNat : Int) - (Nat.log2 q.den : Int)
  if q < pow2 k then k - 1 else k

def XVal.ofRat (q : Rat) : XVal := if q < 0 then .fin true (-q) else .fin false q
def XVal.ofInt (i : Int) : XVal := XVal.ofRat (i : Rat)

/-- The number that a finite value is; 0 for others. -/
def XVal.toRat : XVal → Rat
  | .fin true m => -m
  | .fin false m => m
  | _ => 0

def XVal.isNan : XVal → Bool | .nan => true | _ => false
def XVal.isZero : XVal → Bool | .fin _ m => m == 0 | _ => false
def XVal.negative : XVal → Bool | .nan => false | .inf n => n | .fin n _ => n
def XVal.neg : XVal → XVal
  | .nan => .nan
  | .inf n => .inf (!n)
  | .fin n m => .fin (!n) m

/-! ### Flags (R100) and the state of a lane's arithmetic -/

def flagNx : BitVec 32 := 1
def flagUf : BitVec 32 := 2
def flagOf : BitVec 32 := 4
def flagDz : BitVec 32 := 8
def flagIv : BitVec 32 := 16
def flagSat : BitVec 32 := 32

/-- The random state of a lane and the flags that its operations raise (R95, R100, R89). -/
structure NumSt where
  rng : Word
  fps : BitVec 32
  le8s : BitVec 32
  deriving DecidableEq, Repr

/-- A computation of one lane. -/
abbrev Num := StateM NumSt

def flag (f : BitVec 32) : Num Unit := modify fun st => { st with fps := st.fps ||| f }

/-- NextRng (R95). -/
def rngStep (s : Word) : Word :=
  let s := if s == 0 then 0x9E3779B9 else s
  let s := s ^^^ (s <<< 13)
  let s := s ^^^ (s >>> 17)
  s ^^^ (s <<< 5)

def nextRng : Num Nat := do
  let st ← get
  let s := rngStep st.rng
  set { st with rng := s }
  pure (s.toNat / 256)

/-! ### Modes (R97) -/

/-- The mode that sr.fpm.rm names; a reserved code, which only LOADCTX and DWRITE can bring, acts as RNE by the model's choice (log entry
36). -/
def fpmRm (fpm : BitVec 32) : RMode :=
  match RMode.ofCode (fpm.extractLsb' 0 3) with
  | some .dyn | none => .rne
  | some rm => rm

/-- The mode in force: the instruction's, or sr.fpm.rm at issue (R92). -/
def resolveRm (fpm : BitVec 32) (rm : RMode) : RMode := if rm == .dyn then fpmRm fpm else rm

/-- The class of a floating type: its place among the flush bits (R98). -/
def flushClass : Ty → Nat
  | .f32 => 0
  | .f16 | .bf16 => 1
  | .e4m3 | .e5m2 => 2
  | _ => 3

def flushIn (fpm : BitVec 32) (t : Ty) : Bool := fpm.getLsbD (4 + flushClass t)
def flushOut (fpm : BitVec 32) (t : Ty) : Bool := fpm.getLsbD (8 + flushClass t)

/-! ### Formats (R78) -/

structure FpFmt where
  w : Nat
  m : Nat
  bias : Nat
  maxCode : Nat
  hasInf : Bool
  qnan : Nat
  deriving DecidableEq, Repr

/-- The formats of R78; a type that is no floating format has FP32's figures. -/
def fpFmt : Ty → FpFmt
  | .f16 => ⟨16, 10, 15, 0x7BFF, true, 0x7E00⟩
  | .bf16 => ⟨16, 7, 127, 0x7F7F, true, 0x7FC0⟩
  | .e4m3 => ⟨8, 3, 7, 0x7E, false, 0x7F⟩
  | .e5m2 => ⟨8, 2, 15, 0x7B, true, 0x7E⟩
  | .e2m1 => ⟨4, 1, 1, 7, false, 0⟩
  | _ => ⟨32, 23, 127, 0x7F7FFFFF, true, 0x7FC00000⟩

/-- The least normal magnitude. -/
def FpFmt.minNormal (f : FpFmt) : Rat := pow2 (1 - (f.bias : Int))

/-- The magnitude of a code without its sign bit (R77). -/
def FpFmt.magnitude (f : FpFmt) (c : Nat) : Rat :=
  let e := c / 2 ^ f.m
  let m := c % 2 ^ f.m
  if e = 0 then (m : Rat) * pow2 (1 - (f.bias : Int) - (f.m : Int))
  else ((2 ^ f.m + m : Nat) : Rat) * pow2 ((e : Int) - (f.bias : Int) - (f.m : Int))

/-- The value of a code of any format but E2M1's 0b1000, without flushing (R77, R78). -/
def FpFmt.value (f : FpFmt) (c : Nat) : XVal :=
  let neg := c / 2 ^ (f.w - 1) % 2 == 1
  let mag := c % 2 ^ (f.w - 1)
  if mag ≤ f.maxCode then .fin neg (f.magnitude mag)
  else if f.hasInf && mag == f.maxCode + 1 then .inf neg
  else .nan

/-- A subnormal reads as zero of its sign when its class is flushed (R98). -/
def flushed (on : Bool) (f : FpFmt) : XVal → XVal
  | .fin n m => if on && m < f.minNormal then .fin n 0 else .fin n m
  | x => x

/-- Decode (R105): the exact value of a code under the input flush; `x4` is FP4X (R80). -/
def decodeFp (fpm : BitVec 32) (x4 : BitVec 16) (t : Ty) (code : Nat) : XVal :=
  if t == .e2m1 && code % 16 == 8 then
    if x4 &&& 0x7FFF == 0 then .fin true 0
    else flushed (flushIn fpm .e2m1) (fpFmt .bf16) ((fpFmt .bf16).value x4.toNat)
  else flushed (flushIn fpm t) (fpFmt t) ((fpFmt t).value (code % 2 ^ (fpFmt t).w))

/-! ### Rounding (R92 to R95) -/

/-- Whether the neighbour away from zero is chosen: `lo` is the lower neighbour's last bit, `fr` the fraction. -/
def awayFromZero (rm : RMode) (neg odd : Bool) (fr : Rat) (draw : Nat) : Bool :=
  match rm with
  | .rne => decide (mkRat 1 2 < fr) || (fr == mkRat 1 2 && odd)
  | .rz => false
  | .rdn => neg
  | .rup => !neg
  | .rna => decide (mkRat 1 2 ≤ fr)
  | .rst => decide (draw < floorNat (fr * ((2 ^ 24 : Nat) : Rat)))
  | .dyn => false

/-- The code of an overflowed result without its sign, and its flag (R93, step 4). -/
def overflowed (f : FpFmt) (rm : RMode) (neg : Bool) : Nat × BitVec 32 :=
  if f.hasInf then
    let up := match rm with
      | .rne | .rna => true
      | .rdn => neg
      | .rup => !neg
      | _ => false
    (if up then f.maxCode + 1 else f.maxCode, flagOf)
  else (f.maxCode, flagSat)

/-- The code of magnitude with its sign; E2M1 writes −0 only when FP4X is a zero (R81). -/
def signed (t : Ty) (x4 : BitVec 16) (neg : Bool) (mag : Nat) : BitVec 32 :=
  let s := if neg && !(t == .e2m1 && mag == 0 && x4 &&& 0x7FFF != 0) then 2 ^ ((fpFmt t).w - 1) else 0
  BitVec.ofNat 32 (s + mag)

/-- Round (R93) of a value to a floating type with the modes sampled in `fpm`; one step of the random state under RST
(R95). -/
def roundFp (fpm : BitVec 32) (x4 : BitVec 16) (t : Ty) (rm : RMode) (x : XVal) : Num (BitVec 32) := do
  let f := fpFmt t
  let rm := resolveRm fpm rm
  let draw ← if rm == .rst then nextRng else pure 0
  match x with
  | .nan =>
    if t == .e2m1 then flag flagIv
    pure (BitVec.ofNat 32 f.qnan)
  | .inf n =>
    if f.hasInf then pure (signed t x4 n (f.maxCode + 1))
    else
      flag flagSat
      pure (signed t x4 n f.maxCode)
  | .fin n q =>
    if q = 0 then pure (signed t x4 n 0)
    else
      let emin : Int := 1 - (f.bias : Int)
      let e := max (ilog2 q) emin
      let g := q / pow2 (e - (f.m : Int))
      let lo := floorNat g
      let fr := g - (lo : Rat)
      let k := if fr ≠ 0 && awayFromZero rm n (lo % 2 == 1) fr draw then lo + 1 else lo
      let code := (e - emin).toNat * 2 ^ f.m + k
      if fr ≠ 0 || code > f.maxCode then flag flagNx
      if fr ≠ 0 && q < f.minNormal then flag flagUf
      if code > f.maxCode then
        let (c, fl) := overflowed f rm n
        flag fl
        pure (signed t x4 n c)
      else if flushOut fpm t && code ≠ 0 && code < 2 ^ f.m then
        flag (flagUf ||| flagNx)
        pure (signed t x4 n 0)
      else pure (signed t x4 n code)

/-- RoundInt (R94): the integer that a finite value rounds to. -/
def roundInt (rm : RMode) (neg : Bool) (q : Rat) : Num Int := do
  let draw ← if rm == .rst then nextRng else pure 0
  let lo := floorNat q
  let fr := q - (lo : Rat)
  let k := if fr ≠ 0 && awayFromZero rm neg (lo % 2 == 1) fr draw then lo + 1 else lo
  pure (if neg then -(k : Int) else (k : Int))

/-- The range of an integer of `w` bits. -/
def intMin (sgn : Bool) (w : Nat) : Int := if sgn then -(2 ^ (w - 1) : Int) else 0
def intMax (sgn : Bool) (w : Nat) : Int := if sgn then 2 ^ (w - 1) - 1 else 2 ^ w - 1

/-- Sat (R94) to an integer type, with the flag when it clamps. -/
def satInt (sgn : Bool) (w : Nat) (i : Int) : Num Int :=
  if i < intMin sgn w then do flag flagSat; pure (intMin sgn w)
  else if intMax sgn w < i then do flag flagSat; pure (intMax sgn w)
  else pure i

/-! ### Exact arithmetic (R102) -/

/-- A product; 0 × ∞ is invalid. -/
def xmul (a b : XVal) : Num XVal :=
  match a, b with
  | .nan, _ | _, .nan => pure .nan
  | .inf n, .inf m => pure (.inf (n != m))
  | .inf n, .fin m q | .fin m q, .inf n =>
    if q = 0 then do flag flagIv; pure .nan else pure (.inf (n != m))
  | .fin n p, .fin m q => pure (.fin (n != m) (p * q))

/-- A sum of two; ∞ − ∞ is invalid. An exact zero is +0 unless both are −0 (R157, R163). -/
def xadd (a b : XVal) : Num XVal :=
  match a, b with
  | .nan, _ | _, .nan => pure .nan
  | .inf n, .inf m => if n == m then pure (.inf n) else do flag flagIv; pure .nan
  | .inf n, .fin .. | .fin .., .inf n => pure (.inf n)
  | .fin n p, .fin m q =>
    let r := (XVal.fin n p).toRat + (XVal.fin m q).toRat
    pure (if r = 0 then .fin (n && m) 0 else XVal.ofRat r)

/-- ExactSum (R102). -/
def exactSum (ts : List XVal) : Num XVal :=
  if ts.any XVal.isNan then pure .nan
  else
    let pos := ts.any fun x => x == .inf false
    let neg := ts.any fun x => x == .inf true
    if pos && neg then do flag flagIv; pure .nan
    else if pos then pure (.inf false)
    else if neg then pure (.inf true)
    else pure (XVal.ofRat (ts.foldl (fun a x => a + x.toRat) 0))

/-- The scale of an X8 code (R82); 0xFF makes its elements NaN. -/
def x8Scale (e : Byte) : XVal := if e == 0xFF then .nan else .fin false (pow2 ((e.toNat : Int) - 127))

/-- A computation's value with fresh flags and no randomness: for units that set no flag. -/
def quietly {α : Type} (n : Num α) : α := (n.run ⟨0, 0, 0⟩).1

/-! ### LE8 (R86 to R90): coordinates in halves -/

/-- DecodeLE8: the eight coordinates, each twice its value. -/
def decodeLE8 (c : BitVec 16) : List Int :=
  let h := c.getLsbD 15
  let t := c.getLsbD 14
  let pick : List Int := if h then [1, -1, 3, -3] else [0, 2, -2, 4]
  let xs := (upTo 7).map fun i => pick.getD (c.toNat / 4 ^ i % 4) 0
  let sum := xs.foldl (· + ·) 0
  let last : Int :=
    if h then
      if (-sum) % 4 = 1 then (if t then -3 else 1) else (if t then 3 else -1)
    else
      if sum % 4 = 0 then (if t then -4 else 0) else (if t then -2 else 2)
  xs ++ [last]

/-- The code whose fields hold seven coordinates, with H and T. -/
def codeOf (h t : Bool) (xs : List Int) : BitVec 16 :=
  let pick : List Int := if h then [1, -1, 3, -3] else [0, 2, -2, 4]
  let fields := ((upTo 7).map fun i => pick.idxOf (xs.getD i 0) * 4 ^ i).foldl (· + ·) 0
  BitVec.ofNat 16 ((if h then 32768 else 0) + (if t then 16384 else 0) + fields)

/-- EncodeLE8: the code of a point, if it is representable. -/
def encodeLE8 (p : List Int) : Option (BitVec 16) :=
  let h := p.getD 0 0 % 2 ≠ 0
  [codeOf h false p, codeOf h true p].find? fun c => decodeLE8 c == p

/-- An integer nearest to a rational, ties to even. -/
def nearestInt (q : Rat) : Int :=
  let fl := q.num / (q.den : Int)
  let fr := q - (fl : Rat)
  if mkRat 1 2 < fr || (fr == mkRat 1 2 && fl % 2 ≠ 0) then fl + 1 else fl

def ratAbs (q : Rat) : Rat := if q < 0 then -q else q

/-- The index of the largest entry, the lowest index on equal values. -/
def argMax (l : List Rat) : Nat :=
  let top := l.foldl (fun a x => if a < x then x else a) 0
  l.idxOf top

/-- NearestD8 (R88). -/
def nearestD8 (y : List Rat) : List Int :=
  let f := y.map nearestInt
  if f.foldl (· + ·) 0 % 2 = 1 then
    let k := argMax (List.zipWith (fun (a : Rat) (b : Int) => ratAbs (a - (b : Rat))) y f)
    let fk := f.getD k 0
    f.set k (if (fk : Rat) ≤ y.getD k 0 then fk + 1 else fk - 1)
  else f

def sqDist (x y : List Rat) : Rat := (List.zipWith (fun a b => (a - b) * (a - b)) x y).foldl (· + ·) 0

/-- NearestE8 (R88), in halves. -/
def nearestE8 (x : List Rat) : List Int :=
  let a := (nearestD8 x).map fun i => 2 * i
  let b := (nearestD8 (x.map fun q => q - mkRat 1 2)).map fun i => 2 * i + 1
  let val := fun (l : List Int) => l.map fun i => mkRat i 2
  if sqDist x (val b) < sqDist x (val a) then b else a

/-- SatLE8 (R89). -/
def satLE8 (x : List Rat) (p : List Int) : BitVec 16 :=
  let h := p.getD 0 0 % 2 ≠ 0
  let (lo, hi) : Int × Int := if h then (-3, 3) else (-2, 4)
  let q := (p.take 7).map fun i => max lo (min hi i)
  let e := fun t => (decodeLE8 (codeOf h t q)).getD 7 0
  let d := fun t => ratAbs (x.getD 7 0 - mkRat (e t) 2)
  codeOf h (decide (¬ d false ≤ d true)) q

/-- QuantLE8 (R89) of eight targets; `none` is the ShellOverflow trap of lov = 10, and by the model's choice of a loaded lov = 11, too
(log entry 36). -/
def quantLE8 (fpm : BitVec 32) (xs : List XVal) : Num (Option (BitVec 16)) := do
  if xs.any XVal.isNan then modify fun st => { st with le8s := st.le8s ||| 2 }
  let x := xs.map fun v => match v with
    | .nan => (0 : Rat)
    | .inf n => if n then -pow2 128 else pow2 128
    | v => v.toRat
  let p := nearestE8 x
  match encodeLE8 p with
  | some c => pure (some c)
  | none =>
    match (fpm.extractLsb' 12 2).toNat with
    | 0 => pure (some (satLE8 x p))
    | 1 =>
      modify fun st => { st with le8s := st.le8s ||| 1 }
      pure (some (satLE8 x p))
    | _ => pure none

end Sys2Proof.Machine
end

