-- ==== Sys2Proof/Machine/Elementary.lean ====
section
/-! DEFINITION. Roots and transcendental functions of exact values (06_floating_point_and_lattice.md R169, R170). A value
that is not rational is computed in fixed point of 1,024 fractional bits and given as a number strictly between two
multiples of 2^-1024, close enough to tell its two FP32 neighbours. -/

namespace Sys2Proof.Machine

open Sys2Proof

/-- The fractional bits of the fixed-point numbers. -/
def fxBits : Nat := 1024
def fxOne : Int := 2 ^ fxBits

def fxMul (a b : Int) : Int := a * b / fxOne

/-- A fixed-point number as an exact value that no floating format holds. -/
def fxRat (x : Int) : Rat := mkRat (2 * x + 1) (2 ^ (fxBits + 1))

/-- A rational in fixed point, rounded down. -/
def fxOf (q : Rat) : Int := q.num * fxOne / (q.den : Int)

/-- x + x³/3 + x⁵/5 + …, or with alternating signs, over `n` terms from the one with divisor `k`. -/
def oddSeries (x2 : Int) : Nat → Int → Int → Int → Int
  | 0, _, _, acc => acc
  | n + 1, t, k, acc => oddSeries x2 n (fxMul t x2) (k + 2) (acc + t / k)

def fxAtanh (z : Int) : Int := oddSeries (fxMul z z) 340 z 1 0
def fxAtan (z : Int) (n : Nat) : Int := oddSeries (-(fxMul z z)) n z 1 0

/-- ln 2 = 2 atanh(1/3). -/
def fxLn2 : Int := 2 * fxAtanh (fxOne / 3)

/-- π = 16 atan(1/5) − 4 atan(1/239). -/
def fxPi : Int := 16 * fxAtan (fxOne / 5) 230 - 4 * fxAtan (fxOne / 239) 80

/-- Σ of terms t, t·x/k, t·x²/(k·(k + d)) … : the exponential for d = 1. -/
def expSeries (x : Int) : Nat → Int → Int → Int → Int
  | 0, _, _, acc => acc
  | n + 1, t, k, acc => expSeries x n (fxMul t x / k) (k + 1) (acc + t)

/-- e^x for |x| ≤ 1. -/
def fxExp (x : Int) : Int := expSeries x 180 fxOne 1 0

/-- Σ of the sine's terms. -/
def sinSeries (x2 : Int) : Nat → Int → Int → Int → Int
  | 0, _, _, acc => acc
  | n + 1, t, k, acc => sinSeries x2 n (-(fxMul t x2) / ((k + 1) * (k + 2))) (k + 2) (acc + t)

/-- sin x for |x| ≤ π / 2. -/
def fxSin (x : Int) : Int := sinSeries (fxMul x x) 110 x 1 0

/-- The integer square root by Newton's steps. -/
def isqrtLoop : Nat → Nat → Nat → Nat
  | 0, _, x => x
  | f + 1, n, x =>
    let y := (x + n / x) / 2
    if y < x then isqrtLoop f n y else x

def isqrt (n : Nat) : Nat := if n = 0 then 0 else isqrtLoop 256 n (2 ^ (Nat.log2 n / 2 + 1))

/-- √q for q > 0: exact when it is rational, otherwise a number between two multiples of 2^-256. -/
def sqrtRat (q : Rat) : Rat :=
  let n := isqrt q.num.toNat
  let d := isqrt q.den
  if n * n = q.num.toNat ∧ d * d = q.den then mkRat n d
  else mkRat (2 * (isqrt (floorNat (q * (2 ^ 512 : Nat)))) + 1) (2 ^ 257)

/-- 2^a for a finite a that is not an integer of moderate size, with the far ends of the range drawn in. -/
def exp2Rat (a : Rat) : Rat :=
  if 200 < a then pow2 200
  else if a < -400 then pow2 (-400)
  else
    let n := a.num / (a.den : Int)
    let f := a - (n : Rat)
    if f = 0 then pow2 n else pow2 n * fxRat (fxExp (fxMul (fxOf f) fxLn2))

/-- log2 a for a > 0. -/
def log2Rat (a : Rat) : Rat :=
  let e := ilog2 a
  let m := a / pow2 e
  if m = 1 then (e : Rat)
  else
    let ln := 2 * fxAtanh (fxOf ((m - 1) / (m + 1)))
    (e : Rat) + fxRat (ln * fxOne / fxLn2)

/-- sin of a part of a turn in −¼ to ¼: exact at 0 and ±¼. -/
def sinTurn (f : Rat) : Rat :=
  if f = 0 then 0
  else if f = mkRat 1 4 then 1
  else if f = mkRat (-1) 4 then -1
  else if f < 0 then -(fxRat (fxSin (fxMul (fxOf (-f)) (2 * fxPi)))) else fxRat (fxSin (fxMul (fxOf f) (2 * fxPi)))

/-- tanh of a magnitude; near 1 for large ones. -/
def tanhMag (a : Rat) : Rat :=
  if 256 < a then 1 - pow2 (-300)
  else
    let y := fxOf (2 * a)
    let n := y / fxLn2
    let t := fxExp (-(y - n * fxLn2)) / 2 ^ n.toNat
    fxRat ((fxOne - t) * fxOne / (fxOne + t))

/-- A faithful result (R169): the exact value when it is representable, otherwise one of its neighbours, chosen by a free
value of the function and its operand; overflow as under RNE. -/
def faithful (fpm : BitVec 32) (op : Nat) (a : Word) (x : XVal) : Num (BitVec 32) :=
  let up : RMode := if x.negative then .rdn else .rup
  let far := match x with | .fin _ m => decide (pow2 128 ≤ m) | _ => false
  roundFp fpm 0 .f32 (if far || Config.faithfulUp op a then up else .rz) x

/-- The default NaN with sr.fps.iv. -/
def invalid : Num XVal := do flag flagIv; pure .nan

/-- The exact results of R170, by opcode, for an operand after input flush. -/
def rsqX (x : XVal) : Num XVal :=
  match x with
  | .nan => pure .nan
  | .inf true => invalid
  | .inf false => pure XVal.zero
  | .fin n m =>
    if m = 0 then do flag flagDz; pure (.inf n)
    else if n then invalid
    else pure (.fin false (sqrtRat (1 / m)))

def sqrtX (x : XVal) : Num XVal :=
  match x with
  | .nan => pure .nan
  | .inf true => invalid
  | .inf false => pure (.inf false)
  | .fin n m => if m = 0 then pure (.fin n 0) else if n then invalid else pure (.fin false (sqrtRat m))

def rcpX (x : XVal) : Num XVal :=
  match x with
  | .nan => pure .nan
  | .inf n => pure (.fin n 0)
  | .fin n m => if m = 0 then do flag flagDz; pure (.inf n) else pure (.fin n (1 / m))

def exp2X (x : XVal) : XVal :=
  match x with
  | .nan => .nan
  | .inf true => XVal.zero
  | .inf false => .inf false
  | x => .fin false (exp2Rat x.toRat)

def log2X (x : XVal) : Num XVal :=
  match x with
  | .nan => pure .nan
  | .inf true => invalid
  | .inf false => pure (.inf false)
  | .fin n m => if m = 0 then do flag flagDz; pure (.inf true) else if n then invalid else pure (XVal.ofRat (log2Rat m))

/-- The fraction of a turn in −½ to ½ (R169). -/
def turnOf (q : Rat) : Rat := q - ((quietly (roundInt .rne (decide (q < 0)) (if q < 0 then -q else q)) : Int) : Rat)

def sinX (x : XVal) : Num XVal :=
  match x with
  | .nan => pure .nan
  | .inf _ => invalid
  | .fin n m =>
    if m = 0 then pure (.fin n 0)
    else
      let f := turnOf x.toRat
      let f := if mkRat 1 4 < f then mkRat 1 2 - f else if f < mkRat (-1) 4 then mkRat (-1) 2 - f else f
      pure (XVal.ofRat (sinTurn f))

def cosX (x : XVal) : Num XVal :=
  match x with
  | .nan => pure .nan
  | .inf _ => invalid
  | x =>
    let f := turnOf x.toRat
    pure (XVal.ofRat (sinTurn (mkRat 1 4 - (if f < 0 then -f else f))))

def tanhX (x : XVal) : XVal :=
  match x with
  | .nan => .nan
  | .inf n => .fin n 1
  | .fin n m => if m = 0 then .fin n 0 else .fin n (tanhMag m)

end Sys2Proof.Machine
end

