-- ==== Sys2Proof/Machine/Ops.lean ====
section
/-! DEFINITION. The named operations over the state's tables, over one fibre's registers, gangs and trap registers, taking
a trap and entering the handler, and the wrapper in which every instruction word is issued. -/

namespace Sys2Proof.Machine

open Sys2Proof

/-! ### Lists keyed by name -/

/-- The value at a key. -/
def aget {κ α : Type} [BEq κ] (l : List (κ × α)) (k : κ) : Option α := (l.find? fun x => x.1 == k).map (·.2)

/-- Without a key. -/
def adel {κ α : Type} [BEq κ] (l : List (κ × α)) (k : κ) : List (κ × α) := l.filter fun x => !(x.1 == k)

/-- With a value at a key, in the place it had. -/
def aset {κ α : Type} [BEq κ] (l : List (κ × α)) (k : κ) (v : α) : List (κ × α) :=
  if l.any fun x => x.1 == k then l.map fun x => if x.1 == k then (k, v) else x else l ++ [(k, v)]

/-- A list with an element added once. -/
def addOnce {α : Type} [BEq α] (l : List α) (x : α) : List α := if l.contains x then l else l ++ [x]

/-! ### Tables of the state -/

def State.fibre? (s : State) (r : FibreRef) : Option Fibre := s.fibres.find? fun f => f.ref == r
def State.setFibre (s : State) (f : Fibre) : State :=
  { s with fibres := s.fibres.map fun x => if x.ref == f.ref then f else x }
def State.modFibre (s : State) (r : FibreRef) (u : Fibre → Fibre) : State :=
  { s with fibres := s.fibres.map fun x => if x.ref == r then u x else x }

def Slot.is (x : Slot) (cl team slot : Nat) : Bool := x.cl == cl && x.team == team && x.slot == slot
def State.slot? (s : State) (f : Fibre) : Option Slot := s.slots.find? fun x => x.is f.ref.cl f.ref.team f.slot
def State.modSlot (s : State) (f : Fibre) (u : Slot → Slot) : State :=
  { s with slots := s.slots.map fun x => if x.is f.ref.cl f.ref.team f.slot then u x else x }

def State.team? (s : State) (cl rank : Nat) : Option Team := s.teams.find? fun t => t.cl == cl && t.rank == rank
def State.modTeam (s : State) (cl rank : Nat) (u : Team → Team) : State :=
  { s with teams := s.teams.map fun t => if t.cl == cl && t.rank == rank then u t else t }

def State.cluster? (s : State) (cl : Nat) : Option Cluster := s.clusters.find? fun c => c.id == cl
def State.modCluster (s : State) (cl : Nat) (u : Cluster → Cluster) : State :=
  { s with clusters := s.clusters.map fun c => if c.id == cl then u c else c }

/-- A cluster on cores of its die (R355). -/
def Cluster.placed (c : Cluster) : Bool := c.st == .running || c.st == .preempting

/-- Instructions issue in a cluster: it is placed, and its die's cores run (R395, R464). -/
def State.issues (s : State) (cl : Nat) : Bool :=
  match s.cluster? cl with
  | some c =>
    let d := s.dies.getD c.die Die.reset
    c.st == .running && !d.halted && (d.st == .running || d.st == .quiescing)
  | none => false

def State.kernel? (s : State) (k : KernelRef) : Option Kernel := s.kernels.find? fun x => x.ref == k
def State.modKernel (s : State) (k : KernelRef) (u : Kernel → Kernel) : State :=
  { s with kernels := s.kernels.map fun x => if x.ref == k then u x else x }

def State.ctx? (s : State) (a : BitVec 16) : Option Context := s.ctxs.find? fun c => c.asid == a
def State.modCtx (s : State) (a : BitVec 16) (u : Context → Context) : State :=
  { s with ctxs := s.ctxs.map fun c => if c.asid == a then u c else c }

def State.note (s : State) (n : Note) : State := { s with notes := n :: s.notes }

/-- A port die runs: port die 0 then serves the host port, the mailbox and the memory processor (R468). -/
def State.portRuns (s : State) (p : Nat) : Bool := (s.pdies.getD p PortDie.reset).st == .running

/-- A context error (R385): errcnt counts it, errpa keeps the first word's address, the context becomes Faulted and the
host is notified. -/
def State.contextError (s : State) (a : BitVec 16) (pa : Nat) : State :=
  (s.modCtx a fun c => { c with
    errcnt := c.errcnt + 1, errpa := if c.errcnt == 0 then pa else c.errpa,
    st := if c.st == .closed then .closed else .faulted }).note (.contextError a pa)

/-! ### What an issuing gang sees -/

/-- The issuing gang with everything that it belongs to, as the state stands when it issues. -/
structure View where
  iss : Issue
  f : Fibre
  g : Gang
  sl : Slot
  tm : Team
  cl : Cluster
  k : Kernel
  rcd : Launch
  c : Context
  deriving DecidableEq, Repr

def State.viewOf (s : State) (i : Issue) : Option View := do
  let f ← s.fibre? i.f
  let g ← f.gangs.find? fun g => g.id == i.gang
  let sl ← s.slot? f
  let tm ← s.team? f.ref.cl f.ref.team
  let cl ← s.cluster? f.ref.cl
  let k ← s.kernel? f.kern
  let rcd ← k.rcd
  let c ← s.ctx? f.asid
  some { iss := i, f := f, g := g, sl := sl, tm := tm, cl := cl, k := k, rcd := rcd, c := c }

def State.view? (s : State) : Option View := do s.viewOf (← s.cur)

/-- The value of a predicate register: p7 reads as 1 in every lane (R44). -/
def Fibre.pred (f : Fibre) (n : Nat) : Mask := if n < 7 then f.p[n]! else BitVec.allOnes 32

/-- The lanes that an instruction executed per lane acts in: live lanes of the gang whose guard is true (R44, R45). -/
def View.active (v : View) (h : Hdr) : Mask :=
  let m := v.f.pred h.pg.toNat
  v.g.lanes &&& (if h.pn then ~~~m else m)

/-- The lowest-numbered lane of a mask, 0 for none. -/
def lowest (m : Mask) : Nat := (lanesOf m).headD 0

/-- The lane that decides for the scalar form: the lowest live lane of the gang (R47). -/
def View.lane0 (v : View) : Nat := lowest v.g.lanes

/-- The guard of the scalar form (R47). -/
def View.scalarGuard (v : View) (h : Hdr) : Bool := lane (v.active h) v.lane0

def View.die (v : View) : Nat := v.cl.die
def View.core (v : View) : Nat := v.tm.core

/-- Segment register `n` (R188). -/
def Fibre.segment (f : Fibre) (n : Nat) : Seg := f.seg.getD n ⟨0, 0⟩

/-- The base of segment register `n` as it reads, or as a value written becomes it: that of the cluster segment is reserved and reads as zero, and
a write to it is ignored (R9, R188). -/
def segBase (n : Nat) (x : VA) : VA := if n = 2 then 0 else x

/-! ### Register windows and rows -/

/-- The row of a register index (R110, with the fields of R111); none outside the windows. -/
def quotaRow (q : BitVec 32) (n : Nat) : Option Nat :=
  let scount := (q.extractLsb' 23 8).toNat
  let sbase := (q.extractLsb' 18 5).toNat
  let plo := (q.extractLsb' 13 5).toNat
  let pbase := (q.extractLsb' 8 5).toNat
  let pcount := (q.extractLsb' 0 8).toNat + 1
  if 8 * plo ≤ n ∧ n < pcount then some (8 * pbase + n)
  else if q.getLsbD 31 ∧ 256 - scount ≤ n ∧ n < 256 then some (8 * sbase + (n - (256 - scount)))
  else none

/-- A row that holds 0 in every lane. -/
def Row.zero : Row := Vector.replicate 32 0

/-- A row as it reads: 0 when it is dead (R113). -/
def Slot.row (sl : Slot) (r : Nat) : Row := (aget sl.rows r).getD Row.zero

/-- A write of some lanes makes a dead row live with 0 in the others (R112). -/
def Slot.write (sl : Slot) (r : Nat) (m : Mask) (val : Row) : Slot :=
  { sl with rows := aset sl.rows r (Row.select m val (sl.row r)) }

def Slot.kill (sl : Slot) (r : Nat) : Slot := { sl with rows := adel sl.rows r }

/-- Vector register `n` as the gang reads it, in every lane (R110, R113). -/
def View.vreg (v : View) (n : Nat) : Row :=
  match quotaRow v.f.quota n with
  | some r => v.sl.row r
  | none => Row.zero

/-! ### Stops: how an instruction's own description ends other than by completing -/

/-- How a meaning ends early. A `none` state stands for the state in which the instruction was issued. -/
inductive Stop where
  /-- A trap of the issuing gang (R67, R383). -/
  | trap (s : Option State) (t : TrapRec)
  /-- The fibre is frozen for replay (R200). -/
  | freeze (s : State) (frames : List Nat)
  /-- The fibre parks until its results have returned, and issues the instruction again (R141, R392). -/
  | hold
  /-- The gang waits at the instruction. -/
  | wait (s : State) (w : Wait)
  /-- The instruction is held at issue because a shared unit is full (R121); the gang issues it again. -/
  | stall
  /-- As `stall`, with a part of its effect made. -/
  | again (s : State)
  | fault (f : Fault)
  | refuse (r : Refusal)
  deriving Repr

/-- A computation that may stop. -/
abbrev Chk (α : Type) := Except Stop α

/-- A synchronous trap at the instruction. -/
def View.trapRec (v : View) (code : Trap) (emask : Mask) (eaddr : DWord) (info : Byte) : TrapRec :=
  { code := code, info := info, rp := false, asy := false, epc := v.iss.pc, eaddr := eaddr, emask := emask }

def View.stop (v : View) (code : Trap) (emask : Mask) (eaddr : DWord := 0) (info : Byte := 0) : Stop :=
  .trap none (v.trapRec code emask eaddr info)

/-- Raise the trap with the lanes of `m` unless there are none (R67, steps 7 to 10). -/
def View.trapIf (v : View) (code : Trap) (m : Mask) (eaddr : DWord := 0) : Chk Unit :=
  if m == 0 then pure () else .error (v.stop code m eaddr)

/-- Raise the trap with the whole set of issuing lanes when `b` (R67, steps 4 to 6, and checks that are no lane's). -/
def View.require (v : View) (code : Trap) (b : Bool) (eaddr : DWord := 0) : Chk Unit :=
  if b then pure () else .error (v.stop code v.g.lanes eaddr)

/-! ### Registers that an instruction touches -/

/-- What an instruction does to one register: the lanes that read or write it, whether they read, and whether a last-use
mark makes it dead. -/
inductive Touched where
  | v (n : Nat)
  | r (r : Reg)
  deriving DecidableEq, Repr
structure Use where
  reg : Touched
  mask : Mask
  rd : Bool
  kill : Bool
  deriving DecidableEq, Repr

/-- Step 7 of R67 for one use: the lanes that find the register outside the windows (R110). -/
def Use.outside (v : View) (u : Use) : Mask :=
  match u.reg with
  | .v n => if (quotaRow v.f.quota n).isNone then u.mask else 0
  | .r _ => 0

/-- Step 8 of R67 for one use: the lanes that meet a pending bit (R115). -/
def Use.hazard (v : View) (u : Use) : Mask :=
  match u.reg with
  | .v n => match quotaRow v.f.quota n with
    | some r => if v.sl.pend.contains r then u.mask else 0
    | none => 0
  | .r r => if v.f.pend.contains r then u.mask else 0

/-- The lanes that read a dead register (R113). -/
def Use.dead (v : View) (u : Use) : Mask :=
  match u.reg with
  | .v n => match quotaRow v.f.quota n with
    | some r => if u.rd && (aget v.sl.rows r).isNone then u.mask else 0
    | none => 0
  | .r _ => 0

def unionMask (l : List Mask) : Mask := l.foldl (· ||| ·) 0

/-- Steps 7 to 9 of R67. -/
def View.checkUses (v : View) (us : List Use) : Chk Unit := do
  v.trapIf .registerBound (unionMask (us.map (·.outside v)))
  v.trapIf .markerHazard (unionMask (us.map (·.hazard v)))
  if v.c.dbg then v.trapIf .deadRead (unionMask (us.map (·.dead v)))

/-- A lane reads a dead register (R113). -/
def View.readsDead (v : View) (us : List Use) : Bool := unionMask (us.map (·.dead v)) != 0

/-- The rows whose last use this is (R45, R50). -/
def View.killRows (v : View) (us : List Use) : List Nat := us.filterMap fun u => match u.reg with
  | .v n => if u.kill then quotaRow v.f.quota n else none
  | .r _ => none

/-- The registers whose last use this is die. -/
def State.consume (s : State) (v : View) (us : List Use) : State :=
  if (v.killRows us).isEmpty then s else s.modSlot v.f fun sl => (v.killRows us).foldl Slot.kill sl

/-! ### Register writes -/

/-- One register write; p7 discards (R44), and it has no place in the predicate file. -/
def Fibre.upd (f : Fibre) : RegUpd → Fibre
  | .v .. => f
  | .s n x => { f with s := f.s.set! n x }
  | .p n m x => if n < 7 then { f with p := f.p.set! n ((f.p[n]! &&& ~~~m) ||| (x &&& m)) } else f
  | .l n x => { f with l := f.l.set! n x }
  | .h n x => { f with h := f.h.set! n x }
  | .cb n x => { f with cb := f.cb.set! n x }
  | .pat .. => f

def State.upd (s : State) (f : Fibre) (u : RegUpd) : State :=
  match u with
  | .v r m x => s.modSlot f fun sl => sl.write r m x
  | .pat n x => s.modTeam f.ref.cl f.ref.team fun t => { t with pats := t.pats.set n x }
  | u => s.modFibre f.ref fun f => f.upd u

def State.upds (s : State) (f : Fibre) (us : List RegUpd) : State := us.foldl (fun s u => s.upd f u) s

/-- Flags are sticky (R101). -/
def State.orFlags (s : State) (f : Fibre) (fps le8s : BitVec 32) : State :=
  if fps == 0 && le8s == 0 then s
  else s.modFibre f.ref fun f => { f with fps := f.fps ||| fps, le8s := f.le8s ||| le8s }

/-- The rows and registers that writes leave pending. -/
def updRows (us : List RegUpd) : List Nat := us.filterMap fun u => match u with | .v r _ _ => some r | _ => none
def updRegs (us : List RegUpd) : List Reg := us.filterMap fun u =>
  match u with
  | .s n _ => some (.s n)
  | .p n _ _ => some (.p n)
  | .l n _ => some (.l n)
  | .h n _ => some (.h n)
  | .cb n _ => some (.cb n)
  | .pat n _ => some (.pat n)
  | _ => none

/-- A destination row is live from the issue of its writer (R114). -/
def Slot.enliven (sl : Slot) (r : Nat) : Slot := if (aget sl.rows r).isSome then sl else sl.write r 0 Row.zero

/-- Hold a result of the fibre until it returns: its destinations become pending (R114). -/
def State.defer (s : State) (f : Fibre) (o : Out) : State :=
  let s := s.modFibre f.ref fun f => { f with
    pend := o.regs.foldl addOnce f.pend, out := f.out ++ [{ o with id := f.nextOut }], nextOut := f.nextOut + 1 }
  s.modSlot f fun sl => o.rows.foldl Slot.enliven { sl with pend := o.rows.foldl addOnce sl.pend }

/-- sr.fps.dead after an instruction that read a dead register (R100, R113): it merges when the instruction writes its results, with the
result that the instruction has added if there is one (R101). -/
def State.noteDead (s : State) (v : View) (us : List Use) : State :=
  if v.readsDead us then
    let n := v.f.out.length
    s.modFibre v.f.ref fun f =>
      if n < f.out.length then { f with out := f.out.take n ++ (f.out.drop n).map fun o => { o with fps := o.fps ||| 0x40 } }
      else { f with fps := f.fps ||| 0x40 }
  else s

/-- The destination rows of an instruction are live from its issue (R114). -/
def State.enliven (s : State) (v : View) (us : List Use) : State :=
  let rows := (us.filter fun u => !u.rd && u.mask != 0).filterMap fun u => match u.reg with | .v n => quotaRow v.f.quota n | .r _ => none
  if rows.isEmpty then s else s.modSlot v.f fun sl => rows.foldl Slot.enliven sl

/-- A result with its writes and flags and nothing else. -/
def Out.of (us : List RegUpd) (fps : BitVec 32 := 0) (le8s : BitVec 32 := 0) : Out :=
  { id := 0, upds := us, rows := updRows us, regs := updRegs us, fps := fps, le8s := le8s, err := none, remote := [], fail := [], fence := false, rfence := false, waiter := none, tail := none }

/-- The return of a result (R114): its registers are written and cease to be pending, its flags merge (R101), and an error
in its data becomes a held asynchronous trap (R478). -/
def State.returnOut (s : State) (r : FibreRef) (id : Nat) : State :=
  match s.fibre? r with
  | none => s
  | some f =>
    match f.out.find? fun o => o.id == id with
    | none => s
    | some o =>
      let s := if o.err.isNone then (s.upds f o.upds).orFlags f o.fps o.le8s else s.orFlags f o.fps 0
      let s := s.modSlot f fun sl => { sl with pend := sl.pend.filter fun x => !o.rows.contains x }
      s.modFibre r fun f => { f with
        pend := f.pend.filter (fun x => !o.regs.contains x), out := f.out.filter (fun x => !(x.id == id)),
        held := match o.err with | some t => f.held ++ [⟨.data, t⟩] | none => f.held }

/-! ### Gangs and turns -/

/-- Gangs in the order of R129: by lowest live lane. -/
def insertGang (g : Gang) : List Gang → List Gang
  | [] => [g]
  | x :: xs => if lowest g.lanes < lowest x.lanes then g :: x :: xs else x :: insertGang g xs

def sortGangs (l : List Gang) : List Gang := l.foldr insertGang []

def Fibre.setGang (f : Fibre) (g : Gang) : Fibre :=
  { f with gangs := f.gangs.map fun x => if x.id == g.id then g else x }
def Fibre.modGang (f : Fibre) (id : Nat) (u : Gang → Gang) : Fibre :=
  { f with gangs := f.gangs.map fun x => if x.id == id then u x else x }

/-- A fibre is parted while it has more than one gang (R129). -/
def Fibre.parted (f : Fibre) : Bool := 1 < f.gangs.length

/-- The gangs that may take the turn: running, and in handler mode only the handler gang (R382). -/
def Fibre.mayTurn (f : Fibre) (g : Gang) : Bool := g.st == .run && (!f.hmode || g.id == f.hgang)

/-- The turn passes to the next gang that may take it, in cyclic order of lowest lane; it stays where it is when there is
no other (R118, R131). -/
def Fibre.passTurn (f : Fibre) : Fibre :=
  let at_ := (f.gangs.findIdx? fun g => g.id == f.turn).getD 0
  let cyc := f.gangs.drop (at_ + 1) ++ f.gangs.take (at_ + 1)
  let f := { f with gangs := f.gangs.map fun g => { g with count := 0 } }
  match cyc.find? f.mayTurn with
  | some g => { f with turn := g.id }
  | none => f

/-- The fibre parks when none of its gangs can issue (R337). -/
def Fibre.parkIfIdle (f : Fibre) : Fibre :=
  if f.st == .run && !(f.gangs.any f.mayTurn) then { f with st := .parked .waits } else f

/-- A wait counts as an outstanding result until it ends: one that will write a register, which it leaves pending (R114, R117), and one for a
release (R249, R328, R373). -/
def Wait.counts (w : Wait) : Bool := w.dst.isSome || match w with | .released _ => true | _ => false

/-- A wait begins. -/
def Fibre.openWait (f : Fibre) (g : Nat) (w : Wait) : Fibre :=
  let regs := w.dst.toList.map Reg.s
  if w.counts then { f with
      pend := regs.foldl addOnce f.pend, nextOut := f.nextOut + 1
      out := f.out ++ [{ Out.of [] with id := f.nextOut, regs := regs, waiter := some g }] }
  else f

/-- The end of a gang's wait: its register is pending no more. -/
def Fibre.closeWait (f : Fibre) (g : Nat) : Fibre :=
  let mine := f.out.filter fun o => o.waiter == some g
  { f with pend := f.pend.filter (fun r => !(mine.any fun o => o.regs.contains r)), out := f.out.filter fun o => o.waiter != some g }

/-- A gang begins to wait: the turn passes, and the fibre parks at a switch point with a result outstanding (R117), or when no gang
can issue (R337). -/
def Fibre.beginWait (f : Fibre) (g : Nat) (st : GangSt) (sw : Bool) : Fibre :=
  let f := match st with | .wait w => f.openWait g w | _ => f
  let f := (f.modGang g fun x => { x with st := st }).passTurn
  if sw && f.st == .run && !f.out.isEmpty then { f with st := .parked .results } else f.parkIfIdle

/-! ### Traps -/

/-- The codes of R379. -/
def Trap.code : Trap → BitVec 8
  | .illegalInstruction => 0x01 | .illegalLength => 0x02 | .fetchCross => 0x03 | .registerBound => 0x04
  | .markerHazard => 0x05 | .deadRead => 0x06 | .segmentLimit => 0x07 | .misaligned => 0x08 | .permission => 0x09
  | .pageFault => 0x0A | .mappingError => 0x0B | .dataError => 0x0C | .layoutReject => 0x0D | .layoutCompose => 0x0E
  | .layoutFlatten => 0x0F | .le8Partial => 0x10 | .shellOverflow => 0x11 | .collectiveDivergence => 0x12
  | .arrayState => 0x13 | .barrierClobber => 0x14 | .remoteFault => 0x15 | .remoteReset => 0x16 | .linkDown => 0x17
  | .jobFault => 0x18 | .queueAccess => 0x19 | .commitState => 0x1A | .breakpoint => 0x1B | .softTrap => 0x1C
  | .fibreQuota => 0x1D

/-- sr.ecause of a trap (R380). -/
def TrapRec.ecause (t : TrapRec) : BitVec 32 :=
  0#14 ++ bit t.asy ++ bit t.rp ++ t.info ++ t.code.code

/-- The completion bitmap of the instruction at a PC of a gang (R200). -/
def Fibre.bitmapAt (f : Fibre) (g : Nat) (pc : VA) : Option Replay := f.replay.find? fun r => r.gang == g && r.pc == pc

/-- The state in which a replaying instruction issues: its own destinations are no hazard to it. -/
def State.unpend (s : State) (f : Fibre) (r : Replay) : State :=
  (s.modFibre f.ref fun f => { f with pend := f.pend.filter fun x => !r.regs.contains x }).modSlot f fun sl =>
    { sl with pend := sl.pend.filter fun x => !r.rows.contains x }

/-- A trap at an instruction that replays (R201): the lanes performed keep their results, and a bitmap that names a lane stays with
the fibre. An error in their data is held instead, and no lane's destination is written (R232, R478). -/
def State.bank (s : State) (f : Fibre) (g : Nat) (pc : VA) : State :=
  match f.bitmapAt g pc with
  | none => s
  | some r =>
    let mute := r.mute || r.err.isSome
    let r' := { r with upds := [], rows := [], regs := [], noAlloc := [], err := none, mute := mute }
    ((s.unpend f r).upds f (if mute then [] else r.upds)).modFibre f.ref fun f => { f with
      held := f.held ++ (match r.err with | some t => [⟨.data, t⟩] | none => [])
      replay := (if r.done == 0 then [] else [r']) ++ f.replay.filter fun x => x.gang != g }

/-- The four trap registers (R380). -/
def Fibre.trapRegs (f : Fibre) (t : TrapRec) : Fibre :=
  { f with ecause := t.ecause, epc := t.epc.setWidth 64, eaddr := t.eaddr, emask := t.emask }

/-- Entry of the handler (R383): the trap registers, handler mode, and the gang at the handler's address. -/
def Fibre.enterHandler (f : Fibre) (g : Nat) (t : TrapRec) (handler : VA) : Fibre :=
  let f := f.trapRegs t
  { f with
    hmode := true, hgang := g, turn := g, taking := none, tookAt := t.epc, st := .run
    trapped := f.bitmapAt g t.epc, replay := f.replay.filter fun x => x.gang != g
    gangs := f.gangs.map fun x => if x.id == g then { x with pc := handler, st := .run, count := 0 } else x }

/-- The fault record of R375 for a fibre's trap. -/
def faultRecord (f : Fibre) (die index : Nat) (t : TrapRec) : CtxFault :=
  { cause := t.ecause, mask := t.emask, epc := t.epc.setWidth 64, eaddr := t.eaddr, clu := index, team := f.ref.team,
    fib := f.ref.fib, die := die, q := f.kern.q, pkt := f.kern.pkt }

/-- ContextFault (R384): the trap registers are written, the fibre freezes, the first fault is recorded, the context
becomes Faulted and the host is notified. -/
def State.contextFault (s : State) (f : Fibre) (t : TrapRec) : State :=
  let (die, index) := match s.cluster? f.ref.cl with | some c => (c.die, c.index) | none => (0, 0)
  let s := s.modFibre f.ref fun f => { f.trapRegs t with st := .frozen .fault, taking := none }
  let s := s.modCtx f.asid fun c => { c with
    fault := match c.fault with | none => some (faultRecord f die index t) | some x => some x
    st := if c.st == .closed then .closed else .faulted }
  s.note (.contextFault f.asid)

/-- The handler's address of the fibre's kernel; 0 means none (R346). -/
def State.handlerOf (s : State) (f : Fibre) : VA :=
  match s.kernel? f.kern with
  | some k => match k.rcd with | some r => r.handler | none => 0
  | none => 0

/-- TakeTrap (R383): a breakpoint under dbh stops the fibre for the debugger; a trap in handler mode or without a handler
is a context fault; otherwise the handler is entered, once no result is outstanding. -/
def State.takeTrap (s : State) (r : FibreRef) (g : Nat) (t : TrapRec) : State :=
  let s := match s.fibre? r with | some f => s.bank f g t.epc | none => s
  match s.fibre? r with
  | none => s
  | some f =>
    let t := { t with rp := (f.bitmapAt g t.epc).isSome }
    let dbh := match s.ctx? f.asid with | some c => c.dbh | none => false
    if t.code == .breakpoint && dbh then
      (s.modFibre r fun f => { f.trapRegs t with st := .frozen (.breakpoint g), dbgPc := none }).note (.breakpoint r)
    else if f.hmode || s.handlerOf f == 0 then s.contextFault f t
    else if f.out.isEmpty then s.modFibre r fun f => f.enterHandler g t (s.handlerOf f)
    else s.modFibre r fun f => { f with taking := some (g, t), st := .parked .results }

/-- The gangs that LOADCTX loaded take effect (R392), without the lanes that have exited since (R16). -/
def Fibre.settleLoad (f : Fibre) : Fibre :=
  match f.loaded with
  | none => f
  | some x =>
    let gangs := (x.gangs.map fun g => { g with lanes := g.lanes &&& f.live }).filter fun g => g.lanes != 0
    let opened := gangs.foldl (fun f g => match g.st with | .wait w => f.openWait g.id w | _ => f) f
    { opened with
      loaded := none, live := x.live &&& f.live, gangs := sortGangs gangs
      turn := x.turn, nextGang := x.nextGang, hgang := x.hgang,
      tookAt := x.tookAt, held := x.held, replay := x.replay, trapped := x.trapped, posts := x.posts, arrivals := x.arrivals, garr := x.garr, aside := x.aside }

/-- The turn lies with a gang that can take it; without one the fibre parks (R118, R337), and without a live lane it waits for its results
and retires (R16). -/
def Fibre.restTurn (f : Fibre) : Fibre :=
  if f.live == 0 then { f with st := .parked .results }
  else (if f.gangs.any fun g => g.id == f.turn && f.mayTurn g then f else f.passTurn).parkIfIdle

/-- Return from the handler (R389): the handler gang goes on at the saved PC and handler mode ends; the completion bitmap
is kept when the trap left one and the PC is the one at which it was taken, and so is a wait that was set aside there. -/
def Fibre.returnFromTrap (f : Fibre) : Fibre :=
  let f := f.settleLoad
  let p := f.epc.setWidth 56
  let keep := f.ecause.getLsbD 16 && p == f.tookAt
  let back := match f.aside with | some (pc, st) => if pc == p then st else .run | none => .run
  let f := match back with | .wait w => f.openWait f.hgang w | _ => f
  let f := f.modGang f.hgang fun g => { g with pc := p, st := back }
  let r := if keep then f.trapped.map fun x => { x with gang := f.hgang } else none
  { f with hmode := false, turn := f.hgang, aside := none, trapped := none, replay := r.toList ++ f.replay.filter fun x => x.gang != f.hgang }

/-! ### Issuing an instruction word -/

/-- What follows an instruction's effect: its gang has issued one more instruction, the fibre's age restarts (R120), and
with the switch bit the turn passes (R118) and the fibre parks when a result is outstanding (R117). -/
def Fibre.afterIssue (f : Fibre) (g : Nat) (sw : Bool) : Fibre :=
  let f := { f.modGang g (fun x => { x with count := x.count + 1 }) with age := 0 }
  if sw then
    let f := f.passTurn
    if f.st == .run && !f.out.isEmpty then { f with st := .parked .results } else f
  else f

/-- The next PC of an instruction that does not branch (R37). -/
def Fibre.advance (f : Fibre) (g : Nat) (len : Nat) : Fibre :=
  f.modGang g fun x => { x with pc := x.pc + BitVec.ofNat 56 len }

/-- The epilogue of an instruction that does not branch. -/
def State.retire (s : State) (v : View) (sw : Bool) (len : Nat) : State :=
  s.modFibre v.f.ref fun f => (f.advance v.iss.gang len).afterIssue v.iss.gang sw

/-- What a stop makes of the state in which the instruction was issued. -/
def Stop.outcome (x : Stop) (s : State) (v : View) (sw : Bool) : Host.Outcome State Fault Refusal :=
  match x with
  | .trap s' t => .next (((s'.getD s).modFibre v.f.ref fun f => { f with age := 0 }).takeTrap v.f.ref v.iss.gang t)
  | .freeze s' frames => .next (s'.modFibre v.f.ref fun f => { f with st := .frozen (.replay frames), age := 0 })
  | .hold => .next (s.modFibre v.f.ref fun f => { f with st := .parked .results, age := 0 })
  | .wait s' w => .next (s'.modFibre v.f.ref fun f => { f with age := 0 }.beginWait v.iss.gang (.wait w) sw)
  | .stall => .next (s.modFibre v.f.ref fun f => { f with age := 0 })
  | .again s' => .next (s'.modFibre v.f.ref fun f => { f with age := 0 })
  | .fault r => .fault r
  | .refuse r => .refused r

/-- The kinds of checks of steps 5 and 6 of R67. -/
structure Kindly where
  priv : Bool
  coll : Bool
  deriving DecidableEq, Repr

/-- Steps 5 to 9 of R67. -/
def View.checks (v : View) (k : Kindly) (us : List Use) : Chk Unit := do
  v.require .permission (!k.priv || v.f.hmode)
  v.require .collectiveDivergence (!k.coll || !v.f.parted)
  v.checkUses us

/-- The issue of an instruction word that does not branch: the checks of R67 from step 5 on, dead reads and last-use
marks, the effect, and the epilogue. -/
def issueAs (k : Kindly) (sw : Bool) (len : Nat) (us : View → List Use) (body : View → State → Chk State) (s : State) :
    Host.Outcome State Fault Refusal :=
  match s.view? with
  | none => .refused .noIssuer
  | some v =>
    match (do v.checks k (us v); body v (s.consume v (us v)) : Chk State) with
    | .ok s' => .next ((s'.noteDead v (us v)).retire v sw len)
    | .error e => e.outcome s v sw

/-- An instruction executed per lane, or one that is fibre-wide and neither privileged nor collective. -/
def issue (sw : Bool) (len : Nat) (us : View → List Use) (body : View → State → Chk State) (s : State) :
    Host.Outcome State Fault Refusal := issueAs ⟨false, false⟩ sw len us body s

/-- A fibre-collective instruction (R46). -/
def issueColl (sw : Bool) (len : Nat) (us : View → List Use) (body : View → State → Chk State) (s : State) :
    Host.Outcome State Fault Refusal := issueAs ⟨false, true⟩ sw len us body s

/-- A privileged instruction (R65). -/
def issuePriv (sw : Bool) (len : Nat) (us : View → List Use) (body : View → State → Chk State) (s : State) :
    Host.Outcome State Fault Refusal := issueAs ⟨true, false⟩ sw len us body s

end Sys2Proof.Machine
end

