-- ==== Sys2Proof/Machine/Flags.lean ====
section
/-! DEFINITION. The flags of sr.fps and sr.le8s (R100, R101, R89), the writes of special registers by their access codes
(R7, R59, R97, R140), and the exact integer results with their carries, wraps and clamps (R94, R145, R151). -/

namespace Sys2Proof

/-- A value read as an integer of a type: two's complement when the type is signed. -/
def Ty.signed : Ty → Bool
  | .i32 | .i64 | .i16 | .i8 => true
  | _ => false

/-- W of R143, and the widths of the narrow types. -/
def Ty.bits : Ty → Nat
  | .i64 | .n64 => 64
  | .i32 | .n32 | .f32 => 32
  | .i16 | .n16 | .f16 | .bf16 | .le8 => 16
  | .i8 | .n8 | .e4m3 | .e5m2 => 8
  | .e2m1 => 4
  | .grp => 8

/-- The integer conditions (R150, R338). -/
def Cond.holds (cc : Cond) (a b : Int) : Bool :=
  match cc with
  | .eq => a == b
  | .ne => a != b
  | .lt => decide (a < b)
  | .le => decide (a ≤ b)
  | .gt => decide (b < a)
  | .ge => decide (b ≤ a)

end Sys2Proof

namespace Sys2Proof.Machine

open Sys2Proof

/-! ### Special registers that a write changes (R58, R59) -/

/-- A W1C register after a write of `x` (R7); reserved bits read as zero. -/
def w1c (old x live : BitVec 32) : BitVec 32 := old &&& ~~~x &&& live

/-- A write of sr.fpm (R97): a reserved rm or lov leaves its field; reserved bits are ignored. -/
def writeFpm (old x : BitVec 32) : BitVec 32 :=
  let rm := if 6 ≤ (x.extractLsb' 0 3).toNat then old.extractLsb' 0 3 else x.extractLsb' 0 3
  let lov := if x.extractLsb' 12 2 == 3 then old.extractLsb' 12 2 else x.extractLsb' 12 2
  (0#18 ++ lov ++ x.extractLsb' 4 8 ++ 0#1 ++ rm : BitVec 32)

/-- A write of sr.xretry (R59): bits 3:0, and 1 when they are zero. -/
def writeXretry (x : BitVec 32) : BitVec 32 := if x &&& 0xF == 0 then 1 else x &&& 0xF

/-- A write of a register held per fibre; a register that programs only read ignores it (R7, R380). -/
def Fibre.writeSr (f : Fibre) (r : SReg) (x : DWord) : Fibre :=
  let w : BitVec 32 := x.setWidth 32
  match r with
  | .fpm => { f with fpm := writeFpm f.fpm w }
  | .fps => { f with fps := w1c f.fps w 0x7F }
  | .le8s => { f with le8s := w1c f.le8s w 3 }
  | .fp4x => { f with fp4x := w &&& 0xFFFF }
  | .xretry => { f with xretry := writeXretry w }
  | .epc => { f with epc := x &&& 0x00FFFFFFFFFFFFFF }
  | .lane | .slice | .fibre | .slot | .team | .cluster | .cx | .cy | .cz | .core | .die | .dev | .tags | .lcd | .rng
  | .cyc | .quota | .grp | .ecause | .eaddr | .emask => f

/-! ### Exact integers (R145) -/

/-- The low `ty.bits` bits of a value as an integer of the type. -/
def asInt (ty : Ty) (x : DWord) : Int :=
  let n : Nat := x.toNat % 2 ^ ty.bits
  if ty.signed && 2 ^ (ty.bits - 1) ≤ n then (n : Int) - 2 ^ ty.bits else n

/-- An exact integer modulo 2^W, as a pattern. -/
def wrapTo (ty : Ty) (i : Int) : DWord := BitVec.ofNat 64 (i % (2 ^ ty.bits : Int)).toNat

/-- The result of an integer instruction: clamped with its flag under .sat, wrapped otherwise (R145, R146). -/
def intResult (ty : Ty) (sat : Bool) (i : Int) : Num DWord :=
  if sat then do pure (wrapTo ty (← satInt ty.signed ty.bits i)) else pure (wrapTo ty i)

/-- The carry out of IADDC: t ≥ 2^W (R151). -/
def carryOut (ty : Ty) (a b : DWord) (cin : Nat) : DWord × Bool :=
  let t := a.toNat % 2 ^ ty.bits + b.toNat % 2 ^ ty.bits + cin
  (BitVec.ofNat 64 (t % 2 ^ ty.bits), decide (2 ^ ty.bits ≤ t))

/-- The borrow out of ISUBB: t < 0 (R151). -/
def borrowOut (ty : Ty) (a b : DWord) (cin : Nat) : DWord × Bool :=
  let t : Int := (a.toNat % 2 ^ ty.bits : Nat) - (b.toNat % 2 ^ ty.bits : Nat) - (cin : Int)
  (wrapTo ty t, decide (t < 0))

end Sys2Proof.Machine
end

