-- ==== Sys2Proof/Machine/Operands.lean ====
section
/-! DEFINITION. Every operand form (R52 to R57): the scalar space and its values by type, vector registers and pairs,
predicates, destinations of the vector and the scalar form, and the loop over lanes that the arithmetic groups share. -/

namespace Sys2Proof

/-- A type whose scalar operands are floating values. -/
def Ty.isFloat : Ty → Bool
  | .f32 | .f16 | .bf16 | .e4m3 | .e5m2 | .e2m1 => true
  | _ => false

end Sys2Proof

namespace Sys2Proof.Machine

open Sys2Proof

/-! ### The scalar space (R53, R54) -/

/-- The FP32 constants of R53, from code 0x80. -/
def fpConstants : List Nat :=
  [0x00000000, 0x3F800000, 0x3F000000, 0x40000000, 0xBF800000, 0x7F800000, 0xFF800000, 0x7FC00000, 0x3FB8AA3B, 0x3F317218]

def fpConstant (code : Nat) : Nat := fpConstants.getD (code - 0x80) 0

/-- The small integers of R53. -/
def smallInt (code : Nat) : Int := if code < 0x60 then (code : Int) - 0x40 else (code : Int) - 0x80

/-- A value rounded RNE to a floating type with no flush and no flag (R54). -/
def plainRound (ty : Ty) (x : XVal) : DWord := (quietly (roundFp 0 0 ty .rne x)).setWidth 64

/-- The value that a scalar-space field supplies to an operand of a type (R54), in the low bits; for the 4-bit and 8-bit floating types,
which R54 leaves out, rounded RNE by the model's choice (log entry 28). -/
def scalarValue (f : Fibre) (ty : Ty) (code : BitVec 8) : DWord :=
  let c := code.toNat
  let w := ty.bits
  if c < 0x40 then BitVec.ofNat 64 (f.s[c]!.toNat % 2 ^ w)
  else if c < 0x80 then
    if ty.isFloat then plainRound ty (XVal.ofInt (smallInt c)) else wrapTo ty (smallInt c)
  else if ty == .f32 || !ty.isFloat then BitVec.ofNat 64 (fpConstant c % 2 ^ w)
  else plainRound ty ((fpFmt .f32).value (fpConstant c))

/-- All 64 bits of a scalar-space field: an operand of a 64-bit integer type. -/
def View.sval (v : View) (code : BitVec 8) : DWord := scalarValue v.f .n64 code

/-! ### Vector registers -/

/-- A pair of one lane: the low half in the even register (R51). -/
def pair (lo hi : Word) : DWord := hi ++ lo

/-- Register `n`, or the pair at `n` when `w`, in a lane. -/
def View.vval (v : View) (w : Bool) (n : Nat) (l : Nat) : DWord :=
  let lo := (v.vreg n).at l
  if w then pair lo ((v.vreg (n + 1)).at l) else lo.setWidth 64

/-- A source operand in a lane, for an operand of a type: vector, broadcast scalar, or scalar form (R52, R54). -/
def View.src (v : View) (sc : Bool) (ty : Ty) (o : Opnd) (l : Nat) : DWord :=
  if sc || o.x then scalarValue v.f ty o.idx else v.vval ty.is64 o.idx.toNat l

/-! ### Uses -/

/-- A scalar-space source. -/
def useS (code : BitVec 8) (m : Mask) : List Use :=
  if code.toNat < 0x40 then [⟨.r (.s code.toNat), m, true, false⟩] else []

/-- `n` consecutive vector registers, read. -/
def useRun (n : Nat) (first : Nat) (m : Mask) (kill : Bool) : List Use :=
  (upTo n).map fun i => ⟨.v (first + i), m, true, kill⟩

/-- `n` consecutive vector registers, written. -/
def defRun (n : Nat) (first : Nat) (m : Mask) : List Use := (upTo n).map fun i => ⟨.v (first + i), m, false, false⟩

/-- A source field of class V or V2, or S. -/
def useSrc (sc w : Bool) (o : Opnd) (m : Mask) : List Use :=
  if sc || o.x then useS o.idx m else useRun (if w then 2 else 1) o.idx.toNat m o.last

/-- A destination field of class V or V2, or a scalar register. -/
def useDst (sc w : Bool) (d : BitVec 8) (m : Mask) : List Use :=
  if sc then [⟨.r (.s d.toNat), m, false, false⟩] else defRun (if w then 2 else 1) d.toNat m

def useP (n : BitVec 3) (m : Mask) : List Use := [⟨.r (.p n.toNat), m, true, false⟩]
def defS (d : Nat) (m : Mask) : List Use := [⟨.r (.s d), m, false, false⟩]

/-- The lanes that an instruction acts for when its checks are made: the active lanes, or in the scalar form every issuing
lane when the guard of R47 is true. -/
def View.mask (v : View) (h : Hdr) (sc : Bool) : Mask :=
  if sc then (if v.scalarGuard h then v.g.lanes else 0) else v.active h

/-- The lanes that execute: each active lane, or the one lane of R47 in the scalar form, whose sr.rng such a form uses under RST by the
model's choice (R161, log entry 28). -/
def View.runs (v : View) (h : Hdr) (sc : Bool) : List Nat :=
  if sc then (if v.scalarGuard h then [v.lane0] else []) else lanesOf (v.active h)

/-! ### Destinations -/

/-- A lane's value in a list of lane results, 0 where there is none. -/
def laneVal (rs : List (Nat × DWord)) (l : Nat) : DWord := ((rs.find? fun x => x.1 == l).map (·.2)).getD 0

def lanesMask (rs : List (Nat × DWord)) : Mask := maskOf fun l => rs.any fun x => x.1 == l

/-- Writes of lane results to register `n`, or to the pair at `n` when `w`; no lane's result writes nothing (R112). -/
def View.vecUpds (v : View) (w : Bool) (n : Nat) (rs : List (Nat × DWord)) : List RegUpd :=
  let m := lanesMask rs
  let one := fun (k : Nat) (half : DWord → Word) =>
    match quotaRow v.f.quota k with
    | some r => [RegUpd.v r m (mkRow fun l => half (laneVal rs l))]
    | none => []
  if rs.isEmpty then [] else one n (fun x => x.setWidth 32) ++ (if w then one (n + 1) (fun x => x.extractLsb' 32 32) else [])

/-- Writes of the results of an instruction: the scalar form writes its one value (R55). -/
def View.dstUpds (v : View) (sc w : Bool) (d : BitVec 8) (rs : List (Nat × DWord)) : List RegUpd :=
  if rs.isEmpty then []
  else if sc then [.s d.toNat (laneVal rs v.lane0)]
  else v.vecUpds w d.toNat rs

/-! ### The loop over lanes -/

/-- One lane's computation with the lane's random state. -/
def runLane (v : View) (l : Nat) (c : Num DWord) : DWord × NumSt := c.run ⟨v.f.rng.at l, 0, 0⟩

/-- Merge what the lanes' computations did to random states and flags. -/
def laneFlags (rs : List (Nat × DWord × NumSt)) : BitVec 32 × BitVec 32 :=
  rs.foldl (fun a r => (a.1 ||| r.2.2.fps, a.2 ||| r.2.2.le8s)) (0, 0)

def State.setRngs (s : State) (v : View) (rs : List (Nat × DWord × NumSt)) : State :=
  if rs.all fun r => r.2.2.rng == v.f.rng.at r.1 then s
  else s.modFibre v.f.ref fun f => { f with
    rng := mkRow fun l => match rs.find? fun x => x.1 == l with | some r => r.2.2.rng | none => f.rng.at l }

/-- The effect of an arithmetic instruction: its lanes' results to the destination, at once or when the result returns
(R114), with the flags that they raise (R101). -/
def laneEffect (long sc w : Bool) (d : BitVec 8) (v : View) (rs : List (Nat × DWord × NumSt)) (s : State) : State :=
  if rs.isEmpty then s
  else
    let us := v.dstUpds sc w d (rs.map fun r => (r.1, r.2.1))
    let fl := laneFlags rs
    let s := s.setRngs v rs
    if long then s.defer v.f (Out.of us fl.1 fl.2) else (s.upds v.f us).orFlags v.f fl.1 fl.2

/-- An instruction of the arithmetic groups: each executing lane computes one value. -/
def laneOp (long : Bool) (h : Hdr) (len : Nat) (sc w : Bool) (d : BitVec 8) (srcs : View → Mask → List Use)
    (f : View → Nat → Num DWord) (s : State) : Host.Outcome State Fault Refusal :=
  issue h.sw len (fun v => srcs v (v.mask h sc) ++ useDst sc w d (v.mask h sc))
    (fun v s => .ok (laneEffect long sc w d v ((v.runs h sc).map fun l => (l, runLane v l (f v l))) s)) s

/-- The write of a predicate: a bit per executing lane, or the one bit to every live lane of the gang in the scalar form
(R57, R144). -/
def View.predUpd (v : View) (h : Hdr) (sc : Bool) (q : BitVec 3) (f : Nat → Bool) : RegUpd :=
  if sc then .p q.toNat (v.mask h true) (if f v.lane0 then BitVec.allOnes 32 else 0)
  else .p q.toNat (v.active h) (maskOf f)

/-- An instruction whose result is a predicate. -/
def predOp (h : Hdr) (len : Nat) (sc : Bool) (q : BitVec 3) (srcs : View → Mask → List Use) (f : View → Nat → Bool)
    (fl : View → Nat → Num DWord) (s : State) : Host.Outcome State Fault Refusal :=
  issue h.sw len (fun v => srcs v (v.mask h sc) ++ [⟨.r (.p q.toNat), v.mask h sc, false, false⟩])
    (fun v s =>
      let rs := (v.runs h sc).map fun l => (l, runLane v l (fl v l))
      let fs := laneFlags rs
      .ok ((s.upd v.f (v.predUpd h sc q (f v))).orFlags v.f fs.1 fs.2)) s

/-- The sources of an instruction with one, two or three source fields of given widths. -/
def uses1 (o : Op1) (wa : Bool) (_ : View) (m : Mask) : List Use := useSrc o.sc wa o.a m
def uses2 (o : Op2) (wa wb : Bool) (_ : View) (m : Mask) : List Use := useSrc o.sc wa o.a m ++ useSrc o.sc wb o.b m
def uses3 (o : Op3) (wa wb wc : Bool) (_ : View) (m : Mask) : List Use :=
  useSrc o.sc wa o.a m ++ useSrc o.sc wb o.b m ++ useSrc o.sc wc o.c m

end Sys2Proof.Machine
end

