-- ==== Sys2Proof/Machine/Integer.lean ====
section
/-! DEFINITION. The integer group (05_integer_and_control.md R143 to R156): one meaning per instruction over the shared
lane loop. -/

namespace Sys2Proof.Machine

open Sys2Proof

abbrev Result := Host.Outcome State Fault Refusal

/-! ### Shapes of R145 -/

/-- One source. -/
def int1 (o : Op1) (dw : Bool) (ty : Ty) (f : DWord → Num DWord) (s : State) : Result :=
  laneOp false o.h 8 o.sc dw o.d (uses1 o ty.is64) (fun v l => f (v.src o.sc ty o.a l)) s

/-- Two sources; B has a type of its own. -/
def int2 (o : Op2) (ty tb : Ty) (f : DWord → DWord → Num DWord) (s : State) : Result :=
  laneOp false o.h 8 o.sc ty.is64 o.d (uses2 o ty.is64 tb.is64)
    (fun v l => f (v.src o.sc ty o.a l) (v.src o.sc tb o.b l)) s

/-- Three sources. -/
def int3 (o : Op3) (ty tb : Ty) (f : DWord → DWord → DWord → Num DWord) (s : State) : Result :=
  laneOp false o.h 8 o.sc ty.is64 o.d (uses3 o ty.is64 tb.is64 ty.is64)
    (fun v l => f (v.src o.sc ty o.a l) (v.src o.sc tb o.b l) (v.src o.sc ty o.c l)) s

/-- An exact integer function of two operands, with .sat or wrapping. -/
def arith (ty : Ty) (sat : Bool) (f : Int → Int → Int) (a b : DWord) : Num DWord :=
  intResult ty sat (f (asInt ty a) (asInt ty b))

/-- A bitwise function. -/
def bits2 (f : DWord → DWord → DWord) (a b : DWord) : Num DWord := pure (f a b)

/-- A pattern of W bits. -/
def pattern (ty : Ty) (x : DWord) : Nat := x.toNat % 2 ^ ty.bits

/-! ### Arithmetic, logic and bits (R146, R147) -/

def execMov (o : Op1) (ty : Ty) (s : State) : Result := int1 o ty.is64 ty pure s
def execIadd (o : Op2) (ty : Ty) (sat : Bool) (s : State) : Result := int2 o ty ty (arith ty sat (· + ·)) s
def execIsub (o : Op2) (ty : Ty) (sat : Bool) (s : State) : Result := int2 o ty ty (arith ty sat (· - ·)) s
def execImul (o : Op2) (ty : Ty) (s : State) : Result := int2 o ty ty (arith ty false (· * ·)) s
def execImulh (o : Op2) (ty : Ty) (s : State) : Result :=
  int2 o ty ty (arith ty false fun a b => (a * b) / 2 ^ ty.bits) s
def execImad (o : Op3) (ty : Ty) (s : State) : Result :=
  int3 o ty ty (fun a b c => intResult ty false (asInt ty a * asInt ty b + asInt ty c)) s
def execImin (o : Op2) (ty : Ty) (s : State) : Result := int2 o ty ty (arith ty false fun a b => min a b) s
def execImax (o : Op2) (ty : Ty) (s : State) : Result := int2 o ty ty (arith ty false fun a b => max a b) s
def execIabs (o : Op1) (ty : Ty) (sat : Bool) (s : State) : Result :=
  int1 o ty.is64 ty (fun a => intResult ty sat ((asInt ty a).natAbs : Int)) s
def execIneg (o : Op1) (ty : Ty) (sat : Bool) (s : State) : Result :=
  int1 o ty.is64 ty (fun a => intResult ty sat (-asInt ty a)) s
def execAnd (o : Op2) (ty : Ty) (s : State) : Result := int2 o ty ty (bits2 (· &&& ·)) s
def execOr (o : Op2) (ty : Ty) (s : State) : Result := int2 o ty ty (bits2 (· ||| ·)) s
def execXor (o : Op2) (ty : Ty) (s : State) : Result := int2 o ty ty (bits2 (· ^^^ ·)) s
def execNot (o : Op1) (ty : Ty) (s : State) : Result :=
  int1 o ty.is64 ty (fun a => pure (BitVec.ofNat 64 (2 ^ ty.bits - 1 - pattern ty a))) s

/-- Shift counts are the unsigned 32 bits of B, whatever the type (R146). -/
def count32 (b : DWord) : Nat := b.toNat % 2 ^ 32

def shiftLeft (ty : Ty) (a : Nat) (n : Nat) : Nat := if ty.bits ≤ n then 0 else a * 2 ^ n % 2 ^ ty.bits
def shiftRight (ty : Ty) (a : Nat) (n : Nat) : Nat := if ty.bits ≤ n then 0 else a / 2 ^ n
/-- Copies of the top bit come in from the left. -/
def shiftArith (ty : Ty) (a : Nat) (n : Nat) : Nat :=
  let n := min n ty.bits
  if 2 ^ (ty.bits - 1) ≤ a then a / 2 ^ n + (2 ^ ty.bits - 2 ^ (ty.bits - n)) else a / 2 ^ n
def rotLeft (ty : Ty) (a : Nat) (n : Nat) : Nat :=
  let k := n % ty.bits
  (a * 2 ^ k) % 2 ^ ty.bits + a / 2 ^ (ty.bits - k)

/-- A shift or rotate of a W-bit pattern by B. -/
def shifted (ty : Ty) (f : Nat → Nat → Nat) (a b : DWord) : Num DWord :=
  pure (BitVec.ofNat 64 (f (pattern ty a) (count32 b)))

def execShl (o : Op2) (ty : Ty) (s : State) : Result := int2 o ty .n32 (shifted ty (shiftLeft ty)) s
def execShr (o : Op2) (ty : Ty) (s : State) : Result := int2 o ty .n32 (shifted ty (shiftRight ty)) s
def execShra (o : Op2) (ty : Ty) (s : State) : Result := int2 o ty .n32 (shifted ty (shiftArith ty)) s
def execRot (o : Op2) (ty : Ty) (right : Bool) (s : State) : Result :=
  int2 o ty .n32 (shifted ty fun a n => if right then rotLeft ty a (ty.bits - n % ty.bits) else rotLeft ty a n) s

/-- The set bits of a pattern, lowest first. -/
def bitsOf (w a : Nat) : List Bool := (upTo w).map fun i => a.testBit i

def execPopc (o : Op1) (ty : Ty) (s : State) : Result :=
  int1 o false ty (fun a => pure (BitVec.ofNat 64 ((bitsOf ty.bits (pattern ty a)).countP id))) s
def execClz (o : Op1) (ty : Ty) (s : State) : Result :=
  int1 o false ty (fun a => pure (BitVec.ofNat 64
    (match pattern ty a with | 0 => ty.bits | n => ty.bits - 1 - Nat.log2 n))) s
def execBrev (o : Op1) (ty : Ty) (s : State) : Result :=
  int1 o ty.is64 ty (fun a => pure (BitVec.ofNat 64
    ((bitsOf ty.bits (pattern ty a)).foldl (fun acc b => 2 * acc + b.toNat) 0))) s

/-- Position and length of R147. -/
def fieldOf (ty : Ty) (b : DWord) : Nat × Nat :=
  let p := min (b.toNat % 256) ty.bits
  (p, min (b.toNat / 256 % 256) (ty.bits - p))

def extract (ty : Ty) (a b : DWord) : DWord :=
  let (p, n) := fieldOf ty b
  if n = 0 then 0
  else
    let f := pattern ty a / 2 ^ p % 2 ^ n
    if ty.signed && 2 ^ (n - 1) ≤ f then wrapTo ty ((f : Int) - 2 ^ n) else BitVec.ofNat 64 f

def insert (ty : Ty) (a b c : DWord) : DWord :=
  let (p, n) := fieldOf ty b
  let m := (2 ^ n - 1) * 2 ^ p
  (a &&& ~~~(BitVec.ofNat 64 m)) ||| ((c <<< p) &&& BitVec.ofNat 64 m)

def execBfe (o : Op2) (ty : Ty) (s : State) : Result := int2 o ty .n32 (bits2 (extract ty)) s
def execBfi (o : Op3) (ty : Ty) (s : State) : Result := int3 o ty .n32 (fun a b c => pure (insert ty a b c)) s

/-! ### Immediates, addresses, comparison, selection (R148 to R151) -/

def execMovi (h : Hdr) (sc : Bool) (ty : Ty) (d : BitVec 8) (val : DWord) (s : State) : Result :=
  laneOp false h (if ty.is64 then 16 else 12) sc ty.is64 d (fun _ _ => []) (fun _ _ => pure val) s

/-- LEA (R149): B is widened by the signedness of its type. -/
def execLea (o : Op2) (ty : Ty) (sh : BitVec 3) (disp : Word) (s : State) : Result :=
  laneOp false o.h 12 o.sc true o.d (uses2 o true ty.is64)
    (fun v l => pure (v.src o.sc .n64 o.a l + (BitVec.ofInt 64 (asInt ty (v.src o.sc ty o.b l)) <<< sh.toNat) +
      disp.signExtend 64)) s

def execIcmp (h : Hdr) (sc : Bool) (cc : Cond) (ty : Ty) (pd : BitVec 3) (a b : Opnd) (s : State) : Result :=
  predOp h 8 sc pd (fun _ m => useSrc sc ty.is64 a m ++ useSrc sc ty.is64 b m)
    (fun v l => cc.holds (asInt ty (v.src sc ty a l)) (asInt ty (v.src sc ty b l))) (fun _ _ => pure 0) s

def execSel (o : Op2) (ty : Ty) (pc : BitVec 3) (s : State) : Result :=
  laneOp false o.h 8 o.sc ty.is64 o.d (fun v m => uses2 o ty.is64 ty.is64 v m ++ useP pc m)
    (fun v l => pure (if lane (v.f.pred pc.toNat) l then v.src o.sc ty o.a l else v.src o.sc ty o.b l)) s

/-- IADDC and ISUBB (R151): a value and a carry per lane, both short class. -/
def carryOp (o : Op2) (ty : Ty) (q : BitVec 3) (ci : Option (BitVec 3)) (f : DWord → DWord → Nat → DWord × Bool)
    (s : State) : Result :=
  let cin := fun (v : View) (l : Nat) => match ci with | some c => (lane (v.f.pred c.toNat) l).toNat | none => 0
  let both := fun (v : View) (l : Nat) => f (v.src o.sc ty o.a l) (v.src o.sc ty o.b l) (cin v l)
  issue o.h.sw 8
    (fun v =>
      let m := v.mask o.h o.sc
      uses2 o ty.is64 ty.is64 v m ++ (match ci with | some c => useP c m | none => []) ++ useDst o.sc ty.is64 o.d m ++
        [⟨.r (.p q.toNat), m, false, false⟩])
    (fun v s => .ok ((s.upds v.f (v.dstUpds o.sc ty.is64 o.d ((v.runs o.h o.sc).map fun l => (l, (both v l).1)))).upd v.f
      (v.predUpd o.h o.sc q fun l => (both v l).2))) s

def execIaddc (o : Op2) (ty : Ty) (q : BitVec 3) (ci : Option (BitVec 3)) (s : State) : Result :=
  carryOp o ty q ci (carryOut ty) s
def execIsubb (o : Op2) (ty : Ty) (q : BitVec 3) (ci : Option (BitVec 3)) (s : State) : Result :=
  carryOp o ty q ci (borrowOut ty) s

/-! ### Predicates, votes and lane exchange (R152 to R156) -/

/-- f and g of R152 in one lane. -/
def plopBit (f : BitVec 4) (g : PlopG) (v : View) (pa pb : BitVec 3) (l : Nat) : Bool :=
  let p := fun (n : BitVec 3) => lane (v.f.pred n.toNat) l
  let r := f.getLsbD (2 * (p pa).toNat + (p pb).toNat)
  match g with
  | .none => r
  | .and c => r && p c
  | .or c => r || p c
  | .xor c => r ^^ p c

def execPlop (h : Hdr) (f : BitVec 4) (g : PlopG) (pd pa pb : BitVec 3) (s : State) : Result :=
  predOp h 8 false pd
    (fun _ m => useP pa m ++ useP pb m ++ match g with | .none => [] | .and c | .or c | .xor c => useP c m)
    (fun v l => plopBit f g v pa pb l) (fun _ _ => pure 0) s

/-- VOTE (R153): the participants are the active lanes. -/
def voteBit (m : VoteMode) (part bits : Mask) : Bool :=
  match m with
  | .any => part &&& bits != 0
  | .all => part &&& ~~~bits == 0
  | .uni => part &&& bits == 0 || part &&& ~~~bits == 0

def execVote (h : Hdr) (m : VoteMode) (pd pa : BitVec 3) (s : State) : Result :=
  predOp h 8 false pd (fun _ m => useP pa m) (fun v _ => voteBit m (v.active h) (v.f.pred pa.toNat)) (fun _ _ => pure 0) s

def execBallot (h : Hdr) (d : BitVec 8) (pa : BitVec 3) (s : State) : Result :=
  laneOp false h 8 false false d (fun _ m => useP pa m)
    (fun v _ => pure ((v.active h &&& v.f.pred pa.toNat).setWidth 64)) s

/-- V2S (R154): fibre-wide and long class; only the selected lane reads, and a last-use mark takes the whole row. -/
def execV2s (sw : Bool) (ty : Ty) (d : BitVec 6) (a : Opnd) (b : BitVec 8) (s : State) : Result :=
  let sel := fun (v : View) => (v.sval b).toNat % 32
  let out := fun (v : View) => (upTo (if ty.is64 then 2 else 1)).any fun i => (quotaRow v.f.quota (a.idx.toNat + i)).isNone
  issue sw 8
    (fun v => useS b v.g.lanes ++ defS d.toNat v.g.lanes ++ useSrc false ty.is64 a
      (if out v then v.g.lanes else if lane v.g.lanes (sel v) then 1#32 <<< sel v else 0))
    (fun v s => .ok (s.defer v.f (Out.of [.s d.toNat (if lane v.g.lanes (sel v) then v.vval ty.is64 a.idx.toNat (sel v)
      else 0)]))) s

/-- The lane whose A a lane receives (R155). -/
def shflFrom (m : ShflMode) (w : Nat) (l b : Nat) : Option Nat :=
  let i := l % w
  let base := l - i
  match m with
  | .idx => some (base + b % w)
  | .up => if b ≤ i then some (base + (i - b)) else none
  | .down => if i + b < w then some (base + (i + b)) else none
  | .xor => some (base + (i ^^^ b) % w)

def execShfl (o : Op2) (ty : Ty) (m : ShflMode) (w : Fin 6) (s : State) : Result :=
  laneOp true o.h 8 false ty.is64 o.d (uses2 o ty.is64 false)
    (fun v l => pure (match shflFrom m (2 ^ w.val) l (count32 (v.src false .n32 o.b l)) with
      | some j => v.vval ty.is64 o.a.idx.toNat (if lane (v.active o.h) j then j else l)
      | none => v.vval ty.is64 o.a.idx.toNat l)) s

/-- Byte `k` of the pool of A and C, or its sign, by a nibble of the selector (R156). -/
def prmtByte (a c : Nat) (nib : Nat) : Nat :=
  let x := (a + c * 2 ^ 32) / 256 ^ (nib % 8) % 256
  if 8 ≤ nib then (if 128 ≤ x then 255 else 0) else x

def prmt (a b c : DWord) : DWord :=
  BitVec.ofNat 64 (((upTo 4).map fun k => prmtByte (a.toNat % 2 ^ 32) (c.toNat % 2 ^ 32) (b.toNat / 16 ^ k % 16) * 256 ^ k).foldl
    (· + ·) 0)

def execPrmt (o : Op3) (s : State) : Result := int3 o .n32 .n32 (fun a b c => pure (prmt a b c)) s

end Sys2Proof.Machine
end

