-- ==== Sys2Proof/Machine/Float.lean ====
section
/-! DEFINITION. The floating-point group (06_floating_point_and_lattice.md R157 to R172). -/

namespace Sys2Proof.Machine

open Sys2Proof

/-! ### Operands -/

/-- A floating operand of a lane, flushed under its class (R158). -/
def View.fp (v : View) (sc : Bool) (ty : Ty) (o : Opnd) (l : Nat) : XVal :=
  decodeFp v.f.fpm (v.f.fp4x.setWidth 16) ty (v.src sc ty o l).toNat

/-- The bits of a packed operand: a scalar register gives bits 31:0, a literal gives its converted value to every element
(R160). -/
def View.packed (v : View) (sc : Bool) (ty : Ty) (o : Opnd) (l e : Nat) : Nat :=
  let w := ty.bits
  let elt := fun (x : Nat) => x / 2 ^ (w * e) % 2 ^ w
  if sc || o.x then
    if o.idx.toNat < 0x40 then elt (v.f.s[o.idx.toNat]!.toNat % 2 ^ 32) else (scalarValue v.f ty o.idx).toNat % 2 ^ w
  else elt (v.vval false o.idx.toNat l).toNat

/-- Element `e` of a packed floating operand. -/
def View.pfp (v : View) (sc : Bool) (ty : Ty) (o : Opnd) (l e : Nat) : XVal :=
  decodeFp v.f.fpm (v.f.fp4x.setWidth 16) ty (v.packed sc ty o l e)

/-! ### Rounding a result -/

/-- Round a result of a lane. -/
def View.round (v : View) (ty : Ty) (rm : RMode) (x : XVal) : Num (BitVec 32) :=
  roundFp v.f.fpm (v.f.fp4x.setWidth 16) ty rm x

/-- A sum whose exact value is zero is −0 under RDN (R163, R172). -/
def zeroSign (fpm : BitVec 32) (rm : RMode) (x : XVal) : XVal :=
  if x.isZero && resolveRm fpm rm == .rdn then .fin true 0 else x

/-- The functions of R163 on exact values. -/
def fmaX (a b c : XVal) : Num XVal := do xadd (← xmul a b) c

def wide (x : BitVec 32) : DWord := x.setWidth 64

/-- One, two or three FP32 sources, one FP32 result. -/
def fp1 (long : Bool) (o : Op1) (f : View → Word → XVal → Num (BitVec 32)) (s : State) : Result :=
  laneOp long o.h 8 o.sc false o.d (uses1 o false)
    (fun v l => do pure (wide (← f v ((v.src o.sc .f32 o.a l).setWidth 32) (v.fp o.sc .f32 o.a l)))) s

def fp2 (o : Op2) (f : View → XVal → XVal → Num (BitVec 32)) (s : State) : Result :=
  laneOp false o.h 8 o.sc false o.d (uses2 o false false)
    (fun v l => do pure (wide (← f v (v.fp o.sc .f32 o.a l) (v.fp o.sc .f32 o.b l)))) s

def fp3 (o : Op3) (f : View → XVal → XVal → XVal → Num (BitVec 32)) (s : State) : Result :=
  laneOp false o.h 8 o.sc false o.d (uses3 o false false false)
    (fun v l => do pure (wide (← f v (v.fp o.sc .f32 o.a l) (v.fp o.sc .f32 o.b l) (v.fp o.sc .f32 o.c l)))) s

/-- A sum rounded to a type. -/
def View.addTo (v : View) (ty : Ty) (rm : RMode) (a b : XVal) : Num (BitVec 32) := do
  v.round ty rm (zeroSign v.f.fpm rm (← xadd a b))
def View.mulTo (v : View) (ty : Ty) (rm : RMode) (a b : XVal) : Num (BitVec 32) := do v.round ty rm (← xmul a b)
def View.fmaTo (v : View) (ty : Ty) (rm : RMode) (a b c : XVal) : Num (BitVec 32) := do
  v.round ty rm (zeroSign v.f.fpm rm (← fmaX a b c))

/-! ### R163 to R165 -/

def execFadd (o : Op2) (rm : RMode) (s : State) : Result := fp2 o (fun v a b => v.addTo .f32 rm a b) s
def execFsub (o : Op2) (rm : RMode) (s : State) : Result := fp2 o (fun v a b => v.addTo .f32 rm a b.neg) s
def execFmul (o : Op2) (rm : RMode) (s : State) : Result := fp2 o (fun v a b => v.mulTo .f32 rm a b) s
def execFfma (o : Op3) (rm : RMode) (s : State) : Result := fp3 o (fun v a b c => v.fmaTo .f32 rm a b c) s

/-- −∞, then the finite values with −0 below +0, then +∞. -/
def XVal.less (a b : XVal) : Bool :=
  match a, b with
  | .nan, _ | _, .nan => false
  | .inf n, .inf m => n && !m
  | .inf n, .fin .. => n
  | .fin .., .inf m => !m
  | .fin n p, .fin m q =>
    let x := (XVal.fin n p).toRat
    let y := (XVal.fin m q).toRat
    decide (x < y) || (x == y && n && !m)

/-- The smaller or larger operand (R164). -/
def pickX (max nan : Bool) (a b : XVal) : XVal :=
  if a.isNan || b.isNan then
    if nan || (a.isNan && b.isNan) then .nan else if a.isNan then b else a
  else if max then (if a.less b then b else a) else (if b.less a then b else a)

/-- FMIN and FMAX set no flag; fo32 applies (R164). -/
def View.pick (v : View) (max nan : Bool) (a b : XVal) : Num (BitVec 32) :=
  pure (quietly (roundFp v.f.fpm 0 .f32 .rne (pickX max nan a b)))

def execFmin (o : Op2) (nan : Bool) (s : State) : Result := fp2 o (fun v a b => v.pick false nan a b) s
def execFmax (o : Op2) (nan : Bool) (s : State) : Result := fp2 o (fun v a b => v.pick true nan a b) s

/-- The floating conditions (R165). -/
def fcondHolds (cc : FCond) (a b : XVal) : Bool :=
  let ord := !a.isNan && !b.isNan
  let eq := ord && (a == b || (a.isZero && b.isZero))
  let lt := fun (x y : XVal) => ord && !eq && x.less y
  match cc with
  | .eq => eq
  | .ne => !eq
  | .lt => lt a b
  | .le => eq || lt a b
  | .gt => lt b a
  | .ge => eq || lt b a
  | .num => ord
  | .nan => !ord

def execFcmp (h : Hdr) (sc : Bool) (cc : FCond) (pd : BitVec 3) (a b : Opnd) (s : State) : Result :=
  predOp h 8 sc pd (fun _ m => useSrc sc false a m ++ useSrc sc false b m)
    (fun v l => fcondHolds cc (v.fp sc .f32 a l) (v.fp sc .f32 b l)) (fun _ _ => pure 0) s

/-! ### R166 to R168 -/

/-- a × 2^n; beyond ±1,000 every rounding is the same. -/
def scaleX (n : Int) (x : XVal) : XVal :=
  match x with
  | .fin s m => .fin s (m * pow2 (max (-1000) (min 1000 n)))
  | x => x

def execFscale (o : Op2) (rm : RMode) (s : State) : Result :=
  laneOp false o.h 8 o.sc false o.d (uses2 o false false)
    (fun v l => do pure (wide (← v.round .f32 rm
      (scaleX (asInt .i32 (v.src o.sc .i32 o.b l)) (v.fp o.sc .f32 o.a l))))) s

/-- FRND (R167): one step of the random state under RST, no flag. -/
def frndX (fpm : BitVec 32) (rm : RMode) (x : XVal) : Num XVal := do
  let rm := resolveRm fpm rm
  match x with
  | .fin n m =>
    let i ← roundInt rm n m
    pure (.fin n (i.natAbs : Rat))
  | x =>
    if rm == .rst then let _ ← nextRng
    pure x

def execFrnd (o : Op1) (rm : RMode) (s : State) : Result :=
  fp1 false o (fun v _ x => do pure (quietly (roundFp 0 0 .f32 .rne (← frndX v.f.fpm rm x)))) s

/-- The class bit of R168. -/
def classBit (ty : Ty) (code : Nat) : Nat :=
  match (fpFmt ty).value (code % 2 ^ ty.bits) with
  | .nan => 8
  | .inf n => if n then 0 else 7
  | .fin n m =>
    if m = 0 then (if n then 3 else 4)
    else if m < (fpFmt ty).minNormal then (if n then 2 else 5)
    else (if n then 1 else 6)

def execFclass (o : Op1) (ty : Ty) (s : State) : Result :=
  laneOp false o.h 8 o.sc false o.d (uses1 o false)
    (fun v l => pure (BitVec.ofNat 64 (2 ^ classBit ty (v.src o.sc ty o.a l).toNat))) s

/-! ### R169, R170 -/

def execFrcp (o : Op1) (rm : RMode) (s : State) : Result := fp1 true o (fun v _ x => do v.round .f32 rm (← rcpX x)) s
def execFsqrt (o : Op1) (rm : RMode) (s : State) : Result := fp1 true o (fun v _ x => do v.round .f32 rm (← sqrtX x)) s
def execFrsq (o : Op1) (s : State) : Result := fp1 true o (fun v a x => do faithful v.f.fpm 0x088 a (← rsqX x)) s
def execFexp2 (o : Op1) (s : State) : Result := fp1 true o (fun v a x => faithful v.f.fpm 0x08A a (exp2X x)) s
def execFlog2 (o : Op1) (s : State) : Result := fp1 true o (fun v a x => do faithful v.f.fpm 0x08B a (← log2X x)) s
def execFsin (o : Op1) (s : State) : Result := fp1 true o (fun v a x => do faithful v.f.fpm 0x08C a (← sinX x)) s
def execFcos (o : Op1) (s : State) : Result := fp1 true o (fun v a x => do faithful v.f.fpm 0x08D a (← cosX x)) s
def execFtanh (o : Op1) (s : State) : Result := fp1 true o (fun v a x => faithful v.f.fpm 0x08E a (tanhX x)) s

/-! ### R171, R172 -/

/-- Two results packed, element 0 rounded first (R161). -/
def pack2 (f : Nat → Num (BitVec 32)) : Num DWord := do
  let lo ← f 0
  let hi ← f 1
  pure (BitVec.ofNat 64 (lo.toNat % 2 ^ 16 + hi.toNat % 2 ^ 16 * 2 ^ 16))

def execFadd2 (o : Op2) (ty : Ty) (rm : RMode) (s : State) : Result :=
  laneOp false o.h 8 o.sc false o.d (uses2 o false false)
    (fun v l => pack2 fun e => v.addTo ty rm (v.pfp o.sc ty o.a l e) (v.pfp o.sc ty o.b l e)) s
def execFmul2 (o : Op2) (ty : Ty) (rm : RMode) (s : State) : Result :=
  laneOp false o.h 8 o.sc false o.d (uses2 o false false)
    (fun v l => pack2 fun e => v.mulTo ty rm (v.pfp o.sc ty o.a l e) (v.pfp o.sc ty o.b l e)) s
def execFfma2 (o : Op3) (ty : Ty) (rm : RMode) (s : State) : Result :=
  laneOp false o.h 8 o.sc false o.d (uses3 o false false false)
    (fun v l => pack2 fun e => v.fmaTo ty rm (v.pfp o.sc ty o.a l e) (v.pfp o.sc ty o.b l e) (v.pfp o.sc ty o.c l e)) s

/-- The exact sum of products and an addend, rounded once (R172). -/
def View.dot (v : View) (rm : RMode) (ps : List (XVal × XVal)) (c : XVal) : Num (BitVec 32) := do
  let ts ← ps.mapM fun p => xmul p.1 p.2
  v.round .f32 rm (zeroSign v.f.fpm rm (← exactSum (ts ++ [c])))

def execFdot2 (o : Op3) (ty : Ty) (rm : RMode) (s : State) : Result :=
  laneOp false o.h 8 o.sc false o.d (uses3 o false false false)
    (fun v l => do pure (wide (← v.dot rm ((upTo 2).map fun e => (v.pfp o.sc ty o.a l e, v.pfp o.sc ty o.b l e))
      (v.fp o.sc .f32 o.c l)))) s

/-- The other FP8 format. -/
def otherFp8 : Ty → Ty
  | .e4m3 => .e5m2
  | _ => .e4m3

def execFdot4 (o : Op3) (ty : Ty) (rm : RMode) (mx : Bool) (s : State) : Result :=
  let tb := if mx then otherFp8 ty else ty
  laneOp false o.h 8 o.sc false o.d (uses3 o false false false)
    (fun v l => do pure (wide (← v.dot rm ((upTo 4).map fun e => (v.pfp o.sc ty o.a l e, v.pfp o.sc tb o.b l e))
      (v.fp o.sc .f32 o.c l)))) s

end Sys2Proof.Machine
end

