-- ==== Sys2Proof/Machine/Control.lean ====
section
/-! DEFINITION. Control: NOP (R66), branches and gangs (R129 to R135), rendezvous and exit (R136 to R138), local time
(R141), YIELD (R123), and the trap, return and segment instructions (R388 to R390). -/

namespace Sys2Proof.Machine

open Sys2Proof

/-- NOP (R66). -/
def execNop (h : Hdr) (len : Len) (s : State) : Result := issue h.sw len.bytes (fun _ => []) (fun _ s => .ok s) s

/-! ### Branching (R130, R134) -/

/-- The distinct next PCs of a gang's lanes, in order of the lowest lane that has each. -/
def nextPcs (lanes : Mask) (next : Nat → VA) : List VA :=
  (lanesOf lanes).foldl (fun acc l => addOnce acc (next l)) []

/-- The lanes of a gang sorted by next PC (R130): the part with the lowest lane keeps the gang's name, the others become
new gangs. -/
def Fibre.part (f : Fibre) (g : Gang) (next : Nat → VA) : Fibre :=
  match nextPcs g.lanes next with
  | [] => f
  | p :: ps =>
    let lanesAt := fun (q : VA) => maskOf fun l => lane g.lanes l && next l == q
    let new := ps.mapIdx fun i q =>
      ({ id := f.nextGang + i, lanes := lanesAt q, pc := q, st := .run, count := 0 } : Gang)
    let old := f.gangs.map fun x => if x.id == g.id then { x with lanes := lanesAt p, pc := p } else x
    { f with gangs := sortGangs (old ++ new), nextGang := f.nextGang + ps.length }

/-- The issue of a branching instruction: its checks and register effects, then the gangs by next PC. -/
def issueBranch (h : Hdr) (len : Nat) (us : View → List Use) (body : View → State → Chk (State × (Nat → VA)))
    (s : State) : Result :=
  match s.view? with
  | none => .refused .noIssuer
  | some v =>
    match (do v.checks ⟨false, false⟩ (us v); body v (s.consume v (us v)) : Chk (State × (Nat → VA))) with
    | .ok (s', next) => .next ((s'.noteDead v (us v)).modFibre v.f.ref fun f =>
        (f.part v.g fun l => if lane (v.active h) l then next l else v.iss.pc + BitVec.ofNat 56 len).afterIssue
          v.iss.gang h.sw)
    | .error e => e.outcome s v h.sw

/-- The target of a PC-relative branch (R133). -/
def View.relative (v : View) (off : Word) : VA := v.iss.pc + off.signExtend 56

/-- The register target in a lane (R133). -/
def View.target (v : View) (a : Opnd) (l : Nat) : VA := (v.src false .n64 a l).setWidth 56

/-- The Misaligned check of register targets (R133). -/
def View.checkTargets (v : View) (m : Mask) (a : Opnd) : Chk Unit :=
  let bad := m &&& maskOf fun l => (v.target a l).extractLsb' 0 2 != 0
  v.trapIf .misaligned bad ((v.target a (lowest bad)).setWidth 64)

def execBra (h : Hdr) (off : Word) (s : State) : Result :=
  issueBranch h 12 (fun _ => []) (fun v s => .ok (s, fun _ => v.relative off)) s

def execBrx (h : Hdr) (a : Opnd) (s : State) : Result :=
  issueBranch h 8 (fun v => useSrc false true a (v.active h))
    (fun v s => do v.checkTargets (v.active h) a; pure (s, v.target a)) s

/-- The link of a call (R134). -/
def View.link (v : View) (h : Hdr) (d : BitVec 8) (len : Nat) : List RegUpd :=
  v.vecUpds true d.toNat ((lanesOf (v.active h)).map fun l => (l, (v.iss.pc + BitVec.ofNat 56 len).setWidth 64))

def execCall (h : Hdr) (d : BitVec 8) (off : Word) (s : State) : Result :=
  issueBranch h 12 (fun v => useDst false true d (v.active h))
    (fun v s => .ok (s.upds v.f (v.link h d 12), fun _ => v.relative off)) s

def execCallx (h : Hdr) (d : BitVec 8) (a : Opnd) (s : State) : Result :=
  issueBranch h 8 (fun v => useSrc false true a (v.active h) ++ useDst false true d (v.active h))
    (fun v s => do v.checkTargets (v.active h) a; pure (s.upds v.f (v.link h d 8), v.target a)) s

def execRet (h : Hdr) (a : Opnd) (s : State) : Result :=
  issueBranch h 8 (fun v => useSrc false true a (v.active h))
    (fun v s => do v.checkTargets (v.active h) a; pure (s, v.target a)) s

/-- The header of a scalar-form DBNZ once its guard is decided: every lane takes the one decision (R134). -/
def everyLane (h : Hdr) (taken : Bool) : Hdr := { h with pg := 7, pn := !taken }

/-- DBNZ (R134): D is read and written; the scalar form decrements its 64-bit register once. -/
def execDbnz (h : Hdr) (sc : Bool) (d : BitVec 8) (off : Word) (s : State) : Result :=
  let dec := fun (v : View) (l : Nat) =>
    if sc then v.f.s[d.toNat]! - 1 else ((v.vval false d.toNat l).setWidth 32 - 1 : Word).setWidth 64
  let use := fun (v : View) => match sc with
    | true => [⟨.r (.s d.toNat), v.mask h true, true, false⟩]
    | false => useRun 1 d.toNat (v.active h) false
  match sc with
  | true =>
    match s.view? with
    | none => .refused .noIssuer
    | some v0 => issueBranch (everyLane h (v0.scalarGuard h)) 12 use (fun v s =>
        .ok (if v.scalarGuard h then s.upd v.f (.s d.toNat (dec v 0)) else s,
          fun _ => if dec v 0 != 0 then v.relative off else v.iss.pc + 12)) s
  | false => issueBranch h 12 use (fun v s =>
      .ok (s.upds v.f (v.vecUpds false d.toNat ((lanesOf (v.active h)).map fun l => (l, dec v l))),
        fun l => if dec v l != 0 then v.relative off else v.iss.pc + 12)) s

/-! ### Rendezvous and exit (R136 to R138) -/

/-- Where a gang waits, if it waits at a rendezvous. -/
def Gang.meet (g : Gang) : Option (Byte × VA) :=
  match g.st with
  | .rendezvous id => some (id, g.pc)
  | _ => none

/-- Every gang waits at a rendezvous. -/
def Fibre.allMeet (f : Fibre) : Bool := f.gangs.all fun g => g.meet.isSome

/-- They all wait at one. -/
def Fibre.allMatch (f : Fibre) : Bool :=
  f.gangs.all fun g => g.meet.isSome && g.meet == (f.gangs.head?.bind Gang.meet)

/-- The waiting gangs merge into one, named `id`, at the PC past the REGANG (R137). -/
def Fibre.merge (f : Fibre) (id : Nat) : Fibre :=
  match f.gangs.head? with
  | none => f
  | some g => { f with
      gangs := [{ id := id, lanes := unionMask (f.gangs.map (·.lanes)), pc := g.pc + 8, st := .run, count := 0 }],
      turn := id, st := match f.st with | .parked .waits => .run | x => x }

/-- REGANG (R136, R137). -/
def execRegang (sw : Bool) (a : BitVec 8) (s : State) : Result :=
  match s.view? with
  | none => .refused .noIssuer
  | some v =>
    match (v.checks ⟨false, false⟩ (useS a v.g.lanes) : Chk Unit) with
    | .error e => e.outcome s v sw
    | .ok () =>
      let arrive : GangSt := .rendezvous ((v.sval a).setWidth 8)
      let there := v.f.modGang v.iss.gang fun g => { g with st := arrive }
      if !v.f.parted then .next (s.retire v sw 8)
      else if there.allMeet && !there.allMatch then (v.stop .collectiveDivergence v.g.lanes).outcome s v sw
      else if there.allMatch then
        .next (s.modFibre v.f.ref fun f =>
          ((f.modGang v.iss.gang fun g => { g with st := arrive }).merge v.iss.gang).afterIssue v.iss.gang sw)
      else .next (s.modFibre v.f.ref fun f => { f.beginWait v.iss.gang arrive sw with age := 0 })

/-- The lanes of `m` leave gang `g` and the fibre (R138): a gang with no lane left ceases to exist and the turn passes
(R131), handler mode ends with its gang (R382), and a fibre with no lane left waits for its results (R107). -/
def Fibre.exitLanes (f : Fibre) (g : Nat) (m : Mask) (sw : Bool) : Fibre :=
  let live := f.live &&& ~~~m
  let f := { f with live := live, age := 0 }
  let f := f.modGang g fun x => { x with lanes := x.lanes &&& ~~~m }
  if f.gangs.any fun x => x.id == g && x.lanes == 0 then
    let f := { f with hmode := f.hmode && f.hgang != g }
    let f := f.passTurn
    let f := { f with gangs := f.gangs.filter fun x => !(x.id == g) }
    if live == 0 then { f with st := .parked .results }
    else if sw && f.st == .run && !f.out.isEmpty then { f with st := .parked .results }
    else f.parkIfIdle
  else ({ f with gangs := sortGangs (f.advance g 8).gangs } : Fibre).afterIssue g sw

/-- What an exit does to gangs that now all wait at rendezvous (R137). -/
def State.meetAfterExit (s : State) (r : FibreRef) : State :=
  match s.fibre? r with
  | none => s
  | some f =>
    match f.gangs.head? with
    | none => s
    | some g =>
      if !f.allMeet then s
      else if f.allMatch then s.modFibre r fun f => f.merge g.id
      else (s.modFibre r fun f => { f.modGang g.id (fun x => { x with st := .run }) with
          st := match f.st with | .parked .waits => .run | x => x }).takeTrap r g.id
        { code := .collectiveDivergence, info := 0, rp := false, asy := false, epc := g.pc, eaddr := 0, emask := g.lanes }

/-- EXIT (R138). -/
def execExit (h : Hdr) (s : State) : Result :=
  match s.view? with
  | none => .refused .noIssuer
  | some v =>
    match (v.checks ⟨false, false⟩ [] : Chk Unit) with
    | .error e => e.outcome s v h.sw
    | .ok () =>
      if v.active h == 0 then .next (s.retire v h.sw 8)
      else .next ((s.modFibre v.f.ref fun f => f.exitLanes v.iss.gang (v.active h) h.sw).meetAfterExit v.f.ref)

/-! ### YIELD and local time -/

/-- YIELD (R123): the fibre gives up its slot, which passes to the next ready fibre, itself last. -/
def execYield (sw : Bool) (s : State) : Result :=
  issue sw 8 (fun _ => [])
    (fun v s => .ok ((s.modSlot v.f fun sl => { sl with holder := none, last := v.f.pos }).modFibre v.f.ref fun f =>
      if sw then f else f.passTurn)) s

/-- RDCYC.ord that still waits for the results its fibre has outstanding (R141). -/
def View.waitsOrd (v : View) (h : Hdr) (sc ord : Bool) : Bool := ord && !v.f.out.isEmpty && !(v.runs h sc).isEmpty

/-- RDCYC (R141): with .ord the fibre first waits, so D is tested for a pending result only when the instruction issues again. -/
def execRdcyc (h : Hdr) (sc ord : Bool) (d : BitVec 8) (s : State) : Result :=
  issue h.sw 8 (fun v => if v.waitsOrd h sc ord then [] else useDst sc true d (v.mask h sc))
    (fun v s =>
      if v.waitsOrd h sc ord then .error .hold
      else .ok (s.upds v.f (v.dstUpds sc true d ((v.runs h sc).map fun l => (l, s.cyc[v.core]!))))) s

/-! ### Traps, return, segments (R386 to R390) -/

def execTrap (h : Hdr) (n : BitVec 8) (s : State) : Result :=
  issue h.sw 8 (fun _ => [])
    (fun v s => if v.active h == 0 then .ok s else .error (v.stop .softTrap (v.active h) 0 n)) s

def execBkpt (h : Hdr) (s : State) : Result :=
  issue h.sw 8 (fun _ => [])
    (fun v s => if v.active h == 0 then .ok s else .error (v.stop .breakpoint (v.active h))) s

/-- RTT (R389). -/
def execRtt (sw : Bool) (s : State) : Result :=
  match s.view? with
  | none => .refused .noIssuer
  | some v =>
    match (do
        v.checks ⟨true, false⟩ []
        v.require .misaligned (v.f.epc.extractLsb' 0 2 == 0) : Chk Unit) with
    | .error e => e.outcome s v sw
    | .ok () => .next (s.modFibre v.f.ref fun f => (f.returnFromTrap.afterIssue v.iss.gang sw).restTurn)

/-- The first check of step 10 for the system instructions (R387). -/
def View.sysop (v : View) : Chk Unit := v.require .permission v.c.sysop

/-- The number of a space, which is the number of its segment (R25, R188). -/
def segOf : Space → Nat
  | .prv => 0 | .tm => 1 | .cl => 2 | .gl => 3 | .ko => 4 | .rm => 5

/-- SETSEG (R390). -/
def execSetseg (sw lim : Bool) (sp : Space) (a : BitVec 8) (s : State) : Result :=
  issuePriv sw 8 (fun v => useS a v.g.lanes)
    (fun v s => do
      v.sysop
      let x := v.sval a
      if lim then v.require .segmentLimit (decide (x.toNat ≤ 2 ^ 56)) x
      let n := segOf sp
      pure (s.modFibre v.f.ref fun f => { f with
        seg := f.seg.set! n (if lim then { f.segment n with limit := x } else { f.segment n with base := segBase n (x.setWidth 56) }) })) s

/-- GETSEG (R390). -/
def execGetseg (sw lim : Bool) (sp : Space) (d : BitVec 6) (s : State) : Result :=
  issue sw 8 (fun v => defS d.toNat v.g.lanes)
    (fun v s =>
      let g := v.f.segment (segOf sp)
      .ok (s.upd v.f (.s d.toNat (if lim then g.limit else (segBase (segOf sp) g.base).setWidth 64)))) s

end Sys2Proof.Machine
end

