-- ==== Sys2Proof/Machine/Mem.lean ====
section
/-! DEFINITION. Memory: bytes and words of home memory and scratchpads in canonical form, copies in the L1s and die caches
(R233 to R236), writing through and discarding, and the levels that serve a scope (R215). -/

namespace Sys2Proof.Machine

open Sys2Proof

/-! ### Bytes in canonical form -/

/-- What a byte reads as: 0 where nothing is listed (log entry 1; for scratchpads R353). -/
def byteAt : List Host.Cell → Nat → Byte
  | [], _ => 0
  | (x, b) :: m, a => if a = x then b else byteAt m a

/-- A write of one byte that keeps the canonical form. -/
def putByte : List Host.Cell → Nat → Byte → List Host.Cell
  | [], a, b => if b = 0 then [] else [(a, b)]
  | (x, y) :: m, a, b =>
    if a < x then (if b = 0 then (x, y) :: m else (a, b) :: (x, y) :: m)
    else if a = x then (if b = 0 then m else (a, b) :: m)
    else (x, y) :: putByte m a b

/-- Addresses rise strictly from above `lo`, and no entry is 0. -/
def wfFrom : Nat → List Host.Cell → Bool
  | _, [] => true
  | lo, (x, b) :: m => decide (lo ≤ x) && b != 0 && wfFrom (x + 1) m

/-- The canonical form. -/
def Memory.wf (m : Memory) : Bool := wfFrom 0 m

/-- `n` bytes from an address, the lowest first. -/
def bytesAt (m : List Host.Cell) (a n : Nat) : List Byte := (upTo n).map fun i => byteAt m (a + i)

def putBytes (m : List Host.Cell) (a : Nat) (bs : List Byte) : List Host.Cell :=
  (bs.zip (upTo bs.length)).foldl (fun m p => putByte m (a + p.2) p.1) m

/-- A little-endian value of `n` bytes (R5). -/
def valueAt (m : List Host.Cell) (a n : Nat) : Nat := leNat (bytesAt m a n)

/-! ### Home -/

/-- The word of home whose number is `w`. -/
def State.homeWord (s : State) (w : Nat) : Word := BitVec.ofNat 32 (valueAt s.mem (4 * w) 4)

/-- Raise or clear a mark. -/
def mark (on : Bool) (l : List Nat) (w : Nat) : List Nat := if on then addOnce l w else l.filter fun x => !(x == w)

/-- A write of a word at home with its poison mark (R477), forwarded to every replica (R207, R245). -/
def State.putHome (s : State) (w : Nat) (x : Word) (poison : Bool) : State :=
  { s with
    mem := putBytes s.mem (4 * w) (leBytes 4 x.toNat), poison := mark poison s.poison w,
    copies := s.copies.map fun c => if c.word == w && c.repl && !c.dirty then { c with val := x, poison := poison } else c }

/-- A 64-bit little-endian word at home. -/
def State.home64 (s : State) (pa : Nat) : DWord := BitVec.ofNat 64 (valueAt s.mem pa 8)

/-- Requests for a physical address of a home die are answered with errors (R466, R468); the home die of a table or of the
device's own data is that of its HBM stack (R23). -/
def State.gone (s : State) (die : Option Nat) (pa : Nat) : Bool :=
  (match die with | some d => (s.dies.getD d Die.reset).errs | none => false) ||
    (s.pdies.any (fun p => p.st == .failed) && decide (2 ^ 40 ≤ pa) &&
      (if pa < 2 ^ 51 then (s.pdies.getD (Config.tier2Port (pa / 4096)).val PortDie.reset).st == .failed
       else (s.pdies.getD 0 PortDie.reset).st == .failed))

def hbmDie (pa : Nat) : Option Nat := if pa < 0xC000000000 then some (pa / 2 ^ 36 / 3) else none

def State.lost (s : State) (pa : Nat) : Bool := s.gone (hbmDie pa) pa

/-! ### Home through a page: encryption and compression (R194, R208, R209) -/

/-- The key that the controllers apply to a unit of 16 bytes for a key id (R194, R463): none for id 0 and for host memory. -/
def State.keyAt (s : State) (k : Byte) (u : Nat) : BitVec 512 :=
  if k == 0 || decide (2 ^ 47 ≤ u) then 0 else (aget s.keys k).getD 0

/-- The key under which a unit was last written. -/
def State.lockOf (s : State) (u : Nat) : BitVec 512 := (aget s.locks u).getD 0

/-- A unit as it reads under a key id. -/
def State.unitAs (s : State) (k : Byte) (u : Nat) : BitVec 128 :=
  let x := BitVec.ofNat 128 (valueAt s.mem (16 * u) 16)
  if s.lockOf u == s.keyAt k u then x else Config.recipher (s.lockOf u) (s.keyAt k u) u x

/-- A word of home as it reads under a key id. -/
def State.homeWordAs (s : State) (k : Byte) (w : Nat) : Word :=
  if s.lockOf (w / 4) == s.keyAt k (w / 4) then s.homeWord w else BitVec.ofNat 32 ((s.unitAs k (w / 4)).toNat / 2 ^ (32 * (w % 4)))

/-- Bytes of home as they read under a key id. -/
def State.homeBytes (s : State) (k : Byte) (pa n : Nat) : List Byte :=
  if (upTo ((pa + n + 15) / 16 - pa / 16)).all fun i => s.lockOf (pa / 16 + i) == s.keyAt k (pa / 16 + i) then bytesAt s.mem pa n
  else (upTo n).map fun i => BitVec.ofNat 8 ((s.homeWordAs k ((pa + i) / 4)).toNat / 2 ^ (8 * ((pa + i) % 4)))

/-- A little-endian value of home under a key id. -/
def State.homeNat (s : State) (k : Byte) (pa n : Nat) : Nat := leNat (s.homeBytes k pa n)

/-- Before a write under a key id, the unit holds what it reads as under that key. -/
def State.relock (s : State) (k : Byte) (u : Nat) : State :=
  if s.lockOf u == s.keyAt k u then s
  else { s with mem := putBytes s.mem (16 * u) (leBytes 16 (s.unitAs k u).toNat)
                locks := if s.keyAt k u == 0 then adel s.locks u else aset s.locks u (s.keyAt k u) }

/-- A write of a word at home under a key id. -/
def State.putHomeAs (s : State) (k : Byte) (w : Nat) (x : Word) (poison : Bool) : State := (s.relock k (w / 4)).putHome w x poison

/-- Every byte of a 256-byte block is 0. -/
def State.blockZero (s : State) (b : Nat) : Bool := (upTo 64).all fun i => s.homeWord (64 * b + i) == 0

/-- The metadata code that the device gives a block's contents (R208). -/
def State.packed (s : State) (b : Nat) : BitVec 4 :=
  if s.blockZero b then 8 else BitVec.ofNat 4 (Config.sectorCode (valueAt s.mem (256 * b) 256)).val

/-- The metadata code of a block (R208): that of its contents where no write of the page has set it. -/
def State.codeOf (s : State) (b : Nat) : BitVec 4 := (aget s.codes b).getD (s.packed b)

/-- The counters of one die cache slice (R209), updated. -/
def State.modCmp (s : State) (die line : Nat) (u : CmpCount → CmpCount) : State :=
  let key := die * 16 + (Config.slice line).val
  { s with cmp := aset s.cmp key (u ((aget s.cmp key).getD ⟨0, 0, 0, 0, 0, 0⟩)) }

/-- A read of the compressed block that holds an address, at its home die (R208, R209): the counters, and whether its code is reserved. -/
def State.readBlock (s : State) (die pa : Nat) : State × Bool :=
  let code := (s.codeOf (pa / 256)).toNat
  let n := if code = 8 then 0 else code + 1
  (s.modCmp die (pa / 128) fun c =>
    let g := (Config.sectorGuess (pa / 256) c.rd).val
    { c with
      rd := c.rd + 1, zero := if code = 8 then c.zero + 1 else c.zero, hit := if g = n then c.hit + 1 else c.hit
      short := if g < n then c.short + 1 else c.short, long := if n < g then c.long + 1 else c.long },
   decide (9 ≤ code))

/-- A write of the compressed block that holds an address replaces its code (R208, R209). -/
def State.writeBlock (s : State) (die pa : Nat) : State :=
  ({ s with codes := aset s.codes (pa / 256) (s.packed (pa / 256)) } : State).modCmp die (pa / 128) fun c => { c with wr := c.wr + 1 }

/-- A word of home as an access through its page reads it: it is in error when it is poisoned, when the code of its block is reserved
(R208) and when its home answers with errors (R466). -/
def State.readHome (s : State) (m : Mapped) : Word × Bool :=
  if s.gone (some m.die) m.pa then (0, true)
  else (s.homeWordAs m.key (m.pa / 4), s.poison.contains (m.pa / 4) || (m.cp && decide (9 ≤ (s.codeOf (m.pa / 256)).toNat)))

/-- The compressed blocks of the words of one access, each once, with their home dies. -/
def blocksOf (ms : List Mapped) : List (Nat × Nat) := (ms.filterMap fun m => if m.cp then some (m.die, m.pa / 256) else none).foldl addOnce []

/-- One access at home reads, or writes, each compressed block that it touches once (R209). -/
def State.countReads (s : State) (ms : List Mapped) : State :=
  (blocksOf (ms.filter fun m => !s.gone (some m.die) m.pa)).foldl (fun s b => (s.readBlock b.1 (256 * b.2)).1) s
def State.countWrites (s : State) (ms : List Mapped) : State :=
  (blocksOf (ms.filter fun m => !s.gone (some m.die) m.pa)).foldl (fun s b => s.writeBlock b.1 (256 * b.2)) s

/-- A write of a word of home through its page. -/
def State.writeHome (s : State) (m : Mapped) (x : Word) (poison : Bool) : State :=
  let s := s.putHomeAs m.key (m.pa / 4) x poison
  if m.cp then s.writeBlock m.die m.pa else s

/-- `n` 4-byte words of home from a word-aligned address, written with whole words. -/
def State.putHomeBytes (s : State) (pa : Nat) (bs : List Byte) : State :=
  { s with mem := putBytes s.mem pa bs }

/-! ### Copies -/

def State.copy? (s : State) (p : CopyAt) (w : Nat) : Option Copy := s.copies.find? fun c => c.pos == p && c.word == w

def State.putCopy (s : State) (c : Copy) : State :=
  { s with copies :=
      if (s.copy? c.pos c.word).isSome then s.copies.map fun x => if x.pos == c.pos && x.word == c.word then c else x
      else s.copies ++ [c] }

/-- The core and die through which an agent reaches memory. -/
structure Agent where
  core : Nat
  die : Nat
  deriving DecidableEq, Repr

def View.agent (v : View) : Agent := ⟨v.core, v.die⟩

/-- The words of a 128-byte line. -/
def lineWords (line : Nat) : List Nat := (upTo 32).map fun i => 32 * line + i

/-! ### Capacity (R22, R31) -/

/-- The lines that a cache holds, oldest first. -/
def State.linesAt (s : State) (p : CopyAt) : List Nat :=
  s.copies.foldl (fun l c => if c.pos == p then addOnce l (c.word / 32) else l) []

/-- The teams that a core holds. -/
def State.coreTeams (s : State) (core : Nat) : List Team :=
  s.teams.filter fun t => t.core == core && s.clusters.any fun c => c.id == t.cl && c.placed

/-- The lines that a cache has room for: 64 MiB in a die cache; in an L1 what the scratchpads of its core's teams leave of 1.5 MiB; 16 KiB in
a scale cache. -/
def State.linesFor (s : State) : CopyAt → Nat
  | .dc _ => 524288
  | .l1 core => 12288 - 384 * ((s.coreTeams core).map (·.k)).sum
  | .sc _ => 128

/-- The virtual address and ASID under which a cache's line was filled (R240): those of the access that brings its first word. -/
def State.tagAt (s : State) (p : CopyAt) (w : Nat) (asid : BitVec 16) (va : VA) : BitVec 16 × VA :=
  match s.copies.find? fun c => c.pos == p && c.word / 32 == w / 32 with
  | some c => (c.asid, c.va + BitVec.ofNat 56 (4 * (w % 32)) - BitVec.ofNat 56 (4 * (c.word % 32)))
  | none => (asid, va)

/-- A copy as it joins the line that a cache holds. -/
def State.tagged (s : State) (c : Copy) : Copy :=
  let t := s.tagAt c.pos c.word c.asid c.va
  { c with asid := t.1, va := t.2 }

/-! ### Writing through (R235) -/

/-- Write a dirty word of a die cache through to home; a home that answers with errors makes the word lost and a context error
of the page's context (R466). -/
def State.throughDcWord (s : State) (die : Nat) (w : Nat) : State :=
  match s.copy? (.dc die) w with
  | some c =>
    if c.dirty then
      if s.gone (some c.home) (4 * w) then
        ({ s with copies := s.copies.filter fun x => !(x.pos == c.pos && x.word == w) }).contextError c.asid (4 * w)
      else (s.putCopy { c with dirty := false }).putHomeAs c.key w c.val c.poison
    else s
  | none => s

/-- Write the dirty words of a list through from a die cache: each compressed block is written once (R208). -/
def State.throughDcs (s : State) (die : Nat) (ws : List Nat) : State :=
  let blocks := (ws.filterMap fun w => (s.copy? (.dc die) w).bind fun c =>
    if c.dirty && c.cp && !s.gone (some c.home) (4 * w) then some (c.home, w / 64) else none).foldl addOnce []
  blocks.foldl (fun s b => s.writeBlock b.1 (256 * b.2)) (ws.foldl (fun s w => s.throughDcWord die w) s)

def State.throughDc (s : State) (die : Nat) (w : Nat) : State := s.throughDcs die [w]

/-- The words of a line that a cache holds. -/
def State.heldWords (s : State) (p : CopyAt) (line : Nat) : List Nat :=
  (s.copies.filter fun c => c.pos == p && c.word / 32 == line).map (·.word)

/-- A die cache without a line: its dirty words go home first (R234, R235). -/
def State.evictDc (s : State) (die line : Nat) : State :=
  let s := s.throughDcs die (s.heldWords (.dc die) line)
  { s with copies := s.copies.filter fun c => !(c.pos == .dc die && c.word / 32 == line) }

/-- Room in a die cache for one more line: the oldest give way (R22, log entry 13). -/
def State.roomDc (s : State) (die line : Nat) : State :=
  let ls := s.linesAt (.dc die)
  if ls.contains line then s else (ls.take (ls.length + 1 - s.linesFor (.dc die))).foldl (fun s l => s.evictDc die l) s

/-- A word put into a die cache. -/
def State.putDc (s : State) (die : Nat) (c : Copy) : State :=
  let s := s.roomDc die (c.word / 32)
  s.putCopy (s.tagged { c with pos := .dc die })

/-- Write a dirty word of an L1 through to its die cache. -/
def State.throughL1 (s : State) (a : Agent) (w : Nat) : State :=
  match s.copy? (.l1 a.core) w with
  | some c => if c.dirty then (s.putCopy { c with dirty := false }).putDc a.die c else s
  | none => s

/-- An L1 without a line: its dirty words go to the die cache first. -/
def State.evictL1 (s : State) (a : Agent) (line : Nat) : State :=
  let s := (s.heldWords (.l1 a.core) line).foldl (fun s w => s.throughL1 a w) s
  { s with copies := s.copies.filter fun c => !(c.pos == .l1 a.core && c.word / 32 == line) }

/-- Room in an L1 for one more line (R31, log entry 13). -/
def State.roomL1 (s : State) (a : Agent) (line : Nat) : State :=
  let ls := s.linesAt (.l1 a.core)
  if ls.contains line then s else (ls.take (ls.length + 1 - s.linesFor (.l1 a.core))).foldl (fun s l => s.evictL1 a l) s

/-- A scale cache without the words that a test picks; it holds none dirty. -/
def State.dropSc (s : State) (core : Nat) (f : Copy → Bool) : State :=
  { s with copies := s.copies.filter fun c => !(c.pos == .sc core && f c) }

/-- A word put into an L1, which the scale cache then holds no more; an L1 to which the scratchpads leave no line keeps nothing, so the word is
written through (R31). -/
def State.putL1 (s : State) (a : Agent) (c : Copy) : State :=
  let s := s.dropSc a.core fun x => x.word == c.word
  if s.linesFor (.l1 a.core) == 0 then
    { s with copies := s.copies.filter fun x => !(x.pos == CopyAt.l1 a.core && x.word == c.word) }.putDc a.die c
  else
    let s := s.roomL1 a (c.word / 32)
    s.putCopy (s.tagged { c with pos := .l1 a.core })

/-! ### Fills (R234) -/

/-- Fill the missing words of a line into the die cache from home (R234): one read of a compressed block. -/
def State.fillDc (s : State) (die : Nat) (m : Mapped) (line : Nat) : State :=
  let new := (lineWords line).filter fun w => (s.copy? (.dc die) w).isNone
  if new.isEmpty || s.gone (some m.die) m.pa then s
  else
    let s := s.roomDc die line
    let (s, bad) := if m.cp then s.readBlock m.die (128 * line) else (s, false)
    let word : Nat → Copy := fun w =>
        { pos := .dc die, word := w, val := s.homeWordAs m.key w, dirty := false, poison := s.poison.contains w || bad, asid := m.asid,
          va := BitVec.ofNat 56 (m.va.toNat + 4 * w - m.pa), home := m.die, repl := m.rp, cp := m.cp, key := m.key }
    { s with copies := s.copies ++ new.map fun w => s.tagged (word w) }

/-- A word as the L1 level of a core holds it: in the L1, or in the scale cache (R286). -/
def State.nearCopy (s : State) (core w : Nat) : Option Copy := (s.copy? (.l1 core) w).or (s.copy? (.sc core) w)

/-- The missing words of a line come to a cache of the L1 level from the die cache, or from the scale cache where that holds them. -/
def State.bring (s : State) (a : Agent) (pos : CopyAt) (m : Mapped) (line : Nat) : State :=
  let new := (lineWords line).filter fun w => (s.copy? (.l1 a.core) w).isNone && (s.copy? pos w).isNone
  { s with copies := s.copies ++ new.filterMap fun w =>
      ((s.copy? (.sc a.core) w).or (s.copy? (.dc a.die) w)).map fun c =>
        s.tagged { c with pos := pos, dirty := false, asid := m.asid, va := BitVec.ofNat 56 (m.va.toNat + 4 * w - m.pa) } }

/-- Fill the missing words of a line into an L1 from its die cache, which fills first (R234); an L1 without a line to spare holds none
(R31). -/
def State.fillL1 (s : State) (a : Agent) (m : Mapped) (line : Nat) : State :=
  if s.linesFor (.l1 a.core) == 0 then s.fillDc a.die m line
  else (((s.roomL1 a line).fillDc a.die m line).bring a (.l1 a.core) m line).dropSc a.core fun c => c.word / 32 == line

/-- Room in a scale cache for one more line: the oldest give way (R31, log entry 13). -/
def State.roomSc (s : State) (core line : Nat) : State :=
  let ls := s.linesAt (.sc core)
  if ls.contains line then s else (ls.take (ls.length + 1 - s.linesFor (.sc core))).foldl (fun s l => s.dropSc core fun c => c.word / 32 == l) s

/-- Fill the words of a line that the L1 does not hold into the scale cache (R286). -/
def State.fillSc (s : State) (a : Agent) (m : Mapped) (line : Nat) : State :=
  (((s.roomSc a.core line).fillDc a.die m line).bring a (.sc a.core) m line)

/-! ### Levels, discarding (R215, R229, R230) -/

/-- The levels of R215. -/
inductive Level where | l1 | dc | home
  deriving DecidableEq, Repr

def levelOf : Scope → Level
  | .lane | .fibre | .slot | .team => .l1
  | .cluster | .die => .dc
  | .device | .host | .pod | .span => .home

/-- Write the words of an access that are dirty at a narrower level of the agent through to a level (R218, R236): a compressed block is
written once (R209). -/
def State.throughWords (s : State) (a : Agent) (lv : Level) (ws : List Nat) : State :=
  match lv with
  | .l1 => s
  | .dc => ws.foldl (fun s w => s.throughL1 a w) s
  | .home => (ws.foldl (fun s w => s.throughL1 a w) s).throughDcs a.die ws

/-- The same for one word. -/
def State.through (s : State) (a : Agent) (lv : Level) (w : Nat) : State :=
  match lv with
  | .l1 => s
  | .dc => s.throughL1 a w
  | .home => (s.throughL1 a w).throughDc a.die w

/-- The numbers of the words that a cache holds and a test picks. -/
def State.wordsIn (s : State) (p : CopyAt) (f : Copy → Bool) : List Nat :=
  (s.copies.filter fun c => c.pos == p && f c).map (·.word)

/-- Write every dirty word that a test picks through to a level. -/
def State.throughAll (s : State) (a : Agent) (lv : Level) (f : Copy → Bool) : State :=
  let s := if lv == .l1 then s else (s.wordsIn (.l1 a.core) fun c => c.dirty && f c).foldl (fun s w => s.throughL1 a w) s
  if lv == .home then s.throughDcs a.die (s.wordsIn (.dc a.die) fun c => c.dirty && f c) else s

/-- A copy is held by the L1 level of a core. -/
def Copy.near (c : Copy) (core : Nat) : Bool := c.pos == .l1 core || c.pos == .sc core

/-- A copy is at a level of the agent that is narrower than a given one. -/
def Copy.narrower (c : Copy) (a : Agent) (lv : Level) : Bool := (lv != .l1 && c.near a.core) || (lv == .home && c.pos == .dc a.die)

/-- Discard the clean copies of an L1 and its scale cache, and of its die cache when the level is home, that a test picks; replicas are kept
(R230, R240, R286). -/
def State.discard (s : State) (a : Agent) (lv : Level) (f : Copy → Bool) : State :=
  { s with copies := s.copies.filter fun c => !(!c.dirty && !c.repl && f c && c.narrower a lv) }

/-- Write the dirty words of a line in every cache through to home and discard every copy of it (R206, R335). -/
def State.flushLine (s : State) (line : Nat) : State :=
  let here := fun (c : Copy) => c.word / 32 == line
  let l1s := (s.copies.filter fun c => here c && c.dirty).filterMap fun c =>
    match c.pos with | .l1 core => some (core, c.word) | .sc _ | .dc _ => none
  let s := l1s.foldl (fun s x => s.throughL1 ⟨x.1, x.1 / 40⟩ x.2) s
  let dies := (s.copies.filter fun c => here c && c.dirty).filterMap fun c =>
    match c.pos with | .dc die => some die | .l1 _ | .sc _ => none
  let s := (dies.foldl addOnce []).foldl (fun s d => s.throughDcs d (s.heldWords (.dc d) line)) s
  { s with copies := s.copies.filter fun c => !here c }

/-- fence.rel and fence.acq at a scope (R230). -/
def State.fenceRel (s : State) (a : Agent) (sc : Scope) : State := s.throughAll a (levelOf sc) fun _ => true
def State.fenceAcq (s : State) (a : Agent) (sc : Scope) : State := s.discard a (levelOf sc) fun _ => true

/-! ### Reads and writes of words -/

/-- The level that performs a load of a scope (R218, R244): on a page with NA = 1 a word that the issuing die holds dirty may be served at
its die cache, and by the model's choice always is (log entry 15). -/
def State.loadLevel (s : State) (a : Agent) (m : Mapped) (sc : Scope) : Level :=
  match levelOf sc with
  | .home =>
    let w := m.pa / 4
    let dirty := fun p => match s.copy? p w with | some c => c.dirty | none => false
    if m.na && (dirty (.dc a.die) || dirty (.l1 a.core)) then .dc else .home
  | lv => lv

/-- The value of a word at a level after dirty narrower copies were written through; a word of a home that answers with errors
reads in error (R466). The home die's own die cache is apart from the home slice (R233, log entry 15). -/
def State.valueAtLevel (s : State) (a : Agent) (lv : Level) (m : Mapped) : State × Word × Bool :=
  let w := m.pa / 4
  match lv with
  | .l1 =>
    let s := if (s.copy? (.l1 a.core) w).isNone then s.fillL1 a m (w / 32) else s
    match (s.nearCopy a.core w).or (s.copy? (.dc a.die) w) with
    | some c => (s, c.val, c.poison)
    | none => (s, 0, true)
  | .dc =>
    let s := s.through a .dc w
    let s := if (s.copy? (.dc a.die) w).isNone then s.fillDc a.die m (w / 32) else s
    match s.copy? (.dc a.die) w with
    | some c => (s, c.val, c.poison)
    | none => (s, 0, true)
  | .home =>
    let s := s.through a .home w
    (s, s.readHome m)

/-- The copies of the agent that are narrower than a level hold a word's value at that level (R236). -/
def State.settleCopies (s : State) (a : Agent) (lv : Level) (w : Nat) (x : Word) (poison : Bool) : State :=
  { s with copies := s.copies.map fun c =>
      if c.word == w && c.narrower a lv then
        { c with val := x, poison := poison, dirty := false }
      else c }

/-- A load of the word that holds a target, ordinary (R234) or ordered at a scope (R218). -/
def State.loadWord (s : State) (a : Agent) (t : Target) (sc : Option Scope) : State × Word × Bool :=
  match t with
  | .pad cl team off =>
    match s.team? cl team with
    | some tm => (s, BitVec.ofNat 32 (valueAt tm.pad (off / 4 * 4) 4), tm.padPoison.contains (off / 4))
    | none => (s, 0, false)
  | .mem m =>
    match sc with
    | none => s.valueAtLevel a .l1 m
    | some sc =>
      let lv := s.loadLevel a m sc
      let (s, x, p) := s.valueAtLevel a lv m
      (s.settleCopies a lv (m.pa / 4) x p, x, p)

/-- Replace some bytes of a word. -/
def mergeBytes (old new : Word) (off n : Nat) : Word :=
  let k := BitVec.ofNat 32 ((2 ^ (8 * n) - 1) * 2 ^ (8 * off))
  (old &&& ~~~k) ||| ((new <<< (8 * off)) &&& k)

/-- A store of `n` bytes (1, 2 or 4) of `x` within a word, at the level that serves the fibre's narrowest scope (R233,
R235, R477); on a replicated page at home (R207, R245). -/
def State.storeWord (s : State) (a : Agent) (t : Target) (n : Nat) (x : Word) : State :=
  match t with
  | .pad cl team off => s.modTeam cl team fun tm => { tm with
      pad := putBytes tm.pad off (leBytes n x.toNat),
      padPoison := if n == 4 then mark false tm.padPoison (off / 4) else tm.padPoison }
  | .mem m =>
    let w := m.pa / 4
    let held := s.copy? (.l1 a.core) w
    let s := if n < 4 && held.isNone then s.fillL1 a m (w / 32) else s
    let (old, poison) := match (s.nearCopy a.core w).or (s.copy? (.dc a.die) w) with | some c => (c.val, c.poison) | none => (0, true)
    s.putL1 a { pos := .l1 a.core, word := w, val := mergeBytes old x (m.pa % 4) n, dirty := true,
                poison := poison && n != 4, asid := m.asid, va := BitVec.ofNat 56 (m.va.toNat - m.pa % 4), home := m.die,
                repl := m.rp, cp := m.cp, key := m.key }

/-- The level to which a store is written through (R218); a write to a replicated page goes home at once (R207). -/
def storeLevel (m : Mapped) : Option Scope → Level
  | some sc => if m.rp then .home else levelOf sc
  | none => if m.rp then .home else .l1

/-- Write a stored word through to the level of a scope. -/
def State.storeThrough (s : State) (a : Agent) (t : Target) (sc : Option Scope) : State :=
  match t with
  | .pad .. => s
  | .mem m => s.through a (storeLevel m sc) (m.pa / 4)

/-- The place of a target in mapped memory. -/
def Target.mapped? : Target → Option Mapped
  | .mem m => some m
  | .pad .. => none

/-- The words of one store are written through: what goes home, as one access (R209). -/
def State.storesThrough (s : State) (a : Agent) (ts : List Target) (sc : Option Scope) : State :=
  let words := fun (lv : Level) => (ts.filterMap Target.mapped?).filterMap fun m => if storeLevel m sc == lv then some (m.pa / 4) else none
  (s.throughWords a .dc (words .dc)).throughWords a .home (words .home)

/-! ### Atomics (R225, R226) -/

/-- The level that performs an atomic (R226). -/
def atomLevel (m : Mapped) (sc : Scope) : Level := if m.rp then .home else levelOf sc

/-- The line of an atomic at the base-die unit leaves every cache first (R206). -/
def State.forBase (s : State) (lv : Level) (m : Mapped) : State :=
  if m.ms && m.hbm && lv == .home then s.flushLine (m.pa / 128) else s

/-- The write of a whole word by an atomic at its level; at home its block is written with the access (R209). -/
def State.rmwWord (s : State) (a : Agent) (lv : Level) (m : Mapped) (x : Word) : State :=
  let w := m.pa / 4
  let c : Copy := { pos := .l1 a.core, word := w, val := x, dirty := true, poison := false, asid := m.asid,
                    va := BitVec.ofNat 56 (m.va.toNat - m.pa % 4), home := m.die, repl := m.rp,
                    cp := m.cp, key := m.key }
  let s := match lv with
    | .l1 => s.putL1 a c
    | .dc => s.putDc a.die c
    | .home => s.putHomeAs m.key w x false
  s.settleCopies a lv w x false

/-- The value of a scratchpad word of `n` bytes, and a write of it. -/
def State.padValue (s : State) (cl team off n : Nat) : Nat × Bool :=
  match s.team? cl team with
  | some tm => (valueAt tm.pad off n, (upTo (n / 4)).any fun i => tm.padPoison.contains (off / 4 + i))
  | none => (0, false)

def State.putPad (s : State) (cl team off : Nat) (bs : List Byte) : State :=
  s.modTeam cl team fun tm => { tm with
    pad := putBytes tm.pad off bs,
    padPoison := (upTo (bs.length / 4)).foldl (fun l i => mark false l (off / 4 + i)) tm.padPoison }

/-- The words of one access at a level: at home each compressed block that it reads, or writes, is counted once (R209). -/
def State.atHome (s : State) (lv : Level) (write : Bool) (ms : List Mapped) : State :=
  if lv == .home then (if write then s.countWrites ms else s.countReads ms) else s

/-- One atomic on a word in mapped memory, or on two that hold the halves of a 64-bit value (R190), for a scope. An access of private space to
a page marked MS or RP, of which R226 has no row, is performed where the same access of global space is, by the model's choice (log entry 15). -/
def State.atomicWords (s : State) (a : Agent) (m : Mapped) (m1 : Option Mapped) (sc : Scope) (f : Nat → Option Nat) :
    State × Nat × Bool :=
  let lv := atomLevel m sc
  let s := s.forBase lv m
  let s := match m1 with | some m1 => s.forBase lv m1 | none => s
  let (s, lo, p0) := s.valueAtLevel a lv m
  let (s, hi, p1) := match m1 with | some m1 => s.valueAtLevel a lv m1 | none => (s, 0, false)
  let s := s.atHome lv false (m :: m1.toList)
  let old := lo.toNat + hi.toNat * 2 ^ 32
  let bad := p0 || p1
  let new := if bad then none else f old
  match new with
  | some x =>
    let s := s.rmwWord a lv m (BitVec.ofNat 32 x)
    let s := match m1 with | some m1 => s.rmwWord a lv m1 (BitVec.ofNat 32 (x / 2 ^ 32)) | none => s
    (s.atHome lv true (m :: m1.toList), old, false)
  | none =>
    let s := s.settleCopies a lv (m.pa / 4) lo p0
    (match m1 with | some m1 => s.settleCopies a lv (m1.pa / 4) hi p1 | none => s, old, bad)

/-- One atomic on a word of `n` bytes (4 or 8) at a target for a scope: the old value and whether it was in error, in
which case the word is left unchanged (R232); `f` gives the new value, or none to leave the word. -/
def State.atomic (s : State) (a : Agent) (t : Target) (n : Nat) (sc : Scope) (f : Nat → Option Nat) : State × Nat × Bool :=
  match t with
  | .pad cl team off =>
    let (old, bad) := s.padValue cl team off n
    match bad, f old with
    | false, some x => (s.putPad cl team off (leBytes n x), old, false)
    | b, _ => (s, old, b)
  | .mem m => s.atomicWords a m (if n == 8 then some { m with pa := m.pa + 4, va := m.va + 4 } else none) sc f

/-- One atomic on parts of words in mapped memory, for an address that is no multiple of 4 (R190). -/
def State.atomicPieces (s : State) (a : Agent) (ps : List (Mapped × Nat)) (sc : Scope) (f : Nat → Option Nat) : State × Nat × Bool :=
  let home := (ps.map (·.1)).filter fun m => atomLevel m sc == .home
  let r := ps.foldl (fun (acc : State × List (Mapped × Nat × Word × Bool) × Bool) p =>
    let lv := atomLevel p.1 sc
    let (s, x, bad) := (acc.1.forBase lv p.1).valueAtLevel a lv p.1
    (s, acc.2.1 ++ [(p.1, p.2, x, bad)], acc.2.2 || bad)) (s, [], false)
  let r := (r.1.atHome .home false home, r.2)
  let bytes := r.2.1.flatMap fun p => leBytes p.2.1 (p.2.2.1.toNat / 2 ^ (8 * (p.1.pa % 4)))
  match if r.2.2 then none else f (leNat bytes) with
  | some x => (((r.2.1.foldl (fun (acc : State × Nat) p =>
      (acc.1.rmwWord a (atomLevel p.1 sc) p.1 (mergeBytes p.2.2.1 (BitVec.ofNat 32 acc.2) (p.1.pa % 4) p.2.1), acc.2 / 2 ^ (8 * p.2.1)))
      (r.1, x))).1.atHome .home true home, leNat bytes, false)
  | none => (r.2.1.foldl (fun s p => s.settleCopies a (atomLevel p.1 sc) (p.1.pa / 4) p.2.2.1 p.2.2.2) r.1, leNat bytes, r.2.2)

/-- One atomic on the parts of an access: a 64-bit value in private space has its halves apart (R190). -/
def State.atomicParts (s : State) (a : Agent) (parts : List (Target × Nat)) (n : Nat) (sc : Scope) (f : Nat → Option Nat) :
    State × Nat × Bool :=
  if parts.all fun p => p.2 == min n 4 then
    match parts with
    | [(.mem m, _), (.mem m1, _)] => s.atomicWords a m (some m1) sc f
    | p :: _ => s.atomic a p.1 n sc f
    | [] => (s, 0, false)
  else s.atomicPieces a (parts.filterMap fun p => p.1.mapped?.map fun m => (m, p.2)) sc f

/-- A write of a word of home by place. -/
def State.writePlace (s : State) (pa die : Nat) (k : Byte) (cp : Bool) (x : Word) : State :=
  let s := s.putHomeAs k (pa / 4) x false
  if cp then s.writeBlock die pa else s

/-- A word at the level of a monitor or of a barrier word, read without filling (R330, R339): `home` at home, else the die
cache of `die` when it holds the word. -/
def State.peek (s : State) (p : Place) (die : Option Nat) (n : Nat) : Nat :=
  match p with
  | .pad cl team off => (s.padValue cl team off n).1
  | .home pa _ k _ =>
    let word := fun w => match die with
      | some d => match s.copy? (.dc d) w with | some c => c.val | none => s.homeWordAs k w
      | none => s.homeWordAs k w
    if n == 8 then (word (pa / 4)).toNat + (word (pa / 4 + 1)).toNat * 2 ^ 32 else (word (pa / 4)).toNat

/-! ### Errors that strike (R232, R477) -/

/-- Soft errors of a structure are counted, corrected or not, in 48 bits (R472); a die is 0 to 3, a port die 4 or 5 (log entry 44). -/
def State.softErrors (s : State) (who : Nat) (x : SoftStruct) (corrected : Bool) (n : Nat) : State :=
  let c := (aget s.life.soft (who, x)).getD (0, 0)
  let up := fun (k : Nat) => min (k + n) (2 ^ 48 - 1)
  { s with life := { s.life with soft := aset s.life.soft (who, x) (if corrected then (up c.1, c.2) else (c.1, up c.2)) } }

/-- An uncorrected error of the memory that holds a physical address; host memory is not the device's to count. -/
def State.memError (s : State) (pa : Nat) : State :=
  match hbmDie pa with
  | some d => s.softErrors d .hbm false 1
  | none => if pa < 2 ^ 51 then s.softErrors (4 + (Config.tier2Port (pa / 4096)).val) .tier2 false 1 else s

/-- An uncorrectable error in a word, which is poisoned from then on (R477), or in the metadata code of a block (R208), counted in the
lifetime records (R472); one in a staged record is counted when its checksum is computed (R459). -/
def State.strike (s : State) (x : Strike) : State :=
  match x with
  | .home w => ({ s with poison := addOnce s.poison w } : State).memError (4 * w)
  | .copy p w =>
    if (s.copy? p w).isNone then s
    else
      let s := ({ s with copies := s.copies.map fun (c : Copy) => if c.pos == p && c.word == w then { c with poison := true } else c } : State)
      match p with
      | .l1 core => s.softErrors (core / 40) .sram false 1
      | .sc core => s.softErrors (core / 40) .scaleCache false 1
      | .dc die => s.softErrors die .dieCache false 1
  | .pad cl team w =>
    match s.team? cl team with
    | some t => (s.modTeam cl team fun t => { t with padPoison := addOnce t.padPoison w }).softErrors (t.core / 40) .sram false 1
    | none => s
  | .code b c => if 9 ≤ c.toNat then ({ s with codes := aset s.codes b c } : State).memError (256 * b) else s
  | .corrected who x => s.softErrors who x true 1
  | .uncorrected who x => if x == .vrf || x == .acc || x == .siroccoBuffer then s.softErrors who x false 1 else s
  | .record id n =>
    let hit : Staged → Staged := fun r => if r.seq == n then { r with bad := true } else r
    { s with staged := s.staged.map fun g => if g.cgid == id then { g with recs := g.recs.map hit } else g }

end Sys2Proof.Machine
end

