-- ==== Sys2Proof/Machine/Translate.lean ====
section
/-! DEFINITION. Segment checks (R26, R188, R189), the page tables and their walk (R191 to R195), the TLBs (R197),
permissions (R198), and the translation of the accesses of an instruction (R200, R201). -/

namespace Sys2Proof.Machine

open Sys2Proof

/-! ### Physical ranges and leaf entries (R191, R194) -/

/-- The tier of a physical range of `n` bytes, if it lies wholly in one (R191): 0 HBM, 1 tier-2, 2 host. -/
def tierIn (cap pa n : Nat) : Option Nat :=
  if pa + n ≤ 0xC000000000 then some 0
  else if 0x10000000000 ≤ pa ∧ pa + n ≤ min 0x1C000000000 (0x10000000000 + cap) then some 1
  else if 0x8000000000000 ≤ pa ∧ pa + n ≤ 0x10000000000000 then some 2
  else none

/-- The capacities in GiB of the tier-2 channels in service. -/
def State.channels (s : State) : List Nat := s.t2chan.toList.filter fun g => g != 0

/-- The installed tier-2 capacity in bytes (R470): every channel in service at the capacity of the smallest. -/
def State.t2cap (s : State) : Nat :=
  match s.channels with
  | [] => 0
  | g :: gs => gs.foldl min g * (gs.length + 1) * 2 ^ 30

def State.tierOf (s : State) (pa n : Nat) : Option Nat := tierIn s.t2cap pa n

/-- Page size of a leaf at a level (R192). -/
def pageSize (level : Nat) : Nat :=
  match level with
  | 2 => 2 ^ 29
  | 3 => 2 ^ 25
  | 4 => 2 ^ 21
  | _ => 2 ^ 16

/-- Index of a virtual address at a level (R192). -/
def walkIndex (level va : Nat) : Nat :=
  match level with
  | 1 => va / 2 ^ 42
  | 2 => va / 2 ^ 29 % 8192
  | 3 => va / 2 ^ 25 % 16
  | 4 => va / 2 ^ 21 % 16
  | _ => va / 2 ^ 16 % 32

/-- Alignment of a table of a level (R192). -/
def tableAlign (level : Nat) : Nat :=
  match level with
  | 1 => 2 ^ 17
  | 2 => 2 ^ 16
  | 3 => 128
  | 4 => 128
  | _ => 256

def leafPa (e : DWord) : Nat := (e.extractLsb' 16 36).toNat * 2 ^ 16
def leafHome (e : DWord) : Nat := (e.extractLsb' 12 2).toNat
def leafTier (e : DWord) : Nat := (e.extractLsb' 5 2).toNat
def leafKey (e : DWord) : Byte := e.extractLsb' 52 8
def leafMg (e : DWord) : Bool := e.getLsbD 11

/-- The home compute die of a page (R23, R191). -/
def leafDie (e : DWord) : Nat := if leafTier e == 0 then leafPa e / 2 ^ 36 / 3 else leafHome e

/-- A leaf at a level is malformed (R191, R195). -/
def leafMalformed (cap : Nat) (keys : List Byte) (level : Nat) (e : DWord) : Bool :=
  let size := pageSize level
  level == 1 || e.extractLsb' 60 4 != 0 || e.extractLsb' 14 2 != 0 || leafPa e % size != 0 ||
    tierIn cap (leafPa e) size != some (leafTier e) || (leafTier e == 0 && leafHome e != 0) ||
    (leafKey e != 0 && !keys.contains (leafKey e)) || (e.getLsbD 9 && e.getLsbD 8) || (e.getLsbD 10 && leafTier e == 2)

/-- A table entry at a level is malformed (R193, R195). -/
def tableMalformed (level : Nat) (e : DWord) : Bool :=
  level == 5 || e.extractLsb' 52 12 != 0 || e.extractLsb' 2 5 != 0 ||
    (e.extractLsb' 7 45).toNat * 128 % tableAlign (level + 1) != 0

def tableNext (e : DWord) : Nat := (e.extractLsb' 7 45).toNat * 128

/-! ### The tables as the memory processor keeps them (R199, R203, R210) -/

/-- Home memory of a range becomes 0, written under no key. -/
def State.clearHome (s : State) (pa n : Nat) : State :=
  { s with
    locks := s.locks.filter fun x => !(decide (pa ≤ 16 * x.1) && decide (16 * x.1 < pa + n))
    codes := s.codes.filter fun x => !(decide (pa ≤ 256 * x.1) && decide (256 * x.1 < pa + n))
    mem := s.mem.filter fun x => !(decide (pa ≤ x.1) && decide (x.1 < pa + n))
    poison := s.poison.filter fun w => !(decide (pa ≤ 4 * w) && decide (4 * w < pa + n)) }

/-- The leaves of a context's tables below a table of a level, with their levels. -/
def State.leavesOf (s : State) : Nat → Nat → Nat → List (Nat × DWord)
  | 0, _, _ => []
  | fuel + 1, level, table =>
    let n := match level with | 1 => 16384 | 2 => 8192 | 3 => 16 | 4 => 16 | _ => 32
    let listed := (s.mem.filter fun x => decide (table ≤ x.1) && decide (x.1 < table + 8 * n)).map fun x => (x.1 - table) / 8
    (listed.foldl addOnce []).flatMap fun i =>
      let e := s.home64 (table + 8 * i)
      if !e.getLsbD 0 then []
      else if e.getLsbD 1 then [(level, e)]
      else s.leavesOf fuel (level + 1) (tableNext e)

/-- The tables below and with a table of a level, with their levels; a table is as large as it is aligned (R192). -/
def State.tablesOf (s : State) : Nat → Nat → Nat → List (Nat × Nat)
  | 0, _, _ => []
  | fuel + 1, level, table =>
    let listed := (s.mem.filter fun x => decide (table ≤ x.1) && decide (x.1 < table + tableAlign level)).map fun x => (x.1 - table) / 8
    (level, table) :: (listed.foldl addOnce []).flatMap fun i =>
      let e := s.home64 (table + 8 * i)
      if e.getLsbD 0 && !e.getLsbD 1 then s.tablesOf fuel (level + 1) (tableNext e) else []

/-- Physical ranges that are always pinned (R203, R238): page tables, save areas and binding tables. -/
def State.fixedRanges (s : State) : List (Nat × Nat) :=
  (s.ctxs.filter fun c => c.st != .closed).flatMap fun c =>
    (c.savebase, c.savesize) :: (c.bindtab, 2 ^ 15) :: (s.tablesOf 5 1 c.ptroot).map fun x => (x.2, tableAlign x.1)

/-- A frame that can hold a new table of a level: in HBM, aligned, and neither pinned nor part of a page of any context. -/
def State.freshTable (s : State) (level table : Nat) : Bool :=
  let hits := fun (at_ n : Nat) => decide (table < at_ + n) && decide (at_ < table + tableAlign level)
  table % tableAlign level == 0 && s.tierOf table (tableAlign level) == some 0 && !(s.fixedRanges.any fun r => hits r.1 r.2) &&
    !((s.ctxs.filter fun c => c.st != .closed).any fun c => (s.leavesOf 5 1 c.ptroot).any fun x => hits (leafPa x.2) (pageSize x.1))

/-- A table word that the memory processor writes in an answer (R199): an invalid entry of a table of the context becomes valid; a table that it
names is new, and empty. -/
def State.tableWrite (s : State) (c : Context) (w : Nat × DWord) : Option State :=
  match (s.tablesOf 5 1 c.ptroot).find? fun t => decide (t.2 ≤ w.1) && decide (w.1 < t.2 + tableAlign t.1) with
  | some (level, _) =>
    if w.1 % 8 != 0 || (s.home64 w.1).getLsbD 0 || !w.2.getLsbD 0 then none
    else
      let put := fun (s : State) => s.putHomeBytes w.1 (leBytes 8 w.2.toNat)
      if w.2.getLsbD 1 then some (put s)
      else if tableMalformed level w.2 || !s.freshTable (level + 1) (tableNext w.2) then none
      else some (put (s.clearHome (tableNext w.2) (tableAlign (level + 1))))
  | none => none

/-- The table words of an answer, in order, each in a table that is there by then. -/
def State.tableWrites (s : State) (c : Context) (ws : List (Nat × DWord)) : Option State := ws.foldlM (fun s w => s.tableWrite c w) s

/-! ### The walk (R195) -/

/-- How a walk ends: the level at which it stopped, and the leaf. -/
inductive Walked where
  | leaf (level : Nat) (e : DWord)
  | invalid (level : Nat) (table : Nat)
  | malformed
  | hole (pa : Nat)
  deriving DecidableEq, Repr

/-- A walk from a table of a level, over at most `fuel` further levels; entries are read at home. -/
def State.walkFrom (s : State) (va : Nat) : Nat → Nat → Nat → Walked
  | 0, _, _ => .malformed
  | fuel + 1, level, table =>
    let pa := table + 8 * walkIndex level va
    if (s.tierOf pa 8).isNone then .hole pa
    else if s.lost pa then .malformed
    else
      let e := s.home64 pa
      if !e.getLsbD 0 then .invalid level table
      else if e.getLsbD 1 then
        if leafMalformed s.t2cap (s.keys.map (·.1)) level e then .malformed else .leaf level e
      else if tableMalformed level e then .malformed
      else s.walkFrom va fuel (level + 1) (tableNext e)

/-- The range of virtual addresses under one entry of a level (R192). -/
def entrySpan (level : Nat) : Nat := if level == 1 then 2 ^ 42 else pageSize level

/-- The table entries that a walk passes, from a table of a level on (R197). -/
def State.walkTables (s : State) (asid : BitVec 16) (va : Nat) : Nat → Nat → Nat → List WalkEntry
  | 0, _, _ => []
  | fuel + 1, level, table =>
    let e := s.home64 (table + 8 * walkIndex level va)
    if !e.getLsbD 0 || e.getLsbD 1 || tableMalformed level e then []
    else { asid := asid, level := level, key := va / entrySpan level * entrySpan level, next := tableNext e } ::
      s.walkTables asid va fuel (level + 1) (tableNext e)

/-- The walker's cached table nearest to the leaf (R197): its level and address. -/
def State.walkStart (s : State) (die : Nat) (c : Context) (va : Nat) : Nat × Nat :=
  let hits := s.walks.filterMap fun x =>
    if x.1 == die && x.2.asid == c.asid && x.2.key == va / entrySpan x.2.level * entrySpan x.2.level then
      some (x.2.level + 1, x.2.next) else none
  hits.foldl (fun a b => if a.1 < b.1 then b else a) (1, c.ptroot)

def State.walk (s : State) (die : Nat) (c : Context) (va : Nat) : Walked :=
  let (level, table) := s.walkStart die c va
  s.walkFrom va 5 level table

/-- A page as the TLBs hold it. -/
def tlbOf (asid : BitVec 16) (va level : Nat) (e : DWord) : TlbEntry :=
  { asid := asid, base := va / pageSize level * pageSize level, size := pageSize level, leaf := e }

def TlbEntry.hits (e : TlbEntry) (asid : BitVec 16) (va : Nat) : Bool :=
  e.asid == asid && decide (e.base ≤ va) && decide (va < e.base + e.size)

/-- The kinds of R198. -/
inductive Need where | read | write | both | exec | none
  deriving DecidableEq, Repr

def permits (e : DWord) : Need → Bool
  | .read => e.getLsbD 2
  | .write => e.getLsbD 3
  | .both => e.getLsbD 2 && e.getLsbD 3
  | .exec => e.getLsbD 4
  | .none => true

/-- How a translation ends (R199): `replay` at a migrating leaf, `unmapped` at the invalid entry of an address. -/
inductive Xlat where
  | ok (e : TlbEntry)
  | replay
  | unmapped (entry : Nat)
  | permission
  | mapping
  | hole (pa : Nat)
  deriving DecidableEq, Repr

/-- A fresh translation (R195, R197, R199): an invalid entry or a migrating leaf is replayable. -/
def State.freshXlat (s : State) (die : Nat) (c : Context) (va : Nat) (need : Need) : Xlat :=
  match s.walk die c va with
  | .leaf level e =>
    if leafMg e then .replay else if permits e need then .ok (tlbOf c.asid va level e) else .permission
  | .invalid level table => .unmapped (table + 8 * walkIndex level va)
  | .malformed => .mapping
  | .hole pa => .hole pa

/-- A translation through the core's TLB, the die's TLB and the walker: a cached entry that forbids the access is fetched
afresh (R197). -/
def State.xlat (s : State) (a : Agent) (c : Context) (va : Nat) (need : Need) : Xlat :=
  let here := fun (l : List (Nat × TlbEntry)) (k : Nat) =>
    l.find? fun x => x.1 == k && x.2.hits c.asid va && permits x.2.leaf need
  match here s.coreTlb a.core with
  | some x => .ok x.2
  | none =>
    match here s.dieTlb a.die with
    | some x => .ok x.2
    | none => s.freshXlat a.die c va need

/-- Keep an entry in a TLB of `n` entries, newest first, in the place of an older one of the page. -/
def keepTlb (n key : Nat) (e : TlbEntry) (l : List (Nat × TlbEntry)) : List (Nat × TlbEntry) :=
  let mine := (l.filter fun x => x.1 == key && !(x.2.asid == e.asid && x.2.base == e.base && x.2.size == e.size)).take (n - 1)
  (key, e) :: mine ++ l.filter fun x => !(x.1 == key)

/-- The table entries of a page's walk that a die's walker caches (R197). -/
def State.walked (s : State) (a : Agent) (e : TlbEntry) : List (Nat × WalkEntry) :=
  if s.dieTlb.any fun x => x.1 == a.die && x.2 == e then []
  else match s.ctx? e.asid with
    | some c => (s.walkTables e.asid e.base 5 1 c.ptroot).map fun w => (a.die, w)
    | none => []

/-- Both TLBs hold a translation that an access used, and the walker the table entries of a walk it took. -/
def State.keepXlat (s : State) (a : Agent) (e : TlbEntry) : State :=
  if s.coreTlb.any fun x => x.1 == a.core && x.2 == e then s
  else
  { s with
    walks := (s.walked a e).foldl addOnce s.walks
    coreTlb := keepTlb 64 a.core e s.coreTlb, dieTlb := keepTlb 4096 a.die e s.dieTlb }

/-- The place of an address on a translated page. -/
def TlbEntry.place (e : TlbEntry) (va : Nat) : Mapped :=
  { pa := leafPa e.leaf + (va - e.base), die := leafDie e.leaf, va := BitVec.ofNat 56 va, asid := e.asid, key := leafKey e.leaf, ms := e.leaf.getLsbD 9,
    na := e.leaf.getLsbD 7, rp := e.leaf.getLsbD 8, cp := e.leaf.getLsbD 10, hbm := leafTier e.leaf == 0,
    host := leafTier e.leaf == 2, w := e.leaf.getLsbD 3, r := e.leaf.getLsbD 2 }

/-! ### Segments (R26, R188, R190) -/

def Shape.rows : Shape → Nat
  | .s11 | .s12 | .s14 => 1
  | .s21 | .s22 => 2
def Shape.cols : Shape → Nat
  | .s11 | .s21 => 1
  | .s12 | .s22 => 2
  | .s14 => 4
def Shape.teams (x : Shape) : Nat := x.rows * x.cols

/-- The segment check of an access of `n` bytes: an offset, or a virtual address in the global and remote spaces. -/
def View.inSegment (v : View) (sp : Space) (a n : Nat) : Bool :=
  let g := v.f.segment (segOf sp)
  match sp with
  | .prv | .tm => decide (a + n ≤ g.limit.toNat)
  | .ko => decide (a + n ≤ g.limit.toNat) && decide (g.base.toNat + a + n ≤ 2 ^ 56)
  | .cl => decide (a / 2 ^ 21 < v.cl.shape.teams) && decide (a % 2 ^ 21 + n ≤ g.limit.toNat)
  | .gl | .rm => decide (g.base.toNat ≤ a) && decide (a + n ≤ g.limit.toNat) && decide (a + n ≤ 2 ^ 56)

/-- Where a byte range of an access lies before translation. -/
inductive Spot where
  | pad (cl team off : Nat)
  | va (a : Nat)
  deriving DecidableEq, Repr

/-- A run of at most 4 bytes of virtual addresses, cut where an aligned word ends. -/
def vaCut (a n : Nat) : List (Spot × Nat) :=
  if a % 4 + n ≤ 4 then [(.va a, n)] else [(.va a, 4 - a % 4), (.va (a + (4 - a % 4)), n - (4 - a % 4))]

/-- The virtual address of a private offset of a lane (R190). -/
def privateVa (base l o : Nat) : Nat := base + o / 4 * 128 + 4 * l + o % 4

/-- The spots of an access of `n` bytes by a lane, each within an aligned 4-byte word (R25); private words are interleaved by
lane (R190). -/
def View.laneSpots (v : View) (sp : Space) (l a n : Nat) : List (Spot × Nat) :=
  let base := (v.f.segment (segOf sp)).base.toNat
  let step := min n 4
  (upTo (n / step)).flatMap fun k =>
    let o := a + k * step
    match sp with
    | .tm => [(.pad v.f.ref.cl v.f.ref.team o, step)]
    | .cl => [(.pad v.f.ref.cl (o / 2 ^ 21) (o % 2 ^ 21), step)]
    | .prv => vaCut (privateVa base l o) step
    | .ko => vaCut (base + o) step
    | .gl | .rm => vaCut o step

/-- The spots of an access that no lane's number enters. -/
def View.spots (v : View) (sp : Space) (a n : Nat) : List (Spot × Nat) := v.laneSpots sp 0 a n

/-- The segment check of a lane's access: a private access must not run past the last virtual address either (R189). -/
def View.laneInSegment (v : View) (sp : Space) (l a n : Nat) : Bool :=
  v.inSegment sp a n && (sp != .prv || decide (privateVa (v.f.segment 0).base.toNat l (a + n - 1) < 2 ^ 56))

/-! ### The accesses of an instruction (R189, R200, R201) -/

/-- One lane's access: its address as the segment check names it, its length, and whether it is aligned. -/
structure Access where
  lane : Nat
  addr : Nat
  len : Nat
  aligned : Bool
  deriving DecidableEq, Repr

/-- A lane that will be performed: its access with the place of each of its parts. -/
structure Ready where
  lane : Nat
  addr : Nat
  parts : List (Target × Nat)
  deriving DecidableEq, Repr

/-- The accesses that can be performed now, the frames that meet a replayable fault with their lanes, and the translations
used. -/
structure Prepared where
  ready : List Ready
  waiting : Mask
  frames : List Nat
  used : List TlbEntry
  deriving DecidableEq, Repr

def lanesOfAcc (as : List Access) (p : Access → Bool) : Mask :=
  maskOf fun l => as.any fun a => a.lane == l && p a

/-- The address of the lowest lane of a set of accesses. -/
def lowestAddr (as : List Access) (m : Mask) : Nat :=
  match as.find? fun a => a.lane == lowest m with
  | some a => a.addr
  | none => 0

/-- A replayable fault (R199). -/
def Xlat.waits : Xlat → Bool
  | .replay | .unmapped _ => true
  | _ => false

/-- The invalid entries that the walks of some frames meet. -/
def State.emptyEntries (s : State) (die : Nat) (c : Context) (frames : List Nat) : List Nat :=
  frames.filterMap fun f => match s.freshXlat die c (f * 2 ^ 16) .none with
    | .unmapped e => some e
    | _ => none

/-- The memory processor's answer that no allocation covers some frames of a report holds (R199): each meets an invalid entry, and every
other frame of the report can be translated. -/
def State.answers (s : State) (die : Nat) (c : Context) (frames none_ : List Nat) : Bool :=
  none_.all (fun fr => frames.contains fr && match s.freshXlat die c (fr * 2 ^ 16) .none with | .unmapped _ => true | _ => false) &&
    frames.all fun fr => none_.contains fr || !(s.freshXlat die c (fr * 2 ^ 16) .none).waits

/-- The translation of one virtual address, with the memory processor's answer that no allocation covers the addresses of some invalid
entries (R199). -/
def State.xlatOr (s : State) (a : Agent) (c : Context) (noAlloc : List Nat) (va : Nat) (need : Need) : Xlat :=
  match s.xlat a c va need with
  | .unmapped e => if noAlloc.contains e then .mapping else .unmapped e
  | x => x

/-- The segment check, then the alignment check (R189). -/
def View.checkAcc (v : View) (sp : Space) (as : List Access) : Chk Unit := do
  let out := lanesOfAcc as fun a => !v.laneInSegment sp a.lane a.addr a.len
  v.trapIf .segmentLimit out (BitVec.ofNat 64 (lowestAddr as out))
  v.trapIf .misaligned (lanesOfAcc as fun a => !a.aligned)

def Spot.va? : Spot → Option Nat
  | .va z => some z
  | .pad .. => none

def Xlat.hole? : Xlat → Option Nat
  | .hole pa => some pa
  | _ => none

def Xlat.entry? : Xlat → Option TlbEntry
  | .ok e => some e
  | _ => none

/-- The frames of 64 KiB that some accesses touch, each once, in order. -/
def View.framesOf (v : View) (sp : Space) (as : List Access) : List Nat :=
  (as.flatMap fun a => (v.laneSpots sp a.lane a.addr a.len).filterMap fun y => y.1.va?).foldl (fun acc z => addOnce acc (z / 2 ^ 16)) []

/-- The lanes of accesses one of whose frames is translated as a test says. -/
def View.lanesWith (v : View) (sp : Space) (as : List Access) (xs : List (Nat × Xlat)) (p : Xlat → Bool) : Mask :=
  maskOf fun l => as.any fun a => a.lane == l && (v.laneSpots sp a.lane a.addr a.len).any fun y =>
    (y.1.va?.bind fun z => aget xs (z / 2 ^ 16)).any p

/-- The place of a spot by the translations of its frames. -/
def Spot.target (xs : List (Nat × Xlat)) : Spot → Target
  | .pad cl t o => .pad cl t o
  | .va z => match (aget xs (z / 2 ^ 16)).bind Xlat.entry? with
    | some e => .mem (e.place z)
    | none => .pad 0 0 0

/-- Segment and alignment checks, then translation of every unique frame, with the program-visible faults of R200: a
mapping error first, then a missing permission. -/
def View.prepare (v : View) (s : State) (sp : Space) (need : Need) (noAlloc : List Nat) (as : List Access) : Chk Prepared := do
  v.checkAcc sp as
  let xs := (v.framesOf sp as).map fun fr => (fr, s.xlatOr v.agent v.c noAlloc (fr * 2 ^ 16) need)
  match xs.findSome? fun x => x.2.hole? with
  | some pa => .error (.fault (.physicalHole pa))
  | none =>
    v.trapIf .mappingError (v.lanesWith sp as xs fun q => q == .mapping)
    v.trapIf .permission (v.lanesWith sp as xs fun q => q == .permission)
    let waiting := v.lanesWith sp as xs Xlat.waits
    pure { ready := (as.filter fun a => !lane waiting a.lane).map fun a =>
             { lane := a.lane, addr := a.addr, parts := (v.laneSpots sp a.lane a.addr a.len).map fun y => (y.1.target xs, y.2) }
           waiting := waiting
           frames := (xs.filter fun x => x.2.waits).map (·.1)
           used := xs.filterMap fun x => x.2.entry? }

/-- The TLBs keep the translations of the accesses that are performed. -/
def State.keepAll (s : State) (a : Agent) (p : Prepared) : State := p.used.foldl (fun s e => s.keepXlat a e) s

/-! ### Issue with a completion bitmap (R200, R201, R223) -/

/-- The completion bitmap of the instruction that the gang issues, if it is one that replays. -/
def View.replaying (v : View) : Option Replay :=
  v.f.bitmapAt v.iss.gang v.iss.pc

/-- What a memory instruction's lanes did: the state, writes made at once, writes held for the result, its flags and
errors, and the lanes performed. -/
structure Performed where
  s : State
  now : List RegUpd
  held : List RegUpd
  out : Option Out
  done : Mask
  deriving Repr

/-- A memory instruction's own work: from the view, the state and the replay record, what was performed, and the frames
that still wait. -/
abbrev MemBody := View → State → Option Replay → Chk (Performed × List Nat)

/-- The outstanding memory fences of a fibre hold its later memory instructions back (R231). -/
def Fibre.fenced (f : Fibre) : Bool := f.out.any (·.fence)

/-- Errors in the data of the passes of one instruction (R478): the lanes of both, the address of the lowest. -/
def firstErr (a b : Option TrapRec) : Option TrapRec :=
  match a, b with
  | some x, some y => some { (if lowest x.emask ≤ lowest y.emask then x else y) with emask := x.emask ||| y.emask }
  | some x, none => some x
  | none, y => y

/-- The issue of a memory instruction: a replay goes on from its completion bitmap; lanes that meet a replayable fault
freeze the fibre with the bitmap and leave the destinations pending; when every lane is performed, last-use marks and
destinations take effect. A program-visible fault of a replay keeps the bitmap for RTT (R201). -/
def issueMemAs (k : Kindly) (sw : Bool) (len : Nat) (us : View → List Use) (body : MemBody) (s : State) : Result :=
  match s.view? with
  | none => .refused .noIssuer
  | some v0 =>
    let rep := v0.replaying
    let s1 := match rep with | some r => s.unpend v0.f r | none => s
    match s1.view? with
    | none => .refused .noIssuer
    | some v =>
      match (do
          v.checks k (us v)
          if v.f.fenced then .error .hold
          body v s1 rep : Chk (Performed × List Nat)) with
      | .error (.trap s' t) =>
        (Stop.trap s' t).outcome s1 v sw
      | .error (.wait s' (.released sc)) => (Stop.wait s' (.released sc)).outcome s1 v sw
      | .error (.wait s' w) =>
        (Stop.wait ((s'.enliven v (us v)).modFibre v.f.ref fun f => { f with replay := f.replay.filter fun x => x.gang != v.iss.gang }) w).outcome s1 v sw
      | .error e => e.outcome s1 v sw
      | .ok (p, []) =>
        let s2 := (p.s.consume v (us v)).modFibre v.f.ref fun f => { f with replay := f.replay.filter fun x => x.gang != v.iss.gang }
        let s3 := s2.upds v.f p.now
        let mute := (rep.map (·.mute)).getD false
        let held := if mute then [] else (match rep with | some r => r.upds | none => []) ++ p.held
        let s4 := match p.out with
          | some o => s3.defer v.f { o with
              err := firstErr (rep.bind (·.err)) o.err
              upds := held ++ (if mute then [] else o.upds), rows := updRows held ++ o.rows, regs := updRegs held ++ o.regs }
          | none => s3
        .next ((s4.noteDead v (us v)).retire v sw len)
      | .ok (p, frames) =>
        let err := firstErr (rep.bind (·.err)) (p.out.bind (·.err))
        let held := (match rep with | some r => r.upds | none => []) ++ p.held
        let done := p.done ||| (match rep with | some r => r.done | none => 0)
        let dsts := (us v).filter fun u => !u.rd
        let rows := dsts.filterMap fun u => match u.reg with | .v n => quotaRow v.f.quota n | .r _ => none
        let regs := dsts.filterMap fun u => match u.reg with | .r r => some r | .v _ => none
        let s2 := (p.s.upds v.f p.now).modFibre v.f.ref fun f => { f with
          pend := regs.foldl addOnce f.pend
          replay := { gang := v.iss.gang, pc := v.iss.pc, done := done, upds := held, rows := rows, regs := regs,
                      noAlloc := [], err := err, mute := (rep.map (·.mute)).getD false } :: f.replay.filter fun x => x.gang != v.iss.gang }
        let s3 := s2.modSlot v.f fun sl => rows.foldl Slot.enliven { sl with pend := rows.foldl addOnce sl.pend }
        (Stop.freeze s3 frames).outcome s1 v sw

def issueMem (sw : Bool) (len : Nat) (us : View → List Use) (body : MemBody) (s : State) : Result :=
  issueMemAs ⟨false, false⟩ sw len us body s

/-- The lanes of an instruction that are still to be performed. -/
def leftOf (m : Mask) (rep : Option Replay) : Mask := match rep with | some r => m &&& ~~~r.done | none => m

def noAllocOf (rep : Option Replay) : List Nat := match rep with | some r => r.noAlloc | none => []

end Sys2Proof.Machine
end

