-- ==== Sys2Proof/Machine/Remote.lean ====
section
/-! DEFINITION. Remote requests at their source (R412 to R420): the ways to a target, sending, the retry limit, the plain
and the erroneous end of a request, and the arithmetic of atomics (R224). -/

namespace Sys2Proof

/-- An operation that carries a sequence number (R418). -/
def RemOp.sequenced : RemOp → Bool
  | .atom op _ _ _ => op == .add || op == .xor || op == .exch || op == .cas
  | .arrive .. | .post .. | .staged .. => true
  | .read _ | .write _ => false

def RemReq.sequenced (r : RemReq) : Bool := r.op.sequenced || r.arv.isSome

/-- The 512-byte block of a request; one without a VA has none (R413). -/
def RemReq.block (r : RemReq) : Option Nat :=
  match r.op with
  | .arrive .. | .post .. => none
  | .staged _ _ _ bs _ => if bs.isEmpty then none else some (r.va.toNat / 512)
  | .read _ | .write _ | .atom .. => some (r.va.toNat / 512)

/-- The bytes of a request's data. -/
def RemOp.bytes : RemOp → Nat
  | .write bs | .staged _ _ _ bs _ | .post _ bs => bs.length
  | _ => 0

end Sys2Proof

namespace Sys2Proof.Machine

open Sys2Proof

/-! ### Atomic arithmetic (R224) -/

/-- The width in bits of an atomic's word: packed 16-bit types act on 32. -/
def atomBits (ty : Ty) : Nat := if ty.is64 then 64 else 32

/-- One float element of an atomic: no flush, no flag, the default NaN. -/
def atomFloat (op : AtomOp) (ty : Ty) (a b : Nat) : Nat :=
  let x := (fpFmt ty).value a
  let y := (fpFmt ty).value b
  let r := match op with
    | .min => pickX false false x y
    | .max => pickX true false x y
    | _ => quietly (xadd x y)
  (quietly (roundFp 0 0 ty .rne r)).toNat

/-- The new value of an atomic from the old, the operand and the new value of cas. -/
def atomNew (op : AtomOp) (ty : Ty) (old b d : Nat) : Nat :=
  let w := atomBits ty
  let i := fun (x : Nat) => asInt ty (BitVec.ofNat 64 x)
  match op with
  | .and => old &&& b
  | .or => old ||| b
  | .xor => old ^^^ b
  | .exch => b % 2 ^ w
  | .cas => if old = b % 2 ^ w then d % 2 ^ w else old
  | .add | .min | .max =>
    match ty with
    | .f32 => atomFloat op .f32 old (b % 2 ^ 32)
    | .f16 | .bf16 => atomFloat op ty (old % 2 ^ 16) (b % 2 ^ 16) +
        2 ^ 16 * atomFloat op ty (old / 2 ^ 16 % 2 ^ 16) (b / 2 ^ 16 % 2 ^ 16)
    | _ => match op with
      | .min => if i b < i old then b % 2 ^ w else old
      | .max => if i old < i b then b % 2 ^ w else old
      | _ => (old + b) % 2 ^ w

/-! ### Ways (R410, R413, R427) -/

/-- A port through which requests leave. -/
def Port.live (p : Port) : Bool := p.st == .up || p.st == .degraded

def State.portLive (s : State) (n : Nat) : Bool := if h : n < 40 then (s.ports[n]).live else false

/-- The pod of a device id (R20). -/
def podOf (dev : BitVec 16) : Nat := (dev.extractLsb' 9 7).toNat

/-- The port of a plane that requests use (R24): the lower-numbered live one is the model's choice (log entry 18). -/
def State.planePort (s : State) (p : Nat) : Option Nat := [2 * p, 2 * p + 1].find? s.portLive

/-- The ways to a device: its own ingress, the available planes that reach it, or the Sirocco ports to its pod. -/
def State.pathsTo (s : State) (dev : BitVec 16) : List Path :=
  if dev == s.dev then [.self]
  else if podOf dev == podOf s.dev then
    (upTo 16).filterMap fun p =>
      if s.planes.getD p .unavailable == .available && s.routes.contains (p, dev) then
        (s.planePort p).map fun n => .plane p n else none
  else
    (upTo 8).filterMap fun k =>
      if (s.span.getD (podOf dev) 0).getLsbD k && s.portLive (32 + k) then some (.span (32 + k)) else none

/-- The ways of a multicast: every available plane with a live port (R422). -/
def State.pathsOut (s : State) : List Path :=
  (upTo 16).filterMap fun p =>
    if s.planes.getD p .unavailable == .available then (s.planePort p).map fun n => .plane p n else none

/-- The plane of a way. -/
def Path.planeOf : Path → Option Nat
  | .plane p _ => some p
  | _ => none

/-- How a request leaves: on a way, later, or not at all. -/
inductive Way where
  | go (p : Path)
  | later
  | never
  deriving DecidableEq, Repr

/-- The capacity of a Sirocco port's replay buffer (R408, R426). -/
def replayBuffer : Nat := 2 ^ 27

/-- The bytes of a frame that carries some data: more than those, by how many the manual does not say (log entry 18). -/
def frameSize (bytes : Nat) : Nat := bytes + 1 + Config.frameExtra bytes

/-- A way on which a request can be injected now: a Sirocco port whose replay buffer is full injects nothing (R426). -/
def State.roomOn (s : State) (p : Path) (bytes : Nat) : Bool :=
  match p with
  | .span n =>
    if h : n < 40 then (s.ports[n]).frames.isEmpty || decide ((s.ports[n]).frames.foldl (· + ·) 0 + frameSize bytes ≤ replayBuffer) else false
  | _ => true

/-- The number by which the hash of R413 and R427 picks among the ways to a target: of the target and the block within a pod, of the target
alone for another pod or without a block. -/
def State.hashOf (s : State) (dst : BitVec 16) (mc : Bool) (block : Option Nat) : Nat :=
  Config.planeOf dst.toNat (if mc || podOf dst == podOf s.dev then block.getD 0 else 0)

/-- The sequence numbers that a request draws from: those of its target, or of its multicast group (R418, R422). -/
def Request.stream (q : Request) : Bool × BitVec 16 :=
  match q.req.grp with | some g => (true, g) | none => (false, q.dst)

/-- The open sequenced requests of a stream, oldest first. -/
def State.openSeqs (s : State) (k : Bool × BitVec 16) : List Request := s.requests.filter fun q => q.stream == k && q.req.seq.isSome

/-- The open requests of a fibre to a target, or group, that name the block of another (R413). -/
def State.sameBlock (s : State) (f : FibreRef) (dst : BitVec 16) (mc : Bool) (r : RemReq) : List Request :=
  s.requests.filter fun q =>
    q.f == f && (q.stream == (mc, dst) || (q.dst == dst && q.mc == mc)) && r.block.isSome && q.req.block == r.block

/-- The way of a request of a fibre, of an instruction whose first request is number `base` or later: while one of an earlier instruction to the
block is without its reply it waits, so that the two are performed in issue order even when the first is answered RNR; one of the same
instruction has the way of the others; else the hash picks one. At most 1,024 sequenced requests to a target are open (R413, R418; log entry
18). -/
def State.way (s : State) (f : FibreRef) (dst : BitVec 16) (mc : Bool) (r : RemReq) (base : Nat) : Way :=
  let paths := if mc then s.pathsOut else s.pathsTo dst
  let full := r.sequenced && decide (1024 ≤ (s.openSeqs (mc, dst)).length)
  let earlier := s.sameBlock f dst mc r
  if earlier.any fun q => q.id < base then .later
  else match earlier.head? with
  | some q =>
    let still := match q.path with
      | .plane p _ => paths.find? fun (x : Path) => x.planeOf == some p
      | x => if paths.contains x then some x else none
    match still with
    | some p => if full || !s.roomOn p r.op.bytes then .later else .go p
    | none => .later
  | none =>
    match paths[s.hashOf dst mc r.block % paths.length]? with
    | none => .never
    | some p => if full || !s.roomOn p r.op.bytes then .later else .go p

/-! ### Sending -/

/-- A number lies below another of the same source (R418). -/
def seqBelow (n lowest : BitVec 16) : Bool := n != lowest && decide ((lowest - n).toNat < 2 ^ 15)

/-- The lowest sequence number still open towards a target, else the next one. -/
def State.lowestSeq (s : State) (mc : Bool) (dst : BitVec 16) : BitVec 16 :=
  (s.openSeqs (mc, dst)).foldl (fun low q => match q.req.seq with
    | some n => if seqBelow n low then n else low
    | none => low) ((aget s.seqs (mc, dst)).getD 0)

def State.modPort (s : State) (n : Nat) (u : Port → Port) : State :=
  if h : n < 40 then { s with ports := s.ports.set n (u s.ports[n]) } else s

/-- A frame of a request on a Sirocco port (R425, R426). -/
def State.framed (s : State) (p : Path) (bytes : Nat) : State :=
  match p with
  | .span n => s.modPort n fun q => { q with frames := q.frames ++ [frameSize bytes], sent := q.sent + 1 }
  | _ => s

/-- The device to which a message goes by itself, and the bytes that it puts into frames. -/
def Message.to : Message → Option (BitVec 16)
  | .reply r _ _ => some r.sdev
  | .prepare dev .. | .prepared dev .. | .hoist dev .. | .abort dev .. | .aborted dev .. | .applied dev .. | .decision dev .. | .leader dev .. => some dev
  | .coll .. | .multicast .. | .service .. => none
def Message.bytes : Message → Nat
  | .reply _ (.ack bs) _ => bs.length
  | .leader _ _ (.plain ws) => 4 * ws.length
  | .leader _ _ (.coded cs xs) => 2 * cs.length + xs.length
  | _ => 0

/-- Send a message: one to another pod leaves in a frame of a Sirocco port, and waits while none has room (R425 to R427). -/
def State.say (s : State) (m : Message) : State :=
  match m.to with
  | some dev =>
    if podOf dev == podOf s.dev then { s with sent := m :: s.sent }
    else
      let paths := s.pathsTo dev
      match paths[s.hashOf dev false none % paths.length]? with
      | some p =>
        if s.roomOn p m.bytes then
          let s := s.framed p m.bytes
          { s with sent := m :: s.sent }
        else { s with outbox := s.outbox ++ [m] }
      | none => { s with outbox := s.outbox ++ [m] }
  | none => { s with sent := m :: s.sent }

/-- The messages that wait are sent as far as they can be. -/
def State.flushOutbox (s : State) : State := s.outbox.foldl State.say { s with outbox := [] }

/-- Inject a request: its sequence number, the incarnation known of the target, and its number. -/
def State.send (s : State) (f : FibreRef) (lanes : Mask) (limit : BitVec 32) (dst : BitVec 16) (mc : Bool) (r : RemReq)
    (p : Path) (use : ReplyUse) : State :=
  let next := (aget s.seqs (mc, dst)).getD 0
  let r := { r with
    sdev := s.dev, seq := if r.sequenced then some next else none, lowest := s.lowestSeq mc dst,
    inc := if mc then none else aget s.farInc dst, grp := if mc then some dst else none, known := if mc then s.farInc else [] }
  let s := s.framed p r.op.bytes
  { s with
    seqs := if r.sequenced then aset s.seqs (mc, dst) (next + 1) else s.seqs,
    nextId := s.nextId + 1,
    requests := s.requests ++ [{
      id := s.nextId, f := f, lanes := lanes, dst := dst, mc := mc, req := r, path := p,
      limit := (limit.extractLsb' 0 4).toNat, tries := 0, backoff := false, resent := false, answer := none, broken := none, use := use }] }

/-- A request of the view's fibre before it is sent. -/
def View.request (v : View) (asid : BitVec 16) (va : VA) (op : RemOp) (sc : Scope) (arv : Option (BitVec 8) := none) :
    RemReq :=
  { sdev := 0, sasid := v.f.asid, asid := asid, va := va, op := op, seq := none, lowest := 0, inc := none, arv := arv,
    scope := sc }

/-! ### Errors (R416) -/

/-- A remote error as the trap that it becomes; the PC is that of the boundary at which it is taken. -/
def remoteRec (code : Trap) (info : Byte) (va : VA) (lanes : Mask) : TrapRec :=
  { code := code, info := info, rp := false, asy := true, epc := 0, eaddr := va.setWidth 64, emask := lanes }

/-- The PC of the next instruction of a fibre: that of the gang that holds the turn. -/
def Fibre.nextPc (f : Fibre) : VA := ((f.gangs.find? fun g => g.id == f.turn).map (·.pc)).getD 0

/-- A remote error of a fibre: held until its next boundary, or a context fault when the fibre has exited (R416). -/
def State.remoteError (s : State) (r : FibreRef) (asid : BitVec 16) (t : TrapRec) : State :=
  match s.fibre? r with
  | some f =>
    if f.st == .exited || f.live == 0 then s.contextFault f { t with epc := f.nextPc }
    else s.modFibre r fun f => { f with held := f.held ++ [⟨.remote, t⟩] }
  | none =>
    let s := s.modCtx asid fun c => { c with
      fault := match c.fault with
        | none => some { cause := t.ecause, mask := t.emask, epc := 0, eaddr := t.eaddr, clu := 0, team := r.team, fib := r.fib,
                         die := 0, q := 0, pkt := 0 }
        | some x => some x
      st := if c.st == .closed then .closed else .faulted }
    s.note (.contextFault asid)

/-- The errors of one access as one: all its failed lanes, with the cause and address of the lowest (R416). -/
def joinErrors : List TrapRec → Option TrapRec
  | [] => none
  | t :: ts => some (ts.foldl (fun a b =>
      { (if lowest b.emask < lowest a.emask then b else a) with emask := a.emask ||| b.emask }) t)

/-- An access whose requests have all been answered raises the error of its failed lanes. -/
def State.gatherErrors (s : State) (r : FibreRef) (asid : BitVec 16) (id : Nat) : State :=
  match (s.fibre? r).bind fun f => f.out.find? fun o => o.id == id && o.remote.isEmpty with
  | some o =>
    match joinErrors o.fail with
    | some t => (s.modFibre r fun f => { f with out := f.out.map fun o => if o.id == id then { o with fail := [] } else o }).remoteError r asid t
    | none => s
  | none => s

/-- The fibre's open requests, by number. -/
def State.openRequests (s : State) (r : FibreRef) : List Nat := (s.requests.filter fun q => q.f == r).map (·.id)

/-- Later remote requests wait for an XFENCE (R437). -/
def Fibre.xfenced (f : Fibre) : Bool := f.out.any (·.rfence)

/-! ### One remote access for each lane -/

/-- Try to send requests in order; a request that must wait stops the instruction at issue, one that no way can carry ends
with LinkDown. The result is the state, the numbers sent, and the errors. -/
def State.sendAll (v : View) (dst : BitVec 16) (mc : Bool) (rs : List (Mask × RemReq × ReplyUse)) (s : State) :
    Chk (State × List Nat × List TrapRec) :=
  rs.foldlM (fun acc r =>
    match acc.1.way v.f.ref dst mc r.2.1 s.nextId with
    | .go p => .ok (acc.1.send v.f.ref r.1 v.f.xretry dst mc r.2.1 p r.2.2, acc.2.1 ++ [acc.1.nextId], acc.2.2)
    | .later => .error .stall
    | .never => .ok (acc.1, acc.2.1, acc.2.2 ++ [remoteRec .linkDown 0 r.2.1.va r.1])) (s, [], [])

/-- Errors met at issue are held when no lane of the access is under way. -/
def State.holdErrors (s : State) (v : View) (ids : List Nat) (es : List TrapRec) : State :=
  match joinErrors es with
  | some t => if ids.isEmpty then s.remoteError v.f.ref v.f.asid t else s
  | none => s

/-- Those that stay with the access else. -/
def keptErrors (ids : List Nat) (es : List TrapRec) : List TrapRec := if ids.isEmpty then [] else es

end Sys2Proof.Machine
end

