-- ==== Sys2Proof/Machine/Memory.lean ====
section
/-! DEFINITION. The memory instructions (08_memory_access.md R211 to R231, R477, R478) and the synchronisation
instructions of 09_consistency.md (BIND, UNBIND, ACQ, RELS; R237 to R249). -/

namespace Sys2Proof

/-- Spaces whose addresses are virtual addresses (R212). -/
def Space.wide : Space → Bool
  | .gl | .rm => true
  | _ => false

/-- Registers or pairs of a run (R211). -/
def Count.n : Count → Nat
  | .one => 1
  | .two => 2
  | .four => 4

/-- Bytes of an element (R213). -/
def Ty.bytes (ty : Ty) : Nat := ty.bits / 8

end Sys2Proof

namespace Sys2Proof.Machine

open Sys2Proof

/-! ### Addresses (R212) -/

/-- An address operand plus a displacement in bytes, in a lane. -/
def View.addrOf (v : View) (sc : Bool) (sp : Space) (a : Opnd) (disp : Int) (l : Nat) : Nat :=
  if sp.wide then (((v.src sc .n64 a l).toNat + disp) % 2 ^ 56).toNat
  else (((v.src sc .n32 a l).toNat + disp) % 2 ^ 32).toNat

/-- The displacement of a memory operand in units of `u` bytes; none in the remote space. -/
def dispOf (sp : Space) (c : BitVec 8) (u : Nat) : Int := if sp == .rm then 0 else c.toInt * u

/-- An access of `n` bytes that must be a multiple of `al`. -/
def accessOf (l addr n al : Nat) : Access := { lane := l, addr := addr, len := n, aligned := addr % al == 0 }

/-- Uses of an address operand, and of the target register in the remote space. -/
def addrUses (sc : Bool) (sp : Space) (a : Opnd) (c : BitVec 8) (m : Mask) : List Use :=
  useSrc sc sp.wide a m ++ (if sp == .rm then useS c m else [])

/-- Target device and ASID of a remote operand. -/
def View.targetDev (v : View) (c : BitVec 8) : BitVec 16 := (v.sval c).setWidth 16
def View.targetAsid (v : View) (c : BitVec 8) : BitVec 16 := (v.sval c).extractLsb' 16 16

/-! ### Parts of an access -/

/-- Byte offset of a part in its word. -/
def Target.offset : Target → Nat
  | .pad _ _ off => off % 4
  | .mem m => m.pa % 4

/-- The bytes of a part in a word. -/
def partOf (t : Target) (n : Nat) (w : Word) : Nat := w.toNat / 2 ^ (8 * t.offset) % 2 ^ (8 * n)

/-- Values of parts as values of `step` bytes each, where the parts are cut elsewhere. -/
def rejoin (step : Nat) (vals : List (Nat × Nat)) : List Nat :=
  if vals.all fun x => x.2 == step then vals.map (·.1)
  else
    let bs := vals.flatMap fun x => leBytes x.2 x.1
    (upTo (bs.length / step)).map fun i => leNat ((bs.drop (i * step)).take step)

/-- Words of `step` bytes each as the words of parts. -/
def recut (step : Nat) (ps : List (Target × Nat)) (ws : List Word) : List Word :=
  if ps.all fun p => p.2 == step then ws
  else
    let bs := ws.flatMap fun w => leBytes step w.toNat
    (ps.foldl (fun (acc : List Word × Nat) p =>
      (acc.1 ++ [BitVec.ofNat 32 (leNat ((bs.drop acc.2).take p.2))], acc.2 + p.2)) ([], 0)).1

/-- The bytes of an access. -/
def partsLen (ps : List (Target × Nat)) : Nat := (ps.map (·.2)).sum

/-- The words of an access that a load of a scope reads at home. -/
def State.homeReads (s : State) (a : Agent) (sc : Option Scope) (ps : List (Target × Nat)) : List Mapped :=
  match sc with
  | some sc => (ps.filterMap fun p => p.1.mapped?).filter fun m => s.loadLevel a m sc == .home
  | none => []

/-- Load the parts of an access: its values, of at most 4 bytes each, and whether a word was in error; a compressed block read at home is
counted once (R209). -/
def State.loadParts (s : State) (a : Agent) (sc : Option Scope) (ps : List (Target × Nat)) : State × List Nat × Bool :=
  let home := s.homeReads a sc ps
  let r := ps.foldl (fun acc p =>
    let (s, w, bad) := acc.1.loadWord a p.1 sc
    (s, acc.2.1 ++ [(partOf p.1 p.2 w, p.2)], acc.2.2 || bad)) (s, ([] : List (Nat × Nat)), false)
  (r.1.countReads home, rejoin (min 4 (partsLen ps)) r.2.1, r.2.2)

/-- Store words to the parts of an access; a store with a scope is then written through to its level (R218). -/
def State.storeParts (s : State) (a : Agent) (sc : Option Scope) (ps : List (Target × Nat)) (ws : List Word) : State :=
  ((ps.zip (recut (min 4 (partsLen ps)) ps ws)).foldl (fun s p => s.storeWord a p.1.1 p.1.2 p.2) s).storesThrough a (ps.map (·.1)) sc

/-- A loaded element extended to 32 bits (R213). -/
def extend32 (ty : Ty) (x : Nat) : Word :=
  match ty with
  | .i8 => (BitVec.ofNat 8 x).signExtend 32
  | .i16 => (BitVec.ofNat 16 x).signExtend 32
  | _ => BitVec.ofNat 32 x

/-- A loaded element as a scalar register holds it (R55). -/
def extend64 (ty : Ty) (xs : List Nat) : DWord :=
  match ty with
  | .i8 => (BitVec.ofNat 8 (xs.headD 0)).signExtend 64
  | .i16 => (BitVec.ofNat 16 (xs.headD 0)).signExtend 64
  | _ => BitVec.ofNat 64 (xs.headD 0 + xs.getD 1 0 * 2 ^ 32)

/-- Registers of a run: an element of 64 bits takes two. -/
def runRegs (ty : Ty) (cnt : Count) : Nat := if ty.is64 then 2 * cnt.n else cnt.n

/-- The words of a store's data in a lane, one for each register of its run (R213). -/
def View.dataWords (v : View) (ty : Ty) (n : Nat) (b : Opnd) (l : Nat) : List Word :=
  if b.x then
    let x := scalarValue v.f ty b.idx
    if ty.is64 then [x.setWidth 32, x.extractLsb' 32 32] else [x.setWidth 32]
  else (upTo n).map fun i => (v.vreg (b.idx.toNat + i)).at l

/-- Loaded lanes as writes of a run of registers. -/
def View.runUpds (v : View) (ty : Ty) (d : BitVec 8) (n : Nat) (rs : List (Nat × List Nat)) : List RegUpd :=
  if rs.isEmpty then []
  else (upTo n).flatMap fun k =>
    v.vecUpds false (d.toNat + k) (rs.map fun r => (r.1, (extend32 ty (r.2.getD k 0)).setWidth 64))

/-! ### Errors in data, tagged words -/

/-- A DataError found in the data of an instruction (R478): the PC is written when the trap is taken. -/
def dataErr (as : List (Nat × Nat)) (bad : Mask) : Option TrapRec :=
  if bad == 0 then none
  else some { code := .dataError, info := 0, rp := false, asy := true, epc := 0,
              eaddr := BitVec.ofNat 64 ((aget as (lowest bad)).getD 0), emask := bad }

/-- A target lies in a tagged word (R331). -/
def State.isTagged (s : State) (t : Target) : Bool :=
  match t with
  | .pad cl team off => match s.team? cl team with | some tm => tm.padTags.contains (off / 8) | none => false
  | .mem m => s.tags.contains (m.pa / 8)

/-- The addresses of the tagged parts of a lane's access. -/
def State.taggedAt (s : State) (r : Ready) : List Nat :=
  (r.parts.foldl (fun acc p =>
    (acc.1 + p.2, if s.isTagged p.1 then acc.2 ++ [acc.1] else acc.2)) (r.addr, ([] : List Nat))).2

/-- BarrierClobber before any lane is performed (R333). -/
def View.checkTags (v : View) (s : State) (rs : List Ready) : Chk Unit :=
  let hits := rs.map fun r => (r.lane, s.taggedAt r)
  let bad := maskOf fun l => hits.any fun h => h.1 == l && !h.2.isEmpty
  let all := hits.flatMap (·.2)
  v.trapIf .barrierClobber bad (BitVec.ofNat 64 (all.foldl min (all.headD 0)))

/-- A store or atomic to the constant space: Permission, after the segment and alignment checks (R26, R189). -/
def View.refuseConst (v : View) (sp : Space) (as : List Access) : Chk Unit := do
  if sp == .ko then
    v.checkAcc sp as
    v.trapIf .permission (lanesOfAcc as fun _ => true)

/-- A replay record's lanes are left out. -/
def lanesLeft (ls : List Nat) (rep : Option Replay) : List Nat :=
  match rep with
  | some r => ls.filter fun l => !lane r.done l
  | none => ls

def readyMask (rs : List Ready) : Mask := maskOf fun l => rs.any fun r => r.lane == l

/-- A memory instruction waits for remote loads and stores that its ordering puts before it. -/
def View.holdRemote (v : View) (ordered : Bool) : Chk Unit :=
  if ordered && v.f.out.any (fun o => !o.remote.isEmpty) then .error .hold else pure ()

/-- Later remote requests wait for an XFENCE (R437). -/
def View.holdXfence (v : View) : Chk Unit := if v.f.xfenced then .error .hold else pure ()

/-! ### LD and ST (R216 to R220) -/

/-- The destination of a remote load in a lane. -/
def View.remoteDst (v : View) (scf : Bool) (ty : Ty) (d : BitVec 8) (n l : Nat) : ReplyUse :=
  if scf then .scalar v.f.nextOut d.toNat ty
  else .vec v.f.nextOut l ((upTo n).filterMap fun i => quotaRow v.f.quota (d.toNat + i)) ty

/-- Uses of LD. -/
def ldUses (h : Hdr) (scf : Bool) (cnt : Count) (sp : Space) (ty : Ty) (d : BitVec 8) (a : Opnd) (c : BitVec 8) (v : View) :
    List Use :=
  let m := v.mask h scf
  addrUses scf sp a c m ++ (if scf then useDst true false d m else defRun (runRegs ty cnt) d.toNat m)

/-- A remote load (R220): one request for each lane; its destinations hold 0 until the reply comes. -/
def ldRemote (h : Hdr) (scf : Bool) (acq : Option Scope) (cnt : Count) (ty : Ty) (d : BitVec 8) (a : Opnd) (c : BitVec 8) :
    MemBody := fun v s _ => do
  let n := cnt.n * ty.bytes
  let lanes := v.runs h scf
  let at_ := fun l => v.addrOf scf .rm a 0 l
  v.checkAcc .rm (lanes.map fun l => accessOf l (at_ l) n n)
  v.holdXfence
  let (s, ids, es) ← s.sendAll v (v.targetDev c) false (lanes.map fun l =>
    (maskOf (· == l), v.request (v.targetAsid c) (BitVec.ofNat 56 (at_ l)) (.read n) (acq.getD .device),
      v.remoteDst scf ty d (runRegs ty cnt) l))
  let ups := if lanes.isEmpty then []
    else if scf then [.s d.toNat 0]
    else v.runUpds ty d (runRegs ty cnt) (lanes.map fun l => (l, []))
  pure ({ s := s.holdErrors v ids es, now := [], held := [],
          out := some { Out.of ups with remote := ids, fail := keptErrors ids es, fence := acq.isSome }, done := 0 }, [])

def execLd (h : Hdr) (scf : Bool) (acq : Option Scope) (cnt : Count) (sp : Space) (ty : Ty) (d : BitVec 8) (a : Opnd)
    (c : BitVec 8) (s : State) : Result :=
  issueMem h.sw 8 (ldUses h scf cnt sp ty d a c) (if sp == .rm then ldRemote h scf acq cnt ty d a c else fun v s rep => do
    let n := cnt.n * ty.bytes
    let lanes := lanesLeft (v.runs h scf) rep
    let accs := lanes.map fun l => accessOf l (v.addrOf scf sp a (dispOf sp c ty.bytes) l) n n
    let p ← v.prepare s sp .read (noAllocOf rep) accs
    let s := s.keepAll v.agent p
    let (s, rs) := p.ready.foldl (fun acc r =>
      let (s, xs, bad) := acc.1.loadParts v.agent acq r.parts
      (s, acc.2 ++ [(r.lane, xs, bad)])) (s, ([] : List (Nat × List Nat × Bool)))
    let bad := maskOf fun l => rs.any fun r => r.1 == l && r.2.2
    let vals := rs.map fun r => (r.1, r.2.1)
    let ups := match scf, vals with
      | true, (_, xs) :: _ => [.s d.toNat (extend64 ty xs)]
      | true, [] => []
      | false, vals => v.runUpds ty d (runRegs ty cnt) vals
    pure ({ s := s, now := [], held := ups,
            out := if accs.isEmpty && rep.isNone then none
              else some { Out.of [] with err := dataErr (accs.map fun x => (x.lane, x.addr)) bad },
            done := readyMask p.ready }, p.frames)) s

/-- The data of a store in a lane as bytes. -/
def View.dataBytes (v : View) (ty : Ty) (cnt : Count) (b : Opnd) (l : Nat) : List Byte :=
  (v.dataWords ty (runRegs ty cnt) b l).flatMap fun w => leBytes (min 4 ty.bytes) w.toNat

/-- A remote store (R220): outstanding until the target has acknowledged it. -/
def stRemote (h : Hdr) (rel : Option Scope) (cnt : Count) (ty : Ty) (a b : Opnd) (c : BitVec 8) : MemBody := fun v s _ => do
  let n := cnt.n * ty.bytes
  let lanes := lanesOf (v.active h)
  let at_ := fun l => v.addrOf false .rm a 0 l
  v.checkAcc .rm (lanes.map fun l => accessOf l (at_ l) n n)
  v.holdXfence
  v.holdRemote rel.isSome
  let (s, ids, es) ← s.sendAll v (v.targetDev c) false (lanes.map fun l =>
    (maskOf (· == l), v.request (v.targetAsid c) (BitVec.ofNat 56 (at_ l)) (.write (v.dataBytes ty cnt b l))
      (rel.getD .device), .nothing))
  pure ({ s := s.holdErrors v ids es, now := [], held := [],
          out := if ids.isEmpty then none
            else some { Out.of [] with remote := ids, fail := keptErrors ids es, fence := rel.isSome }, done := 0 }, [])

def execSt (h : Hdr) (rel : Option Scope) (cnt : Count) (sp : Space) (ty : Ty) (a b : Opnd) (c : BitVec 8) (s : State) :
    Result :=
  issueMem h.sw 8
    (fun v => addrUses false sp a c (v.active h) ++
      (if b.x then useS b.idx (v.active h) else useRun (runRegs ty cnt) b.idx.toNat (v.active h) b.last))
    (if sp == .rm then stRemote h rel cnt ty a b c else fun v s rep => do
      let n := cnt.n * ty.bytes
      let accs := (lanesLeft (lanesOf (v.active h)) rep).map fun l =>
        accessOf l (v.addrOf false sp a (dispOf sp c ty.bytes) l) n n
      v.refuseConst sp accs
      let p ← v.prepare s sp .write (noAllocOf rep) accs
      v.checkTags s p.ready
      v.holdRemote rel.isSome
      let s := p.ready.foldl (fun s r => s.storeParts v.agent rel r.parts (v.dataWords ty (runRegs ty cnt) b r.lane))
        (s.keepAll v.agent p)
      pure ({ s := s, now := [], held := [], out := none, done := readyMask p.ready }, p.frames)) s

/-! ### GATH and SCAT (R222, R223) -/

/-- The index of a lane. -/
def View.indexOf (v : View) (sx : Bool) (b : Opnd) (l : Nat) : Int :=
  asInt (if sx then .i32 else .n32) (v.src false .n32 b l)

/-- The completion bitmap before this pass: without .cont a first issue sets the bits of every lane outside P. -/
def View.bitmap (v : View) (h : Hdr) (cont : Bool) (cb : BitVec 3) (rep : Option Replay) : Mask :=
  if cont || rep.isSome then v.f.cb[cb.toNat]! else ~~~(v.active h)

/-- A trap after the bitmap is set leaves it set (R223). -/
def withBitmap {α : Type} (s : State) (v : View) (cb : BitVec 3) (m : Mask) (x : Chk α) : Chk α :=
  match x with
  | .error (.trap none t) => .error (.trap (some (s.upd v.f (.cb cb.toNat m))) t)
  | x => x

/-- The elements of a gather or scatter that are left. -/
def View.elements (v : View) (h : Hdr) (sx : Bool) (sp : Space) (ty : Ty) (a b : Opnd) (m : Mask) : List Access :=
  (lanesOf (v.active h &&& ~~~m)).map fun l =>
    accessOf l (v.addrOf false sp a (v.indexOf sx b l * ty.bytes) l) ty.bytes ty.bytes

def gathUses (h : Hdr) (sp : Space) (a b : Opnd) (cb : BitVec 3) (v : View) : List Use :=
  useSrc false sp.wide a (v.active h) ++ useSrc false false b (v.active h) ++
    [⟨.r (.cb cb.toNat), v.active h, false, false⟩]

/-- GATH (R223). DESIGN CHOICE: a lane whose data are in error counts as performed: its bit of CB is set, though its D is not written (log entry
52). -/
def execGath (h : Hdr) (cont sx : Bool) (sp : Space) (ty : Ty) (d : BitVec 8) (a b : Opnd) (cb : BitVec 3) (s : State) :
    Result :=
  issueMem h.sw 8 (fun v => gathUses h sp a b cb v ++ defRun (runRegs ty .one) d.toNat (v.active h)) (fun v s rep => do
    if v.active h == 0 then return ({ s := s, now := [], held := [], out := none, done := 0 }, [])
    let m := v.bitmap h cont cb rep
    let accs := v.elements h sx sp ty a b m
    let p ← withBitmap s v cb m (v.prepare s sp .read (noAllocOf rep) accs)
    let (s, rs) := p.ready.foldl (fun acc r =>
      let (s, xs, bad) := acc.1.loadParts v.agent none r.parts
      (s, acc.2 ++ [(r.lane, xs, bad)])) (s.keepAll v.agent p, ([] : List (Nat × List Nat × Bool)))
    let bad := maskOf fun l => rs.any fun r => r.1 == l && r.2.2
    pure ({ s := s, now := [.cb cb.toNat (m ||| readyMask p.ready)]
            held := v.runUpds ty d (runRegs ty .one) (rs.map fun r => (r.1, r.2.1))
            out := some { Out.of [] with regs := [.cb cb.toNat], err := dataErr (accs.map fun x => (x.lane, x.addr)) bad }
            done := readyMask p.ready }, p.frames)) s

def execScat (h : Hdr) (cont sx : Bool) (sp : Space) (ty : Ty) (d : BitVec 8) (a b : Opnd) (cb : BitVec 3) (s : State) :
    Result :=
  issueMem h.sw 8 (fun v => gathUses h sp a b cb v ++ useRun (runRegs ty .one) d.toNat (v.active h) false)
    (fun v s rep => do
      if v.active h == 0 then return ({ s := s, now := [], held := [], out := none, done := 0 }, [])
      let m := v.bitmap h cont cb rep
      withBitmap s v cb m (v.refuseConst sp (v.elements h sx sp ty a b m))
      let p ← withBitmap s v cb m (v.prepare s sp .write (noAllocOf rep) (v.elements h sx sp ty a b m))
      withBitmap s v cb m (v.checkTags s p.ready)
      let s := p.ready.foldl (fun s r => s.storeParts v.agent none r.parts
        (v.dataWords ty (runRegs ty .one) ⟨d, false, false⟩ r.lane)) (s.keepAll v.agent p)
      pure ({ s := s, now := [.cb cb.toNat (m ||| readyMask p.ready)], held := []
              out := some { Out.of [] with regs := [.cb cb.toNat] }, done := readyMask p.ready }, p.frames)) s

/-! ### ATOM and RED (R224 to R227) -/

/-- The operand of an atomic in a lane. -/
def View.atomArg (v : View) (ty : Ty) (b : Opnd) (l : Nat) : Nat :=
  match ty with
  | .f16 | .bf16 => v.packed false ty b l 0 + 2 ^ 16 * v.packed false ty b l 1
  | _ => (v.src false ty b l).toNat

/-- The lanes of an atomic in increasing order (R225): old values and errors. -/
def View.atomLanes (v : View) (op : AtomOp) (ty : Ty) (sc : Scope) (b : Opnd) (d : Nat → Nat) (rs : List Ready) (s : State) :
    State × List (Nat × Nat × Bool) :=
  rs.foldl (fun acc r =>
    let (s, old, bad) := acc.1.atomicParts v.agent r.parts (atomBits ty / 8) sc
      fun old => some (atomNew op ty old (v.atomArg ty b r.lane) (d r.lane))
    (s, acc.2 ++ [(r.lane, old, bad)])) (s, [])

/-- The accesses of an atomic. -/
def View.atomAccs (v : View) (h : Hdr) (sp : Space) (ty : Ty) (a : Opnd) (rep : Option Replay) : List Access :=
  let n := atomBits ty / 8
  (lanesLeft (lanesOf (v.active h)) rep).map fun l => accessOf l (v.addrOf false sp a 0 l) n n

def execAtom (h : Hdr) (op : AtomOp) (sp : Space) (ty : Ty) (sc : Scope) (ord : AtomOrd) (d : BitVec 8) (a b : Opnd)
    (s : State) : Result :=
  issueMem h.sw 8
    (fun v => useSrc false sp.wide a (v.active h) ++ useSrc false ty.is64 b (v.active h) ++
      (if op == .cas then useRun (runRegs ty .one) d.toNat (v.active h) false else []) ++
      defRun (runRegs ty .one) d.toNat (v.active h)) (fun v s rep => do
    let accs := v.atomAccs h sp ty a rep
    v.refuseConst sp accs
    let p ← v.prepare s sp .both (noAllocOf rep) accs
    v.checkTags s p.ready
    v.holdRemote (ord == .rel || ord == .ar)
    let (s, rs) := v.atomLanes op ty sc b (fun l => (v.vval ty.is64 d.toNat l).toNat) p.ready (s.keepAll v.agent p)
    let bad := maskOf fun l => rs.any fun r => r.1 == l && r.2.2
    pure ({ s := s, now := []
            held := if rs.isEmpty then [] else v.vecUpds ty.is64 d.toNat (rs.map fun r => (r.1, BitVec.ofNat 64 r.2.1))
            out := if accs.isEmpty && rep.isNone then none
              else some { Out.of [] with err := dataErr (accs.map fun x => (x.lane, x.addr)) bad }
            done := readyMask p.ready }, p.frames)) s

/-- The lanes in error whose home answers with errors (R466). -/
def State.goneLanes (s : State) (rs : List Ready) (bad : Mask) : Mask :=
  bad &&& maskOf fun l => rs.any fun r => r.lane == l && r.parts.any fun q => q.1.mapped?.any fun m => s.gone (some m.die) m.pa

/-- RED (R225, R477): a poisoned word is left unchanged and nothing is raised, by the model's choice (log entry 30); at a home that answers
with errors RED is an atomic that raises DataError (R466). -/
def execRed (h : Hdr) (op : AtomOp) (sp : Space) (ty : Ty) (sc : Scope) (rel : Bool) (a b : Opnd) (s : State) : Result :=
  issueMem h.sw 8
    (fun v => useSrc false sp.wide a (v.active h) ++ useSrc false ty.is64 b (v.active h)) (fun v s rep => do
    v.refuseConst sp (v.atomAccs h sp ty a rep)
    let p ← v.prepare s sp .both (noAllocOf rep) (v.atomAccs h sp ty a rep)
    v.checkTags s p.ready
    v.holdRemote rel
    let (s, rs) := v.atomLanes op ty sc b (fun _ => 0) p.ready (s.keepAll v.agent p)
    let lost := s.goneLanes p.ready (maskOf fun l => rs.any fun r => r.1 == l && r.2.2)
    let err := dataErr ((v.atomAccs h sp ty a rep).map fun x => (x.lane, x.addr)) lost
    pure ({ s := s, now := [], held := [], out := err.map fun t => { Out.of [] with err := some t }, done := readyMask p.ready }, p.frames)) s

/-! ### FENCE, PREF, CINV, CWB (R228 to R231) -/

/-- What a release of a fibre at a scope waits for (R230, R286): its remote loads and its matrix commands that access memory always,
at pod and span scope every request. -/
def State.releaseWaits (s : State) (f : Fibre) (sc : Scope) : List Nat :=
  let reqs := (s.requests.filter fun q => q.f == f.ref && ((sc == .pod || sc == .span) ||
    match q.use with | .vec .. | .scalar .. => true | _ => false)).map (·.id)
  reqs ++ (f.out.flatMap (·.remote)).filter fun i => !(s.requests.any fun q => q.id == i) && !(s.aborts.any fun a => a.id == i)

/-- The work of a FENCE (R230): rel, then acq. -/
def State.fenceWork (s : State) (a : Agent) (m : FenceMode) (sc : Scope) : State :=
  let s := if m == .acq then s else s.fenceRel a sc
  if m == .rel then s else s.fenceAcq a sc

/-- FENCE (R230, R231): a release that must wait for earlier accesses does its work again, and then its acquire, when they have been
performed. -/
def execFence (sw : Bool) (m : FenceMode) (sc : Scope) (s : State) : Result :=
  issueMem sw 8 (fun _ => []) (fun v s _ =>
    let waits := if m == .acq then [] else s.releaseWaits v.f sc
    .ok ({ s := if waits.isEmpty then s.fenceWork v.agent m sc else s.fenceRel v.agent sc, now := [], held := []
           out := some { Out.of [] with
             remote := waits, fence := true, tail := if waits.isEmpty then none else some (.fence m sc) }
           done := 0 }, [])) s

/-- PREF (R228): a lane that would fail does nothing. The line then serves later ordinary loads as any other, by the model's choice (log
entry 15). DESIGN CHOICE: of the permissions that would fail a lane the model takes R, though R198 asks none of a
prefetch (log entry 52). -/
def execPref (h : Hdr) (lvl : PrefLevel) (sp : Space) (a : Opnd) (c : BitVec 8) (s : State) : Result :=
  issue h.sw 8 (fun v => addrUses false sp a 0 (v.active h)) (fun v s =>
    if v.f.fenced then .error .hold
    else .ok ((lanesOf (v.active h)).foldl (fun s l =>
      let addr := v.addrOf false sp a (dispOf sp c 1) l
      match v.laneInSegment sp l addr 1, v.laneSpots sp l addr 1 with
      | true, (.va z, _) :: _ =>
        match s.xlat v.agent v.c z .read with
        | .ok e =>
          let m := e.place z
          if lvl == .l1 then s.fillL1 v.agent m (m.pa / 128) else s.fillDc v.die m (m.pa / 128)
        | _ => s
      | _, _ => s) s)) s

/-- The lines of a CINV or CWB. -/
def lineOp (discard : Bool) (h : Hdr) (sc : Scope) (sp : Space) (a : Opnd) (c : BitVec 8) (s : State) : Result :=
  issueMem h.sw 8 (fun v => addrUses false sp a 0 (v.active h)) (fun v s rep => do
    if sp == .tm || sp == .cl then return ({ s := s, now := [], held := [], out := none, done := 0 }, [])
    let accs := (lanesLeft (lanesOf (v.active h)) rep).map fun l => accessOf l (v.addrOf false sp a (dispOf sp c 1) l) 1 1
    let p ← v.prepare s sp .read (noAllocOf rep) accs
    let s := p.ready.foldl (fun s r => match r.parts.head? with
      | some (.mem m, _) =>
        let here := fun (x : Copy) => x.word / 32 == m.pa / 128
        let s := s.throughAll v.agent (levelOf sc) here
        if discard then s.discard v.agent (levelOf sc) here else s
      | _ => s) (s.keepAll v.agent p)
    pure ({ s := s, now := [], held := []
            out := if accs.isEmpty && rep.isNone then none else some { Out.of [] with fence := true }
            done := readyMask p.ready }, p.frames)) s

def execCinv (h : Hdr) (sc : Scope) (sp : Space) (a : Opnd) (c : BitVec 8) (s : State) : Result := lineOp true h sc sp a c s
def execCwb (h : Hdr) (sc : Scope) (sp : Space) (a : Opnd) (c : BitVec 8) (s : State) : Result := lineOp false h sc sp a c s

/-! ### Bindings (R238, R239, R247) -/

/-- Entry `i` of a binding table: the object and the region of a valid entry. -/
def State.bindEntry (s : State) (c : Context) (i : Nat) : Option (VA × Nat × Nat) :=
  let pa := c.bindtab + 32 * i
  let lo := s.home64 pa
  let b := valueAt s.mem (pa + 8) 7
  let n := valueAt s.mem (pa + 16) 4
  if lo.getLsbD 63 then some (lo.setWidth 56, b, n) else none

/-- The regions bound to an object in the table. -/
def State.tableRegions (s : State) (c : Context) (o : VA) : List (Nat × Nat) :=
  (upTo 1024).filterMap fun i => match s.bindEntry c i with
    | some (x, b, n) => if x == o then some (b, n) else none
    | none => none

/-- The regions bound to an object as a die sees them, and the state with its binding cache filled. -/
def State.bound (s : State) (die : Nat) (c : Context) (o : VA) : State × List (Nat × Nat) :=
  match s.binds.find? fun x => x.1 == die && x.2.asid == c.asid && x.2.obj == o with
  | some x => (s, x.2.regions)
  | none =>
    let rs := s.tableRegions c o
    ({ s with binds := s.binds ++ [(die, { asid := c.asid, obj := o, regions := rs })] }, rs)

/-- Write entry `i`; the binding caches of every die drop what they hold of the context (R239). -/
def State.putBind (s : State) (c : Context) (i : Nat) (e : Option (VA × Nat × Nat)) : State :=
  let pa := c.bindtab + 32 * i
  let s := { s with binds := s.binds.filter fun x => x.2.asid != c.asid }
  match e with
  | some (o, b, n) => s.putHomeBytes pa
      (leBytes 8 (o.toNat + 2 ^ 63) ++ leBytes 8 b ++ leBytes 4 n ++ List.replicate 12 0)
  | none => s.putHomeBytes (pa + 7) [(byteAt s.mem (pa + 7)) &&& 0x7F]

/-- An instruction that completes as an outstanding result. -/
def completes (s : State) : Performed × List Nat :=
  ({ s := s, now := [], held := [], out := some (Out.of []), done := 0 }, [])

def execBind (sw : Bool) (i : BitVec 10) (a b c : BitVec 8) (s : State) : Result :=
  issueMem sw 8 (fun v => useS a v.g.lanes ++ useS b v.g.lanes ++ useS c v.g.lanes) (fun v s _ => do
    let o : VA := (v.sval a).setWidth 56
    let r : VA := (v.sval b).setWidth 56
    let n := ((v.sval c).setWidth 32 : Word).toNat
    v.require .misaligned (o.toNat % 8 == 0) (o.setWidth 64)
    v.require .misaligned (r.toNat % 4 == 0 && n % 4 == 0 && n != 0) (r.setWidth 64)
    v.require .segmentLimit (v.inSegment .gl o.toNat 8) (o.setWidth 64)
    v.require .segmentLimit (v.inSegment .gl r.toNat n) (r.setWidth 64)
    pure (completes (s.putBind v.c i.toNat (some (o, r.toNat, n))))) s

def execUnbind (sw : Bool) (i : BitVec 10) (s : State) : Result :=
  issueMem sw 8 (fun _ => []) (fun v s _ => .ok (completes (s.putBind v.c i.toNat none))) s

def execUnbindObj (sw : Bool) (a : BitVec 8) (s : State) : Result :=
  issueMem sw 8 (fun v => useS a v.g.lanes) (fun v s _ =>
    let o : VA := (v.sval a).setWidth 56
    .ok (completes ((upTo 1024).foldl (fun s i => match s.bindEntry v.c i with
      | some (x, _) => if x == o then s.putBind v.c i none else s
      | none => s) s))) s

/-! ### ACQ and RELS (R240, R248, R249) -/

/-- A copy's word lies in one of the regions, under the context's ASID (R240). -/
def inRegions (asid : BitVec 16) (rs : List (Nat × Nat)) (c : Copy) : Bool :=
  c.asid == asid && rs.any fun r => decide (r.1 ≤ c.va.toNat) && decide (c.va.toNat < r.1 + r.2)

/-- An acquire's discard of the regions bound to an object. -/
def View.acquire (v : View) (sc : Scope) (o : VA) (s : State) : State :=
  let (s, rs) := s.bound v.die v.c o
  s.discard v.agent (levelOf sc) (inRegions v.c.asid rs)

/-- A release's write-through of the regions bound to an object. -/
def View.releaseRegions (v : View) (sc : Scope) (o : VA) (s : State) : State :=
  let (s, rs) := s.bound v.die v.c o
  s.throughAll v.agent (levelOf sc) (inRegions v.c.asid rs)

/-- The objects of performed lanes, each once. -/
def objectsOf (rs : List Ready) : List VA := rs.foldl (fun acc r => addOnce acc (BitVec.ofNat 56 r.addr)) []

def View.objectAccs (v : View) (h : Hdr) (a : Opnd) (rep : Option Replay) : List Access :=
  (lanesLeft (lanesOf (v.active h)) rep).map fun l => accessOf l (v.addrOf false .gl a 0 l) 8 8

def execAcq (h : Hdr) (op : AcqOp) (sc : Scope) (d : BitVec 8) (a : Opnd) (s : State) : Result :=
  issueMem h.sw 8
    (fun v => useSrc false true a (v.active h) ++ (match op with
      | .ld => []
      | .cas b c => useSrc false true b (v.active h) ++ useSrc false true c (v.active h)) ++
      defRun 2 d.toNat (v.active h)) (fun v s rep => do
    let accs := v.objectAccs h a rep
    let p ← v.prepare s .gl (match op with | .ld => .read | .cas .. => .both) (noAllocOf rep) accs
    match op with
    | .ld => pure ()
    | .cas .. => v.checkTags s p.ready
    let (s, rs) := p.ready.foldl (fun acc r =>
      match r.parts.head? with
      | none => acc
      | some q =>
        let (s, old, bad) := acc.1.atomic v.agent q.1 8 sc fun old => match op with
          | .ld => none
          | .cas b c => if old = (v.src false .n64 b r.lane).toNat then some (v.src false .n64 c r.lane).toNat else none
        (s, acc.2 ++ [(r.lane, old, bad)])) (s.keepAll v.agent p, ([] : List (Nat × Nat × Bool)))
    let bad := maskOf fun l => rs.any fun r => r.1 == l && r.2.2
    let s := (objectsOf p.ready).foldl (fun s o => v.acquire sc o s) s
    pure ({ s := s, now := []
            held := if rs.isEmpty then [] else v.vecUpds true d.toNat (rs.map fun r => (r.1, BitVec.ofNat 64 r.2.1))
            out := if accs.isEmpty && rep.isNone then none
              else some { Out.of [] with err := dataErr (accs.map fun x => (x.lane, x.addr)) bad }
            done := readyMask p.ready }, p.frames)) s

/-- A store of an object's 64 bits at the level of a scope, whole words (R249, R477). -/
def State.putObject (s : State) (a : Agent) (sc : Scope) (t : Target) (x : DWord) : State :=
  match t with
  | .mem m =>
    let lv := atomLevel m sc
    let m1 := { m with pa := m.pa + 4, va := m.va + 4 }
    if lv == .home && s.gone (some m.die) m.pa then s.contextError m.asid m.pa
    else
      let s := ((s.forBase lv m).through a lv (m.pa / 4)).through a lv (m1.pa / 4)
      ((s.rmwWord a lv m (x.setWidth 32)).rmwWord a lv m1 (x.extractLsb' 32 32)).atHome lv true [m, m1]
  | .pad .. => s

/-- An addition to an object's 64 bits at the level of a scope (R249); one whose home answers with errors is lost, a context error (R466). -/
def State.addObject (s : State) (a : Agent) (sc : Scope) (t : Target) (x : DWord) : State :=
  let (s, _, bad) := s.atomic a t 8 sc fun old => some ((old + x.toNat) % 2 ^ 64)
  match t with
  | .mem m => if bad && s.gone (some m.die) m.pa then s.contextError m.asid m.pa else s
  | .pad .. => s

/-- RELS (R249): an addition to a poisoned object leaves it unchanged and raises nothing, by the model's choice (log entry 30). -/
def execRels (h : Hdr) (op : RelsOp) (sc : Scope) (a b : Opnd) (s : State) : Result :=
  issueMem h.sw 8
    (fun v => useSrc false true a (v.active h) ++ useSrc false true b (v.active h)) (fun v s rep => do
    let accs := v.objectAccs h a rep
    let p ← v.prepare s .gl (match op with | .st => .write | .add => .both) (noAllocOf rep) accs
    v.checkTags s p.ready
    if !p.ready.isEmpty && !(s.releaseWaits v.f sc).isEmpty then .error (.wait s (.released sc))
    let s := (objectsOf p.ready).foldl (fun s o => v.releaseRegions sc o s) (s.keepAll v.agent p)
    let s := p.ready.foldl (fun s r => match r.parts.head? with
      | none => s
      | some q => match op with
        | .st => s.putObject v.agent sc q.1 (v.src false .n64 b r.lane)
        | .add => s.addObject v.agent sc q.1 (v.src false .n64 b r.lane)) s
    pure ({ s := s, now := [], held := []
            out := if accs.isEmpty && rep.isNone then none else some (Out.of [])
            done := readyMask p.ready }, p.frames)) s

end Sys2Proof.Machine
end

