-- ==== Sys2Proof/Machine/Slots.lean ====
section
/-! DEFINITION. The fibre instructions: windows given away (R124), slot flags and fibre barriers (R125 to R127), with the
events that count what was deferred, forced rotation and the gang turn limit (R118, R120). -/

namespace Sys2Proof.Machine

open Sys2Proof

/-! ### Window fields (R111) -/

structure Quota where
  sa : Bool
  scount : Nat
  sbase : Nat
  plo : Nat
  pbase : Nat
  pcount : Nat
  deriving DecidableEq, Repr

def quotaOf (q : BitVec 32) : Quota :=
  { sa := q.getLsbD 31, scount := (q.extractLsb' 23 8).toNat, sbase := (q.extractLsb' 18 5).toNat,
    plo := (q.extractLsb' 13 5).toNat, pbase := (q.extractLsb' 8 5).toNat, pcount := (q.extractLsb' 0 8).toNat + 1 }

def Quota.bits (q : Quota) : BitVec 32 :=
  bit q.sa ++ BitVec.ofNat 8 q.scount ++ BitVec.ofNat 5 q.sbase ++ BitVec.ofNat 5 q.plo ++ BitVec.ofNat 5 q.pbase ++
    BitVec.ofNat 8 (q.pcount - 1)

/-- The fibres of a slot. -/
def State.slotFibres (s : State) (cl team slot : Nat) : List Fibre :=
  s.fibres.filter fun f => f.ref.cl == cl && f.ref.team == team && f.slot == slot

/-- Those that have not exited. -/
def State.slotLive (s : State) (cl team slot : Nat) : List Fibre :=
  (s.slotFibres cl team slot).filter fun f => f.st != .exited

/-- REQUOTA (R124). -/
def execRequota (sw : Bool) (a b : BitVec 8) (s : State) : Result :=
  issueColl sw 8 (fun v => useS a v.g.lanes ++ useS b v.g.lanes) (fun v s =>
    let t := ((v.sval a).setWidth 6).toNat
    let g := ((v.sval b).setWidth 6).toNat
    if g = 0 then .ok s
    else
      let taker := (s.slotLive v.f.ref.cl v.f.ref.team v.f.slot).find? fun f => f.ref.fib == t && f.ref != v.f.ref
      match taker with
      | none => .error (v.stop .fibreQuota v.g.lanes)
      | some tk => do
        v.require .fibreQuota (decide (g ≤ 32))
        let gq := quotaOf v.f.quota
        let tq := quotaOf tk.quota
        let ga := ceilDiv gq.pcount 8
        let ta := ceilDiv tq.pcount 8
        v.require .fibreQuota (tq.pbase + ta == gq.pbase + gq.plo)
        v.require .fibreQuota (decide (gq.plo + g ≤ ga - 1))
        let count := 8 * (ta + g)
        v.require .fibreQuota (decide (count ≤ 256 - (if tq.sa then tq.scount else 0)))
        let rows := (upTo (8 * g)).map fun i => 8 * (gq.pbase + gq.plo) + i
        v.require .markerHazard (!rows.any v.sl.pend.contains)
        let slack := (upTo (8 * ta - tq.pcount)).map fun i => 8 * tq.pbase + tq.pcount + i
        let s := s.modFibre v.f.ref fun f => { f with quota := { gq with plo := gq.plo + g }.bits }
        let s := s.modFibre tk.ref fun f => { f with quota := { tq with pcount := count }.bits }
        pure (s.modSlot v.f fun sl => (rows ++ slack).foldl Slot.kill sl)) s

/-! ### Flags (R125, R126) -/

/-- The addition of a post. -/
def Slot.post (sl : Slot) (f n : Nat) : Slot := { sl with flags := sl.flags.set! f (min 255 (sl.flags[f]! + n)) }

/-- FPOST (R125). -/
def execFpost (sw : Bool) (a b : BitVec 8) (s : State) : Result :=
  issueColl sw 8 (fun v => useS a v.g.lanes ++ useS b v.g.lanes) (fun v s =>
    let f := ((v.sval a).setWidth 4).toNat
    let n := ((v.sval b).setWidth 8).toNat
    if n = 0 then .ok s
    else if v.f.out.isEmpty && v.f.posts.isEmpty then .ok (s.modSlot v.f fun sl => sl.post f n)
    else .ok (s.modFibre v.f.ref fun x => { x with posts := x.posts ++ [(f, n, x.out.map (·.id))] })) s

/-- The results that something waits for have all returned. -/
def Fibre.returned (f : Fibre) (ids : List Nat) : Bool := ids.all fun i => !(f.out.any fun o => o.id == i)

/-- DEFERRED_FPOST_APPLY (R125): the first deferred post of the fibre. -/
def execDeferredFpostApply (f : FibreRef) (s : State) : Result :=
  match s.fibre? f with
  | none => .next s
  | some x =>
    match x.posts with
    | (flag, n, ids) :: rest =>
      if x.returned ids then
        .next ((s.modSlot x fun sl => sl.post flag n).modFibre f fun x => { x with posts := rest })
      else .next s
    | [] => .next s

/-- FWAIT (R126). -/
def execFwait (sw : Bool) (a b : BitVec 8) (s : State) : Result :=
  issueColl sw 8 (fun v => useS a v.g.lanes ++ useS b v.g.lanes) (fun v s =>
    let f := ((v.sval a).setWidth 4).toNat
    let n := ((v.sval b).setWidth 8).toNat
    if n = 0 then .ok s
    else if !(v.sl.queue.any fun q => q.1 == f) && decide (n ≤ v.sl.flags[f]!) then
      .ok (s.modSlot v.f fun sl => { sl with flags := sl.flags.set! f (sl.flags[f]! - n) })
    else .ok ((s.modSlot v.f fun sl => { sl with queue := sl.queue ++ [(f, v.f.pos, n)] }).modFibre v.f.ref fun x =>
      { x with st := .parked (.flag f n) })) s

/-! ### Fibre barriers (R127) -/

/-- A complete barrier releases its fibres: they are ready once their results have returned. -/
def State.releaseBar (s : State) (cl team slot b : Nat) : State :=
  let parts := (s.slotLive cl team slot).length
  match s.slots.find? fun x => x.is cl team slot with
  | some sl =>
    if sl.bars[b]! != 0 && decide (parts ≤ sl.bars[b]!) then
      let freed : Slot → Slot := fun x => if x.is cl team slot then { x with bars := x.bars.set! b 0 } else x
      let ready : Fibre → Fibre := fun f =>
        if f.ref.cl == cl && f.ref.team == team && f.slot == slot && f.st == .parked (.barrier b) then
          { f with st := .parked .results } else f
      { s with slots := s.slots.map freed, fibres := s.fibres.map ready }
    else s
  | none => s

/-- Count one arrival. -/
def State.countBar (s : State) (f : Fibre) (b : Nat) : State :=
  (s.modSlot f fun sl => { sl with bars := sl.bars.set! b (sl.bars[b]! + 1) }).releaseBar f.ref.cl f.ref.team f.slot b

/-- The arrival of a fibre at barrier `b` completes the set, once the arrivals of its own that still wait for results have been counted. -/
def State.completesBar (s : State) (f : Fibre) (sl : Slot) (b : Nat) : Bool :=
  let parts := (s.slotLive f.ref.cl f.ref.team f.slot).length
  let mine := (f.arrivals.filter fun x => x.1 == b).length
  (sl.bars[b]! + mine) % max 1 parts + 1 == parts

/-- FBAR (R107, R127): the arrival is counted at once, or when the results outstanding at issue have returned; the fibre parks unless its
arrival completes the set. -/
def execFbar (sw : Bool) (a : BitVec 8) (s : State) : Result :=
  issueColl sw 8 (fun v => useS a v.g.lanes) (fun v s =>
    let b := ((v.sval a).setWidth 2).toNat
    let ids := v.f.out.map (·.id)
    let s' := if s.completesBar v.f v.sl b then s else s.modFibre v.f.ref fun x => { x with st := .parked (.barrier b) }
    .ok (if ids.isEmpty && v.f.arrivals.isEmpty then s'.countBar v.f b
      else s'.modFibre v.f.ref fun x => { x with arrivals := x.arrivals ++ [(b, ids)] })) s

/-- FBAR_ARRIVAL_COUNT (R127): the first deferred arrival of the fibre. -/
def execFbarArrivalCount (f : FibreRef) (s : State) : Result :=
  match s.fibre? f with
  | none => .next s
  | some x =>
    match x.arrivals with
    | (b, ids) :: rest =>
      if x.returned ids then .next ((s.modFibre f fun x => { x with arrivals := rest }).countBar x b) else .next s
    | [] => .next s

/-! ### Turns -/

/-- A fibre whose age makes it urgent (R120). -/
def Fibre.aged (f : Fibre) : Bool := f.st == .run && decide (128 ≤ f.age)

/-- An urgent fibre that is ready without holding its slot. A holder that is urgent itself first issues, and so comes to its next instruction
boundary: of several urgent fibres each issues in its turn (R120, R121). -/
def State.urgent (s : State) (sl : Slot) (f : Fibre) : Bool :=
  f.aged && sl.holder != some f.pos && !((s.slotFibres sl.cl sl.team sl.slot).any fun y => sl.holder == some y.pos && y.aged)

/-- FORCED_ROTATION (R120): the slot passes to an urgent fibre, among several to the first in cyclic order. -/
def execForcedRotation (f : FibreRef) (s : State) : Result :=
  match s.fibre? f with
  | none => .next s
  | some x =>
    match s.slot? x with
    | none => .next s
    | some sl =>
      let from_ := match sl.holder with | some p => p | none => sl.last
      let dist := fun (y : Fibre) => (y.pos + 3 - from_ % 4) % 4
      let others := (s.slotFibres f.cl f.team x.slot).filter (s.urgent sl)
      if s.urgent sl x && others.all fun y => decide (dist x ≤ dist y) then
        .next (s.modSlot x fun sl => { sl with holder := some x.pos, last := x.pos })
      else .next s

/-- GANG_TURN_LIMIT (R118): 64 instructions in a row without a switch point. -/
def execGangTurnLimit (f : FibreRef) (s : State) : Result :=
  match s.fibre? f with
  | none => .next s
  | some x =>
    if x.parted && x.gangs.any fun g => g.id == x.turn && decide (64 ≤ g.count) then .next (s.modFibre f Fibre.passTurn)
    else .next s

end Sys2Proof.Machine
end

