-- ==== Sys2Proof/Machine/Groups.lean ====
section
/-! DEFINITION. Groups (13_group.md): arrivals, phases, waits, reductions and the members that leave (R321 to R328). -/

namespace Sys2Proof.Machine

open Sys2Proof

/-! ### Reductions (R327) -/

/-- One step of an integer or bitwise reduction. -/
def gredStep (op : GredOp) (ty : Ty) (a b : DWord) : DWord :=
  match op with
  | .add => wrapTo ty (asInt ty a + asInt ty b)
  | .min => if asInt ty b < asInt ty a then b else a
  | .max => if asInt ty a < asInt ty b then b else a
  | .and => a &&& b
  | .or => a ||| b
  | .xor => a ^^^ b

/-- The result of a phase from its contributions; a 32-bit result is zero-extended. -/
def gredResult (op : GredOp) (ty : Ty) (xs : List DWord) : DWord :=
  match ty with
  | .f32 =>
    let vs := xs.map fun x => (fpFmt .f32).value (x.toNat % 2 ^ 32)
    let r := match op, vs with
      | .add, vs => quietly (exactSum vs)
      | op, v :: vs => vs.foldl (pickX (op == .max) false) v
      | _, [] => XVal.zero
    (quietly (roundFp 0 0 .f32 .rne r)).setWidth 64
  | ty =>
    let cut := fun (x : DWord) => if ty.is64 then x else BitVec.ofNat 64 (x.toNat % 2 ^ 32)
    match xs.map cut with
    | [] => 0
    | x :: rest => cut (rest.foldl (gredStep op ty) x)

/-! ### The group table -/

def Kernel.group? (k : Kernel) (id : Nat) : Option Group := k.groups.find? fun e => e.id == id

def State.modGroup (s : State) (k : KernelRef) (id : Nat) (u : Group → Group) : State :=
  s.modKernel k fun k => { k with groups := k.groups.map fun e => if e.id == id then u e else e }

/-- Slot `j` of a fibre holds a group id (R322). -/
def Fibre.groupSlot (f : Fibre) (j : Nat) : Option Nat := if f.grp.getLsbD j then some (f.g.getD j 0).toNat else none

/-- The slot of a fibre that names a group. -/
def Fibre.slotOf (f : Fibre) (id : Nat) : Option Nat := (upTo 4).find? fun j => f.groupSlot j == some id

/-- Complete (R323): the result, the next phase, and the arrived bits of every member. -/
def State.completePhase (s : State) (k : KernelRef) (id : Nat) : State :=
  let s := s.modGroup k id fun e => { e with
    res := match e.kind with | some (.reduce op ty) => gredResult op ty e.acc | _ => e.res
    acc := [], a := 0, phase := e.phase + 1 }
  let clear : Fibre → Fibre := fun f =>
    if f.kern == k then
      match f.slotOf id with
      | some j => { f with garr := f.garr.filter fun x => x.1 != j }
      | none => f
    else f
  { s with fibres := s.fibres.map clear }

/-- Complete the phase when every expected member has arrived (R323, R324). -/
def State.checkPhase (s : State) (k : KernelRef) (id : Nat) : State :=
  match (s.kernel? k).bind fun x => x.group? id with
  | some e => if e.a != 0 && e.n ≤ e.a then s.completePhase k id else s
  | none => s

/-- A member that retires leaves its groups; an entry with no member left is retired (R324). -/
def State.leaveGroups (s : State) (f : Fibre) : State :=
  (upTo 4).foldl (fun s j =>
    match f.groupSlot j with
    | none => s
    | some id =>
      let s := (s.modGroup f.kern id fun e => { e with n := e.n - 1 }).checkPhase f.kern id
      s.modKernel f.kern fun k => { k with groups := k.groups.filter fun e => !(e.id == id && e.n == 0) }) s

/-! ### Arrivals (R323, R328) -/

/-- The entry of a group operand; a slot that is not valid traps IllegalInstruction (R326). -/
def View.groupEntry (v : View) (g : BitVec 2) : Chk Group :=
  match (v.f.groupSlot g.toNat).bind v.k.group? with
  | some e => .ok e
  | none => .error (v.stop .illegalInstruction v.g.lanes)

/-- Count an arrival at a group (R323). -/
def State.countArrival (s : State) (k : KernelRef) (id : Nat) (kind : GroupKind) (x : Option DWord) : State :=
  (s.modGroup k id fun e => { e with
    kind := if e.a == 0 then some kind else e.kind, a := e.a + 1,
    acc := match x with | some x => e.acc ++ [x] | none => e.acc }).checkPhase k id

/-- An arrival of the fibre at slot `g`: it waits when its arrived bit is still set, and until the accesses before its release have been
performed, an outstanding result meanwhile (R328); then it releases, traps when the phase has another kind, and otherwise is counted (R323). -/
def View.arrive (v : View) (s : State) (g : BitVec 2) (nf : Bool) (kind : GroupKind) (x : Option DWord) : Chk (Group × State) := do
  let e ← v.groupEntry g
  match aget v.f.garr g.toNat with
  | some ph => if e.phase == ph then .error (.wait s (.arrive e.id ph))
  | none => pure ()
  if !nf && !(s.releaseWaits v.f e.scope).isEmpty then .error (.wait s (.released e.scope))
  v.require .collectiveDivergence (e.a == 0 || e.kind == some kind)
  let s := if nf then s else s.fenceRel v.agent e.scope
  let s := s.modFibre v.f.ref fun f => { f with garr := aset f.garr g.toNat e.phase }
  pure (e, s.countArrival v.f.kern e.id kind x)

/-! ### Results that return -/

/-- The core and die of a placed team. -/
def State.agentOf (s : State) (cl team : Nat) : Agent :=
  ⟨((s.team? cl team).map (·.core)).getD 0, ((s.cluster? cl).map (·.die)).getD 0⟩

/-- What the return of a release still does: its work is made once the accesses before it have been performed. -/
def State.tailWork (s : State) (f : Fibre) (x : Tail) : State :=
  let a := s.agentOf f.ref.cl f.ref.team
  match x with
  | .fence m sc => s.fenceWork a m sc

/-- RESULT_RETURN (R114): the result at position `n` of the fibre's outstanding list, when every request that it waits for has been answered and
no wait makes it. -/
def execResultReturn (f : FibreRef) (n : Nat) (s : State) : Result :=
  match s.fibre? f with
  | none => .next s
  | some x =>
    match x.out[n]? with
    | some o =>
      if o.remote.isEmpty && o.waiter.isNone then
        .next (match o.tail with | some t => (s.returnOut f o.id).tailWork x t | none => s.returnOut f o.id)
      else .next s
    | none => .next s

/-! ### Waits -/

/-- The acquire of a completed wait. -/
def View.acquireAfter (v : View) (nf : Bool) (sc : Scope) (s : State) : State := if nf then s else s.fenceAcq v.agent sc

/-- The phase of a group as the state has it. -/
def State.phaseOf (s : State) (k : KernelRef) (id : Nat) : Option (BitVec 16) :=
  ((s.kernel? k).bind fun x => x.group? id).map (·.phase)

/-- Wait until a group leaves a phase, or go on at once. -/
def View.waitPhase (v : View) (s : State) (e : Group) (phase : BitVec 16) (nf : Bool) : Chk State :=
  if s.phaseOf v.f.kern e.id == some phase then .error (.wait s (.group e.id phase nf 8))
  else .ok (v.acquireAfter nf e.scope s)

def execGarv (sw nf : Bool) (d : BitVec 6) (g : BitVec 2) (s : State) : Result :=
  issueColl sw 8 (fun v => defS d.toNat v.g.lanes) (fun v s => do
    let (e, s) ← v.arrive s g nf .barrier none
    pure (s.upd v.f (.s d.toNat (e.phase.setWidth 64)))) s

def execGwait (sw nf : Bool) (g : BitVec 2) (b : BitVec 8) (s : State) : Result :=
  issueColl sw 8 (fun v => useS b v.g.lanes) (fun v s => do
    let e ← v.groupEntry g
    v.waitPhase s e ((v.sval b).setWidth 16) nf) s

def execGbar (sw nf : Bool) (g : BitVec 2) (s : State) : Result :=
  issueColl sw 8 (fun _ => []) (fun v s => do
    let (e, s) ← v.arrive s g nf .barrier none
    v.waitPhase s e e.phase nf) s

def execGred (sw nf : Bool) (op : GredOp) (ty : Ty) (d : BitVec 6) (g : BitVec 2) (b : BitVec 8) (s : State) : Result :=
  issueColl sw 8 (fun v => useS b v.g.lanes ++ defS d.toNat v.g.lanes) (fun v s => do
    let (e, s) ← v.arrive s g nf (.reduce op ty) (some (scalarValue v.f ty b))
    match (s.kernel? v.f.kern).bind fun k => k.group? e.id with
    | some now =>
      if now.phase == e.phase then .error (.wait s (.gred e.id e.phase nf d.toNat))
      else pure ((v.acquireAfter nf e.scope s).defer v.f (Out.of [.s d.toNat now.res]))
    | none => pure s) s

def execGqry (sw : Bool) (q : GQuery) (d : BitVec 6) (g : BitVec 2) (s : State) : Result :=
  issueColl sw 8 (fun v => defS d.toNat v.g.lanes) (fun v s => do
    let e ← v.groupEntry g
    let x : DWord := match q with
      | .id => BitVec.ofNat 64 e.id
      | .ph => e.phase.setWidth 64
      | .cnt => BitVec.ofNat 64 e.n
      | .arr => BitVec.ofNat 64 e.a
      | .lvl => e.lvl.setWidth 64
      | .res => e.res
    pure (s.defer v.f (Out.of [.s d.toNat x]))) s

end Sys2Proof.Machine
end

