-- ==== Sys2Proof/Machine/Barriers.lean ====
section
/-! DEFINITION. Barrier words and condition monitors (14_barrier.md R329 to R342). -/

namespace Sys2Proof.Machine

open Sys2Proof

/-! ### The word (R329, R330) -/

structure BarWord where
  gen : BitVec 16
  n : Nat
  a : Nat
  deriving DecidableEq, Repr

def barOf (x : Nat) : BarWord := { gen := BitVec.ofNat 16 (x / 2 ^ 48), n := x / 2 ^ 32 % 2 ^ 16, a := x / 2 ^ 16 % 2 ^ 16 }
def BarWord.value (w : BarWord) : Nat := w.gen.toNat * 2 ^ 48 + w.n % 2 ^ 16 * 2 ^ 32 + w.a % 2 ^ 16 * 2 ^ 16

/-- The place of a target. -/
def Target.place : Target → Place
  | .pad cl team off => .pad cl team off
  | .mem m => .home m.pa m.die m.key m.cp

/-- A barrier word at its level, and its tag. -/
def State.barAt (s : State) (p : Place) : BarWord × Bool :=
  match p with
  | .pad cl team off =>
    (barOf (s.padValue cl team off 8).1,
      match s.team? cl team with | some t => t.padTags.contains (off / 8) | none => false)
  | .home pa _ k _ => (barOf (s.homeNat k pa 8), s.tags.contains (pa / 8))

/-- Write a barrier word at its level. -/
def State.putBar (s : State) (p : Place) (x : Nat) : State :=
  match p with
  | .pad cl team off => s.putPad cl team off (leBytes 8 x)
  | .home pa d k cp => (s.putHomeAs k (pa / 4) (BitVec.ofNat 32 x) false).writePlace (pa + 4) d k cp (BitVec.ofNat 32 (x / 2 ^ 32))

/-- Set or clear its tag. -/
def State.putTag (s : State) (p : Place) (on : Bool) : State :=
  match p with
  | .pad cl team off => s.modTeam cl team fun t => { t with padTags := mark on t.padTags (off / 8) }
  | .home pa .. => { s with tags := mark on s.tags (pa / 8) }

/-- A completed phase: the next generation, no arrivals. -/
def BarWord.turn (w : BarWord) : BarWord := { w with a := 0, gen := w.gen + 1 }

/-- A word whose home answers with errors, and of which a monitor's level holds no copy (R466). -/
def State.peekGone (s : State) (p : Place) (die : Option Nat) : Bool :=
  match p with
  | .pad .. => false
  | .home pa hd .. => s.gone (some hd) pa && (die.bind fun d => s.copy? (.dc d) (pa / 4)).isNone

/-- A word that reads in error at a monitor's level, or at home (R232, R466). -/
def State.peekPoison (s : State) (p : Place) (die : Option Nat) (n : Nat) : Bool :=
  match p with
  | .pad cl team off => (s.padValue cl team off n).2
  | .home pa .. => s.peekGone p die || (upTo (n / 4)).any fun i =>
      match die.bind fun d => s.copy? (.dc d) (pa / 4 + i) with
      | some c => c.poison
      | none => s.poison.contains (pa / 4 + i)

/-! ### The instructions (R332 to R335) -/

def barAddr (v : View) (sp : Space) (a : BitVec 8) : Nat :=
  if sp == .gl then ((v.sval a).setWidth 56 : VA).toNat else ((v.sval a).setWidth 32 : Word).toNat

/-- The accesses of a fibre-wide instruction, one for each lane that issues, so that a trap names them all. -/
def View.wideAccs (v : View) (addr n al : Nat) : List Access := (lanesOf v.g.lanes).map fun l => accessOf l addr n al

/-- The checks of R334 up to R330, and the word's place. -/
def View.barPlace (v : View) (s : State) (sp : Space) (a : BitVec 8) (rep : Option Replay) :
    Chk (State × Option (Target × Place) × List Nat) := do
  let p ← v.prepare s sp .both (noAllocOf rep) (v.wideAccs (barAddr v sp a) 8 8)
  match p.ready.head?.bind fun r => r.parts.head? with
  | some (.mem m, _) =>
    v.require .permission (m.hbm && m.w && m.r && !m.rp)
    pure (s.keepAll v.agent p, some (.mem m, (Target.mem m).place), p.frames)
  | some (t, _) => pure (s, some (t, t.place), p.frames)
  | none => pure (s, none, p.frames)

/-- A place of a word is that of another, whatever pages name them. -/
def Place.same : Place → Place → Bool
  | .pad cl team off, .pad cl' team' off' => cl == cl' && team == team' && off == off'
  | .home pa .., .home pa' .. => pa == pa'
  | _, _ => false

/-- Every gang that waits for a generation of a barrier word which has passed, or at a word that is tagged no more, is released, even if it does
not go on yet (R332, R335). -/
def State.stirBar (s : State) (p : Place) : State :=
  let (w, tagged) := s.barAt p
  let gang : Gang → Gang := fun g => match g.st with
    | .wait (.bword q gen nf sc ended) => { g with st := .wait (.bword q gen nf sc (ended || (q.same p && (w.gen != gen || !tagged)))) }
    | _ => g
  let fib : Fibre → Fibre := fun f => { f with gangs := f.gangs.map gang }
  { s with fibres := s.fibres.map fib }

/-- What a barrier instruction does at a word in error: the word stays, and a DataError is raised (R232, R466, R478). -/
def View.barError (v : View) (sp : Space) (a : BitVec 8) (s : State) : Performed × List Nat :=
  ({ s := s, now := [], held := [], done := 0
     out := some { Out.of [] with err := dataErr ((lanesOf v.g.lanes).map fun l => (l, barAddr v sp a)) v.g.lanes } }, [])

/-- The issue of a barrier instruction whose word can be reached; of a home that answers with errors it reads none (R466). An error in the word
concerns an instruction once the word's tag lets it read the word (R332, R335). -/
def barOp (sw : Bool) (sp : Space) (a : BitVec 8) (us : View → List Use)
    (body : View → State → Target → Place → Chk (Performed × List Nat)) (s : State) : Result :=
  issueMem sw 8 (fun v => useS a v.g.lanes ++ us v) (fun v s rep => do
    let (s, t, frames) ← v.barPlace s sp a rep
    match t, frames with
    | some (t, p), [] =>
      if s.peekGone p none then pure (v.barError sp a s) else body v s t p
    | _, frames => pure ({ s := s, now := [], held := [], out := none, done := 0 }, frames)) s

/-- A result that no later memory access of the fibre passes. -/
def completesFence (s : State) : Performed × List Nat :=
  ({ s := s, now := [], held := [], out := some { Out.of [] with fence := true }, done := 0 }, [])

def execBinit (sw : Bool) (sp : Space) (a b : BitVec 8) (s : State) : Result :=
  barOp sw sp a (fun v => useS b v.g.lanes) (fun v s _ p => do
    let c := ((v.sval b).setWidth 16).toNat
    let (_, tagged) := s.barAt p
    v.require .barrierClobber (!tagged || c == 0)
    let s := match p with | .home pa .. => s.flushLine (pa / 128) | .pad .. => s
    let s := if c == 0 then (if tagged then (s.putBar p 0).putTag p false else s)
      else (s.putBar p (BarWord.value ⟨0, c, 0⟩)).putTag p true
    pure (completesFence (s.stirBar p))) s

def execBarv (sw nf : Bool) (sp : Space) (sc : Scope) (d : BitVec 6) (a : BitVec 8) (s : State) : Result :=
  barOp sw sp a (fun v => defS d.toNat v.g.lanes) (fun v s _ p => do
    let (w, tagged) := s.barAt p
    v.require .barrierClobber tagged
    if s.peekPoison p none 8 then return v.barError sp a s
    v.require .barrierClobber (w.n != 0)
    if !nf && !(s.releaseWaits v.f sc).isEmpty then .error (.wait s (.released sc))
    let s := if nf then s else s.fenceRel v.agent sc
    let w' := { w with a := w.a + 1 }
    let s := s.putBar p (if w'.a == w'.n then w'.turn else w').value
    pure ({ s := s.stirBar p, now := [.s d.toNat (w.gen.setWidth 64)], held := [], out := none, done := 0 }, [])) s

def execBwait (sw nf : Bool) (sp : Space) (sc : Scope) (a b : BitVec 8) (s : State) : Result :=
  barOp sw sp a (fun v => useS b v.g.lanes) (fun v s _ p => do
    let tok : BitVec 16 := (v.sval b).setWidth 16
    let (w, tagged) := s.barAt p
    v.require .barrierClobber tagged
    if s.peekPoison p none 8 then return v.barError sp a s
    if w.gen == tok then .error (.wait s (.bword p tok nf sc false))
    else pure ({ s := v.acquireAfter nf sc s, now := [], held := [], out := none, done := 0 }, [])) s

def execBdrop (sw : Bool) (sp : Space) (a : BitVec 8) (s : State) : Result :=
  barOp sw sp a (fun _ => []) (fun v s _ p => do
    let (w, tagged) := s.barAt p
    v.require .barrierClobber tagged
    if s.peekPoison p none 8 then return v.barError sp a s
    v.require .barrierClobber (w.n != 0)
    let w' := { w with n := w.n - 1 }
    pure (completesFence ((s.putBar p (if w'.a != 0 && w'.n ≤ w'.a then w'.turn else w').value).stirBar p))) s

/-! ### WAITCMP and monitors (R338 to R342) -/

/-- The die whose die cache a scope's monitor level is; none for home. -/
def monitorDie (v : View) (sc : Scope) : Option Nat := if levelOf sc == .home then none else some v.die

/-- Before the words of lanes are read at the monitor level, those that the agent holds dirty at a narrower level are written
through to it; the agent's copies at narrower levels then hold what the level holds (R217, R236). -/
def State.syncWords (s : State) (a : Agent) (die : Option Nat) (n : Nat) (left : List (Nat × VA × Place × DWord)) : State :=
  let lv : Level := if die.isSome then .dc else .home
  let one := fun (k : Byte) (s : State) (w : Nat) =>
    let s := s.through a lv w
    match die.bind fun d => s.copy? (.dc d) w with
    | some c => s.settleCopies a lv w c.val c.poison
    | none => s.settleCopies a lv w (s.homeWordAs k w) (s.poison.contains w)
  left.foldl (fun s x => match x.2.2.1 with
    | .home pa _ k _ => (upTo (n / 4)).foldl (fun s i => one k s (pa / 4 + i)) s
    | .pad .. => s) s

/-- Read the words of some unfinished lanes at the monitor level; a lane whose value satisfies is done. -/
def State.testLanes (s : State) (die : Option Nat) (cc : Cond) (ty : Ty) (pick : Nat → Bool)
    (left : List (Nat × VA × Place × DWord)) : List (Nat × VA × Place × DWord) × List (Nat × DWord) :=
  let n := if ty.is64 then 8 else 4
  left.foldl (fun acc x =>
    let val := BitVec.ofNat 64 (s.peek x.2.2.1 die n)
    if pick x.1 && cc.holds (asInt ty val) (asInt ty x.2.2.2) then (acc.1, acc.2 ++ [(x.1, val)])
    else (acc.1 ++ [x], acc.2)) ([], [])

/-- The lanes whose read of their word at the monitor level met an error, as a trap. -/
def State.waitError (s : State) (die : Option Nat) (ty : Ty) (left : List (Nat × VA × Place × DWord)) : Option TrapRec :=
  let n := if ty.is64 then 8 else 4
  dataErr (left.map fun x => (x.1, x.2.1.toNat))
    (maskOf fun l => left.any fun x => x.1 == l && s.peekPoison x.2.2.1 die n)

/-- The die whose slice a word's monitor is in: that of the monitor level, or the word's home. -/
def Place.slotDie (p : Place) (die : Option Nat) : Nat :=
  match die, p with
  | some d, _ => d
  | none, .home _ hd .. => hd
  | none, .pad .. => 0

/-- Monitors in use of the slice that a word's monitor is in (R341). -/
def State.monitorsAt (s : State) (p : Place) (die : Option Nat) : Nat :=
  match p with
  | .home pa .. => (s.monitors.filter fun m => m.die == p.slotDie die && match m.at_ with
      | .home q .. => Config.slice (q / 128) == Config.slice (pa / 128)
      | .pad .. => false).length
  | .pad .. => 0

/-- Arm a monitor for each distinct word of unfinished lanes while its slice has one free (R341). -/
def State.arm (s : State) (v : View) (die : Option Nat) (left : List (Nat × VA × Place × DWord)) : State × List Nat :=
  left.foldl (fun acc x =>
    if acc.1.monitors.any fun m => m.at_ == x.2.2.1 && m.owner == .gang v.f.ref v.iss.gang then (acc.1, acc.2 ++ [x.1])
    else if acc.1.monitorsAt x.2.2.1 die < 2048 then
      ({ acc.1 with monitors := acc.1.monitors ++
          [{ at_ := x.2.2.1, die := x.2.2.1.slotDie die, home := die.isNone, owner := .gang v.f.ref v.iss.gang }] }, acc.2 ++ [x.1])
    else acc) (s, [])

def State.disarm (s : State) (f : FibreRef) (g : Nat) : State :=
  { s with monitors := s.monitors.filter fun m => m.owner != .gang f g }

/-- The values that a WAITCMP's lanes have read before its page's translation was taken away (R205). -/
def valsDone (r : Option Replay) : List (Nat × DWord) :=
  match r with
  | none => []
  | some r => (lanesOf r.done).map fun l => (l, BitVec.ofNat 64 ((r.upds.zip (upTo 2)).foldl (fun x u => match u.1 with
      | .v _ _ val => x + (val.at l).toNat * 2 ^ (32 * u.2)
      | _ => x) 0))

/-- What a WAITCMP touches. -/
def waitcmpUses (h : Hdr) (ty : Ty) (d : BitVec 8) (a b : Opnd) (v : View) : List Use :=
  useSrc false true a (v.active h) ++ useSrc false ty.is64 b (v.active h) ++ useDst false ty.is64 d (v.active h)

/-- WAITCMP (R338, R339). Its opcode makes it short class in R114's table, though R478 names it among long-class instructions; by the model's
choice it sets no pending bit, and D is live from its issue (log entry 20). -/
def execWaitcmp (h : Hdr) (cc : Cond) (acq : Bool) (ty : Ty) (sc : Scope) (d : BitVec 8) (a b : Opnd) (s : State) : Result :=
  let n := if ty.is64 then 8 else 4
  issueMem h.sw 8 (waitcmpUses h ty d a b) (fun v s rep => do
    let accs := (lanesLeft (lanesOf (v.active h)) rep).map fun l => accessOf l (v.addrOf false .gl a 0 l) n n
    let p ← v.prepare s .gl .read (noAllocOf rep) accs
    if !p.frames.isEmpty then return ({ s := s, now := [], held := [], out := none, done := 0 }, p.frames)
    let old := valsDone rep
    let s := s.keepAll v.agent p
    let die := monitorDie v sc
    let left := p.ready.filterMap fun r => r.parts.head?.map fun q =>
      (r.lane, BitVec.ofNat 56 r.addr, q.1.place, v.src false ty b r.lane)
    let s := s.syncWords v.agent die n left
    match s.waitError die ty left with
    | some t => pure ({ s := s.modFibre v.f.ref fun f => { f with held := f.held ++ [⟨.data, t⟩] }, now := [], held := []
                        out := none, done := 0 }, [])
    | none =>
      let (left, vals) := s.testLanes die cc ty (fun _ => true) left
      if left.isEmpty then
        pure ({ s := v.acquireAfter (!acq || (accs.isEmpty && old.isEmpty)) sc s
                now := v.vecUpds ty.is64 d.toNat (old ++ vals), held := [], out := none, done := 0 }, [])
      else
        let (s, armed) := s.arm v die left
        .error (.wait s (.cmp cc ty sc acq d.toNat left (old ++ vals) armed (v.readsDead (waitcmpUses h ty d a b v))
          (v.killRows (waitcmpUses h ty d a b v))))) s

end Sys2Proof.Machine
end

