-- ==== Sys2Proof/Machine/Convert.lean ====
section
/-! DEFINITION. The conversion, quantisation and lattice group (06_floating_point_and_lattice.md R173 to R187). -/

namespace Sys2Proof.Machine

open Sys2Proof

/-! ### CVT, CVTP, CVTU (R174 to R176) -/

/-- An integer result as a register holds it: narrow results are extended by their type, to 32 bits in a vector register
and to 64 in a scalar one (R55, R174). -/
def extended (sc : Bool) (ty : Ty) (i : Int) : DWord :=
  if ty.bits < 32 && !sc then BitVec.ofNat 64 (i % (2 ^ 32 : Int)).toNat
  else if ty.bits < 32 then BitVec.ofInt 64 i
  else wrapTo ty i

/-- Round to a floating destination; .sat turns an overflow into the largest finite value (R174). -/
def View.roundSat (v : View) (ty : Ty) (rm : RMode) (sat : Bool) (x : XVal) : Num (BitVec 32) := do
  let st ← get
  let (r, st') := (v.round ty rm x).run { st with fps := 0 }
  let f := fpFmt ty
  if sat && st'.fps &&& flagOf != 0 then
    set { st' with fps := st.fps ||| (st'.fps &&& ~~~flagOf) ||| flagSat }
    pure (signed ty 0 x.negative f.maxCode)
  else
    set { st' with fps := st.fps ||| st'.fps }
    pure r

/-- A floating value to an integer type (R94, R174). -/
def floatToInt (fpm : BitVec 32) (ty : Ty) (rm : RMode) (x : XVal) : Num Int := do
  let rm := resolveRm fpm rm
  match x with
  | .fin n m =>
    let i ← roundInt rm n m
    if (XVal.fin n m).toRat ≠ (i : Rat) then flag flagNx
    satInt ty.signed ty.bits i
  | .inf n =>
    if rm == .rst then let _ ← nextRng
    flag flagSat
    pure (if n then intMin ty.signed ty.bits else intMax ty.signed ty.bits)
  | .nan =>
    if rm == .rst then let _ ← nextRng
    flag flagIv
    pure 0

def View.convert (v : View) (sc : Bool) (dst src : Ty) (rm : RMode) (sat : Bool) (a : DWord) : Num DWord :=
  if src.isFloat then
    let x := decodeFp v.f.fpm (v.f.fp4x.setWidth 16) src a.toNat
    if dst.isFloat then do pure (wide (← v.roundSat dst rm sat x))
    else do pure (extended sc dst (← floatToInt v.f.fpm dst rm x))
  else
    let i := asInt src a
    if dst.isFloat then do pure (wide (← v.roundSat dst rm sat (XVal.ofInt i)))
    else if sat then do pure (extended sc dst (← satInt dst.signed dst.bits i))
    else pure (extended sc dst (asInt dst (wrapTo dst i)))

def execCvt (o : Op1) (dst src : Ty) (rm : RMode) (sat : Bool) (s : State) : Result :=
  laneOp false o.h 8 o.sc dst.is64 o.d (uses1 o src.is64)
    (fun v l => v.convert o.sc dst src rm sat (v.src o.sc src o.a l)) s

/-- The destination as a source that keeps part of its bits: it is checked, and its read is no read of R113. -/
def useKept (sc : Bool) (d : BitVec 8) (m : Mask) : List Use := useDst sc false d m

/-- The destination's old value in a lane. -/
def View.kept (v : View) (sc : Bool) (d : BitVec 8) (l : Nat) : Nat :=
  if sc then v.f.s[d.toNat]!.toNat % 2 ^ 32 else (v.vval false d.toNat l).toNat

/-- Replace bits of a word. -/
def putBits (old pos w x : Nat) : Nat := old - old / 2 ^ pos % 2 ^ w * 2 ^ pos + x % 2 ^ w * 2 ^ pos

def execCvtp (o : Op2) (dst : Ty) (rm : RMode) (sat : Bool) (p : BitVec 2) (s : State) : Result :=
  let w := dst.bits
  laneOp false o.h 8 o.sc false o.d (fun v m => uses2 o false false v m ++ useKept o.sc o.d m)
    (fun v l => do
      let a ← v.roundSat dst rm sat (v.fp o.sc .f32 o.a l)
      let b ← v.roundSat dst rm sat (v.fp o.sc .f32 o.b l)
      let old := v.kept o.sc o.d l
      pure (BitVec.ofNat 64 (putBits (putBits old (w * (2 * p.toNat)) w a.toNat) (w * (2 * p.toNat + 1)) w b.toNat))) s

/-- CVTU (R176): an integer element extended to 32 bits, or a floating element exactly, or scaled and rounded. -/
def execCvtu (o : Op1) (src : Ty) (i : BitVec 3) (scale : Option Opnd) (s : State) : Result :=
  laneOp false o.h 8 o.sc false o.d
    (fun v m => uses1 o false v m ++ match scale with | some b => useSrc o.sc false b m | none => [])
    (fun v l =>
      let code := v.packed o.sc src o.a l i.toNat
      if !src.isFloat then pure (extended false src (asInt src (BitVec.ofNat 64 code)))
      else
        let x := decodeFp v.f.fpm (v.f.fp4x.setWidth 16) src code
        match scale with
        | none => do pure (wide (← v.round .f32 .rne x))
        | some b => do
          let k := x8Scale ((v.src o.sc .n32 b l).setWidth 8)
          pure (wide (← v.round .f32 .rne (← xmul x k)))) s

/-! ### BSCALE (R177) -/

def emaxOf : Ty → Int
  | .e4m3 => 8
  | .e5m2 => 15
  | _ => 2

/-- The X8 code of a magnitude. -/
def bscaleX8 (ty : Ty) (x : XVal) : Num Nat :=
  match x with
  | .nan => pure 0xFF
  | .inf _ => do flag flagSat; pure 254
  | .fin _ m => if m = 0 then pure 0 else pure (max 0 (min 254 (ilog2 m - emaxOf ty + 127))).toNat

def execBscale (o : Op1) (ty : Ty) (inv : Bool) (s : State) : Result :=
  fp1 false o (fun _ _ x => do
    let e ← bscaleX8 ty x
    if inv then pure (if e == 0xFF then 0x7FC00000
      else quietly (roundFp 0 0 .f32 .rne (.fin false (pow2 (127 - (e : Int))))))
    else pure (BitVec.ofNat 32 e)) s

/-! ### Grouped quantisation (R178 to R180) -/

def qmax (q8 : Bool) : Int := if q8 then 255 else 15

/-- A clamp to 0 … hi with its flag. -/
def clampTo (hi i : Int) : Num Int :=
  if i < 0 then do flag flagSat; pure 0 else if hi < i then do flag flagSat; pure hi else pure i

/-- RoundInt of a value to 0 … hi with nx when it changes and saturation of infinities. -/
def quantInt (fpm : BitVec 32) (rm : RMode) (hi : Int) (x : XVal) : Num Int := do
  match x with
  | .fin n m =>
    let i ← roundInt (resolveRm fpm rm) n m
    if (XVal.fin n m).toRat ≠ (i : Rat) then flag flagNx
    clampTo hi i
  | .inf n =>
    if resolveRm fpm rm == .rst then let _ ← nextRng
    flag flagSat
    pure (if n then 0 else hi)
  | .nan => pure 0

/-- An exact quotient by a finite nonzero number. -/
def xdiv (a : XVal) (q : Rat) : XVal :=
  match a with
  | .nan => .nan
  | .inf n => .inf (n != decide (q < 0))
  | x => if x.isZero then .fin (x.negative != decide (q < 0)) 0 else XVal.ofRat (x.toRat / q)

/-- QPARM's word (R178). -/
def View.qparm (v : View) (q8 : Bool) (a b : XVal) : Num (BitVec 32) := do
  if a.isNan || b.isNan then
    flag flagIv
    pure 0x7E00
  else
    let lo := if a.less XVal.zero then a else XVal.zero
    let hi := if XVal.zero.less b then b else XVal.zero
    let sc ←
      if lo.isZero && hi.isZero then pure (0x3C00 : BitVec 32)
      else do
        let d ← xadd hi lo.neg
        let r ← v.round .f16 .rne (xdiv d (qmax q8 : Rat))
        let r ← if r == 0x7C00 then do flag flagSat; pure (0x7BFF : BitVec 32) else pure r
        pure (if r == 0 then 0x0400 else r)
    let s := ((fpFmt .f16).value sc.toNat).toRat
    let z ← quantInt v.f.fpm .rne (qmax q8) (xdiv lo.neg s)
    pure (BitVec.ofNat 32 (z.toNat * 2 ^ 16 + sc.toNat))

def execQparm (o : Op2) (q8 : Bool) (s : State) : Result :=
  laneOp true o.h 8 o.sc false o.d (uses2 o false false)
    (fun v l => do pure (wide (← v.qparm q8 (v.fp o.sc .f32 o.a l) (v.fp o.sc .f32 o.b l)))) s

/-- The scale and zero point of a parameter word; the scale is read under fi16 (R84, R179, R180). -/
def View.params (v : View) (w : DWord) : XVal × Int :=
  (decodeFp v.f.fpm 0 .f16 (w.toNat % 2 ^ 16), ((w.toNat / 2 ^ 16 % 256 : Nat) : Int))

def View.qapply (v : View) (q8 : Bool) (rm : RMode) (a : XVal) (w : DWord) : Num (BitVec 32) := do
  let (s, zp) := v.params w
  match a, s with
  | .nan, _ | _, .nan | _, .inf _ => do
    flag flagIv
    pure (BitVec.ofInt 32 (← clampTo (qmax q8) zp))
  | a, s =>
    if s.isZero then
      flag flagIv
      pure (BitVec.ofInt 32 (← clampTo (qmax q8) zp))
    else
      let x ← xadd (xdiv a s.toRat) (XVal.ofInt zp)
      pure (BitVec.ofInt 32 (← quantInt v.f.fpm rm (qmax q8) x))

def execQapply (o : Op2) (q8 : Bool) (rm : RMode) (s : State) : Result :=
  laneOp false o.h 8 o.sc false o.d (uses2 o false false)
    (fun v l => do pure (wide (← v.qapply q8 rm (v.fp o.sc .f32 o.a l) (v.src o.sc .n32 o.b l)))) s

/-- The code of a grouped operand (R84, R160, R180). -/
def View.groupCode (v : View) (sc q8 : Bool) (o : Opnd) (l i : Nat) : Nat :=
  let w := if q8 then 8 else 4
  if (sc || o.x) && 0x40 ≤ o.idx.toNat then (scalarValue v.f .n32 o.idx).toNat % 2 ^ w
  else (v.src sc .n32 o l).toNat / 2 ^ (w * i) % 2 ^ w

/-- DQ (R180): the integer 0 is +0, so k = zp under a negative scale gives -0 by the model's choice (log entry 28). -/
def execDq (o : Op2) (q8 : Bool) (i : BitVec 3) (s : State) : Result :=
  laneOp false o.h 8 o.sc false o.d (uses2 o false false)
    (fun v l => do
      let (sc, zp) := v.params (v.src o.sc .n32 o.b l)
      let k := v.groupCode o.sc q8 o.a l i.toNat
      pure (wide (← v.round .f32 .rne (← xmul (XVal.ofInt ((k : Int) - zp)) sc)))) s

/-! ### Lattice (R181 to R185) -/

/-- X8 × t, or NaN when the scale is invalid (R181). -/
def View.latScale (v : View) (o : LatOp) (l : Nat) : XVal :=
  let t := decodeFp v.f.fpm 0 .f32 (scalarValue v.f .f32 o.c).toNat
  match x8Scale ((v.src false .n32 o.b l).setWidth 8), t with
  | .fin _ k, .fin n m => if m = 0 then .nan else .fin n (k * m)
  | _, _ => .nan

/-- The half of a register that holds the code (R181). -/
def halfOf (hi : Bool) (x : Nat) : BitVec 16 := BitVec.ofNat 16 (if hi then x / 2 ^ 16 else x)
def withHalf (hi : Bool) (old : Nat) (c : BitVec 16) : Nat := putBits old (if hi then 16 else 0) 16 c.toNat

/-- FP32 register `n` of a lane, flushed. -/
def View.fpReg (v : View) (n l : Nat) : XVal := decodeFp v.f.fpm 0 .f32 (v.vval false n l).toNat

/-- Targets of R182: operands over the scale, NaN when it is invalid. -/
def targetOf (a k : XVal) : XVal :=
  match k with
  | .fin n m => xdiv a (XVal.fin n m).toRat
  | _ => .nan

/-- A lattice coordinate in halves as a value: 0 is +0. -/
def coordX (i : Int) : XVal := XVal.ofRat (mkRat i 2)

/-- A coordinate times the scale; a zero coordinate gives +0 (R87, R183). -/
def coordTimes (i : Int) (k : XVal) : XVal :=
  if i = 0 then XVal.zero else quietly (xmul (coordX i) k)

/-- A decoded coordinate as an operand: one whose product with every scale is subnormal reads as zero under fi4 (R98, R158). -/
def View.coordTiny (v : View) (i : Int) (k : XVal) : Bool :=
  flushIn v.f.fpm .le8 && i != 0 && match quietly (xmul (coordX i) k) with
    | .fin _ m => decide (m < pow2 (-126))
    | _ => false

/-- A coordinate operand times the scale, flushed to zero of its sign. -/
def View.coordRead (v : View) (i : Int) (k : XVal) : XVal :=
  match v.coordTiny i k, coordTimes i k with
  | true, .fin n _ => .fin n 0
  | _, x => x

/-- Uses common to the lattice instructions: B and the scale. -/
def latUses (o : LatOp) (m : Mask) : List Use := useSrc false false o.b m ++ useS o.c m

/-- Lanes whose quantisation overflows the shell, else their results: a code and writes of further registers. -/
def latticeOp (o : LatOp) (us : View → Mask → List Use) (f : View → Nat → Num (Option (List (Nat × DWord)))) (s : State) :
    Result :=
  issue o.h.sw 8 (fun v => us v (v.active o.h))
    (fun v s =>
      let rs : List (Nat × (Option (List (Nat × DWord)) × NumSt)) :=
        (lanesOf (v.active o.h)).map fun l => (l, (f v l).run ⟨v.f.rng.at l, 0, 0⟩)
      let bad := maskOf fun l => rs.any fun r => r.1 == l && r.2.1.isNone
      if bad != 0 then .error (v.stop .shellOverflow bad)
      else if rs.isEmpty then .ok s
      else
        let regs := (match rs.head? with | some r => (r.2.1.getD []).map (fun (x : Nat × DWord) => x.1) | none => [])
        let ups := regs.flatMap fun n => v.vecUpds false n (rs.map fun r =>
          (r.1, ((aget (r.2.1.getD []) n).getD 0)))
        let fl := rs.foldl (fun (a : BitVec 32 × BitVec 32) r => (a.1 ||| r.2.2.fps, a.2 ||| r.2.2.le8s)) (0, 0)
        .ok (s.defer v.f (Out.of ups fl.1 fl.2))) s

def execQle8 (o : LatOp) (s : State) : Result :=
  latticeOp o (fun _ m => useRun 8 o.a.idx.toNat m o.a.last ++ latUses o m ++ useKept false o.d m)
    (fun v l => do
      let k := v.latScale o l
      match ← quantLE8 v.f.fpm ((upTo 8).map fun i => targetOf (v.fpReg (o.a.idx.toNat + i) l) k) with
      | none => pure none
      | some c => pure (some [(o.d.toNat, BitVec.ofNat 64 (withHalf o.hi (v.kept false o.d l) c))])) s

/-- DLE8 (R181). DESIGN CHOICE: an A that names a small integer or a constant is a 32-bit pattern whose bits 15:0, or with .hi 31:16, are the code;
R160's conversion to a 16-bit element is not applied to a lattice code (log entry 52). -/
def execDle8 (o : LatOp) (s : State) : Result :=
  latticeOp o (fun _ m => useSrc false false o.a m ++ latUses o m ++ defRun 8 o.d.toNat m)
    (fun v l => do
      let k := v.latScale o l
      let xs := decodeLE8 (halfOf o.hi (v.src false .n32 o.a l).toNat)
      if k.isNan then flag flagIv
      let ys ← (upTo 8).mapM fun i => v.round .f32 .rne (if k.isNan then .nan else v.coordRead (xs.getD i 0) k)
      pure (some (ys.mapIdx fun i y => (o.d.toNat + i, wide y)))) s

def execRle8 (o : LatOp) (s : State) : Result :=
  latticeOp o (fun _ m => useRun 8 o.a.idx.toNat m false ++ latUses o m ++ useKept false o.d m)
    (fun v l => do
      let k := v.latScale o l
      let as := (upTo 8).map fun i => v.fpReg (o.a.idx.toNat + i) l
      match ← quantLE8 v.f.fpm (as.map fun a => targetOf a k) with
      | none => pure none
      | some c =>
        let xs := decodeLE8 c
        let rs ← (upTo 8).mapM fun i => do
          let a := as.getD i .nan
          if k.isNan || a.isNan then pure (0x7FC00000 : BitVec 32)
          else do v.round .f32 .rne (← xadd a (coordTimes (xs.getD i 0) k).neg)
        pure (some ((o.d.toNat, BitVec.ofNat 64 (withHalf o.hi (v.kept false o.d l) c)) ::
          rs.mapIdx fun i y => (o.a.idx.toNat + i, wide y)))) s

/-- The update mask of ULE8 in a lane. -/
def View.ule8Mask (v : View) (o : LatOp) (l : Nat) : Nat := (v.src false .n32 o.b l).toNat / 256 % 256

def execUle8 (o : LatOp) (s : State) : Result :=
  latticeOp o (fun v m => latUses o m ++ [⟨.v o.d.toNat, m, true, false⟩] ++ (upTo 8).map fun i =>
      ⟨.v (o.a.idx.toNat + i), m &&& maskOf fun l => (v.ule8Mask o l).testBit i, true, o.a.last⟩)
    (fun v l => do
      let k := v.latScale o l
      let m := v.ule8Mask o l
      let old := v.kept false o.d l
      let y := decodeLE8 (halfOf o.hi old)
      if m = 0 then pure (some [(o.d.toNat, BitVec.ofNat 64 old)])
      else
        match ← quantLE8 v.f.fpm ((upTo 8).map fun i =>
          if m.testBit i then targetOf (v.fpReg (o.a.idx.toNat + i) l) k
          else coordX (if v.coordTiny (y.getD i 0) k then 0 else y.getD i 0)) with
        | none => pure none
        | some c => pure (some [(o.d.toNat, BitVec.ofNat 64 (withHalf o.hi old c))])) s

/-! ### CBQ (R186, R187) -/

/-- The sixteen entries of a codebook operand. -/
def View.codebook (v : View) (b : Opnd) (l : Nat) : List XVal :=
  (upTo 16).map fun i =>
    let code := if b.x then v.f.s[b.idx.toNat + i / 4]!.toNat / 2 ^ (16 * (i % 4)) % 2 ^ 16
      else (v.vval false (b.idx.toNat + i / 2) l).toNat / 2 ^ (16 * (i % 2)) % 2 ^ 16
    decodeFp v.f.fpm 0 .bf16 code

/-- The first index whose key is least. -/
def argBest (better : XVal → XVal → Bool) (es : List XVal) : Nat :=
  let idx := (upTo es.length).filter fun i => !(es.getD i .nan).isNan
  match idx with
  | [] => 0
  | i :: is => is.foldl (fun b j => if better (es.getD j .nan) (es.getD b .nan) then j else b) i

/-- The index nearest to a value (R186). -/
def cbqIndex (a : XVal) (es : List XVal) : Num Nat :=
  if a.isNan || es.all XVal.isNan then do flag flagIv; pure 0
  else match a with
    | .inf false => pure (argBest (fun x y => y.less x && !(x.isZero && y.isZero)) es)
    | .inf true => pure (argBest (fun x y => x.less y && !(x.isZero && y.isZero)) es)
    | a =>
      let dist := fun (e : XVal) => match e with
        | .fin n m => some (ratAbs (a.toRat - (XVal.fin n m).toRat))
        | _ => none
      pure (argBest (fun x y => match dist x, dist y with
        | some p, some q => decide (p < q)
        | some _, none => true
        | _, _ => false) es)

def execCbq (h : Hdr) (d : BitVec 8) (a b : Opnd) (s : State) : Result :=
  laneOp true h 8 false false d
    (fun _ m => useSrc false false a m ++
      (if b.x then (upTo 4).flatMap fun i => useS (BitVec.ofNat 8 (b.idx.toNat + i)) m
        else useRun 8 b.idx.toNat m b.last))
    (fun v l => do pure (BitVec.ofNat 64 (← cbqIndex (v.fp false .f32 a l) (v.codebook b l)))) s

end Sys2Proof.Machine
end

