-- ==== Sys2Proof/Machine/Layouts.lean ====
section
/-! DEFINITION. Layouts, handles and tile operands as values: the maps of R251 to R260, the classes of R262 and R263, and
the elements of a tile in natural order. -/

namespace Sys2Proof.Machine

open Sys2Proof

/-! ### Layout registers (R251) -/

/-- One mode: inner and outer extent and step. -/
structure Mode where
  ei : Nat
  si : Int
  eo : Nat
  so : Int
  deriving DecidableEq, Repr

/-- A layout register as fields; the six modes in order. -/
structure Lay where
  nm : Nat
  dm : Nat
  sb : Nat
  sm : Nat
  ss : Nat
  modes : List Mode
  deriving DecidableEq, Repr

def Mode.nil : Mode := ⟨0, 0, 0, 0⟩

def layOf (x : BitVec 512) : Lay where
  nm := (x.extractLsb' 495 3).toNat
  dm := (x.extractLsb' 492 3).toNat
  sb := (x.extractLsb' 488 4).toNat
  sm := (x.extractLsb' 484 4).toNat
  ss := (x.extractLsb' 480 4).toNat
  modes := (upTo 6).map fun m =>
    { ei := (x.extractLsb' (80 * m) 16).toNat, si := (x.extractLsb' (80 * m + 16) 24).toInt,
      eo := (x.extractLsb' (80 * m + 40) 16).toNat, so := (x.extractLsb' (80 * m + 56) 24).toInt }

def Mode.bits (m : Mode) : BitVec 80 :=
  BitVec.ofInt 24 m.so ++ BitVec.ofNat 16 m.eo ++ BitVec.ofInt 24 m.si ++ BitVec.ofNat 16 m.ei

def Lay.mode (l : Lay) (m : Nat) : Mode := l.modes.getD m .nil
def Lay.setMode (l : Lay) (m : Nat) (x : Mode) : Lay := { l with modes := l.modes.set m x }

def Lay.bits (l : Lay) : BitVec 512 :=
  0#14 ++ BitVec.ofNat 3 l.nm ++ BitVec.ofNat 3 l.dm ++ BitVec.ofNat 4 l.sb ++ BitVec.ofNat 4 l.sm ++ BitVec.ofNat 4 l.ss ++
    (l.mode 5).bits ++ (l.mode 4).bits ++ (l.mode 3).bits ++ (l.mode 2).bits ++ (l.mode 1).bits ++ (l.mode 0).bits

/-- A layout with no mode: all zero, except that dm is 7. -/
def Lay.empty : Lay := { nm := 0, dm := 7, sb := 0, sm := 0, ss := 0, modes := List.replicate 6 .nil }

/-- Ext of R253. -/
def extOf (e : Nat) : Nat := if e = 0 then 1 else e

def Mode.extent (m : Mode) : Nat := extOf m.ei * extOf m.eo

/-- Mode `m` as an evaluation sees it: one at index nm or above is ignored (R252). -/
def Lay.live (l : Lay) (m : Nat) : Mode := if m < l.nm then l.mode m else .nil

/-- The modes below nm. -/
def Lay.used (l : Lay) : List Mode := l.modes.take l.nm

/-- The bank function breaks its rule (R252, R273). -/
def badBank (ss sm sb : Nat) : Bool := sm != 0 && decide (ss < sb + sm)

/-- An ill-formed layout (R252). -/
def Lay.illFormed (l : Lay) : Bool :=
  l.nm == 7 || l.dm == 6 || (l.dm != 7 && (decide (l.nm ≤ l.dm) || decide (4 < (l.mode l.dm).eo))) || badBank l.ss l.sm l.sb

/-- Size (R253). -/
def Lay.size (l : Lay) : Nat := (l.used.map Mode.extent).foldl (· * ·) 1 % 2 ^ 64

/-- Coord (R253). -/
def coordOf : List Mode → Nat → List Nat
  | [], _ => []
  | m :: ms, i => i % m.extent :: coordOf ms (i / m.extent)

/-- Eval (R254): die index and offset. -/
def Lay.eval (l : Lay) (c : List Nat) : Nat × Int :=
  ((l.used.zip c).zip (upTo l.nm)).foldl (fun (acc : Nat × Int) x =>
    let m := x.1.1
    let ci := x.1.2 % extOf m.ei
    let co := x.1.2 / extOf m.ei
    if x.2 = l.dm then (co, acc.2 + ci * m.si) else (acc.1, acc.2 + ci * m.si + co * m.so)) (0, 0)

/-- A level of a layout: its mode, whether it is the outer one, its extent and step, and whether it is the die level. -/
structure Lvl where
  m : Nat
  outer : Bool
  e : Nat
  st : Int
  die : Bool
  deriving DecidableEq, Repr

/-- Every level below nm, in natural order. -/
def Lay.levels (l : Lay) : List Lvl :=
  (upTo l.nm).flatMap fun m =>
    let x := l.mode m
    [⟨m, false, x.ei, x.si, false⟩, ⟨m, true, x.eo, x.so, m == l.dm⟩]

/-- Span (R254). -/
def Lay.span (l : Lay) : Nat :=
  l.levels.foldl (fun a v => if v.die then a else a + (extOf v.e - 1) * v.st.natAbs) 1

/-! ### Handle registers (R255) -/

structure Handle where
  dstride : Nat
  tscale : BitVec 32
  fp4x : BitVec 16
  sshift : Nat
  sbase : Nat
  asid : BitVec 16
  tdev : BitVec 16
  gsize : BitVec 2
  fmt : BitVec 5
  kind : BitVec 3
  base : Nat
  deriving DecidableEq, Repr

def handleOf (x : BitVec 256) : Handle where
  dstride := (x.extractLsb' 208 48).toNat
  tscale := x.extractLsb' 176 32
  fp4x := x.extractLsb' 160 16
  sshift := (x.extractLsb' 154 6).toNat
  sbase := (x.extractLsb' 98 56).toNat
  asid := x.extractLsb' 82 16
  tdev := x.extractLsb' 66 16
  gsize := x.extractLsb' 64 2
  fmt := x.extractLsb' 59 5
  kind := x.extractLsb' 56 3
  base := (x.extractLsb' 0 56).toNat

def Handle.bits (h : Handle) : BitVec 256 :=
  BitVec.ofNat 48 h.dstride ++ h.tscale ++ h.fp4x ++ BitVec.ofNat 6 h.sshift ++ BitVec.ofNat 56 h.sbase ++ h.asid ++ h.tdev ++
    h.gsize ++ h.fmt ++ h.kind ++ BitVec.ofNat 56 h.base

end Sys2Proof.Machine

namespace Sys2Proof

/-- Bits per element (R257). -/
def Fmt.bits : Fmt → Nat
  | .i64 | .n64 => 64
  | .i32 | .n32 | .f32 => 32
  | .i16 | .n16 | .f16 | .bf16 => 16
  | .i8 | .n8 | .e4m3 | .e5m2 | .q8 | .x8 => 8
  | .e2m1 | .q4 | .cb4 => 4
  | .le8 => 2

/-- The grain (R258). -/
def Fmt.grain : Fmt → Nat
  | .e2m1 | .q4 | .cb4 => 2
  | .le8 => 8
  | _ => 1

/-- The bytes of a scale (R259). -/
def Fmt.scaleSize : Fmt → Nat
  | .e4m3 | .e5m2 | .e2m1 | .le8 => 1
  | .q4 | .q8 => 4
  | _ => 0

end Sys2Proof

namespace Sys2Proof.Machine

open Sys2Proof

/-- A handle that engines and layout-evaluated instructions can use: no reserved kind or format. -/
structure Tensor where
  h : Handle
  fmt : Fmt
  kind : Kind
  deriving DecidableEq, Repr

def Handle.tensor (h : Handle) : Option Tensor := do
  let f ← Fmt.ofCode h.fmt
  let k ← Kind.ofCode h.kind
  some { h := h, fmt := f, kind := k }

/-- log2 of the group size (R84, R255). -/
def Handle.logGroup (h : Handle) : Nat := 5 + h.gsize.toNat

/-- The natural scale shift (R259). -/
def Tensor.naturalShift (t : Tensor) : Nat :=
  match t.fmt with
  | .e2m1 => 4
  | .q8 => t.h.logGroup
  | .q4 => t.h.logGroup - 1
  | _ => 5

/-- The scale conditions of an engine that decodes (R259). -/
def Tensor.badScale (t : Tensor) : Bool :=
  t.fmt.scaleSize != 0 &&
    ((t.h.sbase != 0 && decide (t.h.sshift < t.naturalShift)) || ((t.fmt == .q4 || t.fmt == .q8) && t.h.sbase == 0))

/-- The grain rule (R258). -/
def Lay.grainOk (l : Lay) (g : Nat) : Bool :=
  g == 1 || (l.nm != 0 && (l.mode 0).ei != 0 && (l.mode 0).si == 1 &&
    l.levels.all fun v => v.die || v.e == 0 || (v.m == 0 && !v.outer) || v.st % (g : Int) == 0)

/-- The layout whose mode 0 is rounded up to the grain (R258). -/
def Lay.padded (l : Lay) (g : Nat) : Lay :=
  if g == 1 || l.nm == 0 then l else l.setMode 0 { l.mode 0 with ei := ceilDiv (l.mode 0).ei g * g }

/-- The bank function on a word index (R260). -/
def Lay.bank (l : Lay) (w : Nat) : Nat := w ^^^ ((w >>> l.ss &&& (2 ^ l.sm - 1)) <<< l.sb)

/-- A byte offset of a team allocation after the bank function. -/
def Lay.banked (l : Lay) (o : Nat) : Nat := 4 * l.bank (o / 4) + o % 4

/-- The bank of a word (R260). -/
def bankOf (w : Nat) : Nat := 64 * (w / 64 % 3) + w % 64

/-- The byte address of the element at a natural index, counted with padding, before the bank function (R257), with the
index inside mode 0's inner level. -/
def Tensor.address (t : Tensor) (l : Lay) (i : Nat) : Nat × Nat :=
  let c := coordOf l.used i
  let (d, o) := l.eval c
  let p : Int := o * t.fmt.bits
  let a : Int := t.h.base + p / 8 + (if t.kind == .pg then (d * t.h.dstride : Nat) else 0)
  ((a % 2 ^ 56).toNat, p.toNat % 8)

/-- A unit of a tile: the smallest run of elements that fills whole bytes, an LE8 code, or one element; its first natural
index, its byte address before and after the bank function, its bytes with those parts of them that the bank function takes to other
words, and whether a 4-bit unit's upper element is padding. -/
structure TileUnit where
  i : Nat
  raw : Nat
  addr : Nat
  len : Nat
  cut : List (Nat × Nat)
  half : Bool
  deriving DecidableEq, Repr

end Sys2Proof.Machine

namespace Sys2Proof
/-- The alignment of an element's address (R281). -/
def Fmt.align (f : Fmt) : Nat := max 1 (min f.bits 64 / 8)

/-- Bytes of a unit of elements that fills whole bytes. -/
def Fmt.unit (f : Fmt) : Nat := f.bits * f.grain / 8

/-- The bytes of a row in the order of R278. -/
def Row.byte (r : Row) (j : Nat) : Byte := (r.at (j / 4)).extractLsb' (8 * (j % 4)) 8
end Sys2Proof

namespace Sys2Proof.Machine

open Sys2Proof

/-- The address after the bank function: the offset within the allocation changes, a cluster address keeps its rank. An
offset that leaves the rank's range is kept apart as an address that no segment holds. -/
def Tensor.placed (t : Tensor) (l : Lay) (a : Nat) : Nat :=
  match t.kind with
  | .tm => l.banked a
  | .cl =>
    let o := l.banked (a % 2 ^ 21)
    if o < 2 ^ 21 then a / 2 ^ 21 * 2 ^ 21 + o else 2 ^ 56 + o
  | _ => a

/-- The parts of `n` bytes that a bank function takes to words of their own (R260): none where they stay together. -/
def Tensor.parts (t : Tensor) (l : Lay) (a n : Nat) : List (Nat × Nat) :=
  if l.sm == 0 || (t.kind != .tm && t.kind != .cl) || decide (a % 4 + n ≤ 4) then []
  else (upTo (ceilDiv (a % 4 + n) 4)).map fun k =>
    let lo := max a ((a / 4 + k) * 4)
    (t.placed l lo, min (a + n) ((a / 4 + k + 1) * 4) - lo)

/-- Where the bytes of a unit lie. -/
def TileUnit.spans (u : TileUnit) : List (Nat × Nat) := if u.cut.isEmpty then [(u.addr, u.len)] else u.cut

/-- The unit at a natural index that is a multiple of the grain; `l` is the padded layout, `e0` mode 0's own inner
extent. -/
def Tensor.unit (t : Tensor) (l : Lay) (e0 : Nat) (i : Nat) : TileUnit :=
  let a := (t.address l i).1
  { i := i, raw := a, addr := t.placed l a, len := t.fmt.unit, cut := t.parts l a t.fmt.unit,
    half := t.fmt.grain == 2 && decide (e0 ≤ i % extOf (l.mode 0).ei + 1) && l.nm != 0 }

/-- The units of a tile from natural index `i0`, `n` of them, those past the end left out. -/
def Tensor.units (t : Tensor) (l : Lay) (i0 n : Nat) : List TileUnit :=
  let lp := l.padded t.fmt.grain
  let size := lp.size
  ((upTo n).map fun k => i0 + k * t.fmt.grain).filter (fun i => decide (i < size)) |>.map
    (t.unit lp (extOf (l.mode 0).ei))

/-- The number of units of a whole tile. -/
def Tensor.unitCount (t : Tensor) (l : Lay) : Nat := (l.padded t.fmt.grain).size / t.fmt.grain

/-- The address of the scale of an element at a byte address before the bank function (R259). -/
def Tensor.scaleAddr (t : Tensor) (raw : Nat) : Nat :=
  let q : Int := ((raw : Int) - t.h.base) / (2 ^ t.h.sshift : Nat)
  (((t.h.sbase : Int) + q * t.fmt.scaleSize) % 2 ^ 56).toNat

/-! ### Conflict degree (R261) -/

/-- The words of a unit: the core by rank, and the word index. -/
def Tensor.words (t : Tensor) (u : TileUnit) : List (Nat × Nat) :=
  u.spans.flatMap fun p =>
    let (r, o) := if t.kind == .cl then (p.1 / 2 ^ 21, p.1 % 2 ^ 21) else (0, p.1)
    (upTo (ceilDiv (o % 4 + p.2) 4)).map fun k => (r, o / 4 + k)

/-- The degree of one wave: the most distinct words in one bank of one core. -/
def waveDegree (ws : List (Nat × Nat)) : Nat :=
  let uniq := ws.foldl addOnce []
  uniq.foldl (fun a w => max a (uniq.filter fun x => x.1 == w.1 && bankOf x.2 == bankOf w.2).length) 0

/-- The units of each wave. -/
def wavesOf (n : Nat) : Nat → List TileUnit → List (List TileUnit)
  | 0, _ => []
  | _, [] => []
  | fuel + 1, us => us.take n :: wavesOf n fuel (us.drop n)

/-- The degree of every wave of an access. -/
def Tensor.degrees (t : Tensor) (us : List TileUnit) : List Nat :=
  if t.kind == .tm || t.kind == .cl then
    (wavesOf (128 / t.fmt.unit) us.length us).map fun w => waveDegree (w.flatMap t.words)
  else []

/-- sr.lcd of an access. -/
def lcdOf (ds : List Nat) : BitVec 32 :=
  0#8 ++ BitVec.ofNat 16 (min 0xFFFF (ds.filter fun d => decide (1 < d)).length) ++ BitVec.ofNat 8 (ds.foldl max 0)

/-! ### Acceptance (R262, R263) -/

/-- The result of classing an operand. -/
inductive Class where | conforming | convertible | rejected | le8Partial
  deriving DecidableEq, Repr

/-- The elements of the run, and the levels inside it. -/
def Lay.run (l : Lay) : Nat × List Lvl :=
  match l.levels with
  | [] => (1, [])
  | v :: vs =>
    if v.st != 1 then (1, [])
    else
      let go := vs.foldl (fun (acc : Nat × List Lvl × Bool) w =>
        if acc.2.2 || extOf w.e == 1 then acc
        else if w.die || w.st != (acc.1 : Int) then (acc.1, acc.2.1, true)
        else (acc.1 * w.e, acc.2.1 ++ [w], false)) (extOf v.e, [v], false)
      (go.1, go.2.1)

/-- The run has `need` bytes and is aligned to them. -/
def Tensor.runOk (t : Tensor) (l : Lay) (need : Nat) : Bool :=
  let (n, inRun) := l.run
  decide (8 * need ≤ n * t.fmt.bits) && t.h.base % need == 0 && t.h.dstride % need == 0 &&
    l.levels.all fun v => v.die || extOf v.e == 1 || inRun.contains v || v.st * t.fmt.bits % ((8 * need : Nat) : Int) == 0

/-- The kinds an engine takes; `st` for the stores of the lane load unit. -/
def kindTaken (e : Engine) (st : Bool) (k : Kind) : Bool :=
  match e with
  | .ce => k != .vr
  | .wf | .af => k == .tm || k == .cl || k == .gl || k == .pg
  | .ll => k != .rm && !(st && k == .vr)

/-- The class of an operand for an engine: `dec` when it decodes elements, `st` for STL and MZST, `part` where a layout
that breaks the grain rule under .le8 traps LE8Partial. -/
def classOf (e : Engine) (dec st part : Bool) (h : Handle) (l : Lay) : Class :=
  match h.tensor with
  | none => .rejected
  | some t =>
    if l.illFormed || (l.dm != 7 && t.kind != .pg) then .rejected
    else if !l.grainOk t.fmt.grain then (if part && t.fmt == .le8 then .le8Partial else .rejected)
    else if !kindTaken e st t.kind || (dec && t.badScale) then .rejected
    else
      let lp := l.padded t.fmt.grain
      let ok := match e with
        | .ce => t.runOk lp 32
        | .wf | .af => t.runOk lp 128
        | .ll => t.runOk lp 4 && (t.degrees (t.units l 0 (t.unitCount l))).all fun d => decide (d ≤ 1)
      if ok then .conforming else .convertible

/-- R288: scaled operands run along k in one level of step 1, and each row begins at a scale's boundary. DEDUCED: a layout without a mode has
no such level (R252). -/
def Tensor.rowsAligned (t : Tensor) (l : Lay) : Bool :=
  t.fmt.scaleSize == 0 ||
    ((l.live 0).ei != 0 && (l.live 0).si == 1 && (l.live 0).eo == 0 &&
      (t.h.sbase == 0 ||
        let lp := l.padded t.fmt.grain
        let k := (lp.live 0).extent
        (upTo (lp.size / k)).all fun n => (((t.address lp (n * k)).1 : Int) - t.h.base) % ((2 ^ t.h.sshift : Nat) : Int) == 0))

end Sys2Proof.Machine
end

