-- ==== Sys2Proof/Machine/LayoutOps.lean ====
section
/-! DEFINITION. The layout, handle and crossbar instructions and LDL and STL (10_layout_and_tile.md R265 to R281). -/

namespace Sys2Proof.Machine

open Sys2Proof

/-! ### Registers -/

def useL (n : Nat) (m : Mask) : List Use := [⟨.r (.l n), m, true, false⟩]
def useH (n : Nat) (m : Mask) : List Use := [⟨.r (.h n), m, true, false⟩]
def defL (n : Nat) (m : Mask) : List Use := [⟨.r (.l n), m, false, false⟩]
def defH (n : Nat) (m : Mask) : List Use := [⟨.r (.h n), m, false, false⟩]

def View.lay (v : View) (n : BitVec 4) : Lay := layOf (v.f.l.getD n.toNat 0)
def View.handle (v : View) (n : BitVec 4) : Handle := handleOf (v.f.h.getD n.toNat 0)

/-- The source layout of a layout instruction: ill-formed traps LayoutCompose (R252). -/
def View.laySrc (v : View) (n : BitVec 4) : Chk Lay := do
  v.require .layoutCompose (!(v.lay n).illFormed)
  pure (v.lay n)

/-- A layout instruction of one source and one destination. -/
def layOp (sw : Bool) (len : Nat) (d a : BitVec 4) (us : View → List Use) (f : View → Lay → Chk Lay) (s : State) : Result :=
  issue sw len (fun v => useL a.toNat v.g.lanes ++ us v ++ defL d.toNat v.g.lanes)
    (fun v s => do
      let l ← f v (← v.laySrc a)
      pure (s.upd v.f (.l d.toNat l.bits))) s

/-! ### LSET, LLD, LST, LMOV (R266, R267) -/

def execLset (sw clr level : Bool) (mode : BitVec 3) (d : BitVec 4) (ext : BitVec 16) (step : BitVec 24) (s : State) : Result :=
  issue sw 16 (fun v => (if clr then [] else useL d.toNat v.g.lanes) ++ defL d.toNat v.g.lanes)
    (fun v s => do
      let l ← if clr then pure Lay.empty else v.laySrc d
      let m := mode.toNat
      let x := l.mode m
      let x := if level then { x with eo := ext.toNat, so := step.toInt } else { x with ei := ext.toNat, si := step.toInt }
      pure (s.upd v.f (.l d.toNat { l.setMode m x with nm := max l.nm (m + 1) }.bits))) s

/-- The address of a fibre-wide access in a space. -/
def View.wideAddr (v : View) (sp : Space) (a : BitVec 8) : Nat :=
  if sp.wide then ((v.sval a).setWidth 56 : VA).toNat else ((v.sval a).setWidth 32 : Word).toNat

/-- A fibre-wide load of `n` bytes at a multiple of `al`: the state, the bytes, an error in the data, and the frames that
wait. -/
def View.wideLoad (v : View) (s : State) (sp : Space) (addr n al : Nat) (rep : Option Replay) :
    Chk (State × List Byte × Option TrapRec × List Nat) := do
  let accs := v.wideAccs addr n al
  let p ← v.prepare s sp .read (noAllocOf rep) accs
  if !p.frames.isEmpty then return (s, [], none, p.frames)
  match p.ready.head? with
  | none => pure (s, [], none, [])
  | some r =>
    let (s, xs, bad) := (s.keepAll v.agent p).loadParts v.agent none r.parts
    let err := if bad then dataErr (accs.map fun x => (x.lane, x.addr)) v.g.lanes else none
    pure (s, xs.flatMap (leBytes (min 4 n)), err, [])

def execLld (sw : Bool) (sp : Space) (d : BitVec 4) (a : BitVec 8) (s : State) : Result :=
  issueMem sw 8 (fun v => useS a v.g.lanes ++ defL d.toNat v.g.lanes) (fun v s rep => do
    let (s, bs, err, frames) ← v.wideLoad s sp (v.wideAddr sp a) 64 64 rep
    let x : BitVec 512 := BitVec.ofNat 512 (leNat bs % 2 ^ 498)
    pure ({ s := s, now := [], held := if frames.isEmpty then [.l d.toNat x] else []
            out := some { Out.of [] with err := err }, done := 0 }, frames)) s

def execLst (sw : Bool) (sp : Space) (a : BitVec 8) (b : BitVec 4) (s : State) : Result :=
  issueMem sw 8 (fun v => useS a v.g.lanes ++ useL b.toNat v.g.lanes) (fun v s rep => do
    let p ← v.prepare s sp .write (noAllocOf rep) (v.wideAccs (v.wideAddr sp a) 64 64)
    if !p.frames.isEmpty then return ({ s := s, now := [], held := [], out := none, done := 0 }, p.frames)
    v.checkTags s p.ready
    let x := (v.f.l.getD b.toNat 0).toNat % 2 ^ 498
    let s := match p.ready.head? with
      | some r => (s.keepAll v.agent p).storeParts v.agent none r.parts
          ((upTo 16).map fun i => BitVec.ofNat 32 (x / 2 ^ (32 * i)))
      | none => s
    pure ({ s := s, now := [], held := [], out := none, done := 0 }, [])) s

def execLmov (sw hnd : Bool) (d a : BitVec 4) (s : State) : Result :=
  issue sw 8 (fun v => if hnd then useH a.toNat v.g.lanes ++ defH d.toNat v.g.lanes
      else useL a.toNat v.g.lanes ++ defL d.toNat v.g.lanes)
    (fun v s => .ok (s.upd v.f (if hnd then .h d.toNat (v.f.h.getD a.toNat 0) else .l d.toNat (v.f.l.getD a.toNat 0)))) s

/-! ### LPART, LCHAIN, LTRANS, LFLAT (R268 to R271) -/

/-- A step fits its 24 bits. -/
def fits24 (x : Int) : Bool := decide (-(2 ^ 23 : Int) ≤ x) && decide (x < 2 ^ 23)

def execLpart (sw die : Bool) (mode : BitVec 3) (d a : BitVec 4) (tile : BitVec 16) (s : State) : Result :=
  layOp sw 12 d a (fun _ => []) (fun v l => do
    let m := mode.toNat
    let b := tile.toNat
    let x := l.mode m
    let e := extOf x.ei
    v.require .layoutCompose (decide (m < l.nm) && x.eo == 0 && b != 0 && e % b == 0)
    if die then
      v.require .layoutCompose (l.dm == 7 && decide (e / b ≤ 4))
      pure { l.setMode m ⟨b, x.si, e / b, 0⟩ with dm := m }
    else
      v.require .layoutCompose (fits24 (x.si * b))
      pure (l.setMode m ⟨b, x.si, e / b, x.si * b⟩)) s

/-- One level of the tiler composed (R269): its step, and the level of A used up; `P` runs over the levels of A. -/
def chainLevel (seq : List (Lvl × Nat)) (used : List Nat) (v : Lvl) : Option (Int × List Nat × Bool) :=
  match (seq.zip (upTo seq.length)).find? fun x =>
      decide ((x.1.2 : Int) ≤ v.st) && decide (v.st < ((x.1.2 * x.1.1.e : Nat) : Int)) with
  | none => none
  | some ((lv, p), k) =>
    if v.st % (p : Int) ≠ 0 then none
    else
      let t := (v.st / (p : Int)).toNat
      let now := used.getD k 0 + t * (v.e - 1)
      if now > lv.e - 1 then none
      else if lv.die then
        if !v.outer || t != 1 then none else some (0, used.set k now, true)
      else if fits24 (t * lv.st) then some (t * lv.st, used.set k now, false) else none

/-- The levels of A with extent 2 or more, with the products of the extents below them. -/
def chainSeq (l : Lay) : List (Lvl × Nat) :=
  (l.levels.filter fun v => decide (2 ≤ v.e)).foldl (fun acc v =>
    acc ++ [(v, match acc.getLast? with | some (w, p) => p * w.e | none => 1)]) []

def chain (a t : Lay) : Option Lay :=
  let seq := chainSeq a
  let start : Lay := { Lay.empty with nm := t.nm, sb := a.sb, sm := a.sm, ss := a.ss }
  (t.levels.foldlM (fun (acc : Lay × List Nat) v =>
    let put := fun (l : Lay) (st : Int) =>
      let x := l.mode v.m
      l.setMode v.m (if v.outer then { x with eo := v.e, so := st } else { x with ei := v.e, si := st })
    if v.e ≤ 1 ∨ v.st = 0 then some (put acc.1 0, acc.2)
    else if v.st < 0 then none
    else match chainLevel seq acc.2 v with
      | none => none
      | some (st, used, die) =>
        if die then (if acc.1.dm != 7 then none else some ({ put acc.1 0 with dm := v.m }, used))
        else some (put acc.1 st, used)) (start, seq.map fun _ => 0)).map (·.1)

def execLchain (sw : Bool) (d a b : BitVec 4) (s : State) : Result :=
  layOp sw 8 d a (fun v => useL b.toNat v.g.lanes) (fun v l => do
    let t ← v.laySrc b
    match chain l t with
    | some x => pure x
    | none => .error (v.stop .layoutCompose v.g.lanes)) s

def execLtrans (sw : Bool) (d a : BitVec 4) (perm : BitVec 18) (s : State) : Result :=
  layOp sw 12 d a (fun _ => []) (fun v l => do
    let pi := (upTo l.nm).map fun i => (perm.extractLsb' (3 * i) 3).toNat
    v.require .layoutCompose ((upTo l.nm).all pi.contains)
    pure { l with
      modes := (upTo 6).map fun i => if i < l.nm then l.mode (pi.getD i 0) else .nil
      dm := if l.dm == 7 then 7 else pi.idxOf l.dm }) s

/-- Two levels merged (R271). -/
def mergePair (e0 : Nat) (s0 : Int) (e1 : Nat) (s1 : Int) : Option (Nat × Int) :=
  if extOf e0 = 1 then some (e1, s1)
  else if extOf e1 = 1 then some (e0, s0)
  else if s1 = s0 * e0 ∧ e0 * e1 ≤ 65535 then some (e0 * e1, s0)
  else none

/-- The one level of extent 2 or more of a mode, none when it has two (R271). DESIGN CHOICE: the inner level where neither has (log entry 52). -/
def Mode.single (m : Mode) : Option (Nat × Int) :=
  if extOf m.ei = 1 then (if extOf m.eo = 1 then some (m.ei, m.si) else some (m.eo, m.so))
  else if extOf m.eo = 1 then some (m.ei, m.si) else none

/-- Without mode `m`: the higher modes move down. -/
def Lay.dropMode (l : Lay) (m : Nat) : Lay :=
  { l with modes := (l.modes.take m ++ l.modes.drop (m + 1)) ++ [.nil], nm := l.nm - 1 }

/-- LFLAT (R271). DESIGN CHOICE: the outer level of the merged mode is left with extent and step 0 (log entry 52). -/
def execLflat (sw byMode : Bool) (mode : BitVec 3) (d a : BitVec 4) (s : State) : Result :=
  layOp sw 8 d a (fun _ => []) (fun v l => do
    let m := mode.toNat
    let bad := Except.error (v.stop .layoutFlatten v.g.lanes)
    if byMode then
      v.require .layoutFlatten (decide (m + 1 < l.nm) && l.dm != m && l.dm != m + 1)
      match (l.mode m).single, (l.mode (m + 1)).single with
      | some (e0, s0), some (e1, s1) =>
        match mergePair e0 s0 e1 s1 with
        | some (e, st) =>
          let x := (l.setMode m ⟨e, st, 0, 0⟩).dropMode (m + 1)
          pure { x with dm := if l.dm != 7 && decide (m + 1 < l.dm) then l.dm - 1 else l.dm }
        | none => bad
      | _, _ => bad
    else
      v.require .layoutFlatten (decide (m < l.nm) && l.dm != m)
      let x := l.mode m
      match mergePair x.ei x.si x.eo x.so with
      | some (e, st) => pure (l.setMode m ⟨e, st, 0, 0⟩)
      | none => bad) s

/-! ### LSLICE, LSWZ, LQRY (R272 to R274) -/

/-- LSLICE (R272); under a reserved format code it counts elements of 8 bits with grain 1 and no scale, by the model's choice (log entry
32). -/
def execLslice (sw : Bool) (mode : BitVec 3) (d a : BitVec 4) (b : BitVec 8) (c : BitVec 4) (imm : Word) (s : State) :
    Result :=
  issue sw 12 (fun v => useL a.toNat v.g.lanes ++ useS b v.g.lanes ++ useH c.toNat v.g.lanes ++
      defL d.toNat v.g.lanes ++ defH c.toNat v.g.lanes)
    (fun v s => do
      let l ← v.laySrc a
      let h := v.handle c
      let m := mode.toNat
      let x := l.mode m
      let co := ((v.sval b).setWidth 32 + imm : Word).toNat
      v.require .layoutCompose (decide (m < l.nm) && decide (co < x.extent))
      let ci := co % extOf x.ei
      let q := co / extOf x.ei
      let die := l.dm == m
      let o : Int := ci * x.si + (if die then 0 else q * x.so)
      let (bits, g, sc) := match Fmt.ofCode h.fmt with
        | some f => (f.bits, f.grain, f.scaleSize)
        | none => (8, 1, 0)
      v.require .layoutCompose (o * bits % ((8 * g : Nat) : Int) == 0)
      let δ : Int := o * bits / 8 + (if die then (q * h.dstride : Nat) else 0)
      v.require .layoutCompose (h.sbase == 0 || δ % ((2 ^ h.sshift : Nat) : Int) == 0)
      let wrap := fun (y : Int) => (y % (2 ^ 56 : Int)).toNat
      let h' := { h with
        base := wrap (h.base + δ)
        sbase := if h.sbase == 0 then 0 else wrap (h.sbase + δ / ((2 ^ h.sshift : Nat) : Int) * sc)
        kind := if die && h.kind == 5 then 3 else h.kind }
      let l' := { l.dropMode m with dm := if die then 7 else if l.dm != 7 && decide (m < l.dm) then l.dm - 1 else l.dm }
      pure ((s.upd v.f (.l d.toNat l'.bits)).upd v.f (.h c.toNat h'.bits))) s

def execLswz (sw : Bool) (d a : BitVec 4) (b : BitVec 8) (s : State) : Result :=
  layOp sw 8 d a (fun v => useS b v.g.lanes) (fun v l => do
    let x := v.sval b
    let ss := (x.extractLsb' 0 4).toNat
    let sm := (x.extractLsb' 4 4).toNat
    let sb := (x.extractLsb' 8 4).toNat
    v.require .layoutCompose (!badBank ss sm sb)
    pure { l with ss := ss, sm := sm, sb := sb }) s

/-- A class as LQRY reports it. -/
def Class.code : Class → Nat
  | .conforming => 0
  | .convertible => 1
  | .rejected | .le8Partial => 2

/-- The figure of a query (R274). -/
def layQuery (l : Lay) (q : LQuery) (h : BitVec 4 → Handle) : Nat :=
  match q with
  | .cls e n =>
    let feeder := e == .wf || e == .af
    if feeder && !((h n).tensor.any fun t => t.rowsAligned l) then 2 else (classOf e feeder false false (h n) l).code
  | .size => if l.illFormed then 0 else l.size
  | .span => if l.illFormed then 0 else l.span
  | .deg n => if l.illFormed then 0 else match (h n).tensor with
    | some t => (t.degrees (t.units l 0 (t.unitCount l))).foldl max 0
    | none => 0
  | .clst n => if l.illFormed then 0 else (classOf .ll false true true (h n) l).code

/-- The handle that a query names. -/
def handleOfQuery : LQuery → Option (BitVec 4)
  | .size | .span => none
  | .cls _ h | .deg h | .clst h => some h

def execLqry (sw : Bool) (q : LQuery) (d : BitVec 6) (a : BitVec 4) (s : State) : Result :=
  issue sw 8 (fun v => useL a.toNat v.g.lanes ++
      (match handleOfQuery q with | some h => useH h.toNat v.g.lanes | none => []) ++ defS d.toNat v.g.lanes)
    (fun v s => .ok (s.upd v.f (.s d.toNat (BitVec.ofNat 64 (layQuery (v.lay a) q v.handle))))) s

/-! ### HMK, HSET, HQRY (R275, R276) -/

def execHmk (sw : Bool) (gsize : BitVec 2) (kind : Kind) (fmt : Fmt) (d : BitVec 4) (a b : BitVec 8) (stride : BitVec 48)
    (s : State) : Result :=
  issue sw 16 (fun v => useS a v.g.lanes ++ (if kind == .rm then useS b v.g.lanes else []) ++ defH d.toNat v.g.lanes)
    (fun v s =>
      let t := if kind == .rm then v.sval b else 0
      .ok (s.upd v.f (.h d.toNat (Handle.bits
        { dstride := stride.toNat, tscale := 0x3F800000, fp4x := 0, sshift := 0, sbase := 0, asid := t.extractLsb' 16 16,
          tdev := t.setWidth 16, gsize := gsize, fmt := fmt.code, kind := kind.code, base := (v.sval a).toNat % 2 ^ 56 })))) s

/-- A handle with one field set (R276); none where the value is a reserved kind, format or group size (R256). -/
def Handle.set (h : Handle) (f : HField) (x : DWord) : Option Handle :=
  match f with
  | .base => some { h with base := x.toNat % 2 ^ 56 }
  | .kind => if (Kind.ofCode (x.setWidth 3)).isSome then some { h with kind := x.setWidth 3 } else none
  | .fmt => if (Fmt.ofCode (x.setWidth 5)).isSome then some { h with fmt := x.setWidth 5 } else none
  | .gsize => if x.extractLsb' 0 2 == 3 then none else some { h with gsize := x.setWidth 2 }
  | .tdev => some { h with tdev := x.setWidth 16 }
  | .asid => some { h with asid := x.setWidth 16 }
  | .sbase => some { h with sbase := x.toNat % 2 ^ 56 }
  | .sshift => some { h with sshift := x.toNat % 2 ^ 6 }
  | .fp4x => some { h with fp4x := x.setWidth 16 }
  | .tscale => some { h with tscale := x.setWidth 32 }
  | .dstride => some { h with dstride := x.toNat % 2 ^ 48 }

def Handle.get (h : Handle) (f : HField) : Nat :=
  match f with
  | .base => h.base
  | .kind => h.kind.toNat
  | .fmt => h.fmt.toNat
  | .gsize => h.gsize.toNat
  | .tdev => h.tdev.toNat
  | .asid => h.asid.toNat
  | .sbase => h.sbase
  | .sshift => h.sshift
  | .fp4x => h.fp4x.toNat
  | .tscale => h.tscale.toNat
  | .dstride => h.dstride

def execHset (sw : Bool) (f : HField) (d : BitVec 4) (val : HVal) (s : State) : Result :=
  issue sw 16 (fun v => useH d.toNat v.g.lanes ++ (match val with | .reg a => useS a v.g.lanes | .imm _ => []) ++
      defH d.toNat v.g.lanes)
    (fun v s =>
      match (v.handle d).set f (match val with | .reg a => v.sval a | .imm x => x) with
      | some h => .ok (s.upd v.f (.h d.toNat h.bits))
      | none => .error (v.stop .illegalInstruction v.g.lanes)) s

def execHqry (sw : Bool) (f : HField) (d : BitVec 6) (a : BitVec 4) (s : State) : Result :=
  issue sw 8 (fun v => useH a.toNat v.g.lanes ++ defS d.toNat v.g.lanes)
    (fun v s => .ok (s.upd v.f (.s d.toNat (BitVec.ofNat 64 ((v.handle a).get f))))) s

/-! ### The crossbar (R277 to R279) -/

/-- A row from its 128 bytes. -/
def rowOfBytes (bs : List Byte) : Row := mkRow fun l => BitVec.ofNat 32 (leNat ((bs.drop (4 * l)).take 4))

/-- A pattern table that the team does not have is no value of the field: IllegalInstruction before any other check (R67, R277). -/
def withTable (sw : Bool) (t : BitVec 4) (run : State → Result) (s : State) : Result :=
  match s.view? with
  | some v => if t.toNat < v.rcd.patn then run s else (v.stop .illegalInstruction v.g.lanes).outcome s v sw
  | none => run s

def execPermx (sw : Bool) (t : BitVec 4) (d : BitVec 8) (a : Opnd) (s : State) : Result :=
  withTable sw t (issueColl sw 8 (fun _ => [⟨.v a.idx.toNat, BitVec.allOnes 32, true, a.last⟩, ⟨.v d.toNat, BitVec.allOnes 32, false, false⟩,
      ⟨.r (.pat t.toNat), BitVec.allOnes 32, true, false⟩])
    (fun v s => do
      let tab := v.tm.pats.getD t.toNat []
      let r := v.vreg a.idx.toNat
      let out := (upTo 128).map fun j =>
        let x := tab.getD j 0
        if x.getLsbD 7 then 0 else r.byte (x.toNat / 4 % 32 * 4 + x.toNat % 4)
      match quotaRow v.f.quota d.toNat with
      | some q => pure (s.upd v.f (.v q (BitVec.allOnes 32) (rowOfBytes out)))
      | none => pure s)) s

def execPtld (sw : Bool) (sp : Space) (t : BitVec 4) (a : BitVec 8) (s : State) : Result :=
  withTable sw t (issueMem sw 8 (fun v => useS a v.g.lanes ++ [⟨.r (.pat t.toNat), v.g.lanes, false, false⟩]) (fun v s rep => do
    let (s, bs, err, frames) ← v.wideLoad s sp (v.wideAddr sp a) 128 128 rep
    pure ({ s := s, now := [], held := if frames.isEmpty then [.pat t.toNat bs] else []
            out := some { Out.of [] with err := err }, done := 0 }, frames))) s

/-! ### Elements of a tile in memory (R257, R281) -/

/-- Where a unit lies: none when it leaves its segment. A unit that may straddle words is taken byte by byte. -/
def View.unitSpots (v : View) (k : Kind) (u : TileUnit) : Option (List (Spot × Nat)) :=
  let sp : Space := match k with | .tm => .tm | .cl => .cl | .rm => .rm | _ => .gl
  if u.spans.all fun p => decide (p.1 < 2 ^ 56) && v.inSegment sp p.1 p.2 then
    some (u.spans.flatMap fun p =>
      if p.1 % min p.2 4 == 0 && p.2 != 3 then v.spots sp p.1 p.2 else (upTo p.2).flatMap fun i => v.spots sp (p.1 + i) 1)
  else none

/-- The units of a tile made ready: their targets, or the frames that wait. -/
structure TileReady where
  units : List (TileUnit × List (Target × Nat))
  frames : List Nat
  used : List TlbEntry
  deriving Repr

/-- Segment checks of every element, alignment, then translation of every page (R281): a fault names the lowest failing
natural index and every live lane. `align` tells the alignment that a unit must have. -/
def View.prepareTile (v : View) (s : State) (need : Need) (noAlloc : List Nat) (k : Kind) (align : Nat)
    (us : List TileUnit) : Chk TileReady := do
  let spots := us.map fun u => (u, v.unitSpots k u)
  let fail := fun (c : Trap) (p : TileUnit × Option (List (Spot × Nat)) → Bool) => match spots.find? p with
    | some x => (.error (.trap none (v.trapRec c v.f.live (BitVec.ofNat 64 x.1.addr) 0)) : Chk Unit)
    | none => pure ()
  fail .segmentLimit fun x => x.2.isNone
  fail .misaligned fun x => x.1.addr % align != 0
  let vas := spots.flatMap fun x => (x.2.getD []).filterMap fun y => y.1.va?
  let frames := vas.foldl (fun acc z => addOnce acc (z / 2 ^ 16)) []
  let xs := frames.map fun fr => (fr, s.xlatOr v.agent v.c noAlloc (fr * 2 ^ 16) need)
  let meets := fun (q : Xlat) (x : TileUnit × Option (List (Spot × Nat))) => (x.2.getD []).any fun y =>
    (y.1.va?.bind fun z => aget xs (z / 2 ^ 16)) == some q
  match xs.findSome? fun x => x.2.hole? with
  | some pa => .error (.fault (.physicalHole pa))
  | none =>
    match spots.find? fun x => meets .mapping x || meets .permission x with
    | some x => fail (if meets .mapping x then .mappingError else .permission) fun y => y.1.i == x.1.i
    | none => pure ()
    pure { units := spots.map fun x => (x.1, (x.2.getD []).map fun y => (y.1.target xs, y.2))
           frames := (xs.filter fun x => x.2.waits).map (·.1)
           used := xs.filterMap fun x => x.2.entry? }

/-- A byte of the fibre's register space (R257). -/
def View.regByte (v : View) (a : Nat) : Byte := (v.vreg (a / 128)).byte (a % 128)

/-- A 4-bit unit whose upper element is padding has code 0 there (R258). -/
def TileUnit.mask (u : TileUnit) (x : Nat) : Nat := if u.half then x % 16 else x

/-- The checks of LDL and STL before the segment checks (R280, R281). -/
def View.tileAccept (v : View) (t : Tile) (st : Bool) (i0 : Nat) : Chk (Tensor × Lay) := do
  let h := v.handle t.hn
  let l := v.lay t.ln
  match classOf .ll false st st h l, h.tensor with
  | .le8Partial, _ => .error (v.stop .le8Partial v.g.lanes)
  | .rejected, _ | _, none => .error (v.stop .layoutReject v.g.lanes)
  | _, some x =>
    v.require (if st && x.fmt == .le8 then .le8Partial else .misaligned) (i0 % x.fmt.grain == 0)
    pure (x, l)

/-- The registers of the register space that a load from the .vr kind touches. -/
def vrUses (v : View) (us : List TileUnit) : List Use :=
  (us.foldl (fun acc u => addOnce (addOnce acc (u.addr / 128)) ((u.addr + u.len - 1) / 128)) []).map
    fun n => ⟨.v n, v.g.lanes, true, false⟩

/-- The alignment of the elements of a register tile (R281, step 4). -/
def View.vrAligned (v : View) (t : Tensor) (us : List TileUnit) : Chk Unit :=
  match us.find? fun u => u.addr % t.fmt.align != 0 with
  | some u => .error (.trap none (v.trapRec .misaligned v.f.live (BitVec.ofNat 64 u.addr) 0))
  | none => pure ()

/-- The units that an LDL or STL of 2^k rows names. -/
def rowUnits (t : Tensor) (l : Lay) (k i0 : Nat) : List TileUnit := t.units l i0 (2 ^ k * 128 / t.fmt.unit)

/-- Rows from the bytes of their units; units past the tile's end give 0. -/
def rowsOfUnits (t : Tensor) (rows i0 : Nat) (us : List (TileUnit × Nat)) : List Row :=
  (upTo rows).map fun r =>
    let first := r * 128 / t.fmt.unit
    let at_ := fun j => (us.find? fun u => u.1.i == i0 + j * t.fmt.grain).map (·.2)
    rowOfBytes ((upTo (128 / t.fmt.unit)).flatMap fun j => leBytes t.fmt.unit ((at_ (first + j)).getD 0))

/-- The first natural index that LDL or STL names. -/
def View.firstIndex (v : View) (b : BitVec 8) : Nat := ((v.sval b).setWidth 32 : Word).toNat

/-- Uses of LDL: the source rows of the .vr kind among them. -/
def View.ldlUses (v : View) (k : BitVec 3) (d : BitVec 8) (t : Tile) (b : BitVec 8) : List Use :=
  useS b v.g.lanes ++ useH t.hn.toNat v.g.lanes ++ useL t.ln.toNat v.g.lanes ++
    (match v.tileAccept t false (v.firstIndex b) with
      | .ok (x, l) => if x.kind == .vr then vrUses v (rowUnits x l k.toNat (v.firstIndex b)) else []
      | .error _ => []) ++
    defRun (2 ^ k.toNat) d.toNat v.g.lanes

/-- Whole rows as writes of a run of registers. -/
def View.rowUpds (v : View) (d : BitVec 8) (rows : List Row) : List RegUpd :=
  ((upTo rows.length).zip rows).flatMap fun r =>
    match quotaRow v.f.quota (d.toNat + r.1) with
    | some q => [RegUpd.v q (BitVec.allOnes 32) r.2]
    | none => []

/-- The units of a tile as the register space holds them. -/
def View.regUnits (v : View) (us : List TileUnit) : List (TileUnit × Nat) :=
  us.map fun u => (u, u.mask (leNat ((upTo u.len).map fun i => v.regByte (u.addr + i))))

/-- Load units in order: the state, their values, and the address of the first in error. -/
def State.loadUnits (s : State) (a : Agent) (us : List (TileUnit × List (Target × Nat))) : State × List (TileUnit × Nat) × Option Nat :=
  us.foldl (fun acc u =>
    let (s, xs, bad) := acc.1.loadParts a none u.2
    let val := leNat (xs.flatMap (leBytes (min 4 (partsLen u.2))))
    (s, acc.2.1 ++ [(u.1, u.1.mask val)], if bad && acc.2.2.isNone then some u.1.addr else acc.2.2))
    (s, ([] : List (TileUnit × Nat)), (none : Option Nat))

/-- An error in the data of a tile: every live lane, and the address of its unit (R281). -/
def View.tileErr (v : View) (bad : Option Nat) : Option TrapRec :=
  bad.bind fun a => dataErr [(lowest v.f.live, a)] v.f.live

/-- sr.lcd after an access (R261). -/
def State.setLcd (s : State) (v : View) (ds : List Nat) : State := s.modFibre v.f.ref fun f => { f with lcd := lcdOf ds }

def execLdl (sw : Bool) (k : BitVec 3) (d : BitVec 8) (t : Tile) (b : BitVec 8) (s : State) : Result :=
  issueMemAs ⟨false, true⟩ sw 8 (fun v => v.ldlUses k d t b) (fun v s rep => do
    let (x, l) ← v.tileAccept t false (v.firstIndex b)
    let us := rowUnits x l k.toNat (v.firstIndex b)
    let rows := fun (vals : List (TileUnit × Nat)) => v.rowUpds d (rowsOfUnits x (2 ^ k.toNat) (v.firstIndex b) vals)
    if x.kind == .vr then
      v.vrAligned x us
      pure ({ s := s.setLcd v [], now := [], held := rows (v.regUnits us), out := some (Out.of []), done := 0 }, [])
    else
      let p ← v.prepareTile s .read (noAllocOf rep) x.kind x.fmt.align us
      if !p.frames.isEmpty then return ({ s := s, now := [], held := [], out := none, done := 0 }, p.frames)
      let s := p.used.foldl (fun s e => s.keepXlat v.agent e) s
      let (s, vals, bad) := s.loadUnits v.agent p.units
      pure ({ s := s.setLcd v (x.degrees us), now := [], held := rows vals, out := some { Out.of [] with err := v.tileErr bad }, done := 0 }, [])) s

/-- BarrierClobber of a tile's units: every live lane, the lowest tagged address (R333). -/
def View.tileTags (v : View) (s : State) (us : List (TileUnit × List (Target × Nat))) : Chk Unit :=
  let bad := (us.filter fun u => u.2.any fun p => s.isTagged p.1).map fun u => u.1.addr
  if bad.isEmpty then pure ()
  else .error (.trap none (v.trapRec .barrierClobber v.f.live (BitVec.ofNat 64 (bad.foldl min (bad.headD 0))) 0))

/-- Store the value of a unit. -/
def State.storeUnit (s : State) (a : Agent) (ps : List (Target × Nat)) (x : Nat) : State :=
  (ps.foldl (fun acc p => (acc.1.storeParts a none [p] [BitVec.ofNat 32 acc.2], acc.2 / 2 ^ (8 * p.2))) (s, x)).1

/-- Uses of STL. -/
def View.stlUses (v : View) (k : BitVec 3) (t : Tile) (b : BitVec 8) (c : Opnd) : List Use :=
  useS b v.g.lanes ++ useH t.hn.toNat v.g.lanes ++ useL t.ln.toNat v.g.lanes ++ useRun (2 ^ k.toNat) c.idx.toNat v.g.lanes c.last

/-- The value that STL stores to a unit: its place in the run, from register `c` on. -/
def View.runUnit (v : View) (f : Fmt) (i0 c : Nat) (u : TileUnit) : Nat :=
  u.mask (leNat ((upTo u.len).map fun i => v.regByte (128 * c + (u.i - i0) / f.grain * f.unit + i)))

def execStl (sw : Bool) (k : BitVec 3) (t : Tile) (b : BitVec 8) (c : Opnd) (s : State) : Result :=
  issueMemAs ⟨false, true⟩ sw 8 (fun v => v.stlUses k t b c) (fun v s rep => do
    let (x, l) ← v.tileAccept t true (v.firstIndex b)
    let us := rowUnits x l k.toNat (v.firstIndex b)
    let p ← v.prepareTile s .write (noAllocOf rep) x.kind x.fmt.align us
    if !p.frames.isEmpty then return ({ s := s, now := [], held := [], out := none, done := 0 }, p.frames)
    v.tileTags s p.units
    let s := p.used.foldl (fun s e => s.keepXlat v.agent e) s
    let s := p.units.foldl (fun s u => s.storeUnit v.agent u.2 (v.runUnit x.fmt (v.firstIndex b) c.idx.toNat u.1)) s
    pure ({ s := s.setLcd v (x.degrees us), now := [], held := [], out := none, done := 0 }, [])) s

end Sys2Proof.Machine
end

