-- ==== Sys2Proof/Machine/Matrix.lean ====
section
/-! DEFINITION. The matrix array (11_matrix_array.md R282 to R302, with R103): operands, commands in array order, what each
command does when it acts, and the matrix instructions. -/

namespace Sys2Proof

/-- The floating type of a format; FP32 for those that have none. -/
def Fmt.ty : Fmt → Ty
  | .f16 => .f16
  | .bf16 => .bf16
  | .e4m3 => .e4m3
  | .e5m2 => .e5m2
  | .e2m1 => .e2m1
  | _ => .f32

/-- Formats whose values carry scales and flush as the grouped class (R98). -/
def Fmt.asGroup : Fmt → Bool
  | .le8 | .q4 | .q8 | .cb4 => true
  | _ => false

/-- The K capacity of a weight format (R287). -/
def Fmt.capacity : Fmt → Option Nat
  | .f16 | .bf16 => some 128
  | .e4m3 | .e5m2 | .q8 => some 256
  | .e2m1 | .q4 | .cb4 | .le8 => some 512
  | _ => none

end Sys2Proof

namespace Sys2Proof.Machine

open Sys2Proof

/-! ### Ranges of bytes in place (R285) -/

/-- A byte range that an engine's operand names: its space, address, length and alignment, and its parts where a bank function separates
them (R260). -/
structure Range where
  sp : Space
  addr : Nat
  len : Nat
  align : Nat
  cut : List (Nat × Nat) := []
  deriving DecidableEq, Repr

/-- Where the bytes of a range lie. -/
def Range.spans (r : Range) : List (Nat × Nat) := if r.cut.isEmpty then [(r.addr, r.len)] else r.cut

/-- Address space of a storage kind. -/
def Kind.space : Kind → Space
  | .tm => .tm
  | .cl => .cl
  | .rm => .rm
  | _ => .gl

/-- The parts of a range, byte by byte where it does not divide into words. -/
def View.rangeSpots (v : View) (r : Range) : List (Spot × Nat) :=
  r.spans.flatMap fun p =>
    if p.2 % min (max p.2 1) 4 == 0 && p.1 % min (max p.2 1) 4 == 0 && p.2 != 3 then v.spots r.sp p.1 p.2
    else (upTo p.2).flatMap fun i => v.spots r.sp (p.1 + i) 1

/-- A trap of an engine's operand: every live lane and the failing address (R285). -/
def View.failAt (v : View) (c : Trap) (a : Nat) : Stop := .trap none (v.trapRec c v.f.live (BitVec.ofNat 64 a) 0)

/-- The lowest address of the ranges that a test picks. -/
def lowestOf (rs : List Nat) : Nat := rs.foldl min (rs.headD 0)

/-- Segment and alignment checks, then translation of every page (R189, R198, R200) for ranges with the right that each needs: a fault names
the lowest failing address; the frames that wait come back with the pieces. -/
def View.placeEach (v : View) (s : State) (noAlloc : List Nat) (rs : List (Need × Range)) :
    Chk (List Piece × List Nat × List TlbEntry) := do
  let fail := fun (c : Trap) (bad : List Nat) =>
    if bad.isEmpty then (pure () : Chk Unit) else .error (v.failAt c (lowestOf bad))
  fail .segmentLimit ((rs.filter fun r => !(r.2.spans.all fun p => p.1 < 2 ^ 56 && v.inSegment r.2.sp p.1 p.2)).map (·.2.addr))
  fail .misaligned ((rs.filter fun r => r.2.addr % r.2.align != 0).map (·.2.addr))
  let spots := rs.map fun r => (r, v.rangeSpots r.2)
  let frames := (spots.flatMap fun x => x.2.filterMap fun y => y.1.va?.map fun z => (x.1.1, z / 2 ^ 16)).foldl addOnce []
  let xs := frames.map fun fr => (fr, s.xlatOr v.agent v.c noAlloc (fr.2 * 2 ^ 16) fr.1)
  let meets := fun (q : Xlat) => (spots.filter fun x => x.2.any fun y =>
    (y.1.va?.bind fun z => aget xs (x.1.1, z / 2 ^ 16)) == some q).map (·.1.2.addr)
  match xs.findSome? fun x => x.2.hole? with
  | some pa => .error (.fault (.physicalHole pa))
  | none =>
    fail .mappingError (meets .mapping)
    fail .permission (meets .permission)
    let target := fun (n : Need) (y : Spot) => y.target (xs.filterMap fun x => if x.1.1 == n then some (x.1.2, x.2) else none)
    pure (spots.map fun x => { addr := x.1.2.addr, parts := x.2.map fun y => (target x.1.1 y.1, y.2) },
      (xs.filterMap fun x => if x.2.waits then some x.1.2 else none).foldl addOnce [],
      xs.filterMap fun x => x.2.entry?)

/-- As `placeEach`, for ranges that need one right. -/
def View.placeAll (v : View) (s : State) (need : Need) (noAlloc : List Nat) (rs : List Range) :
    Chk (List Piece × List Nat × List TlbEntry) := v.placeEach s noAlloc (rs.map fun r => (need, r))

/-- Where a byte of an operand lies after its cluster was saved and resumed, if its page can be accessed (R202, R302). -/
def State.retarget (s : State) (a : Agent) (need : Need) (t : Target) : Option Target :=
  match t with
  | .pad .. => some t
  | .mem m => (s.ctx? m.asid).bind fun c => (s.xlat a c m.va.toNat need).entry?.map fun e => .mem (e.place m.va.toNat)

/-- The bytes of a piece, and whether one of its words is in error. -/
def State.readPiece (s : State) (a : Agent) (sc : Option Scope) (p : Piece) : State × List Byte × Bool :=
  p.parts.foldl (fun acc q =>
    let (s, w, bad) := acc.1.loadWord a q.1 sc
    (s, acc.2.1 ++ leBytes q.2 (partOf q.1 q.2 w), acc.2.2 || bad)) (s, [], false)

/-- A word of a scale (R286): in mapped memory it is read through the scale cache, unless the L1 holds it. -/
def State.loadScale (s : State) (a : Agent) (t : Target) : State × Word × Bool :=
  match t with
  | .pad .. => s.loadWord a t none
  | .mem m =>
    let s := if (s.nearCopy a.core (m.pa / 4)).isNone then s.fillSc a m (m.pa / 128) else s
    match s.nearCopy a.core (m.pa / 4) with
    | some c => (s, c.val, c.poison)
    | none => (s, 0, true)

/-- The bytes of a scale. -/
def State.readScale (s : State) (a : Agent) (p : Piece) : State × List Byte × Bool :=
  p.parts.foldl (fun acc q =>
    let (s, w, bad) := acc.1.loadScale a q.1
    (s, acc.2.1 ++ leBytes q.2 (partOf q.1 q.2 w), acc.2.2 || bad)) (s, [], false)

/-- Write a piece. -/
def State.writePiece (s : State) (a : Agent) (p : Piece) (x : Nat) : State :=
  ((p.parts.foldl (fun acc q =>
    (acc.1.storeWord a q.1 q.2 (BitVec.ofNat 32 acc.2), acc.2 / 2 ^ (8 * q.2))) (s, x)).1).storesThrough a (p.parts.map (·.1)) none

/-- Read pieces in order; the address of the first that is in error. -/
def State.readPieces (s : State) (a : Agent) (ps : List Piece) : State × List (List Byte) × Option Nat :=
  ps.foldl (fun acc p =>
    let (s, bs, bad) := acc.1.readPiece a none p
    (s, acc.2.1 ++ [bs], if bad && acc.2.2.isNone then some p.addr else acc.2.2)) (s, [], none)

/-- Read scales in order; the address of the first that is in error. -/
def State.readScales (s : State) (a : Agent) (ps : List Piece) : State × List (List Byte) × Option Nat :=
  ps.foldl (fun acc p =>
    let (s, bs, bad) := acc.1.readScale a p
    (s, acc.2.1 ++ [bs], if bad && acc.2.2.isNone then some p.addr else acc.2.2)) (s, [], none)

/-- Read a run of units: the elements' codes, padding left out, and the first address in error. An LE8 unit is one code. -/
def State.readUnits (s : State) (a : Agent) (grain : Nat) (us : List Src) : State × List Nat × Option Nat :=
  us.foldl (fun acc u =>
    let codes := fun (x : Nat) (half : Bool) =>
      if grain == 2 then (if half then [x % 16] else [x % 16, x / 16 % 16]) else [x]
    match u with
    | .imm x => (acc.1, acc.2.1 ++ codes x false, acc.2.2)
    | .mem p half =>
      let (s, bs, bad) := acc.1.readPiece a none p
      (s, acc.2.1 ++ codes (leNat bs) half, if bad && acc.2.2.isNone then some p.addr else acc.2.2)) (s, [], none)

/-! ### Decoded values (R287, R295, R103) -/

/-- The scale of a format from the word read, 1 where none is read (R82, R84, R259); the scale is exact. -/
def scaleOf (fmt : Fmt) (x : Option Nat) : XVal :=
  match x with
  | none => .fin false 1
  | some w => if fmt == .q4 || fmt == .q8 then (fpFmt .f16).value (w % 2 ^ 16) else x8Scale (BitVec.ofNat 8 w)

/-- The tensor scale. -/
def tensorScale (t : BitVec 32) : XVal := (fpFmt .f32).value t.toNat

/-- The value of element `k` of a row without its scales: a decoded code under the input flush of its class, a code less its
zero point, a codebook entry or an LE8 coordinate. -/
def rawValue (fd : Feed) (book : List Nat) (row : FeedRow) (k : Nat) : XVal :=
  match fd.fmt with
  | .le8 => XVal.ofRat (mkRat ((decodeLE8 (BitVec.ofNat 16 (row.units.getD (k / 8) 0))).getD (k % 8) 0) 2)
  | .q4 | .q8 =>
    let zp : Nat := row.scales.getD (k / 32) 0 / 2 ^ 16 % 256
    XVal.ofInt ((row.units.getD k 0 : Nat) - (zp : Int))
  | .cb4 => (fpFmt .bf16).value (book.getD (row.units.getD k 0 % 16) 0)
  | f => decodeFp fd.fpm fd.x4 f.ty (row.units.getD k 0)

/-- The product of the scales of chunk `j` of a row: block or group scale times tensor scale. -/
def chunkScale (fd : Feed) (row : FeedRow) (j : Nat) : XVal :=
  quietly (xmul (scaleOf fd.fmt row.scales[j]?) (tensorScale fd.tscale))

/-- The value of an element in its chunk's sum: a value of the grouped class whose product with every scale is subnormal
counts as zero under fi4 (R98). -/
def chunkValue (fd : Feed) (book : List Nat) (row : FeedRow) (k : Nat) : XVal :=
  let x := rawValue fd book row k
  if fd.fmt.asGroup && flushIn fd.fpm .le8 then
    match quietly (xmul x (chunkScale fd row (k / 32))) with
    | .fin n m => if m < pow2 (-126) then .fin n 0 else x
    | _ => x
  else x

/-- The rounded sum of chunk `j` of a row and a column (R103). -/
def chunkSum (fa fw : Feed) (book : List Nat) (row col : FeedRow) (j : Nat) : BitVec 32 :=
  quietly do
    let ts ← ((upTo (min 32 (fa.k - 32 * j))).map fun i => 32 * j + i).mapM fun k =>
      xmul (chunkValue fa [] row k) (chunkValue fw book col k)
    let p ← exactSum ts
    let p ← xmul (← xmul p (chunkScale fa row j)) (chunkScale fw col j)
    roundFp fa.fpm 0 .f32 .rne p

/-- One element of Z after a row's chunks, those of `skip` absent (R103, R293). -/
def dotRow (fa fw : Feed) (book : List Nat) (row col : FeedRow) (skip : Nat → Bool) (z : Word) : Word :=
  (upTo (ceilDiv fa.k 32)).foldl (fun z j =>
    let c := if skip j then 0 else chunkSum fa fw book row col j
    quietly do roundFp fa.fpm 0 .f32 .rne (← exactSum [(fpFmt .f32).value z.toNat, (fpFmt .f32).value c.toNat])) z

/-! ### The array's state -/

def Feed.none : Feed := { fmt := .f32, k := 0, x4 := 0, tscale := 0, fpm := 0 }
def Plane.empty : Plane := { st := .empty, feed := Feed.none, n := 0, cols := [], book := [] }

/-- The array when a team takes it (R282). -/
def Arr.fresh : Arr :=
  { shadow := Plane.empty, other := Plane.empty, z := [], book := List.replicate 128 0, queue := [], flt := 0, last := 0, prog := 0 }

/-- A row of a Z tile. -/
def Arr.row (a : Arr) (z r : Nat) : List Word := (aget a.z (128 * z + r)).getD (List.replicate 128 0)

def Arr.setRow (a : Arr) (z r : Nat) (xs : List Word) : Arr :=
  { a with z := if xs.all (· == 0) then adel a.z (128 * z + r) else aset a.z (128 * z + r) xs }

/-- A row with its first elements replaced. -/
def overlay (old new : List Word) : List Word := new ++ old.drop new.length

/-- Commands that load weights, or wait to. -/
def ArrOp.weights : ArrOp → Bool
  | .wload .. => true
  | .follow _ w .. => w
  | _ => false

/-- Commands of the shadow plane and the codebook store, which run alongside streams (R283). -/
def ArrOp.aside : ArrOp → Bool
  | .cbload _ => true
  | o => o.weights

/-- MSTR, MZLD and MZST: the commands with rows. -/
def ArrOp.rows : ArrOp → Option Nat
  | .stream _ _ _ _ _ rs => some rs.length
  | .zload _ _ _ rs => some rs.length
  | .zstore _ _ _ _ rs => some rs.length
  | _ => none

/-- A command with rows, or a follow-on that becomes one. -/
def ArrOp.rowed (o : ArrOp) : Bool :=
  o.rows.isSome || match o with | .follow _ w .. => !w | _ => false

/-- A command may act after the earlier ones of the queue (R283, R290, R292). -/
def ArrOp.after (o : ArrOp) (earlier : List ArrCmd) : Bool :=
  match o with
  | .follow .. => false
  | .wload .. => earlier.all fun e => !e.op.aside && e.op != .swap
  | .cbload _ => earlier.all fun e => !e.op.aside
  | .swap => earlier.all fun e => e.op.aside && !e.op.weights
  | _ => earlier.all fun e => e.op.aside

/-- The first command of a queue that passes a test and may act. -/
def firstAble (p : ArrCmd → Bool) : List ArrCmd → List ArrCmd → Option ArrCmd
  | _, [] => none
  | earlier, c :: cs => if p c && c.op.after earlier then some c else firstAble p (earlier ++ [c]) cs

/-- The logical state of the planes (R283): the shadow's state and what it holds or will hold, and the active plane's. -/
structure Logical where
  sh : WtSt
  feed : Feed
  act : Option Feed
  deriving DecidableEq, Repr

def Logical.step (l : Logical) (c : ArrCmd) : Logical :=
  match c.op with
  | .wload fd .. => { l with sh := .loading, feed := fd }
  | .follow _ true _ _ _ fd _ => { l with sh := .loading, feed := fd }
  | .swap => if l.sh == .loading || l.sh == .valid then { l with sh := .released, act := some l.feed } else l
  | .rel => { l with act := none }
  | _ => l

def Arr.logical (a : Arr) : Logical :=
  a.queue.foldl Logical.step
    { sh := a.shadow.st, feed := a.shadow.feed, act := if a.other.st == .active then some a.other.feed else none }

/-! ### Commands (R283) -/

def State.modArr (s : State) (cl team : Nat) (u : Arr → Arr) : State :=
  s.modTeam cl team fun t => { t with arr := t.arr.map u }

/-- A command enters array order; its name is the number that results and jobs wait for. -/
def State.enter (s : State) (f : FibreRef) (pc : VA) (op : ArrOp) : State :=
  let s' := s.modArr f.cl f.team fun a => { a with
    queue := a.queue ++ [{ id := s.nextId, f := f, pc := pc, op := op, prog := 0, stale := false }]
    last := if op.rowed then s.nextId else a.last
    prog := if op.rowed then 0 else a.prog }
  { s' with nextId := s.nextId + 1 }

/-- A trap of a unit for a fibre: held until its boundary, or a context fault when the fibre has exited. -/
def State.holdTrap (s : State) (kind : HeldKind) (r : FibreRef) (t : TrapRec) : State :=
  match s.fibre? r with
  | none => s
  | some f =>
    if f.st == .exited || f.live == 0 then s.contextFault f { t with epc := f.nextPc, emask := f.live }
    else s.modFibre r fun f => { f with held := f.held ++ [⟨kind, t⟩] }

/-- An asynchronous trap of a unit; its PC and lanes are those of the boundary at which it is taken. -/
def unitTrap (code : Trap) (info : Byte) (addr : Nat) : TrapRec :=
  { code := code, info := info, rp := false, asy := true, epc := 0, eaddr := BitVec.ofNat 64 addr, emask := 0 }

/-- An outstanding result that waits for a number waits for it no more; the issuer's own, a release's apart, receives the register writes. -/
def Out.answered (own : Bool) (id : Nat) (ups : List RegUpd) (o : Out) : Out :=
  if o.remote.contains id then
    { o with remote := o.remote.filter (· != id), upds := o.upds ++ if own && o.tail.isNone then ups else [] }
  else o

/-- A request or command of a fibre has its answer: the results of its cluster that wait for it wait no more. -/
def State.answered (s : State) (r : FibreRef) (id : Nat) (ups : List RegUpd) : State :=
  { s with fibres := s.fibres.map fun f =>
      if f.ref.cl == r.cl then { f with out := f.out.map (Out.answered (f.ref == r) id ups) } else f }

/-- The jobs of a team that are not done; an earlier edge is satisfied when its job is none of them (R310). -/
def Team.pending (t : Team) : List Job := t.jobs.filter fun j => j.st != .done

/-- Blocked jobs whose edges are all satisfied are Queued (R311). -/
def Team.unblock (t : Team) : Team :=
  let open_ := t.pending.map (·.id)
  { t with jobs := t.jobs.map fun j =>
      if j.st == .blocked && j.edges.all (fun e => !open_.contains e) then { j with st := .queued } else j }

/-- The tag of a job is set and its entry freed (R311). -/
def Team.completeJob (t : Team) (id : Nat) : Team :=
  match t.jobs.find? fun j => j.id == id with
  | some j => ({ t with
      tags := t.tags ||| BitVec.ofNat 64 (2 ^ j.tag)
      jobs := t.jobs.map fun x => if x.id == id then { x with st := .done } else x } : Team).unblock
  | none => t

/-- A job with a follow-on that has finished is Done and its tag set (R311, R313). -/
def Team.followed (t : Team) (id : Nat) : Team :=
  match t.jobs.find? fun j => j.cmd == some id with
  | some j => t.completeJob j.id
  | none => t

/-- A command leaves array order, finished. -/
def State.finish (s : State) (cl team : Nat) (c : ArrCmd) (ups : List RegUpd) : State :=
  let s := s.modTeam cl team fun t => { t.followed c.id with
    arr := t.arr.map fun a => { a with queue := a.queue.filter fun x => x.id != c.id } }
  s.answered c.f c.id ups

/-- A job's record changes. -/
def State.modJob (s : State) (cl team id : Nat) (u : Job → Job) : State :=
  s.modTeam cl team fun t => { t with jobs := t.jobs.map fun j => if j.id == id then u j else j }

/-- A job faults: its cause and address, and JobFault at its fibre (R311, R312). -/
def State.faultJob (s : State) (cl team : Nat) (j : Job) (cause : Byte) (addr : Nat) : State :=
  let s := s.modJob cl team j.id fun j => { j with st := .faulted, cause := cause, addr := BitVec.ofNat 64 addr }
  s.holdTrap .job j.f (unitTrap .jobFault (BitVec.ofNat 8 j.tag) addr)

/-- A command ends with a DataError in what it read (R299, R313). -/
def State.spoil (s : State) (cl team : Nat) (c : ArrCmd) (addr : Nat) : State :=
  let job := (s.team? cl team).bind fun t => t.jobs.find? fun j => j.cmd == some c.id
  let s := s.modArr cl team fun a => { a with flt := c.pc, queue := a.queue.filter fun x => x.id != c.id }
  let s := s.answered c.f c.id []
  match job with
  | some j => s.faultJob cl team j 0x0C addr
  | none => s.holdTrap .matrix c.f (unitTrap .dataError 1 addr)

/-! ### What commands do when they act -/

/-- The first of two addresses in error. -/
def orElse (a b : Option Nat) : Option Nat := match a with | some x => some x | none => b

/-- Read a row as a feeder does: units and scales, chunks of `skip` left unread. -/
def State.readRow (s : State) (a : Agent) (grain : Nat) (r : RowSrc) : State × FeedRow × Option Nat :=
  let (s, us, e1) := s.readUnits a grain r.units
  let (s, bs, e2) := s.readScales a r.scales
  (s, { units := us, scales := bs.map leNat }, orElse e1 e2)

/-- Units of a row with those of absent chunks replaced: they are not read (R294). -/
def RowSrc.without (r : RowSrc) (grain : Nat) (skip : Nat → Bool) : RowSrc :=
  { units := r.units.mapIdx fun i u => if skip (i * grain / 32) then .imm 0 else u
    scales := r.scales.mapIdx fun j p => if skip j then { p with parts := [] } else p }

/-- The active plane as a stream reads it. -/
def Arr.active (a : Arr) : Plane := if a.other.st == .active then a.other else Plane.empty

/-- An FP32 code as read under fi32. -/
def readCode (fpm : BitVec 32) (z : Word) : Word :=
  match decodeFp fpm 0 .f32 z.toNat with
  | .fin n m => if m = 0 then (if n then 0x80000000 else 0) else z
  | _ => z

/-- The row result of a stream (R293): columns of the plane, from the row of Z or from +0. -/
def streamRow (fa : Feed) (pl : Plane) (init : Bool) (skip : Nat → Bool) (row : FeedRow) (old : List Word) : List Word :=
  (pl.cols.zip (upTo pl.n)).map fun c =>
    dotRow fa pl.feed ((pl.book.drop (16 * (c.2 / 16))).take 16) row c.1 skip
      (if init then 0 else readCode fa.fpm (old.getD c.2 0))

/-- A computation's value with a random state of its own and no flags kept. -/
def quietlyWith {α : Type} (rng : Word) (n : Num α) : α := (n.run ⟨rng, 0, 0⟩).1

/-- The element that MZST stores (R296): Z is read without flushing, and the result flushed by its class (log entry 34). -/
def storedCode (fd : Feed) (rm : RMode) (rng : Word) (x8 : Option Nat) (z : Word) : Nat :=
  let x := (fpFmt .f32).value z.toNat
  let y := match x8.map fun e => x8Scale (BitVec.ofNat 8 e) with
    | none => x
    | some (.fin _ k) => (match x with | .fin n m => .fin n (m / k) | y => y)
    | some _ => .nan
  (quietlyWith rng (roundFp fd.fpm 0 fd.fmt.ty rm y)).toNat

/-- One row of the command at the head of the streams: the new array or the address of an error. -/
def State.commitRow (s : State) (ag : Agent) (arr : Arr) (c : ArrCmd) : State × Option (Arr × Nat) × Option Nat :=
  match c.op with
  | .stream z row0 init fd zb rows =>
    let chunks := ceilDiv fd.k 32
    let (s, bits, e0) := s.readPieces ag zb
    let word := leNat (bits.flatMap id)
    let skip := fun j => !zb.isEmpty && word.testBit (c.prog * chunks + j)
    match rows[c.prog]? with
    | none => (s, none, none)
    | some r =>
      let (s, row, e1) := s.readRow ag fd.fmt.grain (r.without fd.fmt.grain skip)
      match orElse e0 e1 with
      | some a => (s, none, some a)
      | none =>
        let i := row0 + c.prog
        let new := streamRow fd arr.active init skip row (arr.row z i)
        (s, some (arr.setRow z i (overlay (arr.row z i) new), rows.length), none)
  | .zload z row0 fd rows =>
    match rows[c.prog]? with
    | none => (s, none, none)
    | some r =>
      let (s, us, e) := s.readUnits ag 1 r
      match e with
      | some a => (s, none, some a)
      | none =>
        let i := row0 + c.prog
        let new := us.map fun u => (quietly (roundFp 0 0 .f32 .rne (decodeFp fd.fpm 0 fd.fmt.ty u)) : Word)
        (s, some (arr.setRow z i (overlay (arr.row z i) new), rows.length), none)
  | .zstore z row0 fd rm rows =>
    match rows[c.prog]? with
    | none => (s, none, none)
    | some r =>
      let vals := arr.row z (row0 + c.prog)
      let rng := fun a => Config.engineRandom c.id a
      let (s, bs, e) := s.readScales ag (r.filterMap (·.2))
      match e with
      | some a => (s, none, some a)
      | none =>
        let s := ((r.zip vals).zip (upTo r.length)).foldl (fun s u =>
          let x8 := u.1.1.2.bind fun _ => bs[u.2]?.map leNat
          s.writePiece ag u.1.1.1 (storedCode fd rm (rng u.1.1.1.addr) x8 u.1.2)) s
        (s, some (arr, rows.length), none)
  | _ => (s, none, none)

/-- A row of vector registers from the elements of Z: element 32q + l in lane l of register q. -/
def zRows (xs : List Word) : List Row := (upTo 4).map fun q => mkRow fun l => xs.getD (32 * q + l) 0

/-- Full writes of physical rows. -/
def rowUpds (rows : List (Option Nat)) (vals : List Row) : List RegUpd :=
  (rows.zip vals).filterMap fun x => x.1.map fun r => .v r (BitVec.allOnes 32) x.2

/-- TRED of one row (R298): fo32 applies and fi32 does not (log entry 34). -/
def tredRow (fpm : BitVec 32) (sum : Bool) (c : Nat) (xs : List Word) : Word :=
  let vs := (xs.take c).map fun x => (fpFmt .f32).value x.toNat
  quietly do
    if sum then roundFp fpm 0 .f32 .rne (← exactSum vs)
    else
      match vs with
      | [] => pure 0xFF800000
      | x :: xs => roundFp fpm 0 .f32 .rne (xs.foldl (pickX true false) x)

/-- MRESC of one element (R298). -/
def rescale (fpm : BitVec 32) (x f : Word) : Word :=
  quietly do roundFp fpm 0 .f32 .rne (← xmul (decodeFp fpm 0 .f32 x.toNat) (decodeFp fpm 0 .f32 f.toNat))

/-- A command whose whole effect takes place at once: the array after it and register writes; none for the others. -/
def Arr.instant (a : Arr) (op : ArrOp) : Option (Arr × List RegUpd) :=
  match op with
  | .swap =>
    if a.shadow.st == .valid then
      some ({ a with shadow := if a.other.st == .active then { Plane.empty with st := .released } else a.other,
                     other := { a.shadow with st := .active } }, [])
    else some (a, [])
  | .rel => some (if a.other.st == .active then { a with other := { Plane.empty with st := .released } } else a, [])
  | .zero z => some ({ a with z := a.z.filter fun x => x.1 / 128 != z }, [])
  | .mvTo z row0 rows =>
    some (a, rowUpds rows ((upTo (rows.length / 4)).flatMap fun q => zRows (a.row z (row0 + q))))
  | .mvFrom z row0 vals => some ((vals.zip (upTo vals.length)).foldl (fun a x => a.setRow z (row0 + x.2) x.1) a, [])
  | .resc z f fpm =>
    some ((upTo 128).foldl (fun a i => a.setRow z i ((a.row z i).map fun x => rescale fpm x (f.getD i 0))) a, [])
  | .tred z sum c fpm rows =>
    let xs := (upTo 128).map fun i => tredRow fpm sum c (a.row z i)
    some (a, rowUpds rows (zRows xs))
  | _ => none

/-! ### After a resumption (R302) -/

def Piece.mapM (p : Piece) (f : Target → Option Target) : Option Piece :=
  (p.parts.mapM fun x => (f x.1).map fun t => (t, x.2)).map fun ps => { p with parts := ps }

def Src.mapM (f : Target → Option Target) : Src → Option Src
  | .mem p half => (p.mapM f).map fun p => .mem p half
  | .imm x => some (.imm x)

def RowSrc.mapM (r : RowSrc) (f : Target → Option Target) : Option RowSrc := do
  some { units := ← r.units.mapM (Src.mapM f), scales := ← r.scales.mapM fun p => p.mapM f }

/-- A command with the places of its operands changed by a function of the right they need. -/
def ArrOp.mapM (f : Need → Target → Option Target) : ArrOp → Option ArrOp
  | .wload fd hs cs => do some (.wload fd (← hs.mapM fun p => p.mapM (f .read)) (← cs.mapM fun r => r.mapM (f .read)))
  | .stream z r i fd zb rs => do some (.stream z r i fd (← zb.mapM fun p => p.mapM (f .read)) (← rs.mapM fun r => r.mapM (f .read)))
  | .zload z r fd rows => do some (.zload z r fd (← rows.mapM fun us => us.mapM (Src.mapM (f .read))))
  | .zstore z r fd rm rows => do
    some (.zstore z r fd rm (← rows.mapM fun us => us.mapM fun x => do
      some (← x.1.mapM (f .write), ← match x.2 with | some p => (p.mapM (f .read)).map some | none => some none)))
  | .cbload ps => do some (.cbload (← ps.mapM fun p => p.mapM (f .read)))
  | op => some op

/-- The targets of a command's operands. -/
def ArrOp.targets : ArrOp → List Target
  | .wload _ hs cs => hs.flatMap (fun p => p.parts.map (·.1)) ++ cs.flatMap rowTargets
  | .stream _ _ _ _ zb rs => zb.flatMap (fun p => p.parts.map (·.1)) ++ rs.flatMap rowTargets
  | .zload _ _ _ rows => rows.flatMap fun us => us.flatMap srcTargets
  | .zstore _ _ _ _ rows => rows.flatMap fun us => us.flatMap fun x => x.1.parts.map (·.1) ++ (match x.2 with | some p => p.parts.map (·.1) | none => [])
  | .cbload ps => ps.flatMap fun p => p.parts.map (·.1)
  | _ => []
where
  srcTargets : Src → List Target
    | .mem p _ => p.parts.map (·.1)
    | .imm _ => []
  rowTargets (r : RowSrc) : List Target := r.units.flatMap srcTargets ++ r.scales.flatMap fun p => p.parts.map (·.1)

/-- The commands of a resumed cluster, once it is placed, find their operands' pages again; one whose page cannot be accessed now waits (log entry 34). -/
def State.refresh (s : State) (cl team : Nat) : State :=
  let a := s.agentOf cl team
  if (s.cluster? cl).any Cluster.placed then
    s.modArr cl team fun x => { x with queue := x.queue.map fun c =>
      if c.stale then ((c.op.mapM (s.retarget a)).map fun op => { c with op := op, stale := false }).getD c else c }
  else s

/-- The array of a team whose cluster is placed and whose core is not stopped (R302). -/
def State.liveArr (s : State) (cl team : Nat) : Option Arr :=
  if (s.cluster? cl).any Cluster.placed then (s.team? cl team).bind (·.arr) else none

/-- A command that ARRAY_DEFERRED_ACT makes act. -/
def Arr.able (a : Arr) (c : ArrCmd) : Bool := !c.stale && ((a.instant c.op).isSome || match c.op with
  | .wload .. => a.shadow.st != .loading
  | .cbload _ => true
  | _ => false)

/-- A command that has no checkpoint in R302: neither a weight load nor a stream or tile load, which stop between rows. -/
def ArrOp.completes : ArrOp → Bool
  | .wload .. | .stream .. | .zload .. => false
  | _ => true

/-- Every command in array order has completed, has reached a checkpoint, or waits (R302). -/
def Arr.settled (a : Arr) : Bool :=
  (firstAble (fun c => a.able c && c.op.completes) [] a.queue).isNone &&
    (firstAble (fun c => !c.stale && c.op.rows.isSome && c.op.completes) [] a.queue).isNone

/-- ARRAY_DEFERRED_ACT (R283, R289, R292): the first command that can act does, or a weight load begins. -/
def execArrayDeferredAct (cl team : Nat) (s : State) : Result :=
  let s := s.refresh cl team
  match s.liveArr cl team with
  | none => .next s
  | some a =>
    match firstAble a.able [] a.queue with
    | none => .next s
    | some c =>
      match c.op with
      | .wload fd _ cols =>
        .next (s.modArr cl team fun a => { a with shadow := { Plane.empty with st := .loading, feed := fd, n := cols.length } })
      | .cbload ps =>
        let (s, bs, e) := s.readPieces (s.agentOf cl team) ps
        match e with
        | some x => .next (s.spoil cl team c x)
        | none =>
          let bytes := bs.flatMap id
          let book := (upTo 128).map fun i => leNat ((bytes.drop (2 * i)).take 2)
          .next ((s.modArr cl team fun a => { a with book := book }).finish cl team c [])
      | op =>
        match a.instant op with
        | some (a', ups) => .next ((s.modArr cl team fun _ => a').finish cl team c ups)
        | none => .next s

/-- WEIGHT_LOAD_COMPLETE (R289): the operand is read and the plane is Shadow valid, or Empty after an error. -/
def execWeightLoadComplete (cl team : Nat) (s : State) : Result :=
  let s := s.refresh cl team
  match s.liveArr cl team with
  | none => .next s
  | some a =>
    match firstAble (fun c => !c.stale && c.op.rows.isNone && c.op.weights && a.shadow.st == .loading) [] a.queue with
    | some c =>
      match c.op with
      | .wload fd heads cols =>
        let ag := s.agentOf cl team
        let (s, _, e0) := s.readPieces ag heads
        let (s, rows, e1) := cols.foldl (fun acc col =>
          let (s, r, e) := acc.1.readRow ag fd.fmt.grain col
          (s, acc.2.1 ++ [r], orElse acc.2.2 e)) (s, ([] : List FeedRow), (none : Option Nat))
        match orElse e0 e1 with
        | some x => .next ((s.modArr cl team fun a => { a with shadow := Plane.empty }).spoil cl team c x)
        | none =>
          .next ((s.modArr cl team fun a => { a with shadow :=
            { st := .valid, feed := fd, n := cols.length, cols := rows, book := if fd.fmt == .cb4 then a.book else [] } }).finish
              cl team c [])
      | _ => .next s
    | none => .next s

/-- STREAM_ROW_COMMIT (R293, R296, R299): one row of the first stream, tile load or tile store. -/
def execStreamRowCommit (cl team : Nat) (s : State) : Result :=
  let s := s.refresh cl team
  match s.liveArr cl team with
  | none => .next s
  | some a =>
    match firstAble (fun c => !c.stale && c.op.rows.isSome) [] a.queue with
    | none => .next s
    | some c =>
      let (s, new, e) := s.commitRow (s.agentOf cl team) a c
      match e, new with
      | some x, _ => .next (s.spoil cl team c x)
      | none, some (a', n) =>
        let s := s.modArr cl team fun _ => { a' with
          prog := if a'.last == c.id then a'.prog + 1 else a'.prog
          queue := a'.queue.map fun x => if x.id == c.id then { x with prog := x.prog + 1 } else x }
        .next (if c.prog + 1 < n then s else s.finish cl team c [])
      | none, none => .next s

/-! ### Operands at issue (R284, R285, R287, R288) -/

/-- The team holds the array (R282). -/
def View.array (v : View) : Chk Arr :=
  match v.tm.arr with
  | some a => .ok a
  | none => .error (v.stop .arrayState v.g.lanes)

/-- The extents of modes 0 and 1 (R287, R293); a mode that the layout has not has extent 1 (R252). -/
def Lay.dims (l : Lay) : Nat × Nat := ((l.live 0).extent, (l.live 1).extent)

/-- Acceptance by a feeder (R262, R263, R288). -/
def View.feedAccept (v : View) (e : Engine) (h : Handle) (l : Lay) : Chk Tensor :=
  match classOf e true false false h l, h.tensor with
  | .conforming, some t | .convertible, some t =>
    if t.rowsAligned l then .ok t else .error (v.stop .layoutReject v.g.lanes)
  | _, _ => .error (v.stop .layoutReject v.g.lanes)

def Tensor.feed (t : Tensor) (k : Nat) (fpm : BitVec 32) : Feed :=
  { fmt := t.fmt, k := k, x4 := t.h.fp4x, tscale := t.h.tscale, fpm := fpm }

/-- The alignment of a unit of an engine's operand. -/
def unitAlign (f : Fmt) : Nat := if f == .le8 then 1 else f.align

/-- The rows of an operand as ranges: units, and scales of each chunk of 32. -/
def Tensor.rowRanges (t : Tensor) (l : Lay) : List (List TileUnit × List Range) :=
  let lp := l.padded t.fmt.grain
  let k := (lp.live 0).extent
  let us := t.units l 0 (t.unitCount l)
  let per := k / t.fmt.grain
  (upTo (lp.size / k)).map fun n =>
    let row := (us.drop (n * per)).take per
    (row, if t.fmt.scaleSize == 0 || t.h.sbase == 0 then []
      else (upTo (ceilDiv (l.live 0).extent 32)).filterMap fun j =>
        row[32 * j / t.fmt.grain]?.map fun u =>
          { sp := Kind.space t.kind, addr := t.scaleAddr u.raw, len := t.fmt.scaleSize, align := t.fmt.scaleSize })

def Tensor.unitRange (t : Tensor) (u : TileUnit) : Range :=
  { sp := Kind.space t.kind, addr := u.addr, len := u.len, align := unitAlign t.fmt, cut := u.cut }

/-- Cut a list of pieces back into the rows that its ranges came from. -/
def regroup : List (List TileUnit × List Range) → List Piece → List RowSrc
  | [], _ => []
  | (us, sc) :: rest, ps =>
    { units := (us.zip ps).map fun x => .mem x.2 x.1.half, scales := (ps.drop us.length).take sc.length } ::
      regroup rest (ps.drop (us.length + sc.length))

/-- A feeder's rows in place, with the frames that wait. -/
def View.feedRows (v : View) (s : State) (t : Tensor) (l : Lay) (more : List Range) (noAlloc : List Nat) :
    Chk (List RowSrc × List Piece × List Nat × List TlbEntry) := do
  let rows := t.rowRanges l
  let rs := rows.flatMap fun r => r.1.map t.unitRange ++ r.2
  let (ps, frames, used) ← v.placeAll s .read noAlloc (rs ++ more)
  pure (regroup rows ps, ps.drop rs.length, frames, used)

/-- A matrix instruction that reaches memory ends: it enters array order and is outstanding until it has finished. -/
def View.entered (v : View) (s : State) (used : List TlbEntry) (op : ArrOp) (store : Bool) : Performed × List Nat :=
  let s := used.foldl (fun s e => s.keepXlat v.agent e) s
  ({ s := s.enter v.f.ref v.iss.pc op, now := [], held := []
     out := some { Out.of [] with remote := [s.nextId], fence := store }, done := 0 }, [])

/-- Nothing is performed while a page waits (R285). -/
def frozen (s : State) (frames : List Nat) : Performed × List Nat :=
  ({ s := s, now := [], held := [], out := none, done := 0 }, frames)

/-- The image of a bitmap-compressed operand (R291): the ranges read first, and the columns with absent elements as 0. The checks of R285
cover the table, then the bitmaps that it names, then the elements that these name. -/
def View.bmcColumns (v : View) (s : State) (t : Tensor) (k n : Nat) (noAlloc : List Nat) :
    Chk (State × List Piece × List RowSrc × List Nat × List TlbEntry) := do
  let sp := Kind.space t.kind
  let table : List Range := (upTo n).map fun i => { sp := sp, addr := t.h.base + 4 * i, len := 4, align := 4 }
  let (ps, fr, us) ← v.placeAll s .read noAlloc table
  if !fr.isEmpty then return (s, [], [], fr, us)
  let (s, offs, _) := s.readPieces v.agent ps
  let cols := offs.map fun b => t.h.base + leNat b
  let words := ceilDiv k 32
  let maps : List Range := cols.map fun a => { sp := sp, addr := a % 2 ^ 56, len := 4 * words, align := 4 }
  let (ms, fr, us') ← v.placeAll s .read noAlloc maps
  if !fr.isEmpty then return (s, [], [], fr, us ++ us')
  let (s, bits, _) := s.readPieces v.agent ms
  let bytes := t.fmt.bits / 8
  let elems := (cols.zip bits).map fun x =>
    ((upTo k).foldl (fun (acc : List (Option Range) × Nat) i =>
      if (leNat x.2).testBit i then
        (acc.1 ++ [some { sp := sp, addr := (x.1 + 4 * words + bytes * acc.2) % 2 ^ 56, len := bytes, align := bytes }],
          acc.2 + 1)
      else (acc.1 ++ [none], acc.2)) ([], 0)).1
  let (es, fr, us'') ← v.placeAll s .read noAlloc (elems.flatMap fun c => c.filterMap id)
  let rows := (elems.foldl (fun (acc : List RowSrc × List Piece) c =>
    let r := c.foldl (fun (a : List Src × List Piece) e => match e, a.2 with
      | some _, p :: ps => (a.1 ++ [.mem p false], ps)
      | _, ps => (a.1 ++ [.imm 0], ps)) ([], acc.2)
    (acc.1 ++ [{ units := r.1, scales := [] }], r.2)) ([], es)).1
  pure (s, ps ++ ms, rows, fr, us ++ us' ++ us'')

/-! ### MWLD, MWSW, MREL, MCBLD (R287 to R292) -/

/-- The ArrayState conditions of a weight operand (R287). -/
def weightOk (t : Tensor) (l : Lay) : Bool :=
  (l.nm == 1 || l.nm == 2) && decide (l.dims.2 ≤ 128) &&
    match t.fmt.capacity with | some c => decide (l.dims.1 ≤ c) | none => false

def tileUses (t : Tile) (v : View) : List Use := useH t.hn.toNat v.g.lanes ++ useL t.ln.toNat v.g.lanes

def execMwld (sw bmc : Bool) (t : Tile) (s : State) : Result :=
  issueMemAs ⟨false, true⟩ sw 8 (tileUses t) (fun v s rep => do
    let _ ← v.array
    let h := v.handle t.hn
    let l := v.lay t.ln
    if bmc then
      let plain := match h.tensor with
        | some x => if kindTaken .wf false x.kind && !l.illFormed && (l.dm == 7 || x.kind == .pg) &&
            (x.fmt == .f16 || x.fmt == .bf16 || ((x.fmt == .e4m3 || x.fmt == .e5m2) && h.sbase == 0)) then some x else none
        | none => none
      match plain with
      | none => .error (v.stop .layoutReject v.g.lanes)
      | some x =>
        v.require .arrayState (weightOk x l)
        let (s', heads, rows, frames, used) ← v.bmcColumns s x l.dims.1 l.dims.2 (noAllocOf rep)
        if !frames.isEmpty then return frozen s frames
        pure (v.entered s' used (.wload (x.feed l.dims.1 v.f.fpm) heads rows) false)
    else
      let x ← v.feedAccept .wf h l
      v.require .arrayState (weightOk x l)
      let (rows, _, frames, used) ← v.feedRows s x l [] (noAllocOf rep)
      if !frames.isEmpty then return frozen s frames
      pure (v.entered s used (.wload (x.feed l.dims.1 v.f.fpm) [] rows) false)) s

def execMwsw (sw : Bool) (s : State) : Result :=
  issueColl sw 8 (fun _ => []) (fun v s => do
    let a ← v.array
    v.require .arrayState (a.logical.sh == .loading || a.logical.sh == .valid)
    pure (s.enter v.f.ref v.iss.pc .swap)) s

def execMrel (sw : Bool) (s : State) : Result :=
  issueColl sw 8 (fun _ => []) (fun v s => do
    let _ ← v.array
    pure (s.enter v.f.ref v.iss.pc .rel)) s

def execMcbld (sw : Bool) (sp : Space) (a : BitVec 8) (s : State) : Result :=
  issueMemAs ⟨false, true⟩ sw 8 (fun v => useS a v.g.lanes) (fun v s rep => do
    let _ ← v.array
    let (ps, frames, used) ← v.placeAll s .read (noAllocOf rep) [{ sp := sp, addr := v.wideAddr sp a, len := 256, align := 256 }]
    if !frames.isEmpty then return frozen s frames
    pure (v.entered s used (.cbload ps) false)) s

/-! ### MSTR (R293 to R295) -/

def activationFmt : Fmt → Bool
  | .f16 | .bf16 | .e4m3 | .e5m2 | .e2m1 => true
  | _ => false

/-- The ArrayState conditions of a stream (R293) against the logical state. -/
def Logical.streamOk (a : Logical) (t : Tensor) (l : Lay) (row0 : Nat) : Bool :=
  (l.nm == 1 || l.nm == 2) && activationFmt t.fmt && decide (row0 + l.dims.2 ≤ 128) &&
    match a.act with | some fd => fd.k == l.dims.1 | none => false

def execMstr (sw init : Bool) (zb : Option (BitVec 8)) (d : BitVec 2) (t : Tile) (row0 : BitVec 7) (s : State) : Result :=
  issueMemAs ⟨false, true⟩ sw 12 (fun v => tileUses t v ++ (match zb with | some c => useS c v.g.lanes | none => []))
    (fun v s rep => do
      let a ← v.array
      let h := v.handle t.hn
      let l := v.lay t.ln
      let x ← v.feedAccept .af h l
      v.require .arrayState (a.logical.streamOk x l row0.toNat)
      let map : List Range := match zb with
        | some c =>
          let sp := Kind.space x.kind
          [{ sp := sp, addr := v.wideAddr sp c, len := ceilDiv (l.dims.2 * ceilDiv l.dims.1 32) 8, align := 4 }]
        | none => []
      let (rows, zs, frames, used) ← v.feedRows s x l map (noAllocOf rep)
      if !frames.isEmpty then return frozen s frames
      pure (v.entered s used (.stream d.toNat row0.toNat init (x.feed l.dims.1 v.f.fpm) zs rows) false)) s

/-! ### Accumulator instructions (R296 to R298) -/

def execMzero (sw : Bool) (d : BitVec 2) (s : State) : Result :=
  issueColl sw 8 (fun _ => []) (fun v s => do
    let _ ← v.array
    pure (s.enter v.f.ref v.iss.pc (.zero d.toNat))) s

/-- Acceptance by the lane load unit (R285, step 2). -/
def View.laneAccept (v : View) (st : Bool) (h : Handle) (l : Lay) : Chk Tensor :=
  match classOf .ll false st false h l, h.tensor with
  | .conforming, some t | .convertible, some t => .ok t
  | _, _ => .error (v.stop .layoutReject v.g.lanes)

/-- The row that B names (R296, R297). -/
def View.rowOf (v : View) (b : BitVec 8) : Nat := ((v.sval b).setWidth 32 : Word).toNat

/-- The ArrayState conditions of MZLD and MZST. -/
def moveOk (l : Lay) (row0 : Nat) (fmtOk : Bool) : Bool :=
  (l.nm == 1 || l.nm == 2) && decide (row0 + l.dims.2 ≤ 128) && decide (l.dims.1 ≤ 128) && fmtOk

/-- A list in rows of `n`. -/
def inRows {α : Type} (n rows : Nat) (l : List α) : List (List α) := (upTo rows).map fun r => (l.drop (r * n)).take n

def execMzld (sw : Bool) (d : BitVec 2) (t : Tile) (b : BitVec 8) (s : State) : Result :=
  issueMemAs ⟨false, true⟩ sw 8 (fun v => tileUses t v ++ useS b v.g.lanes ++
      (match v.laneAccept false (v.handle t.hn) (v.lay t.ln) with
        | .ok x => if x.kind == .vr then vrUses v (x.units (v.lay t.ln) 0 (x.unitCount (v.lay t.ln))) else []
        | .error _ => []))
    (fun v s rep => do
      let _ ← v.array
      let l := v.lay t.ln
      let x ← v.laneAccept false (v.handle t.hn) l
      v.require .arrayState (moveOk l (v.rowOf b) (x.fmt == .f32 || x.fmt == .f16 || x.fmt == .bf16))
      let us := x.units l 0 (x.unitCount l)
      let fd := x.feed l.dims.1 v.f.fpm
      let go := fun (used : List TlbEntry) (srcs : List Src) =>
        v.entered s used (.zload d.toNat (v.rowOf b) fd (inRows l.dims.1 l.dims.2 srcs)) false
      if x.kind == .vr then
        v.vrAligned x us
        pure (go [] (us.map fun u => .imm (leNat ((upTo u.len).map fun i => v.regByte (u.addr + i)))))
      else
        let (ps, frames, used) ← v.placeAll s .read (noAllocOf rep) (us.map x.unitRange)
        if !frames.isEmpty then return frozen s frames
        pure (go used (ps.map fun p => .mem p false))) s

/-- The formats that MZST writes. -/
def storeFmt : Fmt → Bool
  | .f32 | .f16 | .bf16 | .e4m3 | .e5m2 => true
  | _ => false

def execMzst (sw : Bool) (rm : RMode) (d : BitVec 2) (t : Tile) (b : BitVec 8) (s : State) : Result :=
  issueMemAs ⟨false, true⟩ sw 8 (fun v => tileUses t v ++ useS b v.g.lanes) (fun v s rep => do
    let _ ← v.array
    let l := v.lay t.ln
    let x ← v.laneAccept true (v.handle t.hn) l
    v.require .arrayState (moveOk l (v.rowOf b) (storeFmt x.fmt))
    let us := x.units l 0 (x.unitCount l)
    let scaled := x.fmt.scaleSize != 0 && x.h.sbase != 0
    let scales : List Range := if scaled then us.map fun u => { sp := Kind.space x.kind, addr := x.scaleAddr u.raw, len := 1, align := 1 } else []
    let (all, frames, used) ← v.placeEach s (noAllocOf rep) ((us.map fun u => (Need.write, x.unitRange u)) ++ scales.map fun r => (Need.read, r))
    let ps := all.take us.length
    let sc := all.drop us.length
    if !frames.isEmpty then return frozen s frames
    v.tileTags s (us.zip (ps.map (·.parts)))
    let rows := inRows l.dims.1 l.dims.2 (ps.mapIdx fun i p => (p, sc[i]?))
    pure (v.entered s used (.zstore d.toNat (v.rowOf b) (x.feed l.dims.1 v.f.fpm) (resolveRm v.f.fpm rm) rows) true)) s

/-- The rows of the registers of a run. -/
def View.runRows (v : View) (n first : Nat) : List (Option Nat) := (upTo n).map fun i => quotaRow v.f.quota (first + i)

/-- A result that a command of the array gives later: its registers are pending until the command has acted (R286). -/
def View.awaits (v : View) (s : State) (rows : List (Option Nat)) (op : ArrOp) : State :=
  (s.enter v.f.ref v.iss.pc op).defer v.f { Out.of [] with rows := rows.filterMap id, remote := [s.nextId] }

/-- Every lane of a run of registers, written or read. -/
def fullRun (n first : Nat) (rd kill : Bool) : List Use :=
  (upTo n).map fun i => ⟨.v (first + i), BitVec.allOnes 32, rd, kill⟩

def execMzmvTo (sw : Bool) (c : BitVec 2) (d : BitVec 8) (a : BitVec 2) (b : BitVec 8) (s : State) : Result :=
  let n := 2 ^ c.toNat
  issueColl sw 8 (fun v => useS b v.g.lanes ++ fullRun (4 * n) d.toNat false false) (fun v s => do
    let _ ← v.array
    v.require .arrayState (decide (v.rowOf b + n ≤ 128))
    let rows := v.runRows (4 * n) d.toNat
    pure (v.awaits s rows (.mvTo a.toNat (v.rowOf b) rows))) s

/-- The elements of rows of Z in registers: 128 for each four registers. -/
def View.zVals (v : View) (first n : Nat) : List (List Word) :=
  (upTo n).map fun q => (upTo 128).map fun i => (v.vreg (first + 4 * q + i / 32)).at (i % 32)

def execMzmvFrom (sw : Bool) (c : BitVec 2) (d : BitVec 2) (a : Opnd) (b : BitVec 8) (s : State) : Result :=
  let n := 2 ^ c.toNat
  issueColl sw 8 (fun v => useS b v.g.lanes ++ fullRun (4 * n) a.idx.toNat true a.last) (fun v s => do
    let _ ← v.array
    v.require .arrayState (decide (v.rowOf b + n ≤ 128))
    pure (s.enter v.f.ref v.iss.pc (.mvFrom d.toNat (v.rowOf b) (v.zVals a.idx.toNat n)))) s

def execMresc (sw : Bool) (d : BitVec 2) (a : Opnd) (s : State) : Result :=
  issueColl sw 8 (fun _ => fullRun 4 a.idx.toNat true a.last) (fun v s => do
    let _ ← v.array
    pure (s.enter v.f.ref v.iss.pc (.resc d.toNat ((v.zVals a.idx.toNat 1).headD []) v.f.fpm))) s

def execTred (sw sum : Bool) (d : BitVec 8) (a : BitVec 2) (b : BitVec 8) (s : State) : Result :=
  issueColl sw 8 (fun v => useS b v.g.lanes ++ fullRun 4 d.toNat false false) (fun v s => do
    let _ ← v.array
    let c := min 128 ((v.sval b).setWidth 8 : Byte).toNat
    let rows := v.runRows 4 d.toNat
    pure (v.awaits s rows (.tred a.toNat sum c v.f.fpm rows))) s

/-! ### MQRY (R300) -/

/-- A plane's fields: state is given, then format, N − 1 and K, 0 when it holds nothing. -/
def Plane.fields (p : Plane) : BitVec 5 × BitVec 7 × BitVec 10 :=
  if p.st == .empty || p.st == .released then (0, 0, 0)
  else (p.feed.fmt.code, BitVec.ofNat 7 (p.n - 1), BitVec.ofNat 10 p.feed.k)

def WtSt.code : WtSt → BitVec 2
  | .empty | .active => 0
  | .loading => 1
  | .valid => 2
  | .released => 3

def Arr.word (a : Arr) : DWord :=
  let (sf, sn, sk) := a.shadow.fields
  let (af, an, ak) := a.active.fields
  a.shadow.st.code ++ sf ++ sn ++ sk ++ 0#8 ++ bit (a.other.st == .active) ++ af ++ an ++ ak ++ 0#9

def execMqry (sw : Bool) (q : MQuery) (d : BitVec 6) (s : State) : Result :=
  issueColl sw 8 (fun v => defS d.toNat v.g.lanes) (fun v s => do
    let x : DWord ← match q with
      | .own => pure (if v.tm.arr.isSome then 1 else 0)
      | .pln => do pure (← v.array).word
      | .prog => do pure (BitVec.ofNat 64 (← v.array).prog)
      | .flt => do pure ((← v.array).flt.setWidth 64)
    pure (s.defer v.f (Out.of [.s d.toNat x]))) s

end Sys2Proof.Machine
end

