-- ==== Sys2Proof/Machine/Jobs.lean ====
section
/-! DEFINITION. Copy jobs (12_copy_job.md R303 to R317 and R480): cards, footprints, order, the elements that a job performs,
its events, and the tag instructions. -/

namespace Sys2Proof.Machine

open Sys2Proof

/-! ### Tags -/

/-- The mask of the tags that a kernel has (R303, R314). -/
def tagMask (t : Nat) : DWord := BitVec.ofNat 64 (2 ^ t - 1)

/-! ### Regions (R305, R309) -/

/-- A region as the scheduler compares it: cluster space of the team's own rank is team space (R305). -/
def Region.norm (rank : Nat) (r : Region) : Region :=
  if r.sp == .cl && r.base / 2 ^ 21 == rank then { r with sp := .tm, base := r.base % 2 ^ 21 } else r

def Region.sameSpace (a b : Region) : Bool := a.sp == b.sp && (a.sp != .rm || (a.tdev == b.tdev && a.asid == b.asid))

/-- Two regions overlap (R305). -/
def Region.overlaps (rank : Nat) (a b : Region) : Bool :=
  let x := a.norm rank
  let y := b.norm rank
  x.sameSpace y && decide (x.base < y.base + y.len) && decide (y.base < x.base + x.len)

def overlapAny (rank : Nat) (xs ys : List Region) : Bool := xs.any fun x => ys.any fun y => x.overlaps rank y

/-- Every byte of a range lies in one of the regions (R309). -/
def covered (rank : Nat) (rs : List Region) (r : Region) : Bool :=
  (upTo r.len).all fun i =>
    let b : Region := { r with base := r.base + i, len := 1 }
    rs.any fun x => x.overlaps rank b

/-- Copies of the global regions of a footprint under an ASID. -/
def inFootprint (asid : BitVec 16) (rs : List Region) (c : Copy) : Bool :=
  inRegions asid ((rs.filter fun r => r.sp == .gl).map fun r => (r.base, r.len)) c

/-! ### The card (R304, R307) -/

/-- A card as read. -/
structure Card where
  frow : Nat
  finit : Bool
  fz : Nat
  fop : Nat
  rm : RMode
  scope : Scope
  reads : List Region
  writes : List Region
  deriving DecidableEq, Repr

def cutOf (x lo n : Nat) : Nat := x / 2 ^ lo % 2 ^ n

/-- A region descriptor; none when a reserved field, the space, the length or the target is not valid. -/
def regionOf (x : Nat) : Option Region :=
  let sp : Option Space := match cutOf x 61 3 with
    | 1 => some .tm
    | 2 => some .cl
    | 3 => some .gl
    | 5 => some .rm
    | _ => none
  match sp with
  | none => none
  | some sp =>
    let r : Region := { sp := sp, base := cutOf x 0 56, len := cutOf x 96 32, tdev := BitVec.ofNat 16 (cutOf x 64 16),
                        asid := BitVec.ofNat 16 (cutOf x 80 16) }
    if r.len == 0 || cutOf x 56 5 != 0 || (sp != .rm && (r.tdev != 0 || r.asid != 0)) then none else some r

/-- The scope of a card: codes 0 to 2 act as team (R304). -/
def cardScope (n : Nat) : Option Scope := if n < 3 then some .team else Scope.ofCode (BitVec.ofNat 4 n)

/-- A card from its 128 bytes; none when it is invalid in itself. -/
def cardOf (bs : List Byte) : Option Card := do
  let w := fun i => leNat ((bs.drop (16 * i)).take 16)
  let h := w 0
  let nr := cutOf h 16 4
  let nw := cutOf h 20 4
  let sc ← cardScope (cutOf h 28 4)
  let rm ← RMode.ofCode (BitVec.ofNat 3 (cutOf h 33 3))
  if cutOf h 56 72 != 0 || cutOf h 36 8 != 0 || cutOf h 32 1 != 0 || cutOf h 24 4 != 0 || cutOf h 0 16 != 0 ||
      w 7 != 0 || nr == 0 || nr > 4 || nw == 0 || nw > 2 || rm == .rst || cutOf h 44 2 == 3 then none
  let reads ← (upTo nr).mapM fun i => regionOf (w (1 + i))
  let writes ← (upTo nw).mapM fun i => regionOf (w (5 + i))
  some { frow := cutOf h 49 7, finit := cutOf h 48 1 == 1, fz := cutOf h 46 2, fop := cutOf h 44 2, rm := rm, scope := sc,
         reads := reads, writes := writes }

/-! ### Formats (R308) -/

/-- A source format of a converting job. -/
def jobSource : Fmt → Bool
  | .f32 | .f16 | .bf16 | .e4m3 | .e5m2 | .e2m1 | .le8 | .q4 | .q8 => true
  | _ => false

/-- A destination format of a converting job. -/
def jobTarget : Fmt → Bool
  | .q4 | .q8 => false
  | f => jobSource f

/-! ### What a job does (R308, R309, R480) -/

/-- Why a job stops performing elements: all are done, it faults, a page is missing, a remote word must be asked for or
written, or memory has a hole. -/
inductive JobEnd where
  | all
  | fault (cause : Byte) (addr : Nat)
  | stall (frames : List Nat)
  | ask (dev asid : BitVec 16) (addr len : Nat)
  | put (dev asid : BitVec 16) (addr : Nat) (bytes : List Byte)
  | hole (pa : Nat)
  deriving DecidableEq, Repr

/-- A job with its operands and the agent and context that it acts for. -/
structure JobView where
  j : Job
  cl : Nat
  team : Nat
  ag : Agent
  c : Context
  x : Tensor
  lx : Lay
  y : Tensor
  ly : Lay
  deriving DecidableEq, Repr

def State.jobView (s : State) (cl team : Nat) (j : Job) : Option JobView := do
  let k ← s.cluster? cl
  let kn ← s.kernel? k.kern
  let c ← s.ctx? kn.asid
  let x ← (handleOf j.src.1).tensor
  let y ← (handleOf j.dst.1).tensor
  some { j := j, cl := cl, team := team, ag := s.agentOf cl team, c := c, x := x, lx := layOf j.src.2, y := y, ly := layOf j.dst.2 }

/-- The natural indices of a job, counted with padding (R308). -/
def JobView.count (v : JobView) : Nat := (v.lx.padded v.x.fmt.grain).size

/-- A range of a job's operand. -/
def rangeOf (t : Tensor) (addr len : Nat) : Region :=
  { sp := Kind.space t.kind, base := addr, len := len, tdev := if t.kind == .rm then t.h.tdev else 0,
    asid := if t.kind == .rm then t.h.asid else 0 }

/-- The ranges of a unit of a job's operand, after the bank function (R260). -/
def unitRegions (t : Tensor) (u : TileUnit) : List Region := u.spans.map fun p => rangeOf t p.1 p.2

/-- A range in place for a job: translated byte by byte. -/
def State.jobPlace (s : State) (v : JobView) (need : Need) (r : Region) : Except JobEnd Piece := do
  let parts ← (upTo r.len).mapM fun i =>
    let a := r.base + i
    match r.sp with
    | .tm => (.ok (Target.pad v.cl v.team a, 1) : Except JobEnd (Target × Nat))
    | .cl => .ok (Target.pad v.cl (a / 2 ^ 21) (a % 2 ^ 21), 1)
    | _ =>
      match s.xlatOr v.ag v.c v.j.noAlloc a need with
      | .ok e => .ok (.mem (e.place a), 1)
      | .replay | .unmapped _ => .error (.stall [a / 2 ^ 16])
      | .permission => .error (.fault 0x09 r.base)
      | .mapping => .error (.fault 0x0B r.base)
      | .hole pa => .error (.hole pa)
  pure { addr := r.base, parts := parts }

/-- A piece of aligned words by words. -/
def Region.byWords (r : Region) (p : Piece) : Piece :=
  if r.len % 4 == 0 && r.base % 4 == 0 then
    { p with parts := (upTo (r.len / 4)).filterMap fun i => (p.parts[4 * i]?).map fun q => (q.1, 4) }
  else p

/-- A remote word of a job, as its buffer holds it (R480). -/
def Region.key (r : Region) (write : Bool) : JobKey := { write := write, dev := r.tdev, asid := r.asid, addr := r.base, len := r.len }

/-- The bytes of ranges that a job reads as one: within its footprint, at the level of its scope; remote words come from the
buffer or must be asked for. -/
def State.jobRead (s : State) (v : JobView) (rs : List Region) : Except JobEnd (State × List Byte) := do
  let at_ := (rs.map (·.base)).headD 0
  if !rs.all (covered v.team v.j.reads) then throw (.fault 0x18 at_)
  rs.foldlM (fun (acc : State × List Byte) r => do
    if r.sp == .rm then
      match aget v.j.buf (r.key false) with
      | some bs => pure (acc.1, acc.2 ++ bs)
      | none => throw (.ask r.tdev r.asid r.base r.len)
    else
      let p ← acc.1.jobPlace v .read r
      let (s, bs, bad) := acc.1.readPiece v.ag (some v.j.scope) (r.byWords p)
      if bad then throw (.fault 0x0C at_)
      pure (s, acc.2 ++ bs)) (s, [])

/-- Write ranges within the footprint as one; a tagged word is not written (R333). -/
def State.jobWrite (s : State) (v : JobView) (rs : List Region) (bs : List Byte) : Except JobEnd State := do
  let at_ := (rs.map (·.base)).headD 0
  if !rs.all (covered v.team v.j.writes) then throw (.fault 0x18 at_)
  match rs.find? fun r => r.sp == .rm with
  | some r => if (aget v.j.buf (r.key true)).isSome then pure s else throw (.put r.tdev r.asid r.base bs)
  | none =>
    let ps ← rs.mapM fun r => do
      let p ← s.jobPlace v .write r
      pure (r.byWords p)
    if ps.any fun p => p.parts.any fun q => s.isTagged q.1 then throw (.fault 0x09 at_)
    pure (s.writePiece v.ag { addr := at_, parts := ps.flatMap (·.parts) } (leNat bs))

/-- The unit of an operand that holds a natural index. -/
def unitAt (t : Tensor) (l : Lay) (i : Nat) : TileUnit :=
  t.unit (l.padded t.fmt.grain) (extOf (l.mode 0).ei) (i / t.fmt.grain * t.fmt.grain)

/-- An index is padding of its layout (R258). -/
def isPadding (t : Tensor) (l : Lay) (i : Nat) : Bool :=
  t.fmt.grain != 1 && l.nm != 0 && decide (extOf (l.mode 0).ei ≤ i % extOf ((l.padded t.fmt.grain).mode 0).ei)

/-- The scale of an element of an operand, if it has one: its word. -/
def State.jobScale (s : State) (v : JobView) (t : Tensor) (raw : Nat) : Except JobEnd (State × Option Nat) := do
  if t.fmt.scaleSize == 0 || t.h.sbase == 0 then pure (s, none)
  else
    let (s, bs) ← s.jobRead v [rangeOf t (t.scaleAddr raw) t.fmt.scaleSize]
    pure (s, some (leNat bs))

/-- The decoded value of a source element from its code and scale (R308, R98). -/
def jobValue (t : Tensor) (fpm : BitVec 32) (pad : Bool) (i code : Nat) (scale : Option Nat) : XVal :=
  let fd := t.feed 0 fpm
  let row : FeedRow := { units := [code], scales := scale.toList }
  let k := chunkScale fd row 0
  match t.fmt with
  | .le8 =>
    let h := (decodeLE8 (BitVec.ofNat 16 code)).getD (i % 8) 0
    if pad then XVal.zero
    else if h = 0 then (match k with | .fin .. => XVal.zero | _ => .nan)
    else
      let x := quietly (xmul (XVal.ofRat (mkRat h 2)) k)
      flushed (flushIn fpm .le8) (fpFmt .f32) x
  | .q4 | .q8 => flushed (flushIn fpm .le8) (fpFmt .f32) (quietly (xmul (rawValue fd [] row 0) k))
  | _ => quietly (xmul (rawValue fd [] row 0) k)

/-- The value of element `i` of the source. -/
def State.jobElement (s : State) (v : JobView) (i : Nat) : Except JobEnd (State × XVal) := do
  let u := unitAt v.x v.lx i
  let (s, bs) ← s.jobRead v (unitRegions v.x u)
  let (s, sc) ← s.jobScale v v.x u.raw
  let code := leNat bs
  let g := v.x.fmt.grain
  let pad := isPadding v.x v.lx i
  let code := if g == 2 then (if pad then 0 else code / 16 ^ (i % 2) % 16) else code
  pure (s, jobValue v.x v.j.fpm pad i code sc)

/-- A value over the destination's scale, NaN when that is invalid (R308). -/
def overScale (t : Tensor) (x8 : Option Nat) (x : XVal) : XVal :=
  match scaleOf .e4m3 x8, tensorScale t.h.tscale with
  | .fin _ k, .fin n m => if m = 0 then .nan else xdiv x (XVal.fin n (k * m)).toRat
  | _, _ => .nan

/-- The bytes of the destination unit at natural index `i`: source codes of the same format, or converted values. -/
def State.jobUnit (s : State) (v : JobView) (u : TileUnit) : Except JobEnd (State × List Byte) := do
  if v.x.fmt == v.y.fmt then
    let w := unitAt v.x v.lx u.i
    let (s, bs) ← s.jobRead v (unitRegions v.x w)
    pure (s, if u.half || w.half then leBytes u.len (leNat bs % 16) else bs)
  else
    let (s, xs) ← (upTo v.y.fmt.grain).foldlM (fun (acc : State × List XVal) e => do
      let (s, x) ← acc.1.jobElement v (u.i + e)
      pure (s, acc.2 ++ [x])) (s, [])
    let (s, x8) ← s.jobScale v v.y u.raw
    let ts := xs.map (overScale v.y x8)
    let pad := fun e => isPadding v.y v.ly (u.i + e)
    if v.y.fmt == .le8 then
      let ts := ts.mapIdx fun e x => if pad e then XVal.zero else x
      match quietly (quantLE8 v.j.fpm ts) with
      | some c => pure (s, leBytes 2 c.toNat)
      | none => throw (.fault 0x11 u.addr)
    else
      let code := fun e (x : XVal) =>
        if pad e then 0
        else (quietlyWith (Config.engineRandom v.j.id (u.i + e))
          (roundFp v.j.fpm v.y.h.fp4x v.y.fmt.ty (resolveRm v.j.fpm v.j.rm) x)).toNat
      let all := (ts.mapIdx code).mapIdx fun e c => c * 2 ^ (v.y.fmt.bits * e)
      pure (s, leBytes u.len (all.foldl (· + ·) 0))

/-- One destination unit: read and written. -/
def State.jobStep (s : State) (v : JobView) (i : Nat) : Except JobEnd State := do
  let u := unitAt v.y v.ly i
  let (s, bs) ← s.jobUnit v u
  s.jobWrite v (unitRegions v.y u) bs

/-- Perform elements from the job's progress on, as far as they go (R309). -/
def State.jobRun (v : JobView) : Nat → State → Nat → State × Nat × JobEnd
  | 0, s, i => (s, i, .all)
  | fuel + 1, s, i =>
    if v.count ≤ i then (s, i, .all)
    else match s.jobStep { v with j := { v.j with buf := if i == v.j.prog then v.j.buf else [] } } i with
      | .ok s' => State.jobRun v fuel s' (i + v.y.fmt.grain)
      | .error e => (s, i, e)

/-- A remote request of a job (R480); one that cannot leave now is tried again, one that no way carries ends the job. -/
def State.jobSend (s : State) (v : JobView) (key : JobKey) (op : RemOp) : State :=
  let r : RemReq := { sdev := 0, sasid := v.c.asid, asid := key.asid, va := BitVec.ofNat 56 key.addr, op := op, seq := none, lowest := 0,
                      inc := none, arv := none, scope := .device }
  match s.way v.j.f key.dev false r s.nextId with
  | .go p =>
    let id := s.nextId
    (s.send v.j.f 0 v.j.xretry key.dev false r p (.job v.cl v.team v.j.id key)).modJob v.cl v.team v.j.id fun j =>
      { j with req := some id }
  | .later => s
  | .never => s.modJob v.cl v.team v.j.id fun j => { j with broken := some (0x17, key.addr) }

/-- A running job goes on until it has performed all, meets a fault or waits. -/
def State.pump (s : State) (cl team id : Nat) : Result :=
  match (s.team? cl team).bind fun t => t.jobs.find? fun j => j.id == id with
  | none => .next s
  | some j =>
    match s.jobView cl team j with
    | none => .next s
    | some v =>
      let (s, i, e) := State.jobRun v (v.count + 1) s j.prog
      let buf := if i == j.prog then j.buf else []
      let s := s.modJob cl team id fun j => { j with prog := i, buf := buf }
      match e with
      | .all => .next s
      | .fault c a => .next (s.modJob cl team id fun j => { j with broken := some (c, a) })
      | .stall fr => .next (s.modJob cl team id fun j => { j with frames := fr })
      | .ask dev asid a n => .next (s.jobSend v ⟨false, dev, asid, a, n⟩ (.read n))
      | .put dev asid a bs => .next (s.jobSend v ⟨true, dev, asid, a, bs.length⟩ (.write bs))
      | .hole pa => .fault (.physicalHole pa)

/-! ### Events of jobs (R311 to R313) -/

/-- The job on a tag that is in a state, in a cluster that is placed (R317). -/
def State.jobAt (s : State) (cl team tag : Nat) (st : JobSt) : Option Job :=
  if !(s.cluster? cl).any Cluster.placed then none else (s.team? cl team).bind fun t => t.jobs.find? fun j => j.tag == tag && j.st == st

def execJobStart (cl team tag : Nat) (s : State) : Result :=
  match s.jobAt cl team tag .queued with
  | some j => (s.modJob cl team j.id fun j => { j with st := .running }).pump cl team j.id
  | none => .next s

/-- A running job has performed every element. -/
def State.jobFinished (s : State) (cl team : Nat) (j : Job) : Bool :=
  j.broken.isNone && j.req.isNone && match s.jobView cl team j with | some v => decide (v.count ≤ j.prog) | none => false

def execJobLanded (cl team tag : Nat) (s : State) : Result :=
  match s.jobAt cl team tag .running with
  | some j => .next (if s.jobFinished cl team j then s.modJob cl team j.id fun j => { j with st := .landed } else s)
  | none => .next s

/-- The write regions of a job are written through at its scope (R246). -/
def State.writeRegions (s : State) (cl team : Nat) (j : Job) : State :=
  match s.jobView cl team j with
  | some v => s.throughAll v.ag (levelOf j.scope) (inFootprint v.c.asid j.writes)
  | none => s

/-- The first dirty word of a job's write regions whose home answers with errors (R466, R311). -/
def State.lostWord (s : State) (cl team : Nat) (j : Job) : Option Copy :=
  (s.jobView cl team j).bind fun v =>
    if levelOf j.scope == .home then
      s.copies.find? fun c => (c.pos == .l1 v.ag.core || c.pos == .dc v.ag.die) && c.dirty && inFootprint v.c.asid j.writes c &&
        s.gone (some c.home) (4 * c.word)
    else none

/-- The write-through of a landed job met an error (R311): the context error is that of R232, and the job is Faulted. -/
def State.spoilLanded (s : State) (cl team : Nat) (j : Job) (c : Copy) : State :=
  let s := (s.writeRegions cl team j).modArr cl team fun a => { a with queue := a.queue.filter fun y => j.cmd != some y.id }
  s.faultJob cl team j 0x0C c.va.toNat

/-- JOB_DONE of a CPY; a CPYM is done when its follow-on has finished (R313). -/
def execJobDone (cl team tag : Nat) (s : State) : Result :=
  match s.jobAt cl team tag .landed with
  | some j =>
    if j.cmd.isSome then .next s
    else match s.lostWord cl team j with
      | some c => .next (s.spoilLanded cl team j c)
      | none => .next ((s.writeRegions cl team j).modTeam cl team fun t => t.completeJob j.id)
  | none => .next s

def execJobFaulted (cl team tag : Nat) (s : State) : Result :=
  match s.jobAt cl team tag .running with
  | some j => match j.broken with
    | some (c, a) => .next (s.faultJob cl team j c a)
    | none => .next s
  | none => .next s

/-- JOB_REPLAY: after the memory processor's answer, or when a request could not leave before (R199, R311, R480). -/
def execJobReplay (cl team tag : Nat) (ans : FaultAnswer) (s : State) : Result :=
  match s.jobAt cl team tag .running, (s.cluster? cl).bind fun c => (s.kernel? c.kern).bind fun k => s.ctx? k.asid with
  | some j, some c =>
    if j.req.isSome || j.broken.isSome || (!j.frames.isEmpty && !s.portRuns 0) then .next s
    else
      let die := (s.agentOf cl team).die
      let (s', es, ok) := match ans with
        | .serviced ws => match s.tableWrites c ws with
          | some s' => (s', [], s'.answers die c j.frames [])
          | none => (s, [], false)
        | .noAllocation fr => (s, s.emptyEntries die c fr, s.answers die c j.frames fr)
      if ok then (s'.modJob cl team j.id fun j => { j with frames := [], noAlloc := es.foldl addOnce j.noAlloc }).pump cl team j.id
      else .next s
  | _, _ => .next s

/-- The view of a fibre for a follow-on of one of its jobs: its segments, team and context serve, be it exited or not. -/
def State.cmdView (s : State) (r : FibreRef) : Option View := do
  let f ← s.fibre? r
  let tm ← s.team? r.cl r.team
  let cl ← s.cluster? r.cl
  let k ← s.kernel? f.kern
  let rcd ← k.rcd
  let c ← s.ctx? f.asid
  let g : Gang := { id := f.turn, lanes := f.live, pc := f.nextPc, st := .run, count := 0 }
  let sl : Slot := { cl := r.cl, team := r.team, slot := f.slot, phys := f.slot, holder := none, last := 0, rows := [], pend := []
                     flags := Vector.replicate 16 0, queue := [], bars := Vector.replicate 4 0 }
  some { iss := { f := r, gang := g.id, pc := g.pc }, f := f, g := g, sl := (s.slot? f).getD sl, tm := tm, cl := cl, k := k, rcd := rcd, c := c }

/-- CPYM_FOLLOW_ON (R313): the write regions are written through, and the follow-on's operand is put in place so that it
may act. An operand that cannot be translated faults the job. -/
def execCpymFollowOn (cl team tag : Nat) (s : State) : Result :=
  match s.jobAt cl team tag .landed with
  | none => .next s
  | some j =>
    match s.lostWord cl team j with
    | some c => .next (s.spoilLanded cl team j c)
    | none =>
    match j.cmd, s.cmdView j.f, (handleOf j.dst.1).tensor with
    | some id, some v, some x =>
      let l := layOf j.dst.2
      match ((s.team? cl team).bind (·.arr)).bind fun a => a.queue.find? fun c => c.id == id with
      | some c =>
        match c.op with
        | .follow _ w z row0 init fd _ =>
          let s := s.writeRegions cl team j
          match v.feedRows s x l [] j.noAlloc with
          | .ok (rows, _, [], _) =>
            let op : ArrOp := if w then .wload fd [] rows else .stream z row0 init fd [] rows
            .next (s.modArr cl team fun a => { a with queue := a.queue.map fun y => if y.id == id then { y with op := op } else y })
          | .ok _ => .next s
          | .error (.fault r) => .fault r
          | .error (.trap _ t) =>
            .next (((s.modArr cl team fun a => { a with queue := a.queue.filter fun y => y.id != id }).faultJob cl team j t.code.code
              t.eaddr.toNat))
          | .error _ => .next s
        | _ => .next s
      | none => .next s
    | _, _, _ => .next s

/-! ### CPY and CPYM (R307) -/

def jobUses (a b : Tile) (c : BitVec 8) (v : View) : List Use :=
  useH a.hn.toNat v.g.lanes ++ useL a.ln.toNat v.g.lanes ++ useH b.hn.toNat v.g.lanes ++ useL b.ln.toNat v.g.lanes ++ useS c v.g.lanes

/-- JobFault of a check at issue (R380). -/
def View.jobFault (v : View) (addr : DWord) : Stop := v.stop .jobFault v.g.lanes addr 0xFF

/-- Acceptance by the copy engine (R262, R307). -/
def View.copyAccept (v : View) (dec dst : Bool) (h : Handle) (l : Lay) : Chk Tensor :=
  match classOf .ce dec false dst h l, h.tensor with
  | .le8Partial, _ => .error (v.stop .le8Partial v.g.lanes)
  | .conforming, some t | .convertible, some t => .ok t
  | _, _ => .error (v.stop .layoutReject v.g.lanes)

/-- The segment check of a region of a card (R188). -/
def View.regionOk (v : View) (r : Region) : Bool := v.inSegment r.sp r.base r.len

/-- The edges of a new job (R310). -/
def Team.edgesOf (t : Team) (c : Card) : List Nat :=
  (t.pending.filter fun j => overlapAny t.rank c.reads j.writes || overlapAny t.rank c.writes j.reads ||
    overlapAny t.rank c.writes j.writes).map (·.id)

/-- Job entries in use on a core (R303). -/
def State.jobEntries (s : State) (core : Nat) : Nat :=
  (s.coreTeams core).foldl (fun n t => n + t.pending.length) 0

/-- The checks of R307 from the second on, and the effect: a release of the card's read regions (R246) and the new job. -/
def View.copyJob (v : View) (s : State) (m : Bool) (tag : Nat) (a b : Tile) (addr : Nat) (bs : List Byte) : Chk State := do
  let bad := v.jobFault (BitVec.ofNat 64 addr)
  let card ← match cardOf bs with
    | some c => pure c
    | none => .error bad
  if (card.fop != 0) != m || !(card.reads ++ card.writes).all v.regionOk || overlapAny v.tm.rank card.reads card.writes then
    .error bad
  if decide (v.rcd.tags ≤ tag) || v.tm.pending.any (fun j => j.tag == tag) then .error (v.jobFault 0)
  let hx := v.handle a.hn
  let hy := v.handle b.hn
  let lx := v.lay a.ln
  let ly := v.lay b.ln
  let dec := hx.fmt != hy.fmt
  let x ← v.copyAccept dec false hx lx
  let y ← v.copyAccept false true hy ly
  if m then let _ ← v.feedAccept (if card.fop == 1 then .wf else .af) hy ly
  if (lx.padded x.fmt.grain).size != (ly.padded y.fmt.grain).size || (dec && !(jobSource x.fmt && jobTarget y.fmt)) then
    .error (v.jobFault 0)
  if m then
    let arr ← v.array
    v.require .arrayState (if card.fop == 1 then weightOk y ly else arr.logical.streamOk y ly card.frow)
  v.holdRemote true
  if decide (64 ≤ s.jobEntries v.core) then .error .stall
  let s := s.throughAll v.agent (levelOf card.scope) (inFootprint v.f.asid card.reads)
  let cmd := if m then some s.nextId else none
  let s := if m then s.enter v.f.ref v.iss.pc
      (.follow tag (card.fop == 1) card.fz card.frow card.finit (y.feed ly.dims.1 v.f.fpm) ly.dims.2) else s
  let edges := v.tm.edgesOf card
  let j : Job := {
    id := s.nextId, tag := tag, f := v.f.ref, st := if edges.isEmpty then .queued else .blocked
    src := (v.f.h.getD a.hn.toNat 0, v.f.l.getD a.ln.toNat 0), dst := (v.f.h.getD b.hn.toNat 0, v.f.l.getD b.ln.toNat 0)
    reads := card.reads, writes := card.writes, scope := card.scope, rm := card.rm, fpm := v.f.fpm, xretry := v.f.xretry
    edges := edges, prog := 0, cause := 0, addr := 0, frames := [], noAlloc := [], buf := [], req := none, broken := none
    cmd := cmd }
  let s := s.modTeam v.f.ref.cl v.f.ref.team fun t => { t with
    tags := t.tags &&& ~~~(BitVec.ofNat 64 (2 ^ tag)), jobs := (t.jobs.filter fun k => k.tag != tag) ++ [j] }
  pure { s with nextId := s.nextId + 1 }

/-- The parts of an access whose bytes lie from an offset on. -/
def cutParts (off n : Nat) (ps : List (Target × Nat)) : List (Target × Nat) :=
  (ps.foldl (fun (acc : List (Target × Nat) × Nat) p =>
    (if off ≤ acc.2 && acc.2 < off + n then acc.1 ++ [p] else acc.1, acc.2 + p.2)) ([], 0)).1

/-- The parts of a card that are used, by sixteens of bytes: the header, the descriptors that it counts, and the reserved bytes (R304). -/
def cardUses (header : Nat) (i : Nat) : Bool :=
  i == 0 || i == 7 || (decide (1 ≤ i) && decide (i ≤ min 4 (cutOf header 16 4))) || (decide (5 ≤ i) && decide (i < 5 + min 2 (cutOf header 20 4)))

/-- A card as a load reads it: its bytes, those not used as 0, and whether one read was in error. -/
def State.loadCard (s : State) (a : Agent) (ps : List (Target × Nat)) : State × List Byte × Bool :=
  (upTo 8).foldl (fun (acc : State × List Byte × Bool) i =>
    if cardUses (leNat (acc.2.1.take 16)) i then
      let (s, xs, bad) := acc.1.loadParts a none (cutParts (16 * i) 16 ps)
      (s, acc.2.1 ++ xs.flatMap (leBytes 4), acc.2.2 || bad)
    else (acc.1, acc.2.1 ++ List.replicate 16 0, acc.2.2)) (s, [], false)

/-- CPY and CPYM: the card is read as a load of the fibre, then the checks; an error in the card's data leaves no job. -/
def copyOp (m sw : Bool) (tag : BitVec 6) (sp : Space) (a b : Tile) (c : BitVec 8) (s : State) : Result :=
  issueMem sw 8 (jobUses a b c) (fun v s rep => do
    let addr := ((v.sval c).setWidth 56 : VA).toNat
    v.require .misaligned (addr % 128 == 0)
    let accs := v.wideAccs addr 128 128
    let p ← v.prepare s sp .read (noAllocOf rep) accs
    if !p.frames.isEmpty then return frozen s p.frames
    let (s, bs, bad) := (s.keepAll v.agent p).loadCard v.agent ((p.ready.head?.map (·.parts)).getD [])
    let err := if bad then dataErr (accs.map fun x => (x.lane, x.addr)) v.g.lanes else none
    if bad then return ({ s := s, now := [], held := [], out := some { Out.of [] with err := err }, done := 0 }, [])
    let s ← v.copyJob s m tag.toNat a b addr bs
    pure ({ s := s, now := [], held := [], out := none, done := 0 }, [])) s

def execCpy (sw : Bool) (tag : BitVec 6) (sp : Space) (a b : Tile) (c : BitVec 8) (s : State) : Result :=
  copyOp false sw tag sp a b c s
def execCpym (sw : Bool) (tag : BitVec 6) (sp : Space) (a b : Tile) (c : BitVec 8) (s : State) : Result :=
  copyOp true sw tag sp a b c s

/-! ### Tags (R314 to R316) -/

/-- The acquire of the write regions of the jobs of some tags (R246). -/
def State.acquireTags (s : State) (a : Agent) (asid : BitVec 16) (t : Team) (mask : DWord) : State :=
  (t.jobs.filter fun j => j.st == .done && mask.getLsbD j.tag).foldl
    (fun s j => s.discard a (levelOf j.scope) (inFootprint asid j.writes)) s

/-- The mask of a tag instruction without the tags that the kernel does not have. -/
def View.tagsOf (v : View) (a : BitVec 8) : DWord := v.sval a &&& tagMask v.rcd.tags

def execTwany (sw : Bool) (d : BitVec 6) (a : BitVec 8) (s : State) : Result :=
  issueColl sw 8 (fun v => useS a v.g.lanes ++ defS d.toNat v.g.lanes) (fun v s =>
    let mask := v.tagsOf a
    let got := v.tm.tags &&& mask
    if mask == 0 || got != 0 then .ok ((s.acquireTags v.agent v.f.asid v.tm got).defer v.f (Out.of [.s d.toNat got]))
    else .error (.wait s (.tagsAny d.toNat mask))) s

def execTwall (sw : Bool) (a : BitVec 8) (s : State) : Result :=
  issueColl sw 8 (fun v => useS a v.g.lanes) (fun v s =>
    let mask := v.tagsOf a
    if v.tm.tags &&& mask == mask then .ok (s.acquireTags v.agent v.f.asid v.tm mask)
    else .error (.wait s (.tagsAll mask))) s

def execTffr (sw : Bool) (d : BitVec 6) (a : BitVec 8) (s : State) : Result :=
  issue sw 8 (fun v => useS a v.g.lanes ++ defS d.toNat v.g.lanes) (fun v s =>
    let x := v.tm.tags &&& v.tagsOf a
    .ok (s.defer v.f (Out.of [.s d.toNat (BitVec.ofNat 64 (((upTo 64).find? fun i => x.getLsbD i).getD 64))]))) s

def execTclr (sw : Bool) (a : BitVec 8) (s : State) : Result :=
  issue sw 8 (fun v => useS a v.g.lanes) (fun v s =>
    let mask := v.tagsOf a
    .ok (s.modTeam v.f.ref.cl v.f.ref.team fun t => { t with
      tags := t.tags &&& ~~~mask, jobs := t.jobs.filter fun j => !(j.st == .done && mask.getLsbD j.tag) })) s

def JobSt.code : JobSt → Nat
  | .queued => 1
  | .blocked => 2
  | .running => 3
  | .landed => 4
  | .done => 5
  | .faulted => 6

/-- The figure of a query (R315). -/
def View.jobQuery (v : View) (q : JQuery) : Nat :=
  let job := fun a => let t := (v.sval a).toNat; if v.rcd.tags ≤ t then none else v.tm.jobs.find? fun j => j.tag == t
  match q with
  | .st a => ((job a).map fun j => j.st.code).getD 0
  | .prog a => ((job a).map (·.prog)).getD 0
  | .cause a => ((job a).map fun j => j.cause.toNat).getD 0
  | .addr a => ((job a).map fun j => j.addr.toNat).getD 0
  | .ffl => (((v.tm.jobs.filter fun j => j.st == .faulted).map (·.tag)).foldl min 64)

def execJqry (sw : Bool) (q : JQuery) (d : BitVec 6) (s : State) : Result :=
  issue sw 8 (fun v => (match q with
      | .st a | .prog a | .cause a | .addr a => useS a v.g.lanes
      | .ffl => []) ++ defS d.toNat v.g.lanes)
    (fun v s => .ok (s.defer v.f (Out.of [.s d.toNat (BitVec.ofNat 64 (v.jobQuery q))]))) s

/-- Jobs with an edge to one of a set, transitively: at most as many rounds as there are jobs. -/
def dependents (jobs : List Job) : Nat → List Nat → List Nat
  | 0, ids => ids
  | n + 1, ids =>
    dependents jobs n ((jobs.filter fun j => j.st == .blocked && j.edges.any ids.contains).foldl (fun l j => addOnce l j.id) ids)

/-- JCAN (R316): a running job has stopped once its open request, if it has one, is answered. -/
def execJcan (sw : Bool) (a : BitVec 8) (s : State) : Result :=
  issue sw 8 (fun v => useS a v.g.lanes) (fun v s =>
    let mask := v.tagsOf a
    let named := v.tm.jobs.filter fun j => mask.getLsbD j.tag && j.st != .landed && j.st != .done
    let ids := dependents v.tm.jobs v.tm.jobs.length (named.map (·.id))
    let gone := v.tm.jobs.filter fun j => ids.contains j.id
    let cmds := gone.filterMap (·.cmd)
    let s := s.modTeam v.f.ref.cl v.f.ref.team fun t => ({ t with
      jobs := t.jobs.filter fun j => !ids.contains j.id
      arr := t.arr.map fun r => { r with queue := r.queue.filter fun c => !cmds.contains c.id } } : Team).unblock
    .ok (s.defer v.f { Out.of [] with remote := gone.filterMap (·.req) })) s

end Sys2Proof.Machine
end

