-- ==== Sys2Proof/Machine/System.lean ====
section
/-! DEFINITION. The special registers (R58, R59, R140), the fibre block with SAVECTX and LOADCTX (R391, R392), TLBINV (R393),
and the events that take asynchronous traps and answer faults (R199, R381 to R383, R299, R312, R416, R478). -/

namespace Sys2Proof.Machine

open Sys2Proof

/-! ### RDSR and WRSR (R20, R58, R140) -/

/-- The value of a special register as a lane sees it (R20, R58). -/
def View.readSr (v : View) (s : State) (l : Nat) : SReg → DWord
  | .lane => BitVec.ofNat 64 l
  | .slice => BitVec.ofNat 64 (l / 4)
  | .fibre => BitVec.ofNat 64 v.f.ref.fib
  | .slot => BitVec.ofNat 64 v.f.slot
  | .team => BitVec.ofNat 64 v.f.ref.team
  | .cluster => BitVec.ofNat 64 v.cl.index
  | .cx => BitVec.ofNat 64 (v.cl.index % v.rcd.gx)
  | .cy => BitVec.ofNat 64 (v.cl.index / v.rcd.gx % v.rcd.gy)
  | .cz => BitVec.ofNat 64 (v.cl.index / v.rcd.gx / v.rcd.gy)
  | .core => BitVec.ofNat 64 v.core
  | .die => BitVec.ofNat 64 v.die
  | .dev => s.dev.setWidth 64
  | .tags => v.tm.tags
  | .lcd => v.f.lcd.setWidth 64
  | .fpm => v.f.fpm.setWidth 64
  | .fps => v.f.fps.setWidth 64
  | .le8s => v.f.le8s.setWidth 64
  | .fp4x => v.f.fp4x.setWidth 64
  | .rng => (v.f.rng.at l).setWidth 64
  | .cyc => s.cyc.getD v.core 0
  | .quota => v.f.quota.setWidth 64
  | .grp => v.f.grp.setWidth 64
  | .ecause => v.f.ecause.setWidth 64
  | .epc => v.f.epc
  | .eaddr => v.f.eaddr
  | .emask => v.f.emask.setWidth 64
  | .xretry => v.f.xretry.setWidth 64

def execRdsr (h : Hdr) (sc : Bool) (d : BitVec 8) (sr : SReg) (s : State) : Result :=
  issue h.sw 8 (fun v => useDst sc sr.wide d (v.mask h sc))
    (fun v s => .ok (s.upds v.f (v.dstUpds sc sr.wide d ((v.runs h sc).map fun l => (l, v.readSr s l sr))))) s

/-- WRSR (R59, R140): sr.rng in each lane, any other register from the lowest lane. -/
def execWrsr (h : Hdr) (sr : SReg) (a : Opnd) (s : State) : Result :=
  issue h.sw 8 (fun v => useSrc false sr.wide a (v.active h))
    (fun v s =>
      let ty : Ty := if sr.wide then .n64 else .n32
      let x := fun l => v.src false ty a l
      let m := v.active h
      if m == 0 then .ok s
      else .ok (s.modFibre v.f.ref fun f =>
        if sr == .rng then { f with rng := Row.select m (mkRow fun l => (x l).setWidth 32) f.rng }
        else f.writeSr sr (x (lowest m)))) s

/-! ### The fibre block (R391) -/

/-- A gang has a lane in a slice. -/
def Gang.inSlice (g : Gang) (i : Nat) : Bool := (g.lanes >>> (4 * i)).setWidth 4 != (0 : BitVec 4)

/-- The gang whose PC a slice holds (R129): that of the turn, if it has a lane there; else that of the slice's lowest live lane (log
entry 50). -/
def sliceGang (gangs : List Gang) (turn i : Nat) : Option Gang :=
  match gangs.find? fun g => g.id == turn && g.inSlice i with
  | some g => some g
  | none => (upTo 4).findSome? fun k => gangs.find? fun g => lane g.lanes (4 * i + k)

/-- The PC of a slice; the handler gang's is sr.epc (R392). -/
def Fibre.slicePc (f : Fibre) (i : Nat) : Nat :=
  match sliceGang f.gangs f.turn i with
  | some g => if f.hmode && g.id == f.hgang then f.epc.toNat else g.pc.toNat
  | none => 0

/-- The live rows of a fibre's private window, by private index. -/
def privateRows (f : Fibre) (sl : Slot) : List (Nat × Row) :=
  (upTo 256).filterMap fun n =>
    if n < (f.quota.extractLsb' 0 8).toNat + 1 then
      match quotaRow f.quota n with
      | some r => (aget sl.rows r).map fun x => (n, x)
      | none => none
    else none

def words4 (l : List (BitVec 32)) : List Byte := l.flatMap fun x => leBytes 4 x.toNat
def words8 (l : List DWord) : List Byte := l.flatMap fun x => leBytes 8 x.toNat
def rowBytes (r : Row) : List Byte := words4 ((upTo 32).map r.at)

/-- The first 4 KiB of a fibre block; `code` is the device-defined encoding at 0x2C4. -/
def headBytes (f : Fibre) (sl : Slot) (code : BitVec 480) : List Byte :=
  let pad := fun n => List.replicate n (0 : Byte)
  let bitmap := (privateRows f sl).foldl (fun a x => a + 2 ^ x.1) 0
  words8 f.s.toList ++ words4 (f.p.toList ++ [BitVec.allOnes 32]) ++ words4 f.cb.toList ++
    f.g.toList ++ words4 [f.grp, f.quota, f.fpm, f.fps, f.le8s, f.fp4x, f.xretry] ++
    words4 [f.ecause, f.emask] ++ words8 [f.epc, f.eaddr] ++ words4 [f.lcd] ++ pad 4 ++
    (upTo 8).flatMap (fun i => leBytes 8 (f.slicePc i)) ++
    words4 [f.live] ++ leBytes 60 code.toNat ++
    (upTo 6).flatMap (fun i => leBytes 8 (segBase i (f.segment i).base).toNat ++ leBytes 8 (f.segment i).limit.toNat) ++ pad 160 ++
    rowBytes f.rng ++ leBytes 32 bitmap ++ pad 864 ++
    f.l.toList.flatMap (fun x => leBytes 64 x.toNat) ++ f.h.toList.flatMap (fun x => leBytes 32 x.toNat) ++ pad 512

/-- The writes of a fibre block: 4-byte words by their offset (R391). -/
def blockWords (f : Fibre) (sl : Slot) (code : BitVec 480) : List (Nat × Word) :=
  let head := headBytes f sl code
  let word := fun (bs : List Byte) => (BitVec.ofNat 32 (leNat bs) : Word)
  (upTo 1024).map (fun i => (4 * i, word ((head.drop (4 * i)).take 4))) ++
    (privateRows f sl).flatMap fun x => (upTo 32).map fun l => (0x1000 + 128 * x.1 + 4 * l, x.2.at l)

def Fibre.snap (f : Fibre) : Snap :=
  { live := f.live, gangs := f.gangs, turn := f.turn, nextGang := f.nextGang, hgang := f.hgang, tookAt := f.tookAt,
    held := f.held, replay := f.replay, trapped := f.trapped, posts := f.posts, arrivals := f.arrivals, garr := f.garr, cgid := f.cgid, aside := f.aside }

/-- A little-endian field of a block. -/
def blockNat (b : List Byte) (off n : Nat) : Nat := leNat ((b.drop off).take n)
def block32 (b : List Byte) (off : Nat) : BitVec 32 := BitVec.ofNat 32 (blockNat b off 4)
def block64 (b : List Byte) (off : Nat) : DWord := BitVec.ofNat 64 (blockNat b off 8)

/-- The reserved bytes of a block are zero (R391). -/
def blockClean (b : List Byte) : Bool :=
  [(0x27C, 4), (0x360, 0xA0), (0x4A0, 0x360), (0xE00, 0x200)].all fun r => blockNat b r.1 r.2 == 0

/-- A PC register holds a multiple of 4 (R36). -/
def pcOf (x : Nat) : VA := BitVec.ofNat 56 (x / 4 * 4)

/-- A layout register without its reserved bits (R251). -/
def layBits (x : Nat) : BitVec 512 := BitVec.ofNat 512 (x % 2 ^ 498)

/-- A segment limit of at most 2^56 (R188). -/
def limitOf (x : Nat) : DWord := BitVec.ofNat 64 (min (x % 2 ^ 57) (2 ^ 56))

/-- The registers of a block in a fibre (R391, R392); reserved bits read as zero (R9), the cluster segment's base among them (R188). -/
def Fibre.loadHead (f : Fibre) (b : List Byte) : Fibre :=
  { f with
    s := Vector.ofFn fun i => block64 b (8 * i.val)
    p := Vector.ofFn fun i => block32 b (0x200 + 4 * i.val)
    cb := Vector.ofFn fun i => block32 b (0x220 + 4 * i.val)
    g := Vector.ofFn fun i => b.getD (0x240 + i.val) 0
    grp := block32 b 0x244 &&& 0xF
    fpm := block32 b 0x24C &&& 0x3FF7, fps := block32 b 0x250 &&& 0x7F, le8s := block32 b 0x254 &&& 3
    fp4x := block32 b 0x258 &&& 0xFFFF, xretry := writeXretry (block32 b 0x25C)
    ecause := block32 b 0x260 &&& 0x3FFFF, emask := block32 b 0x264, epc := block64 b 0x268 &&& 0x00FFFFFFFFFFFFFF
    eaddr := block64 b 0x270, lcd := block32 b 0x278 &&& 0xFFFFFF
    seg := Vector.ofFn fun i => { base := segBase i.val (BitVec.ofNat 56 (blockNat b (0x300 + 16 * i.val) 8))
                                  limit := limitOf (blockNat b (0x308 + 16 * i.val) 8) }
    rng := mkRow fun l => block32 b (0x400 + 4 * l)
    l := Vector.ofFn fun i => layBits (blockNat b (0x800 + 64 * i.val) 64)
    h := Vector.ofFn fun i => BitVec.ofNat 256 (blockNat b (0xC00 + 32 * i.val) 32) }

/-- The gangs that a block names; the live lanes are the block's. A gang is at the PC of a slice that held its PC (R129), and keeps that of its
deferral entries else (R392). -/
def snapOf (f : Fibre) (snaps : List (BitVec 480 × Snap)) (b : List Byte) : Snap :=
  let x := (aget snaps (BitVec.ofNat 480 (blockNat b 0x2C4 60))).getD f.snap
  let live := block32 b 0x2C0
  { x with
    live := live
    gangs := (x.gangs.map fun (g : Gang) => { g with
      lanes := g.lanes &&& live
      pc := match (upTo 8).find? fun i => (sliceGang x.gangs x.turn i).any fun y => y.id == g.id with
        | some i => pcOf (blockNat b (0x280 + 8 * i) 8)
        | none => g.pc }).filter fun g => g.lanes != 0 }

/-- The private rows of a block: those whose bit is 0 become dead. -/
def Slot.loadRows (sl : Slot) (q : BitVec 32) (b : List Byte) : Slot :=
  (upTo ((q.extractLsb' 0 8).toNat + 1)).foldl (fun sl n =>
    match quotaRow q n with
    | some r =>
      if (blockNat b 0x480 32).testBit n then sl.write r (BitVec.allOnes 32) (mkRow fun l => block32 b (0x1000 + 128 * n + 4 * l))
      else sl.kill r
    | none => sl) sl

/-! ### SAVECTX, LOADCTX, TLBINV (R392, R393) -/

/-- The pages of a fibre block in place: the parts of its 9,216 words, or the frames that wait. -/
def View.blockPlaces (v : View) (s : State) (addr : Nat) (need : Need) (rep : Option Replay) :
    Chk (List (Target × Nat) × List Nat × List TlbEntry) := do
  v.sysop
  v.require .segmentLimit (v.inSegment .gl addr 0x9000) (BitVec.ofNat 64 addr)
  v.require .misaligned (addr % 0x1000 == 0)
  let frames := (upTo 10).map (fun i => (addr + 0x1000 * i) / 2 ^ 16) |>.filter (fun f => decide (f * 2 ^ 16 < addr + 0x9000))
  let frames := frames.foldl addOnce []
  let xs := frames.map fun fr => (fr, s.xlatOr v.agent v.c (noAllocOf rep) (fr * 2 ^ 16) need)
  match xs.findSome? fun x => match x.2 with | .hole pa => some pa | _ => none with
  | some pa => .error (.fault (.physicalHole pa))
  | none =>
    v.require .mappingError (xs.all fun x => x.2 != .mapping)
    v.require .permission (xs.all fun x => x.2 != .permission)
    let parts := (v.spots .gl addr 0x9000).map fun y => match y.1 with
      | .va z => match aget xs (z / 2 ^ 16) with
        | some (.ok e) => (Target.mem (e.place z), y.2)
        | _ => (.pad 0 0 0, y.2)
      | .pad a b c => (Target.pad a b c, y.2)
    pure (parts, xs.filterMap (fun x => if x.2.waits then some x.1 else none),
      xs.filterMap fun x => match x.2 with | .ok e => some e | _ => none)

def View.blockAddr (v : View) (a : BitVec 8) : Nat := ((v.sval a).setWidth 56 : VA).toNat

def execSavectx (sw : Bool) (a : BitVec 8) (s : State) : Result :=
  issueMemAs ⟨true, false⟩ sw 8 (fun v => useS a v.g.lanes) (fun v s rep => do
    let (parts, frames, used) ← v.blockPlaces s (v.blockAddr a) .write rep
    if !frames.isEmpty then return ({ s := s, now := [], held := [], out := none, done := 0 }, frames)
    if !v.f.out.isEmpty then .error .hold
    let code := Config.contextCode s.nextId
    let ws := blockWords v.f v.sl code
    let hits := ws.filter fun w => match parts[w.1 / 4]? with | some p => s.isTagged p.1 | none => false
    v.require .barrierClobber hits.isEmpty (BitVec.ofNat 64 (v.blockAddr a + (hits.map (·.1)).headD 0))
    let sn := { s with nextId := s.nextId + 1, snaps := (code, v.f.snap) :: s.snaps }
    let sn := used.foldl (fun s e => s.keepXlat v.agent e) sn
    let sn := ws.foldl (fun s w => match parts[w.1 / 4]? with
      | some p => s.storeParts v.agent none [p] [w.2]
      | none => s) sn
    pure ({ s := sn, now := [], held := [], out := some (Out.of []), done := 0 }, [])) s

def execLoadctx (sw : Bool) (a : BitVec 8) (s : State) : Result :=
  issueMemAs ⟨true, false⟩ sw 8 (fun v => useS a v.g.lanes) (fun v s rep => do
    let (parts, frames, used) ← v.blockPlaces s (v.blockAddr a) .read rep
    if !frames.isEmpty then return ({ s := s, now := [], held := [], out := none, done := 0 }, frames)
    if !v.f.out.isEmpty then .error .hold
    let s := used.foldl (fun s e => s.keepXlat v.agent e) s
    let (s, xs, bad) := s.loadParts v.agent none parts
    if bad then
      let err := dataErr ((lanesOf v.g.lanes).map fun l => (l, v.blockAddr a)) v.g.lanes
      return ({ s := s, now := [], held := [], out := some { Out.of [] with err := err }, done := 0 }, [])
    let b := xs.flatMap fun x => leBytes 4 x
    v.require .fibreQuota (blockClean b && block32 b 0x248 == v.f.quota && block32 b 0x2C0 &&& ~~~v.f.live == 0)
    let snap := snapOf v.f s.snaps b
    let s := s.modFibre v.f.ref fun f => { f.loadHead b with cgid := snap.cgid, loaded := some snap }
    pure ({ s := s.modSlot v.f fun sl => sl.loadRows v.f.quota b, now := [], held := [], out := none, done := 0 }, [])) s

/-- Drop translations of an ASID on the dies of a scope: every entry, or leaves that overlap a range (R393). -/
def State.dropXlat (s : State) (asid : BitVec 16) (die : Option Nat) (rng : Option (Nat × Nat)) : State :=
  let on := fun (d : Nat) => match die with | some x => d == x | none => true
  let leaf := fun (e : TlbEntry) => e.asid == asid && match rng with
    | some (a, n) => decide (0 < n) && decide (e.base < a + n) && decide (a < e.base + e.size)
    | none => true
  { s with
    coreTlb := s.coreTlb.filter fun x => !(on (x.1 / 40) && leaf x.2)
    dieTlb := s.dieTlb.filter fun x => !(on x.1 && leaf x.2)
    walks := s.walks.filter fun x => !(on x.1 && x.2.asid == asid) }

def execTlbinv (sw dev : Bool) (rng : InvRange) (s : State) : Result :=
  issuePriv sw 8 (fun v => match rng with
      | .all => []
      | .range a b => useS a v.g.lanes ++ useS b v.g.lanes)
    (fun v s => do
      v.sysop
      let r := match rng with
        | .all => none
        | .range a b => some (((v.sval a).setWidth 56 : VA).toNat, (v.sval b).toNat)
      pure ((s.dropXlat v.f.asid (if dev then none else some v.die) r).defer v.f (Out.of []))) s

/-! ### Asynchronous traps (R381, R383) -/

/-- The gang that waits on tags (R312): that of the turn before any other. -/
def Fibre.tagGang (f : Fibre) : Option Gang :=
  let on := fun (g : Gang) => match g.st with | .wait (.tagsAny ..) | .wait (.tagsAll _) => true | _ => false
  match f.gangs.find? fun g => g.id == f.turn && on g with
  | some g => some g
  | none => f.gangs.find? on

/-- A parked fibre at TWALL or TWANY, which a job's fault readies (R312). -/
def Fibre.waitsOnTags (f : Fibre) : Bool := (f.st == .parked .waits || f.st == .parked .results) && f.tagGang.isSome

/-- A parked fibre of live lanes, which a data error readies (R478). -/
def Fibre.readied (f : Fibre) : Bool :=
  f.live != 0 && match f.st with | .parked .groupExit => false | .parked _ => true | _ => false

def Fibre.holds (f : Fibre) (k : HeldKind) : Bool := f.held.any fun h => h.kind == k

/-- The gang that holds the turn is midway through an instruction that is held with some packets sent: no boundary. -/
def Fibre.turnMidway (f : Fibre) (x : Sending) : Bool := f.gangs.any fun g => g.id == f.turn && g.id == x.gang && g.pc == x.pc

/-- A held trap of a kind is the first and the fibre is at a boundary at which it is taken (R381, R383). -/
def Fibre.boundary (f : Fibre) (k : HeldKind) : Bool :=
  (match f.held with | h :: _ => h.kind == k | [] => false) && f.taking.isNone && !f.hmode && !(f.sending.any f.turnMidway) &&
    (f.st == .run || (f.holds .job && f.waitsOnTags) || (f.holds .data && f.readied))

/-- The turn of a parked fibre whose trap readies it: a fibre at TWALL or TWANY takes a job's fault there (R312). -/
def Fibre.trapTurn (f : Fibre) : Fibre :=
  if f.st != .run && f.holds .job && !(f.holds .data && f.readied) then
    match f.tagGang with | some g => { f with turn := g.id } | none => f
  else f

/-- The wait of the gang that holds the turn, where issuing its instruction again would not be the same wait: an arrival has been
counted, or the commit group has moved on. -/
def Fibre.keptWait (f : Fibre) : Option (VA × GangSt) :=
  (f.gangs.find? fun g => g.id == f.turn).bind fun (g : Gang) => match g.st with
    | .wait (.group ..) | .wait (.gred ..) | .wait (.commit ..) => some (g.pc, g.st)
    | _ => none

/-- Deferred arrivals without the latest at a barrier. -/
def takeBack (b : Nat) (l : List (Nat × List Nat)) : List (Nat × List Nat) :=
  match l.reverse.findIdx? fun x => x.1 == b with
  | some i => (l.reverse.eraseIdx i).reverse
  | none => l

/-- A parked fibre leaves its wait to take a trap that readies it (R312, R478): an FWAIT or FBAR leaves its queue or its barrier and is to issue again, as is any
other wait but one that is kept. -/
def State.unpark (s : State) (r : FibreRef) : State :=
  match s.fibre? r with
  | none => s
  | some f =>
    let back : Fibre → Fibre := fun f => f.modGang f.turn fun g => { g with pc := g.pc - 8 }
    match f.st with
    | .parked (.flag ..) => (s.modSlot f fun sl => { sl with queue := sl.queue.filter fun q => q.2.1 != f.pos }).modFibre r back
    | .parked (.barrier b) =>
      if f.arrivals.any fun x => x.1 == b then s.modFibre r fun f => { back f with arrivals := takeBack b f.arrivals }
      else (s.modSlot f fun sl => { sl with bars := sl.bars.set! b (sl.bars[b]! - 1) }).modFibre r back
    | .parked .waits | .parked .results => (s.disarm r f.turn).modFibre r fun f => { f with aside := f.keptWait }
    | _ => s

/-- The lanes of a held trap (R299, R312, R416, R478): a record that names none stands for every live lane. -/
def Fibre.heldLanes (f : Fibre) (t : TrapRec) : Mask := if t.emask == 0 then f.live else t.emask

/-- Take the first held trap at the boundary (R383): the PC is that of the gang that holds the turn, which waits no more. On a die whose
cores are stopped there is no boundary. -/
def takeHeld (k : HeldKind) (r : FibreRef) (s : State) : Result :=
  match s.fibre? r with
  | none => .next s
  | some f =>
    match f.held with
    | h :: rest =>
      if f.boundary k && s.issues r.cl then
        let s := (s.modFibre r Fibre.trapTurn).unpark r
        let f := (s.fibre? r).getD f
        let t := { h.rcd with epc := f.nextPc, emask := f.heldLanes h.rcd }
        let s := s.modFibre r fun f => { f.closeWait f.turn with
          held := rest, st := .run
          gangs := f.gangs.map fun (g : Gang) => if g.id == f.turn then { g with st := .run } else g }
        .next (s.takeTrap r f.turn t)
      else .next s
    | [] => .next s

/-- ASYNC_DATA_ERROR (R478). -/
def execAsyncDataError (f : FibreRef) (s : State) : Result := takeHeld .data f s
/-- MATRIX_DATA_ERROR (R299). -/
def execMatrixDataError (f : FibreRef) (s : State) : Result := takeHeld .matrix f s
/-- JOB_FAULT_SIGNAL (R312). -/
def execJobFaultSignal (f : FibreRef) (s : State) : Result := takeHeld .job f s
/-- REMOTE_ERROR_TRAP (R416). -/
def execRemoteErrorTrap (f : FibreRef) (s : State) : Result := takeHeld .remote f s

/-- FAULT_SERVICED (R199, R201, R468): the memory processor's answer once every page of the report is resolved; the fibre becomes ready and
replays. An answer that writes anything but invalid entries of the context's tables is none. -/
def execFaultServiced (r : FibreRef) (ans : FaultAnswer) (s : State) : Result :=
  match s.fibre? r with
  | none => .next s
  | some f =>
    if !s.portRuns 0 then .next s else
    let die := (s.agentOf r.cl r.team).die
    match f.st, ans, s.ctx? f.asid with
    | .frozen (.replay frames), .serviced ws, some c =>
      match s.tableWrites c ws with
      | some s' => if s'.answers die c frames [] then .next (s'.modFibre r fun f => { f with st := .run }) else .next s
      | none => .next s
    | .frozen (.replay frames), .noAllocation fr, some c =>
      if s.answers die c frames fr then
        let es := s.emptyEntries die c fr
        .next (s.modFibre r fun f => { f with
          st := .run, noFetch := es.foldl addOnce f.noFetch
          replay := f.replay.map fun x => if x.gang == f.turn then { x with noAlloc := es.foldl addOnce x.noAlloc } else x })
      else .next s
    | _, _, _ => .next s

end Sys2Proof.Machine
end

