-- ==== Sys2Proof/Machine/Launch.lean ====
section
/-! DEFINITION. Launches (15_kernel.md): what the device reads at home for itself, the launch record with its checks (R346 to
R350), the group table (R318 to R321), and the placement of clusters (R351 to R353, R367, R368). -/

namespace Sys2Proof.Machine

open Sys2Proof

/-! ### The device's own reads and writes at home (R349, R365, R479) -/

/-- Why an access of the device's own does not complete: a replayable fault, an error with the physical address it has, or an
address without memory. -/
inductive ReadEnd where
  | wait (frame : Nat)
  | bad (pa : Nat)
  | hole (pa : Nat)
  deriving DecidableEq, Repr

/-- The place of a virtual address of a context; `noAlloc` names frames that no allocation covers (R199). -/
def State.homePlace (s : State) (c : Context) (noAlloc : List Nat) (va : Nat) (need : Need) : Except ReadEnd Mapped :=
  if 2 ^ 56 ≤ va then .error (.bad 0)
  else match s.freshXlat 0 c va .none with
    | .ok e =>
      let m := e.place (BitVec.ofNat 56 va).toNat
      if permits e.leaf need then .ok m else .error (.bad m.pa)
    | .unmapped _ => if noAlloc.contains (va / 2 ^ 16) then .error (.bad 0) else .error (.wait (va / 2 ^ 16))
    | .replay => .error (.wait (va / 2 ^ 16))
    | .permission | .mapping => .error (.bad 0)
    | .hole pa => .error (.hole pa)

/-- A run of bytes at home that reads in error: its home answers with errors (R466), a word is poisoned (R477), or the metadata code of a
compressed block is reserved (R208). -/
def State.badRun (s : State) (m : Mapped) (n : Nat) : Bool :=
  s.gone (some m.die) m.pa || (upTo ((m.pa % 4 + n + 3) / 4)).any (fun i => s.poison.contains (m.pa / 4 + i)) ||
    (m.cp && (upTo ((m.pa % 256 + n + 255) / 256)).any fun i => decide (9 ≤ (s.codeOf (m.pa / 256 + i)).toNat))

/-- The bytes of a range within one 64 KiB frame. -/
def State.homeRun (s : State) (c : Context) (noAlloc : List Nat) (va n : Nat) : Except ReadEnd (List Byte) := do
  let m ← s.homePlace c noAlloc va .read
  if s.badRun m n then .error (.bad m.pa)
  pure (s.homeBytes m.key m.pa n)

/-- A byte range cut at the boundaries of 64 KiB frames; a length of 0 has none. -/
def frameRuns (va n : Nat) : List (Nat × Nat) :=
  if n = 0 then [] else (upTo (ceilDiv (va % 2 ^ 16 + n) (2 ^ 16))).map fun i =>
    let lo := max va ((va / 2 ^ 16 + i) * 2 ^ 16)
    (lo, min (va + n) ((va / 2 ^ 16 + i + 1) * 2 ^ 16) - lo)

/-- A byte range as home holds it. -/
def State.homeRead (s : State) (c : Context) (noAlloc : List Nat) (va n : Nat) : Except ReadEnd (List Byte) :=
  (frameRuns va n).foldlM (fun acc x => do pure (acc ++ (← s.homeRun c noAlloc x.1 x.2))) []

/-- Write a 64-bit word of a place at home. -/
def State.putHome64 (s : State) (m : Mapped) (x : DWord) : State :=
  (s.putHomeAs m.key (m.pa / 4) (x.setWidth 32) false).writeHome { m with pa := m.pa + 4 } ((x >>> 32).setWidth 32) false

/-- The release of a completion object (R479): a store or an addition at its home; a failure is a context error. -/
def State.release (s : State) (noAlloc : List Nat) (r : Release) : Except ReadEnd State :=
  if r.obj == 0 then .ok s
  else match s.ctx? r.asid with
    | none => .ok s
    | some c =>
      match s.homePlace c noAlloc r.obj.toNat .write with
      | .ok m =>
        if s.gone (some m.die) m.pa || (r.add && s.badRun m 8) then .ok (s.contextError r.asid m.pa)
        else .ok (s.putHome64 m (if r.add then BitVec.ofNat 64 (s.homeNat m.key m.pa 8) + r.val else r.val))
      | .error (.bad pa) => .ok (s.contextError r.asid pa)
      | .error e => .error e

/-- A release that waits for a replayable fault is kept (R479). -/
def State.releaseLater (s : State) (noAlloc : List Nat) (r : Release) : State :=
  match s.release noAlloc r with
  | .ok s' => s'
  | .error _ => { s with releases := s.releases ++ [r] }

/-- The frames of an answer of the memory processor, which is on port die 0 and gives none while that does not run (R468). -/
def State.heard (s : State) (noAlloc : List Nat) : List Nat := if s.portRuns 0 then noAlloc else []

/-- The waiting releases that a test picks are tried again. -/
def State.retryIf (s : State) (noAlloc : List Nat) (p : Release → Bool) : State :=
  (s.releases.filter p).foldl (fun s r => s.releaseLater noAlloc r) { s with releases := s.releases.filter fun r => !p r }

/-- The releases that wait are tried again. -/
def State.retryReleases (s : State) : State := s.retryIf [] fun _ => true

/-- The memory processor answers the releases of a context that wait: no allocation covers the frames (R199, R479). -/
def State.refuseReleases (s : State) (asid : BitVec 16) (noAlloc : List Nat) : State := s.retryIf (s.heard noAlloc) fun r => r.asid == asid

/-! ### The launch record (R346) -/

/-- A launch record and its arrays as read. -/
structure RawLaunch where
  recd : List Byte
  desc : List DWord
  /-- Membership entries by global fibre number (R318), with the die, cluster index and team of the fibre. -/
  members : List (Nat × (Nat × Nat × Nat) × DWord)
  l : List (Option (List Byte))
  h : List (Option (List Byte))
  pats : List Byte
  deriving Repr

def cutBits (x hi lo : Nat) : Nat := x / 2 ^ lo % 2 ^ (hi + 1 - lo)

section Fields
variable (r : List Byte)
def ctl0 (hi lo : Nat) : Nat := cutBits (blockNat r 0 8) hi lo
def recTags : Nat := ctl0 r 41 34
def recPats : Nat := ctl0 r 33 29
def recM : Nat := ctl0 r 27 26 + 1
def recN : Nat := ctl0 r 25 20 + 1
def recK : Nat := ctl0 r 19 14
def recShape : Option Shape := [Shape.s11, .s12, .s21, .s22, .s14][ctl0 r 13 11]?
def recTeams : Nat := match recShape r with | some x => x.teams | none => 0
def recQw (hi lo : Nat) : Nat := cutBits (blockNat r 184 8) hi lo
/-- The private count of a slot position. -/
def recCount (j : Nat) : Nat := recQw r (8 * j + 7) (8 * j) + 1
def recRanges : List (Nat × Nat) := (upTo 4).map fun d => (blockNat r (48 + 8 * d) 4, blockNat r (52 + 8 * d) 4)
end Fields

/-- The global number of a fibre (R348). -/
def globalFibre (cluster team fib : Nat) : Nat := (cluster * 4 + team) * 64 + fib

/-- Every fibre of the kernel as die, cluster, team and fibre. -/
def recFibres (r : List Byte) : List (Nat × Nat × Nat × Nat) :=
  ((recRanges r).zip (upTo 4)).flatMap fun x => (upTo x.1.2).flatMap fun i =>
    (upTo (recTeams r)).flatMap fun t => (upTo (recN r)).map fun f => (x.2, x.1.1 + i, t, f)

/-- The 64-bit words of a list of bytes. -/
def words64 (bs : List Byte) : List DWord := (upTo (bs.length / 8)).map fun i => block64 bs (8 * i)

/-- Reads of a launch: what has been read so far is kept, also across a replayable fault. -/
abbrev LaunchRead := EStateM ReadEnd (List ((Nat × Nat) × List Byte))

/-- A run of bytes within one frame, read once (R349). -/
def State.runOnce (s : State) (c : Context) (noAlloc : List Nat) (va n : Nat) : LaunchRead (List Byte) := fun known =>
  match aget known (va, n) with
  | some bs => .ok bs known
  | none =>
    match s.homeRun c noAlloc va n with
    | .ok bs => .ok bs (known ++ [((va, n), bs)])
    | .error e => .error e known

/-- The record and every attached array that it names, read once each at home (R349). -/
def State.readLaunch (s : State) (c : Context) (noAlloc : List Nat) (rec_ : Nat) : LaunchRead RawLaunch := do
  let get := fun (va n : Nat) => (frameRuns va n).foldlM (fun acc x => do pure (acc ++ (← s.runOnce c noAlloc x.1 x.2))) []
  if rec_ % 512 != 0 then throw (.bad 0)
  let r ← get rec_ 512
  let va := fun (o : Nat) => blockNat r o 8
  let mask := fun (o j : Nat) => (blockNat r 8 8).testBit (o + j)
  let desc ← if va 80 == 0 then pure [] else get (va 80) 2048
  let members ← if va 88 == 0 then pure [] else (recFibres r).mapM fun (x : Nat × Nat × Nat × Nat) => do
    let g := globalFibre x.2.1 x.2.2.1 x.2.2.2
    pure (g, (x.1, x.2.1, x.2.2.1), block64 (← get (va 88 + 8 * g) 8) 0)
  let images := fun (lo at_ n : Nat) => (upTo 16).mapM fun j => do
    if mask lo j then pure (some (← get (va at_ + n * j) n)) else pure none
  let l ← images 32 96 64
  let h ← images 48 104 32
  let pats ← if va 112 == 0 then pure [] else get (va 112) (128 * recPats r)
  pure { recd := r, desc := words64 desc, members := members, l := l, h := h, pats := pats }

/-! ### Groups (R318 to R320) -/

/-- The id that each valid slot of a membership entry names. -/
def entryIds (e : DWord) : List Nat :=
  (upTo 4).filterMap fun j => if e.getLsbD (32 + j) then some (e.extractLsb' (8 * j) 8).toNat else none

/-- The counting level of a group from its members' dies, clusters and teams (R320). -/
def countLevel (ms : List (Nat × Nat × Nat)) : BitVec 2 :=
  match ms with
  | [] => 0
  | m :: _ =>
    if ms.all (· == m) then 0
    else if ms.all fun x => x.2.1 == m.2.1 then 1
    else if ms.all fun x => x.1 == m.1 then 2
    else 3

/-- The members that name an id. -/
def membersOf (ms : List (Nat × (Nat × Nat × Nat) × DWord)) (id : Nat) : List (Nat × Nat × Nat) :=
  (ms.filter fun m => (entryIds m.2.2).contains id).map (·.2.1)

def descCount (e : DWord) : Nat := (e.extractLsb' 0 20).toNat
def descScope (e : DWord) : Nat := (e.extractLsb' 20 4).toNat

/-- R319. -/
def groupsBad (raw : RawLaunch) : Bool :=
  let desc := fun (i : Nat) => raw.desc.getD i 0
  (upTo 256).any (fun i => desc i >>> 24 != 0) ||
  raw.members.any (fun m => m.2.2 >>> 36 != 0 ||
    (let ids := entryIds m.2.2
     ids.any (fun i => descCount (desc i) == 0) || !(ids.eraseDups.length == ids.length))) ||
  (upTo 256).any fun i =>
    let n := descCount (desc i)
    n != 0 && (let ms := membersOf raw.members i
      ms.length != n || decide (descScope (desc i) < 3) || decide (7 < descScope (desc i)) ||
        decide (descScope (desc i) < 3 + (countLevel ms).toNat))

/-- The group table (R319, R321). -/
def groupTable (raw : RawLaunch) : List Group :=
  (upTo 256).filterMap fun i =>
    let e := raw.desc.getD i 0
    if descCount e == 0 then none
    else some { id := i, res := 0, n := descCount e, a := 0, phase := 0,
                scope := (Scope.ofCode (BitVec.ofNat 4 (descScope e))).getD .device,
                lvl := countLevel (membersOf raw.members i), kind := none, acc := [] }

/-! ### Validation (R350) -/

/-- Places of a cluster shape on a die's mesh: the logical cores by rank (R21, R347). -/
def meshCore (row col : Nat) : Option Nat :=
  let p := row * 7 + col
  if 6 ≤ row ∨ 7 ≤ col ∨ Config.spareCores.contains p then none
  else some (p - (Config.spareCores.filter fun x => decide (x < p)).length)

def anchors (x : Shape) : List (List Nat) :=
  (upTo 42).filterMap fun p =>
    (upTo x.teams).mapM fun q => meshCore (p / 7 + q / x.cols) (p % 7 + q % x.cols)

/-- Slots of a team (R347). -/
def slotsNeeded (n m : Nat) : Nat := ceilDiv n m

/-- The first failing condition of R350 from the second on; `args` replaces the constant base when it is not 0 (R363). -/
def launchReason (raw : RawLaunch) (args : DWord) : Option Byte :=
  let r := raw.recd
  let m := recM r
  let n := recN r
  let g := fun (o : Nat) => blockNat r o 8
  let total := blockNat r 32 4 * blockNat r 36 4 * blockNat r 40 4
  let ranges := (recRanges r).filter fun x => x.2 != 0
  let fpm := g 8 % 2 ^ 32
  let reserved := ctl0 r 63 42 != 0 || ctl0 r 10 0 != 0 || recQw r 55 48 != 0 || recQw r 39 32 != 0 ||
    (upTo 4).any (fun j => decide (m ≤ j) && ((recQw r 59 56).testBit j || recQw r (8 * j + 7) (8 * j) != 0)) ||
    decide (2 ^ 56 ≤ g 16) || blockNat r 192 320 != 0
  let windows := ((upTo m).map fun j => ceilDiv (recCount r j) 8).foldl (· + ·) (ceilDiv (recQw r 47 40) 8)
  let overlap := (upTo ranges.length).any fun i => (upTo ranges.length).any fun j =>
    i != j && (let a := ranges.getD i (0, 0)
      let b := ranges.getD j (0, 0)
      decide (a.1 < b.1 + b.2) && decide (b.1 < a.1 + a.2))
  let badHandle := raw.h.any fun x => match x with
    | some bs => (let h := handleOf (BitVec.ofNat 256 (leNat bs))
      decide (6 ≤ h.kind.toNat) || h.tensor.isNone || h.gsize == 3)
    | none => false
  let checks : List (Byte × Bool) := [
    (0x02, reserved),
    (0x03, (recShape r).isNone || decide (32 < recK r) || n % m != 0 || decide (16 < slotsNeeded n m) ||
      decide (64 < recTags r) || decide (16 < recPats r)),
    (0x04, decide (32 < windows) || decide (248 < recQw r 47 40) || (recQw r 47 40 != 0 && recQw r 59 56 == 0)),
    (0x05, total == 0 || decide (2 ^ 32 < total) || ranges.any (fun x => decide (total < x.1 + x.2)) || overlap),
    (0x06, groupsBad raw),
    (0x07, fpm / 2 ^ 14 != 0 || fpm.testBit 3 || decide (6 ≤ fpm % 8) || cutBits fpm 13 12 == 3 || recQw r 63 60 == 0),
    (0x08, badHandle),
    (0x09, g 16 % 4 != 0 || g 24 % 4 != 0 || g 128 % 4 != 0 || decide (g 160 < g 152) || decide (g 176 < g 168) ||
      [g 160, g 176, g 120, g 128, if args == 0 then g 136 else args.toNat, g 144].any (fun x => decide (2 ^ 56 < x))),
    (0x0A, !ranges.isEmpty && (match recShape r with | some x => (anchors x).isEmpty | none => true))]
  (checks.find? fun c => c.2).map (·.1)

/-- The launch from its record; `args` replaces the constant base when it is not 0 (R363). -/
def launchOf (raw : RawLaunch) (args : DWord) : Launch :=
  let r := raw.recd
  let g := fun (o : Nat) => blockNat r o 8
  let seg := fun (a b : Nat) => ({ base := BitVec.ofNat 56 a, limit := BitVec.ofNat 64 b } : Seg)
  { entry := BitVec.ofNat 56 (g 16), handler := BitVec.ofNat 56 (g 24)
    gx := blockNat r 32 4, gy := blockNat r 36 4, gz := blockNat r 40 4, seed := block32 r 44, ranges := recRanges r
    l := Vector.ofFn fun j => match raw.l.getD j.val none with
      | some bs => layBits (leNat bs)
      | none => Lay.empty.bits
    h := Vector.ofFn fun j => match raw.h.getD j.val none with
      | some bs => BitVec.ofNat 256 (leNat bs)
      | none => 0
    pats := (upTo (recPats r)).map fun i => (upTo 128).map fun j => raw.pats.getD (128 * i + j) 0
    priv := seg (g 120) (g 128), cons := seg (if args == 0 then g 136 else args.toNat) (g 144)
    glob := seg (g 152) (g 160), rem := seg (g 168) (g 176)
    fpm := block32 r 8, tags := recTags r, patn := recPats r, arr := ctl0 r 28 28 == 1, m := recM r, n := recN r, k := recK r
    shape := (recShape r).getD .s11, xretry := BitVec.ofNat 4 (recQw r 63 60), smask := BitVec.ofNat 4 (recQw r 59 56)
    scount := recQw r 47 40, counts := (upTo (recM r)).map (recCount r)
    members := raw.members.filterMap fun m => if m.2.2 == 0 then none else some (m.1, m.2.2) }

/-- The completion operation of a packet (R363), for the kernel or marker that the packet names. -/
def Packet.release (p : Packet) (asid : BitVec 16) (owner : KernelRef) (fail : Bool) : Release :=
  { asid := asid, obj := p.cobj, val := if fail then p.cval ||| BitVec.ofNat 64 (2 ^ 63) else p.cval,
    add := p.hdr.getLsbD 11, owner := some owner }

/-- A launch that fails (R350): the host is notified and the object released, which may wait for a replayable fault (R479). -/
def State.failLaunch (s : State) (k : Kernel) (noAlloc : List Nat) (reason : Byte) : State :=
  ((s.modKernel k.ref fun k => { k with st := .failed }).note (.launchFailed k.ref reason)).releaseLater noAlloc (k.pkt.release k.asid k.ref true)

/-- LAUNCH_LOAD_COMPLETE (R349, R350, R354): the record and its arrays have been read and checked. A page that is not mapped
keeps the kernel in Loading. The answer for a failed launch is that for its release (R479). -/
def execLaunchLoadComplete (k : KernelRef) (noAlloc : List Nat) (s : State) : Result :=
  let noAlloc := s.heard noAlloc
  match s.kernel? k with
  | none => .next s
  | some x =>
    match x.st, s.ctx? x.asid with
    | .loading, some c =>
      match s.readLaunch c noAlloc x.pkt.recd.toNat x.reads with
      | .error (.wait _) reads => .next (s.modKernel k fun k => { k with reads := reads })
      | .error (.hole pa) _ => .fault (.physicalHole pa)
      | .error (.bad _) _ => .next (s.failLaunch x noAlloc 0x01)
      | .ok raw _ =>
        match launchReason raw x.pkt.args with
        | some reason => .next (s.failLaunch x noAlloc reason)
        | none =>
          let left := ((recRanges raw.recd).zip (upTo 4)).filterMap fun r => if r.1.2 == 0 then none else some (r.2, r.1.1, r.1.2)
          .next (s.modKernel k fun k => { k with
            rcd := some (launchOf raw k.pkt.args), left := left, groups := groupTable raw, reads := [],
            st := if left.isEmpty then .ending else .dispatching })
    | .failed, _ => .next (s.retryIf noAlloc fun r => r.owner == some k)
    | _, _ => .next s

/-! ### Resources of a core (R352) -/

def State.freeSlots (s : State) (core : Nat) : List Nat :=
  let used := (s.coreTeams core).flatMap fun t => (s.slots.filter fun x => x.cl == t.cl && x.team == t.rank).map (·.phys)
  (upTo 16).filter fun n => !used.contains n

/-- The launch of a team. -/
def State.launchOfTeam (s : State) (t : Team) : Option Launch :=
  (s.cluster? t.cl).bind fun c => (s.kernel? c.kern).bind (·.rcd)

/-- Where a team of a launch fits on a core: the first unit of its scratchpad and its slots. -/
def State.fitsCore (s : State) (r : Launch) (core : Nat) : Option (Nat × List Nat) :=
  let ts := s.coreTeams core
  let ls := ts.filterMap s.launchOfTeam
  let need := slotsNeeded r.n r.m
  let free := s.freeSlots core
  let taken := fun (u : Nat) => ts.any fun t => decide (t.unit ≤ u) && decide (u < t.unit + t.k)
  if free.length < need || 64 < (ls.map (·.tags)).foldl (· + ·) r.tags || 16 < (ls.map (·.patn)).foldl (· + ·) r.patn ||
      (r.arr && ts.any fun t => t.arr.isSome) then none
  else ((upTo (33 - r.k)).find? fun u => (upTo r.k).all fun i => !taken (u + i)).map fun u => (u, free.take need)

/-- A cluster fits on a list of cores, by rank. -/
def State.fitsCores (s : State) (r : Launch) (cores : List Nat) : Option (List (Nat × List Nat)) := cores.mapM (s.fitsCore r)

/-- The places of a die on which a launch's cluster fits, by absolute core numbers. -/
def State.placesOn (s : State) (r : Launch) (die : Nat) : List (List Nat) :=
  ((anchors r.shape).map fun a => a.map (· + 40 * die)).filter fun a => (s.fitsCores r a).isSome

/-! ### Candidates (R351, R368) -/

/-- A cluster that waits to be placed or resumed. -/
structure Candidate where
  k : KernelRef
  cls : Nat
  order : Nat
  index : Nat
  saved : Option Nat
  deriving DecidableEq, Repr

/-- Before in the order of R368. -/
def Candidate.before (a b : Candidate) : Bool :=
  let ka := (a.cls, if a.saved.isSome then 0 else 1, a.order, a.index)
  let kb := (b.cls, if b.saved.isSome then 0 else 1, b.order, b.index)
  decide (ka.1 < kb.1) || (ka.1 == kb.1 && (decide (ka.2.1 < kb.2.1) || (ka.2.1 == kb.2.1 &&
    (decide (ka.2.2.1 < kb.2.2.1) || (ka.2.2.1 == kb.2.2.1 && decide (ka.2.2.2 < kb.2.2.2))))))

/-- A context whose clusters are placed (R374, R377, R385). -/
def Context.admits (c : Context) : Bool := c.st == .resident || c.st == .running

/-- A saved fibre can be signalled only from outside (R368): every gang waits on an event that comes while it is out. -/
def Fibre.waitsOut (s : State) (f : Fibre) : Bool :=
  f.st == .exited || ((f.st == .parked .waits || f.st == .parked .results) && f.gangs.all fun g => match g.st with
    | .wait (.cmp _ _ _ _ _ left _ armed _ _) => left.all fun x => armed.contains x.1
    | .wait (.bword (.home ..) _ _ _ _) => true
    | .rendezvous _ => true
    | .wait (.group id ..) | .wait (.gred id ..) =>
      match (s.kernel? f.kern).bind fun k => k.group? id with | some e => decide (2 ≤ e.lvl.toNat) | none => false
    | .wait (.counter ..) => true
    | _ => false)

/-- A saved cluster is ready for resumption (R368). -/
def State.resumable (s : State) (c : Cluster) : Bool :=
  c.woken || !((s.fibres.filter fun f => f.ref.cl == c.id).all fun f => f.waitsOut s)

/-- Everything that waits for a place on a die. -/
def State.candidates (s : State) (die : Nat) : List Candidate :=
  s.kernels.flatMap fun k =>
    let ok := match s.ctx? k.asid with | some c => c.admits | none => false
    if !ok then []
    else
      (k.left.filterMap fun x => if x.1 == die && x.2.2 != 0 then
        some { k := k.ref, cls := k.cls, order := k.order, index := x.2.1, saved := none } else none) ++
      (s.clusters.filterMap fun c => if c.kern == k.ref && c.die == die && c.st == .saved && s.resumable c then
        some { k := k.ref, cls := k.cls, order := k.order, index := c.index, saved := some c.id } else none)

/-- Only the first unplaced cluster of a kernel on a die is in `candidates`; those after it are candidates when it does not
fit, and since they need the same resources they do not fit either (R351). -/
def State.candidateFits (s : State) (die : Nat) (c : Candidate) : Bool :=
  match (s.kernel? c.k).bind (·.rcd) with
  | some r => !(s.placesOn r die).isEmpty
  | none => false

/-- The candidates that come before one. -/
def State.aheadOf (s : State) (die : Nat) (c : Candidate) : List Candidate := (s.candidates die).filter fun x => x.before c

/-- A waiting cluster that a placement passes (R351): it was offered earlier, of the same kernel or of one taken earlier, and the placed one is
of an equal or higher class. -/
def Candidate.passes (c x : Candidate) : Bool :=
  x.saved.isNone && decide (c.cls ≤ x.cls) && (decide (x.order < c.order) || (x.k == c.k && decide (x.index < c.index)))

/-- A candidate that a waiting cluster on the die holds back, since it has been passed once (R351). -/
def State.heldBack (s : State) (die : Nat) (c : Candidate) : Bool :=
  (s.candidates die).any fun x => c.passes x && (s.kernel? x.k).any fun k => k.overtaken.contains die

/-- A candidate may be placed (R351, R368): nothing holds it back, and nothing ahead of it could be placed. -/
def State.mayPlace (s : State) (die : Nat) (c : Candidate) : Bool :=
  (s.dies.getD die Die.reset).st == .running && !s.heldBack die c && (s.aheadOf die c).all fun x =>
    !s.candidateFits die x || s.heldBack die x

/-- The clusters of each kernel with an unplaced cluster on the die that a placement passes have now been passed. -/
def State.overtake (s : State) (die : Nat) (c : Candidate) : State :=
  ((s.candidates die).filter c.passes).foldl (fun s x => s.modKernel x.k fun k => { k with overtaken := addOnce k.overtaken die }) s

/-! ### Placement (R348, R352, R353) -/

/-- The first granule of a slot position's private window (R109). -/
def windowBase (counts : List Nat) (pos : Nat) : Nat := ((counts.take pos).map fun c => ceilDiv c 8).foldl (· + ·) 0

/-- sr.quota of a slot position (R109, R111). DESIGN CHOICE: sbase is 0 where no row is shared (log entry 52). -/
def quotaAt (r : Launch) (pos : Nat) : BitVec 32 :=
  { sa := r.smask.getLsbD pos, scount := r.scount, sbase := if r.scount == 0 then 0 else 32 - ceilDiv r.scount 8, plo := 0,
    pbase := windowBase r.counts pos, pcount := r.counts.getD pos 1 : Quota }.bits

/-- A lane's random state at launch (R95). -/
def launchRng (seed : Word) (g lane_ : Nat) : Word := seed ^^^ BitVec.ofNat 32 (0x9E3779B9 * ((g * 32 + lane_) % 2 ^ 32 + 1))

/-- A fibre at its launch (R16, R107, R348, R353). -/
def newFibre (r : Launch) (asid : BitVec 16) (kern : KernelRef) (cl index team slot unit fib : Nat) : Fibre :=
  let g := globalFibre index team fib
  let pos := fib % r.m
  let e := (aget r.members g).getD 0
  let pad := BitVec.ofNat 64 (r.k * 48 * 1024)
  { ref := { cl := cl, team := team, fib := fib }, asid := asid, kern := kern, slot := slot, pos := pos, st := .run
    live := BitVec.allOnes 32, gangs := [{ id := 0, lanes := BitVec.allOnes 32, pc := r.entry, st := .run, count := 0 }], turn := 0
    nextGang := 1, age := 0, s := Vector.replicate 64 0, p := Vector.replicate 7 0, l := r.l, h := r.h
    cb := Vector.replicate 8 0, g := Vector.ofFn fun j => e.extractLsb' (8 * j.val) 8, grp := (e.extractLsb' 32 4).setWidth 32
    quota := quotaAt r pos, fpm := r.fpm, fps := 0, le8s := 0, fp4x := 0, lcd := 0, xretry := r.xretry.setWidth 32, ecause := 0
    emask := 0, epc := 0, eaddr := 0, rng := mkRow (launchRng r.seed g)
    seg := #v[{ base := BitVec.ofNat 56 (r.priv.base.toNat + g * 32 * r.priv.limit.toNat), limit := r.priv.limit },
      { base := BitVec.ofNat 56 (unit * 48 * 1024), limit := pad }, { base := 0, limit := pad }, r.glob, r.cons, r.rem]
    pend := [], out := [], nextOut := 0, hmode := false, hgang := 0, held := [], taking := none, tookAt := 0, replay := [], trapped := none
    posts := [], arrivals := [], cgid := 0, garr := [], loaded := none, noFetch := [], dbgPc := none, sending := [], aside := none }

/-- A slot as a team receives it (R107, R125). DESIGN CHOICE: the fibre of position 0 takes it first (log entry 52). -/
def newSlot (cl team slot : Nat) : Slot :=
  { cl := cl, team := team, slot := slot, phys := slot, holder := none, last := 3, rows := [], pend := [], flags := Vector.replicate 16 0,
    queue := [], bars := Vector.replicate 4 0 }

/-- A team at its placement (R353). -/
def newTeam (r : Launch) (cl rank core unit : Nat) : Team :=
  { cl := cl, rank := rank, core := core, unit := unit, k := r.k, retired := false, pad := [], padTags := [], padPoison := []
    pats := r.pats, tags := 0, jobs := [], arr := if r.arr then some Arr.fresh else none }

/-- What remains of retired units when a team comes to a core. -/
def relicsWithout (core : Nat) (xs : List Relic) : List Relic :=
  let gone := xs.filterMap fun x => match x with | .team t => if t.core == core then some (t.cl, t.rank) else none | .fibre .. | .slot _ => none
  xs.filter fun x => match x with
    | .team t => t.core != core
    | .fibre f _ => !gone.contains (f.ref.cl, f.ref.team)
    | .slot x => !gone.contains (x.cl, x.team)

/-- The L1 gives up the units that a growing scratchpad takes: dirty words are written through and the lines discarded
(R352). -/
def State.giveUp (s : State) (core : Nat) (k : Nat) : State :=
  let old := ((s.coreTeams core).map (·.k)).foldl (· + ·) 0
  let hit := fun (c : Copy) => decide (old ≤ (Config.l1Unit (c.word / 32)).val) &&
    decide ((Config.l1Unit (c.word / 32)).val < old + k)
  let s := s.throughAll ⟨core, core / 40⟩ .dc hit
  { s with copies := s.copies.filter (fun c => !(c.pos == .l1 core && hit c)), relics := relicsWithout core s.relics }

/-- The taking of the packet is an acquire: before the first fibre of the kernel issues on a core, clean lines are discarded
(R367). -/
def State.firstOn (s : State) (k : KernelRef) (core : Nat) : State :=
  match s.kernel? k with
  | some x =>
    if x.seen.contains core then s
    else (s.discard ⟨core, core / 40⟩ .home fun _ => true).modKernel k fun x => { x with
      seen := x.seen ++ [core], cores := addOnce x.cores core }
  | none => s

/-- A cluster takes cores. -/
def State.placeOn (s : State) (r : Launch) (k : Kernel) (index die : Nat) (cores : List Nat) (fit : List (Nat × List Nat)) : State :=
  let id := s.nextId
  let s := cores.foldl (fun s core => (s.giveUp core r.k).firstOn k.ref core) s
  let ranks := (upTo cores.length).map fun q => (q, cores.getD q 0, fit.getD q (0, []))
  let teams := ranks.map fun x => newTeam r id x.1 x.2.1 x.2.2.1
  let slots := ranks.flatMap fun x => x.2.2.2.map fun n => newSlot id x.1 n
  let fibres := ranks.flatMap fun x => (upTo r.n).map fun f =>
    newFibre r k.asid k.ref id index x.1 (x.2.2.2.getD (f / r.m) 0) x.2.2.1 f
  { s with
    nextId := id + 1, teams := s.teams ++ teams, slots := s.slots ++ slots, fibres := s.fibres ++ fibres
    clusters := s.clusters ++ [{ id := id, kern := k.ref, index := index, die := die, shape := r.shape, st := .running,
                                 gran := none, idle := false, woken := false, order := id }] }

/-- A context runs once a cluster of it is placed (R377). -/
def State.contextRuns (s : State) (a : BitVec 16) : State :=
  s.modCtx a fun c => { c with st := if c.st == .resident then .running else c.st }

/-- CLUSTER_PLACE (R351 to R353, R354, R355): a waiting cluster on cores of its die, named by rank. -/
def execClusterPlace (k : KernelRef) (clu : Nat) (cores : List Nat) (s : State) : Result :=
  match s.kernel? k with
  | none => .next s
  | some x =>
    match x.rcd, x.left.find? fun y => y.2.1 == clu && y.2.2 != 0 with
    | some r, some (die, _, _) =>
      let cand : Candidate := { k := k, cls := x.cls, order := x.order, index := clu, saved := none }
      match s.fitsCores r cores with
      | some fit =>
        if (s.candidates die).contains cand && s.mayPlace die cand && (s.placesOn r die).contains cores then
          let s := s.overtake die cand
          let s := (s.placeOn r x clu die cores fit).contextRuns x.asid
          .next (s.modKernel k fun x =>
            let step : Nat × Nat × Nat → Nat × Nat × Nat := fun y => if y.2.1 == clu && y.1 == die then (y.1, y.2.1 + 1, y.2.2 - 1) else y
            let left := (x.left.map step).filter fun y => y.2.2 != 0
            { x with left := left, st := if left.isEmpty then .running else x.st })
        else .next s
      | none => .next s
    | _, _ => .next s

end Sys2Proof.Machine
end

