-- ==== Sys2Proof/Machine/Kernel.lean ====
section
/-! DEFINITION. Waits that end (R337 to R342), pre-emption and resumption of clusters (R355, R358, R359, R368, R369, R394), queues
and the taking of packets (R360 to R366), and posts with QPUSH (R372, R373). -/

namespace Sys2Proof.Machine

open Sys2Proof

/-! ### The end of a wait -/

/-- Where a fibre runs. -/
def State.agentOfFibre (s : State) (f : Fibre) : Agent := s.agentOf f.ref.cl f.ref.team

/-- A gang of a parked fibre can issue again: the fibre leaves its wait, to be ready once its results have returned (R117), and the
turn goes to a gang that can take it. -/
def Fibre.wake (f : Fibre) : Fibre :=
  let f := if f.st == .parked .waits && f.gangs.any f.mayTurn then
    { f with st := if f.out.isEmpty then .run else .parked .results } else f
  if f.gangs.any fun g => g.id == f.turn && f.mayTurn g then f else f.passTurn

/-- A parked fibre becomes ready (R107): its turn lies with a gang that can take it, or it parks at its gangs' waits. -/
def Fibre.ready (f : Fibre) : Fibre :=
  let f := { f with st := .run }
  let f := if f.gangs.any fun g => g.id == f.turn && f.mayTurn g then f else f.passTurn
  f.parkIfIdle

/-- A waiting instruction completes: its writes, its acquire, and what the issue of any other instruction counts at once; its switch
bit acted when it was issued (R117). -/
def State.endWait (s : State) (r : FibreRef) (g : Nat) (ups : List RegUpd) (acq : Option Scope) : State :=
  match s.fibre? r with
  | none => s
  | some f =>
    let s := (s.modFibre r fun f => f.closeWait g).upds f ups
    let s := match acq with | some sc => s.fenceAcq (s.agentOfFibre f) sc | none => s
    s.modFibre r fun f => ((((f.modGang g fun (x : Gang) => { x with st := .run }).advance g 8).afterIssue g false).wake)

/-- The die whose die cache a waiting gang's monitor level is. -/
def State.waitDie (s : State) (f : Fibre) (sc : Scope) : Option Nat :=
  if levelOf sc == .home then none else (s.cluster? f.ref.cl).map (·.die)

/-- The writes of a WAITCMP's destination (R339). -/
def cmpUpds (f : Fibre) (ty : Ty) (d : Nat) (vals : List (Nat × DWord)) : List RegUpd :=
  let m := maskOf fun l => vals.any fun x => x.1 == l
  let at_ := fun (l : Nat) => (aget vals l).getD 0
  let row := fun (n : Nat) (x : Nat → Word) => match quotaRow f.quota n with | some r => [RegUpd.v r m (mkRow x)] | none => []
  row d (fun l => (at_ l).setWidth 32) ++ (if ty.is64 then row (d + 1) (fun l => (at_ l >>> 32).setWidth 32) else [])

/-- The monitors of the words that no unfinished lane of a gang reads are free (R341). -/
def State.freeMonitors (s : State) (r : FibreRef) (g : Nat) (left : List (Nat × VA × Place × DWord)) : State :=
  { s with monitors := s.monitors.filter fun m => m.owner != .gang r g || left.any fun x => x.2.2.1 == m.at_ }

/-- A waiting WAITCMP reads the words of its unfinished lanes again (R339): a lane whose word satisfies is done; an error ends
the wait with a held DataError; when every lane is done the gang goes on. Lanes whose word's home answers with errors keep waiting (R466). -/
def State.reread (s : State) (r : FibreRef) (g : Nat) : State :=
  match s.fibre? r with
  | none => s
  | some f =>
    match f.gangs.find? fun x => x.id == g with
    | some x =>
      match x.st with
      | .wait (.cmp cc ty sc aq d left vals armed dead kills) =>
        let die := s.waitDie f sc
        let there := left.filter fun x => !s.peekGone x.2.2.1 die
        let s := s.syncWords (s.agentOfFibre f) die (if ty.is64 then 8 else 4) there
        match s.waitError die ty there with
        | some t =>
          ((s.disarm r g).modFibre r fun f => { f with held := f.held ++ [⟨.data, t⟩] }).endWait r g [] none
        | none =>
          let (left', new) := s.testLanes die cc ty (there.map (·.1)).contains left
          let vals' := vals ++ new
          if left'.isEmpty then
            (((s.disarm r g).modSlot f fun sl => kills.foldl Slot.kill sl).endWait r g (cmpUpds f ty d vals') (if aq then some sc else none)).orFlags f (if dead then 0x40 else 0) 0
          else (s.freeMonitors r g left').modFibre r fun f =>
            f.modGang g fun (x : Gang) => { x with st := .wait (.cmp cc ty sc aq d left' vals' armed dead kills) }
      | _ => s
    | none => s

/-! ### Conditions of waits -/

/-- The code of a commit group's state (R439). -/
def CgSt.code : CgSt → Nat
  | .open_ => 1
  | .staging => 2
  | .preparing => 3
  | .prepared => 4
  | .hoisted => 5
  | .applied => 6
  | .aborted => 7
  | .torn => 8

/-- The group's entry as a waiting fibre sees it. -/
def State.waitEntry (s : State) (f : Fibre) (id : Nat) : Option Group := (s.kernel? f.kern).bind fun k => k.group? id

/-- A lane of a WAITCMP whose word satisfies at its monitor level, or reads in error there; not one whose home answers with errors (R466). -/
def State.cmpReady (s : State) (f : Fibre) (cc : Cond) (ty : Ty) (sc : Scope) (left : List (Nat × VA × Place × DWord)) : List Nat :=
  let die := s.waitDie f sc
  let n := if ty.is64 then 8 else 4
  (left.filter fun x => !s.peekGone x.2.2.1 die && (s.peekPoison x.2.2.1 die n || cc.holds (asInt ty (BitVec.ofNat 64 (s.peek x.2.2.1 die n))) (asInt ty x.2.2.2))).map (·.1)

/-- A fibre's arrival counter has reached its target (R434): the entry is of its team, armed or, while its cluster is out, saved. -/
def State.counterFull (s : State) (f : Fibre) (id : BitVec 8) : Bool :=
  match s.arrivals.find? fun a => a.asid == f.asid && a.id == id with
  | some a => a.st != .unarmed && a.cl == f.ref.cl && a.rank == f.ref.team &&
      decide (a.tgt.toNat ≤ (BitVec.ofNat 64 (s.padValue a.cl a.rank a.off 8).1 + a.spill).toNat)
  | none => false

/-- What a gang waits for has come about; of a WAITCMP, that one of its monitors fires. -/
def State.waitOver (s : State) (f : Fibre) (w : Wait) : Bool :=
  match w with
  | .arrive id ph | .group id ph _ _ | .gred id ph _ _ => s.phaseOf f.kern id != some ph
  | .released sc => (s.releaseWaits f sc).isEmpty
  | .bword p gen _ _ ended => ended || (let b := s.barAt p; b.1.gen != gen || !b.2)
  | .cmp cc ty sc _ _ left _ armed _ _ => (s.cmpReady f cc ty sc left).any armed.contains
  | .tagsAny _ mask => match s.team? f.ref.cl f.ref.team with | some t => t.tags &&& mask != 0 | none => false
  | .tagsAll mask => match s.team? f.ref.cl f.ref.team with | some t => t.tags &&& mask == mask | none => false
  | .counter _ id _ _ => s.counterFull f (BitVec.ofNat 8 id)
  | .commit cgid st _ => match s.cgs.find? fun x => x.cgid == cgid && x.asid == f.asid with | some x => x.st.code != st | none => true

/-- A fibre's cluster is saved. -/
def State.isOut (s : State) (r : FibreRef) : Bool := match s.cluster? r.cl with | some c => c.st == .saved | none => false

/-- The host learns that a context that is not resident has work, once until it is restored. -/
def State.tellWork (s : State) (c : Context) : State :=
  if (c.st == .created || c.st == .saved) && !c.told then
    (s.modCtx c.asid fun (c : Context) => { c with told := true }).note (.workFor c.asid)
  else s

/-- An event for a saved cluster makes it ready for resumption (R342, R368); the host learns that its context has work when the
context is not resident (R378). -/
def State.wakeOut (s : State) (r : FibreRef) : State :=
  let s := s.modCluster r.cl fun c => { c with woken := true }
  match (s.fibre? r).bind fun f => s.ctx? f.asid with
  | some c => s.tellWork c
  | none => s

/-- A saved cluster for which an event that a gang waits for has come about is ready for resumption (R342, R368). -/
def State.settleOut (s : State) (c : Cluster) : State :=
  if c.st != .saved || c.woken then s
  else match s.fibres.find? fun f => f.ref.cl == c.id && f.gangs.any fun g => match g.st with | .wait w => s.waitOver f w | _ => false with
    | some f => s.wakeOut f.ref
    | none => s

/-- MONITOR_FIRE (R339, R342); on a die whose cores are stopped the gang reads when they go on. -/
def execMonitorFire (f : FibreRef) (g : Nat) (s : State) : Result :=
  if s.monitors.any fun m => m.owner == .gang f g then
    if s.isOut f then .next (s.wakeOut f) else if s.issues f.cl then .next (s.reread f g) else .next s
  else .next s

/-- The waiting lanes of a gang that poll (R341). -/
def State.polls (s : State) (r : FibreRef) (g : Nat) : Bool :=
  match (s.fibre? r).bind fun f => f.gangs.find? fun x => x.id == g with
  | some x => match x.st with
    | .wait (.cmp _ _ _ _ _ left _ armed _ _) => left.any fun y => !armed.contains y.1
    | _ => false
  | none => false

/-- MONITOR_POLL (R341): a fall-back timer expires; a cluster that is out is not polled (R342), nor one whose cores are stopped. -/
def execMonitorPoll (f : FibreRef) (g : Nat) (s : State) : Result :=
  if s.polls f g && s.issues f.cl then .next (s.reread f g) else .next s

/-! ### The save area (R394) -/

/-- Size of a launch's team block in KiB, up to its fibre blocks. -/
def teamHead (r : Launch) : Nat :=
  16 + slotsNeeded r.n r.m * 32 + r.k * 48 + ceilDiv (3 * r.k) 16 * 4 + (if r.arr then 356 else 0)

/-- Size of a launch's team block in KiB. -/
def teamBlock (r : Launch) : Nat := teamHead r + r.n * 36

/-- Size of a launch's cluster block in granules of 64 KiB. -/
def granulesOf (r : Launch) : Nat := ceilDiv (4 + r.shape.teams * teamBlock r) 64

/-- The tag bits of a scratchpad's 8-byte words, in order (R331). -/
def tagImage (t : Team) (n : Nat) : List Byte :=
  (upTo n).map fun i => BitVec.ofNat 8 ((upTo 8).foldl (fun a j => if t.padTags.contains (8 * i + j) then a + 2 ^ j else a) 0)

/-- A team block up to its fibre blocks, for an address: pattern tables, scratchpad and tag bits as they are, reserved bytes 0, and
what the device encodes for itself. -/
def State.teamBytes (s : State) (r : Launch) (t : Team) (pa : Nat) : List Byte :=
  let own := fun (at_ kib : Nat) => (upTo (kib * 1024)).map fun i => Config.saveByte s.ticks (pa + at_ * 1024 + i)
  let slots := slotsNeeded r.n r.m * 32
  let tags := ceilDiv (3 * r.k) 16 * 4
  let pats := (t.pats.flatten ++ List.replicate 2048 0).take 2048
  own 0 8 ++ pats ++ List.replicate (6 * 1024) 0 ++ own 16 slots ++ bytesAt t.pad 0 (r.k * 48 * 1024) ++ tagImage t (tags * 1024) ++
    (if r.arr then own (16 + slots + r.k * 48 + tags) 356 else [])

/-- A team's block is written at an address of the save area, its fibre blocks as R391 lays them out. -/
def State.saveTeam (s : State) (r : Launch) (t : Team) (pa : Nat) : State :=
  let s' := s.putHomeBytes pa (s.teamBytes r t pa)
  (s.fibres.filter fun f => f.ref.cl == t.cl && f.ref.team == t.rank).foldl (fun s' f =>
    match s.slot? f with
    | some sl =>
      let at_ := pa + teamHead r * 1024 + f.ref.fib * 0x9000
      (blockWords { f with hmode := false } sl (Config.contextCode (s.ticks + f.ref.fib))).foldl (fun s' w =>
        s'.putHomeBytes (at_ + w.1) (leBytes 4 w.2.toNat)) s'
    | none => s') s'

/-- A saved cluster's entry of the save directory (R394). -/
def State.putEntry (s : State) (c : Cluster) (save : Nat) (x : BitVec 128) : State := s.putHomeBytes (save + 16 * c.dir) (leBytes 16 x.toNat)

/-- The cluster's directory entry and granules are written: the cluster header, then its teams in the order of their ranks (R394). -/
def State.saveImage (s : State) (c : Cluster) : State :=
  match s.kernel? c.kern, c.gran with
  | some k, some run =>
    match k.rcd, s.ctx? k.asid with
    | some r, some x =>
      let pa := x.savebase + (1 + run.1) * 2 ^ 16
      let s := s.putEntry c x.savebase (Config.dirEntry k.ref.q k.ref.pkt c.index run.1 run.2)
      let s' := s.putHomeBytes pa ((upTo 4096).map fun i => Config.saveByte s.ticks (pa + i))
      let s' := (s.teams.filter fun t => t.cl == c.id).foldl (fun s' t =>
        s'.saveTeam r t (pa + (4 + t.rank * teamBlock r) * 1024)) s'
      { s' with poison := s'.poison.filter fun w => !(decide (pa ≤ 4 * w) && decide (4 * w < pa + run.2 * 2 ^ 16)) }
    | _, _ => s
  | _, _ => s

/-- The clusters of a context that hold granules. -/
def State.heldRuns (s : State) (a : BitVec 16) : List (Nat × Nat) :=
  s.clusters.filterMap fun c => match s.kernel? c.kern with
    | some k => if k.asid == a then c.gran else none
    | none => none

/-- The first free run of granules in a context's pool; at most 4,096 clusters are saved. -/
def State.freeRun (s : State) (c : Context) (n : Nat) : Option Nat :=
  let runs := s.heldRuns c.asid
  if 4096 ≤ runs.length then none
  else (upTo (c.savesize / 2 ^ 16 - n)).find? fun i => runs.all fun r => decide (i + n ≤ r.1) || decide (r.1 + r.2 ≤ i)

/-! ### Pre-emption (R355, R369) -/

/-- The first entry of a context's save directory that no cluster of it holds. -/
def State.freeEntry (s : State) (a : BitVec 16) : Nat :=
  let held := s.clusters.filterMap fun c => if c.gran.isSome && (s.kernel? c.kern).any (fun k => k.asid == a) then some c.dir else none
  ((upTo 4096).find? fun i => !held.contains i).getD 0

def State.kernelOf (s : State) (c : Cluster) : Option Kernel := s.kernel? c.kern

/-- The run that a cluster would receive. -/
def State.runFor (s : State) (c : Cluster) : Option (Nat × Nat) := do
  let k ← s.kernelOf c
  let r ← k.rcd
  let x ← s.ctx? k.asid
  let i ← s.freeRun x (granulesOf r)
  some (i, granulesOf r)

/-- The state once the pre-emptions in progress have returned their resources. -/
def State.afterSaves (s : State) : State :=
  let u : Cluster → Cluster := fun c => if c.st == .preempting then { c with st := .saved } else c
  { s with clusters := s.clusters.map u }

/-- A candidate of a class that has no place on a die even after the pre-emptions in progress. -/
def State.starved (s : State) (die : Nat) (p : Candidate → Bool) : Bool :=
  let later := s.afterSaves
  (s.candidates die).any fun c => p c && !later.candidateFits die c

/-- The victim of a class-0 cluster on a die: lowest class first, then latest placed (R369). -/
def State.victim (s : State) (die : Nat) : Option Cluster :=
  let able := s.clusters.filter fun c => c.st == .running && c.die == die && (s.runFor c).isSome &&
    match s.kernelOf c with | some k => decide (1 ≤ k.cls) | none => false
  let cls := fun (c : Cluster) => match s.kernelOf c with | some k => k.cls | none => 0
  able.foldl (fun best c => match best with
    | none => some c
    | some b => if cls b < cls c || (cls b == cls c && b.order < c.order) then some c else some b) none

/-- The reason for a pre-emption holds. -/
def State.mayPreempt (s : State) (c : Cluster) : PreemptWhy → Bool
  | .class0 => s.starved c.die (fun x => x.cls == 0) && (s.victim c.die).map (·.id) == some c.id
  | .parked => c.idle && s.starved c.die fun _ => true
  | .evict => match (s.kernelOf c).bind fun k => s.ctx? k.asid with | some x => x.evict && (x.st == .preempting || x.st == .faulted) | none => false
  | .quiesce => (s.dies.getD c.die Die.reset).st == .quiescing

/-- PREEMPT_REQUEST (R355, R369, R377, R465): issue stops at an instruction boundary in every fibre of the cluster. On a halted
die it waits for the end of the halt. When an evicted cluster can have no run of granules, CTXEVICT fails. -/
def execPreemptRequest (cl : Nat) (why : PreemptWhy) (s : State) : Result :=
  match s.cluster? cl with
  | none => .next s
  | some c =>
    if c.st != .running || (s.dies.getD c.die Die.reset).halted || !s.mayPreempt c why then .next s
    else match s.runFor c with
      | some run =>
        let dir := ((s.kernelOf c).map fun k => s.freeEntry k.asid).getD 0
        .next (s.modCluster cl fun c => { c with st := .preempting, gran := some run, dir := dir })
      | none =>
        match why, (s.kernelOf c).bind fun k => s.ctx? k.asid with
        | .evict, some x =>
          .next ((s.modCtx x.asid fun x => { x with
            evict := false, st := if x.st == .preempting then .running else x.st }).note (.answer .refused []))
        | _, _ => .next s

/-- The fibre is parked, with each of its gangs at one of the waits of R345, BARV's for its release among them, or at a rendezvous beside such a
gang. -/
def Fibre.parkedLong (f : Fibre) : Bool :=
  (f.st == .parked .waits || f.st == .parked .results) && f.gangs.all fun g => match g.st with
    | .wait (.group ..) | .wait (.released _) | .wait (.bword ..) | .wait (.cmp ..) | .wait (.counter ..) | .wait (.tagsAll _) => true
    | .rendezvous _ => true
    | _ => false

def State.clusterFibres (s : State) (cl : Nat) : List Fibre := s.fibres.filter fun f => f.ref.cl == cl

/-- PARKED_CLUSTER_TIMEOUT (R369): 16,384 core cycles have passed since the last live fibre of the cluster parked. -/
def execParkedClusterTimeout (cl : Nat) (s : State) : Result :=
  match s.cluster? cl with
  | none => .next s
  | some c =>
    let live := (s.clusterFibres cl).filter fun f => f.st != .exited
    if c.st == .running && !live.isEmpty && live.all Fibre.parkedLong then
      .next (s.modCluster cl fun c => { c with idle := true })
    else .next s

/-! ### Save and resumption (R108, R302, R317, R358, R359) -/

/-- Nothing of a fibre's remains that a save does not hold: every result that writes a register has returned, every deferred
post and arrival is applied; matrix instructions in array order are checkpointed (R302), and waits are saved as they are. -/
def State.fibreSettled (s : State) (f : Fibre) : Bool :=
  let cmds : List Nat := match (s.team? f.ref.cl f.ref.team).bind (·.arr) with | some a => a.queue.map (fun x => x.id) | none => []
  f.posts.isEmpty && f.arrivals.isEmpty && f.taking.isNone && (s.openRequests f.ref).isEmpty &&
    f.out.all fun o => o.waiter.isSome ||
      (o.rows.isEmpty && o.regs.isEmpty && !o.remote.isEmpty && o.remote.all fun i => cmds.contains i || s.aborts.any fun a => a.id == i)

/-- A team's array is at a checkpoint (R302). -/
def Team.arraySettled (t : Team) : Bool := t.arr.all Arr.settled

/-- The jobs of a team are at an element boundary, none Landed (R317). -/
def Team.jobsSettled (t : Team) : Bool := t.jobs.all fun j => j.st != .landed && j.req.isNone

def State.clusterTeams (s : State) (cl : Nat) : List Team := s.teams.filter fun t => t.cl == cl

/-- The save can complete. -/
def State.canSave (s : State) (cl : Nat) : Bool :=
  (s.clusterFibres cl).all s.fibreSettled && (s.clusterTeams cl).all fun t => t.jobsSettled && t.arraySettled

/-- The arrival entries of a cluster's teams (R421). -/
def Arrival.ownedBy (a : Arrival) (cl : Nat) : Bool := a.cl == cl && a.st != .unarmed

/-- A context no cluster of which is placed, nor any kernel of which is Loading. -/
def State.quiet (s : State) (a : BitVec 16) : Bool :=
  !(s.clusters.any fun c => c.placed && match s.kernelOf c with | some k => k.asid == a | none => false) &&
    !(s.kernels.any fun k => k.asid == a && k.st == .loading)

/-- Running becomes Resident when no cluster is placed, and Pre-empting becomes Saved with the ASID's translations and bindings
dropped and its resident index free; a context that became Faulted meanwhile stays so once its clusters are saved, and its
CTXEVICT is refused (R377). -/
def State.settleContext (s : State) (a : BitVec 16) : State :=
  match s.ctx? a with
  | none => s
  | some c =>
    let placed := s.clusters.any fun x => x.placed && match s.kernelOf x with | some k => k.asid == a | none => false
    match c.st with
    | .running => if placed then s else s.modCtx a fun c => { c with st := .resident }
    | .preempting =>
      if s.quiet a then
        let s := (s.dropXlat a none none).modCtx a fun c => { c with st := .saved, ridx := none, evict := false }
        ({ s with binds := s.binds.filter fun x => x.2.asid != a } : State).note (.answer .success [])
      else s
    | .faulted =>
      if c.evict && s.quiet a then (s.modCtx a fun c => { c with evict := false }).note (.answer .refused []) else s
    | _ => s

/-- CLUSTER_SAVE_COMPLETE (R355, R358, R394, R421): dirty words of the L1s go to the die cache, the cluster's granules are written
and the resources are returned. -/
def execClusterSaveComplete (cl : Nat) (s : State) : Result :=
  match s.cluster? cl with
  | none => .next s
  | some c =>
    if c.st == .preempting && s.canSave cl then
      let s := (s.clusterTeams cl).foldl (fun s t => s.throughAll ⟨t.core, c.die⟩ .dc fun _ => true) s
      let s := s.saveImage c
      let fib : Fibre → Fibre := fun f =>
        if f.ref.cl == cl && f.st == .parked .results && f.live != 0 && f.out.all (·.waiter.isNone) then f.ready else f
      let stale : Team → Team := fun t => if t.cl == cl then { t with
        arr := t.arr.map fun a => { a with queue := a.queue.map fun c => { c with stale := true } } } else t
      let slot : Slot → Slot := fun x => if x.cl == cl then { x with holder := none } else x
      let arr : Arrival → Arrival := fun a => if a.ownedBy cl then { a with st := .saved } else a
      let s := ({ s with fibres := s.fibres.map fib, teams := s.teams.map stale, slots := s.slots.map slot, arrivals := s.arrivals.map arr } : State).modCluster cl
        fun c => { c with st := .saved, woken := false, idle := false }
      .next (match s.kernelOf c with | some k => s.settleContext k.asid | none => s)
    else .next s

/-- The slots of a team move to others of the core, in order; sr.slot keeps its value (R20). -/
def State.renumber (s : State) (cl team : Nat) (slots : List Nat) : State :=
  let old := (s.slots.filter fun x => x.cl == cl && x.team == team).map (·.phys)
  let new := fun (n : Nat) => slots.getD (old.idxOf n) n
  let u : Slot → Slot := fun x => if x.cl == cl && x.team == team then { x with phys := new x.phys } else x
  { s with slots := s.slots.map u }

/-- A team's place after resumption: its core, its scratchpad and the team segment base of its fibres (R359). -/
def State.moveTeam (s : State) (cl rank core unit : Nat) (slots : List Nat) : State :=
  let s := (s.renumber cl rank slots).modTeam cl rank fun t => { t with
    core := core, unit := unit, jobs := t.jobs.map fun j => { j with buf := [] } }
  let w : Fibre → Fibre := fun f => if f.ref.cl == cl && f.ref.team == rank then
    { f with seg := f.seg.set 1 { (f.segment 1) with base := BitVec.ofNat 56 (unit * 48 * 1024) } } else f
  { s with fibres := s.fibres.map w }

/-- The counts received while a cluster was out go to their words (R421). -/
def State.rearm (s : State) (cl : Nat) : State :=
  (s.arrivals.filter fun a => a.cl == cl && a.st == .saved).foldl (fun s a =>
    let x := BitVec.ofNat 64 (s.padValue cl a.rank a.off 8).1 + a.spill
    let u : Arrival → Arrival := fun b => if b.asid == a.asid && b.id == a.id then { b with st := .armed, spill := 0 } else b
    ({ s with arrivals := s.arrivals.map u } : State).putPad cl a.rank a.off (leBytes 8 x.toNat)) s

/-- Every waiting WAITCMP of a cluster reads its words again (R342, R359). -/
def State.rereadAll (s : State) (cl : Nat) : State :=
  (s.clusterFibres cl).foldl (fun s f => f.gangs.foldl (fun s g => s.reread f.ref g.id) s) s

/-- A core discards the clean lines of its L1, those of replicated pages too (R359). -/
def State.dropClean (s : State) (core : Nat) : State := { s with copies := s.copies.filter fun c => !(!c.dirty && c.near core) }

/-- CLUSTER_RESUME (R355, R359, R368). -/
def execClusterResume (cl : Nat) (cores : List Nat) (s : State) : Result :=
  match s.cluster? cl with
  | none => .next s
  | some c =>
    match s.kernelOf c with
    | none => .next s
    | some k =>
      match k.rcd with
      | none => .next s
      | some r =>
        let cand : Candidate := { k := k.ref, cls := k.cls, order := k.order, index := c.index, saved := some cl }
        match s.fitsCores r cores with
        | some fit =>
          if (s.candidates c.die).contains cand && s.mayPlace c.die cand && (s.placesOn r c.die).contains cores then
            let s := s.overtake c.die cand
            let s := cores.foldl (fun s core =>
              ((s.giveUp core r.k).firstOn k.ref core).dropClean core) s
            let s := (upTo cores.length).foldl (fun s q =>
              let x := fit.getD q (0, [])
              s.moveTeam cl q (cores.getD q 0) x.1 x.2) s
            let s := match s.ctx? k.asid with | some x => s.putEntry c x.savebase 0 | none => s
            let s := s.modCluster cl fun c => { c with st := .running, gran := none, woken := false, idle := false }
            .next (((s.rearm cl).contextRuns k.asid).rereadAll cl)
          else .next s
        | none => .next s

/-! ### Queues (R360 to R362) -/

def State.queue (s : State) (q : Nat) : Queue := s.queues.getD q Queue.reset

def State.modQueue (s : State) (q : Nat) (u : Queue → Queue) : State :=
  if h : q < 64 then { s with queues := s.queues.set q (u s.queues[q]) } else s

/-- The producer and consumer indices, read at home. -/
def State.indices (s : State) (c : Context) (x : Queue) : Except ReadEnd (Nat × Nat) := do
  let p ← s.homeRead c [] x.pva.toNat 8
  let k ← s.homeRead c [] x.cva.toNat 8
  pure (leNat p, leNat k)

/-- Write bytes of a mapped range at home, whole 4-byte words from a word boundary, within one frame. -/
def State.homeWrite (s : State) (c : Context) (va : Nat) (bs : List Byte) : Except ReadEnd State := do
  let m ← s.homePlace c [] va .none
  if s.gone (some m.die) m.pa then .error (.bad m.pa)
  let s := (upTo (bs.length / 4)).foldl (fun s i =>
    s.putHomeAs m.key (m.pa / 4 + i) (BitVec.ofNat 32 (leNat ((bs.drop (4 * i)).take 4))) false) s
  pure (if m.cp then s.writeBlock m.die m.pa else s)

/-- An index word of the device's own. -/
def State.writeIndex (s : State) (c : Context) (va : VA) (x : Nat) : Except ReadEnd State :=
  s.homeWrite c va.toNat (leBytes 8 x)

/-- The producer index is outside what the ring can hold (R362). -/
def Queue.badIndex (x : Queue) (p c : Nat) : Bool := decide (p < c) || decide (c + 2 ^ x.lsz < p)

/-! ### Packets (R363, R365, R366) -/

/-- The packet in 128 bytes. -/
def packetOf (b : List Byte) : Packet :=
  { hdr := block64 b 0, recd := block64 b 8, cobj := block64 b 16, cval := block64 b 24
    deps := (upTo 4).map fun j => (block64 b (32 + 16 * j), block64 b (40 + 16 * j)), args := block64 b 96 }

def Packet.kind (p : Packet) : Nat := (p.hdr.extractLsb' 0 4).toNat
def Packet.cls (p : Packet) : Nat := (p.hdr.extractLsb' 4 2).toNat
def Packet.nd (p : Packet) : Nat := (p.hdr.extractLsb' 8 3).toNat
def Packet.ord (p : Packet) : Bool := p.hdr.getLsbD 12

/-- A malformed head (R365). -/
def packetBad (b : List Byte) : Bool :=
  let p := packetOf b
  decide (3 ≤ p.kind) || decide (4 < p.nd) || p.hdr.extractLsb' 20 44 != 0 || p.hdr.extractLsb' 13 3 != 0 ||
    p.hdr.extractLsb' 6 2 != 0 || blockNat b 104 24 != 0 || (p.kind == 2 && p.recd != 0) || p.cobj.toNat % 8 != 0 ||
    (p.deps.take p.nd).any fun d => d.1.toNat % 8 != 0

/-- Kernels of a queue that have not retired. -/
def Kernel.over (k : Kernel) : Bool := k.st == .failed || k.st == .retired
def State.queueBusy (s : State) (q : Nat) : Bool :=
  s.kernels.any (fun k => k.ref.q == q && !k.over) || s.releases.any fun r => r.owner.any fun k => k.q == q

/-- The words that the device watches for a queue (R362, R365): the producer word, and of an untaken head its header and the dependence
objects not yet seen satisfied. -/
def State.watched (s : State) (c : Context) (x : Queue) : List Place :=
  let at_ := fun (va : Nat) => match s.homePlace c [] va .none with | .ok m => some (Place.home m.pa m.die m.key m.cp) | .error _ => none
  let head := match s.indices c x with
    | .ok (p, k) => if k < p then some (x.rva.toNat + 128 * (k % 2 ^ x.lsz)) else none
    | .error _ => none
  let deps := match head with
    | some slot => match s.homeRead c [] slot 128 with
      | .ok b => (upTo (packetOf b).nd).filterMap fun j => if x.met.contains j then none else some ((packetOf b).deps.getD j (0, 0)).1.toNat
      | .error _ => []
    | none => []
  (x.pva.toNat :: head.toList ++ deps).filterMap at_

/-- A queue's monitors follow what it watches while it is Active (R341, R365): they are armed while a slice has one free, and freed. In Error
and Draining they stay as they are; they are free when the queue is Disabled (R362). -/
def State.watch (s : State) (q : Nat) : State :=
  let x := s.queue q
  if x.st == .error || x.st == .draining then s
  else
    let want := match x.st, s.ctx? x.asid with | .active, some c => s.watched c x | _, _ => []
    let s := { s with monitors := s.monitors.filter fun m => m.owner != .queue q || want.contains m.at_ }
    want.foldl (fun s p =>
      if (s.monitors.any fun m => m.owner == .queue q && m.at_ == p) || 2048 ≤ s.monitorsAt p none then s
      else { s with monitors := s.monitors ++ [{ at_ := p, die := p.slotDie none, home := true, owner := .queue q }] }) s

/-- QUEUE_PRODUCER_WRITE (R362): the producer word is read. -/
def execQueueProducerWrite (q : Nat) (s : State) : Result :=
  let x := s.queue q
  match x.st, s.ctx? x.asid with
  | .active, some c =>
    match s.indices c x with
    | .ok (p, k) =>
      if x.badIndex p k then .next ((s.modQueue q fun x => { x with st := .error }).note (.queueError q p k))
      else .next ((if k < p then s.tellWork c else s).watch q)
    | .error (.hole pa) => .fault (.physicalHole pa)
    | .error _ => .next s
  | _, _ => .next s

/-- The dependences observed satisfied now, or the error that one meets (R365). -/
def State.observe (s : State) (c : Context) (noAlloc : List Nat) (p : Packet) (met : List Nat) : Except ReadEnd (List Nat) :=
  (upTo p.nd).foldlM (fun met j =>
    if met.contains j then pure met
    else
      let d := p.deps.getD j (0, 0)
      match s.homeRead c noAlloc d.1.toNat 8 with
      | .ok bs =>
        let x := leNat bs
        let sat := if p.hdr.getLsbD (16 + j) then x == d.2.toNat else decide (d.2.toNat ≤ x)
        pure (if sat then met ++ [j] else met)
      | .error (.wait _) => pure met
      | .error e => .error e) met

/-- The head leaves the ring: its kind becomes 0 and the consumer index rises (R366). -/
def State.leaveRing (s : State) (c : Context) (x : Queue) (slot : Nat) (k : Nat) (hdr : DWord) : Except ReadEnd State := do
  let s ← s.homeWrite c slot (leBytes 4 (hdr.toNat % 2 ^ 32 / 16 * 16))
  s.writeIndex c x.cva (k + 1)

/-- The taking of a packet whose head has left the ring (R366): a marker's object is released, which may wait (R479); a launch's kernel is
Loading. -/
def State.takePacket (s : State) (x : Queue) (noAlloc : List Nat) (ref : KernelRef) (pkt : Packet) : State :=
  if pkt.kind == 2 then s.releaseLater noAlloc (pkt.release x.asid ref false)
  else
    let new : Kernel := {
      ref := ref, asid := x.asid, cls := max pkt.cls x.cap, pkt := pkt, rcd := none, st := .loading, left := [], cores := []
      seen := [], groups := [], order := s.nextId, overtaken := [], reads := [] }
    { s with kernels := s.kernels ++ [new], nextId := s.nextId + 1 }

/-- The head of a queue as it stands: its index, slot and bytes, if there is one. -/
def State.headOf (s : State) (c : Context) (x : Queue) : Except ReadEnd (Option (Nat × Nat × List Byte)) := do
  let (p, k) ← s.indices c x
  if decide (p ≤ k) || x.badIndex p k then pure none
  else
    let slot := x.rva.toNat + 128 * (k % 2 ^ x.lsz)
    pure (some (k, slot, ← s.homeRead c [] slot 128))

/-- PACKET_TAKE (R365, R366): the head is observed, and taken when all holds. The answer of the memory processor serves the releases of
the queue that wait, too (R479). -/
def execPacketTake (q : Nat) (noAlloc : List Nat) (s : State) : Result :=
  let noAlloc := s.heard noAlloc
  let s := if noAlloc.isEmpty then s else s.retryIf noAlloc fun r => r.owner.any fun k => k.q == q
  let x := s.queue q
  match x.st, s.ctx? x.asid with
  | .active, some c =>
    if !c.admits then .next s
    else
      let fail := fun (s : State) (k : Nat) => .next (((s.modQueue q fun x => { x with st := .error }).note (.packetError q k)).watch q)
      match s.headOf c x with
      | .error (.hole pa) => .fault (.physicalHole pa)
      | .error _ | .ok none => .next s
      | .ok (some (k, slot, b)) =>
        let pkt := packetOf b
        if pkt.kind == 0 then .next s
        else if packetBad b then fail s k
        else match s.observe c noAlloc pkt x.met with
          | .error (.hole pa) => .fault (.physicalHole pa)
          | .error _ => fail s k
          | .ok met =>
            let s1 := s.modQueue q fun x => { x with met := met }
            let ref : KernelRef := ⟨q, k, s.nextId⟩
            if !((upTo pkt.nd).all met.contains) || (pkt.ord && s.queueBusy q) then .next (s1.watch q)
            else match s1.leaveRing c x slot k pkt.hdr with
              | .ok s2 => .next (((s2.modQueue q fun x => { x with met := [] }).takePacket x noAlloc ref pkt).watch q)
              | .error (.hole pa) => .fault (.physicalHole pa)
              | .error _ => .next (s1.watch q)
  | _, _ => .next s

/-! ### Queue commands (R360, R362, R371) -/

/-- The range lies on mapped HBM pages that are pinned (R203, R360). -/
def State.pinnedHbm (s : State) (c : Context) (va n : Nat) : Bool :=
  (frameRuns va n).all fun x => c.pins.contains (x.1 / 2 ^ 16) && match s.homePlace c [] x.1 .none with
    | .ok m => m.hbm
    | .error _ => false

def State.answer (s : State) (ok : Bool) (data : List DWord := []) : State :=
  s.note (.answer (if ok then .success else .refused) data)

/-- A mailbox command: port die 0 serves it while it runs (R468). -/
def mailbox (f : State → Result) (s : State) : Result := if s.portRuns 0 then f s else .next s

/-- QCREATE (R360). -/
def execQcreate (q : Nat) (asid : BitVec 16) (lsz : BitVec 4) (cap : BitVec 2) (rva pva cva : VA) (s : State) : Result :=
  mailbox (fun s =>
    match s.ctx? asid with
    | none => .next (s.answer false)
    | some c =>
      let n := 128 * 2 ^ lsz.toNat
      let ok := decide (q < 64) && (s.queue q).st == .disabled && decide (4 ≤ lsz.toNat) && rva.toNat % n == 0 &&
        pva.toNat % 8 == 0 && cva.toNat % 8 == 0 && c.st != .closed && s.pinnedHbm c rva.toNat n && s.pinnedHbm c pva.toNat 8 &&
        s.pinnedHbm c cva.toNat 8
      if !ok then .next (s.answer false)
      else match (do (← s.writeIndex c pva 0).writeIndex c cva 0 : Except ReadEnd State) with
        | .ok s' =>
          .next ((s'.modQueue q fun _ => { cva := cva, pva := pva, rva := rva, asid := asid, lsz := lsz.toNat, cap := cap.toNat,
                                           st := .active, met := [] }).watch q |>.answer true)
        | .error _ => .next (s.answer false)) s

/-- A queue drains until every kernel taken from it has retired (R362). -/
def State.settleQueue (s : State) (q : Nat) : State :=
  if (s.queue q).st == .draining && !s.queueBusy q then (s.modQueue q fun _ => Queue.reset).watch q else s

/-- QDESTROY (R362). -/
def execQdestroy (q : Nat) (s : State) : Result :=
  mailbox (fun s =>
    let x := s.queue q
    if x.st == .active || x.st == .error then
      .next (((s.modQueue q fun x => { x with st := .draining }).settleQueue q).answer true)
    else .next (s.answer false)) s

/-- QRESET (R362): the untaken packets are discarded. -/
def execQreset (q : Nat) (s : State) : Result :=
  mailbox (fun s =>
    let x := s.queue q
    match x.st, s.ctx? x.asid with
    | .error, some c =>
      match (do
          let p ← s.homeRead c [] x.pva.toNat 8
          s.writeIndex c x.cva (leNat p) : Except ReadEnd State) with
      | .ok s' => .next (((s'.modQueue q fun x => { x with st := .active, met := [] }).watch q).answer true)
      | .error (.hole pa) => .fault (.physicalHole pa)
      | .error _ => .next (s.answer false)
    | _, _ => .next (s.answer false)) s

/-- ACLSET (R371). -/
def execAclset (i : Nat) (v : Bool) (sdev sasid : BitVec 16) (cap : BitVec 2) (qmask : DWord) (s : State) : Result :=
  mailbox (fun s =>
    if i < 512 then
      .next (({ s with acl := aset s.acl i { v := v, sdev := sdev, sasid := sasid, cap := cap, qmask := qmask } } : State).answer true)
    else .next (s.answer false)) s

/-! ### Posts (R361, R364, R373) -/

def postFull : DWord := BitVec.ofNat 64 (2 ^ 63 + 1)
def postInactive : DWord := BitVec.ofNat 64 (2 ^ 63 + 2)
def postEmpty : DWord := BitVec.ofNat 64 (2 ^ 63 + 3)

/-- A post at the producer word's home, as one action (R373): the state and the status. A ring whose pages the context no longer
maps takes no packet (log entry 26). -/
def State.post (s : State) (q : Nat) (img : List Byte) : State × DWord :=
  let x := s.queue q
  if (packetOf img).kind == 0 then (s, postEmpty)
  else match x.st, s.ctx? x.asid with
    | .active, some c =>
      match (do
          let (p, k) ← s.indices c x
          if k + 2 ^ x.lsz ≤ p then return (s, postFull)
          let s' ← s.homeWrite c (x.rva.toNat + 128 * (p % 2 ^ x.lsz)) img
          let s' ← s'.writeIndex c x.pva (p + 1)
          return (s'.tellWork c, BitVec.ofNat 64 p) : Except ReadEnd (State × DWord)) with
      | .ok r => r
      | .error _ => (s, postInactive)
    | _, _ => (s, postInactive)

/-- The first of the words and slot that a post would access whose home answers with errors (R466). -/
def State.postLost (s : State) (q : Nat) (img : List Byte) : Option Nat :=
  let x := s.queue q
  match x.st, s.ctx? x.asid with
  | .active, some c =>
    if (packetOf img).kind == 0 then none
    else
      let p := match s.indices c x with | .ok (p, _) => p | .error _ => 0
      [x.pva.toNat, x.cva.toNat, x.rva.toNat + 128 * (p % 2 ^ x.lsz)].find? fun va =>
        match s.homePlace c [] va .none with | .ok m => s.gone (some m.die) m.pa | .error _ => false
  | _, _ => none

/-- A scalar destination that stays pending while its instruction waits to be issued again (R116, R373). -/
def View.holdDst (v : View) (s : State) (d : Nat) : State :=
  s.modFibre v.f.ref fun f => { f with
    pend := addOnce f.pend (.s d)
    replay := { gang := v.iss.gang, pc := v.iss.pc, done := 0, upds := [], rows := [], regs := [.s d], noAlloc := [], err := none, mute := false } ::
      f.replay.filter fun x => x.gang != v.iss.gang }

/-- The image of a post: the checks, the release, then the load (R372, R373); D is pending while the release waits. -/
def View.postImage (v : View) (s : State) (sp : Space) (d : BitVec 6) (b : BitVec 8) (sc : Scope) (ok : Bool) (rep : Option Replay) :
    Chk (State × List Byte × Option TrapRec × List Nat) := do
  let addr := v.wideAddr sp b
  let (_, _, _, frames) ← v.wideLoad s sp addr 128 128 rep
  if !frames.isEmpty then return (s, [], none, frames)
  v.require .queueAccess ok
  if !(s.releaseWaits v.f sc).isEmpty then .error (.wait (v.holdDst s d.toNat) (.released sc))
  v.wideLoad (s.fenceRel v.agent sc) sp addr 128 128 rep

/-- QPUSH (R372, R373). -/
def execQpush (sw : Bool) (sp : Space) (d : BitVec 6) (a b : BitVec 8) (s : State) : Result :=
  issueMem sw 8 (fun v => useS a v.g.lanes ++ useS b v.g.lanes ++ defS d.toNat v.g.lanes) (fun v s rep => do
    let q := ((v.sval a).setWidth 6).toNat
    let x := s.queue q
    let ok := x.st != .disabled && x.st != .draining && x.asid == v.f.asid
    let (s, img, err, frames) ← v.postImage s sp d b .device ok rep
    if !frames.isEmpty then return frozen s frames
    if err.isSome then return ({ s := s, now := [], held := [], out := some { Out.of [.s d.toNat 0] with err := err }, done := 0 }, [])
    let lost := (s.postLost q img).bind fun va => dataErr ((lanesOf v.g.lanes).map fun l => (l, va)) v.g.lanes
    if lost.isSome then return ({ s := s, now := [], held := [], out := some { Out.of [.s d.toNat 0] with err := lost }, done := 0 }, [])
    let (s, status) := s.post q img
    pure ({ s := s, now := [], held := [], out := some (Out.of [.s d.toNat status]), done := 0 }, [])) s

end Sys2Proof.Machine
end

