-- ==== Sys2Proof/Machine/Ingress.lean ====
section
/-! DEFINITION. The Halyard ingress (21_link.md R412 to R422, R371, R373): admission, the reply cache, remote accesses at their
home, arrival counters, and what a record of a commit group does at its destination (R442); and the host's accesses (R428). -/

namespace Sys2Proof.Machine

open Sys2Proof

/-! ### Home memory as agents beside the fibres reach it -/

/-- A word of a byte range is tagged (R333). -/
def State.tagsIn (s : State) (pa n : Nat) : Bool := s.tags.any fun w => decide (8 * w < pa + n) && decide (pa < 8 * w + 8)

/-- A word of a byte range is poisoned (R477). -/
def State.poisonIn (s : State) (pa n : Nat) : Bool := s.poison.any fun w => decide (4 * w < pa + n) && decide (pa < 4 * w + 4)

/-- Write a byte range at home under a key id; a word written in part keeps its mark (R477). -/
def State.putHomeRange (s : State) (k : Byte) (pa : Nat) (bs : List Byte) : State :=
  (upTo (ceilDiv (pa % 4 + bs.length) 4)).foldl (fun s i =>
    let w := pa / 4 + i
    let lo := max pa (4 * w)
    let hi := min (pa + bs.length) (4 * w + 4)
    let x := BitVec.ofNat 32 (leNat ((bs.drop (lo - pa)).take (hi - lo)))
    let whole := lo == 4 * w && hi == 4 * w + 4
    s.putHomeAs k w (if whole then x else mergeBytes (s.homeWordAs k w) x (lo - 4 * w) (hi - lo)) (!whole && s.poison.contains w)) s

/-- The 256-byte blocks of a range of a compressed page (R208). -/
def Mapped.blocks (m : Mapped) (n : Nat) : List Nat :=
  if m.cp then (upTo (ceilDiv (m.pa % 256 + n) 256)).map fun i => m.pa / 256 + i else []

/-- A byte range of one page as home serves it: the bytes, and whether one was in error (R208, R466, R477). -/
def State.readRange (s : State) (m : Mapped) (n : Nat) : State × List Byte × Bool :=
  let r := (m.blocks n).foldl (fun (acc : State × Bool) b =>
    let (s, bad) := acc.1.readBlock m.die (256 * b)
    (s, acc.2 || bad)) (s, s.poisonIn m.pa n || s.gone (some m.die) m.pa)
  (r.1, s.homeBytes m.key m.pa n, r.2)

/-- A write of a byte range of one page at home (R208). -/
def State.writeRange (s : State) (m : Mapped) (bs : List Byte) : State :=
  (m.blocks bs.length).foldl (fun s b => s.writeBlock m.die (256 * b)) (s.putHomeRange m.key m.pa bs)

/-- Where an access from outside is performed, or why it cannot be now. -/
inductive Reach where
  | here (m : Mapped)
  | rnr (service : Bool)
  | hole (pa : Nat)
  deriving DecidableEq, Repr

/-- Translation of a remote access by the target's page tables (R412, R414): an invalid or migrating page is also serviced. -/
def State.reach (s : State) (c : Context) (va : VA) (need : Need) : Reach :=
  match s.homePlace c [] va.toNat need with
  | .ok m => .here m
  | .error (.wait _) => .rnr true
  | .error (.bad _) => .rnr false
  | .error (.hole pa) => .hole pa

/-- The words of a byte range. -/
def rangeWords (pa n : Nat) : List Nat := (upTo (ceilDiv (pa % 4 + n) 4)).map fun i => pa / 4 + i

/-- Perform a read, a write or an atomic at its home (R220, R226, R414, R466). -/
def State.perform (s : State) (m : Mapped) (op : RemOp) : State × Reply :=
  if s.gone (some m.die) m.pa then (s, .errData)
  else match op with
    | .read n =>
      let (s, bs, bad) := s.readRange m n
      (s, if bad then .errData else .ack bs)
    | .write bs => if s.tagsIn m.pa bs.length then (s, .errTag) else (s.writeRange m bs, .ack [])
    | .atom op ty b d =>
      let n := atomBits ty / 8
      if s.tagsIn m.pa n then (s, .errTag)
      else
        let (s, bs, bad) := (s.forBase .home m).readRange m n
        if bad then (s, .errData)
        else (s.writeRange m (leBytes n (atomNew op ty (leNat bs) b.toNat d.toNat)), .ack bs)
    | _ => (s, .ack [])

/-- The bytes that an operation touches. -/
def reachOf : RemOp → Nat
  | .read n => n
  | .write bs => bs.length
  | .atom _ ty _ _ => atomBits ty / 8
  | _ => 0

/-- An access of the device's own: the issuer's dirty words of the location are written through first, and its copies then hold what home
holds (R27, R236). -/
def State.performFor (s : State) (a : Option Agent) (m : Mapped) (op : RemOp) : State × Reply :=
  match a with
  | none => s.perform m op
  | some a =>
    let ws := rangeWords m.pa (reachOf op)
    let (s, rep) := (ws.foldl (fun s w => s.through a .home w) s).perform m op
    (ws.foldl (fun s w => s.settleCopies a .home w (s.homeWordAs m.key w) (s.poison.contains w)) s, rep)

/-- The permission that an operation needs. -/
def needOf : RemOp → Need
  | .read _ => .read
  | .atom .. => .both
  | _ => .write

/-! ### Arrival counters (R421) -/

def State.arrival? (s : State) (a : BitVec 16) (id : BitVec 8) : Option Arrival := s.arrivals.find? fun e => e.asid == a && e.id == id

/-- An entry as a resident context first has it. -/
def Arrival.fresh (a : BitVec 16) (id : BitVec 8) : Arrival :=
  { asid := a, id := id, st := .unarmed, tgt := 0, spill := 0, off := 0, kern := ⟨0, 0, 0⟩, cl := 0, clu := 0, rank := 0 }

/-- The entry of an id, made present. -/
def State.withArrival (s : State) (a : BitVec 16) (id : BitVec 8) : State :=
  if (s.arrival? a id).isSome then s else { s with arrivals := s.arrivals ++ [Arrival.fresh a id] }

def State.modArrival (s : State) (a : BitVec 16) (id : BitVec 8) (u : Arrival → Arrival) : State :=
  { s with arrivals := s.arrivals.map fun e => if e.asid == a && e.id == id then u e else e }

/-- Arrive (R421): the counter word of an armed entry, at its scratchpad, or the spill. A word in error is left as it is
(R232). -/
def State.arrive (s : State) (a : BitVec 16) (id : BitVec 8) (n : DWord) : State :=
  let s := s.withArrival a id
  match s.arrival? a id with
  | some e =>
    if e.st == .armed then
      let (x, bad) := s.padValue e.cl e.rank e.off 8
      if bad then s else s.putPad e.cl e.rank e.off (leBytes 8 (x + n.toNat))
    else s.modArrival a id fun e => { e with spill := e.spill + n }
  | none => s

/-! ### Staged records (R442) -/

/-- Room that a record takes in the staging region. -/
def recordRoom (n : Nat) : Nat := 64 + ceilDiv n 64 * 64

def State.stagingUsed (s : State) : Nat :=
  (s.staged.flatMap fun g => g.recs.map fun r => recordRoom r.bytes.length).foldl (· + ·) 0

def StagedGroup.is (g : StagedGroup) (cgid : BitVec 32) (a : BitVec 16) : Bool := g.cgid == cgid && g.asid == a

def State.stagedGroup? (s : State) (cgid : BitVec 32) (a : BitVec 16) : Option StagedGroup := s.staged.find? fun g => g.is cgid a

def State.modStaged (s : State) (cgid : BitVec 32) (a : BitVec 16) (u : StagedGroup → StagedGroup) : State :=
  { s with staged := s.staged.map fun g => if g.is cgid a then u g else g }

/-- A record reaches its destination: stored, or discarded with the group marked Failed there. -/
def State.stage (s : State) (sdev : BitVec 16) (cgid : BitVec 32) (a : BitVec 16) (r : Staged) : State :=
  let s := if (s.stagedGroup? cgid a).isSome then s
    else { s with staged := s.staged ++ [{ cgid := cgid, sdev := sdev, asid := a, recs := [], failed := none, prepared := false
                                           asking := false, obj := 0, pins := [] }] }
  if s.stagingUsed + recordRoom r.bytes.length ≤ s.staging then
    s.modStaged cgid a fun g => { g with recs := g.recs ++ [r] }
  else s.modStaged cgid a fun g => { g with failed := match g.failed with | some x => some x | none => some 0x03 }

/-! ### The ingress (R371, R373, R412, R414, R418, R420) -/

/-- The lowest-numbered valid entry that matches a source (R371). -/
def State.entryFor (s : State) (sdev sasid : BitVec 16) : Option Acl :=
  (s.acl.foldl (fun (best : Option (Nat × Acl)) e =>
    if e.2.v && e.2.sdev == sdev && e.2.sasid == sasid then
      match best with
      | some b => if b.1 ≤ e.1 then best else some e
      | none => some e
    else best) none).map (·.2)

/-- The cached replies below the lowest open number of a source are freed (R418). -/
def State.freeReplies (s : State) (r : RemReq) : State :=
  { s with replies := s.replies.filter fun e => !(e.1.1 == (r.grp, r.sdev) && seqBelow e.1.2 r.lowest) }

/-- The reply of an applied sequenced request is kept, 1,024 for each source (R418), and for each group of it (R422; log entry 18). -/
def State.keepReply (s : State) (r : RemReq) (rep : Reply) : State :=
  match r.seq, rep with
  | some n, .ack _ | some n, .status _ =>
    let mine := s.replies.filter fun e => e.1.1 == (r.grp, r.sdev)
    let rest := s.replies.filter fun e => e.1.1 != (r.grp, r.sdev)
    { s with replies := rest ++ mine.drop (mine.length - 1023) ++ [(((r.grp, r.sdev), n), rep)] }
  | _, _ => s

/-- A post at its target (R371, R373): denied, or queued with the class that the entry grants at most; a home that answers with errors gives
ERR.DATA (R466). -/
def State.servePost (s : State) (e : Acl) (q : BitVec 6) (img : List Byte) : State × Reply :=
  let x := s.queue q.toNat
  if !e.qmask.getLsbD q.toNat || !(s.acl.any fun y => y.2.v && y.2.sasid == x.asid) then (s, .errDeny)
  else
    let hdr := blockNat img 0 8
    let cls := max (hdr / 16 % 4) e.cap.toNat
    let hdr := hdr - hdr / 16 % 4 * 16 + cls * 16
    let img := leBytes 8 hdr ++ img.drop 8
    if (s.postLost q.toNat img).isSome then (s, .errData)
    else
      let (s, st) := s.post q.toNat img
      (s, .status st)

/-- The request of the device's own that its ingress serves: the first such that has no answer (R27). -/
def State.ownRequest (s : State) (r : RemReq) : Option Request :=
  s.requests.find? fun q => q.path == .self && q.req == r && q.answer.isNone && !q.backoff

/-- The agent of the fibre that issued a request of the device's own. -/
def State.issuerOf (s : State) (r : RemReq) : Option Agent :=
  ((s.ownRequest r).bind fun q => s.fibre? q.f).map s.agentOfFibre

/-- An admitted request of another kind, in its target context. -/
def State.serve (s : State) (c : Context) (r : RemReq) : Except Nat (State × Reply) :=
  let place := fun (k : Mapped → State × Reply) =>
    match s.reach c r.va (needOf r.op) with
    | .here m => (.ok (k m) : Except Nat (State × Reply))
    | .rnr svc => .ok ({ s with sent := if svc then .service r.asid r.va :: s.sent else s.sent }, .rnr)
    | .hole pa => .error pa
  match r.op with
  | .arrive id n => .ok (s.arrive r.asid id n, .ack [])
  | .staged cgid q arv bs inc =>
    let put := fun (_ : Mapped) => (s.stage r.sdev cgid r.asid ⟨q, r.va, arv, bs, inc, false⟩, Reply.ack [])
    if bs.isEmpty then .ok (s.stage r.sdev cgid r.asid ⟨q, r.va, arv, bs, inc, false⟩, .ack []) else place put
  | .post .. => .ok (s, .errDeny)
  | op => place fun m =>
      let (s, rep) := s.performFor (s.issuerOf r) m op
      match r.arv, rep, op with
      | some id, .ack _, .write bs => (s.arrive r.asid id (BitVec.ofNat 64 bs.length), rep)
      | _, _, _ => (s, rep)

/-- The incarnation that a request names for this device (R420). -/
def State.namedInc (s : State) (r : RemReq) : Option (BitVec 32) := match r.inc with | some x => some x | none => aget r.known s.dev

/-- The ingress: the incarnation, admission, the reply cache, the target context, and the access. -/
def State.ingress (s : State) (r : RemReq) : Except Nat (State × Reply) :=
  if (s.namedInc r).any fun x => x != s.inc then .ok (s, .errInc)
  else match s.entryFor r.sdev r.sasid with
    | none => .ok (s, .errDeny)
    | some e =>
      let s := s.freeReplies r
      match r.seq.bind fun n => aget s.replies ((r.grp, r.sdev), n) with
      | some rep => .ok (s, rep)
      | none => do
        let (s, rep) ← match r.op with
          | .post q img => .ok (s.servePost e q img)
          | _ =>
            match s.ctx? r.asid with
            | none => .ok (s, .errAsid)
            | some c =>
              if c.st == .closed then .ok (s, .errAsid)
              else if c.ridx.isNone then .ok (s, .rnr)
              else s.serve c r
        pure (s.keepReply r rep, rep)

/-- The reply goes to the source: to a request of the device's own (R27), or out. -/
def State.replyTo (s : State) (r : RemReq) (rep : Reply) : State :=
  match s.ownRequest r with
  | some q =>
    let u : Request → Request := fun x => if x.id == q.id then { x with answer := some rep } else x
    { s with requests := s.requests.map u }
  | none => s.say (.reply r rep s.inc)

/-- A request of the device's own comes after those of its fibre to the same block that it follows and that are not yet performed (R413). -/
def State.outOfOrder (s : State) (r : RemReq) : Bool :=
  match s.ownRequest r with
  | some q => s.requests.any fun x =>
      x.path == .self && x.f == q.f && q.req.block.isSome && x.req.block == q.req.block && decide (x.id < q.id) && (x.answer.isNone || x.answer == some .rnr)
  | none => false

/-- A request reaches the ingress. -/
def arriveAs (r : RemReq) (s : State) : Result :=
  if s.outOfOrder r then .next s
  else match s.ingress r with
    | .ok (s', rep) => .next (s'.replyTo r rep)
    | .error pa => .fault (.physicalHole pa)

/-- REMOTE_REQUEST_ARRIVE (R412). -/
def execRemoteRequestArrive (r : RemReq) (s : State) : Result :=
  match r.op with
  | .post .. | .staged .. => .next s
  | _ => arriveAs r s

/-- MULTICAST_PACKET_ARRIVE (R422). -/
def execMulticastPacketArrive (r : RemReq) (s : State) : Result :=
  match r.op with
  | .write _ => arriveAs r s
  | _ => .next s

/-- XPOST_ARRIVE (R371, R373). -/
def execXpostArrive (r : RemReq) (s : State) : Result :=
  match r.op with
  | .post .. => arriveAs r s
  | _ => .next s

/-- CG_RECORD_ARRIVE (R442, R447). -/
def execCgRecordArrive (r : RemReq) (s : State) : Result :=
  match r.op with
  | .staged .. => arriveAs r s
  | _ => .next s

/-- COUNTER_PACKET_ARRIVE (R421): an admitted counter packet is counted in the resident target context. -/
def execCounterPacketArrive (asid : BitVec 16) (id : BitVec 8) (n : DWord) (s : State) : Result :=
  match s.ctx? asid with
  | some c => if c.ridx.isSome then .next (s.arrive asid id n) else .next s
  | none => .next s

/-! ### The host port (R333, R376, R428, R466) -/

/-- A context's pages that hold a physical address, as their leaves. -/
def State.pagesAt (s : State) (c : Context) (pa : Nat) : List DWord :=
  ((s.leavesOf 5 1 c.ptroot).filter fun x => decide (leafPa x.2 ≤ pa) && decide (pa < leafPa x.2 + pageSize x.1)).map (·.2)

/-- The pages at a physical address, each with its context. -/
def State.owners (s : State) (pa : Nat) : List (Context × DWord) :=
  (s.ctxs.filter fun c => c.st != .closed).flatMap fun c => (s.pagesAt c pa).map fun e => (c, e)

/-- A confidential context's page (R376). -/
def State.sealed (s : State) (pa : Nat) : Bool := (s.owners pa).any fun x => x.1.conf && leafKey x.2 != 0

/-- The home die of a physical address: that of the page that holds it, or of the HBM stack. -/
def State.dieOf (s : State) (pa : Nat) : Option Nat :=
  match hbmDie pa with
  | some d => some d
  | none => (s.owners pa).head?.map fun x => leafDie x.2

/-- A range that the host reaches through CXL.mem: in HBM or tier-2. -/
def State.hostReaches (s : State) (pa n : Nat) : Bool := match s.tierOf pa n with | some t => decide (t ≤ 1) | none => false

/-- A physical address as the host accesses it: through the page that holds it, or plain memory of its home die (log entry 19). -/
def State.hostPlace (s : State) (pa : Nat) : Mapped :=
  let plain : Mapped := { pa := pa, die := (s.dieOf pa).getD 0, va := 0, asid := 0, key := 0, ms := false, na := false, rp := false, cp := false,
                          hbm := true, host := false, w := true, r := true }
  match (s.owners pa).head? with
  | some x => { plain with key := leafKey x.2, cp := x.2.getLsbD 10, rp := x.2.getLsbD 8 }
  | none => plain

/-- A run of bytes within one frame that the host reads, at the home slice, as an agent of host scope: all ones where the home is gone
(R466) or the page is sealed. -/
def State.hostRead (s : State) (pa n : Nat) : State × List Byte :=
  let ones := List.replicate n (0xFF : Byte)
  if s.gone (s.dieOf pa) pa then (s.note (.homeGone pa), ones)
  else if s.sealed pa then (s, ones)
  else
    let (s, bs, _) := s.readRange (s.hostPlace pa) n
    (s, bs)

/-- A run of bytes within one frame that the host writes: a tagged word is not written, a context error of the page's context (R333). -/
def State.hostWrite (s : State) (pa : Nat) (bs : List Byte) : State :=
  if s.gone (s.dieOf pa) pa then s.note (.homeGone pa)
  else if s.sealed pa then s
  else if s.tagsIn pa bs.length then (((s.owners pa).map fun x => x.1.asid).foldl addOnce []).foldl (fun s a => s.contextError a pa) s
  else s.writeRange (s.hostPlace pa) bs

/-- HOST_MEM_READ, frame by frame. -/
def execHostMemRead (pa n : Nat) (s : State) : Result :=
  if !s.portRuns 0 || !s.hostReaches pa n || n == 0 then .next s
  else
    let r := (frameRuns pa n).foldl (fun (acc : State × List Byte) x =>
      let (s, bs) := acc.1.hostRead x.1 x.2
      (s, acc.2 ++ bs)) (s, [])
    .next (r.1.note (.hostRead r.2))

/-- HOST_MEM_WRITE, frame by frame. -/
def execHostMemWrite (pa : Nat) (bs : List Byte) (s : State) : Result :=
  if !s.portRuns 0 || !s.hostReaches pa bs.length || bs.isEmpty then .next s
  else .next ((frameRuns pa bs.length).foldl (fun s x => s.hostWrite x.1 ((bs.drop (x.1 - pa)).take x.2)) s)

/-- HOST_SNOOP (R428): the dirty words of a host-tier line in the die caches go to home. -/
def execHostSnoop (pa : Nat) (s : State) : Result :=
  if s.portRuns 0 && s.tierOf pa 1 == some 2 then
    .next ((upTo 4).foldl (fun s d => s.throughDcs d (s.wordsIn (.dc d) fun c => c.dirty && c.word / 32 == pa / 128)) s)
  else .next s

end Sys2Proof.Machine
end

