-- ==== Sys2Proof/Machine/Commit.lean ====
section
/-! DEFINITION. Commit groups (22_commit_group.md R438 to R453, R459): the checksum, a group at its destination and at its
initiator, and the instructions. -/

namespace Sys2Proof.Machine

open Sys2Proof

/-! ### The checksum (R443) -/

def crcPoly : DWord := 0xC96C5795D7870F42

def crcByte (c : DWord) (b : Byte) : DWord :=
  (upTo 8).foldl (fun c _ => if c.getLsbD 0 then (c >>> 1) ^^^ crcPoly else c >>> 1) (c ^^^ b.setWidth 64)

/-- The register of CRC-64/XZ after some bytes; it starts as all ones and is inverted at the end. -/
def crcOver (c : DWord) (bs : List Byte) : DWord := bs.foldl crcByte c
def crcStart : DWord := BitVec.allOnes 64
def crcEnd (c : DWord) : DWord := ~~~c

/-- The fields of a record that the checksum covers. -/
def recordBytes (va : VA) (arrival : Option (BitVec 8)) (bs : List Byte) (inc : DWord) : List Byte :=
  leBytes 8 va.toNat ++ leBytes 4 bs.length ++ leBytes 2 ((arrival.map (·.toNat)).getD 0) ++ leBytes 2 (if bs.isEmpty then 1 else 0) ++
    (if bs.isEmpty then leBytes 8 inc.toNat else bs)

/-! ### At a destination (R444, R447, R448) -/

/-- Records in increasing sequence number. -/
def insertRec (r : Staged) : List Staged → List Staged
  | [] => [r]
  | x :: xs => if r.seq ≤ x.seq then r :: x :: xs else x :: insertRec r xs
def sortRecs (rs : List Staged) : List Staged := rs.foldr insertRec []

def stagedCrc (rs : List Staged) : DWord :=
  crcEnd ((sortRecs rs).foldl (fun c r => crcOver c (recordBytes r.va r.arrival r.bytes r.inc)) crcStart)

/-- The frames of 64 KiB that a group's records and object name. -/
def groupFrames (rs : List Staged) (obj : VA) : List Nat :=
  let vas := (rs.filter fun r => !r.bytes.isEmpty).map (·.va.toNat) ++ (if obj == 0 then [] else [obj.toNat])
  vas.foldl (fun l a => addOnce l (a / 2 ^ 16)) []

/-- A page is mapped with W = 1 and is not migrating. -/
def State.writable (s : State) (c : Context) (frame : Nat) : Bool :=
  match s.homePlace c [] (frame * 2 ^ 16) .write with | .ok _ => true | .error _ => false

/-- The first reason for which a group is not Ready (R444). -/
def State.notReady (s : State) (c : Context) (g : StagedGroup) (obj : VA) (n : Nat) (crc : DWord) : Option (BitVec 8) :=
  if g.failed.isSome then g.failed
  else if g.recs.length != n then some 0x02
  else if g.recs.any (·.bad) || stagedCrc g.recs != crc then some 0x01
  else if !((groupFrames g.recs obj).all (s.writable c)) then some 0x04
  else if 16 ≤ (s.staged.filter (·.prepared)).length then some 0x06
  else none

/-- Discarding writes nothing (R447). -/
def State.discardStaged (s : State) (cgid : BitVec 32) (a : BitVec 16) : State :=
  { s with staged := s.staged.filter fun g => !g.is cgid a }

/-- Errors met in staged records while their checksum is computed: uncorrected soft errors of the staging region (R459, R472). -/
def State.stagingErrors (s : State) (n : Nat) : State :=
  if n == 0 then s else s.softErrors 0 .staging false n

/-- The errors that a prepare meets: the checksum is computed over a group that has not failed and has its count. -/
def StagedGroup.errors (g : StagedGroup) (n : Nat) : Nat :=
  if g.failed.isNone && g.recs.length == n then (g.recs.filter (·.bad)).length else 0

/-- A prepare at its destination: the answer, and the pages pinned when it is Ready. -/
def State.prepareAt (s : State) (cgid : BitVec 32) (a : BitVec 16) (obj : VA) (n : Nat) (crc : DWord) : State × CgReply :=
  match s.ctx? a with
  | none => (s, .error)
  | some c =>
    if c.st == .closed then (s, .error)
    else if c.ridx.isNone then (s, .rnr)
    else match s.stagedGroup? cgid a with
      | none => (s, .notReady 0x02)
      | some g =>
        if g.prepared then (s, .ready)
        else match s.notReady c g obj n crc with
          | some why => ((s.stagingErrors (g.errors n)).discardStaged cgid a, .notReady why)
          | none => (s.modStaged cgid a fun g => { g with prepared := true, obj := obj, pins := groupFrames g.recs obj }, .ready)

/-- One record of an apply; one in error, or one that can no longer be written, is left, a context error (R448, R459). -/
def State.applyRecord (s : State) (c : Context) (r : Staged) : State × Bool :=
  if r.bad then (s.contextError c.asid 0, false)
  else if r.bytes.isEmpty then (s, true)
  else match s.homePlace c [] r.va.toNat .write with
    | .ok m =>
      if s.gone (some m.die) m.pa || s.tagsIn m.pa r.bytes.length then (s.contextError c.asid m.pa, false)
      else
        let lines := if m.ms && m.hbm then (rangeWords m.pa r.bytes.length).foldl (fun l w => addOnce l (w / 32)) [] else []
        ((lines.foldl (fun s l => s.flushLine l) s).writeRange m r.bytes, true)
    | .error (.bad pa) => (s.contextError c.asid pa, false)
    | .error _ => (s.contextError c.asid 0, false)

/-- CG_APPLY (R448): the bytes in increasing sequence number, then the arrivals, then the object. -/
def State.applyStaged (s : State) (g : StagedGroup) : State :=
  let s := s.discardStaged g.cgid g.asid
  match s.ctx? g.asid with
  | none => s
  | some c =>
    let (s, done) := (sortRecs g.recs).foldl (fun (acc : State × List Staged) r =>
      let (s, ok) := acc.1.applyRecord c r
      (s, if ok then acc.2 ++ [r] else acc.2)) (s, [])
    let s := done.foldl (fun s r => match r.arrival with
      | some id => s.arrive g.asid id (if r.bytes.isEmpty then r.inc else BitVec.ofNat 64 r.bytes.length)
      | none => s) s
    s.releaseLater [] { asid := g.asid, obj := g.obj.setWidth 64, val := 1, add := true, owner := none }

/-- A hoist at its destination: whether it was applied. -/
def State.hoistAt (s : State) (cgid : BitVec 32) (a : BitVec 16) : State × Bool :=
  match s.stagedGroup? cgid a with
  | some g => if g.prepared then (s.applyStaged g, true) else (s, false)
  | none => (s, false)

/-- An initiator that was reset (R420, R447): what it staged here is discarded. -/
def State.discardFrom (s : State) (dev : BitVec 16) : State := { s with staged := s.staged.filter fun g => g.sdev != dev }

/-! ### At the initiator (R445, R446) -/

def CgSt.final (x : CgSt) : Bool := x == .applied || x == .aborted || x == .torn

def State.cg? (s : State) (cgid : BitVec 32) : Option CommitGroup := s.cgs.find? fun g => g.cgid == cgid

def State.modCg (s : State) (cgid : BitVec 32) (u : CommitGroup → CommitGroup) : State :=
  { s with cgs := s.cgs.map fun g => if g.cgid == cgid then u g else g }

/-- The status word (R451). -/
def CommitGroup.status (g : CommitGroup) : DWord :=
  let top := (if g.st == .aborted then 2 ^ 63 else 0) + (if g.st == .torn then 2 ^ 62 else 0)
  BitVec.ofNat 64 (top + g.why.toNat * 2 ^ 32 + g.dests.length * 2 ^ 16 + g.failDev.toNat)

/-- A device can be reached: it is this one, or a path leads to it. -/
def State.reaches (s : State) (dev : BitVec 16) : Bool := !(s.pathsTo dev).isEmpty

/-- The group takes its final state, and its object is released (R446). -/
def State.endGroup (s : State) (g : CommitGroup) (st : CgSt) (why : BitVec 8) (dev : BitVec 16) : State :=
  let s := s.modCg g.cgid fun g => { g with st := st, why := why, failDev := dev }
  let bit := match st with | .aborted => 2 ^ 63 | .torn => 2 ^ 62 | _ => 0
  s.releaseLater [] { asid := g.asid, obj := g.obj.setWidth 64, val := g.val ||| BitVec.ofNat 64 bit, add := false, owner := none }

/-- An abort goes to a destination; one that can be reached is waited for until it has received it (R450). -/
def State.sayAbort (s : State) (cgid : BitVec 32) (d : CgDest) : State :=
  if d.dev == s.dev then s.discardStaged cgid d.asid
  else
    let s := if s.reaches d.dev then
      { s with aborts := s.aborts ++ [{ id := s.nextId, cgid := cgid, dev := d.dev, asid := d.asid }], nextId := s.nextId + 1 } else s
    s.say (.abort d.dev cgid d.asid)

/-- Abort: every destination hears of it. -/
def State.abortGroup (s : State) (g : CommitGroup) (why : BitVec 8) (dev : BitVec 16) : State :=
  (g.dests.foldl (fun (s : State) d => s.sayAbort g.cgid d) s).endGroup g .aborted why dev

/-- A destination has received an abort, or can be reached no more: a CGABORT waits for it no more (R450). -/
def State.abortHeard (s : State) (id : Nat) : State :=
  let out : Out → Out := fun o => { o with remote := o.remote.filter (· != id) }
  if s.aborts.any fun a => a.id == id then
    { s with aborts := s.aborts.filter (fun a => a.id != id), fibres := s.fibres.map fun f => { f with out := f.out.map out } }
  else s

/-- Aborts whose destinations can be reached no more. -/
def State.settleAborts (s : State) : State := (s.aborts.filter fun a => !s.reaches a.dev).foldl (fun s a => s.abortHeard a.id) s

def CommitGroup.modDest (g : CommitGroup) (i : Nat) (u : CgDest → CgDest) : CommitGroup :=
  { g with dests := g.dests.mapIdx fun j d => if j == i then u d else d }

/-- An answer to a prepare: when every destination is Ready the group is Prepared, an RNR is followed by another attempt, and any
other answer aborts the group (R415, R445). -/
def State.prepareReply (s : State) (cgid : BitVec 32) (i : Nat) (rep : CgReply) : State :=
  match s.cg? cgid with
  | some g =>
    match g.st, g.asked, g.dests[i]? with
    | .preparing, true, some d =>
      match rep with
      | .ready => s.modCg cgid fun g =>
          let g := g.modDest i fun d => { d with ready := true }
          if g.dests.all (·.ready) then { g with st := .prepared } else g
      | .rnr =>
        if g.limit ≤ d.tries + 1 then s.abortGroup g 0x0A d.dev
        else { s.modCg cgid (fun g => g.modDest i fun d => { d with tries := d.tries + 1, retry := some s.nextId }) with
          nextId := s.nextId + 1 }
      | .notReady why => s.abortGroup g why d.dev
      | .error => s.abortGroup g 0x0A d.dev
      | .linkDown | .remoteReset => s.abortGroup g 0x05 d.dev
    | _, _, _ => s
  | none => s

/-- The prepare of one destination of a group that is Preparing. -/
def State.sendPrepare (s : State) (cgid : BitVec 32) (i : Nat) : State :=
  match s.cg? cgid with
  | some g =>
    match g.st, g.dests[i]? with
    | .preparing, some d =>
      if d.dev == s.dev then
        let (s, rep) := s.prepareAt g.cgid d.asid g.obj d.recs (crcEnd d.crc)
        s.prepareReply g.cgid i rep
      else if s.reaches d.dev then s.say (.prepare d.dev g.cgid d.asid g.obj d.recs (crcEnd d.crc))
      else s.prepareReply g.cgid i .linkDown
    | _, _ => s
  | none => s

/-- The destination that a retry names. -/
def State.retryOf (s : State) (id : Nat) : Option (BitVec 32 × Nat) :=
  s.cgs.findSome? fun g => (g.dests.findIdx? fun d => d.retry == some id).map fun i => (g.cgid, i)

/-- The back-off of a prepare has passed (R415). -/
def State.retryPrepare (s : State) (id : Nat) : State :=
  match s.retryOf id with
  | some (cgid, i) => (s.modCg cgid fun g => g.modDest i fun d => { d with retry := none }).sendPrepare cgid i
  | none => s

/-- The prepares of a group whose records have all been answered. -/
def State.sendPrepares (s : State) (g : CommitGroup) : State :=
  match g.dests.find? fun d => d.failed.isSome with
  | some d => s.abortGroup g (d.failed.getD 0) d.dev
  | none =>
    let s := s.modCg g.cgid fun g => { g with asked := true, st := if g.dests.isEmpty then .prepared else g.st }
    (upTo g.dests.length).foldl (fun s i => s.sendPrepare g.cgid i) s

/-- A hoisted group of which every destination has answered or is lost takes its final state. -/
def State.closeHoist (s : State) (cgid : BitVec 32) : State :=
  match s.cg? cgid with
  | some g =>
    if g.st != .hoisted || !(g.dests.all fun d => d.acked.isSome) then s
    else match g.dests.find? fun d => d.acked != some true with
      | none => s.endGroup g .applied 0 0
      | some d => s.endGroup g (if g.dests.any fun d => d.acked == some true then .torn else .aborted) 0x05 d.dev
  | none => s

def State.applyAck (s : State) (cgid : BitVec 32) (i : Nat) (ok : Bool) : State :=
  (s.modCg cgid fun g => if g.st == .hoisted then
    g.modDest i fun d => { d with acked := match d.acked with | none => some ok | some x => some x } else g).closeHoist cgid

/-- The hoist goes to every destination. -/
def State.hoistGroup (s : State) (g : CommitGroup) : State :=
  let s := s.modCg g.cgid fun g => { g with st := .hoisted }
  ((g.dests.zip (upTo g.dests.length)).foldl (fun s d =>
    if d.1.dev == s.dev then
      let (s, ok) := s.hoistAt g.cgid d.1.asid
      s.applyAck g.cgid d.2 ok
    else if s.reaches d.1.dev then s.say (.hoist d.1.dev g.cgid d.1.asid)
    else s.applyAck g.cgid d.2 false) s).closeHoist g.cgid

/-- The gang of a held instruction still stands at it. -/
def Fibre.midway (f : Fibre) (x : Sending) : Bool := f.gangs.any fun g => g.id == x.gang && g.pc == x.pc

/-- A staged record of a group is without its reply, or an instruction that stages records is held with some sent. -/
def State.recordsOpen (s : State) (cgid : BitVec 32) : Bool :=
  (s.requests.any fun q => match q.use with | .record g _ => g == cgid | _ => false) ||
    s.fibres.any fun f => f.sending.any fun x => x.cgid == some cgid && f.midway x

/-- What a group does by itself (R445): its prepares once its records are answered, the loss of a path, its end. -/
def State.settleGroup (s : State) (g : CommitGroup) : State :=
  match g.st with
  | .preparing =>
    if !g.asked then (if s.recordsOpen g.cgid then s else s.sendPrepares g)
    else match (g.dests.zip (upTo g.dests.length)).find? fun d => !d.1.ready && !s.reaches d.1.dev with
      | some d => s.prepareReply g.cgid d.2 .linkDown
      | none => s
  | .hoisted =>
    (g.dests.zip (upTo g.dests.length)).foldl (fun s d =>
      if d.1.acked.isNone && !s.reaches d.1.dev then s.applyAck g.cgid d.2 false else s) s
  | _ => s

/-- A gang of the fibre waits for a group. -/
def Fibre.waitsFor (f : Fibre) (cgid : BitVec 32) : Bool :=
  f.gangs.any fun g => match g.st with | .wait (.commit id _ _) => id == cgid | _ => false

/-- A group that is final and that no fibre holds is freed (R445). -/
def State.freeGroups (s : State) : State :=
  { s with cgs := s.cgs.filter fun g => !g.st.final || s.fibres.any fun f => f.st != .exited && (f.cgid == g.cgid || f.waitsFor g.cgid) }

def State.settleGroups (s : State) : State := (s.cgs.foldl State.settleGroup s).freeGroups.settleAborts

/-- Groups that a retired kernel opened, or those of a closed context: aborted, or final as they will be if hoisted (R445, R453). -/
def State.abandonGroups (s : State) (p : CommitGroup → Bool) : State :=
  (s.cgs.filter fun g => p g && !g.st.final && g.st != .hoisted).foldl (fun s g => s.abortGroup g 0x09 0) s

/-- The groups of a closed context release nothing any more (R378). -/
def State.dropObjects (s : State) (a : BitVec 16) : State :=
  { s with cgs := s.cgs.map fun g => if g.asid == a then { g with obj := 0 } else g }

/-! ### Events -/

/-- CG_PREPARE_ARRIVE (R444, R447). -/
def execCgPrepareArrive (sdev : BitVec 16) (cgid : BitVec 32) (asid : BitVec 16) (obj : VA) (n : Nat) (crc : DWord) (s : State) :
    Result :=
  let (s, rep) := s.prepareAt cgid asid obj n crc
  .next (s.say (.prepared sdev cgid asid rep))

/-- CG_PREPARE_REPLY (R445). -/
def execCgPrepareReply (cgid : BitVec 32) (dst : Nat) (rep : CgReply) (s : State) : Result := .next (s.prepareReply cgid dst rep)

/-- CG_WINDOW_EXPIRE (R445): 2^22 link cycles after the first prepare. -/
def execCgWindowExpire (cgid : BitVec 32) (s : State) : Result :=
  match s.cg? cgid with
  | some g => if g.asked && (g.st == .preparing || g.st == .prepared) then .next (s.abortGroup g 0x08 0) else .next s
  | none => .next s

/-- The device of a staged group's initiator: bits 31:16 of the CGID (R438). -/
def initiatorOf (cgid : BitVec 32) : BitVec 16 := cgid.extractLsb' 16 16

/-- CG_ABORT_ARRIVE (R447). -/
def execCgAbortArrive (cgid : BitVec 32) (asid : BitVec 16) (s : State) : Result :=
  .next ((s.discardStaged cgid asid).say (.aborted (initiatorOf cgid) cgid asid))

/-- CG_HOIST_ARRIVE (R447, R448). -/
def execCgHoistArrive (cgid : BitVec 32) (asid : BitVec 16) (s : State) : Result :=
  let (s, ok) := s.hoistAt cgid asid
  .next (s.say (.applied (initiatorOf cgid) cgid asid ok))

/-- CG_APPLY_ACK (R445). -/
def execCgApplyAck (cgid : BitVec 32) (dst : Nat) (applied : Bool) (s : State) : Result := .next (s.applyAck cgid dst applied)

/-- CG_HOLD_EXPIRE (R447): without a path to the initiator the group is discarded, else a Prepared one asks for the decision. -/
def execCgHoldExpire (cgid : BitVec 32) (asid : BitVec 16) (s : State) : Result :=
  match s.stagedGroup? cgid asid with
  | none => .next s
  | some g =>
    if !s.reaches g.sdev then .next (s.discardStaged cgid asid)
    else if g.prepared then
      .next ((s.modStaged cgid asid fun g => { g with asking := true }).say (.decision g.sdev cgid asid))
    else .next s

/-- The answer of an initiator to a destination: that of this device is what its table says (R439, R447). -/
def State.decisionOf (s : State) (g : StagedGroup) (ans : CgAnswer) : CgAnswer :=
  if g.sdev == s.dev then (if (s.cg? g.cgid).any fun x => x.st == .hoisted then .hoisted else .other) else ans

/-- CG_DECISION_ANSWER (R447). -/
def execCgDecisionAnswer (cgid : BitVec 32) (asid : BitVec 16) (ans : CgAnswer) (s : State) : Result :=
  match s.stagedGroup? cgid asid with
  | none => .next s
  | some g =>
    if !g.asking then .next s
    else match s.decisionOf g ans with
      | .hoisted => .next ((s.applyStaged g).say (.applied g.sdev cgid asid true))
      | .other => .next (s.discardStaged cgid asid)

/-! ### Instructions (R450 to R452) -/

def View.commitStop (v : View) (info : Byte) : Stop := v.stop .commitState v.g.lanes 0 info

/-- The current group of the fibre. -/
def View.currentGroup (v : View) (s : State) : Chk CommitGroup :=
  if v.f.cgid == 0 then .error (v.commitStop 0)
  else match s.cg? v.f.cgid with
    | some g => .ok g
    | none => .error (v.commitStop 0)

/-- A group that a fibre may name: of this device and of its context. -/
def View.namedGroup (v : View) (s : State) (cgid : BitVec 32) : Chk CommitGroup :=
  match s.cg? cgid with
  | some g => if g.asid == v.f.asid then .ok g else .error (v.commitStop 4)
  | none => .error (v.commitStop 4)

/-- A local id that no group of the table has (R438): the one drawn, else the lowest. -/
def State.newCgid (s : State) : BitVec 32 :=
  let id := fun (n : Nat) => s.dev ++ BitVec.ofNat 16 n
  let drawn := (Config.cgLocal s.nextId).val + 1
  if (s.cg? (id drawn)).isNone then id drawn
  else id (((upTo 257).find? fun n => (s.cg? (id (n + 1))).isNone).getD 0 + 1)

def execCgopen (sw : Bool) (d : BitVec 6) (a b : BitVec 8) (s : State) : Result :=
  issue sw 8 (fun v => useS a v.g.lanes ++ useS b v.g.lanes ++ defS d.toNat v.g.lanes) (fun v s => do
    let obj : VA := (v.sval a).setWidth 56
    v.require .misaligned (obj.toNat % 8 == 0)
    v.require .segmentLimit (v.inSegment .gl obj.toNat 8) (obj.setWidth 64)
    if v.f.cgid != 0 then .error (v.commitStop 1)
    if 256 ≤ s.cgs.length then .error (v.commitStop 2)
    let cgid := s.newCgid
    let g : CommitGroup := { cgid := cgid, asid := v.f.asid, kern := v.f.kern, obj := obj, val := v.sval b, st := .open_, dests := []
                             why := 0, failDev := 0, asked := false, limit := 0 }
    let s := { s with cgs := s.cgs ++ [g], nextId := s.nextId + 1 }
    pure ((s.modFibre v.f.ref fun f => { f with cgid := cgid }).upd v.f (.s d.toNat (cgid.setWidth 64)))) s

def execCgopenJoin (sw : Bool) (d : BitVec 6) (a : BitVec 8) (s : State) : Result :=
  issue sw 8 (fun v => useS a v.g.lanes ++ defS d.toNat v.g.lanes) (fun v s => do
    let id : BitVec 32 := (v.sval a).setWidth 32
    if id != 0 then let _ ← v.namedGroup s id
    pure ((s.modFibre v.f.ref fun f => { f with cgid := id }).upd v.f (.s d.toNat (v.f.cgid.setWidth 64)))) s

def execCgprep (sw : Bool) (d : BitVec 6) (s : State) : Result :=
  issue sw 8 (fun v => defS d.toNat v.g.lanes) (fun v s => do
    let g ← v.currentGroup s
    match g.st with
    | .open_ | .staging =>
      .error (.wait (s.modCg g.cgid fun g => { g with st := .preparing, limit := (v.f.xretry.extractLsb' 0 4).toNat }) (.commit g.cgid CgSt.preparing.code d.toNat))
    | .preparing => .error (.wait s (.commit g.cgid CgSt.preparing.code d.toNat))
    | _ => .error (v.commitStop 1)) s

def execCghoist (sw : Bool) (d : BitVec 6) (s : State) : Result :=
  issue sw 8 (fun v => defS d.toNat v.g.lanes) (fun v s => do
    let g ← v.currentGroup s
    match g.st with
    | .prepared => .error (.wait (s.hoistGroup g) (.commit g.cgid CgSt.hoisted.code d.toNat))
    | .hoisted => .error (.wait s (.commit g.cgid CgSt.hoisted.code d.toNat))
    | .applied | .aborted | .torn => pure (s.defer v.f (Out.of [.s d.toNat g.status]))
    | _ => .error (v.commitStop 1)) s

def execCgabort (sw : Bool) (s : State) : Result :=
  issue sw 8 (fun _ => []) (fun v s => do
    let g ← v.currentGroup s
    match g.st with
    | .open_ | .staging | .prepared =>
      let s := s.abortGroup g 0x07 0
      pure (s.defer v.f { Out.of [] with remote := (s.aborts.filter fun a => a.cgid == g.cgid).map (·.id) })
    | .applied | .aborted | .torn => pure s
    | _ => .error (v.commitStop 1)) s

/-- The value of a query (R452). -/
def CommitGroup.query (g : CommitGroup) : CgQuery → Nat
  | .st => g.st.code
  | .ndst => g.dests.length
  | .recs => (g.dests.map (·.recs)).foldl (· + ·) 0
  | .why => g.why.toNat
  | .una => ((g.dests.zip (upTo g.dests.length)).map fun d => if d.1.acked == some true then 0 else 2 ^ d.2).foldl (· + ·) 0

def execCgqry (sw : Bool) (q : CgQuery) (d : BitVec 6) (a : BitVec 8) (s : State) : Result :=
  issue sw 8 (fun v => useS a v.g.lanes ++ defS d.toNat v.g.lanes) (fun v s => do
    let id : BitVec 32 := (v.sval a).setWidth 32
    let g ← if id == 0 then v.currentGroup s else v.namedGroup s id
    pure (s.upd v.f (.s d.toNat (BitVec.ofNat 64 (g.query q))))) s

/-! ### Staging at the initiator (R442) -/

/-- The checks of the group before those of XFER or XATOM. -/
def View.stageCheck (v : View) (s : State) (dev asid : BitVec 16) (any : Bool) : Chk CommitGroup := do
  let g ← v.currentGroup s
  if g.st != .open_ && g.st != .staging then .error (v.commitStop 1)
  if any && 64 ≤ g.dests.length && !(g.dests.any fun d => d.dev == dev && d.asid == asid) then .error (v.commitStop 3)
  pure g

/-- The index of a destination, which the first record adds. -/
def CommitGroup.destIndex (g : CommitGroup) (dev asid : BitVec 16) : Nat :=
  (g.dests.findIdx? fun d => d.dev == dev && d.asid == asid).getD g.dests.length

def CommitGroup.addDest (g : CommitGroup) (dev asid : BitVec 16) : CommitGroup :=
  if g.dests.any fun d => d.dev == dev && d.asid == asid then g
  else { g with dests := g.dests ++ [{
    dev := dev, asid := asid, recs := 0, crc := crcStart, failed := none, ready := false, acked := none, tries := 0, retry := none }] }

/-- A record is issued to a destination: its number and checksum advance; `lost` marks one that no way could carry. -/
def State.noteRecord (s : State) (cgid : BitVec 32) (dev asid : BitVec 16) (bs : List Byte) (lost : Bool) : State :=
  s.modCg cgid fun g =>
    let g := g.addDest dev asid
    let i := g.destIndex dev asid
    { (g.modDest i fun d => { d with
        recs := d.recs + 1, crc := crcOver d.crc bs
        failed := if lost && d.failed.isNone then some 0x05 else d.failed }) with st := if g.st == .open_ then .staging else g.st }

/-- Records of a group can still be sent: its prepares have not been. -/
def State.takesRecords (s : State) (cgid : BitVec 32) : Bool :=
  (s.cg? cgid).any fun g => g.st == .open_ || g.st == .staging || (g.st == .preparing && !g.asked)

/-- The next record number of a destination. -/
def State.nextRecord (s : State) (cgid : BitVec 32) (dev asid : BitVec 16) : Nat :=
  match s.cg? cgid with
  | some g => match g.dests[g.destIndex dev asid]? with | some d => d.recs | none => 0
  | none => 0

end Sys2Proof.Machine
end

