-- ==== Sys2Proof/Machine/Fabric.lean ====
section
/-! DEFINITION. The fabric instructions (21_link.md R430 to R437) and XPOST (R373), the replies to requests (R414 to R416, R419,
R420), and collectives (R424, R435, R436). -/

namespace Sys2Proof.Machine

open Sys2Proof

/-! ### The end of a request -/

def State.dropRequest (s : State) (id : Nat) : State := { s with requests := s.requests.filter fun q => q.id != id }

def State.modRequest (s : State) (id : Nat) (u : Request → Request) : State :=
  { s with requests := s.requests.map fun q => if q.id == id then u q else q }

/-- The writes of an outstanding result change. -/
def State.modUpds (s : State) (f : FibreRef) (out : Nat) (u : List RegUpd → List RegUpd) : State :=
  s.modFibre f fun x => { x with out := x.out.map fun o => if o.id == out then { o with upds := u o.upds } else o }

/-- The cause with which a remote error faults a job (R480). -/
def jobCause : Trap → Byte
  | .remoteReset => 0x16
  | .linkDown => 0x17
  | _ => 0x15

/-- The reason that a record's failure gives its group (R442, R451). -/
def recordReason : Trap → BitVec 8
  | .remoteReset | .linkDown => 0x05
  | _ => 0x0A

/-- The result of which a request of one lane of an LD or ST is a part. -/
def State.accessOf (s : State) (q : Request) : Option Nat :=
  ((s.fibre? q.f).bind fun f => if f.st == .exited then none else f.out.find? fun o => match q.use with
    | .vec out .. | .scalar out .. => o.id == out
    | .nothing => o.remote.contains q.id && o.tail.isNone && !o.rfence
    | _ => false).map (·.id)

/-- A request of a fibre has its reply; with the last of an access its errors are raised (R416). -/
def State.laneEnds (s : State) (q : Request) : State :=
  let s' := s.answered q.f q.id []
  match s.accessOf q with
  | some o => s'.gatherErrors q.f q.req.sasid o
  | none => s'

/-- A request ends in error (R414, R416, R442, R480). -/
def State.failRequest (s : State) (q : Request) (code : Trap) (info : Byte) : State :=
  let s := s.dropRequest q.id
  match q.use with
  | .record g d => (s.answered q.f q.id []).modCg g fun g => g.modDest d fun x => { x with failed := match x.failed with | some y => some y | none => some (recordReason code) }
  | .job cl team id key => (s.answered q.f q.id []).modJob cl team id fun j => { j with req := none, broken := some (jobCause code, key.addr) }
  | use =>
    let s := match use with | .status out _ => s.modUpds q.f out fun _ => [] | _ => s
    let t := remoteRec code info q.req.va q.lanes
    match s.accessOf q with
    | some o => (s.modFibre q.f fun f =>
        { f with out := f.out.map fun x => if x.id == o then { x with fail := x.fail ++ [t] } else x }).laneEnds q
    | none => (s.answered q.f q.id []).remoteError q.f q.req.sasid t

/-- The parts of at most 4 bytes of a reply's data. -/
def replyParts (n : Nat) (bs : List Byte) : List Nat :=
  let k := max 1 (min 4 n)
  (upTo (bs.length / k)).map fun i => leNat ((bs.drop (k * i)).take k)

/-- Write a word that XGET brought (R432): a tagged word is left; a home that answers with errors makes a context error (R466). -/
def State.putPlace (s : State) (asid : BitVec 16) (p : Place) (x : Word) : State :=
  match p with
  | .pad cl team off =>
    let tagged := match s.team? cl team with | some t => t.padTags.contains (off / 8) | none => false
    if tagged then s else s.putPad cl team off (leBytes 4 x.toNat)
  | .home pa die key cp =>
    if s.gone (some die) pa then s.contextError asid pa
    else if s.tags.contains (pa / 8) then s
    else s.writePlace pa die key cp x

def State.putPlaces (s : State) (asid : BitVec 16) (ps : List Place) (ws : List Word) : State :=
  (ps.zip ws).foldl (fun s x => s.putPlace asid x.1 x.2) s

/-- The data of a reply reach their destination. -/
def State.deliver (s : State) (q : Request) (data : List Byte) (status : DWord) : Result :=
  let s := s.dropRequest q.id
  match q.use with
  | .nothing => .next (s.laneEnds q)
  | .record .. => .next (s.answered q.f q.id [])
  | .vec out lane_ rows ty =>
    let xs := replyParts ty.bytes data
    let put : RegUpd → RegUpd := fun u => match u with
      | .v row m val => match rows.idxOf? row with
        | some k => .v row m (mkRow fun l => if l = lane_ then extend32 ty (xs.getD k 0) else val.at l)
        | none => u
      | u => u
    .next ((s.modUpds q.f out fun us => us.map put).laneEnds q)
  | .scalar out n ty =>
    .next ((s.modUpds q.f out fun _ => [.s n (extend64 ty (replyParts ty.bytes data))]).laneEnds q)
  | .status out n => .next ((s.modUpds q.f out fun _ => [.s n status]).answered q.f q.id [])
  | .get _ ps =>
    .next ((s.putPlaces q.req.sasid ps ((replyParts 4 data).map fun x => BitVec.ofNat 32 x)).answered q.f q.id [])
  | .job cl team id key =>
    ((s.answered q.f q.id []).modJob cl team id fun j => { j with
      req := none, buf := aset j.buf key (if key.write then [] else data) }).pump cl team id

/-- The source learns a target's incarnation from its first reply (R420); another one shows that the target was reset. -/
def State.learn (s : State) (dev : BitVec 16) (inc : BitVec 32) : State :=
  match aget s.farInc dev with
  | none => { s with farInc := s.farInc ++ [(dev, inc)] }
  | some x => if x == inc then s else s.discardFrom dev

/-- The record of a target and the sequence state are discarded (R420). -/
def State.forget (s : State) (dev : BitVec 16) : State :=
  ({ s with farInc := adel s.farInc dev, seqs := adel s.seqs (false, dev) } : State).discardFrom dev

/-- A replay burst of a port ends: it is counted by its length (R472). -/
def State.endBurst (s : State) (n : Nat) : State :=
  if h : n < 40 then
    let r := (s.ports[n]).replays
    if r == 0 then s
    else
      let key := (n, min 31 (Nat.log2 r))
      let x := (aget s.life.retries key).getD 0
      ({ s with life := { s.life with retries := aset s.life.retries key (min (x + 1) (2 ^ 48 - 1)) } } : State).modPort n
        fun p => { p with replays := 0 }
  else s

def Path.port : Path → Option Nat
  | .plane _ n | .span n => some n
  | .self => none

/-- A reply without data that ends a collective (R436). -/
def State.failColl (s : State) (c : Coll) (rep : Reply) : State :=
  let end_ := fun (code : Trap) (info : Byte) =>
    ({ s with colls := s.colls.filter fun x => x.id != c.id } : State).remoteError c.f c.asid
      (remoteRec code info (BitVec.ofNat 56 c.desc.src) 0)
  match rep with
  | .linkDown => end_ .linkDown 0
  | .errInc => end_ .remoteReset 0
  | .errAsid | .errDeny | .errTag | .errData => end_ .remoteFault 1
  | _ => s

/-- The device that a reply comes from: the target, or the member of a multicast group that the Yardarm names (R422). -/
def Request.replier (q : Request) (dev : BitVec 16) : BitVec 16 := if q.mc then dev else q.dst

/-- The results that wait for a request wait for another, too. -/
def Out.follows (id new : Nat) (o : Out) : Out := if o.remote.contains id then { o with remote := o.remote ++ [new] } else o

/-- A member that answered RNR is retried by unicast (R422), under the number that the packet has in its group. -/
def State.retryMember (s : State) (q : Request) (dev : BitVec 16) : State :=
  let new := { q with id := s.nextId, dst := dev, mc := false, tries := 1, backoff := true, resent := false, answer := none, broken := none }
  { s.modFibre q.f (fun f => { f with out := f.out.map (Out.follows q.id s.nextId) }) with
    requests := s.requests ++ [new], nextId := s.nextId + 1 }

/-- The first error that a member of a multicast answers is kept until every member has answered (R422). -/
def State.breakRequest (s : State) (id : Nat) (code : Trap) (info : Byte) : State :=
  s.modRequest id fun q => { q with broken := match q.broken with | some x => some x | none => some (code, info) }

/-- The reply of one member of a multicast group (R422): an RNR is retried by unicast; with the last one the request ends. -/
def State.memberReply (s : State) (q : Request) (rep : Reply) (src : Replier) : Result :=
  let s := match rep with
    | .ack _ | .status _ => s
    | .rnr => if q.limit ≤ q.tries + 1 then s.breakRequest q.id .remoteFault 0 else s.retryMember q src.dev
    | .errDeny | .errAsid | .errTag | .errData => s.breakRequest q.id .remoteFault 1
    | .errInc => (s.breakRequest q.id .remoteReset 0).forget src.dev
    | .linkDown => s.breakRequest q.id .linkDown 0
  if src.last || rep == .linkDown then
    match (s.requests.find? fun x => x.id == q.id).bind (·.broken) with
    | some e => .next (s.failRequest q e.1 e.2)
    | none => s.deliver q [] 0
  else .next s

/-- REMOTE_REPLY (R414 to R416, R420, R422): the reply to an open request; that of the device's own ingress is the one it gave. -/
def execRemoteReply (id : Nat) (rep : Reply) (src : Replier) (s : State) : Result :=
  match s.requests.find? fun q => q.id == id with
  | none =>
    match s.colls.find? fun c => c.id == id with
    | some c => .next (s.failColl c rep)
    | none => .next s
  | some q =>
    if q.backoff || (q.path == .self && q.answer != some rep) then .next s
    else
      let s := match q.path.port with | some n => s.endBurst n | none => s
      let s := if rep == .linkDown then s else s.learn (q.replier src.dev) src.inc
      if q.mc then s.memberReply q rep src
      else match rep with
      | .ack data => s.deliver q data 0
      | .status x => s.deliver q [] x
      | .rnr =>
        if q.limit ≤ q.tries + 1 then .next (s.failRequest q .remoteFault 0)
        else .next (s.modRequest id fun q => { q with tries := q.tries + 1, backoff := true, answer := none })
      | .errDeny =>
        .next (match q.use with | .status .. => s.failRequest q .queueAccess 0 | _ => s.failRequest q .remoteFault 1)
      | .errAsid | .errTag | .errData => .next (s.failRequest q .remoteFault 1)
      | .errInc => .next ((s.failRequest q .remoteReset 0).forget (q.replier src.dev))
      | .linkDown => .next (s.failRequest q .linkDown 0)

/-- A way for a request that is sent again: its own plane while that is available, else another one (R413, R419). -/
def State.wayAgain (s : State) (q : Request) : Option Path :=
  let paths := if q.mc then s.pathsOut else s.pathsTo q.dst
  let same := match q.path with
    | .plane p _ => paths.find? fun (x : Path) => x.planeOf == some p
    | x => if paths.contains x then some x else none
  match same with
  | some p => some p
  | none => paths[s.hashOf q.dst q.mc q.req.block % paths.length]?

/-- An earlier request of the fibre to the same block waits to be sent again, too; it goes first (R413). -/
def State.behind (s : State) (q : Request) : Bool := (s.sameBlock q.f q.dst q.mc q.req).any fun x => x.backoff && decide (x.id < q.id)

/-- RNR_RETRY (R415): the back-off has passed and the request, or the prepare of a commit group, is sent again. -/
def execRnrRetry (id : Nat) (s : State) : Result :=
  match s.requests.find? fun q => q.id == id with
  | none => .next (s.retryPrepare id)
  | some q =>
    if !q.backoff || s.behind q then .next s
    else match s.wayAgain q with
      | some p =>
        if !s.roomOn p q.req.op.bytes then .next s
        else .next ((s.framed p q.req.op.bytes).modRequest id fun q => { q with path := p, backoff := false, answer := none })
      | none => .next (s.failRequest q .linkDown 0)

/-- REQUEST_RESEND (R419): a request without a reply whose port went Down is sent once more, or ends; while the port has no room, or an earlier
request to its block waits, it waits (R413, R426). -/
def State.resend (s : State) (q : Request) : State :=
  if q.resent then s.failRequest q .linkDown 0
  else match s.wayAgain q with
    | some p =>
      if s.roomOn p q.req.op.bytes && !s.behind q then (s.framed p q.req.op.bytes).modRequest q.id fun q => { q with path := p, resent := true }
      else s.modRequest q.id fun q => { q with resent := true, backoff := true }
    | none => s.failRequest q .linkDown 0

/-! ### Packets (R431, R432) -/

/-- A byte range cut at the boundaries of 512-byte blocks; a length of 0 has none. -/
def blockRuns (va n : Nat) : List (Nat × Nat) :=
  if n = 0 then [] else (upTo (ceilDiv (va % 512 + n) 512)).map fun i =>
    let lo := max va ((va / 512 + i) * 512)
    (lo, min (va + n) ((va / 512 + i + 1) * 512) - lo)

/-- The pair of a transfer: target or group, ASID, counter id and length. -/
structure Pair where
  dev : BitVec 16
  asid : BitVec 16
  id : BitVec 8
  len : Nat
  deriving DecidableEq, Repr

def View.pair (v : View) (c : BitVec 6) : Pair :=
  let t := v.f.s.getD c.toNat 0
  { dev := t.extractLsb' 0 16, asid := t.extractLsb' 16 16, id := t.extractLsb' 32 8
    len := ((v.f.s.getD (c.toNat + 1) 0).extractLsb' 0 32).toNat }

def pairUses (c : BitVec 6) (v : View) : List Use :=
  [⟨.r (.s c.toNat), v.g.lanes, true, false⟩, ⟨.r (.s (c.toNat + 1)), v.g.lanes, true, false⟩]

/-- A trap of a fibre-wide instruction names every issuing lane. -/
def View.wide {α : Type} (v : View) (x : Chk α) : Chk α :=
  match x with
  | .error (.trap s t) => .error (.trap s { t with emask := v.g.lanes })
  | x => x

/-- The local range of a transfer in place: its parts and the frames that wait. -/
def View.localParts (v : View) (s : State) (sp : Space) (need : Need) (addr n : Nat) (rep : Option Replay) :
    Chk (State × List (Target × Nat) × List Nat) := do
  let p ← v.wide (v.prepare s sp need (noAllocOf rep) [accessOf v.lane0 addr n 1])
  pure (s.keepAll v.agent p, ((p.ready.head?).map (·.parts)).getD [], p.frames)

/-- The virtual addresses of a local range (R190), for the copies that a release concerns. -/
def View.localRegion (v : View) (sp : Space) (addr n : Nat) : List (Nat × Nat) :=
  match sp with
  | .gl => [(addr, n)]
  | .ko => [(((v.f.segment 4).base.toNat + addr) % 2 ^ 56, n)]
  | _ => []

/-- How the packets of one instruction are made, noted and given up. -/
structure Packets where
  dst : BitVec 16
  mc : Bool
  make : Nat → State → RemReq × ReplyUse
  noted : Nat → State → State
  lost : Nat → State → State

/-- Send packets from number `i` on until one must wait; `base` is the first request number of the instruction. -/
def View.emit (v : View) (p : Packets) (base : Nat) : Nat → Nat → State → State × Nat
  | 0, i, s => (s, i)
  | n + 1, i, s =>
    let (r, use) := p.make i s
    match s.way v.f.ref p.dst p.mc r base with
    | .go w => v.emit p base n (i + 1) (p.noted i (s.send v.f.ref 0 v.f.xretry p.dst p.mc r w use))
    | .never => v.emit p base n (i + 1) (p.lost i s)
    | .later => (s, i)

/-- Send the one packet of an instruction; while it must wait the instruction is held at issue (R121, R418, R426). -/
def View.sendOne (v : View) (p : Packets) (s : State) : Chk State :=
  match v.emit p s.nextId 1 0 s with
  | (s', 1) => .ok s'
  | _ => .error .stall

/-- A packet that no way carries: LinkDown at the fibre (R413, R416). -/
def View.linkLost (v : View) (va : VA) (s : State) : State :=
  s.remoteError v.f.ref v.f.asid (remoteRec .linkDown 0 va 0)

/-- The packets of an XFER, XMC or XGET: one for each block, in increasing order (R431, R432, R442). -/
def View.packets (v : View) (x : Sending) : Packets :=
  let run := fun (i : Nat) => (blockRuns x.at_ x.len).getD i (0, 0)
  let va := fun (i : Nat) => BitVec.ofNat 56 (run i).1
  let data := fun (i : Nat) => (x.bytes.drop ((run i).1 - x.at_)).take (run i).2
  match x.places, x.cgid with
  | some ps, _ =>
    { dst := x.dev, mc := false
      make := fun i _ => (v.request x.asid (va i) (.read (run i).2) .device,
        .get v.f.nextOut ((ps.drop (((run i).1 - x.at_) / 4)).take ((run i).2 / 4)))
      noted := fun _ s => s, lost := fun i s => v.linkLost (va i) s }
  | none, some cgid =>
    let rb := fun (i : Nat) => recordBytes (va i) x.arrival (data i) 0
    { dst := x.dev, mc := false
      make := fun i s => (v.request x.asid (va i) (.staged cgid (s.nextRecord cgid x.dev x.asid) x.arrival (data i) 0) .device,
        .record cgid (match s.cg? cgid with | some g => g.destIndex x.dev x.asid | none => 0))
      noted := fun i s => s.noteRecord cgid x.dev x.asid (rb i) false
      lost := fun i s => s.noteRecord cgid x.dev x.asid (rb i) true }
  | none, none =>
    { dst := x.dev, mc := x.mc
      make := fun i _ => (v.request x.asid (va i) (.write (data i)) .device x.arrival, .nothing)
      noted := fun _ s => s, lost := fun i s => v.linkLost (va i) s }

/-- The held instruction of the issuing gang that is issued again: its checks and reads have been made. -/
def View.begun (v : View) : Option Sending := v.f.sending.find? fun x => x.gang == v.iss.gang && x.pc == v.iss.pc

/-- What a fibre keeps of a gang's held instruction. -/
def State.keepSending (s : State) (v : View) (x : Option Sending) : State :=
  s.modFibre v.f.ref fun f => { f with sending := x.toList ++ f.sending.filter fun y => y.gang != v.iss.gang }

/-- Send the packets that are left; one that must wait holds the instruction at issue (R121, R418, R426). Records of a group that takes none
any more, since it was aborted meanwhile, are given up. -/
def View.sendRest (v : View) (x : Sending) (s : State) : Chk State :=
  let total := (blockRuns x.at_ x.len).length
  if x.cgid.any fun id => !s.takesRecords id then .ok (s.keepSending v none)
  else
    let (s', i) := v.emit (v.packets x) s.nextId (total - x.sent) x.sent s
    if total ≤ i then .ok (s'.keepSending v none)
    else if i = x.sent then .error .stall
    else .error (.again (s'.keepSending v (some { x with sent := i })))

/-- Alignment and segments of a transfer (R431). -/
def View.checkTransfer (v : View) (sp : Space) (here there len : Nat) (source : Bool) : Chk Unit := do
  v.require .misaligned (here % 4 == 0 && there % 4 == 0 && len % 4 == 0)
  let far := v.require .segmentLimit (v.inSegment .rm there len) (BitVec.ofNat 64 there)
  if !source then far
  v.require .segmentLimit (v.inSegment sp here len) (BitVec.ofNat 64 here)
  if source then far

/-- XFER and XMC: the checks, the release of the source, and one packet for each block. -/
def transfer (mc sw cg arv : Bool) (sp : Space) (a b : BitVec 8) (c : BitVec 6) (s : State) : Result :=
  issueMem sw 8 (fun v => useS a v.g.lanes ++ useS b v.g.lanes ++ pairUses c v) (fun v s rep => do
    if let some x := v.begun then
      return ({ s := ← v.sendRest x s, now := [], held := [], out := some (Out.of []), done := 0 }, [])
    let t := v.pair c
    let src := v.wideAddr sp a
    let dst := ((v.sval b).setWidth 56 : VA).toNat
    let group ← if cg then (do let g ← v.stageCheck s t.dev t.asid (decide (0 < t.len)); pure (some g.cgid) : Chk (Option (BitVec 32)))
      else pure none
    v.checkTransfer sp src dst t.len true
    let (s, parts, frames) ← v.localParts s sp .read src t.len rep
    if !frames.isEmpty then return frozen s frames
    v.holdXfence
    let s := s.throughAll v.agent .home (inRegions v.f.asid (v.localRegion sp src t.len))
    let (s, xs, bad) := s.loadParts v.agent (some .device) parts
    if bad then
      let err := dataErr ((lanesOf v.g.lanes).map fun l => (l, src)) v.g.lanes
      return ({ s := s, now := [], held := [], out := some { Out.of [] with err := err }, done := 0 }, [])
    let s ← v.sendRest { gang := v.iss.gang, pc := v.iss.pc, dev := t.dev, mc := mc, asid := t.asid, at_ := dst, len := t.len,
                         arrival := if arv then some t.id else none, cgid := group, bytes := xs.flatMap fun x => leBytes 4 x,
                         places := none, sent := 0 } s
    pure ({ s := s, now := [], held := [], out := some (Out.of []), done := 0 }, [])) s

def execXfer (sw cg arv : Bool) (sp : Space) (a b : BitVec 8) (c : BitVec 6) (s : State) : Result :=
  transfer false sw cg arv sp a b c s

def execXmc (sw arv : Bool) (sp : Space) (a b : BitVec 8) (c : BitVec 6) (s : State) : Result :=
  transfer true sw false arv sp a b c s

/-- The place of each word of a local range. -/
def wordPlaces (parts : List (Target × Nat)) : List Place := parts.map fun p => p.1.place

/-- The reads of a fibre's XGET that no result of it waits for yet. -/
def State.newGets (s : State) (f : Fibre) : List Nat :=
  (s.requests.filter fun q => q.f == f.ref && (match q.use with | .get .. => true | _ => false) &&
    !(f.out.any fun o => o.remote.contains q.id)).map (·.id)

/-- XGET (R432). -/
def execXget (sw : Bool) (sp : Space) (a b : BitVec 8) (c : BitVec 6) (s : State) : Result :=
  issueMem sw 8 (fun v => useS a v.g.lanes ++ useS b v.g.lanes ++ pairUses c v) (fun v s rep => do
    let ends := fun (s : State) =>
      (({ s := s, now := [], held := [], out := some { Out.of [] with remote := s.newGets v.f }, done := 0 }, []) : Performed × List Nat)
    if let some x := v.begun then return ends (← v.sendRest x s)
    let t := v.pair c
    let src := ((v.sval a).setWidth 56 : VA).toNat
    let dst := v.wideAddr sp b
    v.checkTransfer sp dst src t.len false
    let (s, parts, frames) ← v.localParts s sp .write dst t.len rep
    if !frames.isEmpty then return frozen s frames
    v.wide (v.checkTags s [{ lane := v.lane0, addr := dst, parts := parts }])
    v.holdXfence
    return ends (← v.sendRest { gang := v.iss.gang, pc := v.iss.pc, dev := t.dev, mc := false, asid := t.asid, at_ := src, len := t.len,
                                arrival := none, cgid := none, bytes := [], places := some (wordPlaces parts), sent := 0 } s)) s

/-! ### XATOM, XFENCE, XPOST -/

/-- The requests that an XFENCE waits for (R437): stores, transfers and atomics without a reply. -/
def State.fenceWaits (s : State) (r : FibreRef) : List Nat :=
  (s.requests.filter fun q => q.f == r && match q.req.op, q.use with
    | _, .job .. => false
    | .read _, .get .. => true
    | .read _, _ => false
    | .post .., _ => false
    | _, _ => true).map (·.id)

/-- The uses of XATOM. -/
def xatomUses (f : XatomForm) (a b : BitVec 8) (c : BitVec 6) (v : View) : List Use :=
  useS a v.g.lanes ++ useS b v.g.lanes ++ [⟨.r (.s c.toNat), v.g.lanes, true, false⟩] ++ match f with
    | .arv => []
    | .mem d op _ => (if op == .cas then [⟨.r (.s d.toNat), v.g.lanes, true, false⟩] else []) ++ defS d.toNat v.g.lanes

/-- XATOM (R433, R442). -/
def execXatom (sw cg rel : Bool) (f : XatomForm) (a b : BitVec 8) (c : BitVec 6) (s : State) : Result :=
  issueMem sw 8 (xatomUses f a b c) (fun v s _ => do
    let t := v.f.s.getD c.toNat 0
    let dev : BitVec 16 := t.extractLsb' 0 16
    let asid : BitVec 16 := t.extractLsb' 16 16
    let id : BitVec 8 := (v.sval a).setWidth 8
    v.holdXfence
    if rel && !(s.fenceWaits v.f.ref).isEmpty then .error .stall
    match f, cg with
    | .arv, true =>
      let g ← v.stageCheck s dev asid true
      let inc := v.sval b
      let p : Packets := {
        dst := dev, mc := false
        make := fun _ s => (v.request asid 0 (.staged g.cgid (s.nextRecord g.cgid dev asid) (some id) [] inc) .device,
          .record g.cgid (match s.cg? g.cgid with | some g => g.destIndex dev asid | none => 0))
        noted := fun _ s => s.noteRecord g.cgid dev asid (recordBytes 0 (some id) [] inc) false
        lost := fun _ s => s.noteRecord g.cgid dev asid (recordBytes 0 (some id) [] inc) true }
      let n := s.nextId
      let s ← v.sendOne p s
      let ids := (s.requests.filter fun q => q.id == n).map (·.id)
      pure ({ s := s, now := [], held := [], out := some { Out.of [] with remote := ids }, done := 0 }, [])
    | .arv, false =>
      let p : Packets := {
        dst := dev, mc := false
        make := fun _ _ => (v.request asid 0 (.arrive id (v.sval b)) .device, .nothing)
        noted := fun _ s => s, lost := fun _ s => v.linkLost 0 s }
      let n := s.nextId
      let s ← v.sendOne p s
      let ids := (s.requests.filter fun q => q.id == n).map (·.id)
      pure ({ s := s, now := [], held := [], out := some { Out.of [] with remote := ids }, done := 0 }, [])
    | .mem d op ty, _ =>
      let va : VA := (v.sval a).setWidth 56
      let n := atomBits ty / 8
      v.require .segmentLimit (v.inSegment .rm va.toNat n) (va.setWidth 64)
      v.require .misaligned (va.toNat % n == 0)
      let arg := BitVec.ofNat 64 (v.atomArg ty ⟨b, true, false⟩ v.lane0)
      let new := v.f.s.getD d.toNat 0
      let p : Packets := {
        dst := dev, mc := false
        make := fun _ _ => (v.request asid va (.atom op ty arg new) .device,
          .scalar v.f.nextOut d.toNat (if n == 8 then .n64 else .n32))
        noted := fun _ s => s, lost := fun _ s => v.linkLost va s }
      let n := s.nextId
      let s ← v.sendOne p s
      let ids := (s.requests.filter fun q => q.id == n).map (·.id)
      pure ({ s := s, now := [], held := [], out := some { Out.of [.s d.toNat 0] with remote := ids }, done := 0 }, [])) s

/-- XFENCE (R437). -/
def execXfence (sw : Bool) (s : State) : Result :=
  issue sw 8 (fun _ => []) (fun v s =>
    .ok (s.defer v.f { Out.of [] with remote := s.fenceWaits v.f.ref, rfence := true })) s

/-- XPOST (R372, R373): the image goes to the target, whose answer is the status. -/
def execXpost (sw : Bool) (sp : Space) (d : BitVec 6) (a b : BitVec 8) (s : State) : Result :=
  issueMem sw 8 (fun v => useS a v.g.lanes ++ useS b v.g.lanes ++ defS d.toNat v.g.lanes) (fun v s rep => do
    let t := v.sval a
    let (s, img, err, frames) ← v.postImage s sp d b .pod true rep
    if !frames.isEmpty then return frozen s frames
    if err.isSome then return ({ s := s, now := [], held := [], out := some { Out.of [.s d.toNat 0] with err := err }, done := 0 }, [])
    v.holdXfence
    let p : Packets := {
      dst := t.extractLsb' 0 16, mc := false
      make := fun _ _ => (v.request v.f.asid 0 (.post (t.extractLsb' 16 6) img) .pod, .status v.f.nextOut d.toNat)
      noted := fun _ s => s, lost := fun _ s => v.linkLost 0 s }
    let n := s.nextId
    let s ← v.sendOne p s
    let ids := (s.requests.filter fun q => q.id == n).map (·.id)
    let out := { Out.of (if ids.isEmpty then [] else [.s d.toNat 0]) with regs := [.s d.toNat], remote := ids }
    pure ({ s := s, now := [], held := [], out := some out, done := 0 }, [])) s

/-! ### ARVSET and ARVWAIT (R434) -/

def execArvset (sw clr : Bool) (a b c : BitVec 8) (s : State) : Result :=
  issueMem sw 8 (fun v => useS a v.g.lanes ++ useS b v.g.lanes ++ useS c v.g.lanes) (fun v s _ => do
    let o := ((v.sval a).setWidth 32 : Word).toNat
    let id : BitVec 8 := (v.sval c).setWidth 8
    v.require .segmentLimit (v.inSegment .tm o 8) (BitVec.ofNat 64 o)
    v.require .misaligned (o % 8 == 0)
    v.require .barrierClobber (!v.tm.padTags.contains (o / 8)) (BitVec.ofNat 64 o)
    let s := s.withArrival v.f.asid id
    let spill := match s.arrival? v.f.asid id with | some e => e.spill | none => 0
    let (x, bad) := s.padValue v.f.ref.cl v.f.ref.team o 8
    let s := if clr then s.putPad v.f.ref.cl v.f.ref.team o (leBytes 8 0)
      else if bad then s
      else s.putPad v.f.ref.cl v.f.ref.team o (leBytes 8 (x + spill.toNat))
    let s := s.modArrival v.f.asid id fun e => { e with
      st := .armed, tgt := v.sval b, spill := 0, off := o, kern := v.f.kern, cl := v.f.ref.cl, clu := v.cl.index
      rank := v.f.ref.team }
    pure ({ s := s, now := [], held := [], out := some (Out.of []), done := 0 }, [])) s

def execArvwait (sw nf : Bool) (a : BitVec 8) (s : State) : Result :=
  issueMem sw 8 (fun v => useS a v.g.lanes) (fun v s _ =>
    let id : BitVec 8 := (v.sval a).setWidth 8
    if s.counterFull v.f id then
      .ok ({ s := v.acquireAfter nf .device s, now := [], held := [], out := none, done := 0 }, [])
    else .error (.wait s (.counter v.f.asid id.toNat nf 0))) s

/-! ### Collectives (R424, R435, R436) -/

/-- The bytes of a collective's result. -/
def CollDesc.size (d : CollDesc) : Nat := 4 * d.n * (if d.op == 3 then d.w + 2 else 1)

/-- A descriptor from its 128 bytes; none when it breaks the limits. -/
def collOf (b : List Byte) : Option CollDesc :=
  let ctl := blockNat b 0 8
  let f := cutBits ctl
  let np := f 23 20
  let d : CollDesc := {
    op := f 2 0, w := f 18 10, cmp := f 19 19 == 1, np := np, id := BitVec.ofNat 8 (f 31 24), grp := f 43 32, n := blockNat b 8 8
    src := blockNat b 16 8, dst := blockNat b 24 8, res := blockNat b 32 8
    leads := (upTo (min np 8)).map fun j => (BitVec.ofNat 16 (blockNat b (48 + 8 * j) 2), BitVec.ofNat 16 (blockNat b (50 + 8 * j) 2)) }
  let bad := f 63 44 != 0 || f 9 3 != 0 || decide (3 < d.op) || np == 0 || decide (8 < np) || d.n == 0 || decide (2 ^ 28 < d.n) ||
    (d.op == 3 && d.w == 0) || (d.cmp && (d.op != 0 || decide (np < 2))) || blockNat b 40 8 != 0 || blockNat b 112 16 != 0 ||
    (upTo (min np 8)).any (fun j => blockNat b (52 + 8 * j) 4 != 0)
  if bad then none else some d

/-- This device is its pod's leader. -/
def State.leads (s : State) (d : CollDesc) : Bool := d.leads.any fun l => l.1 == s.dev

/-- A region of a collective in place, a word at a time, with the frames that wait (R436). -/
def View.collRegion (v : View) (s : State) (need : Need) (noAlloc : List Nat) (va n : Nat) :
    Chk (State × List Mapped × List Nat) := do
  let g := v.f.segment 3
  let first := if va < g.base.toNat || g.limit.toNat ≤ va then va else g.limit.toNat
  v.require .segmentLimit (decide (va < 2 ^ 56) && v.inSegment .gl va n) (BitVec.ofNat 64 first)
  v.require .misaligned (va % 4 == 0) (BitVec.ofNat 64 va)
  let xs := (frameRuns va n).map fun r => (r, s.xlatOr v.agent v.c noAlloc r.1 need)
  match xs.findSome? fun x => match x.2 with | .hole pa => some pa | _ => none with
  | some pa => .error (.fault (.physicalHole pa))
  | none =>
    let meets := fun (q : Xlat) => (xs.find? fun x => x.2 == q).map (·.1.1)
    v.require .mappingError (meets .mapping).isNone (BitVec.ofNat 64 ((meets .mapping).getD 0))
    v.require .permission (meets .permission).isNone (BitVec.ofNat 64 ((meets .permission).getD 0))
    let s := xs.foldl (fun s x => match x.2 with | .ok e => s.keepXlat v.agent e | _ => s) s
    pure (s, xs.flatMap (fun x => match x.2 with
        | .ok e => (upTo (x.1.2 / 4)).map fun i => e.place (x.1.1 + 4 * i)
        | _ => []),
      xs.filterMap fun x => if x.2.waits then some (x.1.1 / 2 ^ 16) else none)

/-- The planes over which a collective is striped, and how they stand: one that drains holds it, one that is out gives LinkDown. -/
def State.stripes (s : State) (d : CollDesc) : Way :=
  let ps := upTo (min 16 (ceilDiv d.size 512))
  let st := fun p => s.planes.getD p .unavailable
  if ps.any fun p => st p == .draining then .later
  else if ps.all fun p => st p == .available && (s.planePort p).isSome then .go .self
  else .never

/-- Words of mapped memory at the level of device scope, with whether one was in error. -/
def State.readWords (s : State) (a : Agent) (ms : List Mapped) : State × List Word × Bool :=
  ms.foldl (fun acc m =>
    let (s, w, bad) := acc.1.loadWord a (.mem m) (some .device)
    (s, acc.2.1 ++ [w], acc.2.2 || bad)) (s, [], false)

/-- COLL (R435, R436): the checks, the release of src and res, and the contributions to the combining group. -/
def execColl (sw : Bool) (a : BitVec 8) (s : State) : Result :=
  issueMem sw 8 (fun v => useS a v.g.lanes) (fun v s rep => do
    let addr := v.wideAddr .gl a
    v.require .misaligned (addr % 128 == 0)
    let (s, b, err, frames) ← v.wideLoad s .gl addr 128 128 rep
    if !frames.isEmpty then return frozen s frames
    if err.isSome then return ({ s := s, now := [], held := [], out := some { Out.of [] with err := err }, done := 0 }, [])
    let d ← match collOf b with
      | some d => (pure d : Chk CollDesc)
      | none => .error (v.stop .jobFault v.g.lanes (BitVec.ofNat 64 addr) 0xFF)
    let noAlloc := noAllocOf rep
    let (s, src, f1) ← v.collRegion s .read noAlloc d.src d.size
    let (s, dst, f2) ← v.collRegion s .write noAlloc d.dst d.size
    let (s, res, f3) ← if d.cmp && s.leads d then v.collRegion s .both noAlloc d.res (4 * d.n) else pure (s, [], [])
    if !(f1 ++ f2 ++ f3).isEmpty then return frozen s (f1 ++ f2 ++ f3)
    v.holdXfence
    let go ← match s.stripes d with
      | .later => (.error .stall : Chk Bool)
      | .never => pure false
      | .go _ => pure true
    let regions := [(d.src, d.size)] ++ (if res.isEmpty then [] else [(d.res, 4 * d.n)])
    let s := s.throughAll v.agent .home (inRegions v.f.asid regions)
    if !go then return ({ s := v.linkLost (BitVec.ofNat 56 d.src) s, now := [], held := [], out := some (Out.of []), done := 0 }, [])
    let (s, ws, bad) := s.readWords v.agent src
    if bad then
      let err := dataErr ((lanesOf v.g.lanes).map fun l => (l, d.src)) v.g.lanes
      return ({ s := s, now := [], held := [], out := some { Out.of [] with err := err }, done := 0 }, [])
    let place := fun (m : Mapped) => Place.home m.pa m.die m.key m.cp
    let c : Coll := { id := s.nextId, f := v.f.ref, asid := v.f.asid, desc := d, dst := dst.map place, res := res.map place
                      st := .combine, src := ws, own := .plain [] }
    let s := ({ s with colls := s.colls ++ [c], nextId := s.nextId + 1 } : State).say (.coll d.grp ws)
    pure ({ s := s, now := [], held := [], out := some (Out.of []), done := 0 }, [])) s

/-- FP32 values and their rounding, without flush or flag (R424). -/
def f32Value (w : Word) : XVal := (fpFmt .f32).value w.toNat
def f32Round (x : XVal) : Word := quietly (roundFp 0 0 .f32 .rne x)

/-- The largest value, as FMAX without .nan. -/
def largest (xs : List XVal) : XVal :=
  match xs with
  | [] => .nan
  | x :: rest => rest.foldl (pickX true false) x

/-- The combination of one triple record's contributions (R424). -/
def combineTriple (recs : List (List Word)) (w : Nat) : List Word :=
  let at_ := fun (r : List Word) (i : Nat) => f32Value (r.getD i 0)
  let m := largest (recs.map fun r => at_ r 0)
  if m == .inf true then f32Round m :: List.replicate (w + 1) 0
  else
    let f := fun (r : List Word) =>
      if at_ r 0 == .inf true then XVal.zero
      else f32Value (f32Round (exp2X (f32Value (f32Round (quietly (xadd (at_ r 0) m.neg))))))
    f32Round m :: (upTo (w + 1)).map fun i =>
      f32Round (quietly (exactSum (recs.map fun r => quietly (xmul (at_ r (i + 1)) (f r)))))

/-- The value of an element of what a leader sent. -/
def LeaderValue (d : LeaderData) (j : Nat) : XVal :=
  match d with
  | .plain ws => f32Value (ws.getD j 0)
  | .coded codes x8 =>
    match x8Scale (x8.getD (j / 128) 0) with
    | .fin _ k => XVal.ofRat (mkRat ((decodeLE8 (codes.getD (j / 8) 0)).getD (j % 8) 0) 2 * k)
    | _ => .nan

def plainWords : LeaderData → List Word
  | .plain ws => ws
  | .coded .. => []

/-- The combination of the members' or the pods' values (R424): one rounding for each element. -/
def combine (d : CollDesc) (xs : List LeaderData) : List Word :=
  match d.op with
  | 0 => (upTo d.n).map fun j => f32Round (quietly (exactSum (xs.map fun x => LeaderValue x j)))
  | 1 => (upTo d.n).map fun j => f32Round (largest (xs.map fun x => LeaderValue x j))
  | 2 => (upTo d.n).map fun j => (xs.map fun x => (plainWords x).getD j 0).foldl (· + ·) 0
  | _ => (upTo d.n).flatMap fun r =>
      combineTriple (xs.map fun x => ((plainWords x).drop (r * (d.w + 2))).take (d.w + 2)) d.w

/-- One 128-element block of the LE8 exchange (R436): its scale and codes. -/
def codeBlock (ts : List XVal) : Byte × List (BitVec 16) :=
  if ts.any XVal.isNan then (0xFF, List.replicate 16 0)
  else
    let mag : List Rat := ts.map fun x => match x with | .fin _ m => m | _ => 0
    let top := mag.foldl (fun a b => if a < b then b else a) 0
    let e : Nat :=
      if ts.any (fun x => match x with | .inf _ => true | _ => false) then 254
      else if top == 0 then 0
      else (max 0 (min 254 (ilog2 top + 127))).toNat
    let scaled := ts.map fun x => match x with | .fin n m => XVal.fin n (m * pow2 (127 - (e : Int))) | x => x
    (BitVec.ofNat 8 e, (upTo 16).map fun i => (quietly (quantLE8 0 ((scaled.drop (8 * i)).take 8))).getD 0)

/-- Stage 2 at a leader with cmp: what it sends, and the new residuals. -/
def compress (d : CollDesc) (dst res : List Word) : LeaderData × List Word :=
  let ts := (dst.zip res).map fun x => quietly (xadd (f32Value x.1) (f32Value x.2))
  let padded := ts ++ List.replicate (ceilDiv d.n 128 * 128 - d.n) XVal.zero
  let blocks := (upTo (ceilDiv d.n 128)).map fun i => codeBlock ((padded.drop (128 * i)).take 128)
  let data := LeaderData.coded (blocks.flatMap (·.2)) (blocks.map (·.1))
  (data, ts.mapIdx fun j t => f32Round (quietly (xadd t (LeaderValue data j).neg)))

/-- The words at places of home. -/
def State.wordsAt (s : State) (ps : List Place) : List Word := ps.map fun p => BitVec.ofNat 32 (s.peek p none 4)

def State.modColl (s : State) (id : Nat) (u : Coll → Coll) : State :=
  { s with colls := s.colls.map fun c => if c.id == id then u c else c }

/-- The completion of a collective: an acquire of its result regions for the issuer (R246), and the arrival. -/
def State.endColl (s : State) (c : Coll) : State :=
  let results := (c.desc.dst, c.desc.size) :: (if c.res.isEmpty then [] else [(c.desc.res, 4 * c.desc.n)])
  let s := match s.fibre? c.f with
    | some f => s.discard (s.agentOfFibre f) .home (inRegions c.asid results)
    | none => s
  ({ s with colls := s.colls.filter fun x => x.id != c.id } : State).arrive c.asid c.desc.id (BitVec.ofNat 64 c.desc.size)

/-- Stage 2 begins at a leader. -/
def State.exchange (s : State) (c : Coll) (ws : List Word) : State :=
  let (data, s) := if c.desc.cmp then
      let (data, res) := compress c.desc ws (s.wordsAt c.res)
      (data, s.putPlaces c.asid c.res res)
    else (.plain ws, s)
  let s := (c.desc.leads.filter fun l => l.1 != s.dev).foldl (fun s l => s.say (.leader l.1 l.2 data)) s
  s.modColl c.id fun c => { c with st := .exchange, own := data }

/-- COLL_RESULT_ARRIVE (R424, R436): what the other members contributed, which the Yardarm combines with the device's own contribution; or the
leader's multicast of the final result, in one part. -/
def execCollResultArrive (id : Nat) (parts : List (List Word)) (s : State) : Result :=
  match s.colls.find? fun c => c.id == id with
  | none => .next s
  | some c =>
    if !(parts.all fun p => 4 * p.length == c.desc.size) then .next s
    else match c.st, parts with
      | .combine, parts =>
        let words := combine c.desc (.plain c.src :: parts.map .plain)
        let s := s.putPlaces c.asid c.dst words
        if c.desc.np == 1 then .next (s.endColl c)
        else if s.leads c.desc then .next (s.exchange c words)
        else .next (s.modColl id fun c => { c with st := .spread })
      | .spread, [words] => .next ((s.putPlaces c.asid c.dst words).endColl c)
      | _, _ => .next s

/-- The form that another leader's data have. -/
def CollDesc.fits (d : CollDesc) : LeaderData → Bool
  | .plain ws => !d.cmp && 4 * ws.length == d.size
  | .coded codes x8 => d.cmp && x8.length == ceilDiv d.n 128 && codes.length == 16 * ceilDiv d.n 128

/-- LEADER_EXCHANGE_ARRIVE (R436): the data of every other leader; the combination goes to dst and, by multicast, to the pod. -/
def execLeaderExchangeArrive (id : Nat) (data : List LeaderData) (s : State) : Result :=
  match s.colls.find? fun c => c.id == id with
  | none => .next s
  | some c =>
    if c.st != .exchange || data.length + 1 != c.desc.np || !data.all c.desc.fits then .next s
    else
      let ws := combine c.desc (c.own :: data)
      .next (((s.putPlaces c.asid c.dst ws).say (.multicast c.desc.grp ws)).endColl c)

end Sys2Proof.Machine
end

