-- ==== Sys2Proof/Machine/Link.lean ====
section
/-! DEFINITION. Ports and planes (21_link.md R408 to R411, R413, R419, R423, R425 to R427): their events and the mailbox commands
LINKSET, LINKQUERY, PLANESET, SPANSET and DEVID (R429, R470). -/

namespace Sys2Proof.Machine

open Sys2Proof

/-! ### Ports -/

def State.port (s : State) (n : Nat) : Port := s.ports.getD n Port.reset

/-- The port die that holds a port: 16 Halyard and 4 Sirocco ports each (R22; log entry 18). -/
def portDieOf (n : Nat) : Nat := if n < 16 || (32 ≤ n && n < 36) then 0 else 1

/-- A port takes a state; the change is counted (R409). -/
def State.setPort (s : State) (n : Nat) (st : PortSt) : State := s.modPort n fun p => { p with st := st, changes := p.changes + 1 }

/-- The requests without a reply that left through a port. -/
def State.onPort (s : State) (n : Nat) : List Request := s.requests.filter fun q => q.path.port == some n && !q.backoff

/-- A port goes Down: its requests without replies are resent or ended (R409, R419). -/
def State.goDown (s : State) (n : Nat) : State :=
  let qs := s.onPort n
  let s := ((s.endBurst n).setPort n .down).modPort n fun p => { p with lanes := 0, frames := [] }
  qs.foldl State.resend s

/-- A port begins to train (R409, R411). -/
def State.train (s : State) (n : Nat) : State :=
  if n < 40 && s.devGiven && s.portRuns (portDieOf n) && (s.port n).st == .down then { s.setPort n .training with leftDown := true } else s

/-- The state of a trained port by its lanes: 4 of a Halyard port and the one of a Sirocco port are full width; a Halyard port trains
on 4, 2 or 1. -/
def trainedSt (n lanes : Nat) : Option PortSt :=
  if n < 32 then (if lanes == 4 then some .up else if lanes == 1 || lanes == 2 then some .degraded else none)
  else if lanes == 1 then some .up else none

/-- The far end of a port is not the one that it should lead to (R411, R427). -/
def State.farWrong (s : State) (n : Nat) (far : BitVec 16) : Bool :=
  if n < 32 then podOf far != podOf s.dev else !(s.span.getD (podOf far) 0).getLsbD (n - 32)

/-- PORT_TRAINED (R409, R411, R425, R427): the far end's id and incarnation are recorded; a new incarnation shows that the far end
was reset (R447). -/
def execPortTrained (port lanes : Nat) (far : BitVec 16) (inc : BitVec 32) (s : State) : Result :=
  let p := s.port port
  match trainedSt port lanes with
  | none => .next s
  | some st =>
    let up := fun (s : State) => (s.setPort port st).modPort port fun p => { p with lanes := lanes, replays := 0, far := far, farInc := inc }
    let s' := if p.far == far && p.farInc != inc && p.key + p.changes != 0 then s.discardFrom far else s
    match p.st with
    | .training =>
      if s.farWrong port far then .next ((s.goDown port).note (.portRefused port))
      else .next ((up s').modPort port fun p => if port < 32 then p else { p with key := p.key + 1, sent := 0, rekey := false })
    | .retraining => .next (up (s'.endBurst port))
    | _ => .next s

/-- PORT_TRAINING_FAIL (R409): 16 attempts have failed. -/
def execPortTrainingFail (port : Nat) (s : State) : Result :=
  match (s.port port).st with
  | .training | .retraining => .next ((s.goDown port).note (.portTraining port))
  | _ => .next s

/-- LANE_LOST (R409). -/
def execLaneLost (port : Nat) (s : State) : Result :=
  let p := s.port port
  if !p.live then .next s
  else if p.lanes ≤ 1 then .next (((s.endBurst port).setPort port .retraining).modPort port fun p => { p with lanes := 0 })
  else .next ((s.setPort port .degraded).modPort port fun p => { p with lanes := p.lanes - 1 })

/-- REPLAY_LIMIT (R409): 8 consecutive replays of one flit or frame. -/
def execReplayLimit (port : Nat) (s : State) : Result :=
  let p := s.port port
  if p.live && decide (8 ≤ p.replays) then .next ((s.endBurst port).setPort port .retraining) else .next s

/-- FLIT_CRC_ERROR (R408, R425): a flit or frame is discarded and replayed. -/
def execFlitCrcError (port : Nat) (s : State) : Result :=
  if (s.port port).live then .next (s.modPort port fun p => { p with replays := p.replays + 1, retries := p.retries + 1 })
  else .next s

/-- PORT_DOWN (R409, R419). -/
def execPortDown (port : Nat) (s : State) : Result :=
  if (s.port port).st == .down || 40 ≤ port then .next s else .next (s.goDown port)

/-- FRAME_ACK (R426): the far end has acknowledged the oldest frames of a Sirocco port. -/
def execFrameAck (port n : Nat) (s : State) : Result :=
  if 32 ≤ port then .next ((s.endBurst port).modPort port fun p => { p with frames := p.frames.drop n }) else .next s

/-- SIROCCO_KEY_ROLLOVER (R425): after 2^30 frames or on the host's command. -/
def execSiroccoKeyRollover (port : Nat) (s : State) : Result :=
  let p := s.port port
  if 32 ≤ port && p.st != .down && p.st != .training && (p.rekey || decide (2 ^ 30 ≤ p.sent)) then
    .next (s.modPort port fun p => { p with key := p.key + 1, sent := 0, rekey := false })
  else .next s

/-! ### Planes (R410, R423) -/

/-- YARDARM_ROUTE_REPORT (R410): a Yardarm reports whether its plane has a route to a device. -/
def execYardarmRouteReport (plane : Nat) (dev : BitVec 16) (present : Bool) (s : State) : Result :=
  if plane < 16 then
    .next { s with routes := if present then addOnce s.routes (plane, dev) else s.routes.filter fun r => r != (plane, dev) }
  else .next s

def State.plane (s : State) (p : Nat) : PlaneSt := s.planes.getD p .unavailable

def State.setPlane (s : State) (p : Nat) (st : PlaneSt) : State :=
  if h : p < 16 then { s with planes := s.planes.set p st } else s

/-- A collective whose stripes use a plane, and whose combined or final result the device still awaits (R436). -/
def Coll.on (c : Coll) (plane : Nat) : Bool := c.st != .exchange && decide (plane < min 16 (ceilDiv c.desc.size 512))

/-- A commit group some destination of which has not answered, in this pod over the plane, what the group sent it (R445). -/
def State.awaits (s : State) (g : CommitGroup) (plane : Nat) : Bool :=
  let open_ := fun (d : CgDest) => match g.st with
    | .preparing => g.asked && !d.ready && d.retry.isNone
    | .hoisted => d.acked.isNone
    | _ => false
  g.dests.any fun d => open_ d && d.dev != s.dev && podOf d.dev == podOf s.dev && s.routes.contains (plane, d.dev)

/-- PLANE_DRAIN_COMPLETE (R423): the last request on the plane has been answered; of a commit group's message the plane is not recorded, and
every plane to its destination waits (log entry 18). -/
def execPlaneDrainComplete (plane : Nat) (s : State) : Result :=
  if s.plane plane == .draining && !(s.requests.any fun q => q.path.planeOf == some plane && !q.backoff) &&
      !(s.colls.any fun c => c.on plane) && !(s.cgs.any fun g => s.awaits g plane) then
    .next ((s.setPlane plane .unavailable).note (.planeDrained plane))
  else .next s

/-- PLANESET (R423). -/
def execPlaneset (plane : Nat) (r : PlaneReq) (s : State) : Result :=
  mailbox (fun s =>
    if 16 ≤ plane then .next (s.answer false)
    else match r, s.plane plane with
      | .drain, .available => .next ((s.setPlane plane .draining).answer true)
      | .enable, .unavailable => .next ((s.setPlane plane .available).answer true)
      | _, _ => .next (s.answer false)) s

/-! ### LINKSET, LINKQUERY, SPANSET, DEVID -/

/-- LINKSET (R409, R411, R425, R441, R470). -/
def execLinkset (r : LinkSetReq) (s : State) : Result :=
  mailbox (fun s =>
    match r with
    | .up n =>
      if n < 40 && s.devGiven && s.portRuns (portDieOf n) && (s.port n).st == .down then .next ((s.train n).answer true)
      else .next (s.answer false)
    | .down n => if n < 40 then .next ((if (s.port n).st == .down then s else s.goDown n).answer true) else .next (s.answer false)
    | .staging n =>
      if decide (2 ^ 24 ≤ n) && decide (n ≤ 2 ^ 30) && s.ports.all (fun p => p.st == .down) then
        .next ({ s with staging := n }.answer true)
      else .next (s.answer false)
    | .tier2Rate n => if n != 0 && decide (n ≤ 14375) then .next ({ s with t2rate := n }.answer true) else .next (s.answer false)
    | .rekey n =>
      if 32 ≤ n && n < 40 then .next ((s.modPort n fun p => { p with rekey := true }).answer true) else .next (s.answer false)) s

def PortSt.code : PortSt → Nat
  | .down => 0
  | .training => 1
  | .up => 2
  | .degraded => 3
  | .retraining => 4

/-- A tier-2 channel in service: its training has not left it out, and its port die has been admitted (R2, R468, R470). -/
def State.channelOn (s : State) (n : Nat) : Bool :=
  let st := (s.pdies.getD (if n < 24 then 0 else 1) PortDie.reset).st
  s.t2chan.getD n 0 != 0 && (st == .admitted || st == .running)

/-- LINKQUERY (R409, R470): a port's state, lanes, far end and counters, or a channel's state, ranks, capacity in GiB and rate. -/
def execLinkquery (r : LinkQueryReq) (s : State) : Result :=
  mailbox (fun s =>
    let w := fun (l : List Nat) => l.map (BitVec.ofNat 64)
    match r with
    | .port n =>
      if n < 40 then
        let p := s.port n
        .next (s.answer true (w [p.st.code, p.lanes, p.far.toNat, p.farInc.toNat, p.retries, p.changes, p.key]))
      else .next (s.answer false)
    | .channel n =>
      if n < 48 then
        .next (s.answer true (w [if s.channelOn n then 1 else 0, (Config.tier2Ranks n).val + 1, s.t2chan.getD n 0, s.t2rate]))
      else .next (s.answer false)) s

/-- SPANSET (R427). -/
def execSpanset (pod : BitVec 7) (mask : BitVec 8) (s : State) : Result :=
  mailbox (fun s => .next ({ s with span := s.span.set pod.toNat mask (by have := pod.isLt; omega) }.answer true)) s

/-- DEVID (R411): refused once a port has left Down; the ports whose port die runs then train (R409). -/
def execDevid (pod : BitVec 7) (dev : BitVec 9) (s : State) : Result :=
  mailbox (fun s =>
    if s.leftDown then .next (s.answer false)
    else
      let s := { s with dev := pod ++ dev, devGiven := true }
      .next (((upTo 40).foldl State.train s).answer true)) s

end Sys2Proof.Machine
end

