-- ==== Sys2Proof/Machine/Pages.lean ====
section
/-! DEFINITION. The memory processor (07_page.md R192 to R205, R210): its requests, shootdowns and migrations, and the
replacement of lines (R30). -/

namespace Sys2Proof.Machine

open Sys2Proof

/-! ### Tables -/

/-- A leaf word (R194). -/
def leafWord (pa : Nat) (tier home : BitVec 2) (a : LeafAttr) : DWord :=
  BitVec.ofNat 64 (a.key.toNat * 2 ^ 52 + pa / 2 ^ 16 * 2 ^ 16 + home.toNat * 2 ^ 12) |||
    ((0 : BitVec 53) ++ bit a.cp ++ bit a.ms ++ bit a.rp ++ bit a.na ++ tier ++ bit a.x ++ bit a.w ++ bit a.r ++ 1#1 ++ 1#1)

def leafBit (n : Nat) : DWord := BitVec.ofNat 64 (2 ^ n)
def withMg (e : DWord) : DWord := e ||| leafBit 11
def withoutMg (e : DWord) : DWord := e &&& ~~~(leafBit 11)

/-- The address of the entry at which the walk of an address ends, from a table of a level. -/
def State.entryAt (s : State) (va : Nat) : Nat → Nat → Nat → Option (Nat × Nat × DWord)
  | 0, _, _ => none
  | fuel + 1, level, table =>
    let pa := table + 8 * walkIndex level va
    let e := s.home64 pa
    if (s.tierOf pa 8).isNone || !e.getLsbD 0 then none
    else if e.getLsbD 1 then some (pa, level, e)
    else s.entryAt va fuel (level + 1) (tableNext e)

/-- A mapped or migrating page of a context: the place of its leaf, its level and the leaf. -/
def State.pageOf (s : State) (c : Context) (va : Nat) : Option (Nat × Nat × DWord) := s.entryAt va 5 1 c.ptroot

def pageBase (level va : Nat) : Nat := va / pageSize level * pageSize level

/-- An entry at which no page is mapped: invalid, or a table without leaves. -/
def State.emptyAt (s : State) (level : Nat) (e : DWord) : Bool :=
  !e.getLsbD 0 || (!e.getLsbD 1 && (s.leavesOf 5 (level + 1) (tableNext e)).isEmpty)

/-- The walkers forget a table (R197). -/
def State.forgetTable (s : State) (table : Nat) : State := { s with walks := s.walks.filter fun x => x.2.next != table }

/-- Write a leaf for an address, taking new tables where the walk has none; none when a page is mapped already or a table is
wanting. A leaf takes the place of a table under which no page is mapped. -/
def State.mapDown (s : State) (va level : Nat) (leaf : DWord) : Nat → Nat → Nat → List Nat → Option (State × List Nat)
  | 0, _, _, _ => none
  | fuel + 1, lv, table, ts =>
    let pa := table + 8 * walkIndex lv va
    let e := s.home64 pa
    if (s.tierOf pa 8).isNone then none
    else if lv == level then
      (if s.emptyAt lv e then some ((if e.getLsbD 0 then s.forgetTable (tableNext e) else s).putHomeBytes pa (leBytes 8 leaf.toNat), ts) else none)
    else if e.getLsbD 0 then
      if e.getLsbD 1 || tableMalformed lv e then none else s.mapDown va level leaf fuel (lv + 1) (tableNext e) ts
    else match ts with
      | [] => none
      | t :: rest =>
        if t % tableAlign (lv + 1) != 0 || s.tierOf t (tableAlign (lv + 1)) != some 0 then none
        else
          let s := (s.clearHome t (tableAlign (lv + 1))).putHomeBytes pa (leBytes 8 (t + 1))
          s.mapDown va level leaf fuel (lv + 1) t rest

def keyOk (c : Context) (k : Byte) : Bool := k == 0 || c.keymask.getLsbD k.toNat

/-- MAP (R202, R210): every page, or none when one is mapped already or cannot be. -/
def State.mapAll (s : State) (c : Context) (va level : Nat) (pas : List Nat) (tier home : BitVec 2) (attr : LeafAttr)
    (tables : List Nat) : Option State := do
  if level < 2 || 5 < level || va % pageSize level != 0 || pas.isEmpty || 2 ^ 56 < va + pas.length * pageSize level ||
      !keyOk c attr.key then none
  let (s, _) ← (pas.zip (upTo pas.length)).foldlM (fun (acc : State × List Nat) p => do
    let leaf := leafWord p.1 tier home attr
    if p.1 % 2 ^ 16 != 0 || leafMalformed s.t2cap (s.keys.map (·.1)) level leaf then none
    acc.1.mapDown (va + p.2 * pageSize level) level leaf 5 1 c.ptroot acc.2) (s, tables)
  some s

/-! ### Requests page by page (R202, R210) -/

/-- A page waits behind what pins it: a staged group or a collective (R436, R444). -/
def State.heldPage (s : State) (a : BitVec 16) (base size : Nat) (leaf : DWord) : Bool :=
  s.staged.any (fun g => g.asid == a && g.pins.any fun f => decide (base ≤ f * 2 ^ 16) && decide (f * 2 ^ 16 < base + size)) ||
    s.colls.any fun c => c.asid == a &&
      ((c.dst ++ c.res).any (fun p => match p with
        | .home pa .. => decide (leafPa leaf ≤ pa) && decide (pa < leafPa leaf + size)
        | .pad .. => false) ||
      (decide (base < c.desc.src + c.desc.size) && decide (c.desc.src < base + size)))

/-- A shootdown of the page is in progress. -/
def Context.shooting (c : Context) (base size : Nat) : Bool :=
  c.shoot.any fun x => decide (x.1 < base + size) && decide (base < x.1 + x.2.1)

/-- The frames of 64 KiB of a page. -/
def pageFrames (base size : Nat) : List Nat := (upTo (size / 2 ^ 16)).map fun i => base / 2 ^ 16 + i

/-- PROTECT's new leaf, and whether it takes something away (R202). -/
def protectLeaf (e : DWord) (a : LeafAttr) : DWord × Bool :=
  let new := leafWord (leafPa e) (BitVec.ofNat 2 (leafTier e)) (BitVec.ofNat 2 (leafHome e)) a
  let lost := e &&& ~~~new &&& 0x1C
  let other := (e ^^^ new) &&& (leafBit 7 ||| leafBit 8 ||| leafBit 9 ||| leafBit 10)
  (new, lost != 0 || other != 0 || leafKey e != leafKey new)

def State.begin_ (s : State) (a : BitVec 16) (base size : Nat) (old : DWord) (mig : Bool) : State :=
  s.modCtx a fun c => { c with shoot := c.shoot ++ [(base, size, old, mig)] }

/-- Accesses parked on a page that has become unmapped are released (R202): they replay, meet the invalid entry and take MappingError. -/
def State.releaseFrames (s : State) (a : BitVec 16) (entry base size : Nat) : State :=
  let inPage := fun (f : Nat) => decide (base ≤ f * 2 ^ 16) && decide (f * 2 ^ 16 < base + size)
  let rest := fun (fr : List Nat) => fr.filter fun f => !inPage f
  let fib : Fibre → Fibre := fun f => match f.st with
    | .frozen (.replay fr) =>
      if f.asid == a && fr.any inPage then { f with
        st := if (rest fr).isEmpty then .run else .frozen (.replay (rest fr)), noFetch := addOnce f.noFetch entry
        replay := f.replay.map fun x => if x.gang == f.turn then { x with noAlloc := addOnce x.noAlloc entry } else x }
      else f
    | _ => f
  let mine := fun (t : Team) => ((s.cluster? t.cl).bind s.kernelOf).any fun k => k.asid == a
  let job : Job → Job := fun j => if j.frames.any inPage then { j with frames := rest j.frames, noAlloc := addOnce j.noAlloc entry } else j
  let team : Team → Team := fun t => if mine t then { t with jobs := t.jobs.map job } else t
  { s with fibres := s.fibres.map fib, teams := s.teams.map team }

/-- One page of a request: none when it must wait. -/
def State.pageStep (s : State) (c : Context) (r : PageReq) : Option (State × PageReq) :=
  match s.pageOf c r.va with
  | none => some (s, { r with va := r.va + 2 ^ 16 })
  | some (at_, level, e) =>
    let base := pageBase level r.va
    let size := pageSize level
    let next := { r with va := base + size }
    if c.shooting base size || s.heldPage c.asid base size e then none
    else match r.op with
      | .map .. => some (s, { r with va := r.stop })
      | .unmap =>
        let s := s.putHomeBytes at_ (leBytes 8 (e &&& ~~~1#64).toNat)
        if leafMg e then
          some ((s.modCtx c.asid fun c => { c with moving := c.moving.filter fun x => x.1 != base }).releaseFrames c.asid at_ base size, next)
        else some (s.begin_ c.asid base size e false, next)
      | .protect a =>
        if leafMg e then none
        else
          let (new, down) := protectLeaf e a
          let s := s.putHomeBytes at_ (leBytes 8 new.toNat)
          some (if down then s.begin_ c.asid base size e false else s, next)
      | .migrate tier home pas =>
        if leafMg e then none
        else match pas with
          | [] => some (s, { r with va := r.stop })
          | pa :: rest =>
            let s := (s.putHomeBytes at_ (leBytes 8 (withMg e).toNat)).modCtx c.asid fun c =>
              { c with moving := c.moving ++ [(base, pa, tier.toNat, home.toNat)] }
            some (s.begin_ c.asid base size e true, { next with op := .migrate tier home rest })
      | .pin =>
        if leafMg e then none
        else
          let fs := (pageFrames base size).filter fun f => decide (r.first / 2 ^ 16 ≤ f) && decide (f * 2 ^ 16 < r.stop)
          some (s.modCtx c.asid fun c => { c with pins := fs.foldl addOnce c.pins }, next)
      | .unpin | .translate => some (s, { r with va := r.stop })

/-- The pages of a request as far as they go; `fuel` bounds the pages. -/
def State.pageRun : Nat → State → BitVec 16 → PageReq → State × PageReq
  | 0, s, _, r => (s, r)
  | n + 1, s, a, r =>
    if r.stop ≤ r.va then (s, r)
    else match s.ctx? a with
      | none => (s, { r with va := r.stop })
      | some c =>
        -- the page before must have completed its shootdown
        if c.shoot.any fun x => !x.2.2.2 then (s, r)
        else match s.pageStep c r with
          | none => (s, r)
          | some (s, r) => State.pageRun n s a r

/-- The mapped pages of a range: first address, level and leaf of each; none when a part of one lies outside. -/
def State.wholePages (s : State) (c : Context) : Nat → Nat → Nat → Option (List (Nat × Nat × DWord))
  | 0, _, _ => none
  | n + 1, va, stop =>
    if stop ≤ va then some []
    else match s.pageOf c va with
      | none => s.wholePages c n (va + 2 ^ 16) stop
      | some (_, level, e) =>
        if va % pageSize level != 0 || stop < va + pageSize level then none
        else (s.wholePages c n (va + pageSize level) stop).map ((va, level, e) :: ·)

/-- A range of whole pages, each mapped one of which a test accepts. -/
def State.rangeOk (s : State) (c : Context) (va len : Nat) (p : Nat × Nat × DWord → Bool) : Bool :=
  decide (0 < len) && decide (va + len ≤ 2 ^ 56) && dvd (2 ^ 16) va && dvd (2 ^ 16) len && match s.wholePages c (len / 2 ^ 16 + 1) va (va + len) with
    | some ps => ps.all p
    | none => false

/-- The frames of a range. -/
def rangeFrames (va len : Nat) : List Nat := (frameRuns va len).map fun r => r.1 / 2 ^ 16

/-- Frames that a context's queues need stay pinned (R203). -/
def State.queueFrames (s : State) (a : BitVec 16) : List Nat :=
  (s.queues.toList.filter fun q => q.st != .disabled && q.asid == a).flatMap fun q =>
    rangeFrames q.rva.toNat (128 * 2 ^ q.lsz) ++ rangeFrames q.pva.toNat 8 ++ rangeFrames q.cva.toNat 8

/-- A page that is never migrated (R203): one with PIN set, or that holds what is always pinned. -/
def State.pinnedPage (s : State) (c : Context) (p : Nat × Nat × DWord) : Bool :=
  let size := pageSize p.2.1
  (pageFrames p.1 size).any c.pins.contains ||
    s.fixedRanges.any fun r => decide (leafPa p.2.2 < r.1 + r.2) && decide (r.1 < leafPa p.2.2 + size)

/-- The leaf of a page that has moved, its attributes kept. -/
def movedLeaf (e : DWord) (pa : Nat) (tier home : BitVec 2) : DWord :=
  leafWord pa tier home ⟨e.getLsbD 2, e.getLsbD 3, e.getLsbD 4, e.getLsbD 7, e.getLsbD 8, e.getLsbD 9, e.getLsbD 10, leafKey e⟩

/-- A page may move to a new one (R203, R331): it is not pinned, and one that holds a tagged word stays in HBM. -/
def State.mayMove (s : State) (c : Context) (p : Nat × Nat × DWord) (pa : Nat) (tier home : BitVec 2) : Bool :=
  pa % 2 ^ 16 == 0 && !leafMalformed s.t2cap (s.keys.map (·.1)) p.2.1 (movedLeaf p.2.2 pa tier home) && !s.pinnedPage c p &&
    (tier == 0 || !s.tagsIn (leafPa p.2.2) (pageSize p.2.1))

/-- A request that is served is refused, or goes on (R203, R210, R331, R376). -/
def State.admitsReq (s : State) (c : Context) (r : PageReq) : Bool :=
  let len := r.stop - r.first
  match r.op with
  | .map .. => true
  | .unmap => s.rangeOk c r.first len fun _ => true
  | .protect attr => keyOk c attr.key && s.rangeOk c r.first len fun p =>
      !leafMalformed s.t2cap (s.keys.map (·.1)) p.2.1 (protectLeaf p.2.2 attr).1
  | .migrate tier home pas =>
    s.rangeOk c r.first len (fun _ => true) && match s.wholePages c (len / 2 ^ 16 + 1) r.first r.stop with
      | some ps => ps.length == pas.length && (ps.zip pas).all fun x => s.mayMove c x.1 x.2 tier home
      | none => false
  | .pin => len != 0 && (rangeFrames r.first len).all fun f => (s.pageOf c (f * 2 ^ 16)).isSome
  | .unpin => !((rangeFrames r.first len).any (s.queueFrames c.asid).contains)
  | .translate => true

/-- A frame that the memory processor has to map (R199). -/
def State.unmappedFrame (s : State) (c : Context) (fr : Nat) : Bool :=
  match s.freshXlat 0 c (fr * 2 ^ 16) .none with | .unmapped _ => true | _ => false

/-- A fibre of the context waits for a page that the memory processor has to map (R199). -/
def State.faulting (s : State) (c : Context) (f : Fibre) : Bool :=
  f.asid == c.asid && match f.st with
    | .frozen (.replay fr) => fr.any (s.unmappedFrame c)
    | _ => false

/-- The copy jobs of the context that wait for such a page. -/
def State.faultingJobs (s : State) (c : Context) : List (Nat × Nat × Nat) :=
  s.teams.flatMap fun t =>
    if ((s.cluster? t.cl).bind s.kernelOf).any fun k => k.asid == c.asid then
      (t.jobs.filter fun j => j.frames.any (s.unmappedFrame c)).map fun j => (t.cl, t.rank, j.id)
    else []

/-- What TRANSLATE answers (R210): 0 for not mapped, 1 for mapped and 2 for migrating; the physical address, the page size and the leaf. -/
def State.translation (s : State) (c : Context) (va : Nat) : List DWord :=
  match s.pageOf c va with
  | none => [0]
  | some (_, level, e) =>
    [if leafMg e then 2 else 1, BitVec.ofNat 64 (leafPa e + (va - pageBase level va)), BitVec.ofNat 64 (pageSize level), e]

/-- MIGRATEs no page of which moves any more are answered (R202, R210). -/
def State.settleOwed (s : State) (a : BitVec 16) : State :=
  match s.ctx? a with
  | none => s
  | some c =>
    let busy := fun (x : Nat × Nat) => c.moving.any fun m => decide (x.1 ≤ m.1) && decide (m.1 < x.2)
    if c.owed.all busy then s
    else (c.owed.filter fun x => !busy x).foldl (fun s _ => s.answer true) (s.modCtx a fun c => { c with owed := c.owed.filter busy })

/-- The requests of a context in arrival order: the first goes on once the faults before it are served, and is answered when its last page
is done; a MIGRATE whose pages all move gives way to the requests after it until its copies end (R202, R210). The memory processor is on
port die 0 (R468). -/
def State.pumpWork : Nat → State → BitVec 16 → State
  | 0, s, _ => s
  | n + 1, s0, a =>
    if !s0.portRuns 0 then s0 else
    let s := s0.settleOwed a
    match s.ctx? a with
    | none => s
    | some c =>
      match c.work with
      | [] => s
      | r :: rest =>
        let next := s.modCtx a fun c => { c with work := rest }
        if (s.fibres.any fun f => r.after.contains f.ref && s.faulting c f) || (s.faultingJobs c).any r.jobs.contains then s
        else if !r.begun && !s.admitsReq c r then State.pumpWork n (next.answer false) a
        else match r.op with
        | .map level pas tier home attr tables =>
          match s.mapAll c r.va level pas tier home attr tables with
          | some s2 => State.pumpWork n ((s2.modCtx a fun c => { c with work := rest }).answer true) a
          | none => State.pumpWork n (next.answer false) a
        | .translate => State.pumpWork n (next.answer true (s.translation c r.first)) a
        | .unpin =>
          let fs := rangeFrames r.first (r.stop - r.first)
          State.pumpWork n ((next.modCtx a fun c => { c with pins := c.pins.filter fun f => !fs.contains f }).answer true) a
        | _ =>
          let (s, r') := State.pageRun ((r.stop - r.va) / 2 ^ 16 + 2) s a { r with begun := true }
          let shooting := match s.ctx? a with
            | some c => c.shoot.any fun x => !x.2.2.2
            | none => false
          if r'.stop ≤ r'.va && !shooting then
            match r'.op with
            | .migrate .. => State.pumpWork n (s.modCtx a fun c => { c with work := rest, owed := c.owed ++ [(r.first, r.stop)] }) a
            | _ => State.pumpWork n ((s.modCtx a fun c => { c with work := rest }).answer true) a
          else s.modCtx a fun c => { c with work := r' :: rest }

/-- Every context's requests go on. -/
def State.pumpAll (s : State) : State :=
  s.ctxs.foldl (fun s c => if c.work.isEmpty then s else s.pumpWork (c.work.length + 1) c.asid) s

/-- A request of the mailbox: it joins the context's work, behind the faults that the context has sent. -/
def pageRequest (asid : BitVec 16) (op : PageOp) (va len : Nat) (s : State) : Result :=
  mailbox (fun s =>
    match s.ctx? asid with
    | none => .next (s.answer false)
    | some c =>
      if c.st == .closed then .next (s.answer false)
      else
        let r : PageReq := { op := op, first := va, va := va, stop := va + len, begun := false
                             after := (s.fibres.filter (s.faulting c)).map (·.ref), jobs := s.faultingJobs c }
        .next ((s.modCtx asid fun c => { c with work := c.work ++ [r] }).pumpWork (c.work.length + 2) asid)) s

def execMap (asid : BitVec 16) (va : VA) (level : Nat) (pas : List Nat) (tier home : BitVec 2) (attr : LeafAttr) (tables : List Nat)
    (s : State) : Result :=
  pageRequest asid (.map level pas tier home attr tables) va.toNat (pas.length * pageSize level) s

def execUnmap (asid : BitVec 16) (va : VA) (len : Nat) (s : State) : Result := pageRequest asid .unmap va.toNat len s

def execProtect (asid : BitVec 16) (va : VA) (len : Nat) (attr : LeafAttr) (s : State) : Result :=
  pageRequest asid (.protect attr) va.toNat len s

def execMigrate (asid : BitVec 16) (va : VA) (len : Nat) (tier home : BitVec 2) (pas : List Nat) (s : State) : Result :=
  pageRequest asid (.migrate tier home pas) va.toNat len s

/-- PIN of mapped pages; one that migrates is waited for. -/
def execPin (asid : BitVec 16) (va : VA) (len : Nat) (s : State) : Result := pageRequest asid .pin va.toNat len s

def execUnpin (asid : BitVec 16) (va : VA) (len : Nat) (s : State) : Result := pageRequest asid .unpin va.toNat len s

/-- TRANSLATE (R210), served in its turn. -/
def execTranslate (asid : BitVec 16) (va : VA) (s : State) : Result := pageRequest asid .translate va.toNat 1 s

/-! ### Shootdowns and migrations (R202, R204, R205) -/

/-- Write the dirty words of a physical range, in every cache, through to home (R205). -/
def State.drain (s : State) (pa n : Nat) : State :=
  let here := fun (c : Copy) => c.dirty && decide (pa ≤ 4 * c.word) && decide (4 * c.word < pa + n)
  let l1s := (s.copies.filter here).filterMap fun c => match c.pos with | .l1 core => some (core, c.word) | .sc _ | .dc _ => none
  let s := l1s.foldl (fun s x => s.throughL1 ⟨x.1, x.1 / 40⟩ x.2) s
  (upTo 4).foldl (fun s d => s.throughDcs d (s.wordsIn (.dc d) here)) s

/-- A place on a page. -/
def Place.within (pa n : Nat) : Place → Bool
  | .home x .. => decide (pa ≤ x) && decide (x < pa + n)
  | .pad .. => false

/-- An operation that was translated with the old entry is without its end (R205): words that XGET is still to write, and operands of array
commands; those of a saved cluster are translated afresh (R302). -/
def State.usesPage (s : State) (pa n : Nat) : Bool :=
  s.requests.any (fun q => match q.use with
    | .get _ ps => ps.any (Place.within pa n)
    | _ => false) ||
  s.fibres.any (fun f => f.sending.any fun x => f.midway x && (x.places.getD []).any (Place.within pa n)) ||
  s.teams.any fun t => (s.cluster? t.cl).any Cluster.placed && match t.arr with
    | some a => a.queue.any fun c => !c.stale && c.op.targets.any fun x => Place.within pa n x.place
    | none => false

/-- A gang whose wait reads words of a page that is mapped otherwise now: its instruction is issued again and translated afresh, the lanes of a
WAITCMP that are done kept (R205). -/
def Gang.restarted (f : Fibre) (pa n : Nat) (g : Gang) : Option (List Replay) :=
  match g.st with
  | .wait (.cmp _ ty _ _ d left vals _ _ _) =>
    if left.any fun x => x.2.2.1.within pa n then
      let done := maskOf fun l => vals.any fun x => x.1 == l
      some (if done == 0 then [] else
        [{ gang := g.id, pc := g.pc, done := done, upds := cmpUpds f ty d vals, rows := [], regs := [], noAlloc := [], err := none, mute := false }])
    else none
  | .wait (.bword p _ _ _ ended) => if !ended && p.within pa n then some [] else none
  | _ => none

/-- The waits that were translated with the old entry of a page end so (R205): a cluster that is out is ready for resumption (R368), and queues look
again. -/
def State.restartWaits (s : State) (asid : BitVec 16) (pa n : Nat) : State :=
  let s := s.fibres.foldl (fun s f => if f.asid != asid then s else f.gangs.foldl (fun s g =>
    match g.restarted f pa n with
    | some rs =>
      let s := (s.disarm f.ref g.id).modFibre f.ref fun f =>
        ({ f.modGang g.id (fun (x : Gang) => { x with st := .run }) with replay := rs ++ f.replay.filter fun x => x.gang != g.id } : Fibre).wake
      if s.isOut f.ref then s.wakeOut f.ref else s
    | none => s) s) s
  let qs := (s.monitors.filter fun m => m.at_.within pa n).filterMap fun m => match m.owner with | .queue q => some q | .gang .. => none
  (qs.foldl addOnce []).foldl State.watch s

/-- The copies of a page that is replicated no more are as any others (R202, R207). -/
def State.unreplicate (s : State) (pa n : Nat) : State :=
  { s with copies := s.copies.map fun c => if decide (pa ≤ 4 * c.word) && decide (4 * c.word < pa + n) then { c with repl := false } else c }

/-- SHOOTDOWN_COMPLETE (R205). -/
def execShootdownComplete (asid : BitVec 16) (va : VA) (s : State) : Result :=
  match s.ctx? asid with
  | none => .next s
  | some c =>
    match c.shoot.find? fun x => x.1 == va.toNat with
    | none => .next s
    | some (base, size, old, mig) =>
      if s.usesPage (leafPa old) size then .next s
      else
        let s := (s.dropXlat asid none (some (base, size))).drain (leafPa old) size
        let s := if mig then s else (if old.getLsbD 8 then s.unreplicate (leafPa old) size else s).restartWaits asid (leafPa old) size
        let s := s.modCtx asid fun c => { c with shoot := c.shoot.filter fun x => x.1 != base }
        .next (s.pumpWork (c.work.length + 1) asid)

/-- A place on a page that has moved. -/
def movedPlace (old size new die : Nat) : Place → Place
  | .home pa d k cp => if old ≤ pa ∧ pa < old + size then .home (new + (pa - old)) die k cp else .home pa d k cp
  | p => p

/-- The waits and monitors that watch words of the page follow it (R204). -/
def State.movePlaces (s : State) (old size new die : Nat) : State :=
  let mv := movedPlace old size new die
  let wait : Wait → Wait := fun w => match w with
    | .bword p g nf sc ended => .bword (mv p) g nf sc ended
    | .cmp cc ty sc aq d left vals armed dead kills =>
      .cmp cc ty sc aq d (left.map fun x => (x.1, x.2.1, mv x.2.2.1, x.2.2.2)) vals armed dead kills
    | w => w
  let gang : Gang → Gang := fun g => match g.st with | .wait w => { g with st := .wait (wait w) } | _ => g
  let fib : Fibre → Fibre := fun f => { f with gangs := f.gangs.map gang }
  let mon : Monitor → Monitor := fun m => { m with at_ := mv m.at_, die := if m.home && m.at_.within old size then die else m.die }
  { s with fibres := s.fibres.map fib, monitors := s.monitors.map mon }

/-- Every unit of a physical range holds what it reads as under a key id. -/
def State.relockRange (s : State) (k : Byte) (pa n : Nat) : State :=
  if k == 0 && !(s.locks.any fun x => decide (pa ≤ 16 * x.1) && decide (16 * x.1 < pa + n)) then s
  else (upTo (n / 16)).foldl (fun s i => s.relock k (pa / 16 + i)) s

/-- The bytes of a physical range, as they read under a key id, its codes and its tags are copied to another, of which no cache keeps a
word. -/
def State.copyRange (s : State) (k : Byte) (old new n : Nat) : State :=
  let s := s.relockRange k old n
  let cells := s.mem.filter fun x => decide (old ≤ x.1) && decide (x.1 < old + n)
  let clear := s.clearHome new n
  let tags := (s.tags.filter fun w => decide (old ≤ 8 * w) && decide (8 * w < old + n)).map fun w => w - old / 8 + new / 8
  let codes := (s.codes.filter fun x => decide (old ≤ 256 * x.1) && decide (256 * x.1 < old + n)).map fun x => (x.1 - old / 256 + new / 256, x.2)
  let locks := if k == 0 then [] else (upTo (n / 16)).filterMap fun i =>
    let key := s.keyAt k (new / 16 + i)
    if key == 0 then none else some (new / 16 + i, key)
  { clear with
    mem := cells.foldl (fun m x => putByte m (x.1 - old + new) x.2) clear.mem
    locks := locks ++ clear.locks
    codes := codes ++ clear.codes
    copies := clear.copies.filter fun c => !(decide (new ≤ 4 * c.word) && decide (4 * c.word < new + n))
    tags := tags.foldl addOnce (s.tags.filter fun w =>
      !(decide (old ≤ 8 * w) && decide (8 * w < old + n)) && !(decide (new ≤ 8 * w) && decide (8 * w < new + n))) }

/-- Fibres frozen on frames that are all mapped again replay (R202). -/
def State.thaw (s : State) (c : Context) : State :=
  let ok := fun (f : Nat) => match s.freshXlat 0 c (f * 2 ^ 16) .none with | .ok _ => true | _ => false
  let u : Fibre → Fibre := fun f => match f.st with
    | .frozen (.replay fr) => if f.asid == c.asid && fr.all ok then { f with st := .run } else f
    | _ => f
  { s with fibres := s.fibres.map u }

/-- What a monitor wakes: its gang reads the word again, or its cluster resumes (R339, R342); its queue is watched afresh. -/
def State.wakeMonitor (s : State) (o : MonitorOf) : State :=
  match o with
  | .gang f g => if s.isOut f then s.wakeOut f else s.reread f g
  | .queue q => s.watch q

/-- Monitors on words of a page wake once (R204). -/
def State.wakePage (s : State) (pa n : Nat) : State :=
  (((s.monitors.filter fun m => m.at_.within pa n).map (·.owner)).foldl addOnce []).foldl State.wakeMonitor s

/-- A migration that may end now: its page and what it moves to; its shootdown is complete. -/
def State.migrating (s : State) (asid : BitVec 16) (va : VA) : Option (Context × (Nat × Nat × DWord) × (Nat × Nat × Nat)) := do
  let c ← s.ctx? asid
  let m ← c.moving.find? fun x => x.1 == va.toNat
  let p ← s.pageOf c va.toNat
  if c.shooting va.toNat (pageSize p.2.1) || !s.portRuns 0 then none
  some (c, p, m.2)

def State.endMove (s : State) (asid : BitVec 16) (va : VA) : State :=
  s.modCtx asid fun c => { c with moving := c.moving.filter fun x => x.1 != va.toNat }

/-- The page is mapped again: fibres replay, monitors wake, later requests go on. -/
def State.remapped (s : State) (asid : BitVec 16) (pa n : Nat) : State :=
  match s.ctx? asid with
  | some c => ((s.thaw c).wakePage pa n).pumpWork (c.work.length + 1) asid
  | none => s

/-- MIGRATION_COPY_COMPLETE (R202, R204): a page with an uncorrectable error cannot be copied. -/
def execMigrationCopyComplete (asid : BitVec 16) (va : VA) (s : State) : Result :=
  match s.migrating asid va with
  | none => .next s
  | some (_, (at_, level, e), (pa, tier, home)) =>
    let n := pageSize level
    let reserved := e.getLsbD 10 && s.codes.any fun x => decide (9 ≤ x.2.toNat) && decide (leafPa e ≤ 256 * x.1) && decide (256 * x.1 < leafPa e + n)
    if s.poisonIn (leafPa e) n || reserved || s.gone (some (leafDie e)) (leafPa e) then .next s
    else
      let new := movedLeaf e pa (BitVec.ofNat 2 tier) (BitVec.ofNat 2 home)
      let s := ((s.copyRange (leafKey e) (leafPa e) pa n).putHomeBytes at_ (leBytes 8 new.toNat)).movePlaces (leafPa e) n pa (leafDie new)
      .next ((s.endMove asid va).remapped asid pa n)

/-- MIGRATION_COPY_ERROR (R202): the leaf stays on the old copy. -/
def execMigrationCopyError (asid : BitVec 16) (va : VA) (s : State) : Result :=
  match s.migrating asid va with
  | none => .next s
  | some (_, (at_, level, e), _) =>
    let s := (s.putHomeBytes at_ (leBytes 8 (withoutMg e).toNat)).contextError asid (leafPa e)
    .next ((s.endMove asid va).remapped asid (leafPa e) (pageSize level))

/-- LINE_REPLACEMENT (R233, R234): a cache gives up a line, whose dirty words are written through. -/
def execLineReplacement (core : Option Nat) (die : Fin 4) (line : Nat) (s : State) : Result :=
  .next (match core with
    | some k => s.evictL1 ⟨k, k / 40⟩ line
    | none => s.evictDc die.val line)

end Sys2Proof.Machine
end

