-- ==== Sys2Proof/Machine/Context.lean ====
section
/-! DEFINITION. Grid end (R357), the life of a context (17_context.md R374 to R378), and the debugger (R388, R395). -/

namespace Sys2Proof.Machine

open Sys2Proof

/-! ### Grid end (R357) -/

/-- KERNEL_RETIRE (R354, R357, R362, R445): the write-backs of every core that ran the kernel, then the release of its object. -/
def execKernelRetire (k : KernelRef) (noAlloc : List Nat) (s : State) : Result :=
  let noAlloc := s.heard noAlloc
  match s.kernel? k with
  | none => .next s
  | some x =>
    if x.st != .ending then .next s
    else
      let s := x.cores.foldl (fun s core => s.throughAll ⟨core, core / 40⟩ .home fun _ => true) s
      match s.release noAlloc (x.pkt.release x.asid k false) with
      | .error (.hole pa) => .fault (.physicalHole pa)
      | .error _ => .next s
      | .ok s =>
        let s := s.modKernel k fun x => { x with st := .retired, groups := [] }
        .next ((s.abandonGroups fun g => g.kern == k).settleQueue k.q)

/-! ### Creation (R374 to R377) -/

/-- Size of a binding table: 1,024 entries of 32 bytes (R238). -/
def bindSize : Nat := 1024 * 32

/-- Every 64 KiB of a physical range lies in a page with a nonzero permitted key. -/
def keyedRange (leaves : List (Nat × DWord)) (mask : BitVec 256) (pa n : Nat) : Bool :=
  (upTo ((pa + n + 2 ^ 16 - 1) / 2 ^ 16 - pa / 2 ^ 16)).all fun i =>
    let a := (pa / 2 ^ 16 + i) * 2 ^ 16
    leaves.any fun x => decide (leafPa x.2 ≤ a) && decide (a < leafPa x.2 + pageSize x.1) && leafKey x.2 != 0 &&
      mask.getLsbD (leafKey x.2).toNat

/-- A record that CTXCREATE accepts. DESIGN CHOICE: a page-table root outside HBM is refused as well as a misaligned one (R192; log entry 52). -/
def State.mayCreate (s : State) (c : CtxArgs) : Bool :=
  c.asid != 0 && !(s.ctxs.any fun x => x.asid == c.asid && x.st != .closed) &&
    c.ptroot % tableAlign 1 == 0 && c.bindtab % bindSize == 0 && c.savebase % 2 ^ 16 == 0 && c.savesize % 2 ^ 16 == 0 &&
    s.tierOf c.ptroot (2 ^ 17) == some 0 && (s.tierOf c.bindtab bindSize).isSome && (s.tierOf c.savebase c.savesize).isSome &&
    (!c.conf || (let ls := s.leavesOf 5 1 c.ptroot
      keyedRange ls c.keymask c.savebase c.savesize && keyedRange ls c.keymask c.bindtab bindSize))

/-- A new context's record. -/
def newContext (c : CtxArgs) : Context :=
  { asid := c.asid, ridx := none, st := .created, sysop := c.sysop, dbg := c.dbg, dbh := c.dbh, conf := c.conf
    ptroot := c.ptroot, bindtab := c.bindtab, savebase := c.savebase, savesize := c.savesize, keymask := c.keymask
    fault := none, errcnt := 0, errpa := 0, pins := [], moving := [], shoot := [], work := [], owed := [], told := false, evict := false }

/-- CTXCREATE (R376, R377): the binding table and the save directory are cleared. -/
def execCtxcreate (c : CtxArgs) (s : State) : Result :=
  mailbox (fun s =>
    if !s.mayCreate c then .next (s.answer false)
    else
      let s := (s.clearHome c.bindtab bindSize).clearHome c.savebase (min c.savesize (2 ^ 16))
      .next (({ s with ctxs := s.ctxs.filter (fun x => x.asid != c.asid) ++ [newContext c] } : State).answer true)) s

/-- CTXRESTORE (R377): the lowest free resident index. -/
def execCtxrestore (asid : BitVec 16) (s : State) : Result :=
  mailbox (fun s =>
    match s.ctx? asid with
    | none => .next (s.answer false)
    | some c =>
      let free := (upTo 64).find? fun i => !(s.ctxs.any fun x => x.ridx == some i)
      match c.st, free with
      | .created, some i | .saved, some i =>
        .next ((s.modCtx asid fun c => { c with st := .resident, ridx := some i, told := false }).answer true)
      | _, _ => .next (s.answer false)) s

/-- CTXEVICT (R377): answered when the last cluster is saved, or when one can have no place in the save area. -/
def execCtxevict (asid : BitVec 16) (s : State) : Result :=
  mailbox (fun s =>
    match s.ctx? asid with
    | none => .next (s.answer false)
    | some c =>
      if c.st == .resident || c.st == .running then
        .next ((s.modCtx asid fun c => { c with st := .preempting, evict := true }).settleContext asid)
      else .next (s.answer false)) s

/-! ### Close (R378) -/

/-- Step 1: the clusters with all that is theirs. -/
def State.dropClusters (s : State) (a : BitVec 16) : State :=
  let mine := fun (cl : Nat) => s.clusters.any fun c => c.id == cl && (s.kernelOf c).any fun k => k.asid == a
  { s with
    fibres := s.fibres.filter (fun f => !mine f.ref.cl)
    slots := s.slots.filter (fun x => !mine x.cl)
    teams := s.teams.filter (fun t => !mine t.cl)
    monitors := s.monitors.filter (fun m => match m.owner with | .gang f _ => !mine f.cl | .queue q => (s.queue q).asid != a)
    requests := s.requests.filter (fun q => !mine q.f.cl)
    arrivals := s.arrivals.filter (fun x => x.asid != a)
    colls := s.colls.filter (fun c => c.asid != a)
    clusters := s.clusters.filter fun c => !mine c.id }

/-- Step 2: its queues, and its kernels without release. -/
def State.dropKernels (s : State) (a : BitVec 16) : State :=
  let q : Queue → Queue := fun x => if x.st != .disabled && x.asid == a then Queue.reset else x
  let k : Kernel → Kernel := fun x =>
    if x.asid == a && !x.over then { x with st := .retired, left := [], groups := [] } else x
  { s with queues := s.queues.map q, kernels := s.kernels.map k }

/-- Steps 4 to 6: its copies, its cached translations and bindings, every page of it, and the records staged for it (R453). -/
def State.dropPages (s : State) (c : Context) : State :=
  let s := s.dropXlat c.asid none none
  let s := { s with
    copies := s.copies.filter (fun x => x.asid != c.asid)
    binds := s.binds.filter (fun x => x.2.asid != c.asid)
    staged := s.staged.filter (fun g => g.asid != c.asid)
    releases := s.releases.filter fun r => r.asid != c.asid }
  (s.clearHome c.ptroot (2 ^ 17)).modCtx c.asid fun c => { c with
    st := .closed, ridx := none, pins := [], moving := [], shoot := [], work := [], owed := [], evict := false }

/-- CTXCLOSE (R378, R453). -/
def execCtxclose (asid : BitVec 16) (s : State) : Result :=
  mailbox (fun s =>
    match s.ctx? asid with
    | none => .next (s.answer false)
    | some c =>
      if c.st == .closed then .next (s.answer false)
      else
        let s := (s.dropClusters asid).dropKernels asid
        .next ((((s.abandonGroups fun g => g.asid == asid).dropObjects asid).dropPages c).answer true)) s

/-! ### CTXQUERY (R375) -/

def CtxSt.code : CtxSt → Nat
  | .created => 0
  | .resident => 1
  | .running => 2
  | .preempting => 3
  | .saved => 4
  | .faulted => 5
  | .closed => 6

/-- The 256 bytes of a context's record. -/
def Context.record (c : Context) : List Byte :=
  let f : CtxFault := c.fault.getD { cause := 0, mask := 0, epc := 0, eaddr := 0, clu := 0, team := 0, fib := 0, die := 0, q := 0, pkt := 0 }
  let flag := fun (b : Bool) (n : Nat) => if b then 2 ^ n else 0
  leBytes 2 c.asid.toNat ++ leBytes 1 (c.ridx.getD 0xFF) ++ leBytes 1 c.st.code ++
    leBytes 4 (flag c.sysop 0 + flag c.dbg 1 + flag c.dbh 2 + flag c.conf 3) ++ leBytes 8 c.ptroot ++ leBytes 8 c.bindtab ++
    leBytes 8 c.savebase ++ leBytes 8 c.savesize ++ leBytes 32 c.keymask.toNat ++ leBytes 4 f.cause.toNat ++
    leBytes 4 f.mask.toNat ++ leBytes 8 f.epc.toNat ++ leBytes 8 f.eaddr.toNat ++ leBytes 4 f.clu ++ leBytes 1 f.team ++
    leBytes 1 f.fib ++ leBytes 1 f.die ++ leBytes 1 f.q ++ leBytes 8 f.pkt ++ leBytes 8 c.errcnt ++ leBytes 8 c.errpa ++
    List.replicate 128 0

/-- Bytes as 64-bit words, the last padded with zeros. -/
def asWords (bs : List Byte) : List DWord := (upTo (ceilDiv bs.length 8)).map fun i => block64 bs (8 * i)

def execCtxquery (asid : BitVec 16) (s : State) : Result :=
  mailbox (fun s =>
    match s.ctx? asid with
    | none => .next (s.answer false)
    | some c => .next (s.answer true (asWords c.record))) s

/-! ### The debugger (R388, R395) -/

def State.die (s : State) (d : Nat) : Die := s.dies.getD d Die.reset

def State.modDie (s : State) (d : Nat) (u : Die → Die) : State :=
  if h : d < 4 then { s with dies := s.dies.set d (u s.dies[d]) } else s

/-- A halt begins once no pre-emption is in progress on the die. -/
def State.settleHalt (s : State) (d : Nat) : State :=
  if (s.die d).halting && !(s.clusters.any fun c => c.die == d && c.st == .preempting) then
    (s.modDie d fun x => { x with halting := false, halted := true }).answer true
  else s

/-- DHALT. -/
def execDhalt (d : Fin 4) (s : State) : Result :=
  mailbox (fun s =>
    let x := s.die d.val
    if x.st != .running || x.halted || x.halting then .next (s.answer false)
    else .next ((s.modDie d.val fun x => { x with halting := true }).settleHalt d.val)) s

/-- DRESUME. -/
def execDresume (d : Fin 4) (s : State) : Result :=
  mailbox (fun s =>
    if (s.die d.val).halted then .next ((s.modDie d.val fun x => { x with halted := false }).answer true)
    else .next (s.answer false)) s

/-- A fibre that the debugger may read and write: placed on a halted die, of the named context, which is not confidential. -/
def State.debugged (s : State) (asid : BitVec 16) (r : FibreRef) : Option (Fibre × Slot) := do
  let f ← s.fibre? r
  let sl ← s.slot? f
  let c ← s.ctx? asid
  let cl ← s.cluster? r.cl
  if f.asid != asid || c.conf || !cl.placed || !(s.die cl.die).halted || f.st == .exited then none
  some (f, sl)

/-- Size of a fibre block (R391). -/
def blockSize : Nat := 0x9000

/-- The fibre block as the debugger sees it in step `n`; rows that are dead read 0. -/
def debugBlock (f : Fibre) (sl : Slot) (n : Nat) : List Byte :=
  let ws := blockWords { f with hmode := false } sl (Config.contextCode n)
  (upTo (blockSize / 4)).flatMap fun i => leBytes 4 ((aget ws (4 * i)).getD 0).toNat

/-- DREAD. -/
def execDread (asid : BitVec 16) (r : FibreRef) (off n : Nat) (s : State) : Result :=
  mailbox (fun s =>
    match s.debugged asid r with
    | none => .next (s.answer false)
    | some (f, sl) =>
      if blockSize < off + n then .next (s.answer false)
      else .next (s.answer true (asWords (((debugBlock f sl s.ticks).drop off).take n)))) s

/-- Lanes that are no longer live leave their gangs; a fibre without a lane waits for its results (R107, R131, R382). -/
def Fibre.keepLanes (f : Fibre) (live : Mask) : Fibre :=
  let cut : Gang → Gang := fun g => { g with lanes := g.lanes &&& live }
  let gs := (f.gangs.map cut).filter fun g => g.lanes != 0
  let f := { f with live := live, gangs := sortGangs gs, hmode := f.hmode && gs.any fun g => g.id == f.hgang }
  if live == 0 then { f with st := .parked .results } else f

/-- The gangs whose PCs the slices hold (R129) go to those that a write changed. -/
def Fibre.movePcs (f : Fibre) (old new : List Byte) : Fibre :=
  let at_ := fun (b : List Byte) (i : Nat) => blockNat b (0x280 + 8 * i) 8
  let u : Gang → Gang := fun g =>
    match (upTo 8).find? fun i => (sliceGang f.gangs f.turn i).any (fun y => y.id == g.id) && at_ old i != at_ new i with
    | some i => { g with pc := pcOf (at_ new i) }
    | none => g
  { f with gangs := f.gangs.map u }

/-- DWRITE: a block that LOADCTX would turn away is refused. A write of sr.epc to a fibre at a breakpoint is what DCONT uses. -/
def execDwrite (asid : BitVec 16) (r : FibreRef) (off : Nat) (bytes : List Byte) (s : State) : Result :=
  mailbox (fun s =>
    match s.debugged asid r with
    | none => .next (s.answer false)
    | some (f, sl) =>
      let old := debugBlock f sl s.ticks
      let new := old.take off ++ bytes ++ old.drop (off + bytes.length)
      let live := block32 new 0x2C0
      if blockSize < off + bytes.length || !blockClean new || block32 new 0x248 != f.quota || live &&& ~~~f.live != 0 then
        .next (s.answer false)
      else
        let epc := decide (off < 0x270) && decide (0x268 < off + bytes.length)
        let s := s.modFibre r fun f =>
          let f := ((f.movePcs old new).keepLanes live).loadHead new
          match f.st with
          | .frozen (.breakpoint _) => if epc then { f with dbgPc := some (pcOf f.epc.toNat) } else f
          | _ => f
        .next ((s.modSlot f fun sl => sl.loadRows f.quota new).answer true)) s

/-- DCONT (R388): the gang goes on at the PC that the debugger last wrote to sr.epc, else past the breakpoint. -/
def execDcont (r : FibreRef) (s : State) : Result :=
  mailbox (fun s =>
    match s.fibre? r with
    | none => .next (s.answer false)
    | some f =>
      match f.st with
      | .frozen (.breakpoint g) =>
        let pc := f.dbgPc.getD (pcOf (f.epc.toNat + 8))
        .next ((s.modFibre r fun f => { f.modGang g (fun x => { x with pc := pc }) with st := .run, dbgPc := none }).answer true)
      | _ => .next (s.answer false)) s

/-- The assigned opcodes of the vendor range, by first and last (R429). -/
def mailboxRanges : List (Nat × Nat) :=
  [(0xC000, 0xC004), (0xC010, 0xC016), (0xC020, 0xC023), (0xC030, 0xC034), (0xC040, 0xC044), (0xC050, 0xC051)]

/-- MAILBOX_UNSUPPORTED (R429): an unassigned opcode of 0xC000 to 0xC0FF. -/
def execMailboxUnsupported (opcode : BitVec 16) (s : State) : Result :=
  mailbox (fun s =>
    let n := opcode.toNat
    if decide (0xC000 ≤ n) && decide (n ≤ 0xC0FF) && mailboxRanges.all (fun r => decide (n < r.1) || decide (r.2 < n)) then
      .next (s.note (.answer .unsupported []))
    else .next s) s

end Sys2Proof.Machine
end

