-- ==== Sys2Proof/Machine/Die.lean ====
section
/-! DEFINITION. Dies (25_die.md): reset and measurement, the life of compute dies and port dies, clocks and link widths, rails, lifetime
records, and the masthead die's SPDM responder. -/

namespace Sys2Proof.Machine

open Sys2Proof

/-! ### Reset (R461, R464, R468, R471) -/

/-- Host-tier memory belongs to the host (R191). -/
def hostCells (m : Memory) : Memory := m.filter fun x => decide (0x8000000000000 ≤ x.1)

/-- A device reset with the rails that stay good and the lifetime records that it leaves; the incarnation number rises, and what
the host holds stays: its memory, what it has been told, and the model's own agenda. -/
def State.deviceReset (s : State) (rails : List Rail) (life : Life) : State :=
  { State.reset with
    mem := hostCells s.mem, inc := s.inc + 1, rails := rails, life := life, kept := s.kept, notes := s.notes
    agenda := s.agenda, ticks := s.ticks }

/-- Counters are 48 bits wide and saturate (R472). -/
def lifeAdd (x n : Nat) : Nat := min (x + n) (2 ^ 48 - 1)

def bump {κ : Type} [BEq κ] (l : List (κ × Nat)) (k : κ) : List (κ × Nat) := aset l k (lifeAdd ((aget l k).getD 0) 1)

/-- POWER_ON_RESET (R461): counts since the last commit are lost (R472). -/
def execPowerOnReset (s : State) : Result := .next (s.deviceReset [] s.kept)

def State.railGood (s : State) (r : Rail) : Bool := s.rails.contains r

/-- RAIL_POWER_GOOD (R471): after the rails that are powered before it. -/
def execRailPowerGood (r : Rail) (s : State) : Result :=
  let before : List Rail := match r with
    | .standby => []
    | .ports | .hbm => [.standby]
    | .core _ => [.standby, .ports, .hbm]
  if before.all s.railGood then .next { s with rails := addOnce s.rails r } else .next s

def State.pdie (s : State) (p : Nat) : PortDie := s.pdies.getD p PortDie.reset

def State.modPdie (s : State) (p : Nat) (u : PortDie → PortDie) : State :=
  if h : p < 2 then { s with pdies := s.pdies.set p (u s.pdies[p]) } else s

/-- Dies that a rail feeds run. -/
def State.railRuns (s : State) : Rail → Bool
  | .standby => true
  | .ports => s.pdies.any fun p => p.st != .held
  | .hbm => s.dies.any fun d => d.st != .held
  | .core d => (s.die d.val).st != .held

/-- RAIL_POWER_LOSS (R471, R472): the device is reset and the event logged; without the standby rail the masthead die loses what it has
not committed. -/
def execRailPowerLoss (r : Rail) (s : State) : Result :=
  if !s.railGood r then .next s
  else
    let rails := s.rails.filter fun x => x != r
    let life := if r == .standby then s.kept else s.life
    if s.railRuns r then
      .next ((s.deviceReset (if r == .standby then [] else rails) { life with rails := bump life.rails r }).note (.railLost r))
    else .next { s with rails := rails }

/-! ### Measurement and admission (R461, R464, R468) -/

/-- A die's turn to be measured has come: its rails are good and every die before it has been measured. -/
def State.mayMeasure (s : State) : DieId → Bool
  | .port p => s.railGood .standby && s.railGood .ports && (s.pdie p.val).st == .held && !(s.pdie p.val).barred &&
      (p.val == 0 || (s.pdie 0).st != .held)
  | .compute d => s.railGood .hbm && s.railGood (.core d) && (s.die d.val).st == .held && !(s.die d.val).barred &&
      (s.pdie 0).st != .held && (s.pdie 1).st != .held &&
      (upTo d.val).all fun i => (s.die i).st != .held || (s.die i).barred
  | .masthead => false

/-- DIE_MEASUREMENT (R461, R462). -/
def execDieMeasurement (d : DieId) (digest : BitVec 384) (ok : Bool) (s : State) : Result :=
  if !s.mayMeasure d then .next s
  else match d, ok with
    | .port p, true => .next (s.modPdie p.val fun x => { x with st := .measured, digest := digest })
    | .port p, false => .next ((s.modPdie p.val fun x => { x with barred := true }).note (.dieHeld d))
    | .compute d, true => .next (s.modDie d.val fun x => { x with st := .measured, digest := digest })
    | .compute c, false => .next ((s.modDie c.val fun x => { x with barred := true }).note (.dieHeld d))
    | .masthead, _ => .next s

/-- Admission of a compute die: sr.cyc of its cores restarts and its caches are empty (R33, R464). -/
def State.admitDie (s : State) (d : Nat) : State :=
  let here : CopyAt → Bool := fun p => match p with
    | .l1 core | .sc core => core / 40 == d
    | .dc die => die == d
  { s.modDie d (fun x => { x with st := .admitted, errs := false }) with
    cyc := Vector.ofFn (fun i => if i.val / 40 == d then 0 else s.cyc[i])
    copies := s.copies.filter (fun c => !here c.pos)
    coreTlb := s.coreTlb.filter (fun x => !(x.1 / 40 == d))
    dieTlb := s.dieTlb.filter (fun x => !(x.1 == d))
    walks := s.walks.filter (fun x => !(x.1 == d))
    binds := s.binds.filter fun x => !(x.1 == d) }

/-- UCIE_TRAINED (R464, R468). -/
def execUcieTrained (d : DieId) (s : State) : Result :=
  match d with
  | .compute c => if (s.die c.val).st == .measured then .next (s.admitDie c.val) else .next s
  | .port p => if (s.pdie p.val).st == .measured then .next (s.modPdie p.val fun x => { x with st := .admitted }) else .next s
  | .masthead => .next s

/-- OPERATING_POINT_GRANT (R464). -/
def execOperatingPointGrant (d : Fin 4) (freq : Nat) (s : State) : Result :=
  if (s.die d.val).st == .admitted then .next (s.modDie d.val fun x => { x with st := .running, freq := freq }) else .next s

/-- The link ports of a port die. -/
def portsOf (p : Nat) : List Nat := (upTo 40).filter fun n => portDieOf n == p

/-- MGMT_CORE_START (R409, R411, R468): with the device id given, the die's link ports train. -/
def execMgmtCoreStart (p : Fin 2) (s : State) : Result :=
  if (s.pdie p.val).st == .admitted then
    .next ((portsOf p.val).foldl State.train (s.modPdie p.val fun x => { x with st := .running }))
  else .next s

/-- PORT_DIE_FAIL (R409, R468). -/
def execPortDieFail (p : Fin 2) (s : State) : Result :=
  if (s.pdie p.val).st == .running then
    let s := s.modPdie p.val fun x => { x with st := .failed }
    let s := (portsOf p.val).foldl (fun s n => if (s.port n).st == .down then s else s.goDown n) s
    .next (s.note (.dieFailed (.port p)))
  else .next s

/-! ### Warm reset (R464 to R466) -/

/-- The warm-reset request at the head begins; one whose die no longer runs is dropped. -/
def State.beginWarm : Nat → State → State
  | 0, s => s
  | n + 1, s =>
    match s.warm with
    | [] => s
    | d :: rest =>
      if (s.die d.val).st == .running then s.modDie d.val fun x => { x with st := .quiescing }
      else State.beginWarm n { s with warm := rest }

/-- The warm reset at the head has ended. -/
def State.endWarm (s : State) : State := State.beginWarm s.warm.length { s with warm := s.warm.drop 1 }

/-- DIEWARM (R464): requests are served one at a time, in arrival order. -/
def execDiewarm (d : Fin 4) (s : State) : Result :=
  if (s.die d.val).st != .running then .next (s.answer false)
  else
    let first := s.warm.isEmpty
    let s := ({ s with warm := s.warm ++ [d] } : State).answer true
    .next (if first then s.beginWarm 1 else s)

/-- Steps 2 and 3 of R465: dirty words homed on the die are written through from every other die, and every dirty word of the die
itself. -/
def State.quiesceWrites (s : State) (d : Nat) : State :=
  let pick := fun (die : Nat) (c : Copy) => c.dirty && (die == d || c.home == d)
  let s := (upTo 160).foldl (fun s k => (s.wordsIn (.l1 k) (pick (k / 40))).foldl (fun s w => s.throughL1 ⟨k, k / 40⟩ w) s) s
  (upTo 4).foldl (fun s x => s.throughDcs x (s.wordsIn (.dc x) (pick x))) s

/-- QUIESCE_COMPLETE (R465): every cluster of the die has been pre-empted. -/
def execQuiesceComplete (d : Fin 4) (s : State) : Result :=
  if (s.die d.val).st == .quiescing && !(s.clusters.any fun c => c.die == d.val && c.placed) then
    .next ((s.quiesceWrites d.val).modDie d.val fun x => { x with st := .quiesced, errs := true })
  else .next s

/-- CORE_RESET_COMPLETE (R464). -/
def execCoreResetComplete (d : Fin 4) (s : State) : Result :=
  if (s.die d.val).st == .quiesced then .next (s.modDie d.val fun x => { x with st := .retraining }) else .next s

/-- The saved monitors of a die are rearmed and every waiting lane reads its word again (R339, R466). -/
def State.rearmDie (s : State) (d : Nat) : State :=
  let mine := s.monitors.filter fun m => m.die == d || match m.at_ with | .home _ h .. => h == d | .pad .. => false
  ((mine.map (·.owner)).foldl addOnce []).foldl State.wakeMonitor s

/-- A frequency change begins, or is held while links of the die train; a later request replaces a held one (R467). -/
def State.changeFreq (s : State) (d freq : Nat) : State :=
  s.modDie d fun x =>
    if x.st == .retraining || !x.linking.isEmpty || x.changing then { x with heldFreq := some freq }
    else { x with freq := freq, changing := true, heldFreq := none }

/-- A reduction of one link's width: it starts, or waits while a frequency change is in progress or the same link retrains; none is lost
(R467). -/
def Die.reduce (x : Die) (link : UcieLink) (lanes : Nat) : Die :=
  if x.changing || x.linking.contains link then { x with heldWidths := x.heldWidths ++ [(link, lanes)] }
  else { x with widths := aset x.widths link lanes, linking := x.linking ++ [link] }

/-- The held requests of a die whose clock is at rest: the widths first, then, with no link in retraining, the frequency (R467). -/
def Die.releaseHeld (x : Die) : Die :=
  if x.changing then x
  else
    let x := x.heldWidths.foldl (fun y h => y.reduce h.1 h.2) { x with heldWidths := [] }
    match x.heldFreq with
    | some f => if x.st == .retraining || !x.linking.isEmpty then x else { x with freq := f, changing := true, heldFreq := none }
    | none => x

def State.releaseHeld (s : State) (d : Nat) : State := s.modDie d Die.releaseHeld

/-- A frequency change and a width reduction last until the next step; those held then begin (log entry 27). -/
def State.settleClocks (s : State) : State :=
  (upTo 4).foldl (fun s d => (s.modDie d fun x => { x with changing := false, linking := [] }).releaseHeld d) s

/-- DIE_RETRAIN_COMPLETE (R464, R466, R467). -/
def execDieRetrainComplete (d : Fin 4) (digest : BitVec 384) (ok : Bool) (s : State) : Result :=
  if (s.die d.val).st != .retraining then .next s
  else if ok then
    let s := (s.admitDie d.val).modDie d.val fun x => { x with digest := digest }
    .next (((s.releaseHeld d.val).rearmDie d.val).endWarm)
  else
    .next (((s.modDie d.val fun x => { x with st := .held, barred := true }).note (.dieHeld (.compute d))).endWarm)

/-! ### Clocks and widths (R467) -/

/-- FREQUENCY_CHANGE. -/
def execFrequencyChange (d : Fin 4) (freq : Nat) (s : State) : Result :=
  let st := (s.die d.val).st
  if st == .held || st == .measured || st == .admitted then .next s else .next (s.changeFreq d.val freq)

/-- LINK_WIDTH_REDUCTION: not started while a frequency change is in progress. -/
def execLinkWidthReduction (d : Fin 4) (width : UcieLink × Nat) (s : State) : Result :=
  let st := (s.die d.val).st
  if st == .held || st == .measured then .next s else .next (s.modDie d.val fun x => x.reduce width.1 width.2)

/-! ### Power (R471) -/

/-- A rail current limit from 300 A to 900 A. -/
def State.setAmps (s : State) (d : Nat) (amps : Nat) : State :=
  if 300 ≤ amps ∧ amps ≤ 900 then (s.modDie d fun x => { x with amps := amps }).answer true else s.answer false

def execPowerset (d : Fin 4) (amps : Nat) (s : State) : Result := mailbox (fun s => .next (s.setAmps d.val amps)) s
/-- MCTP_POWERSET: by the masthead die. -/
def execMctpPowerset (d : Fin 4) (amps : Nat) (s : State) : Result := .next (s.setAmps d.val amps)

/-- The power manager sets the voltage of its core rail, within the rail's range (R471). -/
def State.setVolt (s : State) (d : Fin 4) (mv : Nat) : State :=
  if 550 ≤ mv ∧ mv ≤ 710 then s.modDie d.val fun x => { x with volt := mv } else s

/-! ### Lifetime records (R472, R473) -/

/-- LIFETIME_COMMIT, every 10 minutes. -/
def execLifetimeCommit (s : State) : Result := .next { s with kept := s.life }

/-- ORDERLY_POWER_DOWN: the records are committed. -/
def execOrderlyPowerDown (s : State) : Result := .next { s with kept := s.life }

/-- DROOP_EVENT: in 16 bins of 5 mV below nominal. -/
def execDroopEvent (d : Fin 4) (mv : Nat) (s : State) : Result :=
  .next { s with life := { s.life with droop := bump s.life.droop (d.val, min 15 (mv / 5)) } }

/-- LIFETIME_MINUTE: one minute at the temperature of each die and HBM stack, in 24 bins of 5 °C from 0 °C, and at the voltage of each
core rail, in 16 bins of 10 mV from 550 mV. -/
def execLifetimeMinute (temps mvs : List Nat) (s : State) : Result :=
  let t := (temps.zip (upTo temps.length)).foldl (fun l x => bump l (x.2, min 23 (x.1 / 5))) s.life.temp
  let v := ((mvs.take 4).zip (upTo 4)).foldl (fun l x => bump l (x.2, min 15 ((x.1 - 550) / 10))) s.life.volt
  .next { s with life := { s.life with temp := t, volt := v } }

def softCode : SoftStruct → Nat
  | .vrf => 0
  | .sram => 1
  | .acc => 2
  | .scaleCache => 3
  | .dieCache => 4
  | .hbm => 5
  | .tier2 => 6
  | .siroccoBuffer => 7
  | .staging => 8

/-- An entry of a list of records: kind, die or port, structure or bin, and value, in 16 bytes. -/
def lifeEntry (kind who which value : Nat) : List DWord :=
  [BitVec.ofNat 64 (kind + who * 2 ^ 16 + which * 2 ^ 32), BitVec.ofNat 64 value]

/-- The records of one kind; soft errors corrected, then uncorrected; voltage in hours. -/
def State.lifeList (s : State) : LifeKind → List DWord
  | .soft => s.life.soft.flatMap fun x =>
      lifeEntry 0 x.1.1 (2 * softCode x.1.2) x.2.1 ++ lifeEntry 0 x.1.1 (2 * softCode x.1.2 + 1) x.2.2
  | .link => s.life.retries.flatMap fun x => lifeEntry 1 x.1.1 x.1.2 x.2
  | .droop => s.life.droop.flatMap fun x => lifeEntry 2 x.1.1 x.1.2 x.2
  | .temperature => s.life.temp.flatMap fun x => lifeEntry 3 x.1.1 x.1.2 x.2
  | .voltage => s.life.volt.flatMap fun x => lifeEntry 4 x.1.1 x.1.2 (x.2 / 60)

def execLiferead (k : LifeKind) (s : State) : Result := mailbox (fun s => .next (s.answer true (s.lifeList k))) s
/-- LIFEGET: by the masthead die, while the host is down. -/
def execLifeget (k : LifeKind) (s : State) : Result := .next (s.answer true (s.lifeList k))

/-! ### The SPDM responder (R462, R463) -/

/-- KEYLOAD: an all-zero key erases. -/
def execKeyload (id : BitVec 8) (key : BitVec 512) (s : State) : Result :=
  if s.session != .secured || id == 0 || s.ctxs.any fun c => c.st != .closed && c.keymask.getLsbD id.toNat then
    .next (s.answer false)
  else .next (({ s with keys := if key == 0 then adel s.keys id else aset s.keys id key } : State).answer true)

/-- A response whose bytes SPDM 1.3 lays out, by the request's number and what it depends on. -/
def State.respond (s : State) (n : Nat) (x : List Byte) : State := s.note (.spdm (Config.spdmBytes n x))

def execGetVersion (s : State) : Result := .next (s.respond 0 [])
def execGetCapabilities (s : State) : Result := .next (s.respond 1 [])
def execNegotiateAlgorithms (s : State) : Result := .next (s.respond 2 [])
def execGetDigests (s : State) : Result := .next (s.respond 3 [])
def execGetCertificate (s : State) : Result := .next (s.respond 4 [])
def execChallenge (nonce : BitVec 256) (s : State) : Result := .next (s.respond 5 (leBytes 32 nonce.toNat))

/-- A measurement block (R462). -/
def State.block (s : State) (i : Nat) : Option (BitVec 384) :=
  if i == 1 then some (Config.digest [1])
  else if i == 2 || i == 3 then some (s.pdie (i - 2)).digest
  else if 4 ≤ i && i ≤ 7 then some (s.die (i - 4)).digest
  else if i == 8 then some (Config.digest [8])
  else none

/-- GET_MEASUREMENTS: one block, or with 255 all of them; another index is answered with no block. -/
def execGetMeasurements (i : Nat) (s : State) : Result :=
  let bytes := fun (l : List Nat) => (l.filterMap s.block).flatMap fun d => leBytes 48 d.toNat
  .next (s.note (.spdm (bytes (if i == 255 then (upTo 8).map (· + 1) else [i]))))

/-- KEY_EXCHANGE: a session is being set up. -/
def execKeyExchange (rnd : BitVec 256) (s : State) : Result :=
  if s.session == .none then .next (({ s with session := .exchanging } : State).respond 6 (leBytes 32 rnd.toNat)) else .next (s.answer false)

/-- FINISH: with a valid verify code the session is secured. -/
def execFinish (hmacOk : Bool) (s : State) : Result :=
  if s.session == .exchanging then
    .next (({ s with session := if hmacOk then .secured else .none } : State).respond 7 [])
  else .next (s.answer false)

/-- END_SESSION. -/
def execEndSession (s : State) : Result :=
  if s.session == .secured then .next (({ s with session := .none } : State).respond 8 []) else .next (s.answer false)

end Sys2Proof.Machine
end

