-- ==== Sys2Proof/Machine/Fetch.lean ====
section
/-! DEFINITION. Fetching an instruction (R36, R37, R67 steps 1 to 4), and the word of an unassigned opcode (R64). -/

namespace Sys2Proof.Machine

open Sys2Proof

/-- The virtual address of the block that holds the first byte of the word at a PC (R36). -/
def blockBase (pc : VA) : Nat := pc.toNat / 32 * 32

/-- Step 1 of R67: the place of the block that holds the PC, translated as a load with X needed (R36, R199). -/
def View.fetchPlace (v : View) (s : State) : Chk (State × Mapped) :=
  match s.xlatOr v.agent v.c v.f.noFetch v.iss.pc.toNat .exec with
  | .ok e => .ok ((s.keepXlat v.agent e).modFibre v.f.ref (fun f => { f with noFetch := [] }), e.place v.iss.pc.toNat)
  | .replay | .unmapped _ => .error (.freeze s [v.iss.pc.toNat / 2 ^ 16])
  | .mapping => .error (v.stop .mappingError v.g.lanes)
  | .permission => .error (v.stop .permission v.g.lanes)
  | .hole pa => .error (.fault (.physicalHole pa))

/-- The newest copy of a word that home does not have yet: a dirty one of the core, of the die cache, or of any cache (R38; log entry 8). -/
def State.dirtyCopy (s : State) (a : Agent) (w : Nat) : Option Copy :=
  let own := fun (p : CopyAt) => s.copies.find? fun c => c.pos == p && c.word == w && c.dirty
  own (.l1 a.core) <|> own (.dc a.die) <|> s.copies.find? fun c => c.word == w && c.dirty

/-- A word of instructions as written, with whether it is in error. -/
def State.codeWord (s : State) (a : Agent) (m : Mapped) (w : Nat) : Word × Bool :=
  match s.dirtyCopy a w with
  | some c => (c.val, c.poison)
  | none => (s.homeWordAs m.key w, s.poison.contains w || s.gone (some m.die) m.pa || (m.cp && decide (9 ≤ (s.codeOf (w / 64)).toNat)))

/-- Steps 1 to 4 of R67: the instruction at the PC of the issuing gang; bytes in error are a DataError. DESIGN CHOICE: the fetch reads the rest of
the 32-byte block that holds the instruction (R36), and a word in error anywhere in it is a DataError, also behind the instruction (log entry 8). -/
def View.fetch (v : View) (s : State) : Chk (State × Instr) := do
  let (s, m) ← v.fetchPlace s
  let left := 32 - v.iss.pc.toNat % 32
  let ws := (upTo (ceilDiv left 4)).map fun i => s.codeWord v.agent m (m.pa / 4 + i)
  if ws.any (·.2) then .error (v.stop .dataError v.g.lanes (v.iss.pc.setWidth 64))
  let bs := ws.flatMap fun w => leBytes 4 w.1.toNat
  match Len.ofCode ((bs.headD 0).extractLsb' 0 2) with
  | none => .error (v.stop .illegalLength v.g.lanes)
  | some len =>
    v.require .fetchCross (decide (len.bytes ≤ left))
    match decode bs with
    | .ok (i, _) => pure (s, i)
    | .error _ => .error (v.stop .illegalInstruction v.g.lanes)

/-- An unassigned opcode (R64, R67): IllegalLength for the length code 11, else IllegalInstruction. -/
def execUnassignedOpcode (_op : BitVec 9) (lenCode : BitVec 2) (s : State) : Result :=
  match s.view? with
  | none => .refused .noIssuer
  | some v =>
    (v.stop (if lenCode == 3 then .illegalLength else .illegalInstruction) v.g.lanes).outcome s v false

end Sys2Proof.Machine
end

