-- ==== Sys2Proof/Machine/Dispatch.lean ====
section
/-! DEFINITION. The dispatcher: each instruction or event to its meaning. -/

namespace Sys2Proof.Machine

open Sys2Proof

def exec (i : Instr) (s : State) : Host.Outcome State Fault Refusal :=
  match i with
  | .nop h len => Sys2Proof.Machine.execNop h len s
  | .bra h off => Sys2Proof.Machine.execBra h off s
  | .brx h a => Sys2Proof.Machine.execBrx h a s
  | .call h d off => Sys2Proof.Machine.execCall h d off s
  | .callx h d a => Sys2Proof.Machine.execCallx h d a s
  | .ret h a => Sys2Proof.Machine.execRet h a s
  | .regang sw a => Sys2Proof.Machine.execRegang sw a s
  | .exit h => Sys2Proof.Machine.execExit h s
  | .yield sw => Sys2Proof.Machine.execYield sw s
  | .trap h n => Sys2Proof.Machine.execTrap h n s
  | .bkpt h => Sys2Proof.Machine.execBkpt h s
  | .rtt sw => Sys2Proof.Machine.execRtt sw s
  | .rdsr h sc d sr => Sys2Proof.Machine.execRdsr h sc d sr s
  | .wrsr h sr a => Sys2Proof.Machine.execWrsr h sr a s
  | .setseg sw lim sp a => Sys2Proof.Machine.execSetseg sw lim sp a s
  | .getseg sw lim sp d => Sys2Proof.Machine.execGetseg sw lim sp d s
  | .rdcyc h sc ord d => Sys2Proof.Machine.execRdcyc h sc ord d s
  | .dbnz h sc d off => Sys2Proof.Machine.execDbnz h sc d off s
  | .savectx sw a => Sys2Proof.Machine.execSavectx sw a s
  | .loadctx sw a => Sys2Proof.Machine.execLoadctx sw a s
  | .tlbinv sw dev rng => Sys2Proof.Machine.execTlbinv sw dev rng s
  | .mov o ty => Sys2Proof.Machine.execMov o ty s
  | .movi h sc ty d v => Sys2Proof.Machine.execMovi h sc ty d v s
  | .iadd o ty sat => Sys2Proof.Machine.execIadd o ty sat s
  | .isub o ty sat => Sys2Proof.Machine.execIsub o ty sat s
  | .imul o ty => Sys2Proof.Machine.execImul o ty s
  | .imulh o ty => Sys2Proof.Machine.execImulh o ty s
  | .imad o ty => Sys2Proof.Machine.execImad o ty s
  | .imin o ty => Sys2Proof.Machine.execImin o ty s
  | .imax o ty => Sys2Proof.Machine.execImax o ty s
  | .iabs o ty sat => Sys2Proof.Machine.execIabs o ty sat s
  | .ineg o ty sat => Sys2Proof.Machine.execIneg o ty sat s
  | .and o ty => Sys2Proof.Machine.execAnd o ty s
  | .or o ty => Sys2Proof.Machine.execOr o ty s
  | .xor o ty => Sys2Proof.Machine.execXor o ty s
  | .not o ty => Sys2Proof.Machine.execNot o ty s
  | .shl o ty => Sys2Proof.Machine.execShl o ty s
  | .shr o ty => Sys2Proof.Machine.execShr o ty s
  | .shra o ty => Sys2Proof.Machine.execShra o ty s
  | .rot o ty right => Sys2Proof.Machine.execRot o ty right s
  | .popc o ty => Sys2Proof.Machine.execPopc o ty s
  | .clz o ty => Sys2Proof.Machine.execClz o ty s
  | .brev o ty => Sys2Proof.Machine.execBrev o ty s
  | .bfe o ty => Sys2Proof.Machine.execBfe o ty s
  | .bfi o ty => Sys2Proof.Machine.execBfi o ty s
  | .lea o ty amt disp => Sys2Proof.Machine.execLea o ty amt disp s
  | .icmp h sc cc ty pd a b => Sys2Proof.Machine.execIcmp h sc cc ty pd a b s
  | .sel o ty pc => Sys2Proof.Machine.execSel o ty pc s
  | .plop h f g pd pa pb => Sys2Proof.Machine.execPlop h f g pd pa pb s
  | .vote h m pd pa => Sys2Proof.Machine.execVote h m pd pa s
  | .ballot h d pa => Sys2Proof.Machine.execBallot h d pa s
  | .v2s sw ty d a b => Sys2Proof.Machine.execV2s sw ty d a b s
  | .iaddc o ty q ci => Sys2Proof.Machine.execIaddc o ty q ci s
  | .isubb o ty q ci => Sys2Proof.Machine.execIsubb o ty q ci s
  | .shfl o ty m w => Sys2Proof.Machine.execShfl o ty m w s
  | .prmt o => Sys2Proof.Machine.execPrmt o s
  | .fadd o rm => Sys2Proof.Machine.execFadd o rm s
  | .fsub o rm => Sys2Proof.Machine.execFsub o rm s
  | .fmul o rm => Sys2Proof.Machine.execFmul o rm s
  | .ffma o rm => Sys2Proof.Machine.execFfma o rm s
  | .fmin o nan => Sys2Proof.Machine.execFmin o nan s
  | .fmax o nan => Sys2Proof.Machine.execFmax o nan s
  | .fcmp h sc cc pd a b => Sys2Proof.Machine.execFcmp h sc cc pd a b s
  | .frcp o rm => Sys2Proof.Machine.execFrcp o rm s
  | .frsq o => Sys2Proof.Machine.execFrsq o s
  | .fsqrt o rm => Sys2Proof.Machine.execFsqrt o rm s
  | .fexp2 o => Sys2Proof.Machine.execFexp2 o s
  | .flog2 o => Sys2Proof.Machine.execFlog2 o s
  | .fsin o => Sys2Proof.Machine.execFsin o s
  | .fcos o => Sys2Proof.Machine.execFcos o s
  | .ftanh o => Sys2Proof.Machine.execFtanh o s
  | .fscale o rm => Sys2Proof.Machine.execFscale o rm s
  | .frnd o rm => Sys2Proof.Machine.execFrnd o rm s
  | .fclass o ty => Sys2Proof.Machine.execFclass o ty s
  | .ffma2 o ty rm => Sys2Proof.Machine.execFfma2 o ty rm s
  | .fadd2 o ty rm => Sys2Proof.Machine.execFadd2 o ty rm s
  | .fmul2 o ty rm => Sys2Proof.Machine.execFmul2 o ty rm s
  | .fdot2 o ty rm => Sys2Proof.Machine.execFdot2 o ty rm s
  | .fdot4 o ty rm mx => Sys2Proof.Machine.execFdot4 o ty rm mx s
  | .cvt o dst src rm sat => Sys2Proof.Machine.execCvt o dst src rm sat s
  | .cvtp o dst rm sat p => Sys2Proof.Machine.execCvtp o dst rm sat p s
  | .cvtu o src ix scale => Sys2Proof.Machine.execCvtu o src ix scale s
  | .bscale o ty inv => Sys2Proof.Machine.execBscale o ty inv s
  | .qparm o q8 => Sys2Proof.Machine.execQparm o q8 s
  | .qapply o q8 rm => Sys2Proof.Machine.execQapply o q8 rm s
  | .dq o q8 ix => Sys2Proof.Machine.execDq o q8 ix s
  | .qle8 o => Sys2Proof.Machine.execQle8 o s
  | .dle8 o => Sys2Proof.Machine.execDle8 o s
  | .rle8 o => Sys2Proof.Machine.execRle8 o s
  | .ule8 o => Sys2Proof.Machine.execUle8 o s
  | .cbq h d a b => Sys2Proof.Machine.execCbq h d a b s
  | .requota sw a b => Sys2Proof.Machine.execRequota sw a b s
  | .fbar sw a => Sys2Proof.Machine.execFbar sw a s
  | .fpost sw a b => Sys2Proof.Machine.execFpost sw a b s
  | .fwait sw a b => Sys2Proof.Machine.execFwait sw a b s
  | .gbar sw nf g => Sys2Proof.Machine.execGbar sw nf g s
  | .garv sw nf d g => Sys2Proof.Machine.execGarv sw nf d g s
  | .gwait sw nf g b => Sys2Proof.Machine.execGwait sw nf g b s
  | .gred sw nf op ty d g b => Sys2Proof.Machine.execGred sw nf op ty d g b s
  | .gqry sw q d g => Sys2Proof.Machine.execGqry sw q d g s
  | .binit sw sp a b => Sys2Proof.Machine.execBinit sw sp a b s
  | .barv sw nf sp sc d a => Sys2Proof.Machine.execBarv sw nf sp sc d a s
  | .bwait sw nf sp sc a b => Sys2Proof.Machine.execBwait sw nf sp sc a b s
  | .bdrop sw sp a => Sys2Proof.Machine.execBdrop sw sp a s
  | .waitcmp h cc acq ty sc d a b => Sys2Proof.Machine.execWaitcmp h cc acq ty sc d a b s
  | .ld h scf acq cnt sp ty d a c => Sys2Proof.Machine.execLd h scf acq cnt sp ty d a c s
  | .st h rel cnt sp ty a b c => Sys2Proof.Machine.execSt h rel cnt sp ty a b c s
  | .ldl sw k d t b => Sys2Proof.Machine.execLdl sw k d t b s
  | .stl sw k t b c => Sys2Proof.Machine.execStl sw k t b c s
  | .gath h cont sx sp ty d a b cb => Sys2Proof.Machine.execGath h cont sx sp ty d a b cb s
  | .scat h cont sx sp ty d a b cb => Sys2Proof.Machine.execScat h cont sx sp ty d a b cb s
  | .atom h op sp ty sc ord d a b => Sys2Proof.Machine.execAtom h op sp ty sc ord d a b s
  | .red h op sp ty sc rel a b => Sys2Proof.Machine.execRed h op sp ty sc rel a b s
  | .fence sw m sc => Sys2Proof.Machine.execFence sw m sc s
  | .bind sw ix a b c => Sys2Proof.Machine.execBind sw ix a b c s
  | .unbind sw ix => Sys2Proof.Machine.execUnbind sw ix s
  | .unbindObj sw a => Sys2Proof.Machine.execUnbindObj sw a s
  | .acq h op sc d a => Sys2Proof.Machine.execAcq h op sc d a s
  | .rels h op sc a b => Sys2Proof.Machine.execRels h op sc a b s
  | .pref h lvl sp a c => Sys2Proof.Machine.execPref h lvl sp a c s
  | .cinv h sc sp a c => Sys2Proof.Machine.execCinv h sc sp a c s
  | .cwb h sc sp a c => Sys2Proof.Machine.execCwb h sc sp a c s
  | .lld sw sp d a => Sys2Proof.Machine.execLld sw sp d a s
  | .lst sw sp a b => Sys2Proof.Machine.execLst sw sp a b s
  | .lset sw clr level mode d ext step => Sys2Proof.Machine.execLset sw clr level mode d ext step s
  | .lchain sw d a b => Sys2Proof.Machine.execLchain sw d a b s
  | .lpart sw die mode d a tile => Sys2Proof.Machine.execLpart sw die mode d a tile s
  | .ltrans sw d a perm => Sys2Proof.Machine.execLtrans sw d a perm s
  | .lflat sw byMode mode d a => Sys2Proof.Machine.execLflat sw byMode mode d a s
  | .lslice sw mode d a b c imm => Sys2Proof.Machine.execLslice sw mode d a b c imm s
  | .lswz sw d a b => Sys2Proof.Machine.execLswz sw d a b s
  | .lqry sw q d a => Sys2Proof.Machine.execLqry sw q d a s
  | .hmk sw gsize kind fmt d a b stride => Sys2Proof.Machine.execHmk sw gsize kind fmt d a b stride s
  | .hset sw f d v => Sys2Proof.Machine.execHset sw f d v s
  | .hqry sw f d a => Sys2Proof.Machine.execHqry sw f d a s
  | .permx sw t d a => Sys2Proof.Machine.execPermx sw t d a s
  | .ptld sw sp t a => Sys2Proof.Machine.execPtld sw sp t a s
  | .lmov sw hnd d a => Sys2Proof.Machine.execLmov sw hnd d a s
  | .mwld sw bmc t => Sys2Proof.Machine.execMwld sw bmc t s
  | .mwsw sw => Sys2Proof.Machine.execMwsw sw s
  | .mrel sw => Sys2Proof.Machine.execMrel sw s
  | .mstr sw init zb d t row0 => Sys2Proof.Machine.execMstr sw init zb d t row0 s
  | .mzero sw d => Sys2Proof.Machine.execMzero sw d s
  | .mzld sw d t b => Sys2Proof.Machine.execMzld sw d t b s
  | .mzst sw rm d t b => Sys2Proof.Machine.execMzst sw rm d t b s
  | .mzmvTo sw c d a b => Sys2Proof.Machine.execMzmvTo sw c d a b s
  | .mzmvFrom sw c d a b => Sys2Proof.Machine.execMzmvFrom sw c d a b s
  | .mresc sw d a => Sys2Proof.Machine.execMresc sw d a s
  | .mcbld sw sp a => Sys2Proof.Machine.execMcbld sw sp a s
  | .mqry sw q d => Sys2Proof.Machine.execMqry sw q d s
  | .tred sw sum d a b => Sys2Proof.Machine.execTred sw sum d a b s
  | .cpy sw tag sp a b c => Sys2Proof.Machine.execCpy sw tag sp a b c s
  | .cpym sw tag sp a b c => Sys2Proof.Machine.execCpym sw tag sp a b c s
  | .twany sw d a => Sys2Proof.Machine.execTwany sw d a s
  | .twall sw a => Sys2Proof.Machine.execTwall sw a s
  | .tffr sw d a => Sys2Proof.Machine.execTffr sw d a s
  | .tclr sw a => Sys2Proof.Machine.execTclr sw a s
  | .jqry sw q d => Sys2Proof.Machine.execJqry sw q d s
  | .jcan sw a => Sys2Proof.Machine.execJcan sw a s
  | .xfer sw cg arv sp a b c => Sys2Proof.Machine.execXfer sw cg arv sp a b c s
  | .xget sw sp a b c => Sys2Proof.Machine.execXget sw sp a b c s
  | .xatom sw cg rel f a b c => Sys2Proof.Machine.execXatom sw cg rel f a b c s
  | .xpost sw sp d a b => Sys2Proof.Machine.execXpost sw sp d a b s
  | .xmc sw arv sp a b c => Sys2Proof.Machine.execXmc sw arv sp a b c s
  | .arvset sw clr a b c => Sys2Proof.Machine.execArvset sw clr a b c s
  | .arvwait sw nf a => Sys2Proof.Machine.execArvwait sw nf a s
  | .coll sw a => Sys2Proof.Machine.execColl sw a s
  | .xfence sw => Sys2Proof.Machine.execXfence sw s
  | .cgopen sw d a b => Sys2Proof.Machine.execCgopen sw d a b s
  | .cgopenJoin sw d a => Sys2Proof.Machine.execCgopenJoin sw d a s
  | .cgprep sw d => Sys2Proof.Machine.execCgprep sw d s
  | .cghoist sw d => Sys2Proof.Machine.execCghoist sw d s
  | .cgabort sw => Sys2Proof.Machine.execCgabort sw s
  | .cgqry sw q d a => Sys2Proof.Machine.execCgqry sw q d a s
  | .qpush sw sp d a b => Sys2Proof.Machine.execQpush sw sp d a b s
  | .unassignedOpcode op lenCode => Sys2Proof.Machine.execUnassignedOpcode op lenCode s
  | .resultReturn f n => Sys2Proof.Machine.execResultReturn f n s
  | .deferredFpostApply f => Sys2Proof.Machine.execDeferredFpostApply f s
  | .fbarArrivalCount f => Sys2Proof.Machine.execFbarArrivalCount f s
  | .forcedRotation f => Sys2Proof.Machine.execForcedRotation f s
  | .gangTurnLimit f => Sys2Proof.Machine.execGangTurnLimit f s
  | .asyncDataError f => Sys2Proof.Machine.execAsyncDataError f s
  | .matrixDataError f => Sys2Proof.Machine.execMatrixDataError f s
  | .jobFaultSignal f => Sys2Proof.Machine.execJobFaultSignal f s
  | .remoteErrorTrap f => Sys2Proof.Machine.execRemoteErrorTrap f s
  | .faultServiced f ans => Sys2Proof.Machine.execFaultServiced f ans s
  | .migrationCopyComplete asid va => Sys2Proof.Machine.execMigrationCopyComplete asid va s
  | .migrationCopyError asid va => Sys2Proof.Machine.execMigrationCopyError asid va s
  | .shootdownComplete asid va => Sys2Proof.Machine.execShootdownComplete asid va s
  | .lineReplacement core die line => Sys2Proof.Machine.execLineReplacement core die line s
  | .monitorFire f g => Sys2Proof.Machine.execMonitorFire f g s
  | .monitorPoll f g => Sys2Proof.Machine.execMonitorPoll f g s
  | .queueProducerWrite q => Sys2Proof.Machine.execQueueProducerWrite q s
  | .packetTake q noAlloc => Sys2Proof.Machine.execPacketTake q noAlloc s
  | .launchLoadComplete k noAlloc => Sys2Proof.Machine.execLaunchLoadComplete k noAlloc s
  | .clusterPlace k clu cores => Sys2Proof.Machine.execClusterPlace k clu cores s
  | .preemptRequest cl why => Sys2Proof.Machine.execPreemptRequest cl why s
  | .parkedClusterTimeout cl => Sys2Proof.Machine.execParkedClusterTimeout cl s
  | .clusterSaveComplete cl => Sys2Proof.Machine.execClusterSaveComplete cl s
  | .clusterResume cl cores => Sys2Proof.Machine.execClusterResume cl cores s
  | .kernelRetire k noAlloc => Sys2Proof.Machine.execKernelRetire k noAlloc s
  | .quiesceComplete d => Sys2Proof.Machine.execQuiesceComplete d s
  | .coreResetComplete d => Sys2Proof.Machine.execCoreResetComplete d s
  | .jobStart cl team tag => Sys2Proof.Machine.execJobStart cl team tag s
  | .jobLanded cl team tag => Sys2Proof.Machine.execJobLanded cl team tag s
  | .jobDone cl team tag => Sys2Proof.Machine.execJobDone cl team tag s
  | .jobFaulted cl team tag => Sys2Proof.Machine.execJobFaulted cl team tag s
  | .jobReplay cl team tag ans => Sys2Proof.Machine.execJobReplay cl team tag ans s
  | .cpymFollowOn cl team tag => Sys2Proof.Machine.execCpymFollowOn cl team tag s
  | .weightLoadComplete cl team => Sys2Proof.Machine.execWeightLoadComplete cl team s
  | .streamRowCommit cl team => Sys2Proof.Machine.execStreamRowCommit cl team s
  | .arrayDeferredAct cl team => Sys2Proof.Machine.execArrayDeferredAct cl team s
  | .remoteRequestArrive r => Sys2Proof.Machine.execRemoteRequestArrive r s
  | .remoteReply id rep src => Sys2Proof.Machine.execRemoteReply id rep src s
  | .rnrRetry id => Sys2Proof.Machine.execRnrRetry id s
  | .counterPacketArrive asid id n => Sys2Proof.Machine.execCounterPacketArrive asid id n s
  | .multicastPacketArrive r => Sys2Proof.Machine.execMulticastPacketArrive r s
  | .xpostArrive r => Sys2Proof.Machine.execXpostArrive r s
  | .collResultArrive id words => Sys2Proof.Machine.execCollResultArrive id words s
  | .leaderExchangeArrive id data => Sys2Proof.Machine.execLeaderExchangeArrive id data s
  | .planeDrainComplete plane => Sys2Proof.Machine.execPlaneDrainComplete plane s
  | .portTrained port lanes far inc => Sys2Proof.Machine.execPortTrained port lanes far inc s
  | .portTrainingFail port => Sys2Proof.Machine.execPortTrainingFail port s
  | .laneLost port => Sys2Proof.Machine.execLaneLost port s
  | .replayLimit port => Sys2Proof.Machine.execReplayLimit port s
  | .flitCrcError port => Sys2Proof.Machine.execFlitCrcError port s
  | .portDown port => Sys2Proof.Machine.execPortDown port s
  | .frameAck port n => Sys2Proof.Machine.execFrameAck port n s
  | .siroccoKeyRollover port => Sys2Proof.Machine.execSiroccoKeyRollover port s
  | .hostMemRead pa n => Sys2Proof.Machine.execHostMemRead pa n s
  | .hostMemWrite pa bytes => Sys2Proof.Machine.execHostMemWrite pa bytes s
  | .hostSnoop pa => Sys2Proof.Machine.execHostSnoop pa s
  | .cgRecordArrive r => Sys2Proof.Machine.execCgRecordArrive r s
  | .cgPrepareArrive sdev cgid asid obj n crc => Sys2Proof.Machine.execCgPrepareArrive sdev cgid asid obj n crc s
  | .cgPrepareReply cgid dst rep => Sys2Proof.Machine.execCgPrepareReply cgid dst rep s
  | .cgWindowExpire cgid => Sys2Proof.Machine.execCgWindowExpire cgid s
  | .cgAbortArrive cgid asid => Sys2Proof.Machine.execCgAbortArrive cgid asid s
  | .cgHoistArrive cgid asid => Sys2Proof.Machine.execCgHoistArrive cgid asid s
  | .cgApplyAck cgid dst applied => Sys2Proof.Machine.execCgApplyAck cgid dst applied s
  | .cgHoldExpire cgid asid => Sys2Proof.Machine.execCgHoldExpire cgid asid s
  | .cgDecisionAnswer cgid asid ans => Sys2Proof.Machine.execCgDecisionAnswer cgid asid ans s
  | .powerOnReset => Sys2Proof.Machine.execPowerOnReset s
  | .dieMeasurement d digest ok => Sys2Proof.Machine.execDieMeasurement d digest ok s
  | .ucieTrained d => Sys2Proof.Machine.execUcieTrained d s
  | .operatingPointGrant d freq => Sys2Proof.Machine.execOperatingPointGrant d freq s
  | .diewarm d => Sys2Proof.Machine.execDiewarm d s
  | .dieRetrainComplete d digest ok => Sys2Proof.Machine.execDieRetrainComplete d digest ok s
  | .mgmtCoreStart p => Sys2Proof.Machine.execMgmtCoreStart p s
  | .portDieFail p => Sys2Proof.Machine.execPortDieFail p s
  | .railPowerGood r => Sys2Proof.Machine.execRailPowerGood r s
  | .railPowerLoss r => Sys2Proof.Machine.execRailPowerLoss r s
  | .frequencyChange d freq => Sys2Proof.Machine.execFrequencyChange d freq s
  | .linkWidthReduction d width => Sys2Proof.Machine.execLinkWidthReduction d width s
  | .lifetimeCommit => Sys2Proof.Machine.execLifetimeCommit s
  | .ctxcreate c => Sys2Proof.Machine.execCtxcreate c s
  | .ctxrestore asid => Sys2Proof.Machine.execCtxrestore asid s
  | .ctxevict asid => Sys2Proof.Machine.execCtxevict asid s
  | .ctxclose asid => Sys2Proof.Machine.execCtxclose asid s
  | .ctxquery asid => Sys2Proof.Machine.execCtxquery asid s
  | .map asid va level pas tier home attr tables => Sys2Proof.Machine.execMap asid va level pas tier home attr tables s
  | .unmap asid va len => Sys2Proof.Machine.execUnmap asid va len s
  | .protect asid va len attr => Sys2Proof.Machine.execProtect asid va len attr s
  | .migrate asid va len tier home pas => Sys2Proof.Machine.execMigrate asid va len tier home pas s
  | .pin asid va len => Sys2Proof.Machine.execPin asid va len s
  | .unpin asid va len => Sys2Proof.Machine.execUnpin asid va len s
  | .translate asid va => Sys2Proof.Machine.execTranslate asid va s
  | .qcreate q asid lsz cap rva pva cva => Sys2Proof.Machine.execQcreate q asid lsz cap rva pva cva s
  | .qdestroy q => Sys2Proof.Machine.execQdestroy q s
  | .qreset q => Sys2Proof.Machine.execQreset q s
  | .aclset ix v sdev sasid cap qmask => Sys2Proof.Machine.execAclset ix v sdev sasid cap qmask s
  | .linkset r => Sys2Proof.Machine.execLinkset r s
  | .linkquery r => Sys2Proof.Machine.execLinkquery r s
  | .planeset plane r => Sys2Proof.Machine.execPlaneset plane r s
  | .spanset pod mask => Sys2Proof.Machine.execSpanset pod mask s
  | .devid pod dev => Sys2Proof.Machine.execDevid pod dev s
  | .dhalt d => Sys2Proof.Machine.execDhalt d s
  | .dresume d => Sys2Proof.Machine.execDresume d s
  | .dread asid f off n => Sys2Proof.Machine.execDread asid f off n s
  | .dwrite asid f off bytes => Sys2Proof.Machine.execDwrite asid f off bytes s
  | .dcont f => Sys2Proof.Machine.execDcont f s
  | .liferead k => Sys2Proof.Machine.execLiferead k s
  | .powerset d amps => Sys2Proof.Machine.execPowerset d amps s
  | .mailboxUnsupported opcode => Sys2Proof.Machine.execMailboxUnsupported opcode s
  | .mctpPowerset d amps => Sys2Proof.Machine.execMctpPowerset d amps s
  | .lifeget k => Sys2Proof.Machine.execLifeget k s
  | .keyload id key => Sys2Proof.Machine.execKeyload id key s
  | .getVersion => Sys2Proof.Machine.execGetVersion s
  | .getCapabilities => Sys2Proof.Machine.execGetCapabilities s
  | .negotiateAlgorithms => Sys2Proof.Machine.execNegotiateAlgorithms s
  | .getDigests => Sys2Proof.Machine.execGetDigests s
  | .getCertificate => Sys2Proof.Machine.execGetCertificate s
  | .challenge nonce => Sys2Proof.Machine.execChallenge nonce s
  | .getMeasurements ix => Sys2Proof.Machine.execGetMeasurements ix s
  | .keyExchange rnd => Sys2Proof.Machine.execKeyExchange rnd s
  | .finish hmacOk => Sys2Proof.Machine.execFinish hmacOk s
  | .endSession => Sys2Proof.Machine.execEndSession s
  | .yardarmRouteReport plane dev present => Sys2Proof.Machine.execYardarmRouteReport plane dev present s
  | .orderlyPowerDown => Sys2Proof.Machine.execOrderlyPowerDown s
  | .droopEvent d mv => Sys2Proof.Machine.execDroopEvent d mv s
  | .lifetimeMinute temps mv => Sys2Proof.Machine.execLifetimeMinute temps mv s

end Sys2Proof.Machine
end

