-- ==== Sys2Proof/Machine/Settle.lean ====
section
/-! DEFINITION. What comes about by itself inside a step (95_what_each_step_holds.md): waits that end, fibres, teams and clusters that
retire, slots that pass, and the work of the memory processor and the commit groups that can go on. -/

namespace Sys2Proof.Machine

open Sys2Proof

/-! ### Fibres -/

/-- The rows of a fibre's private window, slack included. -/
def windowRows (q : BitVec 32) : List Nat :=
  let x := quotaOf q
  (upTo (8 * (ceilDiv x.pcount 8 - x.plo))).map fun i => 8 * (x.pbase + x.plo) + i

/-- FIBRE_RETIRE (R14, R107, R127, R324): the rows of its window die, and its slot is free once no fibre of it is left. -/
def State.exitFibre (s : State) (f : Fibre) : State :=
  let rows : List (Nat × Row) := match s.slot? f with | some sl => sl.rows.filter fun x => (windowRows f.quota).contains x.1 | none => []
  let s := { s with relics := s.relics ++ [Relic.fibre f rows] }
  let s := (s.modFibre f.ref fun f => { f with st := .exited, gangs := [] }).modSlot f fun sl => (windowRows f.quota).foldl Slot.kill sl
  let s := (upTo 4).foldl (fun s b => s.releaseBar f.ref.cl f.ref.team f.slot b) (s.leaveGroups f)
  let mine := fun (x : Slot) => x.is f.ref.cl f.ref.team f.slot
  if (s.slotLive f.ref.cl f.ref.team f.slot).isEmpty then
    { s with slots := s.slots.filter (fun x => !mine x), relics := s.relics ++ (s.slots.filter mine).map .slot }
  else s

/-- A fibre without a live lane retires when nothing of it is outstanding and its arrivals are resolved; a trap still held has no boundary
left and is a context fault. -/
def State.settleExit (s : State) (f : Fibre) : State :=
  if f.st != .parked .results || !f.out.isEmpty || !f.posts.isEmpty || !f.arrivals.isEmpty then s
  else match f.held with
    | h :: _ => s.contextFault f { h.rcd with epc := f.nextPc }
    | [] => if f.garr.isEmpty then s.exitFibre f else s

/-- The end of a wait whose condition has come about: its register writes and its acquire; a wait of an instruction that is issued again
only ends, and a WAITCMP reads its words. -/
def State.finishWait (s : State) (f : Fibre) (g : Nat) (w : Wait) : State :=
  let r := f.ref
  let scope := fun (nf : Bool) (id : Nat) => if nf then none else (s.waitEntry f id).map (·.scope)
  let tags := match s.team? r.cl r.team with | some t => t.tags | none => 0
  let acquire := fun (mask : DWord) => match s.team? r.cl r.team with
    | some t => s.acquireTags (s.agentOfFibre f) f.asid t mask
    | none => s
  match w with
  | .arrive .. | .released _ => s.modFibre r fun f => ((f.closeWait g).modGang g fun (x : Gang) => { x with st := .run }).wake
  | .group id _ nf _ => s.endWait r g [] (scope nf id)
  | .gred id _ nf d => s.endWait r g [.s d (((s.waitEntry f id).map (·.res)).getD 0)] (scope nf id)
  | .bword _ _ nf sc _ => s.endWait r g [] (if nf then none else some sc)
  | .tagsAny d mask => (acquire (tags &&& mask)).endWait r g [.s d (tags &&& mask)] none
  | .tagsAll mask => (acquire mask).endWait r g [] none
  | .counter _ _ nf _ => s.endWait r g [] (if nf then none else some .device)
  | .commit cgid _ d => s.endWait r g [.s d (match s.cg? cgid with | some x => x.status | none => 0)] none
  | .cmp .. => s.reread r g

/-- A waiting gang goes on when its condition holds. -/
def State.settleWait (s : State) (r : FibreRef) (g : Nat) : State :=
  match s.fibre? r with
  | none => s
  | some f =>
    match ((f.gangs.find? fun x => x.id == g).map fun (x : Gang) => x.st : Option GangSt) with
    | some (.wait w) => if s.waitOver f w then s.finishWait f g w else s
    | _ => s

/-- One fibre of a placed cluster; on a halted die every fibre stays as it is (R395). -/
def State.settleFibre (s : State) (r : FibreRef) : State :=
  match s.fibre? r with
  | none => s
  | some f =>
    if !(s.cluster? r.cl).any (fun c => c.placed && !(s.die c.die).halted) then s
    else if f.live == 0 then s.settleExit f
    else match f.taking with
      | some (g, t) => if f.out.isEmpty then s.modFibre r fun f => f.enterHandler g t (s.handlerOf f) else s
      | none =>
        let s := if f.st == .parked .results && f.out.isEmpty then s.modFibre r Fibre.ready else s
        match f.st with
        | .run | .parked _ => if s.issues r.cl then f.gangs.foldl (fun s g => s.settleWait r g.id) s else s
        | .frozen _ | .exited => s

/-! ### Slots -/

/-- Waiters at the head of their flag's queue whose count is available leave it (R126): the slot, and the positions of the fibres that
left. -/
def Slot.drainFlags : Nat → Slot → Slot × List Nat
  | 0, sl => (sl, [])
  | n + 1, sl =>
    match sl.queue.find? fun q => (sl.queue.find? fun x => x.1 == q.1) == some q && decide (q.2.2 ≤ sl.flags.getD q.1 0) with
    | some q =>
      let rest := Slot.drainFlags n { sl with queue := sl.queue.filter (fun x => x != q)
                                              flags := sl.flags.set! q.1 (sl.flags.getD q.1 0 - q.2.2) }
      (rest.1, q.2.1 :: rest.2)
    | none => (sl, [])

def State.settleFlags (s : State) (x : Slot) : State :=
  match s.slots.find? fun y => y.is x.cl x.team x.slot with
  | none => s
  | some sl =>
    if sl.queue.isEmpty || !s.issues sl.cl then s
    else
      let (sl', ps) := Slot.drainFlags sl.queue.length sl
      let slot : Slot → Slot := fun y => if y.is x.cl x.team x.slot then sl' else y
      let fib : Fibre → Fibre := fun f =>
        if f.ref.cl == x.cl && f.ref.team == x.team && f.slot == x.slot && ps.contains f.pos then
          (match f.st with | .parked (.flag ..) => { f with st := .parked .results } | _ => f) else f
      { s with slots := s.slots.map slot, fibres := s.fibres.map fib }

/-- SLOT_PASS (R117): a slot whose holder is not ready passes to the next ready fibre after it. -/
def State.passSlot (s : State) (x : Slot) : State :=
  match s.slots.find? fun y => y.is x.cl x.team x.slot with
  | none => s
  | some sl =>
    let fs := s.slotFibres x.cl x.team x.slot
    let ready := fun (p : Nat) => fs.any fun f => f.pos == p && f.st == .run
    if sl.holder.any ready then s
    else
      let last := sl.holder.getD sl.last
      let next := ((upTo 4).map fun i => (last + 1 + i) % 4).find? ready
      let u : Slot → Slot := fun y => if y.is x.cl x.team x.slot then { y with holder := next, last := next.getD last } else y
      { s with slots := s.slots.map u }

/-! ### Retirement (R355, R356) -/

/-- A team all of whose fibres have exited and whose jobs are done retires; a job that is Faulted then is a context fault (R312). -/
def State.settleTeam (s : State) (t : Team) : State :=
  match s.team? t.cl t.rank with
  | none => s
  | some t =>
    let fs := s.fibres.filter fun f => f.ref.cl == t.cl && f.ref.team == t.rank
    if t.retired || !(fs.all fun f => f.st == .exited) then s
    else match t.jobs.find? fun j => j.st == .faulted with
      | some j =>
        match s.fibre? j.f with
        | some f => s.contextFault f { unitTrap .jobFault (BitVec.ofNat 8 j.tag) j.addr.toNat with epc := f.nextPc }
        | none => s
      | none =>
        if t.jobs.all fun j => j.st == .done then
          let u : Arrival → Arrival := fun a =>
            if a.cl == t.cl && a.rank == t.rank && a.st != .unarmed then { a with st := .unarmed, spill := 0 } else a
          { s.modTeam t.cl t.rank (fun t => { t with retired := true }) with arrivals := s.arrivals.map u }
        else s

/-- GRID_END_BEGIN (R354, R357): no cluster of the kernel is left. -/
def State.gridEnd (s : State) (k : KernelRef) : State :=
  s.modKernel k fun x =>
    if (x.st == .dispatching || x.st == .running) && x.left.isEmpty && !(s.clusters.any fun c => c.kern == k) then
      { x with st := .ending } else x

/-- CLUSTER_RETIRE (R355, R356): every team has retired and no remote request of the cluster is open. -/
def State.settleCluster (s : State) (c : Cluster) : State :=
  if c.placed && (s.clusterTeams c.id).all (·.retired) && !(s.requests.any fun q => q.f.cl == c.id) then
    ({ s with
        fibres := s.fibres.filter (fun f => f.ref.cl != c.id), teams := s.teams.filter (fun t => t.cl != c.id)
        relics := s.relics ++ (s.clusterTeams c.id).map .team
        slots := s.slots.filter (fun x => x.cl != c.id)
        monitors := s.monitors.filter (fun m => match m.owner with | .gang f _ => f.cl != c.id | .queue _ => true)
        clusters := s.clusters.filter fun x => x.id != c.id } : State).gridEnd c.kern
  else s

/-- A cluster one of whose fibres has left its wait is idle no more (R369). -/
def State.settleIdle (s : State) : State :=
  let u : Cluster → Cluster := fun c =>
    if c.idle && !((s.clusterFibres c.id).all fun f => f.st == .exited || f.parkedLong) then { c with idle := false } else c
  { s with clusters := s.clusters.map u }

/-! ### Everything -/

/-- What comes about after an instruction or event, before the next. -/
def State.settle (s : State) : State :=
  let s := ((s.pumpAll.settleGroups).retryReleases).flushOutbox
  let s := s.slots.foldl State.settleFlags s
  let s := s.fibres.foldl (fun s f => s.settleFibre f.ref) s
  let s := s.teams.foldl State.settleTeam s
  let s := s.clusters.foldl State.settleCluster s
  let s := s.clusters.foldl State.settleOut s
  let s := s.ctxs.foldl (fun s c => s.settleContext c.asid) s
  let s := (upTo 64).foldl State.settleQueue s
  let s := (upTo 4).foldl State.settleHalt s
  s.settleIdle.slots.foldl State.passSlot s.settleIdle

end Sys2Proof.Machine
end

