-- ==== Sys2Proof/Machine/Policy.lean ====
section
/-! DEFINITION. Who moves next (log entry 3): the agenda, else the first event of the device's own that can come about, else a quadrant's
choice (R119 to R121); the issue of an instruction; and a program placed for the host (log entry 9). -/

namespace Sys2Proof.Machine

open Sys2Proof

/-! ### The device's own events -/

/-- The state that an event makes differs from the one it meets. -/
def State.moves (s : State) (e : Instr) : Bool :=
  match exec e s with
  | .next s' => !decide (s' = s)
  | _ => true

/-- The first of some events that comes about. -/
def State.firstMove (s : State) (es : List Instr) : Option Instr := es.find? s.moves

/-- The trap that a fibre takes at the boundary where it stands. -/
def Fibre.boundaryEvent (f : Fibre) : Option Instr :=
  if f.boundary .data then some (.asyncDataError f.ref)
  else if f.boundary .matrix then some (.matrixDataError f.ref)
  else if f.boundary .job then some (.jobFaultSignal f.ref)
  else if f.boundary .remote then some (.remoteErrorTrap f.ref)
  else none

/-- The gang that holds the turn has issued 64 instructions in a row (R118). -/
def Fibre.turnSpent (f : Fibre) : Bool := f.parted && f.gangs.any fun g => g.id == f.turn && decide (64 ≤ g.count)

/-- A gang has a lane without a monitor whose word satisfies its WAITCMP: the next poll ends the lane's wait (R340, R341). -/
def State.pollDue (s : State) (f : Fibre) (g : Gang) : Bool :=
  match g.st with
  | .wait (.cmp cc ty sc _ _ left _ armed _ _) => (s.cmpReady f cc ty sc left).any fun l => !armed.contains l
  | _ => false

/-- What a fibre's own units do next. -/
def State.fibreEvent (s : State) (f : Fibre) : Option Instr :=
  if !(s.cluster? f.ref.cl).any Cluster.placed then none
  else
    let trap := if s.issues f.ref.cl then f.boundaryEvent else none
    let result := (f.out.findIdx? fun o => o.remote.isEmpty && o.waiter.isNone).map fun n => Instr.resultReturn f.ref n
    let post := match f.posts with
      | p :: _ => if f.returned p.2.2 then some (Instr.deferredFpostApply f.ref) else none
      | [] => none
    let arrival := match f.arrivals with
      | a :: _ => if f.returned a.2 then some (Instr.fbarArrivalCount f.ref) else none
      | [] => none
    let turn := if f.st == .run && f.turnSpent && s.issues f.ref.cl then some (Instr.gangTurnLimit f.ref) else none
    let rotate := match s.slot? f with
      | some sl => if s.urgent sl f && s.issues f.ref.cl then some (Instr.forcedRotation f.ref) else none
      | none => none
    let poll := if s.issues f.ref.cl then (f.gangs.find? (s.pollDue f)).map fun g => Instr.monitorPoll f.ref g.id else none
    trap <|> result <|> post <|> arrival <|> turn <|> (rotate.filter s.moves) <|> poll

/-- What a team's array and jobs do next. -/
def State.teamEvent (s : State) (t : Team) : Option Instr :=
  if !(s.cluster? t.cl).any Cluster.placed then none
  else
    let busy := match t.arr with | some a => !a.queue.isEmpty | none => false
    let array := if busy then
      s.firstMove [.arrayDeferredAct t.cl t.rank, .weightLoadComplete t.cl t.rank, .streamRowCommit t.cl t.rank] else none
    let job := t.jobs.flatMap fun j => match j.st with
      | .queued => [Instr.jobStart t.cl t.rank j.tag]
      | .running => [.jobFaulted t.cl t.rank j.tag, .jobLanded t.cl t.rank j.tag] ++
          (if j.frames.isEmpty then [Instr.jobReplay t.cl t.rank j.tag (.serviced [])] else [])
      | .landed => [.jobDone t.cl t.rank j.tag, .cpymFollowOn t.cl t.rank j.tag]
      | _ => []
    array <|> s.firstMove job

/-- What comes of a request to the device itself (R27). -/
def State.selfEvent (s : State) (q : Request) : Option Instr :=
  if q.path != .self || q.mc then none
  else if q.backoff then some (.rnrRetry q.id)
  else match q.answer with
    | some rep => some (.remoteReply q.id rep ⟨s.inc, s.dev, true⟩)
    | none => match q.req.op with
      | .post .. => some (.xpostArrive q.req)
      | .staged .. => some (.cgRecordArrive q.req)
      | _ => some (.remoteRequestArrive q.req)

/-- The retries of prepares to the device itself (R27, R415). -/
def State.groupEvents (s : State) (g : CommitGroup) : List Instr :=
  if g.st == .preparing then g.dests.filterMap fun d => if d.dev == s.dev then d.retry.map Instr.rnrRetry else none else []

/-- What a kernel does next. -/
def kernelEvents (k : Kernel) : List Instr :=
  match k.st with
  | .loading => [.launchLoadComplete k.ref []]
  | .ending => [.kernelRetire k.ref []]
  | _ => []

/-- What a placed cluster's save does next. -/
def State.clusterEvents (s : State) (c : Cluster) : List Instr :=
  match c.st with
  | .preempting => [.clusterSaveComplete c.id]
  | .running => ([PreemptWhy.evict, .quiesce, .class0, .parked].filter (s.mayPreempt c)).map fun w => Instr.preemptRequest c.id w
  | _ => []

/-- The placement or resumption that a die's dispatcher makes next. -/
def State.placement (s : State) (die : Nat) : Option Instr :=
  ((s.candidates die).find? fun c => s.mayPlace die c && s.candidateFits die c).bind fun c =>
    ((s.kernel? c.k).bind (·.rcd)).bind fun r => (s.placesOn r die).head?.map fun cores =>
      match c.saved with
      | some cl => Instr.clusterResume cl cores
      | none => Instr.clusterPlace c.k c.index cores

/-- What a quiescing die does next. -/
def State.dieEvent (s : State) (d : Fin 4) : Option Instr :=
  match (s.die d.val).st with
  | .quiescing => some (.quiesceComplete d)
  | .quiesced => some (.coreResetComplete d)
  | _ => none

/-- The first event of the device's own, in a fixed order. -/
def State.ownEvent (s : State) : Option Instr :=
  s.fibres.findSome? s.fibreEvent <|>
  s.teams.findSome? s.teamEvent <|>
  s.requests.findSome? (fun q => (s.selfEvent q).filter s.moves) <|>
  s.firstMove (s.cgs.flatMap s.groupEvents) <|>
  s.firstMove (s.clusters.flatMap s.clusterEvents) <|>
  s.firstMove (s.kernels.flatMap kernelEvents) <|>
  (upTo 4).findSome? s.placement <|>
  s.firstMove ((upTo 64).flatMap fun q =>
    if (s.queue q).st == .active then [Instr.queueProducerWrite q, .packetTake q []] else []) <|>
  s.firstMove ([(0 : Fin 4), 1, 2, 3].filterMap s.dieEvent)

/-! ### The quadrants' choice (R119, R120) -/

/-- The core of a fibre. -/
def State.coreOf (s : State) (f : Fibre) : Nat := ((s.team? f.ref.cl f.ref.team).map (·.core)).getD 0

/-- The slot of its core that a fibre's slot occupies. -/
def State.physOf (s : State) (f : Fibre) : Nat := ((s.slot? f).map (·.phys)).getD 0

/-- The quadrant of a fibre's slot, among all of the device. -/
def State.quadrantOf (s : State) (f : Fibre) : Nat := 4 * s.coreOf f + s.physOf f / 4

/-- A fibre may issue: it holds its slot, no fibre of the slot is urgent without it (R120), and no trap, rotation of gangs or save comes
first. -/
def State.mayIssue (s : State) (f : Fibre) : Bool :=
  f.st == .run && s.issues f.ref.cl && f.taking.isNone && (f.held.isEmpty || f.hmode) && !f.turnSpent &&
    (match s.slot? f with
      | some sl => sl.holder == some f.pos && !(s.slotFibres f.ref.cl f.ref.team f.slot).any (s.urgent sl)
      | none => false)

/-- How a quadrant orders its candidates: urgent ones first, then by class, then in round-robin order of slots. -/
def State.rank (s : State) (f : Fibre) : Nat :=
  let q := s.quadrantOf f
  let cls := ((s.kernel? f.kern).map (·.cls)).getD 3
  let dist := (s.physOf f % 4 + 3 - (aget s.robin q).getD 3 % 4) % 4
  (if 128 ≤ f.age then 0 else 8 + 4 * cls) + dist

/-- The candidate that a quadrant chooses. -/
def State.chosen (s : State) (q : Nat) : Option Fibre :=
  (s.fibres.filter fun f => s.quadrantOf f == q && s.mayIssue f).foldl (fun best f => match best with
    | some b => if s.rank f < s.rank b then some f else best
    | none => some f) none

/-- The quadrants that have a candidate. -/
def State.quadrants (s : State) : List Nat :=
  (s.fibres.filter s.mayIssue).foldl (fun l f => addOnce l (s.quadrantOf f)) []

/-- The issue that comes next: the quadrants take turns. -/
def State.nextIssue (s : State) : Option Turn :=
  let qs := s.quadrants
  (qs[s.ticks % max 1 qs.length]?.bind s.chosen).map fun f => .issue f.ref

/-- Who moves next when the agenda does not say. -/
def State.ownTurn (s : State) : Option Turn :=
  match s.ownEvent with
  | some e => some (.event e)
  | none => s.nextIssue

/-! ### A step -/

/-- Time passes: the cores whose clocks run count their cycles (R33, log entry 5). -/
def State.tick (s : State) : State :=
  let runs := fun (d : Nat) => !(s.die d).halted &&
    ((s.die d).st == .admitted || (s.die d).st == .running || (s.die d).st == .quiescing)
  { s with
    ticks := s.ticks + 1
    cyc := Vector.ofFn fun i => if runs (i.val / 40) then s.cyc[i] + BitVec.ofNat 64 (Config.elapsed s.ticks i.val) else s.cyc[i] }

/-- A quadrant issues for a fibre: its pointer moves, and the fibres that were not chosen age (R120). -/
def State.turnTo (s : State) (f : Fibre) : State :=
  let q := s.quadrantOf f
  let u : Fibre → Fibre := fun x => if x.ref != f.ref && x.st == .run && s.quadrantOf x == q then { x with age := x.age + 1 } else x
  { s with robin := aset s.robin q (s.physOf f % 4), fibres := s.fibres.map u
           cur := some { f := f.ref, gang := f.turn, pc := f.nextPc } }

/-- Fetch and execute for the gang that issues (R67). -/
def State.issueNow (s : State) : Result :=
  match s.view? with
  | none => .next s
  | some v =>
    match v.fetch s with
    | .ok (s, i) => exec i s
    | .error e => e.outcome s v false

/-- The issue of a fibre, if its quadrant chooses it. -/
def State.issueFor (s : State) (r : FibreRef) : Result :=
  match s.fibre? r with
  | none => .next s
  | some f => if (s.chosen (s.quadrantOf f)).any fun x => x.ref == r then (s.turnTo f).issueNow else .next s

/-- A row of the table that is an instruction word. -/
def isWord (i : Instr) : Bool :=
  match i with
  | .unassignedOpcode .. => true
  | i => i.toFields.isSome

/-- What follows an instruction or event. -/
def finishStep (o : Result) : Result :=
  match o with
  | .next s => .next ({ s with cur := none } : State).settle
  | .fault r => .fault r
  | .refused r => .refused r

/-- A tier-2 channel does not train while its port die is admitted, and is left out of service (R2, R470). -/
def State.channelFails (s : State) (ch : Fin 48) : State :=
  let st := (s.pdie (if ch.val < 24 then 0 else 1)).st
  if st == .held || st == .measured then { s with t2chan := s.t2chan.set ch 0 } else s

/-- One turn. An instruction word comes about only by its issue. -/
def State.take (s : State) (t : Option Turn) : Result :=
  match t with
  | some (.issue r) => s.issueFor r
  | some (.event e) => if isWord e then .next s else exec e s
  | some (.strike x) => .next (s.strike x)
  | some (.channelOut ch) => .next (s.channelFails ch)
  | some (.coreVolt d mv) => .next (s.setVolt d mv)
  | some (.noAlloc asid frames) => .next (s.refuseReleases asid frames)
  | some (.abortHeard id) => .next (s.abortHeard id)
  | none => .next s

/-- What a step begins with: clock changes that end, and the cycles that pass. -/
def State.pass (s : State) : State := s.settleClocks.tick

/-- One step with a turn of the agenda, or with the device's own. -/
def State.advance (s : State) (t : Option Turn) : Result :=
  match t with
  | some t => finishStep (s.pass.take (some t))
  | none => finishStep (s.pass.take s.pass.ownTurn)

/-! ### A program placed by the host -/

/-- A launch of one fibre at address 0. -/
def placedLaunch : Launch :=
  { entry := 0, handler := 0, gx := 1, gy := 1, gz := 1, seed := 0, ranges := [(0, 1), (0, 0), (0, 0), (0, 0)]
    l := Vector.replicate 16 Lay.empty.bits, h := Vector.replicate 16 0, pats := [], priv := ⟨0, 0⟩, cons := ⟨0, 0⟩
    glob := ⟨0, BitVec.ofNat 64 (2 ^ 56)⟩, rem := ⟨0, 0⟩, fpm := 0, tags := 0, patn := 0, arr := false, m := 1, n := 1, k := 1
    shape := .s11, xretry := 1, smask := 0, scount := 0, counts := [256], members := [] }

def placedCtx : Context :=
  { newContext { asid := 1, sysop := false, dbg := false, dbh := false, conf := false, ptroot := 2 ^ 20, bindtab := 2 ^ 21
                 savebase := 2 ^ 22, savesize := 0, keymask := 0 } with st := .running, ridx := some 0 }

def placedKernel : Kernel :=
  { ref := ⟨0, 0, 0⟩, asid := 1, cls := 0, pkt := { hdr := 0, recd := 0, cobj := 0, cval := 0, deps := [], args := 0 }
    rcd := some placedLaunch, st := .running, left := [], cores := [0], seen := [0], groups := [], order := 0, overtaken := [], reads := [] }

/-- The leaf of a page of 64 KiB at address 0 that may be read, written and fetched from. -/
def placedLeaf : DWord := 0x1F

/-- A state in which one fibre of one kernel is about to issue the bytes given, and nothing else runs. -/
def State.placeBytes (s : State) (bs : List Byte) : State :=
  { s with
    mem := putBytes s.mem 0 bs, poison := s.poison.filter (fun w => decide (8 ≤ w))
    copies := s.copies.filter (fun c => decide (8 ≤ c.word)), locks := s.locks.filter (fun x => decide (2 ≤ x.1))
    ctxs := [placedCtx], kernels := [placedKernel]
    clusters := [{ id := 0, kern := ⟨0, 0, 0⟩, index := 0, die := 0, shape := .s11, st := .running, gran := none, idle := false, woken := false, order := 0 }]
    teams := [newTeam placedLaunch 0 0 0 0], slots := [{ newSlot 0 0 0 with holder := some 0, last := 0 }]
    fibres := [newFibre placedLaunch 1 ⟨0, 0, 0⟩ 0 0 0 0 0 0], nextId := max 1 s.nextId
    coreTlb := [(0, { asid := 1, base := 0, size := 2 ^ 16, leaf := placedLeaf })]
    dies := s.dies.set 0 { Die.reset with st := .running }
    pdies := Vector.replicate 2 { PortDie.reset with st := .running }
    agenda := [.issue ⟨0, 0, 0⟩], cur := none }

end Sys2Proof.Machine
end

