-- ==== Sys2Proof/Machine/Step.lean ====
section
/-! DEFINITION. The step, and an instruction placed where the next step fetches. -/

namespace Sys2Proof.Machine

open Sys2Proof

/-- One step of the device: the first turn of the agenda, or the device's own when the agenda is empty. -/
def step (s : State) : Host.Outcome State Fault Refusal :=
  match s.agenda with
  | t :: rest => ({ s with agenda := rest } : State).advance (some t)
  | [] => s.advance none

/-- The state in which the next step fetches and runs the instruction whose bits are `w`, every bit above them being 0, as the only
fibre of the device (log entry 9). -/
def State.withFetchWord (s : State) (_nbits w : Nat) : State := s.placeBytes (leBytes 16 w)

end Sys2Proof.Machine
end

