-- ==== Sys2Proof/Safety.lean ====
section
/-! DEFINITION. What counts as a safe run: every step answers a next state, and the memories keep their canonical form. Then the words in which
the statements are written: when the checks of R67 pass, and the state that an instruction of the lane loop leaves. -/

namespace Sys2Proof

open Sys2Proof.Machine

/-- The memories of a state are in canonical form: home memory and every team's scratchpad. -/
def Machine.State.memOk (s : State) : Bool := Memory.wf s.mem && s.teams.all fun t => Memory.wf t.pad

/-- A run of `n` steps, each of which answers a next state. -/
def runs : Nat → State → Option State
  | 0, s => some s
  | n + 1, s => match step s with
    | .next s' => runs n s'
    | .fault _ | .refused _ => none

/-- A run is safe when no step stops and canonical memories stay canonical. -/
def SafeRun (n : Nat) (s : State) : Prop := ∃ s', runs n s = some s' ∧ (s.memOk = true → s'.memOk = true)

end Sys2Proof

namespace Sys2Proof.Machine

open Sys2Proof

/-! ### When an instruction is issued without a trap of R67, steps 5 to 9 -/

/-- An instruction executed per lane, or fibre-wide and neither privileged nor collective (R44, R46). -/
abbrev perLane : Kindly := ⟨false, false⟩
/-- A fibre-collective instruction (R46). -/
abbrev collective : Kindly := ⟨false, true⟩
/-- A privileged instruction (R65). -/
abbrev privileged : Kindly := ⟨true, false⟩

/-- Steps 5 to 9 of R67 find nothing: the mode, the gangs, and for every register use the windows, the pending bits and, in a context with
the debug bit, dead rows. -/
def View.mayRun (v : View) (k : Kindly) (us : List Use) : Prop :=
  (k.priv = true → v.f.hmode = true) ∧ (k.coll = true → v.f.parted = false) ∧
  (∀ u ∈ us, u.outside v = 0) ∧ (∀ u ∈ us, u.hazard v = 0) ∧ (v.c.dbg = true → ∀ u ∈ us, u.dead v = 0)

/-- A gang issues, sees `v`, and meets no trap of R67, steps 5 to 9, with the register uses `us`. -/
def State.issuing (s : State) (v : View) (k : Kindly) (us : List Use) : Prop := s.view? = some v ∧ v.mayRun k us

/-- The same as a test of a concrete state. -/
def State.canIssue (s : State) (k : Kindly) (us : View → List Use) : Bool :=
  match s.view? with
  | none => false
  | some v => (!k.priv || v.f.hmode) && (!k.coll || !v.f.parted) &&
    (us v).all (fun u => u.outside v == 0) && (us v).all (fun u => u.hazard v == 0) &&
    (!v.c.dbg || (us v).all (fun u => u.dead v == 0))

/-! ### What an instruction of the lane loop leaves -/

/-- A lane's value that draws no random number and raises the flags `fl` of sr.fps. -/
def View.plain (v : View) (l : Nat) (x : DWord) (fl : BitVec 32 := 0) : DWord × NumSt := (x, ⟨v.f.rng.at l, fl, 0⟩)

/-- After an instruction that completes with the effect `eff`: dead reads and last uses first, the next PC and the switch bit last. -/
def View.after (v : View) (sw : Bool) (len : Nat) (us : List Use) (eff : State → State) (s : State) : State :=
  ((eff (s.consume v us)).noteDead v us).retire v sw len

/-- After an instruction of the lane loop: in every executing lane `l` the destination receives the value of `R l`, at once or (`long`) when
the result returns. -/
def View.computed (v : View) (h : Hdr) (len : Nat) (long sc w : Bool) (d : BitVec 8) (us : List Use) (R : Nat → DWord × NumSt)
    (s : State) : State :=
  v.after h.sw len us (laneEffect long sc w d v ((v.runs h sc).map fun l => (l, R l))) s

/-- The registers touched by an instruction with one, two or three source fields: `wd`, `wa`, `wb`, `wc` say which are pairs. -/
def View.touch1 (v : View) (o : Op1) (wd wa : Bool) : List Use :=
  useSrc o.sc wa o.a (v.mask o.h o.sc) ++ useDst o.sc wd o.d (v.mask o.h o.sc)
def View.touch2 (v : View) (o : Op2) (wd wa wb : Bool) : List Use :=
  (useSrc o.sc wa o.a (v.mask o.h o.sc) ++ useSrc o.sc wb o.b (v.mask o.h o.sc)) ++ useDst o.sc wd o.d (v.mask o.h o.sc)
def View.touch3 (v : View) (o : Op3) (wd wa wb wc : Bool) : List Use :=
  (useSrc o.sc wa o.a (v.mask o.h o.sc) ++ useSrc o.sc wb o.b (v.mask o.h o.sc) ++ useSrc o.sc wc o.c (v.mask o.h o.sc)) ++
    useDst o.sc wd o.d (v.mask o.h o.sc)

/-- After an instruction of one, two or three source fields whose lanes compute `R`. -/
def View.done1 (v : View) (o : Op1) (long wd wa : Bool) (R : Nat → DWord × NumSt) (s : State) : State :=
  v.computed o.h 8 long o.sc wd o.d (v.touch1 o wd wa) R s
def View.done2 (v : View) (o : Op2) (long wd wa wb : Bool) (R : Nat → DWord × NumSt) (s : State) : State :=
  v.computed o.h 8 long o.sc wd o.d (v.touch2 o wd wa wb) R s
def View.done3 (v : View) (o : Op3) (long wd wa wb wc : Bool) (R : Nat → DWord × NumSt) (s : State) : State :=
  v.computed o.h 8 long o.sc wd o.d (v.touch3 o wd wa wb wc) R s

/-- The registers touched by an instruction that writes a predicate. -/
def View.touchP (v : View) (h : Hdr) (sc : Bool) (q : BitVec 3) (us : List Use) : List Use :=
  us ++ [⟨.r (.p q.toNat), v.mask h sc, false, false⟩]

/-- After an instruction that writes the bit `b l` of predicate `q` in every executing lane (R57), or the one bit of the scalar form to every live lane
of the gang (R144). -/
def View.decided (v : View) (h : Hdr) (sc : Bool) (q : BitVec 3) (us : List Use) (b : Nat → Bool) (s : State) : State :=
  v.after h.sw 8 (v.touchP h sc q us) (fun s => s.upd v.f (v.predUpd h sc q b)) s

/-- After a branching instruction: its register effects, then the gang's lanes sorted by next PC, `next l` where the guard is true (R130, R134). -/
def View.branched (v : View) (h : Hdr) (len : Nat) (us : List Use) (eff : State → State) (next : Nat → VA) (s : State) : State :=
  ((eff (s.consume v us)).noteDead v us).modFibre v.f.ref fun f =>
    (f.part v.g fun l => if lane (v.active h) l then next l else v.iss.pc + BitVec.ofNat 56 len).afterIssue v.iss.gang h.sw

/-- The issuing gang takes a trap at its instruction, with nothing of its effect made (R383). -/
def State.traps (s : State) (v : View) (t : TrapRec) : State :=
  (s.modFibre v.f.ref fun f => { f with age := 0 }).takeTrap v.f.ref v.iss.gang t

/-! ### What a memory instruction meets and leaves -/

/-- The instruction does not replay, and no fence or binding of its fibre that is still under way holds it back (R201, R231). -/
abbrev View.fresh (v : View) : Prop := v.replaying = none ∧ v.f.fenced = false

/-- Every access lies in its segment, is aligned, and its pages translate with the permission needed (R188, R189, R198, R199). -/
def View.reaches (v : View) (s : State) (sp : Space) (need : Need) (as : List Access) : Prop :=
  ∀ a ∈ as, v.laneInSegment sp a.lane a.addr a.len = true ∧ a.aligned = true ∧
    ∀ y ∈ v.laneSpots sp a.lane a.addr a.len, match y.1 with
      | .pad .. => True
      | .va z => ∃ e, s.xlat v.agent v.c (z / 2 ^ 16 * 2 ^ 16) need = .ok e

/-- The same as a test of a concrete state. -/
def View.canReach (v : View) (s : State) (sp : Space) (need : Need) (as : List Access) : Bool :=
  as.all fun a => v.laneInSegment sp a.lane a.addr a.len && a.aligned && (v.laneSpots sp a.lane a.addr a.len).all fun y => match y.1 with
    | .pad .. => true
    | .va z => match s.xlat v.agent v.c (z / 2 ^ 16 * 2 ^ 16) need with | .ok _ => true | _ => false

/-- Where a part of an access lies. -/
def View.targetAt (v : View) (s : State) (need : Need) (y : Spot) : Target :=
  match y with
  | .pad cl t o => .pad cl t o
  | .va z => match s.xlat v.agent v.c (z / 2 ^ 16 * 2 ^ 16) need with
    | .ok e => .mem (e.place z)
    | _ => .pad 0 0 0

/-- The accesses with the places of their parts. -/
def View.placed (v : View) (s : State) (sp : Space) (need : Need) (as : List Access) : List Ready :=
  as.map fun a => { lane := a.lane, addr := a.addr, parts := (v.laneSpots sp a.lane a.addr a.len).map fun y => (v.targetAt s need y.1, y.2) }

/-- The TLBs keep the translations that some accesses use (R197). -/
def View.cached (v : View) (s : State) (sp : Space) (need : Need) (as : List Access) : State :=
  ((v.framesOf sp as).filterMap fun fr => (s.xlat v.agent v.c (fr * 2 ^ 16) need).entry?).foldl (fun s e => s.keepXlat v.agent e) s

/-- Where the word lies that a barrier instruction names (R330, R334). -/
def View.barWord (v : View) (s : State) (sp : Space) (a : BitVec 8) : Option Target :=
  ((v.placed s sp .both (v.wideAccs (barAddr v sp a) 8 8)).head?.bind fun r => r.parts.head?).map (·.1)

/-- What an instruction makes when it leaves the state `s`, writes registers at once and, for a fence, completes as a result. -/
def Performed.plain (s : State) (now : List RegUpd) (fence : Bool) : Performed :=
  { s := s, now := now, held := [], out := if fence then some { Out.of [] with fence := true } else none, done := 0 }

/-- The issuing gang begins to wait. -/
def State.waits (s : State) (v : View) (w : Wait) (sw : Bool) : State :=
  s.modFibre v.f.ref fun f => ({ f with age := 0 } : Fibre).beginWait v.iss.gang (.wait w) sw

/-- A memory instruction whose accesses are made begins to wait: its gang keeps no completion bitmap. -/
def State.waitsMade (s : State) (v : View) (w : Wait) (sw : Bool) : State :=
  (s.modFibre v.f.ref fun f => { f with replay := f.replay.filter fun x => x.gang != v.iss.gang }).waits v w sw

/-- After a memory instruction every lane of which is performed: the writes made at once, and the result that returns later. -/
def View.performed (v : View) (sw : Bool) (len : Nat) (us : List Use) (p : Performed) : State :=
  let s := ((p.s.consume v us).modFibre v.f.ref fun f => { f with replay := f.replay.filter fun x => x.gang != v.iss.gang }).upds v.f p.now
  ((match p.out with
    | some o => s.defer v.f { o with upds := p.held ++ o.upds, rows := updRows p.held ++ o.rows, regs := updRegs p.held ++ o.regs }
    | none => s).noteDead v us).retire v sw len

/-- The lanes of a load in order: the state, and each lane's parts with whether a word was in error. -/
def State.loadLanes (s : State) (a : Agent) (sc : Option Scope) (rs : List Ready) : State × List (Nat × List Nat × Bool) :=
  rs.foldl (fun acc r =>
    let (s, xs, bad) := acc.1.loadParts a sc r.parts
    (s, acc.2 ++ [(r.lane, xs, bad)])) (s, [])

/-- The value of a word of home as a core sees it through a page with a key id: at its L1 level, else in its die cache, else at home (R194, R233,
R234, R286). -/
def State.seen (s : State) (core die : Nat) (k : Byte) (w : Nat) : Word :=
  match s.nearCopy core w with
  | some c => c.val
  | none => match s.copy? (.dc die) w with
    | some c => c.val
    | none => s.homeWordAs k w

/-- The caches of an agent take `n` more lines without an eviction (R22, R31). -/
def State.roomFor (s : State) (a : Agent) (n : Nat) : Prop :=
  (s.linesAt (.l1 a.core)).length + n ≤ s.linesFor (.l1 a.core) ∧ (s.linesAt (.dc a.die)).length + n ≤ s.linesFor (.dc a.die)

/-- Every copy of a word holds what home holds under a key id, and no cache holds a word of its unit of 16 bytes under another. -/
def State.settledAt (s : State) (k : Byte) (w : Nat) : Prop :=
  ∀ c ∈ s.copies, (c.word = w → c.val = s.homeWordAs k w) ∧ (c.word / 4 = w / 4 → c.key = k)

/-- The scratchpad of a team. -/
def State.padOf (s : State) (cl rank : Nat) : Memory := match s.team? cl rank with | some t => t.pad | none => []

/-- Requests of an instruction whose first has number `base`, sent in order, each on the way that it has then: the state and the numbers of the
requests; none when one has no way now. -/
def State.sendEach (s : State) (v : View) (dst : BitVec 16) (mc : Bool) (base : Nat) :
    List (Mask × RemReq × ReplyUse) → Option (State × List Nat)
  | [] => some (s, [])
  | r :: rs => match s.way v.f.ref dst mc r.2.1 base with
    | .go p => match (s.send v.f.ref r.1 v.f.xretry dst mc r.2.1 p r.2.2).sendEach v dst mc base rs with
      | some (s', ids) => some (s', s.nextId :: ids)
      | none => none
    | _ => none

/-! ### Words of arithmetic -/

/-- The low W bits of a value, W the width of a type. -/
def low (ty : Ty) (x : DWord) : DWord := BitVec.ofNat 64 (x.toNat % 2 ^ ty.bits)

/-- An exact integer clamped to the range of a type (R94), and the flag of a clamp. -/
def clamped (ty : Ty) (i : Int) : DWord := low ty (BitVec.ofInt 64 (max (intMin ty.signed ty.bits) (min (intMax ty.signed ty.bits) i)))
def clampFlag (ty : Ty) (i : Int) : BitVec 32 :=
  if intMin ty.signed ty.bits ≤ i ∧ i ≤ intMax ty.signed ty.bits then 0 else flagSat

end Sys2Proof.Machine
end

