-- ==== Sys2Proof/Certificates/Slice0/Obligations.lean ====
section
/-! DEFINITION. The statements for the provers: what the rules of the manual say of the machine, one Prop each. -/

open Sys2Proof Sys2Proof.Machine

/-- R145, R146: the two-source rows iadd to imax: sums, differences and products modulo 2^W, the high half, the smaller and larger operand, and .sat. R145,
R146: mov, imad, iabs and ineg, and the logic rows. -/
def Obligations.IntegerArithmetic : Prop :=
   (∀ (s : State) (v : View) (o : Op2) (ty : Ty), s.issuing v perLane (v.touch2 o ty.is64 ty.is64 ty.is64) →
      let A := fun l => v.src o.sc ty o.a l
      let B := fun l => v.src o.sc ty o.b l
      let t := fun (R : Nat → DWord × NumSt) => Host.Outcome.next (v.done2 o false ty.is64 ty.is64 ty.is64 R s)
      exec (.iadd o ty false) s = t (fun l => v.plain l (low ty (A l + B l))) ∧
      exec (.iadd o ty true) s = t (fun l => v.plain l (clamped ty (asInt ty (A l) + asInt ty (B l)))
        (clampFlag ty (asInt ty (A l) + asInt ty (B l)))) ∧
      exec (.isub o ty false) s = t (fun l => v.plain l (low ty (A l - B l))) ∧
      exec (.isub o ty true) s = t (fun l => v.plain l (clamped ty (asInt ty (A l) - asInt ty (B l)))
        (clampFlag ty (asInt ty (A l) - asInt ty (B l)))) ∧
      exec (.imul o ty) s = t (fun l => v.plain l (low ty (A l * B l))) ∧
      exec (.imulh o ty) s = t (fun l => v.plain l (low ty (BitVec.ofInt 64 (asInt ty (A l) * asInt ty (B l) / 2 ^ ty.bits)))) ∧
      exec (.imin o ty) s = t (fun l => v.plain l (low ty (if asInt ty (A l) ≤ asInt ty (B l) then A l else B l))) ∧
      exec (.imax o ty) s = t (fun l => v.plain l (low ty (if asInt ty (A l) ≤ asInt ty (B l) then B l else A l)))) ∧
   (∀ (s : State) (v : View) (ty : Ty),
      (∀ o : Op1, s.issuing v perLane (v.touch1 o ty.is64 ty.is64) →
        let A := fun l => v.src o.sc ty o.a l
        let t := fun (R : Nat → DWord × NumSt) => Host.Outcome.next (v.done1 o false ty.is64 ty.is64 R s)
        exec (.mov o ty) s = t (fun l => v.plain l (A l)) ∧
        exec (.not o ty) s = t (fun l => v.plain l (low ty (~~~A l))) ∧
        exec (.ineg o ty false) s = t (fun l => v.plain l (low ty (-A l))) ∧
        exec (.ineg o ty true) s = t (fun l => v.plain l (clamped ty (-asInt ty (A l))) (clampFlag ty (-asInt ty (A l)))) ∧
        exec (.iabs o ty false) s = t (fun l => v.plain l (low ty (if asInt ty (A l) < 0 then -A l else A l))) ∧
        exec (.iabs o ty true) s = t (fun l => v.plain l (clamped ty ((asInt ty (A l)).natAbs : Int)) (clampFlag ty ((asInt ty (A l)).natAbs : Int)))) ∧
      (∀ o : Op2, s.issuing v perLane (v.touch2 o ty.is64 ty.is64 ty.is64) →
        let A := fun l => v.src o.sc ty o.a l
        let B := fun l => v.src o.sc ty o.b l
        let t := fun (R : Nat → DWord × NumSt) => Host.Outcome.next (v.done2 o false ty.is64 ty.is64 ty.is64 R s)
        exec (.and o ty) s = t (fun l => v.plain l (A l &&& B l)) ∧
        exec (.or o ty) s = t (fun l => v.plain l (A l ||| B l)) ∧
        exec (.xor o ty) s = t (fun l => v.plain l (A l ^^^ B l))) ∧
      (∀ o : Op3, s.issuing v perLane (v.touch3 o ty.is64 ty.is64 ty.is64 ty.is64) →
        exec (.imad o ty) s = .next (v.done3 o false ty.is64 ty.is64 ty.is64 ty.is64 (fun l =>
          v.plain l (low ty (v.src o.sc ty o.a l * v.src o.sc ty o.b l + v.src o.sc ty o.c l))) s)))

/-- R146, R147: shifts and rotates by the unsigned 32 bits of B, and the bit fields. R146, R155, R156: bit counts and the reversal, PRMT's bytes, and SHFL,
whose result is long class. -/
def Obligations.IntegerShiftsAndBits : Prop :=
   (∀ (s : State) (v : View) (ty : Ty), ty.isInt = true →
      (∀ o : Op2, s.issuing v perLane (v.touch2 o ty.is64 ty.is64 false) →
        let A := fun l => v.src o.sc ty o.a l
        let n := fun l => (v.src o.sc .n32 o.b l).toNat % 2 ^ 32
        let t := fun (R : Nat → DWord) => Host.Outcome.next (v.done2 o false ty.is64 ty.is64 false (fun l => v.plain l (R l)) s)
        exec (.shl o ty) s = t (fun l => low ty (A l <<< n l)) ∧
        exec (.shr o ty) s = t (fun l => low ty (A l) >>> n l) ∧
        exec (.shra o ty) s = t (fun l => low ty ((if ty.is64 then A l else ((A l).setWidth 32).signExtend 64).sshiftRight (n l))) ∧
        exec (.rot o ty false) s = t (fun l =>
          if ty.is64 then (A l).rotateLeft (n l) else (((A l).setWidth 32).rotateLeft (n l)).setWidth 64) ∧
        exec (.rot o ty true) s = t (fun l =>
          if ty.is64 then (A l).rotateRight (n l) else (((A l).setWidth 32).rotateRight (n l)).setWidth 64) ∧
        exec (.bfe o ty) s = t (fun l =>
          let b := v.src o.sc .n32 o.b l
          let p := min (b.toNat % 256) ty.bits
          let k := min (b.toNat / 256 % 256) (ty.bits - p)
          let f := (A l >>> p).setWidth k
          if ty.signed then low ty (f.signExtend 64) else f.setWidth 64)) ∧
      (∀ o : Op3, s.issuing v perLane (v.touch3 o ty.is64 ty.is64 false ty.is64) →
        exec (.bfi o ty) s = .next (v.done3 o false ty.is64 ty.is64 false ty.is64 (fun l =>
          let b := v.src o.sc .n32 o.b l
          let p := min (b.toNat % 256) ty.bits
          let k := min (b.toNat / 256 % 256) (ty.bits - p)
          let m : DWord := (BitVec.allOnes k).setWidth 64 <<< p
          v.plain l ((v.src o.sc ty o.a l &&& ~~~m) ||| ((v.src o.sc ty o.c l <<< p) &&& m))) s))) ∧
   (∀ (s : State) (v : View) (ty : Ty),
      (∀ o : Op1, s.issuing v perLane (v.touch1 o false ty.is64) →
        let A := fun l => v.src o.sc ty o.a l
        let t := fun (R : Nat → DWord) => Host.Outcome.next (v.done1 o false false ty.is64 (fun l => v.plain l (R l)) s)
        exec (.popc o ty) s = t (fun l => BitVec.ofNat 64 ((upTo ty.bits).countP fun i => (A l).getLsbD i)) ∧
        exec (.clz o ty) s = t (fun l => BitVec.ofNat 64 ((upTo ty.bits).reverse.takeWhile fun i => !(A l).getLsbD i).length)) ∧
      (∀ o : Op1, ty.isInt = true → s.issuing v perLane (v.touch1 o ty.is64 ty.is64) →
        let A := fun l => v.src o.sc ty o.a l
        exec (.brev o ty) s = .next (v.done1 o false ty.is64 ty.is64 (fun l =>
          v.plain l (if ty.is64 then (A l).reverse else (((A l).setWidth 32).reverse).setWidth 64)) s)) ∧
      (∀ o : Op3, s.issuing v perLane (v.touch3 o false false false false) →
        exec (.prmt o) s = .next (v.done3 o false false false false false (fun l =>
          let pool : DWord := (v.src o.sc .n32 o.c l).setWidth 32 ++ (v.src o.sc .n32 o.a l).setWidth 32
          let sel := v.src o.sc .n32 o.b l
          let byte := fun k =>
            let x := (pool >>> (8 * (sel >>> (4 * k) % 8).toNat)).setWidth 8
            if sel.getLsbD (4 * k + 3) then (if x.msb then 0xFF#8 else 0x00#8) else x
          v.plain l ((byte 3 ++ byte 2 ++ byte 1 ++ byte 0 : Word).setWidth 64)) s)) ∧
      (∀ (o : Op2) (m : ShflMode) (w : Fin 6),
        let us := (useSrc o.sc ty.is64 o.a (v.active o.h) ++ useSrc o.sc false o.b (v.active o.h)) ++ useDst false ty.is64 o.d (v.active o.h)
        s.issuing v perLane us →
        exec (.shfl o ty m w) s = .next (v.computed o.h 8 true false ty.is64 o.d us (fun l =>
          let i := l % 2 ^ w.val
          let b := (v.src false .n32 o.b l).toNat % 2 ^ 32
          let j : Option Nat := match m with
            | .idx => some (b % 2 ^ w.val)
            | .up => if b ≤ i then some (i - b) else none
            | .down => if i + b < 2 ^ w.val then some (i + b) else none
            | .xor => some ((i ^^^ b) % 2 ^ w.val)
          v.plain l (match j with
            | some j => if (v.active o.h).getLsbD (l - i + j) then v.vval ty.is64 o.a.idx.toNat (l - i + j) else v.vval ty.is64 o.a.idx.toNat l
            | none => v.vval ty.is64 o.a.idx.toNat l)) s)))

/-- R148, R149, R151: immediates, addresses, selection, and sums and differences with a carry in and out. R110, R150, R152, R153, R154: comparisons, truth
tables, votes, ballots and V2S, whose A must lie in the windows for every issuing lane. -/
def Obligations.IntegerCarriesAndPredicates : Prop :=
   (∀ (s : State) (v : View) (ty : Ty),
      (∀ (h : Hdr) (sc : Bool) (d : BitVec 8) (x : DWord), s.issuing v perLane (useDst sc ty.is64 d (v.mask h sc)) →
        exec (.movi h sc ty d x) s = .next (v.computed h (if ty.is64 then 16 else 12) false sc ty.is64 d
          (useDst sc ty.is64 d (v.mask h sc)) (fun l => v.plain l x) s)) ∧
      (∀ (o : Op2) (sh : BitVec 3) (disp : Word), s.issuing v perLane (v.touch2 o true true ty.is64) →
        exec (.lea o ty sh disp) s = .next (v.computed o.h 12 false o.sc true o.d (v.touch2 o true true ty.is64) (fun l =>
          v.plain l (v.src o.sc .n64 o.a l + (BitVec.ofInt 64 (asInt ty (v.src o.sc ty o.b l)) <<< sh.toNat) + disp.signExtend 64)) s)) ∧
      (∀ (o : Op2) (pc : BitVec 3),
        let us := (useSrc o.sc ty.is64 o.a (v.mask o.h o.sc) ++ useSrc o.sc ty.is64 o.b (v.mask o.h o.sc) ++ useP pc (v.mask o.h o.sc)) ++
          useDst o.sc ty.is64 o.d (v.mask o.h o.sc)
        s.issuing v perLane us →
        exec (.sel o ty pc) s = .next (v.computed o.h 8 false o.sc ty.is64 o.d us (fun l =>
          v.plain l (if (v.f.pred pc.toNat).getLsbD l then v.src o.sc ty o.a l else v.src o.sc ty o.b l)) s)) ∧
      (∀ (o : Op2) (q : BitVec 3) (ci : Option (BitVec 3)),
        let m := v.mask o.h o.sc
        let us := (useSrc o.sc ty.is64 o.a m ++ useSrc o.sc ty.is64 o.b m) ++ (match ci with | some c => useP c m | none => []) ++
          useDst o.sc ty.is64 o.d m ++ [⟨.r (.p q.toNat), m, false, false⟩]
        let A := fun l => (low ty (v.src o.sc ty o.a l)).toNat
        let B := fun l => (low ty (v.src o.sc ty o.b l)).toNat
        let cin := fun l => match ci with | some c => ((v.f.pred c.toNat).getLsbD l).toNat | none => 0
        s.issuing v perLane us →
        exec (.iaddc o ty q ci) s = .next (v.after o.h.sw 8 us (fun s =>
          (s.upds v.f (v.dstUpds o.sc ty.is64 o.d ((v.runs o.h o.sc).map fun l => (l, low ty (BitVec.ofNat 64 (A l + B l + cin l)))))).upd v.f
            (v.predUpd o.h o.sc q fun l => decide (2 ^ ty.bits ≤ A l + B l + cin l))) s) ∧
        exec (.isubb o ty q ci) s = .next (v.after o.h.sw 8 us (fun s =>
          (s.upds v.f (v.dstUpds o.sc ty.is64 o.d ((v.runs o.h o.sc).map fun l =>
            (l, low ty (BitVec.ofNat 64 (A l) - BitVec.ofNat 64 (B l) - BitVec.ofNat 64 (cin l)))))).upd v.f
            (v.predUpd o.h o.sc q fun l => decide (A l < B l + cin l))) s))) ∧
   (∀ (s : State) (v : View),
      (∀ (h : Hdr) (sc : Bool) (cc : Cond) (ty : Ty) (q : BitVec 3) (a b : Opnd),
        let us := useSrc sc ty.is64 a (v.mask h sc) ++ useSrc sc ty.is64 b (v.mask h sc)
        s.issuing v perLane (v.touchP h sc q us) →
        exec (.icmp h sc cc ty q a b) s = .next (v.decided h sc q us (fun l =>
          let x := asInt ty (v.src sc ty a l)
          let y := asInt ty (v.src sc ty b l)
          match cc with
          | .eq => decide (low ty (v.src sc ty a l) = low ty (v.src sc ty b l))
          | .ne => decide (low ty (v.src sc ty a l) ≠ low ty (v.src sc ty b l))
          | .lt => decide (x < y) | .le => decide (x ≤ y) | .gt => decide (y < x) | .ge => decide (y ≤ x)) s)) ∧
      (∀ (h : Hdr) (f : BitVec 4) (g : PlopG) (q pa pb : BitVec 3),
        let m := v.active h
        let us := useP pa m ++ useP pb m ++ (match g with | .none => [] | .and c | .or c | .xor c => useP c m)
        let bit := fun (n : BitVec 3) l => (v.f.pred n.toNat).getLsbD l
        s.issuing v perLane (v.touchP h false q us) →
        exec (.plop h f g q pa pb) s = .next (v.decided h false q us (fun l =>
          let r := match bit pa l, bit pb l with
            | false, false => f.getLsbD 0 | false, true => f.getLsbD 1 | true, false => f.getLsbD 2 | true, true => f.getLsbD 3
          match g with
          | .none => r | .and c => r && bit c l | .or c => r || bit c l | .xor c => r != bit c l) s)) ∧
      (∀ (h : Hdr) (m : VoteMode) (q pa : BitVec 3), s.issuing v perLane (v.touchP h false q (useP pa (v.active h))) →
        let here := lanesOf (v.active h)
        let bit := fun l => (v.f.pred pa.toNat).getLsbD l
        exec (.vote h m q pa) s = .next (v.decided h false q (useP pa (v.active h)) (fun _ => match m with
          | .any => here.any bit
          | .all => here.all bit
          | .uni => here.all bit || here.all fun l => !bit l) s)) ∧
      (∀ (h : Hdr) (d : BitVec 8) (pa : BitVec 3), s.issuing v perLane (useP pa (v.active h) ++ useDst false false d (v.active h)) →
        exec (.ballot h d pa) s = .next (v.computed h 8 false false false d (useP pa (v.active h) ++ useDst false false d (v.active h))
          (fun l => v.plain l ((maskOf fun k => (v.active h).getLsbD k && (v.f.pred pa.toNat).getLsbD k).setWidth 64)) s)) ∧
      (∀ (sw : Bool) (ty : Ty) (d : BitVec 6) (a : Opnd) (b : BitVec 8),
        let n := (v.sval b).toNat % 32
        let inside := ∀ i < (if ty.is64 then 2 else 1), (quotaRow v.f.quota (a.idx.toNat + i)).isSome = true
        let us := useS b v.g.lanes ++ useSrc false ty.is64 a (if v.g.lanes.getLsbD n then 1#32 <<< n else 0) ++ defS d.toNat v.g.lanes
        (inside → s.issuing v perLane us →
          exec (.v2s sw ty d a b) s = .next (v.after sw 8 us (fun s =>
            s.defer v.f (Out.of [.s d.toNat (if v.g.lanes.getLsbD n then v.vval ty.is64 a.idx.toNat n else 0)])) s)) ∧
        (¬inside → a.x = false → v.g.lanes ≠ 0 → s.view? = some v →
          exec (.v2s sw ty d a b) s = .next (s.traps v (v.trapRec .registerBound v.g.lanes 0 0)))))

/-- R157, R163: FADD, FSUB, FMUL and FFMA round the exact result once, under the instruction's mode or sr.fpm's. R164 to R168: FMIN, FMAX, FCMP, FSCALE, FRND
and FCLASS. FMIN and FMAX set no flag; −0 orders below +0; a NaN operand is dropped unless .nan or both are NaN; FCMP holds −0 equal to +0. R160, R161, R171,
R172: two packed results, element 0 rounded first, and dot products rounded once. The sign of a zero sum under RDN is the model's reading (log entry 28). -/
def Obligations.FloatArithmetic : Prop :=
   (∀ (s : State) (v : View) (rm : RMode),
      (∀ o : Op2, s.issuing v perLane (v.touch2 o false false false) →
        let a := v.fp o.sc .f32 o.a
        let b := v.fp o.sc .f32 o.b
        let t := fun (R : Nat → Num XVal) => Host.Outcome.next (v.done2 o false false false false (fun l =>
          runLane v l (do pure (wide (← v.round .f32 rm (← R l))))) s)
        exec (.fadd o rm) s = t (fun l => do pure (zeroSign v.f.fpm rm (← xadd (a l) (b l)))) ∧
        exec (.fsub o rm) s = t (fun l => do pure (zeroSign v.f.fpm rm (← xadd (a l) (b l).neg))) ∧
        exec (.fmul o rm) s = t (fun l => xmul (a l) (b l))) ∧
      (∀ o : Op3, s.issuing v perLane (v.touch3 o false false false false) →
        exec (.ffma o rm) s = .next (v.done3 o false false false false false (fun l => runLane v l (do
          let p ← xmul (v.fp o.sc .f32 o.a l) (v.fp o.sc .f32 o.b l)
          let t ← xadd p (v.fp o.sc .f32 o.c l)
          pure (wide (← v.round .f32 rm (zeroSign v.f.fpm rm t))))) s))) ∧
   (∀ (s : State) (v : View),
      (∀ (o : Op2) (nan : Bool), s.issuing v perLane (v.touch2 o false false false) →
        let a := v.fp o.sc .f32 o.a
        let b := v.fp o.sc .f32 o.b
        let pick := fun (lower : Bool) l =>
          if (a l).isNan && (b l).isNan then XVal.nan
          else if (a l).isNan then (if nan then .nan else b l)
          else if (b l).isNan then (if nan then .nan else a l)
          else if lower then (if (b l).less (a l) then b l else a l) else (if (a l).less (b l) then b l else a l)
        let t := fun (lower : Bool) => Host.Outcome.next (v.done2 o false false false false (fun l =>
          v.plain l (wide (quietly (roundFp v.f.fpm 0 .f32 .rne (pick lower l))))) s)
        exec (.fmin o nan) s = t true ∧ exec (.fmax o nan) s = t false) ∧
      (∀ (h : Hdr) (sc : Bool) (cc : FCond) (q : BitVec 3) (a b : Opnd),
        let us := useSrc sc false a (v.mask h sc) ++ useSrc sc false b (v.mask h sc)
        s.issuing v perLane (v.touchP h sc q us) →
        exec (.fcmp h sc cc q a b) s = .next (v.decided h sc q us (fun l =>
          let x := v.fp sc .f32 a l
          let y := v.fp sc .f32 b l
          let ord := !x.isNan && !y.isNan
          let same := x == y || (x.isZero && y.isZero)
          match cc with
          | .eq => ord && same | .ne => !(ord && same)
          | .lt => ord && !same && x.less y | .le => ord && (same || x.less y)
          | .gt => ord && !same && y.less x | .ge => ord && (same || y.less x)
          | .num => ord | .nan => !ord) s)) ∧
      (∀ (o : Op2) (rm : RMode), s.issuing v perLane (v.touch2 o false false false) →
        exec (.fscale o rm) s = .next (v.done2 o false false false false (fun l => runLane v l (do
          pure (wide (← v.round .f32 rm (scaleX (asInt .i32 (v.src o.sc .i32 o.b l)) (v.fp o.sc .f32 o.a l)))))) s)) ∧
      (∀ (o : Op1) (rm : RMode), s.issuing v perLane (v.touch1 o false false) →
        exec (.frnd o rm) s = .next (v.done1 o false false false (fun l => runLane v l (do
          pure (wide (quietly (roundFp 0 0 .f32 .rne (← frndX v.f.fpm rm (v.fp o.sc .f32 o.a l))))))) s)) ∧
      (∀ (o : Op1) (ty : Ty), s.issuing v perLane (v.touch1 o false false) →
        exec (.fclass o ty) s = .next (v.done1 o false false false (fun l =>
          v.plain l (BitVec.ofNat 64 (2 ^ classBit ty (v.src o.sc ty o.a l).toNat))) s))) ∧
   (∀ (s : State) (v : View) (ty : Ty) (rm : RMode),
      let two := fun l (f : Nat → Num (BitVec 32)) => runLane v l (do
        let lo ← f 0
        let hi ← f 1
        pure (BitVec.ofNat 64 (lo.toNat % 2 ^ 16 + hi.toNat % 2 ^ 16 * 2 ^ 16)))
      (∀ o : Op2, s.issuing v perLane (v.touch2 o false false false) →
        let a := v.pfp o.sc ty o.a
        let b := v.pfp o.sc ty o.b
        exec (.fadd2 o ty rm) s = .next (v.done2 o false false false false (fun l => two l fun e => do
          v.round ty rm (zeroSign v.f.fpm rm (← xadd (a l e) (b l e)))) s) ∧
        exec (.fmul2 o ty rm) s = .next (v.done2 o false false false false (fun l => two l fun e => do
          v.round ty rm (← xmul (a l e) (b l e))) s)) ∧
      (∀ o : Op3, s.issuing v perLane (v.touch3 o false false false false) →
        let dot := fun (n : Nat) (ta tb : Ty) l => runLane v l (do
          let ps ← (upTo n).mapM fun e => xmul (v.pfp o.sc ta o.a l e) (v.pfp o.sc tb o.b l e)
          let t ← exactSum (ps ++ [v.fp o.sc .f32 o.c l])
          pure (wide (← v.round .f32 rm (zeroSign v.f.fpm rm t))))
        let t := fun R => Host.Outcome.next (v.done3 o false false false false false R s)
        exec (.ffma2 o ty rm) s = t (fun l => two l fun e => do
          let p ← xmul (v.pfp o.sc ty o.a l e) (v.pfp o.sc ty o.b l e)
          v.round ty rm (zeroSign v.f.fpm rm (← xadd p (v.pfp o.sc ty o.c l e)))) ∧
        exec (.fdot2 o ty rm) s = t (dot 2 ty ty) ∧
        exec (.fdot4 o ty rm false) s = t (dot 4 ty ty) ∧
        exec (.fdot4 o .e4m3 rm true) s = t (dot 4 .e4m3 .e5m2) ∧
        exec (.fdot4 o .e5m2 rm true) s = t (dot 4 .e5m2 .e4m3)))

/-- R169, R170: the roots and transcendental functions are long class; FRCP and FSQRT are correctly rounded, the others give one of the two neighbours of the
exact result. Which neighbour is a free value (log entry 6); the statement holds for either. -/
def Obligations.FloatElementary : Prop :=
  ∀ (s : State) (v : View) (o : Op1) (rm : RMode), s.issuing v perLane (v.touch1 o false false) →
    let x := v.fp o.sc .f32 o.a
    let t := fun (R : Nat → DWord × NumSt) => Host.Outcome.next (v.done1 o true false false R s)
    let near := fun (f : XVal → Num XVal) (R : Nat → DWord × NumSt) => ∀ l, ∃ up : Bool, R l = runLane v l (do
      let y ← f (x l)
      pure (wide (← roundFp v.f.fpm 0 .f32 (if up then (if y.negative then .rdn else .rup) else .rz) y)))
    exec (.frcp o rm) s = t (fun l => runLane v l (do pure (wide (← v.round .f32 rm (← rcpX (x l)))))) ∧
    exec (.fsqrt o rm) s = t (fun l => runLane v l (do pure (wide (← v.round .f32 rm (← sqrtX (x l)))))) ∧
    (∃ R, exec (.frsq o) s = t R ∧ near rsqX R) ∧
    (∃ R, exec (.fexp2 o) s = t R ∧ near (fun y => pure (exp2X y)) R) ∧
    (∃ R, exec (.flog2 o) s = t R ∧ near log2X R) ∧
    (∃ R, exec (.fsin o) s = t R ∧ near sinX R) ∧
    (∃ R, exec (.fcos o) s = t R ∧ near cosX R) ∧
    (∃ R, exec (.ftanh o) s = t R ∧ near (fun y => pure (tanhX y)) R)

/-- R174 to R180: conversions, unpacking, block scales, grouped parameters and codes. R93: a finite or infinite value of a format rounds to its own code in
every mode but RST, and raises no flag. Model's choices in it: log entry 28. -/
def Obligations.ConversionsRoundOnce : Prop :=
   (∀ (s : State) (v : View),
      (∀ (o : Op1) (dst src : Ty) (rm : RMode) (sat : Bool), s.issuing v perLane (v.touch1 o dst.is64 src.is64) →
        let a := v.src o.sc src o.a
        let x := v.fp o.sc src o.a
        let t := fun R => Host.Outcome.next (v.done1 o false dst.is64 src.is64 (fun l => runLane v l (R l)) s)
        (src.isFloat = true → dst.isFloat = true →
          exec (.cvt o dst src rm sat) s = t (fun l => do pure (wide (← v.roundSat dst rm sat (x l))))) ∧
        (src.isFloat = true → dst.isFloat = false →
          exec (.cvt o dst src rm sat) s = t (fun l => do pure (extended o.sc dst (← floatToInt v.f.fpm dst rm (x l))))) ∧
        (src.isFloat = false → dst.isFloat = true →
          exec (.cvt o dst src rm sat) s = t (fun l => do pure (wide (← v.roundSat dst rm sat (XVal.ofInt (asInt src (a l))))))) ∧
        (src.isFloat = false → dst.isFloat = false →
          exec (.cvt o dst src rm sat) s = t (fun l =>
            if sat then do pure (extended o.sc dst (← satInt dst.signed dst.bits (asInt src (a l))))
            else pure (extended o.sc dst (asInt dst (BitVec.ofInt 64 (asInt src (a l)))))))) ∧
      (∀ (o : Op2) (dst : Ty) (rm : RMode) (sat : Bool) (p : BitVec 2),
        let m := v.mask o.h o.sc
        let us := (useSrc o.sc false o.a m ++ useSrc o.sc false o.b m) ++ useDst o.sc false o.d m ++ useDst o.sc false o.d m
        s.issuing v perLane us →
        exec (.cvtp o dst rm sat p) s = .next (v.computed o.h 8 false o.sc false o.d us (fun l => runLane v l (do
          let x ← v.roundSat dst rm sat (v.fp o.sc .f32 o.a l)
          let y ← v.roundSat dst rm sat (v.fp o.sc .f32 o.b l)
          let w := dst.bits
          let old := putBits (v.kept o.sc o.d l) (w * (2 * p.toNat)) w x.toNat
          pure (BitVec.ofNat 64 (putBits old (w * (2 * p.toNat + 1)) w y.toNat)))) s)) ∧
      (∀ (o : Op1) (src : Ty) (i : BitVec 3) (scale : Option Opnd),
        let m := v.mask o.h o.sc
        let us := useSrc o.sc false o.a m ++ (match scale with | some b => useSrc o.sc false b m | none => []) ++ useDst o.sc false o.d m
        let code := fun l => v.packed o.sc src o.a l i.toNat
        let x := fun l => decodeFp v.f.fpm (v.f.fp4x.setWidth 16) src (code l)
        s.issuing v perLane us →
        exec (.cvtu o src i scale) s = .next (v.computed o.h 8 false o.sc false o.d us (fun l => runLane v l (
          if src.isFloat then do
            let y ← match scale with
              | none => pure (x l)
              | some b => xmul (x l) (x8Scale ((v.src o.sc .n32 b l).setWidth 8))
            pure (wide (← v.round .f32 .rne y))
          else pure (extended false src (asInt src (BitVec.ofNat 64 (code l)))))) s)) ∧
      (∀ (o : Op1) (ty : Ty), s.issuing v perLane (v.touch1 o false false) →
        let e := fun l => bscaleX8 ty (v.fp o.sc .f32 o.a l)
        exec (.bscale o ty false) s = .next (v.done1 o false false false (fun l => runLane v l (do pure (BitVec.ofNat 64 (← e l)))) s) ∧
        exec (.bscale o ty true) s = .next (v.done1 o false false false (fun l => runLane v l (do
          let k ← e l
          pure (if k = 255 then 0x7FC00000#64
            else wide (quietly (roundFp 0 0 .f32 .rne (.fin false (pow2 (127 - (k : Int)))))))) ) s)) ∧
      (∀ (o : Op2) (q8 : Bool), s.issuing v perLane (v.touch2 o false false false) →
        exec (.qparm o q8) s = .next (v.done2 o true false false false (fun l => runLane v l (do
          pure (wide (← v.qparm q8 (v.fp o.sc .f32 o.a l) (v.fp o.sc .f32 o.b l))))) s)) ∧
      (∀ (o : Op2) (q8 : Bool) (rm : RMode), s.issuing v perLane (v.touch2 o false false false) →
        exec (.qapply o q8 rm) s = .next (v.done2 o false false false false (fun l => runLane v l (do
          pure (wide (← v.qapply q8 rm (v.fp o.sc .f32 o.a l) (v.src o.sc .n32 o.b l))))) s)) ∧
      (∀ (o : Op2) (q8 : Bool) (i : BitVec 3), s.issuing v perLane (v.touch2 o false false false) →
        exec (.dq o q8 i) s = .next (v.done2 o false false false false (fun l => runLane v l (do
          let p := v.params (v.src o.sc .n32 o.b l)
          let x ← xmul (XVal.ofInt ((v.groupCode o.sc q8 o.a l i.toNat : Int) - p.2)) p.1
          pure (wide (← v.round .f32 .rne x)))) s))) ∧
   (∀ (ty : Ty) (fpm : BitVec 32) (x4 : BitVec 16) (rm : RMode) (c : Nat) (st : NumSt),
      ty ∈ [Ty.f32, .f16, .bf16, .e4m3, .e5m2, .e2m1] → c < 2 ^ (fpFmt ty).w → resolveRm fpm rm ≠ .rst → flushOut fpm ty = false →
      ((fpFmt ty).value c).isNan = false → (ty = .e2m1 → c ≠ 8) →
      (roundFp fpm x4 ty rm ((fpFmt ty).value c)).run st = (BitVec.ofNat 32 c, st))

/-- R181 to R185: the lattice instructions. With no active lane they only advance; a lane whose point is outside the shell under lov = 10 traps ShellOverflow
with the mask of such lanes and nothing is written; otherwise the codes, points or residuals are written when the result returns. -/
def Obligations.LatticePoints : Prop :=
  ∀ (s : State) (v : View) (o : LatOp),
    let m := v.active o.h
    let here := lanesOf m
    let n := o.a.idx.toNat
    let both := useSrc false false o.b m ++ useS o.c m
    let k := v.latScale o
    let old := v.kept false o.d
    let put := fun (code : Nat → Option (BitVec 16)) => v.vecUpds false o.d.toNat (here.map fun l =>
      (l, BitVec.ofNat 64 (withHalf o.hi (old l) ((code l).getD 0))))
    let target := fun l i => targetOf (v.fpReg (n + i) l) (k l)
    let code := fun l => quietly (quantLE8 v.f.fpm ((upTo 8).map fun i => target l i))
    let done := fun us ups fl => Host.Outcome.next (v.after o.h.sw 8 us (fun s => s.defer v.f (Out.of ups (fl : BitVec 32 × BitVec 32).1 fl.2)) s)
    let rule := fun i us (codes : Nat → Option (BitVec 16)) ups =>
      s.issuing v perLane us →
      (here = [] → exec i s = .next (v.after o.h.sw 8 us id s)) ∧
      (here ≠ [] → (∀ l ∈ here, (codes l).isSome) → ∃ fl, exec i s = done us ups fl) ∧
      ((∃ l ∈ here, codes l = none) →
        exec i s = .next (s.traps v (v.trapRec .shellOverflow (maskOf fun l => here.contains l && (codes l).isNone) 0 0)))
    rule (.qle8 o) (useRun 8 n m o.a.last ++ both ++ useDst false false o.d m) code (put code) ∧
    rule (.dle8 o) (useSrc false false o.a m ++ both ++ defRun 8 o.d.toNat m) (fun _ => some 0)
      ((upTo 8).flatMap fun i => v.vecUpds false (o.d.toNat + i) (here.map fun l => (l, wide (quietly (v.round .f32 .rne
        (if (k l).isNan then .nan else v.coordRead ((decodeLE8 (halfOf o.hi (v.src false .n32 o.a l).toNat)).getD i 0) (k l))))))) ∧
    (∀ (i : Int) (x : XVal), v.coordRead i x = (match v.coordTiny i x, coordTimes i x with | true, .fin neg _ => .fin neg 0 | _, y => y)) ∧
    ((o.a.idx.toNat ≤ o.d.toNat → o.a.idx.toNat + 7 < o.d.toNat) →
      rule (.rle8 o) (useRun 8 n m false ++ both ++ useDst false false o.d m) code
        (put code ++ (upTo 8).flatMap fun i => v.vecUpds false (n + i) (here.map fun l => (l,
          let a := v.fpReg (n + i) l
          if (k l).isNan || a.isNan then 0x7FC00000#64
          else wide (quietly (do v.round .f32 .rne (← xadd a (coordTimes ((decodeLE8 ((code l).getD 0)).getD i 0) (k l)).neg)))))))  ∧
    (let u := v.ule8Mask o
     let codes := fun l => if u l = 0 then some (halfOf o.hi (old l)) else quietly (quantLE8 v.f.fpm ((upTo 8).map fun i =>
        if (u l).testBit i then target l i else (let y := (decodeLE8 (halfOf o.hi (old l))).getD i 0
          coordX (if v.coordTiny y (k l) then 0 else y))))
     rule (.ule8 o) (both ++ [⟨.v o.d.toNat, m, true, false⟩] ++ (upTo 8).map fun i =>
        ⟨.v (n + i), m &&& maskOf fun l => (u l).testBit i, true, o.a.last⟩) codes (put codes))

/-- R186: CBQ gives the index of the nearest entry of the codebook that is no NaN, the lowest index on equal distances, by exact distances; an infinite a
takes the first entry equal to it or else the first largest (smallest) one; a NaN a or a codebook of NaNs gives 0 and the invalid flag; CBQ is long class and
sets no other flag. -/
def Obligations.CodebookIndices : Prop :=
  ∀ (s : State) (v : View) (h : Hdr) (d : BitVec 8) (a b : Opnd),
    let m := v.active h
    let us := (useSrc false false a m ++ (if b.x then (upTo 4).flatMap (fun i => useS (BitVec.ofNat 8 (b.idx.toNat + i)) m)
      else useRun 8 b.idx.toNat m b.last)) ++ useDst false false d m
    s.issuing v perLane us →
    ∃ R, exec (.cbq h d a b) s = .next (v.computed h 8 true false false d us R s) ∧
      ∀ l, let x := v.fp false .f32 a l
        let e := fun (i : Nat) => (v.codebook b l).getD i .nan
        let finite := fun (y : XVal) => ∃ n m, y = XVal.fin n m
        let below := fun (y z : XVal) => y.less z = true ∧ ¬(y.isZero = true ∧ z.isZero = true)
        let nearer := fun (y z : XVal) => match x with
          | .inf false => below z y
          | .inf true => below y z
          | _ => (finite y ∧ ¬finite z) ∨ (finite y ∧ finite z ∧ ratAbs (x.toRat - y.toRat) < ratAbs (x.toRat - z.toRat))
        (x.isNan = true ∨ (∀ i < 16, (e i).isNan = true) → R l = v.plain l 0 flagIv) ∧
        (x.isNan = false → (∃ i < 16, (e i).isNan = false) → ∃ i < 16, R l = v.plain l (BitVec.ofNat 64 i) ∧ (e i).isNan = false ∧
          (∀ j < 16, (e j).isNan = false → ¬nearer (e j) (e i)) ∧ (∀ j < i, (e j).isNan = false → nearer (e i) (e j)))

/-- R133, R134: each branching instruction writes its link or counter and sorts the gang's lanes by next PC. R133: a register target that is no multiple of 4
traps Misaligned: no lane branches and no link is written. R130: a gang whose lanes are sorted by next PC: every lane of it belongs to exactly one gang
afterwards, at its next PC; lanes of one next PC stay together; the gang of the lowest lane keeps the name and so the turn; the other gangs of the fibre are
unchanged. -/
def Obligations.BranchesSortLanes : Prop :=
   (∀ (s : State) (v : View) (h : Hdr),
      let m := v.active h
      let pc := v.iss.pc
      (∀ off : Word, s.issuing v perLane [] →
        exec (.bra h off) s = .next (v.branched h 12 [] id (fun _ => pc + off.signExtend 56) s)) ∧
      (∀ a : Opnd, s.issuing v perLane (useSrc false true a m) → (∀ l ∈ lanesOf m, (v.src false .n64 a l).extractLsb' 0 2 = 0#2) →
        exec (.brx h a) s = .next (v.branched h 8 (useSrc false true a m) id (fun l => (v.src false .n64 a l).setWidth 56) s) ∧
        exec (.ret h a) s = exec (.brx h a) s) ∧
      (∀ (d : BitVec 8) (off : Word), s.issuing v perLane (useDst false true d m) →
        exec (.call h d off) s = .next (v.branched h 12 (useDst false true d m)
          (fun s => s.upds v.f (v.vecUpds true d.toNat ((lanesOf m).map fun l => (l, (pc + 12).setWidth 64))))
          (fun _ => pc + off.signExtend 56) s)) ∧
      (∀ (d : BitVec 8) (a : Opnd), s.issuing v perLane (useSrc false true a m ++ useDst false true d m) →
        (∀ l ∈ lanesOf m, (v.src false .n64 a l).extractLsb' 0 2 = 0#2) →
        exec (.callx h d a) s = .next (v.branched h 8 (useSrc false true a m ++ useDst false true d m)
          (fun s => s.upds v.f (v.vecUpds true d.toNat ((lanesOf m).map fun l => (l, (pc + 8).setWidth 64))))
          (fun l => (v.src false .n64 a l).setWidth 56) s)) ∧
      (∀ (d : BitVec 8) (off : Word), s.issuing v perLane (useRun 1 d.toNat m false) →
        let c := fun l => (v.vreg d.toNat).at l - 1
        exec (.dbnz h false d off) s = .next (v.branched h 12 (useRun 1 d.toNat m false)
          (fun s => s.upds v.f (v.vecUpds false d.toNat ((lanesOf m).map fun l => (l, (c l).setWidth 64))))
          (fun l => if c l = 0 then pc + 12 else pc + off.signExtend 56) s)) ∧
      (∀ (d : BitVec 8) (off : Word),
        let us : List Use := [⟨.r (.s d.toNat), v.mask h true, true, false⟩]
        let c := v.f.s[d.toNat]! - 1
        s.issuing v perLane us →
        (v.scalarGuard h = true → exec (.dbnz h true d off) s = .next (v.branched { h with pg := 7, pn := false } 12 us
          (fun s => s.upd v.f (.s d.toNat c)) (fun _ => if c = 0 then pc + 12 else pc + off.signExtend 56) s)) ∧
        (v.scalarGuard h = false → exec (.dbnz h true d off) s = .next (v.branched { h with pg := 7, pn := true } 12 us id
          (fun _ => pc + 12) s)))) ∧
   (∀ (s : State) (v : View) (h : Hdr) (a : Opnd) (d : BitVec 8) (l : Nat),
      let m := v.active h
      let bad := maskOf fun k => m.getLsbD k && (v.src false .n64 a k).extractLsb' 0 2 != 0#2
      let t := v.trapRec .misaligned bad (((v.src false .n64 a l).setWidth 56 : VA).setWidth 64) 0
      bad.getLsbD l = true → (∀ k < l, bad.getLsbD k = false) →
      (s.issuing v perLane (useSrc false true a m) →
        exec (.brx h a) s = .next (s.traps v t) ∧ exec (.ret h a) s = .next (s.traps v t)) ∧
      (s.issuing v perLane (useSrc false true a m ++ useDst false true d m) → exec (.callx h d a) s = .next (s.traps v t))) ∧
   (∀ (f : Fibre) (g : Gang) (next : Nat → VA), g ∈ f.gangs → g.lanes ≠ 0 → (f.gangs.map (·.id)).Nodup → (∀ x ∈ f.gangs, x.id < f.nextGang) →
      let f' := f.part g next
      (∀ l < 32, g.lanes.getLsbD l = true → ∃ x ∈ f'.gangs, (x.id = g.id ∨ f.nextGang ≤ x.id) ∧ x.pc = next l ∧
        ∀ k < 32, x.lanes.getLsbD k = (g.lanes.getLsbD k && next k == next l)) ∧
      (∃ x ∈ f'.gangs, x.id = g.id ∧ x.lanes.getLsbD (lowest g.lanes) = true) ∧
      (∀ x ∈ f.gangs, x.id ≠ g.id → x ∈ f'.gangs) ∧
      (f'.gangs.map (·.id)).Nodup ∧ f'.turn = f.turn ∧
      { f' with gangs := f.gangs, nextGang := f.nextGang } = f)

/-- R137: a gang of a parted fibre that issues REGANG: it waits while some gang does not; when every gang waits at this id and PC they merge into one past the
REGANG, which holds the turn; when they all wait but not alike, this REGANG traps CollectiveDivergence. -/
def Obligations.RegangMeets : Prop :=
  ∀ (s : State) (v : View) (sw : Bool) (a : BitVec 8), s.issuing v perLane (useS a v.g.lanes) → 1 < v.f.gangs.length →
    let there : List Gang := v.f.gangs.map fun g => if g.id = v.iss.gang then { g with st := .rendezvous ((v.sval a).setWidth 8) } else g
    let waits := fun (g : Gang) => match g.st with | .rendezvous _ => true | _ => false
    let alike := fun (x y : Gang) => match x.st, y.st with | .rendezvous i, .rendezvous j => decide (i = j ∧ x.pc = y.pc) | _, _ => false
    (there.all waits = true → (∃ x ∈ there, ∃ y ∈ there, alike x y = false) →
      exec (.regang sw a) s = .next (s.traps v (v.trapRec .collectiveDivergence v.g.lanes 0 0))) ∧
    ((∀ x ∈ there, ∀ y ∈ there, alike x y = true) → ∃ t f', exec (.regang sw a) s = .next t ∧ t.fibre? v.f.ref = some f' ∧
      ∃ g, f'.gangs = [g] ∧ g.id = v.iss.gang ∧ f'.turn = v.iss.gang ∧ g.st = .run ∧ (∀ x ∈ there, g.pc = x.pc + 8) ∧
        g.lanes = unionMask (v.f.gangs.map (·.lanes))) ∧
    (there.all waits = false → ∃ t f', exec (.regang sw a) s = .next t ∧ t.fibre? v.f.ref = some f' ∧
      f'.gangs.map (fun g => (g.id, g.lanes, g.pc, g.st)) = there.map (fun g => (g.id, g.lanes, g.pc, g.st)))

/-- R66, R123, R137, R138: NOP, YIELD, REGANG of an unparted fibre and EXIT complete. R388: TRAP raises SoftTrap with its number and the lanes whose guard is
true, BKPT raises Breakpoint; with no such lane neither has an effect. -/
def Obligations.PlainControlAndTraps : Prop :=
   (∀ (s : State) (v : View) (sw : Bool) (h : Hdr),
      (∀ len : Len, s.issuing v perLane [] → exec (.nop h len) s = .next (v.after h.sw len.bytes [] id s)) ∧
      (s.issuing v perLane [] → exec (.yield sw) s = .next (v.after sw 8 [] (fun s =>
        (s.modSlot v.f fun sl => { sl with holder := none, last := v.f.pos }).modFibre v.f.ref fun f => if sw then f else f.passTurn) s)) ∧
      (∀ a : BitVec 8, s.issuing v perLane (useS a v.g.lanes) → v.f.gangs.length ≤ 1 → exec (.regang sw a) s = .next (s.retire v sw 8)) ∧
      (s.issuing v perLane [] → v.active h = 0 → exec (.exit h) s = .next (s.retire v h.sw 8)) ∧
      (s.issuing v perLane [] → v.active h ≠ 0 → exec (.exit h) s =
        .next ((s.modFibre v.f.ref fun f => f.exitLanes v.iss.gang (v.active h) h.sw).meetAfterExit v.f.ref))) ∧
   (∀ (s : State) (v : View) (h : Hdr) (n : BitVec 8), s.issuing v perLane [] →
      (v.active h ≠ 0 →
        exec (.trap h n) s = .next (s.traps v (v.trapRec .softTrap (v.active h) 0 n)) ∧
        exec (.bkpt h) s = .next (s.traps v (v.trapRec .breakpoint (v.active h) 0 0))) ∧
      (v.active h = 0 → exec (.trap h n) s = .next (v.after h.sw 8 [] id s) ∧ exec (.bkpt h) s = .next (v.after h.sw 8 [] id s)))

/-- R58, R59, R139 to R142, R390: special registers, the cycle count and the segment registers. R7, R59, R97, R101: what a write does to each special register
that a program may write, and that the others ignore it. The cycles that pass in a step are a free value (log entry 5). -/
def Obligations.SpecialRegisters : Prop :=
   (∀ (s : State) (v : View) (h : Hdr) (sc : Bool) (d : BitVec 8) (r : SReg) (sw : Bool) (sp : Space),
      (s.issuing v perLane (useDst sc r.wide d (v.mask h sc)) →
        exec (.rdsr h sc d r) s = .next (v.after h.sw 8 (useDst sc r.wide d (v.mask h sc)) (fun s =>
          s.upds v.f (v.dstUpds sc r.wide d ((v.runs h sc).map fun l => (l, v.readSr s l r)))) s)) ∧
      (∀ ord : Bool,
        ((ord = true → v.f.out = [] ∨ v.runs h sc = []) → s.issuing v perLane (useDst sc true d (v.mask h sc)) →
          exec (.rdcyc h sc ord d) s = .next (v.after h.sw 8 (useDst sc true d (v.mask h sc)) (fun s =>
            s.upds v.f (v.dstUpds sc true d ((v.runs h sc).map fun l => (l, s.cyc[v.core]!)))) s)) ∧
        (ord = true → v.f.out ≠ [] → v.runs h sc ≠ [] → s.issuing v perLane [] →
          exec (.rdcyc h sc ord d) s = .next (s.modFibre v.f.ref fun f => { f with st := .parked .results, age := 0 }))) ∧
      (∀ a : Opnd, s.issuing v perLane (useSrc false r.wide a (v.active h)) →
        let x := fun l => v.src false (if r.wide then .n64 else .n32) a l
        (v.active h = 0 → exec (.wrsr h r a) s = .next (v.after h.sw 8 (useSrc false r.wide a (v.active h)) id s)) ∧
        (v.active h ≠ 0 → r ≠ .rng → exec (.wrsr h r a) s = .next (v.after h.sw 8 (useSrc false r.wide a (v.active h))
          (fun s => s.modFibre v.f.ref fun f => f.writeSr r (x (lowest (v.active h)))) s)) ∧
        (v.active h ≠ 0 → r = .rng → exec (.wrsr h r a) s = .next (v.after h.sw 8 (useSrc false r.wide a (v.active h))
          (fun s => s.modFibre v.f.ref fun f => { f with rng := Row.select (v.active h) (mkRow fun l => (x l).setWidth 32) f.rng }) s))) ∧
      (∀ a : BitVec 8, s.issuing v privileged (useS a v.g.lanes) → v.c.sysop = true →
        exec (.setseg sw false sp a) s = .next (v.after sw 8 (useS a v.g.lanes) (fun s => s.modFibre v.f.ref fun f =>
          { f with seg := f.seg.set! (segOf sp) { f.segment (segOf sp) with base := if sp = .cl then 0 else (v.sval a).setWidth 56 } }) s) ∧
        ((v.sval a).toNat ≤ 2 ^ 56 → exec (.setseg sw true sp a) s = .next (v.after sw 8 (useS a v.g.lanes) (fun s =>
          s.modFibre v.f.ref fun f => { f with seg := f.seg.set! (segOf sp) { f.segment (segOf sp) with limit := v.sval a } }) s)) ∧
        (2 ^ 56 < (v.sval a).toNat → exec (.setseg sw true sp a) s =
          .next (s.traps v (v.trapRec .segmentLimit v.g.lanes (v.sval a) 0)))) ∧
      (∀ d : BitVec 6, s.issuing v perLane (defS d.toNat v.g.lanes) →
        exec (.getseg sw true sp d) s = .next (v.after sw 8 (defS d.toNat v.g.lanes)
          (fun s => s.upd v.f (.s d.toNat (v.f.segment (segOf sp)).limit)) s) ∧
        exec (.getseg sw false sp d) s = .next (v.after sw 8 (defS d.toNat v.g.lanes)
          (fun s => s.upd v.f (.s d.toNat (if sp = .cl then 0 else (v.f.segment (segOf sp)).base.setWidth 64))) s))) ∧
   (∀ (f : Fibre) (x : DWord),
      let w : Word := x.setWidth 32
      f.writeSr .fps x = { f with fps := f.fps &&& ~~~w &&& 0x7F#32 } ∧
      f.writeSr .le8s x = { f with le8s := f.le8s &&& ~~~w &&& 3#32 } ∧
      f.writeSr .fp4x x = { f with fp4x := w &&& 0xFFFF#32 } ∧
      f.writeSr .xretry x = { f with xretry := if w &&& 15#32 = 0 then 1 else w &&& 15#32 } ∧
      f.writeSr .epc x = { f with epc := x &&& 0x00FFFFFFFFFFFFFF#64 } ∧
      (∃ y : Word, f.writeSr .fpm x = { f with fpm := y } ∧ y.extractLsb' 4 8 = w.extractLsb' 4 8 ∧
        y.extractLsb' 0 3 = (if (w.extractLsb' 0 3).toNat < 6 then w.extractLsb' 0 3 else f.fpm.extractLsb' 0 3) ∧
        y.extractLsb' 12 2 = (if w.extractLsb' 12 2 = 3#2 then f.fpm.extractLsb' 12 2 else w.extractLsb' 12 2) ∧
        y.getLsbD 3 = false ∧ y.extractLsb' 14 18 = 0#18) ∧
      (∀ r : SReg, r ∉ [SReg.fps, .le8s, .fp4x, .xretry, .epc, .fpm] → f.writeSr r x = f))

/-- R67: steps 5 to 9 of the order for every instruction word: one issued by issueAs, a memory word issued by issueMemAs that does not replay, a branch issued
by issueBranch, REGANG, EXIT and RTT. The first condition that holds raises its trap, steps 5 and 6 with the whole set of issuing lanes and steps 7 to 9 with
exactly the lanes that met the condition; the instruction's own description comes last. -/
def Obligations.ChecksComeInOrder : Prop :=
  ∀ (s : State) (v : View) (k : Kindly) (sw : Bool) (len : Nat) (h : Hdr) (a : BitVec 8) (us : View → List Use) (body : View → State → Chk State)
    (mem : MemBody) (br : View → State → Chk (State × (Nat → VA))), s.view? = some v →
    let order := fun (k : Kindly) (us : List Use) (x : Host.Outcome State Fault Refusal) (rest : Prop) =>
      let lanes := fun (p : Use → Mask) => maskOf fun l => us.any fun u => (p u).getLsbD l
      let bound := lanes (·.outside v)
      let hazard := lanes (·.hazard v)
      let dead := lanes (·.dead v)
      let trap := fun code m => x = .next (s.traps v (v.trapRec code m 0 0))
      (k.priv = true → v.f.hmode = false → trap .permission v.g.lanes) ∧
      ((k.priv = true → v.f.hmode = true) →
        (k.coll = true → 1 < v.f.gangs.length → trap .collectiveDivergence v.g.lanes) ∧
        ((k.coll = true → v.f.gangs.length ≤ 1) →
          (bound ≠ 0 → trap .registerBound bound) ∧
          (bound = 0 →
            (hazard ≠ 0 → trap .markerHazard hazard) ∧
            (hazard = 0 → (v.c.dbg = true → dead ≠ 0 → trap .deadRead dead) ∧ ((v.c.dbg = true → dead = 0) → rest)))))
    order k (us v) (issueAs k sw len us body s) (issueAs k sw len us body s = match body v (s.consume v (us v)) with
      | .ok s' => .next ((s'.noteDead v (us v)).retire v sw len)
      | .error e => e.outcome s v sw) ∧
    (v.replaying = none → order k (us v) (issueMemAs k sw len us mem s)
      ((v.f.fenced = true → issueMemAs k sw len us mem s = .next (s.modFibre v.f.ref fun f => { f with st := .parked .results, age := 0 })) ∧
       (v.f.fenced = false → ∀ p, mem v s none = .ok (p, []) → issueMemAs k sw len us mem s = .next (v.performed sw len (us v) p)))) ∧
    order perLane (us v) (issueBranch h len us br s) (∀ t next, br v (s.consume v (us v)) = .ok (t, next) →
      issueBranch h len us br s = .next (v.branched h len (us v) (fun _ => t) next s)) ∧
    order perLane (useS a v.g.lanes) (exec (.regang sw a) s) (∃ t, exec (.regang sw a) s = .next t) ∧
    order perLane [] (exec (.exit h) s) (∃ t, exec (.exit h) s = .next t) ∧
    order privileged [] (exec (.rtt sw) s) (∃ t, exec (.rtt sw) s = .next t)

/-- R65, R387: RTT, SETSEG, SAVECTX, LOADCTX and TLBINV outside handler mode trap Permission, and in handler mode without sysop SETSEG and TLBINV do. -/
def Obligations.PrivilegedInstructionsTrap : Prop :=
  ∀ (s : State) (v : View) (sw lim dev : Bool) (sp : Space) (a : BitVec 8) (rng : InvRange), s.view? = some v →
    let no := Host.Outcome.next (s.traps v (v.trapRec .permission v.g.lanes 0 0))
    (v.f.hmode = false → v.replaying = none →
      exec (.rtt sw) s = no ∧ exec (.setseg sw lim sp a) s = no ∧ exec (.savectx sw a) s = no ∧ exec (.loadctx sw a) s = no ∧
      exec (.tlbinv sw dev rng) s = no) ∧
    (v.c.sysop = false →
      (v.mayRun privileged (useS a v.g.lanes) → exec (.setseg sw lim sp a) s = no) ∧
      (v.mayRun privileged [] → exec (.tlbinv sw dev .all) s = no) ∧
      (∀ x y, v.mayRun privileged (useS x v.g.lanes ++ useS y v.g.lanes) → exec (.tlbinv sw dev (.range x y)) s = no) ∧
      (v.replaying = none → v.f.out.any (·.fence) = false → v.mayRun privileged (useS a v.g.lanes) →
        exec (.savectx sw a) s = no ∧ exec (.loadctx sw a) s = no))

/-- R201, R380, R383: a trap that is not replayable enters the handler of the kernel: the trap registers, handler mode, the gang at the handler's address, and
nothing else of the fibre or the device; while results are outstanding the entry waits. At an instruction that replays the lanes performed keep their results
first, and a bitmap that names a lane stays with the fibre and sets sr.ecause.rp. R384: a trap in handler mode or of a kernel without a handler is a context
fault: the trap registers are written, the fibre freezes, the first fault is recorded, the context becomes Faulted and the host is told. R383: a breakpoint
under dbh instead stops the fibre for the debugger, whatever its mode. -/
def Obligations.TrapsEnterHandler : Prop :=
   (∀ (s : State) (f : Fibre) (g : Nat) (t : TrapRec), s.fibre? f.ref = some f →
      ¬(t.code = .breakpoint ∧ ∃ c, s.ctx? f.asid = some c ∧ c.dbh = true) → f.hmode = false → s.handlerOf f ≠ 0 →
      let s' := s.takeTrap f.ref g t
      ∃ s1 f1, s1.fibre? f.ref = some f1 ∧ { s' with fibres := s1.fibres } = s1 ∧ (∀ r, r ≠ f.ref → s'.fibre? r = s.fibre? r) ∧
        (f.bitmapAt g t.epc = none → s1 = s ∧ f1 = f) ∧
        (∀ r, f.bitmapAt g t.epc = some r →
          let mute := r.mute || r.err.isSome
          let left : List Replay := if r.done = 0 then [] else [{ r with upds := [], rows := [], regs := [], noAlloc := [], err := none, mute := mute }]
          s1 = ((s.unpend f r).upds f (if mute then [] else r.upds)).modFibre f.ref (fun x => { x with
            held := x.held ++ (r.err.map fun e => ⟨.data, e⟩).toList, replay := left ++ x.replay.filter fun y => y.gang ≠ g }) ∧
          f1.bitmapAt g t.epc = left.head? ∧ { s1 with fibres := s.fibres, slots := s.slots } = s ∧ f1.gangs = f.gangs) ∧
        (f.out ≠ [] → s'.fibre? f.ref = some { f1 with
          taking := some (g, { t with rp := (f1.bitmapAt g t.epc).isSome }), st := .parked .results }) ∧
        (f.out = [] → ∃ f', s'.fibre? f.ref = some f' ∧
          f'.ecause.extractLsb' 0 8 = t.code.code ∧ f'.ecause.extractLsb' 8 8 = t.info ∧
          f'.ecause.getLsbD 16 = (f1.bitmapAt g t.epc).isSome ∧ f'.ecause.getLsbD 17 = t.asy ∧ f'.ecause.extractLsb' 18 14 = 0#14 ∧
          f'.epc = t.epc.setWidth 64 ∧ f'.eaddr = t.eaddr ∧ f'.emask = t.emask ∧ f'.hmode = true ∧ f'.hgang = g ∧ f'.turn = g ∧ f'.st = .run ∧
          f'.trapped = f1.bitmapAt g t.epc ∧ f'.tookAt = t.epc ∧ f'.replay = f1.replay.filter (fun x => x.gang ≠ g) ∧
          (f'.gangs.map fun x => (x.id, x.lanes, x.pc)) = f.gangs.map (fun x => (x.id, x.lanes, if x.id = g then s.handlerOf f else x.pc)) ∧
          (∀ x ∈ f.gangs, x.id ≠ g → x ∈ f'.gangs) ∧
          { f' with ecause := f1.ecause, epc := f1.epc, eaddr := f1.eaddr, emask := f1.emask, hmode := f1.hmode, hgang := f1.hgang,
                    turn := f1.turn, st := f1.st, gangs := f1.gangs, taking := f1.taking, tookAt := f1.tookAt, trapped := f1.trapped,
                    replay := f1.replay } = f1)) ∧
   (∀ (s : State) (f : Fibre) (c : Context) (g : Nat) (t : TrapRec), s.fibre? f.ref = some f → s.ctx? f.asid = some c →
      f.bitmapAt g t.epc = none →
      let s' := s.takeTrap f.ref g t
      let regs : Fibre := { f with
        ecause := 0#14 ++ bit t.asy ++ bit false ++ t.info ++ t.code.code, epc := t.epc.setWidth 64, eaddr := t.eaddr, emask := t.emask }
      (t.code = .breakpoint → c.dbh = true →
        s'.fibre? f.ref = some { regs with st := .frozen (.breakpoint g), dbgPc := none } ∧ s'.notes = .breakpoint f.ref :: s.notes ∧
        { s' with fibres := s.fibres, notes := s.notes } = s) ∧
      (¬(t.code = .breakpoint ∧ c.dbh = true) → f.hmode = true ∨ s.handlerOf f = 0 →
        s'.fibre? f.ref = some { regs with st := .frozen .fault, taking := none } ∧
        s'.notes = .contextFault f.asid :: s.notes ∧ { s' with fibres := s.fibres, notes := s.notes, ctxs := s.ctxs } = s ∧
        ∃ c', s'.ctx? f.asid = some c' ∧ (c.st ≠ .closed → c'.st = .faulted) ∧
          (∀ x, c.fault = some x → c'.fault = some x) ∧
          (c.fault = none → ∃ x, c'.fault = some x ∧ x.cause = regs.ecause ∧ x.mask = t.emask ∧ x.epc = t.epc.setWidth 64 ∧ x.eaddr = t.eaddr ∧
            x.team = f.ref.team ∧ x.fib = f.ref.fib ∧ x.q = f.kern.q ∧ x.pkt = f.kern.pkt)))

/-- R389: RTT puts the handler gang at sr.epc and ends handler mode; the trap registers keep their values; the completion bitmap of the trapped instruction is
kept exactly when sr.ecause.rp is 1 and sr.epc is the PC at which it was taken; an sr.epc that is no multiple of 4 is a context fault. -/
def Obligations.ReturnFromTrap : Prop :=
  ∀ (s : State) (v : View) (sw : Bool), s.issuing v privileged [] →
    (v.f.epc.extractLsb' 0 2 ≠ 0#2 → exec (.rtt sw) s = .next (s.traps v (v.trapRec .misaligned v.g.lanes 0 0))) ∧
    (v.f.epc.extractLsb' 0 2 = 0#2 → v.f.loaded = none → ∃ t f', exec (.rtt sw) s = .next t ∧ t.fibre? v.f.ref = some f' ∧
      { t with fibres := s.fibres } = s ∧ f'.hmode = false ∧
      (∀ x ∈ f'.gangs, x.id = v.f.hgang → x.pc = v.f.epc.setWidth 56) ∧
      (f'.gangs.map fun x => (x.id, x.lanes)) = v.f.gangs.map (fun x => (x.id, x.lanes)) ∧
      (∀ x ∈ v.f.gangs, x.id ≠ v.f.hgang → ∃ y ∈ f'.gangs, y.id = x.id ∧ y.pc = x.pc ∧ y.st = x.st) ∧
      f'.ecause = v.f.ecause ∧ f'.epc = v.f.epc ∧ f'.eaddr = v.f.eaddr ∧ f'.emask = v.f.emask ∧
      f'.replay = (if v.f.ecause.getLsbD 16 = true ∧ v.f.epc.setWidth 56 = v.f.tookAt then
        (v.f.trapped.map fun x => { x with gang := v.f.hgang }).toList else []) ++ v.f.replay.filter (fun x => x.gang ≠ v.f.hgang) ∧
      f'.s = v.f.s ∧ f'.p = v.f.p ∧ f'.l = v.f.l ∧ f'.h = v.f.h ∧ f'.fpm = v.f.fpm ∧ f'.fps = v.f.fps ∧ f'.quota = v.f.quota ∧
      f'.seg = v.f.seg)

/-- R44, R51, R57, R112: one register write. A write of a row changes the lanes of its mask and makes a dead row live with 0 in the others; a predicate write
changes the bits of its mask, and a write to p7 nothing at all. R55, R56, R101, R114: what an instruction of the lane loop that is short class leaves in its
destination: the lane's value in each executing lane and the old one elsewhere, both halves of a pair, a scalar register in the scalar form; and its flags,
which are sticky. A scalar result narrower than 32 bits is extended to 64 bits as log entry 28 says; R55 states the extension of 32 bits. -/
def Obligations.RegisterWrites : Prop :=
   (∀ (s : State) (f : Fibre) (sl : Slot), s.fibre? f.ref = some f → s.slot? f = some sl →
      (∀ (r : Nat) (m : Mask) (x : Row), ∃ sl', (s.upd f (.v r m x)).slot? f = some sl' ∧
        (∀ l < 32, (sl'.row r).at l = if m.getLsbD l then x.at l else (sl.row r).at l) ∧ (aget sl'.rows r).isSome = true ∧
        (∀ q, q ≠ r → aget sl'.rows q = aget sl.rows q) ∧ { sl' with rows := sl.rows } = sl ∧
        { s.upd f (.v r m x) with slots := s.slots } = s) ∧
      (∀ (n : Nat) (x : DWord), n < 64 → ∃ f', (s.upd f (.s n x)).fibre? f.ref = some f' ∧
        (∀ k < 64, f'.s[k]! = if k = n then x else f.s[k]!) ∧ { f' with s := f.s } = f ∧ { s.upd f (.s n x) with fibres := s.fibres } = s) ∧
      (∀ (n : Nat) (m x : Mask), n < 7 → ∃ f', (s.upd f (.p n m x)).fibre? f.ref = some f' ∧
        (∀ k < 8, ∀ l < 32, (f'.pred k).getLsbD l = if k = n ∧ m.getLsbD l then x.getLsbD l else (f.pred k).getLsbD l) ∧
        { f' with p := f.p } = f ∧ { s.upd f (.p n m x) with fibres := s.fibres } = s) ∧
      (∀ m x : Mask, s.upd f (.p 7 m x) = s ∧ f.pred 7 = BitVec.allOnes 32)) ∧
   (∀ (s : State) (v : View) (h : Hdr) (len : Nat) (w : Bool) (d : BitVec 8) (us : List Use) (R : Nat → DWord × NumSt), s.view? = some v →
      let killed := us.filterMap fun u => match u.reg with | .v n => if u.kill then quotaRow v.f.quota n else none | .r _ => none
      let old := fun r l => if r ∈ killed then 0 else (v.sl.row r).at l
      let flags := fun sc (p : NumSt → BitVec 32) => ((v.runs h sc).map fun l => p (R l).2).foldl (· ||| ·) 0
      (∀ r, quotaRow v.f.quota d.toNat = some r → (w = true → quotaRow v.f.quota (d.toNat + 1) ≠ some r) →
        ∃ sl', (v.computed h len false false w d us R s).slot? v.f = some sl' ∧
          ∀ l < 32, (sl'.row r).at l = if (v.active h).getLsbD l then (R l).1.setWidth 32 else old r l) ∧
      (∀ r, w = true → quotaRow v.f.quota (d.toNat + 1) = some r →
        ∃ sl', (v.computed h len false false w d us R s).slot? v.f = some sl' ∧
          ∀ l < 32, (sl'.row r).at l = if (v.active h).getLsbD l then (R l).1.extractLsb' 32 32 else old r l) ∧
      (d.toNat < 64 → v.scalarGuard h = true → ∃ f', (v.computed h len false true w d us R s).fibre? v.f.ref = some f' ∧
        f'.s[d.toNat]! = (R v.lane0).1) ∧
      (∀ sc, (∀ u ∈ us, u.dead v = 0) → ∃ f', (v.computed h len false sc w d us R s).fibre? v.f.ref = some f' ∧
        f'.fps = v.f.fps ||| flags sc (·.fps) ∧ f'.le8s = v.f.le8s ||| flags sc (·.le8s)))

/-- The frame of every instruction of the lane loop, short or long class: it changes the issuing fibre and its slot and nothing else of the device; of the
fibre only the destination, flags, random states, pending bits, outstanding results, age, turn and the issuing gang's PC; of the slot only the rows of the
destination, those of a last use, and pending bits. -/
def Obligations.LaneInstructionFrame : Prop :=
  ∀ (s : State) (v : View) (h : Hdr) (len : Nat) (long sc w : Bool) (d : BitVec 8) (us : List Use) (R : Nat → DWord × NumSt),
    s.view? = some v →
    let t := v.computed h len long sc w d us R s
    let killed := us.filterMap fun u => match u.reg with | .v n => if u.kill then quotaRow v.f.quota n else none | .r _ => none
    { t with fibres := s.fibres, slots := s.slots } = s ∧
    (∀ r, r ≠ v.f.ref → t.fibre? r = s.fibre? r) ∧
    (∀ f : Fibre, ¬(f.ref.cl = v.f.ref.cl ∧ f.ref.team = v.f.ref.team ∧ f.slot = v.f.slot) → t.slot? f = s.slot? f) ∧
    (∃ f', t.fibre? v.f.ref = some f' ∧
      { f' with s := v.f.s, rng := v.f.rng, fps := v.f.fps, le8s := v.f.le8s, pend := v.f.pend, out := v.f.out, nextOut := v.f.nextOut,
                gangs := v.f.gangs, turn := v.f.turn, age := v.f.age, st := v.f.st } = v.f ∧
      (∀ n, (sc = false ∨ n ≠ d.toNat ∨ long = true) → f'.s[n]! = v.f.s[n]!) ∧
      f'.gangs.map (fun x => (x.id, x.lanes, x.pc, x.st)) =
        v.f.gangs.map (fun x => (x.id, x.lanes, if x.id = v.iss.gang then x.pc + BitVec.ofNat 56 len else x.pc, x.st)) ∧ f'.age = 0) ∧
    (∃ sl', t.slot? v.f = some sl' ∧ { sl' with rows := v.sl.rows, pend := v.sl.pend } = v.sl ∧
      ∀ r, r ∉ killed → (sc = true ∨ (quotaRow v.f.quota d.toNat ≠ some r ∧ (w = true → quotaRow v.f.quota (d.toNat + 1) ≠ some r))) →
        aget sl'.rows r = aget v.sl.rows r)

/-- R101, R114: a long-class result of the lane loop leaves its destination pending with its old value, live, until RESULT_RETURN writes it, clears the
pending bit and merges the flags, that of a dead read among them. R114, R101, R478: the return of an outstanding result: its registers are written, unless its
data were in error, its flags merge and it is outstanding no more; a fence whose release waited then does its work again. A result that waits for a request or
a wait does not return. When results return is the agenda's choice (log entry 3). -/
def Obligations.LongResultsReturn : Prop :=
   (∀ (s : State) (v : View) (h : Hdr) (len : Nat) (w : Bool) (d : BitVec 8) (us : List Use) (R : Nat → DWord × NumSt) (r : Nat),
      s.view? = some v → v.active h ≠ 0 → quotaRow v.f.quota d.toNat = some r →
      let t := v.computed h len true false w d us R s
      let rs := (lanesOf (v.active h)).map fun l => (l, R l)
      (∃ f' sl', t.fibre? v.f.ref = some f' ∧ t.slot? v.f = some sl' ∧ r ∈ sl'.pend ∧ (aget sl'.rows r).isSome = true ∧
        f'.out = v.f.out ++ [{ Out.of (v.dstUpds false w d (rs.map fun x => (x.1, x.2.1)))
          ((laneFlags rs).1 ||| if v.readsDead us then 0x40 else 0) (laneFlags rs).2 with id := v.f.nextOut }] ∧
        f'.fps = v.f.fps)) ∧
   (∀ (s : State) (f : Fibre) (n : Nat) (o : Out) (sl : Slot), s.fibre? f.ref = some f → s.slot? f = some sl → f.out[n]? = some o →
      (∀ x ∈ f.out, x.id = o.id → x = o) →
      (o.remote ≠ [] ∨ o.waiter ≠ none → exec (.resultReturn f.ref n) s = .next s) ∧
      (o.remote = [] → o.waiter = none → ∃ t f' sl', exec (.resultReturn f.ref n) s = .next (match o.tail with
          | some (.fence m sc) => t.fenceWork (s.agentOf f.ref.cl f.ref.team) m sc
          | none => t) ∧ t.fibre? f.ref = some f' ∧ t.slot? f = some sl' ∧
        f'.out = f.out.filter (fun x => x.id ≠ o.id) ∧ (∀ x, x ∈ f'.pend ↔ x ∈ f.pend ∧ x ∉ o.regs) ∧
        (∀ x, x ∈ sl'.pend ↔ x ∈ sl.pend ∧ x ∉ o.rows) ∧ f'.fps = f.fps ||| o.fps ∧
        (o.err = none → f'.le8s = f.le8s ||| o.le8s ∧ f'.held = f.held ∧
          t = ((((s.upds f o.upds).orFlags f o.fps o.le8s).modSlot f fun sl => { sl with pend := sl.pend.filter fun x => !o.rows.contains x }).modFibre
            f.ref fun f => { f with pend := f.pend.filter (fun x => !o.regs.contains x), out := f.out.filter (fun x => !(x.id == o.id)),
                                    held := f.held })) ∧
        (∀ e, o.err = some e → f'.held = f.held ++ [⟨.data, e⟩] ∧ ∀ q, aget sl'.rows q = aget sl.rows q)))

/-- R124: REQUOTA gives the lowest g granules of the issuer's private window to another fibre of the slot; the windows change, the rows that change hands and
the taker's slack are dead, nothing else changes; each condition that fails traps, FibreQuota before MarkerHazard. -/
def Obligations.RequotaMovesGranules : Prop :=
  ∀ (s : State) (v : View) (sw : Bool) (a b : BitVec 8), s.issuing v collective (useS a v.g.lanes ++ useS b v.g.lanes) →
    let t := ((v.sval a).setWidth 6).toNat
    let g := ((v.sval b).setWidth 6).toNat
    let gq := quotaOf v.f.quota
    (g = 0 → exec (.requota sw a b) s = .next (s.retire v sw 8)) ∧
    (g ≠ 0 → (∀ x ∈ s.slotLive v.f.ref.cl v.f.ref.team v.f.slot, x.ref.fib = t → x.ref = v.f.ref) →
      exec (.requota sw a b) s = .next (s.traps v (v.trapRec .fibreQuota v.g.lanes 0 0))) ∧
    (∀ tk : Fibre, g ≠ 0 →
      (s.slotLive v.f.ref.cl v.f.ref.team v.f.slot).find? (fun x => x.ref.fib == t && x.ref != v.f.ref) = some tk →
      let tq := quotaOf tk.quota
      let ta := ceilDiv tq.pcount 8
      let fits := g ≤ 32 ∧ tq.pbase + ta = gq.pbase + gq.plo ∧ gq.plo + g ≤ ceilDiv gq.pcount 8 - 1 ∧
        8 * (ta + g) ≤ 256 - (if tq.sa then tq.scount else 0)
      let given := fun (r : Nat) => 8 * (gq.pbase + gq.plo) ≤ r ∧ r < 8 * (gq.pbase + gq.plo + g)
      let slack := fun (r : Nat) => 8 * tq.pbase + tq.pcount ≤ r ∧ r < 8 * (tq.pbase + ta)
      (¬fits → exec (.requota sw a b) s = .next (s.traps v (v.trapRec .fibreQuota v.g.lanes 0 0))) ∧
      (fits → (∃ r ∈ v.sl.pend, given r) → exec (.requota sw a b) s = .next (s.traps v (v.trapRec .markerHazard v.g.lanes 0 0))) ∧
      (fits → (∀ r ∈ v.sl.pend, ¬given r) → exec (.requota sw a b) s = .next ((((s.modFibre v.f.ref fun f => { f with quota := { gq with plo := gq.plo + g }.bits }).modFibre tk.ref
          fun f => { f with quota := { tq with pcount := 8 * (ta + g) }.bits }).modSlot v.f fun sl => { sl with rows := sl.rows.filter fun y => ¬(given y.1 ∨ slack y.1) }).retire v sw 8)))

/-- R125, R126, R127: FPOST and FWAIT on a flag and FBAR at a barrier of the slot: what is added or taken at once, what is deferred until the results
outstanding at issue have returned, and when the fibre parks; a last arrival releases every fibre parked there and returns the count to 0. A last arrival that
is itself deferred does not park its fibre (log entry 29). -/
def Obligations.FlagsAndBarriers : Prop :=
  ∀ (s : State) (v : View) (sw : Bool) (a b : BitVec 8),
    let f := ((v.sval a).setWidth 4).toNat
    let n := ((v.sval b).setWidth 8).toNat
    let bar := ((v.sval a).setWidth 2).toNat
    let flag := fun (u : Nat → Nat) => s.modSlot v.f fun sl => { sl with flags := sl.flags.set! f (u sl.flags[f]!) }
    (s.issuing v collective (useS a v.g.lanes ++ useS b v.g.lanes) →
      (n = 0 → exec (.fpost sw a b) s = .next (s.retire v sw 8) ∧ exec (.fwait sw a b) s = .next (s.retire v sw 8)) ∧
      (v.f.out = [] → v.f.posts = [] → n ≠ 0 → exec (.fpost sw a b) s = .next ((flag fun x => min 255 (x + n)).retire v sw 8)) ∧
      (v.f.out ≠ [] ∨ v.f.posts ≠ [] → n ≠ 0 → exec (.fpost sw a b) s = .next ((s.modFibre v.f.ref fun x =>
        { x with posts := x.posts ++ [(f, n, x.out.map (·.id))] }).retire v sw 8)) ∧
      ((∀ q ∈ v.sl.queue, q.1 ≠ f) → n ≤ v.sl.flags[f]! → n ≠ 0 →
        exec (.fwait sw a b) s = .next ((flag fun x => x - n).retire v sw 8)) ∧
      ((∃ q ∈ v.sl.queue, q.1 = f) ∨ v.sl.flags[f]! < n → n ≠ 0 → exec (.fwait sw a b) s =
        .next (((s.modSlot v.f fun sl => { sl with queue := sl.queue ++ [(f, v.f.pos, n)] }).modFibre v.f.ref fun x =>
          { x with st := .parked (.flag f n) }).retire v sw 8))) ∧
    (s.issuing v collective (useS a v.g.lanes) →
      let parts := (s.slotLive v.f.ref.cl v.f.ref.team v.f.slot).length
      let there := v.sl.bars[bar]! + 1
      let count := fun (u : Nat → Nat) (s : State) => s.modSlot v.f fun sl => { sl with bars := sl.bars.set! bar (u sl.bars[bar]!) }
      let park := fun (s : State) => s.modFibre v.f.ref fun x => { x with st := .parked (.barrier bar) }
      let mine := (v.f.arrivals.filter fun (x : Nat × List Nat) => x.1 == bar).length
      let later := fun (s : State) => s.modFibre v.f.ref fun x => { x with arrivals := x.arrivals ++ [(bar, v.f.out.map (·.id))] }
      (v.f.out = [] → v.f.arrivals = [] → parts = there → exec (.fbar sw a) s =
        .next ((count (fun _ => 0) { s with fibres := s.fibres.map fun x =>
          if x.ref.cl = v.f.ref.cl ∧ x.ref.team = v.f.ref.team ∧ x.slot = v.f.slot ∧ x.st = .parked (.barrier bar) then
          { x with st := .parked .results } else x }).retire v sw 8)) ∧
      (v.f.out = [] → v.f.arrivals = [] → there < parts → exec (.fbar sw a) s = .next ((count (· + 1) (park s)).retire v sw 8)) ∧
      (v.f.out ≠ [] ∨ v.f.arrivals ≠ [] → there + mine ≤ parts →
        (there + mine < parts → exec (.fbar sw a) s = .next ((later (park s)).retire v sw 8)) ∧
        (there + mine = parts → exec (.fbar sw a) s = .next ((later s).retire v sw 8))))

/-- R118, R120, R125, R127: a deferred post and a deferred arrival are counted once the results that they wait for have returned, a ready fibre of age 128
that is the first such of its slot in cyclic order takes the slot from a holder of lower age, and a gang of a parted fibre that has issued 64 instructions
passes the turn; otherwise each of these events changes nothing. R118: the turn passes to the next gang that can issue in cyclic order of lowest lane, and the
counts of instructions in a row restart. -/
def Obligations.SlotEventsComplete : Prop :=
   (∀ (s : State) (r : FibreRef) (x : Fibre) (sl : Slot), s.fibre? r = some x → s.slot? x = some sl →
      (∀ flag n ids rest, x.posts = (flag, n, ids) :: rest →
        ((∀ i ∈ ids, ∀ o ∈ x.out, o.id ≠ i) → exec (.deferredFpostApply r) s = .next ((s.modSlot x fun sl =>
          { sl with flags := sl.flags.set! flag (min 255 (sl.flags[flag]! + n)) }).modFibre r fun x => { x with posts := rest })) ∧
        ((∃ i ∈ ids, ∃ o ∈ x.out, o.id = i) → exec (.deferredFpostApply r) s = .next s)) ∧
      (∀ b ids rest, x.arrivals = (b, ids) :: rest → b < 4 →
        let parts := (s.slotLive r.cl r.team x.slot).length
        ((∀ i ∈ ids, ∀ o ∈ x.out, o.id ≠ i) → ∃ t sl' x', exec (.fbarArrivalCount r) s = .next t ∧ t.slot? x = some sl' ∧
          t.fibre? r = some x' ∧ x'.arrivals = rest ∧ { sl' with bars := sl.bars } = sl ∧
          sl'.bars[b]! = (if parts ≤ sl.bars[b]! + 1 then 0 else sl.bars[b]! + 1) ∧ (∀ c < 4, c ≠ b → sl'.bars[c]! = sl.bars[c]!) ∧
          (∀ y ∈ t.fibres, parts ≤ sl.bars[b]! + 1 → y.ref.cl = r.cl → y.ref.team = r.team → y.slot = x.slot → y.st ≠ .parked (.barrier b)) ∧
          (sl.bars[b]! + 1 < parts → x'.st = x.st)) ∧
        ((∃ i ∈ ids, ∃ o ∈ x.out, o.id = i) → exec (.fbarArrivalCount r) s = .next s)) ∧
      (let aged := fun (y : Fibre) => y.st = .run ∧ 128 ≤ y.age
       let urgent := fun (y : Fibre) => aged y ∧ sl.holder ≠ some y.pos ∧ ¬∃ z ∈ s.slotFibres r.cl r.team x.slot, sl.holder = some z.pos ∧ aged z
       let first := fun (y : Fibre) => (y.pos + 3 - (sl.holder.getD sl.last) % 4) % 4
       (urgent x → (∀ y ∈ s.slotFibres r.cl r.team x.slot, urgent y → first x ≤ first y) →
         exec (.forcedRotation r) s = .next (s.modSlot x fun sl => { sl with holder := some x.pos, last := x.pos })) ∧
       (urgent x → (∃ y ∈ s.slotFibres r.cl r.team x.slot, urgent y ∧ first y < first x) → exec (.forcedRotation r) s = .next s) ∧
       (¬urgent x → exec (.forcedRotation r) s = .next s)) ∧
      (1 < x.gangs.length → (∃ g ∈ x.gangs, g.id = x.turn ∧ 64 ≤ g.count) →
        exec (.gangTurnLimit r) s = .next (s.modFibre r Fibre.passTurn)) ∧
      (x.gangs.length ≤ 1 ∨ (∀ g ∈ x.gangs, g.id = x.turn → g.count < 64) → exec (.gangTurnLimit r) s = .next s)) ∧
   (∀ (f : Fibre) (before after : List Gang) (g x : Gang), (f.gangs.map (·.id)).Nodup → f.gangs = before ++ g :: after → f.turn = g.id →
      f.mayTurn x = true →
      ((∃ a b, after = a ++ x :: b ∧ ∀ y ∈ a, f.mayTurn y = false) ∨
        ((∀ y ∈ after, f.mayTurn y = false) ∧ ∃ a b, before = a ++ x :: b ∧ ∀ y ∈ a, f.mayTurn y = false) ∨
        ((∀ y ∈ after ++ before, f.mayTurn y = false) ∧ x = g)) →
      f.passTurn = { f with turn := x.id, gangs := f.gangs.map fun y => { y with count := 0 } })

/-- R323, R326, R328: GARV, GBAR and GRED of a fibre that may arrive count its arrival after the release; the last arrival completes the phase, with the
reduction's result, the next phase number and every member's arrived bit clear; before it GBAR and GRED wait. Until the accesses that the release orders have
been performed the member waits, and is not counted. GWAIT waits while the phase is the token's. GQRY returns a field. R326, R323: a slot that names no group
traps IllegalInstruction, after its release an arrival in a phase of another kind traps CollectiveDivergence and is not counted, and a member that has arrived
in this phase waits for the next one. -/
def Obligations.GroupInstructions : Prop :=
   (∀ (s : State) (v : View) (sw nf : Bool) (g : BitVec 2) (d : BitVec 6) (b : BitVec 8) (op : GredOp) (ty : Ty) (e : Group),
      (v.f.groupSlot g.toNat).bind v.k.group? = some e →
      let acquire := fun (s : State) => if nf then s else s.fenceAcq v.agent e.scope
      let count := fun (kind : GroupKind) (xs : List DWord) =>
        ((if nf then s else s.fenceRel v.agent e.scope).modFibre v.f.ref fun f => { f with garr := aset v.f.garr g.toNat e.phase }).modGroup v.f.kern
          e.id fun y => { y with kind := if y.a = 0 then some kind else y.kind, a := y.a + 1, acc := y.acc ++ xs }
      let wait := fun (w : Wait) (t : State) => t.modFibre v.f.ref fun f => { f with age := 0 }.beginWait v.iss.gang (.wait w) sw
      let cut := (v.sval b).setWidth 16
      ((aget v.f.garr g.toNat ≠ some e.phase) → (nf = true ∨ s.releaseWaits v.f e.scope = []) →
        ((e.a = 0 ∨ e.kind = some .barrier) →
          let t := count .barrier []
          let done := t.completePhase v.f.kern e.id
          (s.issuing v collective (defS d.toNat v.g.lanes) →
            exec (.garv sw nf d g) s =
              .next (((if e.n ≤ e.a + 1 then done else t).upd v.f (.s d.toNat (e.phase.setWidth 64))).retire v sw 8)) ∧
          (s.issuing v collective [] →
            (e.n ≤ e.a + 1 → exec (.gbar sw nf g) s = .next ((acquire done).retire v sw 8)) ∧
            (e.a + 1 < e.n → exec (.gbar sw nf g) s = .next (wait (.group e.id e.phase nf 8) t)))) ∧
        ((e.a = 0 ∨ e.kind = some (.reduce op ty)) → s.issuing v collective (useS b v.g.lanes ++ defS d.toNat v.g.lanes) →
          let x := scalarValue v.f ty b
          let t := count (.reduce op ty) [x]
          (e.n ≤ e.a + 1 → exec (.gred sw nf op ty d g b) s =
            .next (((acquire (t.completePhase v.f.kern e.id)).defer v.f (Out.of [.s d.toNat (gredResult op ty (e.acc ++ [x]))])).retire v sw 8)) ∧
          (e.a + 1 < e.n → exec (.gred sw nf op ty d g b) s = .next (wait (.gred e.id e.phase nf d.toNat) t)))) ∧
      (aget v.f.garr g.toNat ≠ some e.phase → nf = false → s.releaseWaits v.f e.scope ≠ [] →
        let held := Host.Outcome.next (wait (.released e.scope) s)
        (s.issuing v collective (defS d.toNat v.g.lanes) → exec (.garv sw nf d g) s = held) ∧
        (s.issuing v collective [] → exec (.gbar sw nf g) s = held) ∧
        (s.issuing v collective (useS b v.g.lanes ++ defS d.toNat v.g.lanes) → exec (.gred sw nf op ty d g b) s = held)) ∧
      (s.issuing v collective (useS b v.g.lanes) →
        (e.phase ≠ cut → exec (.gwait sw nf g b) s = .next ((acquire s).retire v sw 8)) ∧
        (e.phase = cut → exec (.gwait sw nf g b) s = .next (wait (.group e.id cut nf 8) s))) ∧
      (s.issuing v collective (defS d.toNat v.g.lanes) → ∀ q : GQuery,
        exec (.gqry sw q d g) s = .next ((s.defer v.f (Out.of [.s d.toNat (match q with
          | .id => BitVec.ofNat 64 e.id | .ph => e.phase.setWidth 64 | .cnt => BitVec.ofNat 64 e.n | .arr => BitVec.ofNat 64 e.a
          | .lvl => e.lvl.setWidth 64 | .res => e.res)])).retire v sw 8))) ∧
   (∀ (s : State) (v : View) (sw nf : Bool) (g : BitVec 2) (d : BitVec 6) (b : BitVec 8) (op : GredOp) (ty : Ty) (q : GQuery),
      let trap := fun code => Host.Outcome.next (s.traps v (v.trapRec code v.g.lanes 0 0))
      let entry := (v.f.groupSlot g.toNat).bind v.k.group?
      let again := fun (e : Group) => Host.Outcome.next (s.modFibre v.f.ref fun f =>
        { f with age := 0 }.beginWait v.iss.gang (.wait (.arrive e.id e.phase)) sw)
      (s.issuing v collective [] →
        (entry = none → exec (.gbar sw nf g) s = trap .illegalInstruction) ∧
        (∀ e, entry = some e → aget v.f.garr g.toNat ≠ some e.phase → (nf = true ∨ s.releaseWaits v.f e.scope = []) → e.a ≠ 0 →
          e.kind ≠ some .barrier →
          exec (.gbar sw nf g) s = trap .collectiveDivergence) ∧
        (∀ e, entry = some e → aget v.f.garr g.toNat = some e.phase → exec (.gbar sw nf g) s = again e)) ∧
      (s.issuing v collective (defS d.toNat v.g.lanes) →
        (entry = none → exec (.garv sw nf d g) s = trap .illegalInstruction ∧ exec (.gqry sw q d g) s = trap .illegalInstruction) ∧
        (∀ e, entry = some e → aget v.f.garr g.toNat ≠ some e.phase → (nf = true ∨ s.releaseWaits v.f e.scope = []) → e.a ≠ 0 →
          e.kind ≠ some .barrier →
          exec (.garv sw nf d g) s = trap .collectiveDivergence) ∧
        (∀ e, entry = some e → aget v.f.garr g.toNat = some e.phase → exec (.garv sw nf d g) s = again e)) ∧
      (s.issuing v collective (useS b v.g.lanes) → entry = none → exec (.gwait sw nf g b) s = trap .illegalInstruction) ∧
      (s.issuing v collective (useS b v.g.lanes ++ defS d.toNat v.g.lanes) →
        (entry = none → exec (.gred sw nf op ty d g b) s = trap .illegalInstruction) ∧
        (∀ e, entry = some e → aget v.f.garr g.toNat ≠ some e.phase → (nf = true ∨ s.releaseWaits v.f e.scope = []) → e.a ≠ 0 →
          e.kind ≠ some (.reduce op ty) →
          exec (.gred sw nf op ty d g b) s = trap .collectiveDivergence) ∧
        (∀ e, entry = some e → aget v.f.garr g.toNat = some e.phase → exec (.gred sw nf op ty d g b) s = again e)))

/-- R323, R324: a phase that completes advances the entry's phase number modulo 2^16 with no arrival left and clears the arrived bit of every member; only a
reduction replaces the result. Nothing else changes. A member that leaves lowers the number expected, which completes a phase that the others had all arrived
in, and the last one retires the entry. R327: the result of a reduction does not depend on the order of the contributions. -/
def Obligations.PhasesAndReductions : Prop :=
   (∀ (s : State) (k : KernelRef) (x : Kernel) (e : Group), s.kernel? k = some x → x.group? e.id = some e →
      (x.groups.map (·.id)).Nodup →
      (let t := s.completePhase k e.id
       { t with kernels := s.kernels, fibres := s.fibres } = s ∧
       (∃ x' e', t.kernel? k = some x' ∧ x'.group? e.id = some e' ∧ { x' with groups := x.groups } = x ∧
         e'.phase.toNat = (e.phase.toNat + 1) % 2 ^ 16 ∧ e'.a = 0 ∧ e'.acc = [] ∧ e'.n = e.n ∧ e'.scope = e.scope ∧
         e'.res = (match e.kind with | some (.reduce op ty) => gredResult op ty e.acc | _ => e.res)) ∧
       (∀ j, j ≠ k → t.kernel? j = s.kernel? j) ∧
       (∀ r f, s.fibre? r = some f → ∃ f', t.fibre? r = some f' ∧ { f' with garr := f.garr } = f ∧
         (∀ p, p ∈ f'.garr ↔ p ∈ f.garr ∧ ¬(f.kern = k ∧ f.slotOf e.id = some p.1)))) ∧
      (∀ f : Fibre, f.kern = k → f.groupSlot 0 = some e.id → (∀ j < 4, j ≠ 0 → f.groupSlot j = none) →
        let t := s.leaveGroups f
        (e.n ≤ 1 → ∃ x', t.kernel? k = some x' ∧ x'.group? e.id = none) ∧
        (1 < e.n → e.a + 1 < e.n → ∃ x', t.kernel? k = some x' ∧ x'.group? e.id = some { e with n := e.n - 1 }) ∧
        (1 < e.n → e.a + 1 = e.n → ∃ x' e', t.kernel? k = some x' ∧ x'.group? e.id = some e' ∧ e'.n = e.n - 1 ∧ e'.a = 0 ∧
          e'.phase = e.phase + 1))) ∧
   (∀ (op : GredOp) (ty : Ty) (xs ys : List DWord), ty ∈ [Ty.i32, .n32, .i64, .n64, .f32] → xs.Perm ys → gredResult op ty xs = gredResult op ty ys)

/-- R332, R335: BINIT, BARV, BWAIT and BDROP on a word that can be reached, by the state of the word: what the word, its tag and the token become, when the
phase completes, and when BarrierClobber is raised instead; a BARV whose release must wait makes its gang wait; BINIT and BDROP complete as results that hold
later accesses back. BINIT never reads the word, so that an error in it does not stop a new barrier. R329, R330: the fields of a barrier word, and a word
written at its level reads back with its own tag unchanged; setting or clearing its tag leaves the word; every other word keeps its value and tag, read under
the same key id where it shares the unit of 16 bytes. The order of the check of the word and the fence is log entry 31's. -/
def Obligations.BarrierInstructions : Prop :=
   (∀ (s : State) (v : View) (sw nf : Bool) (sp : Space) (sc : Scope) (d : BitVec 6) (a b : BitVec 8) (tgt : Target),
      let accs := v.wideAccs (barAddr v sp a) 8 8
      let s0 := v.cached s sp .both accs
      let p := tgt.place
      let w := (s0.barAt p).1
      let tagged := (s0.barAt p).2
      let sound := s0.peekPoison p none 8 = false
      let clobber := Host.Outcome.next (s.traps v (v.trapRec .barrierClobber v.g.lanes 0 0))
      let cut := (v.sval b).setWidth 16
      let phase := fun (x : BarWord) => if x.a ≠ 0 ∧ x.n ≤ x.a then ({ x with a := 0, gen := x.gen + 1 } : BarWord) else x
      v.fresh → v.reaches s sp .both accs → v.barWord s sp a = some tgt → s0.peekGone p none = false →
      (∀ m, tgt = .mem m → m.hbm = true ∧ m.w = true ∧ m.r = true ∧ m.rp = false) →
      (s.issuing v perLane (useS a v.g.lanes ++ useS b v.g.lanes) →
        let us := useS a v.g.lanes ++ useS b v.g.lanes
        let s1 := match p with | .home pa .. => s0.flushLine (pa / 128) | .pad .. => s0
        let binit := fun (t : State) => exec (.binit sw sp a b) s = .next (v.performed sw 8 us (.plain (t.stirBar p) [] true))
        (tagged = true → cut ≠ 0 → exec (.binit sw sp a b) s = clobber) ∧
        (tagged = false → cut ≠ 0 → binit ((s1.putBar p (BarWord.value ⟨0, cut.toNat, 0⟩)).putTag p true)) ∧
        (tagged = false → cut = 0 → binit s1) ∧
        (tagged = true → cut = 0 → binit ((s1.putBar p 0).putTag p false)) ∧
        (tagged = false → exec (.bwait sw nf sp sc a b) s = clobber) ∧
        (tagged = true → sound → w.gen ≠ cut → exec (.bwait sw nf sp sc a b) s =
          .next (v.performed sw 8 us (.plain (if nf then s0 else s0.fenceAcq v.agent sc) [] false))) ∧
        (tagged = true → sound → w.gen = cut → exec (.bwait sw nf sp sc a b) s = .next (s0.waitsMade v (.bword p cut nf sc false) sw))) ∧
      (s.issuing v perLane (useS a v.g.lanes ++ defS d.toNat v.g.lanes) →
        (tagged = false ∨ (sound ∧ w.n = 0) → exec (.barv sw nf sp sc d a) s = clobber) ∧
        (tagged = true → sound → w.n ≠ 0 → nf = false → s.releaseWaits v.f sc ≠ [] →
          exec (.barv sw nf sp sc d a) s = .next (s0.waits v (.released sc) sw)) ∧
        (tagged = true → sound → w.n ≠ 0 → w.a < w.n → (nf = true ∨ s.releaseWaits v.f sc = []) →
          exec (.barv sw nf sp sc d a) s = .next (v.performed sw 8 (useS a v.g.lanes ++ defS d.toNat v.g.lanes)
            (.plain (((if nf then s0 else s0.fenceRel v.agent sc).putBar p (phase { w with a := w.a + 1 }).value).stirBar p)
              [.s d.toNat (w.gen.setWidth 64)] false)))) ∧
      (s.issuing v perLane (useS a v.g.lanes) →
        (tagged = false ∨ (sound ∧ w.n = 0) → exec (.bdrop sw sp a) s = clobber) ∧
        (tagged = true → sound → w.n ≠ 0 → exec (.bdrop sw sp a) s =
          .next (v.performed sw 8 (useS a v.g.lanes) (.plain ((s0.putBar p (phase { w with n := w.n - 1 }).value).stirBar p) [] true))))) ∧
   ((∀ w : BarWord, w.n < 2 ^ 16 → w.a < 2 ^ 16 → barOf w.value = w ∧ w.value < 2 ^ 64 ∧ w.value % 2 ^ 16 = 0) ∧
    (∀ (s : State) (pa die x : Nat) (k : Byte) (cp on : Bool), Memory.wf s.mem = true → pa % 8 = 0 → x < 2 ^ 64 →
      let p := Place.home pa die k cp
      (s.putBar p x).barAt p = (barOf x, s.tags.contains (pa / 8)) ∧ (s.putTag p on).barAt p = ((s.barAt p).1, on) ∧
      (∀ q e k' cp', q % 8 = 0 → q ≠ pa → (q / 16 = pa / 16 → k' = k) →
        ((s.putBar p x).putTag p on).barAt (.home q e k' cp') = s.barAt (.home q e k' cp'))) ∧
    (∀ (s : State) (cl team off x : Nat) (on : Bool) (t : Team), s.team? cl team = some t → Memory.wf t.pad = true → off % 8 = 0 → x < 2 ^ 64 →
      ((s.putBar (.pad cl team off) x).barAt (.pad cl team off)) = (barOf x, t.padTags.contains (off / 8)) ∧
      ((s.putTag (.pad cl team off) on).barAt (.pad cl team off)) = ((s.barAt (.pad cl team off)).1, on) ∧
      (∀ c r o, o % 8 = 0 → ¬(c = cl ∧ r = team ∧ o = off) →
        ((s.putBar (.pad cl team off) x).putTag (.pad cl team off) on).barAt (.pad c r o) = s.barAt (.pad c r o))))

/-- R339: WAITCMP of lanes whose words can be reached and hold no error: it completes at once, each lane with the value that satisfied it, when every lane is
satisfied; else the gang waits, with the values of the satisfied lanes kept and a monitor armed for each other word while its slice has one. Model's choices
in it: log entry 31. -/
def Obligations.WaitcmpCompletesOrWaits : Prop :=
  ∀ (s : State) (v : View) (h : Hdr) (cc : Cond) (acq : Bool) (ty : Ty) (sc : Scope) (d : BitVec 8) (a b : Opnd),
    let m := v.active h
    let n := if ty.is64 then 8 else 4
    let us := useSrc false true a m ++ useSrc false ty.is64 b m ++ useDst false ty.is64 d m
    let accs := (lanesOf m).map fun l => accessOf l (v.addrOf false .gl a 0 l) n n
    let die := if levelOf sc = .home then none else some v.die
    let words : List (Nat × VA × Place × DWord) := (v.placed s .gl .read accs).filterMap fun r => r.parts.head?.map fun q =>
      (r.lane, BitVec.ofNat 56 r.addr, q.1.place, v.src false ty b r.lane)
    let s0 := (v.cached s .gl .read accs).syncWords v.agent die n words
    let value := fun (x : Nat × VA × Place × DWord) => BitVec.ofNat 64 (s0.peek x.2.2.1 die n)
    let met := fun (x : Nat × VA × Place × DWord) => cc.holds (asInt ty (value x)) (asInt ty x.2.2.2)
    let left := words.filter fun x => !met x
    let vals := (words.filter met).map fun x => (x.1, value x)
    s.issuing v perLane us → v.fresh → v.reaches s .gl .read accs → (∀ x ∈ words, s0.peekPoison x.2.2.1 die n = false) →
    (m ≠ 0 → left = [] → exec (.waitcmp h cc acq ty sc d a b) s =
      .next (v.performed h.sw 8 us (.plain (if acq then s0.fenceAcq v.agent sc else s0) (v.vecUpds ty.is64 d.toNat vals) false))) ∧
    (m = 0 → exec (.waitcmp h cc acq ty sc d a b) s = .next (v.performed h.sw 8 us (.plain s0 [] false))) ∧
    (left ≠ [] → let r := s0.arm v die left
      exec (.waitcmp h cc acq ty sc d a b) s =
        .next ((r.1.enliven v us).waitsMade v (.cmp cc ty sc acq d.toNat left vals r.2 (v.readsDead us) (v.killRows us)) h.sw) ∧
      (∀ x ∈ left, (∃ q ∈ r.1.monitors, q.at_ = x.2.2.1 ∧ q.owner = .gang v.f.ref v.iss.gang) ∨ 2048 ≤ r.1.monitorsAt x.2.2.1 die) ∧
      (∀ q ∈ s.monitors, q ∈ r.1.monitors))

/-- R216, R220, R232: LD in a local space reads every executing lane in order at the level that its scope names, its destinations receive the extended
elements when the result returns, and an error in the data of some lanes comes with it; in the remote space it sends one request for each lane and its
destinations stay pending until the replies come. R222, R223: GATH and SCAT of the lanes that the bitmap leaves: loads and stores as of LD and ST, and every
lane of P is done in the bitmap. Model's choices in it: log entries 4, 25. -/
def Obligations.LoadsAndGathersComplete : Prop :=
   (∀ (s : State) (v : View) (h : Hdr) (scf : Bool) (acq : Option Scope) (cnt : Count) (sp : Space) (ty : Ty) (d : BitVec 8) (a : Opnd) (c : BitVec 8),
      let us := ldUses h scf cnt sp ty d a c v
      let n := cnt.n * ty.bytes
      let lanes := v.runs h scf
      s.issuing v perLane us → v.fresh →
      (lanes = [] → sp ≠ .rm → exec (.ld h scf acq cnt sp ty d a c) s = .next (v.performed h.sw 8 us (.plain s [] false))) ∧
      (sp ≠ .rm → lanes ≠ [] →
        let accs := lanes.map fun l => accessOf l (v.addrOf scf sp a (dispOf sp c ty.bytes) l) n n
        v.reaches s sp .read accs →
        let r := (v.cached s sp .read accs).loadLanes v.agent acq (v.placed s sp .read accs)
        let bad := maskOf fun l => r.2.any fun x => x.1 == l && x.2.2
        let ups := if scf then [.s d.toNat (extend64 ty ((r.2.map fun x => x.2.1).headD []))]
          else v.runUpds ty d (runRegs ty cnt) (r.2.map fun x => (x.1, x.2.1))
        exec (.ld h scf acq cnt sp ty d a c) s = .next (v.performed h.sw 8 us {
          s := r.1, now := [], held := ups, done := 0,
          out := some { Out.of [] with err := dataErr (accs.map fun x => (x.lane, x.addr)) bad } })) ∧
      (∀ t ids, sp = .rm → v.f.xfenced = false →
        (∀ l ∈ lanes, v.inSegment .rm (v.addrOf scf .rm a 0 l) n = true ∧ v.addrOf scf .rm a 0 l % n = 0) →
        s.sendEach v (v.targetDev c) false s.nextId (lanes.map fun l => (maskOf (· == l),
          v.request (v.targetAsid c) (BitVec.ofNat 56 (v.addrOf scf .rm a 0 l)) (.read n) (acq.getD .device),
          v.remoteDst scf ty d (runRegs ty cnt) l)) = some (t, ids) →
        let ups := if lanes.isEmpty then [] else if scf then [.s d.toNat 0] else v.runUpds ty d (runRegs ty cnt) (lanes.map fun l => (l, []))
        exec (.ld h scf acq cnt sp ty d a c) s = .next (v.performed h.sw 8 us {
          s := t, now := [], held := [], done := 0,
          out := some { Out.of ups with remote := ids, fence := acq.isSome } }))) ∧
   (∀ (s : State) (v : View) (h : Hdr) (cont sx : Bool) (sp : Space) (ty : Ty) (d : BitVec 8) (a b : Opnd) (cb : BitVec 3),
      let m := v.active h
      let old := if cont then v.f.cb[cb.toNat]! else ~~~m
      let index := fun (l : Nat) => asInt (if sx then .i32 else .n32) (v.src false .n32 b l)
      let accs := (lanesOf (m &&& ~~~old)).map fun l => accessOf l (v.addrOf false sp a (index l * ty.bytes) l) ty.bytes ty.bytes
      v.fresh →
      (let us := gathUses h sp a b cb v ++ defRun (runRegs ty .one) d.toNat m
       s.issuing v perLane us →
       (m = 0 → exec (.gath h cont sx sp ty d a b cb) s = .next (v.performed h.sw 8 us (.plain s [] false))) ∧
       (m ≠ 0 → v.reaches s sp .read accs →
         let r := (v.cached s sp .read accs).loadLanes v.agent none (v.placed s sp .read accs)
         let bad := maskOf fun l => r.2.any fun x => x.1 == l && x.2.2
         exec (.gath h cont sx sp ty d a b cb) s = .next (v.performed h.sw 8 us {
           s := r.1, now := [.cb cb.toNat (old ||| m)], done := 0,
           held := v.runUpds ty d (runRegs ty .one) (r.2.map fun x => (x.1, x.2.1)),
           out := some { Out.of [] with regs := [.cb cb.toNat], err := dataErr (accs.map fun x => (x.lane, x.addr)) bad } }))) ∧
      (let us := gathUses h sp a b cb v ++ useRun (runRegs ty .one) d.toNat m false
       s.issuing v perLane us →
       (m = 0 → exec (.scat h cont sx sp ty d a b cb) s = .next (v.performed h.sw 8 us (.plain s [] false))) ∧
       (m &&& ~~~old ≠ 0 → sp = .ko → (∀ x ∈ accs, v.inSegment sp x.addr x.len = true ∧ x.aligned = true) → exec (.scat h cont sx sp ty d a b cb) s =
         .next ((s.upd v.f (.cb cb.toNat old)).traps v (v.trapRec .permission (m &&& ~~~old) 0 0))) ∧
       (m ≠ 0 → (sp = .ko → m &&& ~~~old = 0) → v.reaches s sp .write accs → (∀ r ∈ v.placed s sp .write accs, ∀ p ∈ r.parts, s.isTagged p.1 = false) →
         exec (.scat h cont sx sp ty d a b cb) s = .next (v.performed h.sw 8 us {
           s := (v.placed s sp .write accs).foldl (fun s r => s.storeParts v.agent none r.parts (v.dataWords ty (runRegs ty .one) ⟨d, false, false⟩ r.lane))
             (v.cached s sp .write accs),
           now := [.cb cb.toNat (old ||| m)], held := [], out := some { Out.of [] with regs := [.cb cb.toNat] }, done := 0 }))))

/-- R216, R219, R220, R233: ST in a local space stores every executing lane in order, and then nothing else of memory has changed: every other word reads as
before from every core, every other byte of a stored word as before from the issuing core, every other byte of every scratchpad as before; no register but by
last use. What is read as before is read through pages of the key id of the line's other accesses, where the caches take the lines without an eviction or
where every copy of the word holds what home holds (log entries 13 and 19). A store to the constant space traps Permission; one in the remote space sends a
request for each lane. Model's choices in it: log entries 4, 25. -/
def Obligations.StoresComplete : Prop :=
  ∀ (s : State) (v : View) (h : Hdr) (rel : Option Scope) (cnt : Count) (sp : Space) (ty : Ty) (a b : Opnd) (c : BitVec 8),
    let m := v.active h
    let us := addrUses false sp a c m ++ (if b.x then useS b.idx m else useRun (runRegs ty cnt) b.idx.toNat m b.last)
    let n := cnt.n * ty.bytes
    let st := exec (.st h rel cnt sp ty a b c) s
    s.issuing v perLane us → v.fresh → (rel = none ∨ ∀ o ∈ v.f.out, o.remote = []) →
    (sp = .ko → m ≠ 0 → (∀ l ∈ lanesOf m, let x := v.addrOf false .ko a (dispOf .ko c ty.bytes) l
        v.inSegment .ko x n = true ∧ x % n = 0) → st = .next (s.traps v (v.trapRec .permission m 0 0))) ∧
    (sp ≠ .rm → (sp = .ko → m = 0) →
      let accs := (lanesOf m).map fun l => accessOf l (v.addrOf false sp a (dispOf sp c ty.bytes) l) n n
      let rs := v.placed s sp .write accs
      v.reaches s sp .write accs → (∀ r ∈ rs, ∀ p ∈ r.parts, s.isTagged p.1 = false) →
      let t := v.performed h.sw 8 us (.plain (rs.foldl (fun s r => s.storeParts v.agent rel r.parts (v.dataWords ty (runRegs ty cnt) b r.lane))
        (v.cached s sp .write accs)) [] false)
      let killed := us.filterMap fun u => match u.reg with | .v n => if u.kill then quotaRow v.f.quota n else none | .r _ => none
      let keeps := fun (k : Byte) (w : Nat) => (∀ r ∈ rs, ∀ p ∈ r.parts, ∀ x, p.1 = .mem x → x.pa / 128 = w / 32 → x.key = k) ∧
        (s.roomFor v.agent (rs.map fun r => r.parts.length).sum ∨ s.settledAt k w)
      st = .next t ∧
      (∀ core die k w, (core = v.agent.core → die = v.agent.die) → keeps k w →
        (∀ r ∈ rs, ∀ p ∈ r.parts, ∀ x, p.1 = .mem x → x.pa / 4 ≠ w) → t.seen core die k w = s.seen core die k w) ∧
      (∀ k w j, j < 4 → keeps k w → (∀ r ∈ rs, ∀ p ∈ r.parts, ∀ x, p.1 = .mem x → ¬(x.pa ≤ 4 * w + j ∧ 4 * w + j < x.pa + p.2) ∧
          (x.pa / 4 = w → s.gone (some x.die) x.pa = false ∧ x.pa % 4 + p.2 ≤ 4)) →
        (t.seen v.agent.core v.agent.die k w).extractLsb' (8 * j) 8 = (s.seen v.agent.core v.agent.die k w).extractLsb' (8 * j) 8) ∧
      (∀ cl rank o, (∀ r ∈ rs, ∀ p ∈ r.parts, ∀ off, p.1 = .pad cl rank off → ¬(off ≤ o ∧ o < off + p.2)) →
        byteAt (t.padOf cl rank) o = byteAt (s.padOf cl rank) o) ∧
      { t with mem := s.mem, locks := s.locks, codes := s.codes, poison := s.poison, copies := s.copies, cmp := s.cmp, walks := s.walks, coreTlb := s.coreTlb, dieTlb := s.dieTlb,
               teams := s.teams, fibres := s.fibres, slots := s.slots, ctxs := s.ctxs, notes := s.notes } = s ∧
      (∀ r, r ≠ v.f.ref → t.fibre? r = s.fibre? r) ∧
      (∃ f', t.fibre? v.f.ref = some f' ∧
        { f' with gangs := v.f.gangs, turn := v.f.turn, age := v.f.age, st := v.f.st, fps := v.f.fps, replay := v.f.replay } = v.f ∧
        f'.gangs.map (fun x => (x.id, x.lanes, x.pc, x.st)) =
          v.f.gangs.map (fun x => (x.id, x.lanes, if x.id = v.iss.gang then x.pc + 8 else x.pc, x.st))) ∧
      (∃ sl', t.slot? v.f = some sl' ∧ { sl' with rows := v.sl.rows } = v.sl ∧ ∀ r, r ∉ killed → aget sl'.rows r = aget v.sl.rows r)) ∧
    (∀ t ids, sp = .rm → v.f.xfenced = false →
      (∀ l ∈ lanesOf m, v.inSegment .rm (v.addrOf false .rm a 0 l) n = true ∧ v.addrOf false .rm a 0 l % n = 0) →
      s.sendEach v (v.targetDev c) false s.nextId ((lanesOf m).map fun l => (maskOf (· == l),
        v.request (v.targetAsid c) (BitVec.ofNat 56 (v.addrOf false .rm a 0 l)) (.write (v.dataBytes ty cnt b l)) (rel.getD .device),
        .nothing)) = some (t, ids) →
      st = .next (v.performed h.sw 8 us {
        s := t, now := [], held := [], done := 0,
        out := if ids.isEmpty then none else some { Out.of [] with remote := ids, fence := rel.isSome } }))

/-- R217, R218, R233, R477: a core's load after its own store of the word returns the stored value, whatever its scope, and a store written through to home is
returned by every load at device scope of a core whose caches hold no newer store of the word. R230, R243: what one core holds dirty, a fence.rel at device
scope makes visible to the ordinary loads of any core after its own fence.acq, when no other cache holds a newer value of the word. -/
def Obligations.StoredWordsAreRead : Prop :=
   ((∀ (s : State) (a : Agent) (m : Mapped) (x : Word) (sc : Option Scope), Memory.wf s.mem = true →
      s.gone (some m.die) m.pa = false → m.pa % 4 = 0 → ((s.storeWord a (.mem m) 4 x).loadWord a (.mem m) sc).2 = (x, false)) ∧
    (∀ (s : State) (a : Agent) (cl rank off : Nat) (x : Word) (sc : Option Scope) (t : Team), s.team? cl rank = some t → Memory.wf t.pad = true →
      off % 4 = 0 → ((s.storeWord a (.pad cl rank off) 4 x).loadWord a (.pad cl rank off) sc).2 = (x, false)) ∧
    (∀ (s : State) (a b : Agent) (m m' : Mapped) (x : Word), Memory.wf s.mem = true → s.gone (some m.die) m.pa = false →
      s.gone (some m'.die) m'.pa = false → m.pa % 4 = 0 → m'.pa = m.pa → m'.key = m.key →
      (∀ c ∈ s.copies, c.word = m.pa / 4 → c.dirty = true → c.pos = .l1 a.core ∨ c.pos = .dc a.die) →
      (((s.storeWord a (.mem m) 4 x).storeThrough a (.mem m) (some .device)).loadWord b (.mem m') (some .device)).2.1 = x)) ∧
   (∀ (s : State) (a b : Agent) (w : Nat) (c : Copy), Memory.wf s.mem = true → s.copy? (.l1 a.core) w = some c → c.dirty = true →
      s.gone (some c.home) (4 * w) = false → (∀ x ∈ s.copies, x.word = w → x.dirty = true → x.pos = .l1 a.core ∨ x.pos = .dc a.die) →
      (∀ x ∈ s.copies, x.word / 4 = w / 4 → x.dirty = true → x.key = c.key) →
      ((s.fenceRel a .device).fenceAcq b .device).seen b.core b.die c.key w = c.val)

/-- R224, R225, R226: ATOM and RED apply their lanes in increasing order, each to the value that the lane before it left; ATOM returns the old values. A RED
raises an error only for lanes whose home answers with errors. On one home word, lane k of an add finds the sum of the lanes below it, and the word holds the
whole sum. -/
def Obligations.AtomicsApplyInLaneOrder : Prop :=
  (∀ (s : State) (v : View) (h : Hdr) (op : AtomOp) (sp : Space) (ty : Ty) (sc : Scope) (ord : AtomOrd) (rel : Bool) (d : BitVec 8) (a b : Opnd),
    let m := v.active h
    let n := atomBits ty / 8
    let accs := (lanesOf m).map fun l => accessOf l (v.addrOf false sp a 0 l) n n
    let rs := v.placed s sp .both accs
    let src := useSrc false sp.wide a m ++ useSrc false ty.is64 b m
    v.fresh → v.reaches s sp .both accs → (∀ r ∈ rs, ∀ p ∈ r.parts, s.isTagged p.1 = false) → sp ≠ .ko → (∀ o ∈ v.f.out, o.remote = []) →
    (let us := src ++ (if op = .cas then useRun (runRegs ty .one) d.toNat m false else []) ++ defRun (runRegs ty .one) d.toNat m
     let r := v.atomLanes op ty sc b (fun l => (v.vval ty.is64 d.toNat l).toNat) rs (v.cached s sp .both accs)
     let bad := maskOf fun l => r.2.any fun x => x.1 == l && x.2.2
     s.issuing v perLane us →
     (m = 0 → exec (.atom h op sp ty sc ord d a b) s = .next (v.performed h.sw 8 us (.plain s [] false))) ∧
     (m ≠ 0 → exec (.atom h op sp ty sc ord d a b) s = .next (v.performed h.sw 8 us {
       s := r.1, now := [], done := 0,
       held := v.vecUpds ty.is64 d.toNat (r.2.map fun x => (x.1, BitVec.ofNat 64 x.2.1)),
       out := some { Out.of [] with err := dataErr (accs.map fun x => (x.lane, x.addr)) bad } }))) ∧
    (let r := v.atomLanes op ty sc b (fun _ => 0) rs (v.cached s sp .both accs)
     let lost := r.1.goneLanes rs (maskOf fun l => r.2.any fun x => x.1 == l && x.2.2)
     s.issuing v perLane src → exec (.red h op sp ty sc rel a b) s = .next (v.performed h.sw 8 src {
       s := r.1, now := [], held := [], done := 0,
       out := (dataErr (accs.map fun x => (x.lane, x.addr)) lost).map fun t => { Out.of [] with err := some t } }))) ∧
  (∀ (s : State) (v : View) (h : Hdr) (op : AtomOp) (ty : Ty) (sc : Scope) (ord : AtomOrd) (rel : Bool) (d : BitVec 8) (a b : Opnd),
    let m := v.active h
    let src := useSrc false false a m ++ useSrc false ty.is64 b m
    v.fresh → m ≠ 0 → (∀ l ∈ lanesOf m, let x := v.addrOf false .ko a 0 l
      v.inSegment .ko x (atomBits ty / 8) = true ∧ x % (atomBits ty / 8) = 0) →
    (s.issuing v perLane (src ++ (if op = .cas then useRun (runRegs ty .one) d.toNat m false else []) ++ defRun (runRegs ty .one) d.toNat m) →
      exec (.atom h op .ko ty sc ord d a b) s = .next (s.traps v (v.trapRec .permission m 0 0))) ∧
    (s.issuing v perLane src → exec (.red h op .ko ty sc rel a b) s = .next (s.traps v (v.trapRec .permission m 0 0)))) ∧
  (∀ (s : State) (v : View) (m : Mapped) (b : Opnd) (ls : List Nat) (addr : Nat → Nat), Memory.wf s.mem = true → m.pa % 4 = 0 → m.ms = false →
    s.gone (some m.die) m.pa = false → s.poison.contains (m.pa / 4) = false → (m.cp = true → (s.codeOf (m.pa / 256)).toNat < 9) →
    (∀ c ∈ s.copies, c.word = m.pa / 4 → c.dirty = true → c.pos ≠ .l1 v.core ∧ c.pos ≠ .dc v.die) →
    let r := v.atomLanes .add .n32 .device b (fun _ => 0) (ls.map fun l => ⟨l, addr l, [(.mem m, 4)]⟩) s
    let sum := fun (k : Nat) => ((ls.take k).map fun l => (v.src false .n32 b l).toNat).sum
    r.2.map (fun x => x.2.1) = (List.range ls.length).map (fun k => ((s.homeWordAs m.key (m.pa / 4)).toNat + sum k) % 2 ^ 32) ∧
    (r.1.homeWordAs m.key (m.pa / 4)).toNat = ((s.homeWordAs m.key (m.pa / 4)).toNat + sum ls.length) % 2 ^ 32)

/-- R228 to R231: FENCE completes as a result that holds the fibre's later memory accesses back, CINV and CWB write the dirty words of their lines through and
CINV discards the clean copies; in the scratchpad spaces they do nothing; PREF completes and changes no value that a load through a page of the line's key id
returns, unless it evicts a line whose copies differ from home (log entries 13 and 19). R238, R239, R240, R247 to R249: BIND writes an entry that reads back,
UNBIND clears one or every entry of an object, and the caches of the context's bindings are emptied; ACQ reads its objects at the level of its scope, then
discards what is bound to them; RELS writes what is bound to them through, then writes them. Model's choices in it: log entries 29, 30. -/
def Obligations.FencesLinesAndObjects : Prop :=
   (∀ (s : State) (v : View) (sw : Bool) (h : Hdr) (mode : FenceMode) (sc : Scope) (sp : Space) (a : Opnd) (c : BitVec 8) (lvl : PrefLevel),
      let m := v.active h
      let us := addrUses false sp a 0 m
      v.fresh →
      (s.issuing v perLane [] →
        (mode = .acq ∨ s.releaseWaits v.f sc = [] → exec (.fence sw mode sc) s = .next (v.performed sw 8 [] (.plain (match mode with
          | .acq => s.fenceAcq v.agent sc
          | .rel => s.fenceRel v.agent sc
          | .ar => (s.fenceRel v.agent sc).fenceAcq v.agent sc) [] true))) ∧
        (mode ≠ .acq → s.releaseWaits v.f sc ≠ [] → exec (.fence sw mode sc) s = .next (v.performed sw 8 [] {
          s := s.fenceRel v.agent sc, now := [], held := [], done := 0,
          out := some { Out.of [] with remote := s.releaseWaits v.f sc, fence := true, tail := some (.fence mode sc) } }))) ∧
      (s.issuing v perLane us →
        (∃ t, exec (.pref h lvl sp a c) s = .next t ∧ (∀ core die k w, (core = v.core → die = v.die) →
            (∀ r ∈ v.placed s sp .read ((lanesOf m).map fun l => accessOf l (v.addrOf false sp a (dispOf sp c 1) l) 1 1), ∀ p ∈ r.parts, ∀ x,
              p.1 = .mem x → x.pa / 128 = w / 32 → x.key = k) → (s.roomFor v.agent 32 ∨ s.settledAt k w) →
            t.seen core die k w = s.seen core die k w) ∧
          t.teams = s.teams ∧ (s.roomFor v.agent 32 → t.mem = s.mem ∧ t.poison = s.poison)) ∧
        (sp = .tm ∨ sp = .cl ∨ m = 0 → exec (.cinv h sc sp a c) s = .next (v.performed h.sw 8 us (.plain s [] false)) ∧
          exec (.cwb h sc sp a c) s = .next (v.performed h.sw 8 us (.plain s [] false))) ∧
        (sp ≠ .tm → sp ≠ .cl → m ≠ 0 →
          let accs := (lanesOf m).map fun l => accessOf l (v.addrOf false sp a (dispOf sp c 1) l) 1 1
          let s0 := v.cached s sp .read accs
          let lines := (v.placed s sp .read accs).filterMap fun r => match r.parts.head? with | some (.mem x, _) => some (x.pa / 128) | _ => none
          let through := fun (s : State) (line : Nat) => s.throughAll v.agent (levelOf sc) fun x => x.word / 32 == line
          v.reaches s sp .read accs →
          exec (.cwb h sc sp a c) s = .next (v.performed h.sw 8 us (.plain (lines.foldl through s0) [] true)) ∧
          exec (.cinv h sc sp a c) s = .next (v.performed h.sw 8 us (.plain (lines.foldl (fun s line =>
            (through s line).discard v.agent (levelOf sc) fun x => x.word / 32 == line) s0) [] true))))) ∧
   ((∀ (s : State) (v : View) (sw : Bool) (i : BitVec 10) (a b c : BitVec 8),
      let o : VA := (v.sval a).setWidth 56
      let r : VA := (v.sval b).setWidth 56
      let n := ((v.sval c).setWidth 32 : Word).toNat
      let done := fun (us : List Use) (t : State) => Host.Outcome.next (v.performed sw 8 us { s := t, now := [], held := [], out := some (Out.of []), done := 0 })
      v.fresh →
      (s.issuing v perLane (useS a v.g.lanes ++ useS b v.g.lanes ++ useS c v.g.lanes) → o.toNat % 8 = 0 → r.toNat % 4 = 0 → n % 4 = 0 → n ≠ 0 →
        v.inSegment .gl o.toNat 8 = true → v.inSegment .gl r.toNat n = true →
        let t := s.putBind v.c i.toNat (some (o, r.toNat, n))
        exec (.bind sw i a b c) s = done (useS a v.g.lanes ++ useS b v.g.lanes ++ useS c v.g.lanes) t ∧
        (Memory.wf s.mem = true → t.bindEntry v.c i.toNat = some (o, r.toNat, n)) ∧ (∀ x ∈ t.binds, x.2.asid ≠ v.c.asid)) ∧
      (s.issuing v perLane [] →
        let t := s.putBind v.c i.toNat none
        exec (.unbind sw i) s = done [] t ∧ (Memory.wf s.mem = true → t.bindEntry v.c i.toNat = none) ∧ (∀ x ∈ t.binds, x.2.asid ≠ v.c.asid)) ∧
      (s.issuing v perLane (useS a v.g.lanes) → ∃ t, exec (.unbindObj sw a) s = done (useS a v.g.lanes) t ∧
        { t with mem := s.mem, binds := s.binds } = s ∧ (Memory.wf s.mem = true → ∀ j < 1024,
          t.bindEntry v.c j = match s.bindEntry v.c j with | some (x, y) => if x = o then none else some (x, y) | none => none))) ∧
    (∀ (s : State) (v : View) (h : Hdr) (op : AcqOp) (rop : RelsOp) (sc : Scope) (d : BitVec 8) (a b : Opnd),
      let m := v.active h
      let accs := (lanesOf m).map fun l => accessOf l (v.addrOf false .gl a 0 l) 8 8
      let clean := fun (need : Need) => ∀ r ∈ v.placed s .gl need accs, ∀ p ∈ r.parts, s.isTagged p.1 = false
      let objects := fun (need : Need) => (v.placed s .gl need accs).foldl (fun acc r => addOnce acc (BitVec.ofNat 56 r.addr)) ([] : List VA)
      v.fresh →
      (let need := match op with | .ld => Need.read | .cas .. => .both
       let us := useSrc false true a m ++ (match op with
         | .ld => []
         | .cas b c => useSrc false true b m ++ useSrc false true c m) ++ defRun 2 d.toNat m
       let new := fun (l old : Nat) => match op with
         | .ld => none
         | .cas b c => if old = (v.src false .n64 b l).toNat then some (v.src false .n64 c l).toNat else none
       let r := (v.placed s .gl need accs).foldl (fun (acc : State × List (Nat × Nat × Bool)) r => match r.parts.head? with
         | some q => let x := acc.1.atomic v.agent q.1 8 sc (new r.lane); (x.1, acc.2 ++ [(r.lane, x.2.1, x.2.2)])
         | none => acc) (v.cached s .gl need accs, [])
       let bad := maskOf fun l => r.2.any fun x => x.1 == l && x.2.2
       s.issuing v perLane us →
       (m = 0 → exec (.acq h op sc d a) s = .next (v.performed h.sw 8 us (.plain s [] false))) ∧
       (m ≠ 0 → v.reaches s .gl need accs → (op = .ld ∨ clean need) → exec (.acq h op sc d a) s = .next (v.performed h.sw 8 us {
         s := (objects need).foldl (fun s o => v.acquire sc o s) r.1, now := [], done := 0,
         held := v.vecUpds true d.toNat (r.2.map fun x => (x.1, BitVec.ofNat 64 x.2.1)),
         out := some { Out.of [] with err := dataErr (accs.map fun x => (x.lane, x.addr)) bad } }))) ∧
      (let need := match rop with | .st => Need.write | .add => .both
       let us := useSrc false true a m ++ useSrc false true b m
       let write := fun (s : State) (l : Nat) (t : Target) => match rop with
         | .st => s.putObject v.agent sc t (v.src false .n64 b l)
         | .add => s.addObject v.agent sc t (v.src false .n64 b l)
       s.issuing v perLane us →
       (m = 0 → exec (.rels h rop sc a b) s = .next (v.performed h.sw 8 us (.plain s [] false))) ∧
       (m ≠ 0 → v.reaches s .gl need accs → clean need →
       (s.releaseWaits v.f sc ≠ [] → exec (.rels h rop sc a b) s = .next (s.waits v (.released sc) h.sw)) ∧
       (s.releaseWaits v.f sc = [] → exec (.rels h rop sc a b) s = .next (v.performed h.sw 8 us {
         now := [], held := [], out := some (Out.of []), done := 0,
         s := (v.placed s .gl need accs).foldl (fun s r => match r.parts.head? with | some q => write s r.lane q.1 | none => s)
           ((objects need).foldl (fun s o => v.releaseRegions sc o s) (v.cached s .gl need accs)) }))))))

/-- R251, R255, R9: layout and handle registers as fields, and back: every field at every value that it can hold, the reserved bits of a layout as 0. R272,
R274 to R276, R267: LSLICE folds a coordinate into the handle and removes its mode; HMK makes a handle, HSET sets one field and HQRY reads one, and a field
reads as it was set while the others stay; LQRY reports a figure, 0 or class 2 for an ill-formed layout; LMOV copies. Model's choices in it: log entry 32. -/
def Obligations.LayoutAndHandleRegisters : Prop :=
   ((∀ x : BitVec 512, (layOf x).bits = (x.extractLsb' 0 498).setWidth 512) ∧ (∀ x : BitVec 256, (handleOf x).bits = x) ∧
    (∀ l : Lay, l.nm < 8 → l.dm < 8 → l.sb < 16 → l.sm < 16 → l.ss < 16 → l.modes.length = 6 →
      (∀ m ∈ l.modes, m.ei < 2 ^ 16 ∧ m.eo < 2 ^ 16 ∧ -2 ^ 23 ≤ m.si ∧ m.si < 2 ^ 23 ∧ -2 ^ 23 ≤ m.so ∧ m.so < 2 ^ 23) → layOf l.bits = l) ∧
    (∀ h : Handle, h.dstride < 2 ^ 48 → h.sshift < 2 ^ 6 → h.sbase < 2 ^ 56 → h.base < 2 ^ 56 → handleOf h.bits = h)) ∧
   (∀ (s : State) (v : View) (sw : Bool) (d a : BitVec 4) (n b : BitVec 8) (q : BitVec 6),
      let put := fun (len : Nat) (u : RegUpd) => Host.Outcome.next ((s.upd v.f u).retire v sw len)
      (∀ (gs : BitVec 2) (kind : Kind) (fmt : Fmt) (stride : BitVec 48),
        s.issuing v perLane (useS n v.g.lanes ++ (if kind = .rm then useS b v.g.lanes else []) ++ defH d.toNat v.g.lanes) →
        ∃ h : Handle, exec (.hmk sw gs kind fmt d n b stride) s = put 16 (.h d.toNat h.bits) ∧ h.base = (v.sval n).toNat % 2 ^ 56 ∧ h.kind = kind.code ∧
          h.fmt = fmt.code ∧ h.gsize = gs ∧ h.dstride = stride.toNat ∧ h.tscale = 0x3F800000#32 ∧ h.fp4x = 0#16 ∧ h.sbase = 0 ∧ h.sshift = 0 ∧
          h.tdev = (if kind = .rm then (v.sval b).extractLsb' 0 16 else 0#16) ∧ h.asid = (if kind = .rm then (v.sval b).extractLsb' 16 16 else 0#16)) ∧
      (∀ (f : HField) (val : HVal), let x : DWord := match val with | .reg r => v.sval r | .imm i => i
        let us := useH d.toNat v.g.lanes ++ (match val with | .reg r => useS r v.g.lanes | .imm _ => []) ++ defH d.toNat v.g.lanes
        let reserved := (f = .kind ∧ 6 ≤ x.toNat % 8) ∨ (f = .fmt ∧ Fmt.ofCode (x.setWidth 5) = none) ∨ (f = .gsize ∧ x.toNat % 4 = 3)
        let width := match f with
          | .base | .sbase => 56 | .kind => 3 | .fmt => 5 | .gsize => 2 | .tdev | .asid | .fp4x => 16 | .sshift => 6 | .tscale => 32 | .dstride => 48
        s.issuing v perLane us →
        (reserved → exec (.hset sw f d val) s = .next (s.traps v (v.trapRec .illegalInstruction v.g.lanes 0 0))) ∧
        (¬reserved → ∃ h : Handle, exec (.hset sw f d val) s = put 16 (.h d.toNat h.bits) ∧ h.get f = x.toNat % 2 ^ width ∧
          ∀ g, g ≠ f → h.get g = (v.handle d).get g)) ∧
      (∀ f : HField, s.issuing v perLane (useH a.toNat v.g.lanes ++ defS q.toNat v.g.lanes) →
        exec (.hqry sw f q a) s = put 8 (.s q.toNat (BitVec.ofNat 64 ((v.handle a).get f)))) ∧
      (∀ k : LQuery, s.issuing v perLane (useL a.toNat v.g.lanes ++ (match handleOfQuery k with | some h => useH h.toNat v.g.lanes | none => []) ++
          defS q.toNat v.g.lanes) → ∃ x : Nat, exec (.lqry sw k q a) s = put 8 (.s q.toNat (BitVec.ofNat 64 x)) ∧
        ((v.lay a).illFormed = true → x = (match k with | .cls .. => 2 | _ => 0)) ∧
        ((v.lay a).illFormed = false → (k = .size → x = (v.lay a).size) ∧ (k = .span → x = (v.lay a).span)) ∧
        (∀ e h, k = .cls e h → x ≤ 2 ∧ (x = 2 ↔ classOf e (e == .wf || e == .af) false false (v.handle h) (v.lay a) = .rejected ∨
          ((e = .wf ∨ e = .af) ∧ ∀ t, (v.handle h).tensor = some t → t.rowsAligned (v.lay a) = false))) ∧
        (∀ h, k = .deg h → (v.lay a).illFormed = false → (v.handle h).kind ≠ Kind.tm.code → (v.handle h).kind ≠ Kind.cl.code → x = 0)) ∧
      (s.issuing v perLane (useL a.toNat v.g.lanes ++ defL d.toNat v.g.lanes) → exec (.lmov sw false d a) s = put 8 (.l d.toNat (v.f.l.getD a.toNat 0))) ∧
      (s.issuing v perLane (useH a.toNat v.g.lanes ++ defH d.toNat v.g.lanes) → exec (.lmov sw true d a) s = put 8 (.h d.toNat (v.f.h.getD a.toNat 0))) ∧
      (∀ (mode : BitVec 3) (c : BitVec 4) (imm : Word),
        let L := v.lay a
        let h := v.handle c
        let m := mode.toNat
        let x := L.mode m
        let co := ((v.sval b).setWidth 32 + imm : Word).toNat
        let die := decide (L.dm = m)
        let o : Int := (co % extOf x.ei : Nat) * x.si + (if die then 0 else (co / extOf x.ei : Nat) * x.so)
        let f := Fmt.ofCode h.fmt
        let bits : Nat := f.elim 8 Fmt.bits
        let grain : Nat := f.elim 1 Fmt.grain
        let size : Nat := f.elim 0 Fmt.scaleSize
        let delta : Int := o * bits / 8 + (if die then (co / extOf x.ei * h.dstride : Nat) else 0)
        let fits := L.illFormed = false ∧ m < L.nm ∧ co < x.extent ∧ o * bits % ((8 * grain : Nat) : Int) = 0 ∧
          (h.sbase = 0 ∨ delta % ((2 ^ h.sshift : Nat) : Int) = 0)
        s.issuing v perLane (useL a.toNat v.g.lanes ++ useS b v.g.lanes ++ useH c.toNat v.g.lanes ++ defL d.toNat v.g.lanes ++ defH c.toNat v.g.lanes) →
        (¬fits → exec (.lslice sw mode d a b c imm) s = .next (s.traps v (v.trapRec .layoutCompose v.g.lanes 0 0))) ∧
        (fits → exec (.lslice sw mode d a b c imm) s = .next (((s.upd v.f (.l d.toNat
            ({ L.dropMode m with dm := if die then 7 else if L.dm ≠ 7 ∧ m < L.dm then L.dm - 1 else L.dm } : Lay).bits)).upd v.f (.h c.toNat
            ({ h with
               base := ((h.base + delta) % 2 ^ 56).toNat
               sbase := if h.sbase = 0 then 0 else ((h.sbase + delta / ((2 ^ h.sshift : Nat) : Int) * size) % 2 ^ 56).toNat
               kind := if die ∧ h.kind = Kind.pg.code then Kind.gl.code else h.kind } : Handle).bits)).retire v sw 12))))

/-- R252, R266, R268, R270, R271, R273: LSET, LPART, LTRANS, LFLAT and LSWZ: the layout that each writes, and the trap when a condition fails or the source is
ill-formed; LCHAIN writes the composition or traps. R254, R268, R271: a partition of a mode moves no element: at every coordinate the offset is the same, and
with .die the partition that the coordinate lies in takes up the rest of it; merging two levels keeps every offset too. Model's choices in it: log entry 32.
-/
def Obligations.LayoutsAreBuilt : Prop :=
   (∀ (s : State) (v : View) (sw : Bool) (mode : BitVec 3) (d a b : BitVec 4),
      let L := v.lay a
      let m := mode.toNat
      let x := L.mode m
      let put := fun (len : Nat) (l : Lay) => Host.Outcome.next ((s.upd v.f (.l d.toNat l.bits)).retire v sw len)
      let trap := fun code => Host.Outcome.next (s.traps v (v.trapRec code v.g.lanes 0 0))
      (∀ (clr level : Bool) (ext : BitVec 16) (step : BitVec 24), s.issuing v perLane ((if clr then [] else useL d.toNat v.g.lanes) ++ defL d.toNat v.g.lanes) →
        let L0 := if clr then Lay.empty else v.lay d
        let y := L0.mode m
        (clr = false → L0.illFormed = true → exec (.lset sw clr level mode d ext step) s = trap .layoutCompose) ∧
        (clr = true ∨ L0.illFormed = false → exec (.lset sw clr level mode d ext step) s =
          put 16 { L0.setMode m (if level then ⟨y.ei, y.si, ext.toNat, step.toInt⟩ else ⟨ext.toNat, step.toInt, y.eo, y.so⟩) with
            nm := max L0.nm (m + 1) })) ∧
      (s.issuing v perLane (useL a.toNat v.g.lanes ++ [] ++ defL d.toNat v.g.lanes) →
        (∀ (die : Bool) (tile : BitVec 16), let t := tile.toNat
          let fits := L.illFormed = false ∧ m < L.nm ∧ x.eo = 0 ∧ t ≠ 0 ∧ extOf x.ei % t = 0 ∧
            (if die then L.dm = 7 ∧ extOf x.ei / t ≤ 4 else -2 ^ 23 ≤ x.si * t ∧ x.si * t < 2 ^ 23)
          (fits → exec (.lpart sw die mode d a tile) s =
            put 12 { L.setMode m ⟨t, x.si, extOf x.ei / t, if die then 0 else x.si * t⟩ with dm := if die then m else L.dm }) ∧
          (¬fits → exec (.lpart sw die mode d a tile) s = trap .layoutCompose)) ∧
        (∀ perm : BitVec 18, let pi := fun (i : Nat) => (perm.extractLsb' (3 * i) 3).toNat
          let isPerm := ∀ j < L.nm, ∃ i < L.nm, pi i = j
          (L.illFormed = false → isPerm → ∃ l : Lay, exec (.ltrans sw d a perm) s = put 12 l ∧ l.nm = L.nm ∧ l.sb = L.sb ∧ l.sm = L.sm ∧ l.ss = L.ss ∧
            l.modes.length = 6 ∧ (∀ i < 6, l.mode i = if i < L.nm then L.mode (pi i) else .nil) ∧
            (L.dm = 7 → l.dm = 7) ∧ (L.dm ≠ 7 → l.dm < L.nm ∧ pi l.dm = L.dm)) ∧
          (L.illFormed = true ∨ ¬isPerm → exec (.ltrans sw d a perm) s = trap .layoutCompose)) ∧
        (let lvl := mergePair x.ei x.si x.eo x.so
         (L.illFormed = true → exec (.lflat sw false mode d a) s = trap .layoutCompose ∧ exec (.lflat sw true mode d a) s = trap .layoutCompose) ∧
         (L.illFormed = false → m < L.nm → L.dm ≠ m → ∀ e st, lvl = some (e, st) → exec (.lflat sw false mode d a) s = put 8 (L.setMode m ⟨e, st, 0, 0⟩)) ∧
         (L.illFormed = false → ¬(m < L.nm ∧ L.dm ≠ m) ∨ lvl = none → exec (.lflat sw false mode d a) s = trap .layoutFlatten) ∧
         (L.illFormed = false → m + 1 < L.nm → L.dm ≠ m → L.dm ≠ m + 1 → ∀ e0 s0 e1 s1 e st, x.single = some (e0, s0) →
           (L.mode (m + 1)).single = some (e1, s1) → mergePair e0 s0 e1 s1 = some (e, st) →
           ∃ l : Lay, exec (.lflat sw true mode d a) s = put 8 l ∧ l.nm = L.nm - 1 ∧ l.mode m = ⟨e, st, 0, 0⟩ ∧ (∀ i < m, l.mode i = L.mode i) ∧
             (∀ i, m < i → i < 5 → l.mode i = L.mode (i + 1)) ∧ l.dm = (if L.dm = 7 ∨ L.dm < m then L.dm else L.dm - 1)) ∧
         (L.illFormed = false → ¬(m + 1 < L.nm ∧ L.dm ≠ m ∧ L.dm ≠ m + 1) ∨ x.single = none ∨ (L.mode (m + 1)).single = none ∨
           (∃ e0 s0 e1 s1, x.single = some (e0, s0) ∧ (L.mode (m + 1)).single = some (e1, s1) ∧ mergePair e0 s0 e1 s1 = none) →
           exec (.lflat sw true mode d a) s = trap .layoutFlatten))) ∧
      (s.issuing v perLane (useL a.toNat v.g.lanes ++ useL b.toNat v.g.lanes ++ defL d.toNat v.g.lanes) →
        (∀ l, L.illFormed = false → (v.lay b).illFormed = false → chain L (v.lay b) = some l → exec (.lchain sw d a b) s = put 8 l) ∧
        (L.illFormed = true ∨ (v.lay b).illFormed = true ∨ chain L (v.lay b) = none → exec (.lchain sw d a b) s = trap .layoutCompose)) ∧
      (∀ c : BitVec 8, s.issuing v perLane (useL a.toNat v.g.lanes ++ useS c v.g.lanes ++ defL d.toNat v.g.lanes) →
        let ss := ((v.sval c).extractLsb' 0 4).toNat
        let sm := ((v.sval c).extractLsb' 4 4).toNat
        let sb := ((v.sval c).extractLsb' 8 4).toNat
        (L.illFormed = false → (sm = 0 ∨ sb + sm ≤ ss) → exec (.lswz sw d a c) s = put 8 { L with ss := ss, sm := sm, sb := sb }) ∧
        (L.illFormed = true ∨ (sm ≠ 0 ∧ ss < sb + sm) → exec (.lswz sw d a c) s = trap .layoutCompose))) ∧
   ((∀ (l : Lay) (c : List Nat) (m t : Nat), m < l.nm → l.nm ≤ l.modes.length → c.length = l.nm → l.dm ≠ m → (l.mode m).eo = 0 → t ≠ 0 →
      extOf (l.mode m).ei % t = 0 → c.getD m 0 < extOf (l.mode m).ei →
      let x := l.mode m
      (l.setMode m ⟨t, x.si, extOf x.ei / t, x.si * t⟩).eval c = l.eval c ∧
      (l.dm = 7 → l.nm ≤ 6 → (({ l.setMode m ⟨t, x.si, extOf x.ei / t, 0⟩ with dm := m } : Lay).eval c).1 = c.getD m 0 / t ∧
        (({ l.setMode m ⟨t, x.si, extOf x.ei / t, 0⟩ with dm := m } : Lay).eval c).2 + (c.getD m 0 / t * t : Nat) * x.si = (l.eval c).2)) ∧
    (∀ (l : Lay) (c : List Nat) (m e : Nat) (st : Int), m < l.nm → l.nm ≤ l.modes.length → c.length = l.nm → l.dm ≠ m →
      mergePair (l.mode m).ei (l.mode m).si (l.mode m).eo (l.mode m).so = some (e, st) → c.getD m 0 < (l.mode m).extent →
      extOf e = (l.mode m).extent ∧ (l.setMode m ⟨e, st, 0, 0⟩).eval c = l.eval c))

/-- R267, R277 to R281: LLD and LST move a layout image, PTLD a pattern table, PERMX rearranges the bytes of a row as its table says, and LDL and STL move the
elements of a tile between memory (or, for LDL, registers) and rows in natural order. Model's choices in it: log entry 33. -/
def Obligations.TileAccessesComplete : Prop :=
  (∀ (s : State) (v : View) (sw : Bool) (sp : Space) (d b : BitVec 4) (a : BitVec 8), v.fresh →
    let addr := v.wideAddr sp a
    let accs := fun (n : Nat) => (lanesOf v.g.lanes).map fun l => accessOf l addr n n
    let bytes := fun (r : State × List Nat × Bool) => r.2.1.flatMap (leBytes 4)
    let err := fun (n : Nat) (bad : Bool) => if bad then dataErr ((accs n).map fun x => (x.lane, x.addr)) v.g.lanes else none
    (∀ r0, s.issuing v perLane (useS a v.g.lanes ++ defL d.toNat v.g.lanes) → v.reaches s sp .read (accs 64) → (v.placed s sp .read (accs 64)).head? = some r0 →
      let r := (v.cached s sp .read (accs 64)).loadParts v.agent none r0.parts
      exec (.lld sw sp d a) s = .next (v.performed sw 8 (useS a v.g.lanes ++ defL d.toNat v.g.lanes) {
        s := r.1, now := [], held := [.l d.toNat (BitVec.ofNat 512 (leNat (bytes r) % 2 ^ 498))],
        out := some { Out.of [] with err := err 64 r.2.2 }, done := 0 })) ∧
    (∀ r0, s.issuing v perLane (useS a v.g.lanes ++ useL b.toNat v.g.lanes) → v.reaches s sp .write (accs 64) →
      (v.placed s sp .write (accs 64)).head? = some r0 → (∀ p ∈ r0.parts, s.isTagged p.1 = false) →
      let x := (v.f.l.getD b.toNat 0).toNat % 2 ^ 498
      exec (.lst sw sp a b) s = .next (v.performed sw 8 (useS a v.g.lanes ++ useL b.toNat v.g.lanes) (.plain
        ((v.cached s sp .write (accs 64)).storeParts v.agent none r0.parts ((upTo 16).map fun i => BitVec.ofNat 32 (x / 2 ^ (32 * i)))) [] false))) ∧
    (∀ (t : BitVec 4) (r0 : Ready), let us := useS a v.g.lanes ++ [(⟨.r (.pat t.toNat), v.g.lanes, false, false⟩ : Use)]
      (s.view? = some v → v.rcd.patn ≤ t.toNat → exec (.ptld sw sp t a) s = .next (s.traps v (v.trapRec .illegalInstruction v.g.lanes 0 0))) ∧
      (s.issuing v perLane us → t.toNat < v.rcd.patn → v.reaches s sp .read (accs 128) → (v.placed s sp .read (accs 128)).head? = some r0 →
        let r := (v.cached s sp .read (accs 128)).loadParts v.agent none r0.parts
        exec (.ptld sw sp t a) s = .next (v.performed sw 8 us {
          s := r.1, now := [], held := [.pat t.toNat (bytes r)], out := some { Out.of [] with err := err 128 r.2.2 }, done := 0 })))) ∧
  (∀ (s : State) (v : View) (sw : Bool) (t : BitVec 4) (d : BitVec 8) (a : Opnd) (q : Nat),
    let us : List Use := [⟨.v a.idx.toNat, BitVec.allOnes 32, true, a.last⟩, ⟨.v d.toNat, BitVec.allOnes 32, false, false⟩,
      ⟨.r (.pat t.toNat), BitVec.allOnes 32, true, false⟩]
    (s.view? = some v → v.rcd.patn ≤ t.toNat → exec (.permx sw t d a) s = .next (s.traps v (v.trapRec .illegalInstruction v.g.lanes 0 0))) ∧
    (s.issuing v collective us → quotaRow v.f.quota d.toNat = some q → t.toNat < v.rcd.patn → ∃ row : Row, exec (.permx sw t d a) s = .next (v.after sw 8 us (fun s => s.upd v.f (.v q (BitVec.allOnes 32) row)) s) ∧
      ∀ j < 128, row.byte j = (let x : Byte := (v.tm.pats.getD t.toNat []).getD j 0
        if x.getLsbD 7 then 0 else ((v.vreg a.idx.toNat).at (x.extractLsb' 2 5).toNat).extractLsb' (8 * (x.extractLsb' 0 2).toNat) 8))) ∧
  (∀ (s : State) (v : View) (sw : Bool) (k : BitVec 3) (d : BitVec 8) (t : Tile) (b : BitVec 8) (c : Opnd) (x : Tensor) (l : Lay), v.fresh →
    let i0 := v.firstIndex b
    let us := x.units l i0 (2 ^ k.toNat * 128 / x.fmt.unit)
    let degree := fun (s : State) => s.modFibre v.f.ref fun f => { f with lcd := lcdOf (x.degrees us) }
    (v.tileAccept t false i0 = .ok (x, l) → s.issuing v collective (v.ldlUses k d t b) →
      let rows := fun vals => v.rowUpds d (rowsOfUnits x (2 ^ k.toNat) i0 vals)
      (x.kind = .vr → (∀ u ∈ us, u.addr % x.fmt.align = 0) → exec (.ldl sw k d t b) s = .next (v.performed sw 8 (v.ldlUses k d t b) {
        s := degree s, now := [], held := rows (v.regUnits us), out := some (Out.of []), done := 0 })) ∧
      (x.kind ≠ .vr → ∀ p, v.prepareTile s .read [] x.kind x.fmt.align us = .ok p → p.frames = [] →
        let r := (p.used.foldl (fun s e => s.keepXlat v.agent e) s).loadUnits v.agent p.units
        exec (.ldl sw k d t b) s = .next (v.performed sw 8 (v.ldlUses k d t b) {
          s := degree r.1, now := [], held := rows r.2.1, out := some { Out.of [] with err := v.tileErr r.2.2 }, done := 0 }))) ∧
    (v.tileAccept t true i0 = .ok (x, l) → s.issuing v collective (v.stlUses k t b c) →
      ∀ p, v.prepareTile s .write [] x.kind x.fmt.align us = .ok p → p.frames = [] → (∀ u ∈ p.units, ∀ y ∈ u.2, s.isTagged y.1 = false) →
      exec (.stl sw k t b c) s = .next (v.performed sw 8 (v.stlUses k t b c) (.plain
        (degree (p.units.foldl (fun s u => s.storeUnit v.agent u.2 (v.runUnit x.fmt i0 c.idx.toNat u.1))
          (p.used.foldl (fun s e => s.keepXlat v.agent e) s))) [] false))))

/-- R282 to R287, R290, R292, R293, R296 to R298, R300: a matrix instruction of a fibre whose team does not hold the array traps ArrayState; of one whose team
does, it enters the end of array order once its checks pass, with the registers that it will write pending; MQRY reports at once. -/
def Obligations.MatrixInstructionsEnterArrayOrder : Prop :=
  ∀ (s : State) (v : View) (sw : Bool) (z : BitVec 2) (b d : BitVec 8) (o : Opnd) (t : Tile) (n : BitVec 2),
    let trap := Host.Outcome.next (s.traps v (v.trapRec .arrayState v.g.lanes 0 0))
    let h := v.handle t.hn
    let l := v.lay t.ln
    let row0 := v.rowOf b
    let N := 2 ^ n.toNat
    let enter := fun op => s.enter v.f.ref v.iss.pc op
    let pends := fun (len : Nat) (rows : List (Option Nat)) op =>
      ((enter op).defer v.f { Out.of [] with rows := rows.filterMap id, remote := [s.nextId] }).retire v sw len
    let performs := fun (len : Nat) (us : List Use) (used : List TlbEntry) op store => Host.Outcome.next (v.performed sw len us (v.entered s used op store).1)
    (s.issuing v collective [] →
      (v.tm.arr = none → exec (.mwsw sw) s = trap ∧ exec (.mrel sw) s = trap ∧ exec (.mzero sw z) s = trap) ∧
      (∀ a, v.tm.arr = some a →
        (a.logical.sh = .loading ∨ a.logical.sh = .valid → exec (.mwsw sw) s = .next ((enter .swap).retire v sw 8)) ∧
        (a.logical.sh ≠ .loading → a.logical.sh ≠ .valid → exec (.mwsw sw) s = trap) ∧
        exec (.mrel sw) s = .next ((enter .rel).retire v sw 8) ∧ exec (.mzero sw z) s = .next ((enter (.zero z.toNat)).retire v sw 8))) ∧
    (s.issuing v collective (useS b v.g.lanes ++ fullRun (4 * N) d.toNat false false) →
      (v.tm.arr = none ∨ 128 < row0 + N → exec (.mzmvTo sw n d z b) s = trap) ∧
      (v.tm.arr.isSome = true → row0 + N ≤ 128 → exec (.mzmvTo sw n d z b) s =
        .next (pends 8 (v.runRows (4 * N) d.toNat) (.mvTo z.toNat row0 (v.runRows (4 * N) d.toNat))))) ∧
    (let us := useS b v.g.lanes ++ fullRun (4 * N) o.idx.toNat true o.last
     s.issuing v collective us →
      (v.tm.arr = none ∨ 128 < row0 + N → exec (.mzmvFrom sw n z o b) s = trap) ∧
      (v.tm.arr.isSome = true → row0 + N ≤ 128 → exec (.mzmvFrom sw n z o b) s =
        .next (v.after sw 8 us (fun s => s.enter v.f.ref v.iss.pc (.mvFrom z.toNat row0 (v.zVals o.idx.toNat N))) s))) ∧
    (let us := fullRun 4 o.idx.toNat true o.last
     s.issuing v collective us →
      (v.tm.arr = none → exec (.mresc sw z o) s = trap) ∧
      (v.tm.arr.isSome = true → exec (.mresc sw z o) s = .next (v.after sw 8 us
        (fun s => s.enter v.f.ref v.iss.pc (.resc z.toNat ((v.zVals o.idx.toNat 1).headD []) v.f.fpm)) s))) ∧
    (∀ sum : Bool, s.issuing v collective (useS b v.g.lanes ++ fullRun 4 d.toNat false false) →
      (v.tm.arr = none → exec (.tred sw sum d z b) s = trap) ∧
      (v.tm.arr.isSome = true → exec (.tred sw sum d z b) s = .next (pends 8 (v.runRows 4 d.toNat)
        (.tred z.toNat sum (min 128 ((v.sval b).setWidth 8 : Byte).toNat) v.f.fpm (v.runRows 4 d.toNat))))) ∧
    (∀ q : BitVec 6, s.issuing v collective (defS q.toNat v.g.lanes) →
      let report := fun (x : DWord) => Host.Outcome.next ((s.defer v.f (Out.of [.s q.toNat x])).retire v sw 8)
      exec (.mqry sw .own q) s = report (if v.tm.arr.isSome then 1 else 0) ∧
      (v.tm.arr = none → exec (.mqry sw .pln q) s = trap ∧ exec (.mqry sw .prog q) s = trap ∧ exec (.mqry sw .flt q) s = trap) ∧
      (∀ a, v.tm.arr = some a → exec (.mqry sw .prog q) s = report (BitVec.ofNat 64 a.prog) ∧ exec (.mqry sw .flt q) s = report (a.flt.setWidth 64) ∧
        ∃ x : DWord, exec (.mqry sw .pln q) s = report x ∧ x.extractLsb' 62 2 = a.shadow.st.code ∧ x.extractLsb' 32 8 = 0#8 ∧ x.extractLsb' 0 9 = 0#9 ∧
          x.getLsbD 31 = decide (a.other.st = .active) ∧
          (a.shadow.st = .valid → x.extractLsb' 57 5 = a.shadow.feed.fmt.code ∧ x.extractLsb' 50 7 = BitVec.ofNat 7 (a.shadow.n - 1) ∧
            x.extractLsb' 40 10 = BitVec.ofNat 10 a.shadow.feed.k) ∧
          (a.other.st = .active → x.extractLsb' 26 5 = a.other.feed.fmt.code ∧ x.extractLsb' 19 7 = BitVec.ofNat 7 (a.other.n - 1) ∧
            x.extractLsb' 9 10 = BitVec.ofNat 10 a.other.feed.k))) ∧
    (v.fresh →
      (s.issuing v collective (tileUses t v) →
        (v.tm.arr = none → exec (.mwld sw false t) s = trap ∧ exec (.mwld sw true t) s = trap) ∧
        (∀ x rows more used, v.tm.arr.isSome = true → v.feedAccept .wf h l = .ok x →
          (weightOk x l = false → exec (.mwld sw false t) s = trap) ∧
          (weightOk x l = true → v.feedRows s x l [] [] = .ok (rows, more, [], used) →
            exec (.mwld sw false t) s = performs 8 (tileUses t v) used (.wload (x.feed l.dims.1 v.f.fpm) [] rows) false)) ∧
        (∀ x s' heads rows used, v.tm.arr.isSome = true → h.tensor = some x → kindTaken .wf false x.kind = true → l.illFormed = false →
          (l.dm = 7 ∨ x.kind = .pg) → (x.fmt = .f16 ∨ x.fmt = .bf16 ∨ ((x.fmt = .e4m3 ∨ x.fmt = .e5m2) ∧ h.sbase = 0)) →
          weightOk x l = true → v.bmcColumns s x l.dims.1 l.dims.2 [] = .ok (s', heads, rows, [], used) →
          exec (.mwld sw true t) s = .next (v.performed sw 8 (tileUses t v)
            (v.entered s' used (.wload (x.feed l.dims.1 v.f.fpm) heads rows) false).1))) ∧
      (∀ sp ps used, s.issuing v collective (useS b v.g.lanes) →
        (v.tm.arr = none → exec (.mcbld sw sp b) s = trap) ∧
        (v.tm.arr.isSome = true → v.placeAll s .read [] [{ sp := sp, addr := v.wideAddr sp b, len := 256, align := 256 }] = .ok (ps, [], used) →
          exec (.mcbld sw sp b) s = performs 8 (useS b v.g.lanes) used (.cbload ps) false)) ∧
      (∀ (init : Bool) (zb : Option (BitVec 8)) (r : BitVec 7) a x rows zs used,
        let us := tileUses t v ++ (match zb with | some c => useS c v.g.lanes | none => [])
        let map : List Range := match zb with
          | some c => [{ sp := Kind.space x.kind, addr := v.wideAddr (Kind.space x.kind) c,
                         len := ceilDiv (l.dims.2 * ceilDiv l.dims.1 32) 8, align := 4 }]
          | none => []
        s.issuing v collective us → v.tm.arr = some a → v.feedAccept .af h l = .ok x →
        (a.logical.streamOk x l r.toNat = false → exec (.mstr sw init zb z t r) s = trap) ∧
        (a.logical.streamOk x l r.toNat = true → v.feedRows s x l map [] = .ok (rows, zs, [], used) →
          exec (.mstr sw init zb z t r) s = performs 12 us used (.stream z.toNat r.toNat init (x.feed l.dims.1 v.f.fpm) zs rows) false)) ∧
      (∀ x ps used, let cells := x.units l 0 (x.unitCount l)
        let us := tileUses t v ++ useS b v.g.lanes ++ (if x.kind = .vr then vrUses v cells else [])
        let rowsOf := fun (srcs : List Src) => inRows l.dims.1 l.dims.2 srcs
        s.issuing v collective us → v.tm.arr.isSome = true → v.laneAccept false h l = .ok x →
        moveOk l row0 (x.fmt == .f32 || x.fmt == .f16 || x.fmt == .bf16) = true →
        (x.kind = .vr → (∀ u ∈ cells, u.addr % x.fmt.align = 0) → exec (.mzld sw z t b) s = performs 8 us [] (.zload z.toNat row0 (x.feed l.dims.1 v.f.fpm)
          (rowsOf (cells.map fun u => .imm (leNat ((upTo u.len).map fun i => v.regByte (u.addr + i)))))) false) ∧
        (x.kind ≠ .vr → v.placeAll s .read [] (cells.map x.unitRange) = .ok (ps, [], used) →
          exec (.mzld sw z t b) s = performs 8 us used (.zload z.toNat row0 (x.feed l.dims.1 v.f.fpm) (rowsOf (ps.map fun p => .mem p false))) false)) ∧
      (∀ (rm : RMode) x ps sc used, let cells := x.units l 0 (x.unitCount l)
        let us := tileUses t v ++ useS b v.g.lanes
        let scales : List Range := if x.fmt.scaleSize ≠ 0 ∧ x.h.sbase ≠ 0 then cells.map fun u =>
          { sp := Kind.space x.kind, addr := x.scaleAddr u.raw, len := 1, align := 1 } else []
        s.issuing v collective us → v.tm.arr.isSome = true → v.laneAccept true h l = .ok x → moveOk l row0 (storeFmt x.fmt) = true →
        v.placeEach s [] ((cells.map fun u => (Need.write, x.unitRange u)) ++ scales.map fun r => (Need.read, r)) = .ok (ps ++ sc, [], used) →
        ps.length = cells.length → (∀ p ∈ ps, ∀ q ∈ p.parts, s.isTagged q.1 = false) →
        exec (.mzst sw rm z t b) s = performs 8 us used (.zstore z.toNat row0 (x.feed l.dims.1 v.f.fpm) (resolveRm v.f.fpm rm)
          (inRows l.dims.1 l.dims.2 (ps.mapIdx fun i p => (p, sc[i]?)))) true))

/-- R283, R289, R290, R292, R296 to R298: the command at the head of array order acts: what becomes of the planes, the codebook store and Z, what the waiting
result receives, and that the command leaves array order; the team's cluster is placed, and its stale commands have found their pages again (log entry 34); a
weight load makes the shadow plane Loading and stays. R289, R293, R296, R299: a weight load that has read its operand makes the shadow plane valid with what
it latched, or Empty after an error, and a stream, tile load or tile store performs one row: only that row of Z changes and only its first columns, the
progress advances, and the command leaves array order after its last row; an error leaves Z and ends the command with a DataError. Model's choices in it: log
entry 34. -/
def Obligations.ArrayCommandsAct : Prop :=
   (∀ (s0 : State) (cl team : Nat) (t : Team) (a : Arr) (c : ArrCmd) (rest : List ArrCmd),
      let s := s0.refresh cl team
      s.team? cl team = some t → s.liveArr cl team = some a → a.queue = c :: rest → (∀ x ∈ rest, x.id ≠ c.id) → c.stale = false →
      let acts := fun (P : Arr → State → Prop) => ∃ s' t' a', exec (.arrayDeferredAct cl team) s0 = .next s' ∧ s'.team? cl team = some t' ∧
        t'.arr = some a' ∧ a'.queue = rest ∧ a'.flt = a.flt ∧ a'.prog = a.prog ∧ P a' s'
      let planes := fun (a' : Arr) => a'.shadow = a.shadow ∧ a'.other = a.other ∧ a'.book = a.book
      let gives := fun (s' : State) (ups : List RegUpd) => ∀ f, s.fibre? c.f = some f → ∃ f', s'.fibre? c.f = some f' ∧ { f' with out := f.out } = f ∧
        ∀ (i : Nat) (h : i < f.out.length), f.out[i].remote = [c.id] → f.out[i].tail = none → f'.out[i]? = some { f.out[i] with remote := [], upds := f.out[i].upds ++ ups }
      (c.op = .swap → a.shadow.st = .valid → acts fun a' _ => a'.other = { a.shadow with st := .active } ∧ a'.z = a.z ∧ a'.book = a.book ∧
        (a.other.st = .active → a'.shadow.st = .released) ∧ (a.other.st ≠ .active → a'.shadow = a.other)) ∧
      (c.op = .rel → acts fun a' _ => a'.shadow = a.shadow ∧ a'.z = a.z ∧ a'.book = a.book ∧
        (a.other.st = .active → a'.other.st = .released) ∧ (a.other.st ≠ .active → a'.other = a.other)) ∧
      (∀ z, c.op = .zero z → acts fun a' _ => planes a' ∧ (∀ i < 128, a'.row z i = List.replicate 128 0) ∧
        ∀ y, y ≠ z → ∀ i < 128, a'.row y i = a.row y i) ∧
      (∀ z row0 vals, c.op = .mvFrom z row0 vals → row0 + vals.length ≤ 128 → acts fun a' _ => planes a' ∧
        (∀ (i : Nat) (h : i < vals.length), vals[i].length = 128 → a'.row z (row0 + i) = vals[i]) ∧
        ∀ y i, i < 128 → (y ≠ z ∨ i < row0 ∨ row0 + vals.length ≤ i) → a'.row y i = a.row y i) ∧
      (∀ z f fpm, c.op = .resc z f fpm → acts fun a' _ => planes a' ∧
        (∀ i < 128, (a.row z i).length = 128 → a'.row z i = (a.row z i).map fun x => rescale fpm x (f.getD i 0)) ∧
        ∀ y, y ≠ z → ∀ i < 128, a'.row y i = a.row y i) ∧
      (∀ z row0 rows, c.op = .mvTo z row0 rows → acts fun a' s' => planes a' ∧ a'.z = a.z ∧
        gives s' (rowUpds rows ((upTo (rows.length / 4)).flatMap fun q => zRows (a.row z (row0 + q))))) ∧
      (∀ z sum n fpm rows, c.op = .tred z sum n fpm rows → acts fun a' s' => planes a' ∧ a'.z = a.z ∧
        gives s' (rowUpds rows (zRows ((upTo 128).map fun i => tredRow fpm sum n (a.row z i))))) ∧
      (∀ ps, c.op = .cbload ps → (s.readPieces (s.agentOf cl team) ps).2.2 = none → acts fun a' s' => a'.shadow = a.shadow ∧ a'.other = a.other ∧
        a'.z = a.z ∧ a'.book.length = 128 ∧ ∀ e < 128, a'.book.getD e 0 =
          leNat (((((s.readPieces (s.agentOf cl team) ps).2.1.flatMap id).drop (2 * e))).take 2)) ∧
      (∀ fd heads cols, c.op = .wload fd heads cols → a.shadow.st ≠ .loading → ∃ s' t' a', exec (.arrayDeferredAct cl team) s0 = .next s' ∧
        s'.team? cl team = some t' ∧ t'.arr = some a' ∧ a'.queue = a.queue ∧ a'.shadow.st = .loading ∧ a'.other = a.other ∧ a'.z = a.z)) ∧
   ((∀ (s0 : State) (cl team : Nat) (t : Team) (a : Arr) (c : ArrCmd) (rest : List ArrCmd) (fd : Feed) (heads : List Piece) (cols : List RowSrc),
      let s := s0.refresh cl team
      s.team? cl team = some t → s.liveArr cl team = some a → a.queue = c :: rest → (∀ x ∈ rest, x.id ≠ c.id) → c.stale = false → c.op = .wload fd heads cols → a.shadow.st = .loading →
      let s1 := (s.readPieces (s.agentOf cl team) heads).1
      let r := cols.foldl (fun (acc : State × List FeedRow × Option Nat) col => let x := acc.1.readRow (s.agentOf cl team) fd.fmt.grain col
        (x.1, acc.2.1 ++ [x.2.1], orElse acc.2.2 x.2.2)) (s1, [], none)
      let bad := orElse (s.readPieces (s.agentOf cl team) heads).2.2 r.2.2
      ∃ s' t' a', exec (.weightLoadComplete cl team) s0 = .next s' ∧ s'.team? cl team = some t' ∧ t'.arr = some a' ∧ a'.queue = rest ∧ a'.z = a.z ∧
        a'.other = a.other ∧
        (bad = none → a'.flt = a.flt ∧
          a'.shadow = { st := .valid, feed := fd, n := cols.length, cols := r.2.1, book := if fd.fmt = .cb4 then a.book else [] }) ∧
        (bad ≠ none → a'.shadow.st = .empty ∧ a'.flt = c.pc)) ∧
    (∀ (s0 : State) (cl team : Nat) (t : Team) (a a1 : Arr) (c : ArrCmd) (rest : List ArrCmd) (s1 : State) (rows : Nat),
      let s := s0.refresh cl team
      s.team? cl team = some t → s.liveArr cl team = some a → a.queue = c :: rest → (∀ x ∈ rest, x.id ≠ c.id) → c.stale = false → c.op.rows = some rows →
      s.commitRow (s.agentOf cl team) a c = (s1, some (a1, rows), none) →
      ∃ s' t' a', exec (.streamRowCommit cl team) s0 = .next s' ∧ s'.team? cl team = some t' ∧ t'.arr = some a' ∧ a'.z = a1.z ∧
        a'.queue = (if c.prog + 1 < rows then { c with prog := c.prog + 1 } :: rest else rest) ∧
        (a.last = c.id → a'.prog = a.prog + 1) ∧ (a.last ≠ c.id → a'.prog = a.prog) ∧ a'.shadow = a.shadow ∧ a'.other = a.other ∧
        (∀ z row0 init fd zb srcs, c.op = .stream z row0 init fd zb srcs → row0 + srcs.length ≤ 128 → a.active.n ≤ 128 →
          a.active.cols.length = a.active.n → (∀ y i, (a.row y i).length = 128) →
          (∀ y i, i < 128 → (y ≠ z ∨ i ≠ row0 + c.prog) → a'.row y i = a.row y i) ∧
          (∀ k, a.active.n ≤ k → (a'.row z (row0 + c.prog)).getD k 0 = (a.row z (row0 + c.prog)).getD k 0)) ∧
        (∀ z row0 fd rm srcs, c.op = .zstore z row0 fd rm srcs → a'.z = a.z)) ∧
    (∀ (s0 : State) (cl team : Nat) (t : Team) (a : Arr) (c : ArrCmd) (rest : List ArrCmd) (s1 : State) (x : Nat) (y : Option (Arr × Nat)),
      let s := s0.refresh cl team
      s.team? cl team = some t → s.liveArr cl team = some a → a.queue = c :: rest → (∀ x ∈ rest, x.id ≠ c.id) → c.stale = false → c.op.rows.isSome = true →
      s.commitRow (s.agentOf cl team) a c = (s1, y, some x) →
      ∃ s' t' a', exec (.streamRowCommit cl team) s0 = .next s' ∧ s'.team? cl team = some t' ∧ t'.arr = some a' ∧ a'.z = a.z ∧ a'.queue = rest ∧
        a'.flt = c.pc))

/-- R304, R307, R310, R311: CPY and CPYM of a valid card whose operands are accepted give the team a job on the tag, its tag bit clear, with an edge from
every earlier job that is not done and whose footprint conflicts, Queued when there is none and else Blocked; a CPYM's follow-on takes its place in array
order. A card in error gives no job; a card that is not valid in itself traps JobFault with its address. R314 to R316: TWANY and TWALL complete when a tag, or
every tag, of the mask is set and acquire what the jobs of those tags wrote, and wait otherwise; TFFR, TCLR and JQRY read, clear and report; JCAN removes the
jobs that it names and those that wait for them. Model's choices in it: log entry 35. -/
def Obligations.CopiesBecomeJobs : Prop :=
   (∀ (s : State) (v : View) (m sw : Bool) (tag : BitVec 6) (sp : Space) (a b : Tile) (c : BitVec 8) (r0 : Ready),
      let addr := ((v.sval c).setWidth 56 : VA).toNat
      let accs := (lanesOf v.g.lanes).map fun l => accessOf l addr 128 128
      let us := jobUses a b c v
      let instr : Instr := if m then .cpym sw tag sp a b c else .cpy sw tag sp a b c
      let r := (v.cached s sp .read accs).loadCard v.agent r0.parts
      let card? := cardOf r.2.1
      let hx := v.handle a.hn
      let hy := v.handle b.hn
      let ly := v.lay b.ln
      let dec := hx.fmt != hy.fmt
      s.issuing v perLane us → v.fresh →
      (addr % 128 ≠ 0 → exec instr s = .next (s.traps v (v.trapRec .misaligned v.g.lanes 0 0))) ∧
      (v.reaches s sp .read accs → (v.placed s sp .read accs).head? = some r0 → addr % 128 = 0 →
        (r.2.2 = true → exec instr s = .next (v.performed sw 8 us { s := r.1, now := [], held := [], done := 0,
                                                                    out := some { Out.of [] with
                                                                      err := dataErr (accs.map fun x => (x.lane, x.addr)) v.g.lanes } })) ∧
        (r.2.2 = false → card? = none → exec instr s = .next (s.traps v (v.trapRec .jobFault v.g.lanes (BitVec.ofNat 64 addr) 0xFF))) ∧
        (∀ card x y tm, r.2.2 = false → card? = some card → (card.fop != 0) = m → (∀ q ∈ card.reads ++ card.writes, v.inSegment q.sp q.base q.len = true) →
          overlapAny v.tm.rank card.reads card.writes = false → tag.toNat < v.rcd.tags → (∀ j ∈ v.tm.jobs, j.tag = tag.toNat → j.st = .done) →
          v.copyAccept dec false hx (v.lay a.ln) = .ok x → v.copyAccept false true hy ly = .ok y →
          ((v.lay a.ln).padded x.fmt.grain).size = (ly.padded y.fmt.grain).size → (dec = true → jobSource x.fmt = true ∧ jobTarget y.fmt = true) →
          (m = true → ∃ z arr, v.feedAccept (if card.fop = 1 then .wf else .af) hy ly = .ok z ∧ v.tm.arr = some arr ∧
            (if card.fop = 1 then weightOk y ly else arr.logical.streamOk y ly card.frow) = true) →
          (∀ o ∈ v.f.out, o.remote = []) → r.1.jobEntries v.core < 64 → s.team? v.f.ref.cl v.f.ref.team = some tm → v.tm = tm →
          ∃ t tm' j, exec instr s = .next (v.performed sw 8 us (.plain t [] false)) ∧ t.team? v.f.ref.cl v.f.ref.team = some tm' ∧
            tm'.jobs = (tm.jobs.filter fun k => k.tag != tag.toNat) ++ [j] ∧
            (∀ i < 64, tm'.tags.getLsbD i = (tm.tags.getLsbD i && i != tag.toNat)) ∧
            j.tag = tag.toNat ∧ j.f = v.f.ref ∧ j.st = (if j.edges = [] then .queued else .blocked) ∧ j.prog = 0 ∧ j.reads = card.reads ∧
            j.writes = card.writes ∧ j.scope = card.scope ∧ j.fpm = v.f.fpm ∧
            j.src = (v.f.h.getD a.hn.toNat 0, v.f.l.getD a.ln.toNat 0) ∧ j.dst = (v.f.h.getD b.hn.toNat 0, v.f.l.getD b.ln.toNat 0) ∧
            (∀ i, i ∈ j.edges ↔ ∃ k ∈ tm.jobs, k.id = i ∧ k.st ≠ .done ∧ (overlapAny tm.rank card.reads k.writes = true ∨
              overlapAny tm.rank card.writes k.reads = true ∨ overlapAny tm.rank card.writes k.writes = true)) ∧
            (m = false → j.cmd = none ∧ tm'.arr = tm.arr) ∧
            (m = true → ∃ arr arr' e, tm.arr = some arr ∧ tm'.arr = some arr' ∧ arr'.queue = arr.queue ++ [e] ∧ j.cmd = some e.id ∧
              e.op = .follow tag.toNat (card.fop == 1) card.fz card.frow card.finit (y.feed ly.dims.1 v.f.fpm) ly.dims.2)))) ∧
   (∀ (s : State) (v : View) (sw : Bool) (d : BitVec 6) (a : BitVec 8),
      let mask := v.sval a &&& tagMask v.rcd.tags
      let got := v.tm.tags &&& mask
      let acquire := fun (m : DWord) => (v.tm.jobs.filter fun j => j.st == .done && m.getLsbD j.tag).foldl
        (fun s j => s.discard v.agent (levelOf j.scope) (inFootprint v.f.asid j.writes)) s
      (s.issuing v collective (useS a v.g.lanes ++ defS d.toNat v.g.lanes) →
        (mask = 0 ∨ got ≠ 0 → exec (.twany sw d a) s = .next (((acquire got).defer v.f (Out.of [.s d.toNat got])).retire v sw 8)) ∧
        (mask ≠ 0 → got = 0 → exec (.twany sw d a) s = .next (s.waits v (.tagsAny d.toNat mask) sw))) ∧
      (s.issuing v collective (useS a v.g.lanes) →
        (got = mask → exec (.twall sw a) s = .next ((acquire mask).retire v sw 8)) ∧
        (got ≠ mask → exec (.twall sw a) s = .next (s.waits v (.tagsAll mask) sw))) ∧
      (s.issuing v perLane (useS a v.g.lanes ++ defS d.toNat v.g.lanes) →
        (∀ i < 64, got.getLsbD i = true → (∀ k < i, got.getLsbD k = false) →
          exec (.tffr sw d a) s = .next ((s.defer v.f (Out.of [.s d.toNat (BitVec.ofNat 64 i)])).retire v sw 8)) ∧
        (got = 0 → exec (.tffr sw d a) s = .next ((s.defer v.f (Out.of [.s d.toNat 64])).retire v sw 8))) ∧
      (s.issuing v perLane (useS a v.g.lanes) →
        exec (.tclr sw a) s = .next ((s.modTeam v.f.ref.cl v.f.ref.team fun t => { t with
          tags := t.tags &&& ~~~mask, jobs := t.jobs.filter fun j => !(j.st == .done && mask.getLsbD j.tag) }).retire v sw 8) ∧
        (s.team? v.f.ref.cl v.f.ref.team = some v.tm → ∃ (t : State) (tm' : Team), exec (.jcan sw a) s = .next ((t.defer v.f { Out.of [] with
            remote := (v.tm.jobs.filter fun j => tm'.jobs.all fun k => k.id != j.id).filterMap (·.req) }).retire v sw 8) ∧
          { t with teams := s.teams } = s ∧ t.team? v.f.ref.cl v.f.ref.team = some tm' ∧ tm'.tags = v.tm.tags ∧
          (∀ j' ∈ tm'.jobs, ∃ j ∈ v.tm.jobs, j'.id = j.id ∧ ¬(mask.getLsbD j.tag = true ∧ j.st ≠ .landed ∧ j.st ≠ .done)) ∧
          (∀ j ∈ v.tm.jobs, (mask.getLsbD j.tag = false ∨ j.st = .landed ∨ j.st = .done) → j.st ≠ .blocked →
            (∀ k ∈ v.tm.jobs, k.id = j.id → k = j) → ∃ j' ∈ tm'.jobs, j' = j))) ∧
      (∀ q : JQuery, s.issuing v perLane ((match q with | .st a | .prog a | .cause a | .addr a => useS a v.g.lanes | .ffl => []) ++ defS d.toNat v.g.lanes) →
        ∃ x : Nat, exec (.jqry sw q d) s = .next ((s.defer v.f (Out.of [.s d.toNat (BitVec.ofNat 64 x)])).retire v sw 8) ∧
          (∀ j, j ∈ v.tm.jobs → (v.tm.jobs.map (·.tag)).Nodup → j.tag < v.rcd.tags → ∀ r, (v.sval r).toNat = j.tag →
            (q = .st r → x = j.st.code) ∧ (q = .prog r → x = j.prog) ∧ (q = .cause r → x = j.cause.toNat) ∧ (q = .addr r → x = j.addr.toNat)) ∧
          (∀ r, (v.rcd.tags ≤ (v.sval r).toNat ∨ ∀ j ∈ v.tm.jobs, j.tag ≠ (v.sval r).toNat) → q = .st r ∨ q = .prog r ∨ q = .cause r ∨ q = .addr r → x = 0) ∧
          (q = .ffl → (∀ j ∈ v.tm.jobs, j.st = .faulted → x ≤ j.tag) ∧ x ≤ 64 ∧ (x < 64 → ∃ j ∈ v.tm.jobs, j.st = .faulted ∧ j.tag = x))))

/-- R311 to R313, R246: a Queued job runs from its progress; one that has performed every element lands, a landed CPY is Done with its tag set after its
writes are written through, and what waited only for it is Queued; a broken job is Faulted with its cause and its fibre is told; the follow-on of a landed
CPYM receives its operand. R308, R309, R260: one step of a job between team tiles of one format moves the bytes of a unit unchanged, from and to the words
that the bank functions give, and no other byte of the scratchpad changes; a byte outside the footprint stops it with JobFault before anything is written.
Model's choices in it: log entry 35. -/
def Obligations.JobEventsComplete : Prop :=
   (∀ (s : State) (cl team : Nat) (t : Team) (j : Job), s.team? cl team = some t → j ∈ t.jobs → (t.jobs.map (·.tag)).Nodup → (t.jobs.map (·.id)).Nodup →
      (s.cluster? cl).any Cluster.placed = true →
      let is := fun (s' : State) (st : JobSt) => ∃ t' j', s'.team? cl team = some t' ∧ j' ∈ t'.jobs ∧ j'.id = j.id ∧ j'.st = st
      (∀ v s1 i, j.st = .queued →
        let s' := s.modJob cl team j.id fun j => { j with st := .running }
        s'.jobView cl team { j with st := .running } = some v → State.jobRun v (v.count + 1) s' j.prog = (s1, i, .all) →
        exec (.jobStart cl team j.tag) s = .next (s1.modJob cl team j.id fun k => { k with prog := i, buf := if i = j.prog then j.buf else [] })) ∧
      (∀ v s1 i code addr, j.st = .queued →
        let s' := s.modJob cl team j.id fun j => { j with st := .running }
        s'.jobView cl team { j with st := .running } = some v → State.jobRun v (v.count + 1) s' j.prog = (s1, i, .fault code addr) →
        exec (.jobStart cl team j.tag) s = .next ((s1.modJob cl team j.id fun k => { k with prog := i, buf := if i = j.prog then j.buf else [] }).modJob
          cl team j.id fun k => { k with broken := some (code, addr) })) ∧
      (∀ v, j.st = .running → j.broken = none → j.req = none → s.jobView cl team j = some v →
        (v.count ≤ j.prog → exec (.jobLanded cl team j.tag) s = .next (s.modJob cl team j.id fun j => { j with st := .landed })) ∧
        (j.prog < v.count → exec (.jobLanded cl team j.tag) s = .next s)) ∧
      (j.st = .landed → j.cmd = none → s.lostWord cl team j = none → ∃ s' t', exec (.jobDone cl team j.tag) s = .next s' ∧ s'.team? cl team = some t' ∧ is s' .done ∧
        (∀ i < 64, t'.tags.getLsbD i = (t.tags.getLsbD i || i == j.tag)) ∧
        (∀ k ∈ t.jobs, k.id ≠ j.id → ∃ k' ∈ t'.jobs, { k' with st := k.st } = k ∧
          k'.st = if k.st = .blocked ∧ (∀ e ∈ k.edges, e ≠ j.id → ∀ x ∈ t.jobs, x.id = e → x.st = .done) then .queued else k.st)) ∧
      (∀ code addr f, j.st = .running → j.broken = some (code, addr) → s.fibre? j.f = some f → f.st ≠ .exited → f.live ≠ 0 →
        ∃ s' f', exec (.jobFaulted cl team j.tag) s = .next s' ∧ is s' .faulted ∧ s'.fibre? j.f = some f' ∧ ∃ x, f'.held = f.held ++ [x] ∧
          x.kind = .job ∧ x.rcd.code = .jobFault ∧ x.rcd.info = BitVec.ofNat 8 j.tag ∧ x.rcd.eaddr = BitVec.ofNat 64 addr) ∧
      (∀ ans v s1 i, j.st = .running → j.req = none → j.broken = none → (j.frames = [] ∨ s.portRuns 0 = true) → ans = .serviced [] →
        (∀ c, s.jobView cl team j = some c → s.answers c.ag.die c.c j.frames [] = true) →
        let s' := s.modJob cl team j.id fun j => { j with frames := [] }
        s'.jobView cl team { j with frames := [] } = some v → State.jobRun v (v.count + 1) s' j.prog = (s1, i, .all) →
        exec (.jobReplay cl team j.tag ans) s = .next (s1.modJob cl team j.id fun k => { k with prog := i, buf := if i = j.prog then j.buf else [] })) ∧
      (∀ id v x a c w z row0 init fd n k rows more used, j.st = .landed → s.lostWord cl team j = none → j.cmd = some id → s.cmdView j.f = some v → (handleOf j.dst.1).tensor = some x →
        t.arr = some a → c ∈ a.queue → c.id = id → (a.queue.map (·.id)).Nodup → c.op = .follow n w z row0 init fd k →
        let s1 := s.writeRegions cl team j
        v.feedRows s1 x (layOf j.dst.2) [] j.noAlloc = .ok (rows, more, [], used) →
        exec (.cpymFollowOn cl team j.tag) s = .next (s1.modArr cl team fun a => { a with queue := a.queue.map fun y =>
          if y.id = id then { y with op := if w then .wload fd [] rows else .stream z row0 init fd [] rows } else y }))) ∧
   (∀ (s : State) (v : JobView) (i : Nat) (t : Team), s.team? v.cl v.team = some t → Memory.wf t.pad = true → v.x.fmt = v.y.fmt → v.x.kind = .tm → v.y.kind = .tm →
      let u := unitAt v.y v.ly i
      let w := unitAt v.x v.lx u.i
      let apart := fun (a b : Region) => a.base + a.len ≤ b.base ∨ b.base + b.len ≤ a.base
      (∀ s', v.x.fmt.grain ≠ 2 → (unitRegions v.y u).Pairwise apart → s.jobStep v i = .ok s' → ∃ t', s'.team? v.cl v.team = some t' ∧
        ((unitRegions v.y u).flatMap fun r => bytesAt t'.pad r.base r.len) = ((unitRegions v.x w).flatMap fun r => bytesAt t.pad r.base r.len) ∧
        ∀ o, (∀ r ∈ unitRegions v.y u, o < r.base ∨ r.base + r.len ≤ o) → byteAt t'.pad o = byteAt t.pad o) ∧
      ((unitRegions v.x w).all (covered v.team v.j.reads) = false → s.jobStep v i = .error (.fault 0x18 w.addr)))

/-- R431, R432, R442: XFER and XMC whose source can be read send the bytes of each 512-byte block of the target range in increasing order, none for a length
of 0, staged as numbered records under the group with .cg; XGET sends a read of each block and its result waits for every reply. A misaligned address or
length traps Misaligned. R433, R437, R442, R372: XATOM, its arrival form and XPOST send one request whose reply gives the old value or the status; XFENCE
completes as a result that waits for the fibre's open remote stores, transfers and atomics; staged arrivals become records of the group. Model's choices in
it: log entries 18, 25, 39. -/
def Obligations.RemoteInstructions : Prop :=
   (∀ (s : State) (v : View) (mc sw cg arv : Bool) (sp : Space) (a b : BitVec 8) (c : BitVec 6),
      let us := useS a v.g.lanes ++ useS b v.g.lanes ++ pairUses c v
      let t := v.pair c
      let near := v.wideAddr sp a
      let far := ((v.sval b).setWidth 56 : VA).toNat
      let runs := blockRuns far t.len
      let acc := accessOf v.lane0 near t.len 1
      let rs := v.placed s sp .read [acc]
      let r := ((v.cached s sp .read [acc]).throughAll v.agent .home (inRegions v.f.asid (v.localRegion sp near t.len))).loadParts v.agent
        (some .device) ((rs.head?.map (·.parts)).getD [])
      let bytes := r.2.1.flatMap fun x => leBytes 4 x
      let data := fun (i : Nat) => (bytes.drop ((runs.getD i (0, 0)).1 - far)).take (runs.getD i (0, 0)).2
      let va := fun (i : Nat) => BitVec.ofNat 56 (runs.getD i (0, 0)).1
      let arrival := if arv then some t.id else none
      let instr : Instr := if mc then .xmc sw arv sp a b c else .xfer sw cg arv sp a b c
      let plain := fun (u : State) (ids : List Nat) => v.performed sw 8 us
        { s := u.keepSending v none, now := [], held := [], done := 0, out := some { Out.of [] with remote := ids } }
      s.issuing v perLane us → v.fresh → v.begun = none → v.f.xfenced = false → (mc = true → cg = false) →
      (cg = false → ¬(near % 4 = 0 ∧ far % 4 = 0 ∧ t.len % 4 = 0) → exec instr s = .next (s.traps v (v.trapRec .misaligned v.g.lanes 0 0))) ∧
      (near % 4 = 0 → far % 4 = 0 → t.len % 4 = 0 → v.inSegment .rm far t.len = true → v.reaches s sp .read [acc] → r.2.2 = false →
        (∀ u ids, cg = false → r.1.sendEach v t.dev mc r.1.nextId ((upTo runs.length).map fun i =>
            (0, v.request t.asid (va i) (.write (data i)) .device arrival, .nothing)) = some (u, ids) →
          exec instr s = .next (plain u [])) ∧
        (∀ g u ids, cg = true → v.f.cgid ≠ 0 → s.cg? v.f.cgid = some g → g.st = .open_ ∨ g.st = .staging →
          (t.len = 0 ∨ g.dests.length < 64 ∨ ∃ d ∈ g.dests, d.dev = t.dev ∧ d.asid = t.asid) →
          r.1.sendEach v t.dev false r.1.nextId ((upTo runs.length).map fun i => (0, v.request t.asid (va i)
            (.staged g.cgid (s.nextRecord g.cgid t.dev t.asid + i) arrival (data i) 0) .device, .record g.cgid (g.destIndex t.dev t.asid))) = some (u, ids) →
          exec instr s = .next (plain ((upTo runs.length).foldl (fun u i => u.noteRecord g.cgid t.dev t.asid (recordBytes (va i) arrival (data i) 0) false) u)
            []))) ∧
      ((t.len = 0 → runs = []) ∧ (runs.map (·.2)).foldl (· + ·) 0 = t.len ∧
        (∀ x ∈ runs, 0 < x.2 ∧ far ≤ x.1 ∧ x.1 + x.2 ≤ far + t.len ∧ x.1 / 512 = (x.1 + x.2 - 1) / 512)) ∧
      (let here := v.wideAddr sp b
       let there := ((v.sval a).setWidth 56 : VA).toNat
       let runs := blockRuns there t.len
       let acc := accessOf v.lane0 here t.len 1
       let rs := v.placed s sp .write [acc]
       let ps := wordPlaces ((rs.head?.map (·.parts)).getD [])
       (¬(here % 4 = 0 ∧ there % 4 = 0 ∧ t.len % 4 = 0) → exec (.xget sw sp a b c) s = .next (s.traps v (v.trapRec .misaligned v.g.lanes 0 0))) ∧
       (∀ u ids, here % 4 = 0 → there % 4 = 0 → t.len % 4 = 0 → v.inSegment .rm there t.len = true → v.reaches s sp .write [acc] →
         (∀ r ∈ rs, ∀ p ∈ r.parts, s.isTagged p.1 = false) → (∀ q ∈ s.requests, q.f = v.f.ref → (∃ out ws, q.use = .get out ws) → ∃ o ∈ v.f.out, q.id ∈ o.remote) →
           (∀ o ∈ v.f.out, ∀ i ∈ o.remote, i < s.nextId) →
         (v.cached s sp .write [acc]).sendEach v t.dev false (v.cached s sp .write [acc]).nextId ((upTo runs.length).map fun i => (0, v.request t.asid
           (BitVec.ofNat 56 (runs.getD i (0, 0)).1) (.read (runs.getD i (0, 0)).2) .device,
           .get v.f.nextOut ((ps.drop (((runs.getD i (0, 0)).1 - there) / 4)).take ((runs.getD i (0, 0)).2 / 4)))) = some (u, ids) →
         exec (.xget sw sp a b c) s = .next (plain u ids)))) ∧
   (∀ (s : State) (v : View) (sw rel : Bool) (a b : BitVec 8) (c : BitVec 6), v.fresh → v.f.xfenced = false →
      let t := v.f.s.getD c.toNat 0
      let dev : BitVec 16 := t.extractLsb' 0 16
      let asid : BitVec 16 := t.extractLsb' 16 16
      let id : BitVec 8 := (v.sval a).setWidth 8
      let sent := fun (us : List Use) (u : State) (x : Out) => v.performed sw 8 us
        { s := u, now := [], held := [], done := 0, out := some x }
      (rel = false ∨ s.fenceWaits v.f.ref = [] →
        (∀ d op ty u ids,
          let us := xatomUses (.mem d op ty) a b c v
          let va : VA := (v.sval a).setWidth 56
          let n := atomBits ty / 8
          s.issuing v perLane us → v.inSegment .rm va.toNat n = true →
          (va.toNat % n ≠ 0 → exec (.xatom sw false rel (.mem d op ty) a b c) s = .next (s.traps v (v.trapRec .misaligned v.g.lanes 0 0))) ∧
          (va.toNat % n = 0 → s.sendEach v dev false s.nextId [(0, v.request asid va (.atom op ty (BitVec.ofNat 64 (v.atomArg ty ⟨b, true, false⟩ v.lane0))
              (v.f.s.getD d.toNat 0)) .device, .scalar v.f.nextOut d.toNat (if n = 8 then .n64 else .n32))] = some (u, ids) →
            (∀ q ∈ s.requests, q.id < s.nextId) →
            exec (.xatom sw false rel (.mem d op ty) a b c) s = .next (sent us u { Out.of [.s d.toNat 0] with remote := ids }))) ∧
        (∀ u ids, s.issuing v perLane (xatomUses .arv a b c v) →
          s.sendEach v dev false s.nextId [(0, v.request asid 0 (.arrive id (v.sval b)) .device, .nothing)] = some (u, ids) →
          (∀ q ∈ s.requests, q.id < s.nextId) →
          exec (.xatom sw false rel .arv a b c) s = .next (sent (xatomUses .arv a b c v) u { Out.of [] with remote := ids })) ∧
        (∀ g u ids, s.issuing v perLane (xatomUses .arv a b c v) → v.f.cgid ≠ 0 → s.cg? v.f.cgid = some g → g.st = .open_ ∨ g.st = .staging →
          (g.dests.length < 64 ∨ ∃ d ∈ g.dests, d.dev = dev ∧ d.asid = asid) →
          s.sendEach v dev false s.nextId [(0, v.request asid 0 (.staged g.cgid (s.nextRecord g.cgid dev asid) (some id) [] (v.sval b)) .device,
            .record g.cgid (g.destIndex dev asid))] = some (u, ids) → (∀ q ∈ s.requests, q.id < s.nextId) →
          exec (.xatom sw true rel .arv a b c) s = .next (sent (xatomUses .arv a b c v)
            (u.noteRecord g.cgid dev asid (recordBytes 0 (some id) [] (v.sval b)) false) { Out.of [] with remote := ids }))) ∧
      (s.issuing v perLane [] → exec (.xfence sw) s =
        .next ((s.defer v.f { Out.of [] with remote := s.fenceWaits v.f.ref, rfence := true }).retire v sw 8)) ∧
      (∀ (sp : Space) (d : BitVec 6) img s0 u ids,
        let us := useS a v.g.lanes ++ useS b v.g.lanes ++ defS d.toNat v.g.lanes
        s.issuing v perLane us → v.postImage s sp d b .pod true none = .ok (s0, img, none, []) →
        s0.sendEach v ((v.sval a).extractLsb' 0 16) false s0.nextId [(0, v.request v.f.asid 0 (.post ((v.sval a).extractLsb' 16 6) img) .pod,
          .status v.f.nextOut d.toNat)] = some (u, ids) → (∀ q ∈ s0.requests, q.id < s0.nextId) →
        exec (.xpost sw sp d a b) s = .next (sent us u { Out.of [.s d.toNat 0] with remote := ids })))

/-- R421, R434: ARVSET arms the entry for the issuing team, adding what had arrived before or clearing the word; ARVWAIT completes when the entry is armed for
the team and its word has reached the target, and else waits. R421: a counter packet adds to the word of an armed entry, at its scratchpad, and to the spill
of one that is not armed. -/
def Obligations.ArrivalCounters : Prop :=
   (∀ (s : State) (v : View) (sw clr nf : Bool) (a b c : BitVec 8), v.fresh →
      let o := ((v.sval a).setWidth 32 : Word).toNat
      let id : BitVec 8 := (v.sval c).setWidth 8
      let us := useS a v.g.lanes ++ useS b v.g.lanes ++ useS c v.g.lanes
      let s0 := s.withArrival v.f.asid id
      let spill := ((s.arrival? v.f.asid id).map (·.spill)).getD 0
      let x := s.padValue v.f.ref.cl v.f.ref.team o 8
      (s.issuing v perLane us → v.inSegment .tm o 8 = true →
        (o % 8 ≠ 0 → exec (.arvset sw clr a b c) s = .next (s.traps v (v.trapRec .misaligned v.g.lanes 0 0))) ∧
        (o % 8 = 0 → o / 8 ∉ v.tm.padTags → x.2 = false → exec (.arvset sw clr a b c) s = .next (v.performed sw 8 us {
          s := (s0.putPad v.f.ref.cl v.f.ref.team o (leBytes 8 (if clr then 0 else x.1 + spill.toNat))).modArrival v.f.asid id fun e => { e with
            st := .armed, tgt := v.sval b, spill := 0, off := o, kern := v.f.kern, cl := v.f.ref.cl, clu := v.cl.index, rank := v.f.ref.team }
          now := [], held := [], out := some (Out.of []), done := 0 }))) ∧
      (let w : BitVec 8 := (v.sval a).setWidth 8
       s.issuing v perLane (useS a v.g.lanes) →
       (∀ e, s.arrival? v.f.asid w = some e → e.st = .armed → e.spill = 0 → e.cl = v.f.ref.cl → e.rank = v.f.ref.team →
         e.tgt.toNat ≤ (s.padValue e.cl e.rank e.off 8).1 →
         exec (.arvwait sw nf a) s = .next (v.performed sw 8 (useS a v.g.lanes) (.plain (v.acquireAfter nf .device s) [] false))) ∧
       ((∀ e, s.arrival? v.f.asid w = some e → e.st ≠ .unarmed → e.cl = v.f.ref.cl → e.rank = v.f.ref.team →
         e.spill = 0 ∧ (s.padValue e.cl e.rank e.off 8).1 < e.tgt.toNat) →
         exec (.arvwait sw nf a) s = .next (s.waitsMade v (.counter v.f.asid w.toNat nf 0) sw)))) ∧
   (∀ (s : State) (c : Context) (id : BitVec 8) (n : DWord), s.ctx? c.asid = some c → c.ridx.isSome = true →
      (∀ a tm, s.arrival? c.asid id = some a → a.st = .armed → s.team? a.cl a.rank = some tm → Memory.wf tm.pad = true →
        (s.padValue a.cl a.rank a.off 8).2 = false →
        ∃ t, exec (.counterPacketArrive c.asid id n) s = .next t ∧ t.arrivals = s.arrivals ∧
          (t.padValue a.cl a.rank a.off 8).1 = ((s.padValue a.cl a.rank a.off 8).1 + n.toNat) % 2 ^ 64 ∧
          (∀ o, (o < a.off ∨ a.off + 8 ≤ o) → byteAt (t.padOf a.cl a.rank) o = byteAt tm.pad o)) ∧
      (∀ a, s.arrival? c.asid id = some a → a.st ≠ .armed → ∃ t a', exec (.counterPacketArrive c.asid id n) s = .next t ∧
        t.arrival? c.asid id = some a' ∧ a' = { a with spill := a.spill + n } ∧ t.teams = s.teams) ∧
      (s.arrival? c.asid id = none → ∃ t a', exec (.counterPacketArrive c.asid id n) s = .next t ∧ t.arrival? c.asid id = some a' ∧
        a'.st = .unarmed ∧ a'.spill = n ∧ t.teams = s.teams))

/-- R435, R436: COLL whose descriptor and regions are readable sends the words of src to its combining group, after the release of src and res, and keeps the
collective with those words and its places of dst and res; an invalid descriptor traps JobFault with its address. R246, R424, R436: the members' contributions
are combined with the device's own; a collective of one pod ends with that at dst, an acquire of its result regions by the issuing core, and its arrival
counted; of several, the leader exchanges, combines and multicasts what it has received, and another member waits for that. Model's choices in it: log entry
39. -/
def Obligations.Collectives : Prop :=
   (∀ (s : State) (v : View) (sw : Bool) (a : BitVec 8),
      let us := useS a v.g.lanes
      let addr := v.wideAddr .gl a
      s.issuing v perLane us → v.fresh → v.f.xfenced = false → 
      (addr % 128 ≠ 0 → exec (.coll sw a) s = .next (s.traps v (v.trapRec .misaligned v.g.lanes 0 0))) ∧
      (∀ s1 bs, addr % 128 = 0 → v.wideLoad s .gl addr 128 128 none = .ok (s1, bs, none, []) →
        (collOf bs = none → exec (.coll sw a) s = .next (s.traps v (v.trapRec .jobFault v.g.lanes (BitVec.ofNat 64 addr) 0xFF))) ∧
        (∀ d s2 src s3 dst s4 res, collOf bs = some d → v.collRegion s1 .read [] d.src d.size = .ok (s2, src, []) →
          v.collRegion s2 .write [] d.dst d.size = .ok (s3, dst, []) →
          (if d.cmp && s3.leads d then v.collRegion s3 .both [] d.res (4 * d.n) else .ok (s3, [], [])) = .ok (s4, res, []) →
          (∀ p < min 16 (ceilDiv d.size 512), s4.planes.getD p .unavailable = .available ∧ (s4.planePort p).isSome = true) →
          let r := (s4.throughAll v.agent .home (inRegions v.f.asid ([(d.src, d.size)] ++ (if res.isEmpty then [] else [(d.res, 4 * d.n)])))).readWords
            v.agent src
          let place := fun (m : Mapped) => Place.home m.pa m.die m.key m.cp
          r.2.2 = false → exec (.coll sw a) s = .next (v.performed sw 8 us {
            s := ({ r.1 with nextId := r.1.nextId + 1, colls := r.1.colls ++ [{
              id := r.1.nextId, f := v.f.ref, asid := v.f.asid, desc := d, dst := dst.map place, res := res.map place, st := .combine
              src := r.2.1, own := .plain [] }] } : State).say (.coll d.grp r.2.1)
            now := [], held := [], out := some (Out.of []), done := 0 })))) ∧
   (∀ (s : State) (c : Coll), (s.colls.find? fun x => x.id == c.id) = some c →
      (∀ parts : List (List Word), (∀ p ∈ parts, 4 * p.length = c.desc.size) → c.st = .combine →
        let words := combine c.desc ((c.src :: parts).map LeaderData.plain)
        let s1 := s.putPlaces c.asid c.dst words
        (c.desc.np = 1 → exec (.collResultArrive c.id parts) s = .next (s1.endColl c)) ∧
        (c.desc.np ≠ 1 → s1.leads c.desc = true → exec (.collResultArrive c.id parts) s = .next (s1.exchange c words)) ∧
        (c.desc.np ≠ 1 → s1.leads c.desc = false → exec (.collResultArrive c.id parts) s =
          .next (s1.modColl c.id fun c => { c with st := .spread }))) ∧
      (∀ words : List Word, 4 * words.length = c.desc.size → c.st = .spread →
        exec (.collResultArrive c.id [words]) s = .next ((s.putPlaces c.asid c.dst words).endColl c)) ∧
      (∀ data, c.st = .exchange → data.length + 1 = c.desc.np → (∀ d ∈ data, c.desc.fits d = true) →
        exec (.leaderExchangeArrive c.id data) s = .next (((s.putPlaces c.asid c.dst (combine c.desc (c.own :: data))).say
          (.multicast c.desc.grp (combine c.desc (c.own :: data)))).endColl c)) ∧
      (let results := (c.desc.dst, c.desc.size) :: (if c.res = [] then [] else [(c.desc.res, 4 * c.desc.n)])
       ∀ (u : State), (u.fibre? c.f = none → u.endColl c =
          ({ u with colls := u.colls.filter fun x => x.id != c.id } : State).arrive c.asid c.desc.id (BitVec.ofNat 64 c.desc.size)) ∧
        (∀ f, u.fibre? c.f = some f → u.endColl c =
          (let w := u.discard (u.agentOfFibre f) .home (inRegions c.asid results)
           ({ w with colls := w.colls.filter fun x => x.id != c.id } : State).arrive c.asid c.desc.id (BitVec.ofNat 64 c.desc.size)))) ∧
      (c.desc.op = 2 → ∀ xs : List (List Word), combine c.desc (xs.map LeaderData.plain) =
        (upTo c.desc.n).map fun j => (xs.map fun ws => ws.getD j 0).foldl (· + ·) 0))

/-- R445, R450 to R452: CGOPEN makes a group Open under a CGID that no other group of the table has and makes it the fibre's; its join form changes the
fibre's group and answers the one before; CGPREP and CGHOIST begin and wait, CGHOIST of a final group answers its status; CGABORT aborts and is outstanding
until every destination has received the abort, CGQRY reports. In any other state, and without the group that they act on, they trap CommitState. Model's
choices in it: log entry 24. -/
def Obligations.CommitInstructions : Prop :=
  ∀ (s : State) (v : View) (sw : Bool) (d : BitVec 6) (a b : BitVec 8),
    let obj : VA := (v.sval a).setWidth 56
    let id : BitVec 32 := (v.sval a).setWidth 32
    let trap := fun (info : Byte) => .next (s.traps v (v.trapRec .commitState v.g.lanes 0 info))
    let mine := fun (g : CommitGroup) => v.f.cgid ≠ 0 ∧ s.cg? v.f.cgid = some g
    (s.issuing v perLane (useS a v.g.lanes ++ useS b v.g.lanes ++ defS d.toNat v.g.lanes) → obj.toNat % 8 = 0 → v.inSegment .gl obj.toNat 8 = true →
      (v.f.cgid ≠ 0 → exec (.cgopen sw d a b) s = trap 1) ∧
      (v.f.cgid = 0 → 256 ≤ s.cgs.length → exec (.cgopen sw d a b) s = trap 2) ∧
      (v.f.cgid = 0 → s.cgs.length < 256 → ∃ n : BitVec 32, s.cg? n = none ∧ n ≠ 0 ∧ n.extractLsb' 16 16 = s.dev ∧
        let t : State := { s with nextId := s.nextId + 1, cgs := s.cgs ++ [{
          cgid := n, asid := v.f.asid, kern := v.f.kern, obj := obj, val := v.sval b, st := .open_, dests := [], why := 0, failDev := 0
          asked := false, limit := 0 }] }
        exec (.cgopen sw d a b) s = .next (((t.modFibre v.f.ref fun f => { f with cgid := n }).upd v.f (.s d.toNat (n.setWidth 64))).retire v sw 8))) ∧
    (s.issuing v perLane (useS a v.g.lanes ++ defS d.toNat v.g.lanes) →
      (id = 0 ∨ (∃ g, s.cg? id = some g ∧ g.asid = v.f.asid) → exec (.cgopenJoin sw d a) s =
        .next (((s.modFibre v.f.ref fun f => { f with cgid := id }).upd v.f (.s d.toNat (v.f.cgid.setWidth 64))).retire v sw 8)) ∧
      (id ≠ 0 → s.cg? id = none → exec (.cgopenJoin sw d a) s = trap 4) ∧
      (∀ (q : CgQuery) g, (id = 0 ∧ mine g) ∨ (id ≠ 0 ∧ s.cg? id = some g ∧ g.asid = v.f.asid) →
        exec (.cgqry sw q d a) s = .next ((s.upd v.f (.s d.toNat (BitVec.ofNat 64 (match q with
          | .st => g.st.code
          | .ndst => g.dests.length
          | .recs => (g.dests.map (·.recs)).foldl (· + ·) 0
          | .why => g.why.toNat
          | .una => ((g.dests.zip (upTo g.dests.length)).map fun d => if d.1.acked == some true then 0 else 2 ^ d.2).foldl (· + ·) 0)))).retire v sw 8))) ∧
    (s.issuing v perLane (defS d.toNat v.g.lanes) →
      (v.f.cgid = 0 → exec (.cgprep sw d) s = trap 0 ∧ exec (.cghoist sw d) s = trap 0) ∧
      (∀ g, mine g →
        (g.st = .open_ ∨ g.st = .staging → exec (.cgprep sw d) s =
          .next ((s.modCg g.cgid fun g => { g with st := .preparing, limit := (v.f.xretry.extractLsb' 0 4).toNat }).waits v (.commit g.cgid CgSt.preparing.code d.toNat) sw)) ∧
        (g.st = .preparing → exec (.cgprep sw d) s = .next (s.waits v (.commit g.cgid CgSt.preparing.code d.toNat) sw)) ∧
        (g.st = .prepared ∨ g.st = .hoisted ∨ g.st.final = true → exec (.cgprep sw d) s = trap 1) ∧
        (g.st = .prepared → exec (.cghoist sw d) s = .next ((s.hoistGroup g).waits v (.commit g.cgid CgSt.hoisted.code d.toNat) sw)) ∧
        (g.st = .hoisted → exec (.cghoist sw d) s = .next (s.waits v (.commit g.cgid CgSt.hoisted.code d.toNat) sw)) ∧
        (g.st.final = true → exec (.cghoist sw d) s = .next ((s.defer v.f (Out.of [.s d.toNat g.status])).retire v sw 8)) ∧
        (g.st = .open_ ∨ g.st = .staging ∨ g.st = .preparing → exec (.cghoist sw d) s = trap 1))) ∧
    (s.issuing v perLane [] →
      (v.f.cgid = 0 → exec (.cgabort sw) s = trap 0) ∧
      (∀ g, mine g →
        (g.st = .open_ ∨ g.st = .staging ∨ g.st = .prepared → exec (.cgabort sw) s =
          let t := s.abortGroup g 0x07 0
          .next ((t.defer v.f { Out.of [] with remote := (t.aborts.filter fun x => x.cgid == g.cgid).map (·.id) }).retire v sw 8)) ∧
        (g.st.final = true → exec (.cgabort sw) s = .next (s.retire v sw 8)) ∧
        (g.st = .preparing ∨ g.st = .hoisted → exec (.cgabort sw) s = trap 1)))

/-- R444 to R448, R459: at a destination a prepare of a whole group whose records have the count and checksum asked for and whose pages may be written pins
them and is Ready, and one that is not is discarded with its reason, an error in a record counting as an uncorrected soft error; an abort discards, a hoist
applies, a hold that expires without a path discards and else asks, and the answer decides, for a group of the device's own its own table. R445, R446: at the
initiator the group is Prepared when every destination is Ready, an RNR is retried as often as sr.xretry says, and any other answer, the loss of a path or the
window aborts it with its reason; a hoisted group is Applied when all destinations have applied it, and Torn when some have and some are lost. Model's choices
in it: log entry 40. -/
def Obligations.CommitGroupsEnd : Prop :=
   ((∀ (s : State) (sdev : BitVec 16) (cgid : BitVec 32) (asid : BitVec 16) (obj : VA) (n : Nat) (crc : DWord) (c : Context) (g : StagedGroup),
      s.ctx? asid = some c → c.st ≠ .closed →
      (c.ridx = none → exec (.cgPrepareArrive sdev cgid asid obj n crc) s = .next (s.say (.prepared sdev cgid asid .rnr))) ∧
      (c.ridx.isSome = true → s.stagedGroup? cgid asid = some g → g.prepared = false →
      let said := fun (s : State) (r : CgReply) => Host.Outcome.next (s.say (.prepared sdev cgid asid r))
      let gone := fun (why : BitVec 8) => said (s.discardStaged cgid asid) (.notReady why)
      (∀ why, g.failed = some why → exec (.cgPrepareArrive sdev cgid asid obj n crc) s = gone why) ∧
      (g.failed = none →
        (g.recs.length ≠ n → exec (.cgPrepareArrive sdev cgid asid obj n crc) s = gone 0x02) ∧
        (g.recs.length = n → (∃ r ∈ g.recs, r.bad = true) → ∃ t, exec (.cgPrepareArrive sdev cgid asid obj n crc) s = said t (.notReady 0x01) ∧
          { t with life := s.life } = s.discardStaged cgid asid ∧ { t.life with soft := s.life.soft } = s.life ∧
          (let x := (aget s.life.soft (0, .staging)).getD (0, 0)
           aget t.life.soft (0, .staging) = some (x.1, min (x.2 + (g.recs.filter (·.bad)).length) (2 ^ 48 - 1)))) ∧
        (g.recs.length = n → (∀ r ∈ g.recs, r.bad = false) → stagedCrc g.recs ≠ crc → exec (.cgPrepareArrive sdev cgid asid obj n crc) s = gone 0x01) ∧
        (g.recs.length = n → (∀ r ∈ g.recs, r.bad = false) → stagedCrc g.recs = crc →
          ((∃ f ∈ groupFrames g.recs obj, s.writable c f = false) → exec (.cgPrepareArrive sdev cgid asid obj n crc) s = gone 0x04) ∧
          ((∀ f ∈ groupFrames g.recs obj, s.writable c f = true) →
            (16 ≤ (s.staged.filter (·.prepared)).length → exec (.cgPrepareArrive sdev cgid asid obj n crc) s = gone 0x06) ∧
            ((s.staged.filter (·.prepared)).length < 16 → exec (.cgPrepareArrive sdev cgid asid obj n crc) s =
              said (s.modStaged cgid asid fun g => { g with prepared := true, obj := obj, pins := groupFrames g.recs obj }) .ready)))))) ∧
    (∀ (s : State) (cgid : BitVec 32) (asid : BitVec 16),
      exec (.cgAbortArrive cgid asid) s = .next ((s.discardStaged cgid asid).say (.aborted (cgid.extractLsb' 16 16) cgid asid)) ∧
      (s.discardStaged cgid asid).stagedGroup? cgid asid = none ∧
      (∀ x a, ¬(x = cgid ∧ a = asid) → (s.discardStaged cgid asid).stagedGroup? x a = s.stagedGroup? x a) ∧
      (∀ g, s.stagedGroup? cgid asid = some g →
        (g.prepared = true → exec (.cgHoistArrive cgid asid) s = .next ((s.applyStaged g).say (.applied (cgid.extractLsb' 16 16) cgid asid true))) ∧
        (g.prepared = false → exec (.cgHoistArrive cgid asid) s = .next (s.say (.applied (cgid.extractLsb' 16 16) cgid asid false))) ∧
        (s.pathsTo g.sdev = [] → exec (.cgHoldExpire cgid asid) s = .next (s.discardStaged cgid asid)) ∧
        (s.pathsTo g.sdev ≠ [] → g.prepared = true → exec (.cgHoldExpire cgid asid) s =
          .next ((s.modStaged cgid asid fun g => { g with asking := true }).say (.decision g.sdev cgid asid))) ∧
        (g.asking = true →
          let ends := fun (ans : CgAnswer) (hoisted : Bool) => exec (.cgDecisionAnswer cgid asid ans) s =
            .next (if hoisted then (s.applyStaged g).say (.applied g.sdev cgid asid true) else s.discardStaged cgid asid)
          (g.sdev ≠ s.dev → ends .hoisted true ∧ ends .other false) ∧
          (g.sdev = s.dev → ∀ ans, (∀ x, s.cg? g.cgid = some x → x.st = .hoisted → ends ans true) ∧
            ((∀ x, s.cg? g.cgid = some x → x.st ≠ .hoisted) → ends ans false)))) ∧
      (s.stagedGroup? cgid asid = none → exec (.cgHoistArrive cgid asid) s = .next (s.say (.applied (cgid.extractLsb' 16 16) cgid asid false))))) ∧
   (∀ (s : State) (g : CommitGroup) (i : Nat) (d : CgDest), s.cg? g.cgid = some g → g.dests[i]? = some d →
      (g.st = .preparing → g.asked = true →
        exec (.cgPrepareReply g.cgid i .ready) s = .next (s.modCg g.cgid fun g =>
          let g := g.modDest i fun d => { d with ready := true }
          if g.dests.all (·.ready) then { g with st := .prepared } else g) ∧
        (∀ why, exec (.cgPrepareReply g.cgid i (.notReady why)) s = .next (s.abortGroup g why d.dev)) ∧
        (d.tries + 1 < g.limit → exec (.cgPrepareReply g.cgid i .rnr) s = .next
          { s.modCg g.cgid (fun g => g.modDest i fun d => { d with tries := d.tries + 1, retry := some s.nextId }) with nextId := s.nextId + 1 }) ∧
        (g.limit ≤ d.tries + 1 → exec (.cgPrepareReply g.cgid i .rnr) s = .next (s.abortGroup g 0x0A d.dev)) ∧
        (∀ n, s.retryOf n = some (g.cgid, i) → (s.requests.find? fun q => q.id == n) = none → d.dev ≠ s.dev → s.pathsTo d.dev ≠ [] →
          exec (.rnrRetry n) s = .next ((s.modCg g.cgid fun g => g.modDest i fun d => { d with retry := none }).say
            (.prepare d.dev g.cgid d.asid g.obj d.recs (crcEnd d.crc)))) ∧
        exec (.cgPrepareReply g.cgid i .error) s = .next (s.abortGroup g 0x0A d.dev) ∧
        exec (.cgPrepareReply g.cgid i .linkDown) s = .next (s.abortGroup g 0x05 d.dev) ∧
        exec (.cgPrepareReply g.cgid i .remoteReset) s = .next (s.abortGroup g 0x05 d.dev)) ∧
      (g.asked = true → g.st = .preparing ∨ g.st = .prepared → exec (.cgWindowExpire g.cgid) s = .next (s.abortGroup g 0x08 0)) ∧
      (∀ ok, g.st = .hoisted → d.acked = none → ∃ t g', exec (.cgApplyAck g.cgid i ok) s = .next t ∧ t.cg? g.cgid = some g' ∧
        (∃ d', g'.dests[i]? = some d' ∧ d'.acked = some ok) ∧
        (∀ j x, j ≠ i → g.dests[j]? = some x → g'.dests[j]? = some x) ∧
        ((∃ j x, j ≠ i ∧ g.dests[j]? = some x ∧ x.acked = none) → g'.st = .hoisted) ∧
        ((∀ j x, j ≠ i → g.dests[j]? = some x → x.acked = some true) → ok = true → g'.st = .applied ∧ g'.why = 0) ∧
        ((∀ j x, j ≠ i → g.dests[j]? = some x → x.acked ≠ none) → ok = false →
          ((∃ j x, j ≠ i ∧ g.dests[j]? = some x ∧ x.acked = some true) → g'.st = .torn) ∧
          ((∀ j x, j ≠ i → g.dests[j]? = some x → x.acked = some false) → g'.st = .aborted))) ∧
      (∀ why dev, let t := s.abortGroup g why dev
        (∃ g', t.cg? g.cgid = some g' ∧ g'.st = .aborted ∧ g'.why = why ∧ g'.failDev = dev ∧
          g'.status = BitVec.ofNat 64 (2 ^ 63 + why.toNat * 2 ^ 32 + g.dests.length * 2 ^ 16 + dev.toNat))))

/-- R391 to R393: in handler mode and with sysop, SAVECTX stores the words of the fibre block, LOADCTX of a block that the fibre accepts replaces the
registers and rows at once, reserved bits as zero (R9), and the gangs at the next RTT, and TLBINV drops exactly the translations of the context's ASID in its
range on the dies of its scope. An address that is no multiple of 4 KiB traps Misaligned. Model's choices in it: log entries 10, 36. -/
def Obligations.SystemInstructions : Prop :=
  ∀ (s : State) (v : View) (sw dev : Bool) (a : BitVec 8), v.c.sysop = true →
    let us := useS a v.g.lanes
    let addr := v.blockAddr a
    (s.issuing v privileged us → v.fresh → v.inSegment .gl addr 0x9000 = true →
      (addr % 0x1000 ≠ 0 → exec (.savectx sw a) s = .next (s.traps v (v.trapRec .misaligned v.g.lanes 0 0)) ∧
        exec (.loadctx sw a) s = .next (s.traps v (v.trapRec .misaligned v.g.lanes 0 0))) ∧
      (∀ parts used, v.blockPlaces s addr .write none = .ok (parts, [], used) → v.f.out = [] → (∀ p ∈ parts, s.isTagged p.1 = false) →
        let s0 := used.foldl (fun s e => s.keepXlat v.agent e) { s with nextId := s.nextId + 1, snaps := (Config.contextCode s.nextId, v.f.snap) :: s.snaps }
        exec (.savectx sw a) s = .next (v.performed sw 8 us {
          s := (blockWords v.f v.sl (Config.contextCode s.nextId)).foldl (fun s w => match parts[w.1 / 4]? with
            | some p => s.storeParts v.agent none [p] [w.2]
            | none => s) s0
          now := [], held := [], out := some (Out.of []), done := 0 })) ∧
      (∀ parts used, v.blockPlaces s addr .read none = .ok (parts, [], used) → v.f.out = [] →
        let r := (used.foldl (fun s e => s.keepXlat v.agent e) s).loadParts v.agent none parts
        let blk := r.2.1.flatMap fun x => leBytes 4 x
        r.2.2 = false →
        (blockClean blk = true → block32 blk 0x248 = v.f.quota → block32 blk 0x2C0 &&& ~~~v.f.live = 0 →
          exec (.loadctx sw a) s = .next (v.performed sw 8 us (.plain ((r.1.modFibre v.f.ref fun f =>
            { f.loadHead blk with cgid := (snapOf v.f r.1.snaps blk).cgid, loaded := some (snapOf v.f r.1.snaps blk) }).modSlot v.f fun sl => sl.loadRows v.f.quota blk) [] false))) ∧
        (¬(blockClean blk = true ∧ block32 blk 0x248 = v.f.quota ∧ block32 blk 0x2C0 &&& ~~~v.f.live = 0) →
          exec (.loadctx sw a) s = .next (s.traps v (v.trapRec .fibreQuota v.g.lanes 0 0))))) ∧
    (∀ rng : InvRange, s.issuing v privileged (match rng with | .all => [] | .range a b => useS a v.g.lanes ++ useS b v.g.lanes) →
      let lo := fun (x : BitVec 8) => ((v.sval x).setWidth 56 : VA).toNat
      let on := fun (d : Nat) => dev = true ∨ d = v.die
      let hit := fun (e : TlbEntry) => e.asid = v.f.asid ∧ match rng with
        | .all => True
        | .range a b => (v.sval b).toNat ≠ 0 ∧ e.base < lo a + (v.sval b).toNat ∧ lo a < e.base + e.size
      ∃ t : State, exec (.tlbinv sw dev rng) s = .next ((t.defer v.f (Out.of [])).retire v sw 8) ∧
        { t with coreTlb := s.coreTlb, dieTlb := s.dieTlb, walks := s.walks } = s ∧
        (∀ x, x ∈ t.coreTlb ↔ x ∈ s.coreTlb ∧ ¬(on (x.1 / 40) ∧ hit x.2)) ∧
        (∀ x, x ∈ t.dieTlb ↔ x ∈ s.dieTlb ∧ ¬(on x.1 ∧ hit x.2)) ∧
        (∀ x, x ∈ t.walks ↔ x ∈ s.walks ∧ ¬(on x.1 ∧ x.2.asid = v.f.asid))) ∧
    (∀ (f : Fibre) (sl : Slot) (code : BitVec 480) (g : Fibre),
      let blk := headBytes f sl code
      let f' := g.loadHead blk
      blk.length = 4096 ∧ blockClean blk = true ∧ block32 blk 0x248 = f.quota ∧ block32 blk 0x2C0 = f.live ∧
      f'.s = f.s ∧ f'.p = f.p ∧ f'.cb = f.cb ∧ f'.g = f.g ∧ f'.grp = f.grp &&& 0xF ∧ f'.fpm = f.fpm &&& 0x3FF7 ∧ f'.fps = f.fps &&& 0x7F ∧
      f'.le8s = f.le8s &&& 3 ∧ f'.fp4x = f.fp4x &&& 0xFFFF ∧ f'.xretry = writeXretry f.xretry ∧ f'.ecause = f.ecause &&& 0x3FFFF ∧
      f'.emask = f.emask ∧ f'.epc = f.epc &&& 0x00FFFFFFFFFFFFFF ∧ f'.eaddr = f.eaddr ∧ f'.lcd = f.lcd &&& 0xFFFFFF ∧
      (∀ i < 6, (f'.segment i).base = (if i = 2 then 0 else (f.segment i).base) ∧
        (f'.segment i).limit.toNat = min ((f.segment i).limit.toNat % 2 ^ 57) (2 ^ 56)) ∧
      f'.rng = f.rng ∧ (∀ i < 16, (f'.l[i]!).extractLsb' 0 498 = (f.l[i]!).extractLsb' 0 498 ∧ (f'.l[i]!).extractLsb' 498 14 = 0) ∧ f'.h = f.h)

/-- R361, R364, R372, R373: QPUSH to an Active queue of the fibre's context posts the image that it reads after a fence.rel at device scope, and D receives
the status: the producer index before, or why nothing was written. While the fence.rel waits D is pending. A home of the queue that answers with errors gives
a DataError, and a queue that is not the context's traps QueueAccess. Model's choices in it: log entry 26. -/
def Obligations.PostsAndStatus : Prop :=
  ∀ (s : State) (v : View) (sw : Bool) (sp : Space) (d : BitVec 6) (a b : BitVec 8) (s1 : State) (img : List Byte),
    let us := useS a v.g.lanes ++ useS b v.g.lanes ++ defS d.toNat v.g.lanes
    let q := ((v.sval a).setWidth 6).toNat
    let x := s.queue q
    (s.issuing v perLane us → v.fresh →
      (x.st ≠ .disabled → x.st ≠ .draining → x.asid = v.f.asid →
        (v.postImage s sp d b .device true none = .ok (s1, img, none, []) →
          (s1.postLost q img = none → exec (.qpush sw sp d a b) s = .next (v.performed sw 8 us {
            s := (s1.post q img).1, now := [], held := [], out := some (Out.of [.s d.toNat (s1.post q img).2]), done := 0 })) ∧
          (∀ va, s1.postLost q img = some va → exec (.qpush sw sp d a b) s = .next (v.performed sw 8 us {
            s := s1, now := [], held := [], done := 0
            out := some { Out.of [.s d.toNat 0] with err := dataErr ((lanesOf v.g.lanes).map fun l => (l, va)) v.g.lanes } }))) ∧
        (s.releaseWaits v.f .device ≠ [] → v.wideLoad s sp (v.wideAddr sp b) 128 128 none = .ok (s1, img, none, []) →
          exec (.qpush sw sp d a b) s = .next ((v.holdDst s d.toNat).waits v (.released .device) sw) ∧
          ∃ f', (v.holdDst s d.toNat).fibre? v.f.ref = some f' ∧ Reg.s d.toNat ∈ f'.pend)) ∧
      (x.st = .disabled ∨ x.st = .draining ∨ x.asid ≠ v.f.asid → v.wideLoad s sp (v.wideAddr sp b) 128 128 none = .ok (s1, img, none, []) →
        exec (.qpush sw sp d a b) s = .next (s.traps v (v.trapRec .queueAccess v.g.lanes 0 0)))) ∧
    ((packetOf img).kind = 0 → s.post q img = (s, BitVec.ofNat 64 (2 ^ 63 + 3))) ∧
    ((packetOf img).kind ≠ 0 →
      (x.st ≠ .active → s.post q img = (s, BitVec.ofNat 64 (2 ^ 63 + 2))) ∧
      (∀ c p k, x.st = .active → s.ctx? x.asid = some c → s.indices c x = .ok (p, k) →
        (k + 2 ^ x.lsz ≤ p → s.post q img = (s, BitVec.ofNat 64 (2 ^ 63 + 1))) ∧
        (∀ s2 s3, p < k + 2 ^ x.lsz → s.homeWrite c (x.rva.toNat + 128 * (p % 2 ^ x.lsz)) img = .ok s2 → s2.writeIndex c x.pva (p + 1) = .ok s3 →
          s.post q img = (s3.tellWork c, BitVec.ofNat 64 p))))

/-- R36 to R38, R64, R67, R199: the fetch of the gang that issues: a page whose entry is invalid or which is migrating freezes the fibre, with the page in its
report; a page that is not mapped for execution, bytes in error, the length code 11, a word that would cross its 32-byte block and a word that does not decode
raise their traps in this order; the table's row of an unassigned opcode raises IllegalLength or IllegalInstruction. A word of code that no cache holds dirty
is fetched from home. Model's choices in it: log entry 8. -/
def Obligations.FetchTraps : Prop :=
  ∀ (s : State) (v : View), s.view? = some v →
    let stop := fun (code : Trap) (x : DWord) => Except.error (Stop.trap none (v.trapRec code v.g.lanes x 0))
    let left := 32 - v.iss.pc.toNat % 32
    (s.xlatOr v.agent v.c v.f.noFetch v.iss.pc.toNat .exec = .mapping → v.fetch s = stop .mappingError 0) ∧
    (s.xlatOr v.agent v.c v.f.noFetch v.iss.pc.toNat .exec = .permission → v.fetch s = stop .permission 0) ∧
    (s.xlatOr v.agent v.c v.f.noFetch v.iss.pc.toNat .exec = .replay ∨
        (∃ x, s.xlatOr v.agent v.c v.f.noFetch v.iss.pc.toNat .exec = .unmapped x) →
      v.fetch s = .error (.freeze s [v.iss.pc.toNat / 2 ^ 16])) ∧
    (∀ e, s.xlatOr v.agent v.c v.f.noFetch v.iss.pc.toNat .exec = .ok e →
      let m := e.place v.iss.pc.toNat
      let s' := (s.keepXlat v.agent e).modFibre v.f.ref fun f => { f with noFetch := [] }
      let ws := (upTo (ceilDiv left 4)).map fun i => s.codeWord v.agent m (m.pa / 4 + i)
      let bs := ws.flatMap fun w => leBytes 4 w.1.toNat
      let bad := ∃ w ∈ ws, w.2 = true
      (bad → v.fetch s = stop .dataError (v.iss.pc.setWidth 64)) ∧
      (¬bad → (bs.headD 0).extractLsb' 0 2 = 3#2 → v.fetch s = stop .illegalLength 0) ∧
      (∀ len, ¬bad → Len.ofCode ((bs.headD 0).extractLsb' 0 2) = some len →
        (left < len.bytes → v.fetch s = stop .fetchCross 0) ∧
        (∀ i rest, len.bytes ≤ left → decode bs = .ok (i, rest) → v.fetch s = .ok (s', i)) ∧
        (∀ e, len.bytes ≤ left → decode bs = .error e → v.fetch s = stop .illegalInstruction 0))) ∧
    (∀ (m : Mapped) w, (∀ c ∈ s.copies, c.word = w → c.dirty = false) → (s.codeWord v.agent m w).1 = s.homeWordAs m.key w) ∧
    (∀ op code, exec (.unassignedOpcode op code) s =
      .next (s.traps v (v.trapRec (if code = 3#2 then .illegalLength else .illegalInstruction) v.g.lanes 0 0)))

/-- A step whose turn is the issue of a fibre that its quadrant chooses fetches at the fibre's PC and runs what it decodes there: it is exec of that
instruction, in the state in which the quadrant has turned to the fibre and the cycles of the step have passed, followed by what comes about between
instructions. A fetch that meets a replayable fault freezes the fibre, and one that meets a trap takes it; and a step whose turn is an event of the table is
exec of that event. Model's choices in it: log entries 3, 9. -/
def Obligations.StepRunsDecodedInstruction : Prop :=
  (∀ (s : State) (r : FibreRef) (rest : List Turn) (f : Fibre) (v : View) (s' : State) (i : Instr), s.agenda = .issue r :: rest →
    let s0 := ({ s with agenda := rest } : State).pass
    s0.fibre? r = some f → (s0.chosen (s0.quadrantOf f)).map (·.ref) = some r → (s0.turnTo f).view? = some v →
    v.fetch (s0.turnTo f) = .ok (s', i) → step s = finishStep (exec i s')) ∧
  (∀ (s : State) (r : FibreRef) (rest : List Turn) (f : Fibre) (v : View), s.agenda = .issue r :: rest →
    let s0 := ({ s with agenda := rest } : State).pass
    s0.fibre? r = some f → (s0.chosen (s0.quadrantOf f)).map (·.ref) = some r → (s0.turnTo f).view? = some v →
    (∀ s' frames, v.fetch (s0.turnTo f) = .error (.freeze s' frames) →
      step s = finishStep (.next (s'.modFibre r fun f => { f with st := .frozen (.replay frames), age := 0 }))) ∧
    (∀ t, v.fetch (s0.turnTo f) = .error (.trap none t) → step s = finishStep (.next ((s0.turnTo f).traps v t)))) ∧
  (∀ (s : State) (f : Fibre), (s.turnTo f).cur = some { f := f.ref, gang := f.turn, pc := f.nextPc }) ∧
  (∀ (s : State) (e : Instr) (rest : List Turn), s.agenda = .event e :: rest → isWord e = false →
    step s = finishStep (exec e ({ s with agenda := rest } : State).pass)) ∧
  (∀ (s : State) (e : Instr), s.agenda = [] → s.pass.ownEvent = some e → isWord e = false → step s = finishStep (exec e s.pass))

/-- R381, R383, R299, R312, R416, R478: the first trap that a fibre holds is taken at a boundary by the event of its kind and by no other: it leaves the list,
the gang of the turn waits no more, and the trap has the PC that would issue next and, where its record names no lane, every live lane. A parked fibre is at a
boundary when it holds a data error, and at TWALL or TWANY when it holds a job's fault; its FWAIT is to issue again and its counted arrival is kept (the
model's reading, log entry 20). R199, R201: the memory processor's answer makes a frozen fibre ready once every page of the report is resolved, and writes
only invalid entries of the context's tables; R339, R341, R342: a monitor or a poll reads the words of the lanes that are not done again, but for those whose
home answers with errors (R466), and the monitors of the others are free. Model's choices in it: log entries 12, 31. -/
def Obligations.FibreEventsComplete : Prop :=
  (∀ (s : State) (f f1 : Fibre) (h : HeldTrap) (rest : List HeldTrap), s.fibre? f.ref = some f → f.held = h :: rest → f.taking = none → f.hmode = false →
    s.issues f.ref.cl = true → (∀ x ∈ f.sending, f.turnMidway x = false) →
    (f.st = .run ∨ ((∃ x ∈ f.held, x.kind = .job) ∧ f.waitsOnTags = true) ∨
      ((∃ x ∈ f.held, x.kind = .data) ∧ f.live ≠ 0 ∧ ∃ p, f.st = .parked p ∧ p ≠ .groupExit)) →
    let s1 := (s.modFibre f.ref Fibre.trapTurn).unpark f.ref
    s1.fibre? f.ref = some f1 →
    let t := (s1.modFibre f.ref fun f => { f.closeWait f.turn with
        held := rest, st := .run
        gangs := f.gangs.map fun (g : Gang) => if g.id = f.turn then { g with st := .run } else g }).takeTrap f.ref f1.turn
      { h.rcd with epc := f1.nextPc, emask := if h.rcd.emask = 0 then f1.live else h.rcd.emask }
    exec (.asyncDataError f.ref) s = .next (if h.kind = .data then t else s) ∧
    exec (.matrixDataError f.ref) s = .next (if h.kind = .matrix then t else s) ∧
    exec (.jobFaultSignal f.ref) s = .next (if h.kind = .job then t else s) ∧
    exec (.remoteErrorTrap f.ref) s = .next (if h.kind = .remote then t else s)) ∧
  (∀ (s : State) (f : Fibre) (g : Gang), s.fibre? f.ref = some f → f.gangs = [g] → f.turn = g.id →
    (f.st = .run → s.unpark f.ref = s) ∧
    (∀ fl n, f.st = .parked (.flag fl n) → ∃ f1, (s.unpark f.ref).fibre? f.ref = some f1 ∧ f1.gangs = [{ g with pc := g.pc - 8 }] ∧
      ∀ sl, s.slot? f = some sl → ∃ sl1, (s.unpark f.ref).slot? f = some sl1 ∧ sl1.flags = sl.flags ∧ ∀ q, q ∈ sl1.queue ↔ q ∈ sl.queue ∧ q.2.1 ≠ f.pos) ∧
    (∀ id ph nf len, f.st = .parked .waits → g.st = .wait (.group id ph nf len) → ∃ f1, (s.unpark f.ref).fibre? f.ref = some f1 ∧
      f1.gangs = [g] ∧ f1.aside = some (g.pc, g.st) ∧ (s.unpark f.ref).monitors = s.monitors.filter fun m => m.owner != .gang f.ref g.id)) ∧
  (∀ (s : State) (f : Fibre) (fr : List Nat) (c : Context), s.fibre? f.ref = some f → f.st = .frozen (.replay fr) → s.portRuns 0 = true →
    s.ctx? f.asid = some c →
    let die := (s.agentOf f.ref.cl f.ref.team).die
    (∀ ws, exec (.faultServiced f.ref (.serviced ws)) s = .next (match s.tableWrites c ws with
      | some t => if t.answers die c fr [] then t.modFibre f.ref fun f => { f with st := .run } else s
      | none => s)) ∧
    (∀ w t, s.tableWrite c w = some t → (s.home64 w.1).getLsbD 0 = false ∧ w.2.getLsbD 0 = true ∧
      ∃ x ∈ s.tablesOf 5 1 c.ptroot, x.2 ≤ w.1 ∧ w.1 < x.2 + tableAlign x.1) ∧
    (∀ no, let es := s.emptyEntries die c no
      exec (.faultServiced f.ref (.noAllocation no)) s = .next (if s.answers die c fr no then s.modFibre f.ref fun f => { f with
        st := .run, noFetch := es.foldl addOnce f.noFetch
        replay := f.replay.map fun x => if x.gang = f.turn then { x with noAlloc := es.foldl addOnce x.noAlloc } else x } else s))) ∧
  (∀ (s : State) (f : Fibre) (g : Gang) cc ty sc aq d left vals armed dead kills, s.fibre? f.ref = some f → (f.gangs.find? fun x => x.id == g.id) = some g →
    g.st = .wait (.cmp cc ty sc aq d left vals armed dead kills) →
    let die := s.waitDie f sc
    let n := if ty.is64 then 8 else 4
    let there := left.filter fun x => !s.peekGone x.2.2.1 die
    let s1 := s.syncWords (s.agentOfFibre f) die n there
    let value := fun (x : Nat × VA × Place × DWord) => BitVec.ofNat 64 (s1.peek x.2.2.1 die n)
    let met := fun (x : Nat × VA × Place × DWord) => (there.map (·.1)).contains x.1 && cc.holds (asInt ty (value x)) (asInt ty x.2.2.2)
    let left' := left.filter fun x => !met x
    let vals' := vals ++ (left.filter met).map fun x => (x.1, value x)
    let t := if left' = [] then (((s1.disarm f.ref g.id).modSlot f fun sl => kills.foldl Slot.kill sl).endWait f.ref g.id
        (cmpUpds f ty d vals') (if aq then some sc else none)).orFlags f (if dead then 0x40 else 0) 0
      else (s1.freeMonitors f.ref g.id left').modFibre f.ref fun f => f.modGang g.id fun (x : Gang) =>
        { x with st := .wait (.cmp cc ty sc aq d left' vals' armed dead kills) }
    s1.waitError die ty there = none → s.isOut f.ref = false → s.issues f.ref.cl = true →
    ((∃ m ∈ s.monitors, m.owner = .gang f.ref g.id) → exec (.monitorFire f.ref g.id) s = .next t) ∧
    ((∃ x ∈ left, x.1 ∉ armed) → exec (.monitorPoll f.ref g.id) s = .next t)) ∧
  (∀ (s : State) (r : FibreRef) (g : Nat), (∃ m ∈ s.monitors, m.owner = .gang r g) → s.isOut r = true →
    ∃ t, exec (.monitorFire r g) s = .next t ∧ (∀ c ∈ t.clusters, c.id = r.cl → c.woken = true) ∧ t.fibres = s.fibres)

/-- R362, R365, R366, R479: the producer word is checked and a waiting context's host told; the head of an Active queue of a context that admits work is taken
when every dependence has been observed and the order bit allows: it leaves the ring and becomes a kernel that loads, or an empty packet whose object is
released, at once or once its page can be accessed. A queue that goes to Error keeps its monitors. The memory processor's answer, which it gives while port
die 0 runs, serves the queue's releases that wait. R346, R349, R350, R354, R357: a launch whose record and arrays have been read is Dispatching, or Ending
without a cluster, or has failed with its reason and its object released, at once or when the object's page can be accessed (R479); what has been read when a
page makes it wait is kept and not read again; a kernel that ends writes through and releases its object. Model's choices in it: log entries 37, 38. -/
def Obligations.KernelsLoadAndRetire : Prop :=
   (∀ (s : State) (q : Nat) (noAlloc : List Nat) (c : Context) (p k : Nat),
      (let x := s.queue q
       x.st = .active → s.ctx? x.asid = some c → s.indices c x = .ok (p, k) →
       (p < k ∨ k + 2 ^ x.lsz < p → exec (.queueProducerWrite q) s = .next ((s.modQueue q fun x => { x with st := .error }).note (.queueError q p k))) ∧
       (k ≤ p → p ≤ k + 2 ^ x.lsz → exec (.queueProducerWrite q) s = .next ((if k < p then s.tellWork c else s).watch q))) ∧
      (let no := if s.portRuns 0 = true then noAlloc else []
       let s0 := if no = [] then s else s.retryIf no fun r => r.owner.any fun k => k.q == q
       let x := s0.queue q
       let slot := x.rva.toNat + 128 * (k % 2 ^ x.lsz)
       x.st = .active → s0.ctx? x.asid = some c → s0.indices c x = .ok (p, k) →
       (p ≤ k ∨ k + 2 ^ x.lsz < p → exec (.packetTake q noAlloc) s = .next s0) ∧
       (k < p → p ≤ k + 2 ^ x.lsz → c.st = .resident ∨ c.st = .running → ∀ b, s0.homeRead c [] slot 128 = .ok b →
         let pkt := packetOf b
         let failed := (s0.modQueue q fun x => { x with st := .error }).note (.packetError q k)
         (pkt.kind = 0 → exec (.packetTake q noAlloc) s = .next s0) ∧
         (pkt.kind ≠ 0 → packetBad b = true → exec (.packetTake q noAlloc) s = .next failed) ∧
         (∀ met, pkt.kind ≠ 0 → packetBad b = false → s0.observe c no pkt x.met = .ok met →
           let s1 := s0.modQueue q fun x => { x with met := met }
           ((∃ j < pkt.nd, j ∉ met) ∨ (pkt.ord = true ∧ s0.queueBusy q = true) → exec (.packetTake q noAlloc) s = .next (s1.watch q)) ∧
           (∀ s2, (∀ j < pkt.nd, j ∈ met) → (pkt.ord = true → s0.queueBusy q = false) → s1.leaveRing c x slot k pkt.hdr = .ok s2 →
             let s3 := s2.modQueue q fun x => { x with met := [] }
             (pkt.kind = 1 → exec (.packetTake q noAlloc) s = .next (({ s3 with
               nextId := s3.nextId + 1, kernels := s3.kernels ++ [{
                 ref := ⟨q, k, s0.nextId⟩, asid := x.asid, cls := max pkt.cls x.cap, pkt := pkt, rcd := none, st := .loading, left := [], cores := []
                 seen := [], groups := [], order := s3.nextId, overtaken := [], reads := [] }] } : State).watch q)) ∧
             (pkt.kind = 2 → exec (.packetTake q noAlloc) s = .next ((s3.releaseLater no (pkt.release x.asid ⟨q, k, s0.nextId⟩ false)).watch q))))))) ∧
   (∀ (s : State) (x : Kernel) (c : Context) (noAlloc : List Nat), s.kernel? x.ref = some x → s.ctx? x.asid = some c →
      let no := if s.portRuns 0 = true then noAlloc else []
      (x.st = .loading →
        (∀ raw rs, s.readLaunch c no x.pkt.recd.toNat x.reads = .ok raw rs → launchReason raw x.pkt.args = none →
          let left := ((recRanges raw.recd).zip (upTo 4)).filterMap fun r => if r.1.2 = 0 then none else some (r.2, r.1.1, r.1.2)
          exec (.launchLoadComplete x.ref noAlloc) s = .next (s.modKernel x.ref fun k => { k with
            rcd := some (launchOf raw k.pkt.args), left := left, groups := groupTable raw, reads := [], st := if left = [] then .ending else .dispatching })) ∧
        (∀ reason, (∃ raw rs, s.readLaunch c no x.pkt.recd.toNat x.reads = .ok raw rs ∧ launchReason raw x.pkt.args = some reason) ∨
            (∃ pa rs, s.readLaunch c no x.pkt.recd.toNat x.reads = .error (.bad pa) rs ∧ reason = 0x01) →
          exec (.launchLoadComplete x.ref noAlloc) s = .next (((s.modKernel x.ref fun k => { k with st := .failed }).note
            (.launchFailed x.ref reason)).releaseLater no (x.pkt.release x.asid x.ref true))) ∧
        (∀ fr rs, s.readLaunch c no x.pkt.recd.toNat x.reads = .error (.wait fr) rs →
          exec (.launchLoadComplete x.ref noAlloc) s = .next (s.modKernel x.ref fun k => { k with reads := rs }))) ∧
      (∀ va n bs, aget x.reads (va, n) = some bs → s.runOnce c no va n x.reads = .ok bs x.reads) ∧
      (x.st = .ending → ∀ t,
        (x.cores.foldl (fun s core => s.throughAll ⟨core, core / 40⟩ .home fun _ => true) s).release no (x.pkt.release x.asid x.ref false) = .ok t →
        exec (.kernelRetire x.ref noAlloc) s = .next (((t.modKernel x.ref fun x => { x with st := .retired, groups := [] }).abandonGroups
          fun g => g.kern == x.ref).settleQueue x.ref.q) ∧
        (∃ u, exec (.kernelRetire x.ref noAlloc) s = .next u ∧ ∀ y, u.kernel? x.ref = some y → y.st = .retired)) ∧
      (∀ (m : Mapped) (v : DWord) (add : Bool) (obj : DWord) (o : Option KernelRef), obj ≠ 0 → s.homePlace c noAlloc obj.toNat .write = .ok m →
        s.gone (some m.die) m.pa = false → (add = true → s.badRun m 8 = false) →
        s.release noAlloc { asid := x.asid, obj := obj, val := v, add := add, owner := o } =
          .ok (s.putHome64 m (if add then BitVec.ofNat 64 (s.homeNat m.key m.pa 8) + v else v))) ∧
      (∀ r u, s.release noAlloc r = .ok u → s.releaseLater noAlloc r = u) ∧
      (∀ r e, s.release noAlloc r = .error e → s.releaseLater noAlloc r = { s with releases := s.releases ++ [r] }))

/-- R348, R352, R353: a cluster that fits and that nothing ahead of it holds back is placed: its teams have the cores named by rank and empty scratchpads, and
its fibres start at the entry with every lane live and the registers of R353. R355, R358, R359, R368, R369, R421: a cluster with a reason to be pre-empted
gives up issuing; its save keeps every register, row and scratchpad and returns its slots; a resumption puts its teams on the cores named and makes it run; a
cluster all of whose fibres have long been parked is idle. Model's choices in it: log entries 2, 11, 37. -/
def Obligations.ClustersRunAndStop : Prop :=
   (∀ (s : State) (x : Kernel) (r : Launch) (die clu n : Nat) (cores : List Nat) (fit : List (Nat × List Nat)),
      s.kernel? x.ref = some x → x.rcd = some r → (x.left.find? fun y => y.2.1 == clu && y.2.2 != 0) = some (die, clu, n) →
      let cand : Candidate := { k := x.ref, cls := x.cls, order := x.order, index := clu, saved := none }
      s.fitsCores r cores = some fit → cand ∈ s.candidates die → s.mayPlace die cand = true → cores ∈ s.placesOn r die →
      ∃ t, exec (.clusterPlace x.ref clu cores) s = .next t ∧ t.nextId = s.nextId + 1 ∧
        (∃ y ∈ t.clusters, y.id = s.nextId ∧ y.kern = x.ref ∧ y.index = clu ∧ y.die = die ∧ y.shape = r.shape ∧ y.st = .running) ∧
        (∀ q < cores.length, ∃ y ∈ t.teams, y.cl = s.nextId ∧ y.rank = q ∧ cores[q]? = some y.core ∧ y.k = r.k ∧ y.pad = [] ∧ y.padTags = [] ∧
          y.pats = r.pats ∧ y.tags = 0 ∧ y.jobs = [] ∧ (y.arr.isSome = r.arr)) ∧
        (∀ q < cores.length, ∀ f < r.n, ∃ y ∈ t.fibres, y.ref = ⟨s.nextId, q, f⟩ ∧ y.asid = x.asid ∧ y.kern = x.ref ∧ y.pos = f % r.m ∧ y.st = .run ∧
          y.live = BitVec.allOnes 32 ∧ y.gangs = [{ id := 0, lanes := BitVec.allOnes 32, pc := r.entry, st := .run, count := 0 }] ∧
          (∀ i < 64, y.s[i]! = 0) ∧ (∀ i < 7, y.p[i]! = 0) ∧ y.l = r.l ∧ y.h = r.h ∧ (∀ i < 8, y.cb[i]! = 0) ∧ y.quota = quotaAt r (f % r.m) ∧
          y.fpm = r.fpm ∧ y.fps = 0 ∧ y.le8s = 0 ∧ y.fp4x = 0 ∧ y.lcd = 0 ∧ y.xretry = r.xretry.setWidth 32 ∧ y.ecause = 0 ∧ y.epc = 0 ∧
          y.eaddr = 0 ∧ y.emask = 0 ∧ y.cgid = 0 ∧ y.hmode = false ∧ y.out = [] ∧ y.pend = [] ∧ y.segment 3 = r.glob ∧ y.segment 4 = r.cons ∧
          y.segment 5 = r.rem ∧ (y.segment 1).limit = BitVec.ofNat 64 (r.k * 48 * 1024) ∧ (y.segment 2).limit = (y.segment 1).limit ∧
          ∀ l < 32, y.rng.at l = r.seed ^^^ BitVec.ofNat 32 (0x9E3779B9 * ((((clu * 4 + q) * 64 + f) * 32 + l) % 2 ^ 32 + 1))) ∧
        (∀ y ∈ s.fibres, y ∈ t.fibres)) ∧
   (∀ (s : State) (c : Cluster), s.cluster? c.id = some c →
      (∀ why run, c.st = .running → (s.dies.getD c.die Die.reset).halted = false → s.mayPreempt c why = true → s.runFor c = some run →
        exec (.preemptRequest c.id why) s = .next (s.modCluster c.id fun c => { c with
          st := .preempting, gran := some run, dir := ((s.kernelOf c).map fun k => s.freeEntry k.asid).getD 0 })) ∧
      (c.st = .running → (∃ f ∈ s.fibres, f.ref.cl = c.id ∧ f.st ≠ .exited) → (∀ f ∈ s.fibres, f.ref.cl = c.id → f.st ≠ .exited → f.parkedLong = true) →
        exec (.parkedClusterTimeout c.id) s = .next (s.modCluster c.id fun c => { c with idle := true })) ∧
      (c.st = .preempting → s.canSave c.id = true → ∃ t, exec (.clusterSaveComplete c.id) s = .next t ∧
        (∀ y ∈ t.clusters, y.id = c.id → y.st = .saved ∧ y.woken = false ∧ y.idle = false) ∧
        t.teams = s.teams.map (fun x => if x.cl = c.id then { x with arr := x.arr.map fun a => { a with
          queue := a.queue.map fun z => { z with stale := true } } } else x) ∧
        t.fibres = s.fibres.map (fun f => if f.ref.cl = c.id ∧ f.st = .parked .results ∧ f.live ≠ 0 ∧ (∀ o ∈ f.out, o.waiter = none) then f.ready else f) ∧
        t.slots = s.slots.map (fun x => if x.cl = c.id then { x with holder := none } else x) ∧
        t.arrivals = s.arrivals.map (fun a => if a.cl = c.id ∧ a.st ≠ .unarmed then { a with st := .saved } else a)) ∧
      (∀ k r cores fit, s.kernelOf c = some k → k.rcd = some r → s.fitsCores r cores = some fit →
        let cand : Candidate := { k := k.ref, cls := k.cls, order := k.order, index := c.index, saved := some c.id }
        cand ∈ s.candidates c.die → s.mayPlace c.die cand = true → cores ∈ s.placesOn r c.die →
        ∃ t, exec (.clusterResume c.id cores) s = .next t ∧ (∀ y ∈ t.clusters, y.id = c.id → y.st = .running ∧ y.gran = none) ∧
          (∀ q tm, q < cores.length → s.team? c.id q = some tm → ∃ tm', t.team? c.id q = some tm' ∧ cores[q]? = some tm'.core ∧ tm'.tags = tm.tags ∧
            tm'.padTags = tm.padTags ∧ (s.arrivals = [] → tm'.pad = tm.pad)) ∧
          (∀ a ∈ t.arrivals, a.cl = c.id → a.st ≠ .saved)))

/-- R371, R412, R414, R420: the ingress answers a request under another incarnation with its error and one of a device without an entry with a denial, one to
a context that is not here with its error, one to a context that is not resident with RNR; else it performs a read, a write, an atomic or a record at its
home. R418, R422: a sequenced request whose reply is kept for its source and group is answered with that reply and not performed again. R413: a request of the
device's own waits for the earlier ones of its fibre to the block. R27, R220, R226, R236, R466: a read, a write or an atomic does nothing at a home that is
gone or, for a write or an atomic, on a tagged word; else it reads, writes, or writes the new value and answers the old. Of a request of the device's own the
issuer's dirty words are written through first, and its copies then hold what home holds. R414 to R416, R420, R433: the final reply to an open request of a
fibre ends it: the data reach their destination, an error becomes a held trap of the fibre or the failure of its access, and RNR puts the request back until
the retry limit; R415: the retry sends it again, or ends it with LinkDown; R422: a member of a multicast group that answered RNR is retried by unicast under
the number of the packet, the first error of a member is kept, and with the last member's reply the packet ends, by that error if there is one. Model's
choices in it: log entries 25, 39. -/
def Obligations.RequestsAndReplies : Prop :=
   ((∀ (s : State) (r : RemReq) (e : Acl) (c : Context),
      let arrive : Instr := match r.op with | .post .. => .xpostArrive r | .staged .. => .cgRecordArrive r | _ => .remoteRequestArrive r
      (s.outOfOrder r = true → exec arrive s = .next s) ∧
      (s.outOfOrder r = false →
      (∀ x, s.namedInc r = some x → x ≠ s.inc → exec arrive s = .next (s.replyTo r .errInc)) ∧
      ((∀ x, s.namedInc r = some x → x = s.inc) →
        (s.entryFor r.sdev r.sasid = none → exec arrive s = .next (s.replyTo r .errDeny)) ∧
        (s.entryFor r.sdev r.sasid = some e →
          let s0 := s.freeReplies r
          (∀ n rep, r.seq = some n → aget s0.replies ((r.grp, r.sdev), n) = some rep → exec arrive s = .next (s0.replyTo r rep)) ∧
          ((∀ n, r.seq = some n → aget s0.replies ((r.grp, r.sdev), n) = none) →
            (∀ q img, r.op = .post q img → let p := s0.servePost e q img
              exec arrive s = .next ((p.1.keepReply r p.2).replyTo r p.2)) ∧
            ((∀ q img, r.op ≠ .post q img) →
              (s.ctx? r.asid = none → exec arrive s = .next (s0.replyTo r .errAsid)) ∧
              (s.ctx? r.asid = some c → c.st ≠ .closed → c.ridx = none → exec arrive s = .next (s0.replyTo r .rnr)) ∧
              (s.ctx? r.asid = some c → c.st ≠ .closed → c.ridx.isSome = true →
                (∀ id n, r.op = .arrive id n → exec arrive s = .next (((s0.arrive r.asid id n).keepReply r (.ack [])).replyTo r (.ack []))) ∧
                (∀ cgid q arv inc, r.op = .staged cgid q arv [] inc → exec arrive s =
                  .next (((s0.stage r.sdev cgid r.asid ⟨q, r.va, arv, [], inc, false⟩).keepReply r (.ack [])).replyTo r (.ack []))) ∧
                (∀ m, s0.reach c r.va (needOf r.op) = .here m →
                  (∀ cgid q arv b bs inc, r.op = .staged cgid q arv (b :: bs) inc → exec arrive s =
                    .next (((s0.stage r.sdev cgid r.asid ⟨q, r.va, arv, b :: bs, inc, false⟩).keepReply r (.ack [])).replyTo r (.ack []))) ∧
                  ((∃ n, r.op = .read n) ∨ (∃ bs, r.op = .write bs) ∨ (∃ op ty b d, r.op = .atom op ty b d) →
                    let p := s0.performFor (s0.issuerOf r) m r.op
                    let t := match r.arv, p.2, r.op with
                      | some id, .ack _, .write bs => p.1.arrive r.asid id (BitVec.ofNat 64 bs.length)
                      | _, _, _ => p.1
                    exec arrive s = .next ((t.keepReply r p.2).replyTo r p.2))))))))) ∧
      (∀ bs, r.op = .write bs → exec (.multicastPacketArrive r) s = exec (.remoteRequestArrive r) s)) ∧
    (∀ (s : State) (m : Mapped) (op : RemOp),
       (s.gone (some m.die) m.pa = true → s.perform m op = (s, .errData)) ∧
       (s.gone (some m.die) m.pa = false →
         (∀ n t bs, op = .read n → s.readRange m n = (t, bs, false) → s.perform m op = (t, .ack bs)) ∧
         (∀ n t bs, op = .read n → s.readRange m n = (t, bs, true) → s.perform m op = (t, .errData)) ∧
         (∀ bs, op = .write bs → s.perform m op = if s.tagsIn m.pa bs.length then (s, .errTag) else (s.writeRange m bs, .ack [])) ∧
         (∀ o ty b d t bs, op = .atom o ty b d → s.tagsIn m.pa (atomBits ty / 8) = false →
           (s.forBase .home m).readRange m (atomBits ty / 8) = (t, bs, false) →
           s.perform m op = (t.writeRange m (leBytes (atomBits ty / 8) (atomNew o ty (leNat bs) b.toNat d.toNat)), .ack bs))) ∧
       (m.cp = false → ∀ n, s.readRange m n = (s, s.homeBytes m.key m.pa n, s.poisonIn m.pa n || s.gone (some m.die) m.pa)) ∧
       s.performFor none m op = s.perform m op ∧
       (∀ a, let ws := rangeWords m.pa (reachOf op)
         let p := (ws.foldl (fun (s : State) w => s.through a .home w) s).perform m op
         s.performFor (some a) m op =
           (ws.foldl (fun (s : State) w => s.settleCopies a .home w (s.homeWordAs m.key w) (s.poison.contains w)) p.1, p.2)))) ∧
   (∀ (s : State) (q : Request) (src : Replier), (s.requests.find? fun x => x.id == q.id) = some q → q.backoff = false → q.path ≠ .self →
      let s1 := match q.path.port with | some n => s.endBurst n | none => s
      let s2 := s1.learn (q.replier src.dev) src.inc
      let s3 := s2.dropRequest q.id
      (q.mc = false →
        (∀ out n ty data, q.use = .scalar out n ty → exec (.remoteReply q.id (.ack data) src) s =
          .next ((s3.modUpds q.f out fun _ => [.s n (extend64 ty (replyParts ty.bytes data))]).laneEnds q)) ∧
        (∀ data, q.use = .nothing → exec (.remoteReply q.id (.ack data) src) s = .next (s3.laneEnds q)) ∧
        (∀ out n x, q.use = .status out n → exec (.remoteReply q.id (.status x) src) s =
          .next ((s3.modUpds q.f out fun _ => [.s n x]).answered q.f q.id [])) ∧
        (∀ out ps data, q.use = .get out ps → exec (.remoteReply q.id (.ack data) src) s =
          .next ((s3.putPlaces q.req.sasid ps ((replyParts 4 data).map fun x => BitVec.ofNat 32 x)).answered q.f q.id [])) ∧
        (q.tries + 1 < q.limit → exec (.remoteReply q.id .rnr src) s =
          .next (s2.modRequest q.id fun q => { q with tries := q.tries + 1, backoff := true, answer := none })) ∧
        (q.limit ≤ q.tries + 1 → exec (.remoteReply q.id .rnr src) s = .next (s2.failRequest q .remoteFault 0)) ∧
        exec (.remoteReply q.id .errAsid src) s = .next (s2.failRequest q .remoteFault 1) ∧
        exec (.remoteReply q.id .errTag src) s = .next (s2.failRequest q .remoteFault 1) ∧
        exec (.remoteReply q.id .errData src) s = .next (s2.failRequest q .remoteFault 1) ∧
        exec (.remoteReply q.id .errInc src) s = .next ((s2.failRequest q .remoteReset 0).forget q.dst) ∧
        exec (.remoteReply q.id .linkDown src) s = .next (s1.failRequest q .linkDown 0)) ∧
      (q.mc = true →
        let ended := fun (t : State) => match (t.requests.find? fun x => x.id == q.id).bind (·.broken) with
          | some e => .next (t.failRequest q e.1 e.2)
          | none => t.deliver q [] 0
        let goes := fun (t : State) => if src.last then ended t else .next t
        let kept := fun (code : Trap) (info : Byte) => fun (x : Request) =>
          if x.id = q.id then { x with broken := match x.broken with | some e => some e | none => some (code, info) } else x
        (∀ data, exec (.remoteReply q.id (.ack data) src) s = goes s2) ∧
        (q.tries + 1 < q.limit → exec (.remoteReply q.id .rnr src) s = goes (s2.retryMember q src.dev)) ∧
        (q.limit ≤ q.tries + 1 → exec (.remoteReply q.id .rnr src) s = goes { s2 with requests := s2.requests.map (kept .remoteFault 0) }) ∧
        (∀ rep, rep = .errAsid ∨ rep = .errDeny ∨ rep = .errTag ∨ rep = .errData →
          exec (.remoteReply q.id rep src) s = goes { s2 with requests := s2.requests.map (kept .remoteFault 1) }) ∧
        exec (.remoteReply q.id .errInc src) s =
          goes (({ s2 with requests := s2.requests.map (kept .remoteReset 0) } : State).forget src.dev) ∧
        exec (.remoteReply q.id .linkDown src) s = ended { s1 with requests := s1.requests.map (kept .linkDown 0) } ∧
        (∃ r, (s.retryMember q src.dev).requests = s.requests ++ [r] ∧ r.req = q.req ∧ r.use = q.use ∧ r.dst = src.dev ∧ r.mc = false ∧ r.backoff = true ∧
          r.id = s.nextId)) ∧
      (∀ (r : Request), (s.requests.find? fun x => x.id == r.id) = some r → r.backoff = true → s.behind r = false →
        (∀ p, s.wayAgain r = some p → exec (.rnrRetry r.id) s = .next (if s.roomOn p r.req.op.bytes then
          (s.framed p r.req.op.bytes).modRequest r.id fun q => { q with path := p, backoff := false, answer := none } else s)) ∧
        (s.wayAgain r = none → exec (.rnrRetry r.id) s = .next (s.failRequest r .linkDown 0))) ∧
      (∀ (code : Trap) (info : Byte) (f : Fibre), s.fibre? q.f = some f → f.st ≠ .exited → f.live ≠ 0 → q.use = .nothing → s.accessOf q = none →
        ∃ f', (s.failRequest q code info).fibre? q.f = some f' ∧ (s.failRequest q code info).requests = s.requests.filter (fun x => x.id != q.id) ∧
          f'.held = f.held ++ [⟨.remote, {
            code := code, info := info, rp := false, asy := true, epc := 0, eaddr := q.req.va.setWidth 64, emask := q.lanes }⟩]))

/-- R408 to R411, R423, R425 to R427, R470: the events of ports and planes and the commands over them. Model's choices in it: log entries 18, 42. -/
def Obligations.LinkEventsComplete : Prop :=
  ∀ (s : State) (n : Nat), n < 40 →
    let p := s.port n
    let live := p.st = .up ∨ p.st = .degraded
    (∀ lanes far inc st, trainedSt n lanes = some st → (p.far = far → p.farInc = inc) →
      (p.st = .training → s.farWrong n far = false → ∃ t, exec (.portTrained n lanes far inc) s = .next t ∧
        t.port n = { p with st := st, changes := p.changes + 1, lanes := lanes, replays := 0, far := far, farInc := inc
                            key := if n < 32 then p.key else p.key + 1, sent := if n < 32 then p.sent else 0
                            rekey := if n < 32 then p.rekey else false }) ∧
      (p.st = .training → s.farWrong n far = true → exec (.portTrained n lanes far inc) s = .next ((s.goDown n).note (.portRefused n))) ∧
      (p.st = .retraining → ∃ t, exec (.portTrained n lanes far inc) s = .next t ∧
        t.port n = { p with st := st, changes := p.changes + 1, lanes := lanes, replays := 0, far := far, farInc := inc })) ∧
    (p.st = .training ∨ p.st = .retraining → exec (.portTrainingFail n) s = .next ((s.goDown n).note (.portTraining n))) ∧
    (p.st ≠ .down → exec (.portDown n) s = .next (s.goDown n)) ∧
    (live → 1 < p.lanes → exec (.laneLost n) s = .next ((s.setPort n .degraded).modPort n fun p => { p with lanes := p.lanes - 1 })) ∧
    (live → p.lanes ≤ 1 → exec (.laneLost n) s = .next (((s.endBurst n).setPort n .retraining).modPort n fun p => { p with lanes := 0 })) ∧
    (live → 8 ≤ p.replays → exec (.replayLimit n) s = .next ((s.endBurst n).setPort n .retraining)) ∧
    (live → exec (.flitCrcError n) s = .next (s.modPort n fun p => { p with replays := p.replays + 1, retries := p.retries + 1 })) ∧
    (32 ≤ n → ∀ k, exec (.frameAck n k) s = .next ((s.endBurst n).modPort n fun p => { p with frames := p.frames.drop k })) ∧
    (32 ≤ n → p.st ≠ .down → p.st ≠ .training → p.rekey = true ∨ 2 ^ 30 ≤ p.sent → exec (.siroccoKeyRollover n) s =
      .next (s.modPort n fun p => { p with key := p.key + 1, sent := 0, rekey := false })) ∧
    ((s.goDown n).port n).st = .down ∧
    (n < 16 →
      (∀ dev, exec (.yardarmRouteReport n dev true) s = .next { s with routes := addOnce s.routes (n, dev) } ∧
        exec (.yardarmRouteReport n dev false) s = .next { s with routes := s.routes.filter fun r => r != (n, dev) }) ∧
      (s.plane n = .draining → (∀ q ∈ s.requests, q.path.planeOf = some n → q.backoff = true) → (∀ c ∈ s.colls, c.on n = false) →
        (∀ g ∈ s.cgs, s.awaits g n = false) → exec (.planeDrainComplete n) s =
        .next ((s.setPlane n .unavailable).note (.planeDrained n)))) ∧
    (s.portRuns 0 = true →
      (n < 16 → (s.plane n = .available → exec (.planeset n .drain) s = .next ((s.setPlane n .draining).answer true)) ∧
        (s.plane n = .unavailable → exec (.planeset n .enable) s = .next ((s.setPlane n .available).answer true))) ∧
      (s.devGiven = true → s.portRuns (portDieOf n) = true → p.st = .down → exec (.linkset (.up n)) s = .next ((s.train n).answer true) ∧
        ((s.train n).port n).st = .training) ∧
      (p.st ≠ .down → exec (.linkset (.down n)) s = .next ((s.goDown n).answer true)) ∧
      (∀ k, 2 ^ 24 ≤ k → k ≤ 2 ^ 30 → (∀ q ∈ s.ports.toList, q.st = .down) →
        exec (.linkset (.staging k)) s = .next (({ s with staging := k } : State).answer true)) ∧
      (∀ k, 0 < k → k ≤ 14375 → exec (.linkset (.tier2Rate k)) s = .next (({ s with t2rate := k } : State).answer true)) ∧
      exec (.linkquery (.port n)) s = .next (s.answer true ([p.st.code, p.lanes, p.far.toNat, p.farInc.toNat, p.retries, p.changes, p.key].map
        (BitVec.ofNat 64))) ∧
      (∀ (pod : BitVec 7) mask, ∃ t : State, exec (.spanset pod mask) s = .next (t.answer true) ∧ { t with span := s.span } = s ∧
        (∀ k < 128, t.span[k]! = if k = pod.toNat then mask else s.span[k]!)) ∧
      (∀ (pod : BitVec 7) (dev : BitVec 9),
        (s.leftDown = true → exec (.devid pod dev) s = .next (s.answer false)) ∧
        (s.leftDown = false → ∃ t : State, exec (.devid pod dev) s = .next (t.answer true) ∧ t.dev = pod ++ dev ∧ t.devGiven = true ∧
          (s.portRuns (portDieOf n) = true → p.st = .down → (t.port n).st = .training))))

/-- R202, R203, R205, R210, R331: a request of a context whose work is done and which waits for no fault. MAP writes its leaves and answers; UNMAP clears the
leaf of a page and begins a shootdown; PROTECT replaces it and begins one when a right or attribute changes; MIGRATE marks it, begins one and owes its answer;
PIN of mapped pages, UNPIN and TRANSLATE answer. A MIGRATE of a pinned page, or of one that holds a tagged word to a tier other than HBM, is refused. A
request behind a fault of a fibre or of a copy job waits. R202, R204, R205, R233: the end of a shootdown leaves no translation of the page in any TLB, and
unless a migration waits for it, waits that read the page start again and its copies are replicated no more; a migration moves the bytes, the tags and what
watches them to the new page and maps it, or keeps the old page with a context error; a replaced line leaves its cache. Model's choices in it: log entries 13,
41. -/
def Obligations.PageEventsComplete : Prop :=
   (∀ (s : State) (c : Context) (va : VA), s.portRuns 0 = true → s.ctx? c.asid = some c → c.st ≠ .closed → c.work = [] → c.owed = [] →
      (∀ f ∈ s.fibres, s.faulting c f = false) → s.faultingJobs c = [] →
      let frames := fun (len : Nat) => rangeFrames va.toNat len
      let asked := fun (op : PageOp) (len : Nat) => ({ op := op, first := va.toNat, va := va.toNat, stop := va.toNat + len, begun := false, after := [], jobs := [] } : PageReq)
      (∀ level pas tier home attr tables s2,
        let r := asked (.map level pas tier home attr tables) (pas.length * pageSize level)
        let s1 := s.modCtx c.asid fun c => { c with work := c.work ++ [r] }
        (s1.mapAll { c with work := [r] } va.toNat level pas tier home attr tables = some s2 →
          exec (.map c.asid va level pas tier home attr tables) s = .next ((s2.modCtx c.asid fun c => { c with work := [] }).answer true)) ∧
        (s1.mapAll { c with work := [r] } va.toNat level pas tier home attr tables = none →
          exec (.map c.asid va level pas tier home attr tables) s = .next ((s.modCtx c.asid fun c => { c with work := [] }).answer false))) ∧
      (∀ at_ level e, c.shoot = [] → s.pageOf c va.toNat = some (at_, level, e) → leafMg e = false →
        s.heldPage c.asid (pageBase level va.toNat) (pageSize level) e = false → va.toNat % pageSize level = 0 →
        let n := pageSize level
        let rest := fun (op : PageOp) => { asked op n with va := va.toNat + n, begun := true }
        (s.rangeOk c va.toNat n (fun _ => true) = true → exec (.unmap c.asid va n) s =
          .next ((s.putHomeBytes at_ (leBytes 8 (e &&& ~~~1#64).toNat)).modCtx c.asid fun c => { c with
            work := [rest .unmap], shoot := c.shoot ++ [(va.toNat, n, e, false)] })) ∧
        (∀ a, keyOk c a.key = true →
          s.rangeOk c va.toNat n (fun p => !leafMalformed s.t2cap (s.keys.map (·.1)) p.2.1 (protectLeaf p.2.2 a).1) = true →
          let t := s.putHomeBytes at_ (leBytes 8 (protectLeaf e a).1.toNat)
          ((protectLeaf e a).2 = true → exec (.protect c.asid va n a) s = .next (t.modCtx c.asid fun c => { c with
            work := [rest (.protect a)], shoot := c.shoot ++ [(va.toNat, n, e, false)] })) ∧
          ((protectLeaf e a).2 = false → exec (.protect c.asid va n a) s = .next ((t.modCtx c.asid fun c => { c with work := [] }).answer true))) ∧
        (∀ tier home pa, s.rangeOk c va.toNat n (fun _ => true) = true →
          s.wholePages c (n / 2 ^ 16 + 1) va.toNat (va.toNat + n) = some [(va.toNat, level, e)] →
          (s.mayMove c (va.toNat, level, e) pa tier home = true → exec (.migrate c.asid va n tier home [pa]) s =
            .next ((s.putHomeBytes at_ (leBytes 8 (withMg e).toNat)).modCtx c.asid fun c => { c with
              work := [], moving := c.moving ++ [(va.toNat, pa, tier.toNat, home.toNat)], shoot := c.shoot ++ [(va.toNat, n, e, true)]
              owed := c.owed ++ [(va.toNat, va.toNat + n)] })) ∧
          (s.mayMove c (va.toNat, level, e) pa tier home = false → exec (.migrate c.asid va n tier home [pa]) s =
            .next ((s.modCtx c.asid fun c => { c with work := [] }).answer false)) ∧
          ((∃ f ∈ pageFrames va.toNat n, f ∈ c.pins) ∨ (tier ≠ 0 ∧ s.tagsIn (leafPa e) n = true) →
            s.mayMove c (va.toNat, level, e) pa tier home = false))) ∧
      (∀ len, 0 < len → c.shoot = [] → (∀ f ∈ frames len, ∃ x, s.pageOf c (f * 2 ^ 16) = some x ∧ leafMg x.2.2 = false ∧
          s.heldPage c.asid (pageBase x.2.1 (f * 2 ^ 16)) (pageSize x.2.1) x.2.2 = false) →
        ∃ (t : State) (c' : Context), exec (.pin c.asid va len) s = .next (t.answer true) ∧ { t with ctxs := s.ctxs } = s ∧ t.ctx? c.asid = some c' ∧
          { c' with pins := c.pins } = c ∧ ∀ f, f ∈ c'.pins ↔ f ∈ c.pins ∨ f ∈ frames len) ∧
      (∀ len, (∀ f ∈ frames len, f ∉ s.queueFrames c.asid) → exec (.unpin c.asid va len) s =
        .next ((s.modCtx c.asid fun c => { c with work := [], pins := c.pins.filter fun f => !(frames len).contains f }).answer true)) ∧
      (let done := fun (xs : List DWord) => Host.Outcome.next ((s.modCtx c.asid fun c => { c with work := [] }).answer true xs)
       (s.pageOf c va.toNat = none → exec (.translate c.asid va) s = done [0]) ∧
       (∀ at_ level e, s.pageOf c va.toNat = some (at_, level, e) → exec (.translate c.asid va) s = done
         [if leafMg e then 2 else 1, BitVec.ofNat 64 (leafPa e + va.toNat % pageSize level), BitVec.ofNat 64 (pageSize level), e])) ∧
      (∀ (u : State) (x : Context) (r : PageReq) rest, u.ctx? c.asid = some x → x.work = r :: rest → x.owed = [] → u.portRuns 0 = true →
        (∃ f ∈ u.fibres, f.ref ∈ r.after ∧ u.faulting x f = true) ∨ (∃ j ∈ u.faultingJobs x, j ∈ r.jobs) → ∀ n, u.pumpWork n c.asid = u)) ∧
   ((∀ (s : State) (c : Context) (va : VA) (size : Nat) (old : DWord) (mig : Bool), s.ctx? c.asid = some c →
      (c.shoot.find? fun x => x.1 == va.toNat) = some (va.toNat, size, old, mig) → s.usesPage (leafPa old) size = false →
      let s1 := (s.dropXlat c.asid none (some (va.toNat, size))).drain (leafPa old) size
      let s2 := if mig then s1 else (if old.getLsbD 8 then s1.unreplicate (leafPa old) size else s1).restartWaits c.asid (leafPa old) size
      let t := (s2.modCtx c.asid fun c => { c with shoot := c.shoot.filter fun x => x.1 != va.toNat }).pumpWork (c.work.length + 1) c.asid
      exec (.shootdownComplete c.asid va) s = .next t ∧
      (∀ x, x ∈ t.coreTlb ∨ x ∈ t.dieTlb → x.2.asid = c.asid → x.2.base + x.2.size ≤ va.toNat ∨ va.toNat + size ≤ x.2.base) ∧
      (∀ x ∈ t.walks, x.2.asid ≠ c.asid) ∧
      (mig = false → ∀ f ∈ s1.fibres, f.asid = c.asid → (∀ x ∈ s1.fibres, x.ref = f.ref → x = f) →
        ∀ g ∈ f.gangs, (∀ y ∈ f.gangs, y.id = g.id → y = g) → (g.restarted f (leafPa old) size).isSome = true →
        ∃ f' ∈ s2.fibres, f'.ref = f.ref ∧ ∃ g' ∈ f'.gangs, g' = { g with st := .run }) ∧
      (mig = false → old.getLsbD 8 = true → ∀ x ∈ s2.copies, leafPa old ≤ 4 * x.word → 4 * x.word < leafPa old + size → x.repl = false)) ∧
    (∀ (s : State) (asid : BitVec 16) (va : VA) (c : Context) (at_ level : Nat) (e : DWord) (pa tier home : Nat),
      s.migrating asid va = some (c, (at_, level, e), (pa, tier, home)) →
      let n := pageSize level
      let new := leafWord pa (BitVec.ofNat 2 tier) (BitVec.ofNat 2 home)
        ⟨e.getLsbD 2, e.getLsbD 3, e.getLsbD 4, e.getLsbD 7, e.getLsbD 8, e.getLsbD 9, e.getLsbD 10, leafKey e⟩
      (s.poisonIn (leafPa e) n = false → s.gone (some (leafDie e)) (leafPa e) = false →
        (e.getLsbD 10 = true → ∀ x ∈ s.codes, leafPa e ≤ 256 * x.1 → 256 * x.1 < leafPa e + n → x.2.toNat < 9) →
        exec (.migrationCopyComplete asid va) s =
          .next (((((s.copyRange (leafKey e) (leafPa e) pa n).putHomeBytes at_ (leBytes 8 new.toNat)).movePlaces (leafPa e) n pa (leafDie new)).endMove asid
            va).remapped asid pa n)) ∧
      exec (.migrationCopyError asid va) s = .next ((((s.putHomeBytes at_ (leBytes 8 (withoutMg e).toNat)).contextError asid (leafPa e)).endMove
        asid va).remapped asid (leafPa e) n)) ∧
    (∀ (s : State) (k : Byte) (old new n i : Nat), Memory.wf s.mem = true → i < n → old + n ≤ new ∨ new + n ≤ old →
      (∀ u, old / 16 ≤ u → 16 * u < old + n → s.lockOf u = s.keyAt k u) → byteAt (s.copyRange k old new n).mem (new + i) = byteAt s.mem (old + i)) ∧
    (∀ (s : State) (core : Option Nat) (die : Fin 4) (line : Nat), let pos : CopyAt := match core with | some k => .l1 k | none => .dc die.val
      ∃ t, exec (.lineReplacement core die line) s = .next t ∧ (∀ c ∈ t.copies, ¬(c.pos = pos ∧ c.word / 32 = line)) ∧
        (∀ c ∈ s.copies, c.word / 32 ≠ line → c ∈ t.copies)))

/-- R333, R376, R428, R466: the host reads and writes HBM and tier-2 memory frame by frame, at its home and through the page that holds it, but no page of a
confidential context and no tagged word; a snoop writes the dirty words of a host line through. R360, R362, R371: the commands over queues and the
access-control table. Model's choices in it: log entry 38. -/
def Obligations.HostCommandsComplete : Prop :=
   (∀ (s : State) (pa n : Nat) (bs : List Byte), s.portRuns 0 = true →
      (0 < n → s.hostReaches pa n = true → exec (.hostMemRead pa n) s =
        (let r := (frameRuns pa n).foldl (fun (acc : State × List Byte) x => ((acc.1.hostRead x.1 x.2).1, acc.2 ++ (acc.1.hostRead x.1 x.2).2)) (s, [])
         .next (r.1.note (.hostRead r.2)))) ∧
      (bs ≠ [] → s.hostReaches pa bs.length = true → exec (.hostMemWrite pa bs) s =
        .next ((frameRuns pa bs.length).foldl (fun (s : State) x => s.hostWrite x.1 ((bs.drop (x.1 - pa)).take x.2)) s)) ∧
      (let m := s.hostPlace pa
       (s.gone (s.dieOf pa) pa = true → s.hostRead pa n = (s.note (.homeGone pa), List.replicate n 0xFF) ∧ s.hostWrite pa bs = s.note (.homeGone pa)) ∧
       (s.gone (s.dieOf pa) pa = false →
        (s.sealed pa = true → s.hostRead pa n = (s, List.replicate n 0xFF) ∧ s.hostWrite pa bs = s) ∧
        (s.sealed pa = false →
          s.hostRead pa n = ((s.readRange m n).1, (s.readRange m n).2.1) ∧
          (s.tagsIn pa bs.length = true → (s.hostWrite pa bs).mem = s.mem ∧ (s.hostWrite pa bs).tags = s.tags) ∧
          (s.tagsIn pa bs.length = false → s.hostWrite pa bs = s.writeRange m bs))) ∧
       (Memory.wf s.mem = true → (∀ u, s.lockOf u = s.keyAt m.key u) → bytesAt (s.writeRange m bs).mem pa bs.length = bs ∧
         ∀ a, (a < pa ∨ pa + bs.length ≤ a) → byteAt (s.writeRange m bs).mem a = byteAt s.mem a)) ∧
      (s.tierOf pa 1 = some 2 → ∃ t, exec (.hostSnoop pa) s = .next t ∧ t.fibres = s.fibres ∧ t.teams = s.teams ∧
        (∀ c ∈ s.copies, c.word / 32 ≠ pa / 128 → c ∈ t.copies))) ∧
   (∀ (s : State) (q : Nat) (c : Context), s.portRuns 0 = true → q < 64 →
      let x := s.queue q
      (∀ (lsz : BitVec 4) (cap : BitVec 2) (rva pva cva : VA) s1 s2, s.ctx? c.asid = some c → x.st = .disabled → 4 ≤ lsz.toNat →
        rva.toNat % (128 * 2 ^ lsz.toNat) = 0 → pva.toNat % 8 = 0 → cva.toNat % 8 = 0 → c.st ≠ .closed →
        s.pinnedHbm c rva.toNat (128 * 2 ^ lsz.toNat) = true → s.pinnedHbm c pva.toNat 8 = true → s.pinnedHbm c cva.toNat 8 = true →
        s.writeIndex c pva 0 = .ok s1 → s1.writeIndex c cva 0 = .ok s2 →
        exec (.qcreate q c.asid lsz cap rva pva cva) s = .next ((s2.modQueue q fun _ => {
          cva := cva, pva := pva, rva := rva, asid := c.asid, lsz := lsz.toNat, cap := cap.toNat, st := .active, met := [] }).watch q |>.answer true)) ∧
      (x.st ≠ .disabled → ∀ asid lsz cap rva pva cva, exec (.qcreate q asid lsz cap rva pva cva) s = .next (s.answer false)) ∧
      (x.st = .active ∨ x.st = .error →
        (s.queueBusy q = true → exec (.qdestroy q) s = .next ((s.modQueue q fun x => { x with st := .draining }).answer true)) ∧
        (s.queueBusy q = false → exec (.qdestroy q) s = .next (((s.modQueue q fun _ => Queue.reset).watch q).answer true))) ∧
      (∀ b t, x.st = .error → s.ctx? x.asid = some c → s.homeRead c [] x.pva.toNat 8 = .ok b → s.writeIndex c x.cva (leNat b) = .ok t →
        exec (.qreset q) s = .next (((t.modQueue q fun x => { x with st := .active, met := [] }).watch q).answer true)) ∧
      (∀ i v sdev sasid cap qmask, (i < 512 → ∃ t : State, exec (.aclset i v sdev sasid cap qmask) s = .next (t.answer true) ∧
        aget t.acl i = some { v := v, sdev := sdev, sasid := sasid, cap := cap, qmask := qmask } ∧ (∀ j, j ≠ i → aget t.acl j = aget s.acl j) ∧
        { t with acl := s.acl } = s) ∧ (512 ≤ i → exec (.aclset i v sdev sasid cap qmask) s = .next (s.answer false))))

/-- R374 to R378: a context is created, made resident under a resident index that no other has, evicted once its clusters are saved, and closed with
everything that was its own. R388, R395: the debugger halts a running die once no pre-emption is in progress, reads and writes fibre blocks on it, continues a
fibre from a breakpoint, and lets the die go on. Model's choices in it: log entries 42, 43. -/
def Obligations.ContextsAndDebugger : Prop :=
   ((∀ (s : State) (a : CtxArgs), s.portRuns 0 = true →
      (s.mayCreate a = true → ∃ t c : _, exec (.ctxcreate a) s = .next t ∧ t.ctx? a.asid = some c ∧ c.st = .created ∧ c.ridx = none ∧ c.sysop = a.sysop ∧
        c.dbg = a.dbg ∧ c.dbh = a.dbh ∧ c.conf = a.conf ∧ c.ptroot = a.ptroot ∧ c.bindtab = a.bindtab ∧ c.savebase = a.savebase ∧
        c.savesize = a.savesize ∧ c.keymask = a.keymask ∧ c.fault = none ∧ c.errcnt = 0 ∧ t.notes = .answer .success [] :: s.notes) ∧
      (a.asid = 0 ∨ (∃ x ∈ s.ctxs, x.asid = a.asid ∧ x.st ≠ .closed) → exec (.ctxcreate a) s = .next (s.answer false))) ∧
    (∀ (s : State) (c : Context), s.portRuns 0 = true → s.ctx? c.asid = some c →
      (∀ i < 64, c.st = .created ∨ c.st = .saved → (∀ x ∈ s.ctxs, x.ridx ≠ some i) → (∀ j < i, ∃ x ∈ s.ctxs, x.ridx = some j) →
        exec (.ctxrestore c.asid) s = .next ((s.modCtx c.asid fun c => { c with st := .resident, ridx := some i, told := false }).answer true)) ∧
      (c.st ≠ .created → c.st ≠ .saved → exec (.ctxrestore c.asid) s = .next (s.answer false)) ∧
      (c.st = .resident ∨ c.st = .running →
        let s1 := s.modCtx c.asid fun c => { c with st := .preempting, evict := true }
        (s.quiet c.asid = false → exec (.ctxevict c.asid) s = .next s1) ∧
        (s.quiet c.asid = true → ∃ t c', exec (.ctxevict c.asid) s = .next t ∧ t.ctx? c.asid = some c' ∧ c'.st = .saved ∧ c'.ridx = none ∧
          (∀ x, x ∈ t.coreTlb ∨ x ∈ t.dieTlb → x.2.asid ≠ c.asid) ∧ (∀ x ∈ t.binds, x.2.asid ≠ c.asid))) ∧
      (c.st ≠ .closed → ∃ t c', exec (.ctxclose c.asid) s = .next t ∧ t.ctx? c.asid = some c' ∧ c'.st = .closed ∧ c'.ridx = none ∧
        (∀ x ∈ t.copies, x.asid ≠ c.asid) ∧ (∀ x, x ∈ t.coreTlb ∨ x ∈ t.dieTlb → x.2.asid ≠ c.asid) ∧ (∀ x ∈ t.binds, x.2.asid ≠ c.asid) ∧
        (∀ x ∈ t.queues.toList, x.asid = c.asid → x.st = .disabled) ∧ (∀ x ∈ t.arrivals, x.asid ≠ c.asid) ∧
        (∀ x ∈ t.clusters, ∀ k, s.kernel? x.kern = some k → k.asid ≠ c.asid) ∧ (∀ g ∈ t.staged, g.asid ≠ c.asid) ∧
        t.notes.head? = some (.answer .success [])) ∧
      exec (.ctxquery c.asid) s = .next (s.answer true (asWords c.record)) ∧ c.record.length = 256)) ∧
   (∀ (s : State) (d : Fin 4) (f : Fibre) (sl : Slot) (asid : BitVec 16), s.portRuns 0 = true →
      let x := s.die d.val
      (x.st = .running → x.halted = false → x.halting = false →
        ((∀ c ∈ s.clusters, c.die = d.val → c.st ≠ .preempting) → exec (.dhalt d) s =
          .next ((s.modDie d.val fun x => { x with halting := false, halted := true }).answer true)) ∧
        ((∃ c ∈ s.clusters, c.die = d.val ∧ c.st = .preempting) → exec (.dhalt d) s = .next (s.modDie d.val fun x => { x with halting := true }))) ∧
      (x.halted = true → exec (.dresume d) s = .next ((s.modDie d.val fun x => { x with halted := false }).answer true)) ∧
      (x.halted = false → exec (.dresume d) s = .next (s.answer false)) ∧
      (s.debugged asid f.ref = none → ∀ off n, exec (.dread asid f.ref off n) s = .next (s.answer false)) ∧
      (s.debugged asid f.ref = some (f, sl) →
        (∀ off n, off + n ≤ 0x9000 → exec (.dread asid f.ref off n) s = .next (s.answer true (asWords (((debugBlock f sl s.ticks).drop off).take n)))) ∧
        (∀ off bytes, off + bytes.length ≤ 0x9000 →
          let old := debugBlock f sl s.ticks
          let new := old.take off ++ bytes ++ old.drop (off + bytes.length)
          blockClean new = true → block32 new 0x248 = f.quota → block32 new 0x2C0 &&& ~~~f.live = 0 → (∀ g, f.st ≠ .frozen (.breakpoint g)) →
          ∃ t f' sl', exec (.dwrite asid f.ref off bytes) s = .next t ∧ t.fibre? f.ref = some f' ∧ t.slot? f = some sl' ∧ f'.live = block32 new 0x2C0 ∧
            f'.s = (f.loadHead new).s ∧ f'.p = (f.loadHead new).p ∧ f'.epc = (f.loadHead new).epc ∧ f'.rng = (f.loadHead new).rng ∧
            sl'.rows = (sl.loadRows f.quota new).rows)) ∧
      (s.fibre? f.ref = some f → ∀ g, f.st = .frozen (.breakpoint g) → exec (.dcont f.ref) s = .next ((s.modFibre f.ref fun y =>
        { y.modGang g (fun x => { x with pc := f.dbgPc.getD (pcOf (f.epc.toNat + 8)) }) with st := .run, dbgPc := none }).answer true)))

/-- R33, R461, R464 to R466, R468, R471, R472: the life of a die: rails in order, measurement in order, admission, running, warm reset with its queue, the
failure of a port die, and the reset of the device. R467, R471 to R473: operating points and link widths change at once or are held, current limits lie from
300 A to 900 A, and lifetime counters count in their bins, saturate at 48 bits, and are committed and read. R429, R462, R463: the masthead die answers every
SPDM request, its session is set up, secured and ended in order, keys are loaded only in a secured session and not under a context that is allowed them,
measurement blocks are the digests of the dies, and an unassigned mailbox opcode is unsupported. Model's choices in it: log entries 22, 27, 44, 45, 47. -/
def Obligations.DieLife : Prop :=
   ((∀ (s : State) (d : Fin 4) (digest : BitVec 384),
      let x := s.die d.val
      (s.mayMeasure (.compute d) = true →
        exec (.dieMeasurement (.compute d) digest true) s = .next (s.modDie d.val fun x => { x with st := .measured, digest := digest }) ∧
        exec (.dieMeasurement (.compute d) digest false) s =
          .next ((s.modDie d.val fun x => { x with barred := true }).note (.dieHeld (.compute d)))) ∧
      (x.st = .measured → ∃ t, exec (.ucieTrained (.compute d)) s = .next t ∧ t.die d.val = { x with st := .admitted, errs := false } ∧
        (∀ i : Fin 160, t.cyc[i] = if i.val / 40 = d.val then 0 else s.cyc[i]) ∧
        (∀ c ∈ t.copies, c.pos ≠ .dc d.val ∧ ∀ k, c.pos = .l1 k → k / 40 ≠ d.val)) ∧
      (x.st = .admitted → ∀ f, exec (.operatingPointGrant d f) s = .next (s.modDie d.val fun x => { x with st := .running, freq := f })) ∧
      (x.st = .running → ∃ t, exec (.diewarm d) s = .next t ∧ (s.warm = [] → (t.die d.val).st = .quiescing ∧ t.warm = [d]) ∧
        (s.warm ≠ [] → t.warm = s.warm ++ [d] ∧ t.dies = s.dies) ∧ t.notes = .answer .success [] :: s.notes) ∧
      (x.st ≠ .running → exec (.diewarm d) s = .next (s.answer false)) ∧
      (x.st = .quiescing → (∀ c ∈ s.clusters, c.die = d.val → c.st ≠ .running ∧ c.st ≠ .preempting) → ∃ t, exec (.quiesceComplete d) s = .next t ∧
        (t.die d.val).st = .quiesced ∧ (t.die d.val).errs = true ∧ t.clusters = s.clusters ∧ t.fibres = s.fibres ∧ t.teams = s.teams) ∧
      (x.st = .quiesced → exec (.coreResetComplete d) s = .next (s.modDie d.val fun x => { x with st := .retraining })) ∧
      (x.st = .retraining → ∃ t, exec (.dieRetrainComplete d digest true) s = .next t ∧
        (t.die d.val).errs = false ∧ (t.die d.val).digest = digest ∧ (t.die d.val).st = .admitted ∧ ∃ n, t.warm = s.warm.drop n) ∧
      (x.st = .retraining → ∃ t, exec (.dieRetrainComplete d digest false) s = .next t ∧ (t.die d.val).st = .held ∧ (t.die d.val).barred = true)) ∧
    (∀ (s : State) (p : Fin 2) (digest : BitVec 384),
      (s.mayMeasure (.port p) = true →
        exec (.dieMeasurement (.port p) digest true) s = .next (s.modPdie p.val fun x => { x with st := .measured, digest := digest }) ∧
        exec (.dieMeasurement (.port p) digest false) s = .next ((s.modPdie p.val fun x => { x with barred := true }).note (.dieHeld (.port p)))) ∧
      ((s.pdie p.val).st = .measured → exec (.ucieTrained (.port p)) s = .next (s.modPdie p.val fun x => { x with st := .admitted })) ∧
      ((s.pdie p.val).st = .admitted → ∃ t, exec (.mgmtCoreStart p) s = .next t ∧ (t.pdie p.val).st = .running ∧
        (s.devGiven = true → ∀ n < 40, portDieOf n = p.val → (s.port n).st = .down → (t.port n).st = .training)) ∧
      ((s.pdie p.val).st = .running → ∃ t, exec (.portDieFail p) s = .next t ∧ (t.pdie p.val).st = .failed ∧
        t.notes.head? = some (.dieFailed (.port p)) ∧ ∀ n < 40, portDieOf n = p.val → (t.port n).st = .down)) ∧
    (∀ (s : State),
      exec .powerOnReset s = .next (s.deviceReset [] s.kept) ∧
      exec (.railPowerGood .standby) s = .next { s with rails := addOnce s.rails .standby } ∧
      (.standby ∈ s.rails → exec (.railPowerGood .ports) s = .next { s with rails := addOnce s.rails .ports } ∧
        exec (.railPowerGood .hbm) s = .next { s with rails := addOnce s.rails .hbm } ∧
        (∀ d, .ports ∈ s.rails → .hbm ∈ s.rails → exec (.railPowerGood (.core d)) s = .next { s with rails := addOnce s.rails (.core d) })) ∧
      (∀ r, r ∈ s.rails → s.railRuns r = true → ∃ life, exec (.railPowerLoss r) s =
        .next ((s.deviceReset (if r = .standby then [] else s.rails.filter fun x => x != r) life).note (.railLost r)) ∧
        (let old := if r = .standby then s.kept else s.life
         { life with rails := old.rails } = old ∧ aget life.rails r = some (min ((aget old.rails r).getD 0 + 1) (2 ^ 48 - 1)) ∧
         ∀ x, x ≠ r → aget life.rails x = aget old.rails x)) ∧
      (∀ r, r ∈ s.rails → s.railRuns r = false → exec (.railPowerLoss r) s = .next { s with rails := s.rails.filter fun x => x != r }) ∧
      (∀ rails life, let t := s.deviceReset rails life
        t.inc = s.inc + 1 ∧ t.fibres = [] ∧ t.clusters = [] ∧ t.ctxs = [] ∧ t.copies = [] ∧ t.keys = [] ∧ (∀ x ∈ t.dies.toList, x.st = .held) ∧
        (∀ x ∈ t.ports.toList, x.st = .down) ∧ t.devGiven = false ∧ t.rails = rails ∧ t.life = life ∧
        (∀ x, x ∈ t.mem ↔ x ∈ s.mem ∧ 0x8000000000000 ≤ x.1)))) ∧
   (∀ (s : State) (d : Fin 4) (n : Nat),
      let x := s.die d.val
      (x.st ≠ .held → x.st ≠ .measured → x.st ≠ .admitted →
        (x.st ≠ .retraining → x.linking = [] → x.changing = false → exec (.frequencyChange d n) s =
          .next (s.modDie d.val fun x => { x with freq := n, changing := true, heldFreq := none })) ∧
        (x.st = .retraining ∨ x.linking ≠ [] ∨ x.changing = true → exec (.frequencyChange d n) s =
          .next (s.modDie d.val fun x => { x with heldFreq := some n }))) ∧
      (x.st ≠ .held → x.st ≠ .measured →
        ∀ link, (link ∉ x.linking → x.changing = false → exec (.linkWidthReduction d (link, n)) s =
          .next (s.modDie d.val fun x => { x with widths := aset x.widths link n, linking := x.linking ++ [link] })) ∧
        (link ∈ x.linking ∨ x.changing = true → exec (.linkWidthReduction d (link, n)) s =
          .next (s.modDie d.val fun x => { x with heldWidths := x.heldWidths ++ [(link, n)] }))) ∧
      (∀ y : Die, (y.changing = true → y.releaseHeld = y) ∧
        (y.changing = false → (∀ link k, y.heldWidths = [(link, k)] → link ∉ y.linking → (y.releaseHeld.widths = aset y.widths link k ∧
          y.releaseHeld.linking = y.linking ++ [link] ∧ y.releaseHeld.heldWidths = [] ∧ y.releaseHeld.heldFreq = y.heldFreq)) ∧
        (∀ f, y.heldWidths = [] → y.linking = [] → y.st ≠ .retraining → y.heldFreq = some f →
          y.releaseHeld = { y with freq := f, changing := true, heldFreq := none }))) ∧
      (300 ≤ n → n ≤ 900 → exec (.mctpPowerset d n) s = .next ((s.modDie d.val fun x => { x with amps := n }).answer true) ∧
        (s.portRuns 0 = true → exec (.powerset d n) s = .next ((s.modDie d.val fun x => { x with amps := n }).answer true))) ∧
      (¬(300 ≤ n ∧ n ≤ 900) → exec (.mctpPowerset d n) s = .next (s.answer false) ∧
        (s.portRuns 0 = true → exec (.powerset d n) s = .next (s.answer false))) ∧
      exec .lifetimeCommit s = .next { s with kept := s.life } ∧ exec .orderlyPowerDown s = .next { s with kept := s.life } ∧
      (∃ t, exec (.droopEvent d n) s = .next t ∧ (let k := (d.val, min 15 (n / 5))
        aget t.life.droop k = some (min ((aget s.life.droop k).getD 0 + 1) (2 ^ 48 - 1)) ∧
        (∀ j, j ≠ k → aget t.life.droop j = aget s.life.droop j) ∧ { t with life := s.life } = s ∧ t.life.temp = s.life.temp ∧
        t.life.volt = s.life.volt ∧ t.life.soft = s.life.soft ∧ t.life.retries = s.life.retries)) ∧
      (∃ t, exec (.lifetimeMinute [n] []) s = .next t ∧ (let k := ((0 : Nat), min 23 (n / 5))
        aget t.life.temp k = some (min ((aget s.life.temp k).getD 0 + 1) (2 ^ 48 - 1)) ∧ t.life.volt = s.life.volt)) ∧
      (∀ temps mvs, ∃ t, exec (.lifetimeMinute temps mvs) s = .next t ∧ { t with life := s.life } = s ∧ t.life.droop = s.life.droop ∧
        t.life.soft = s.life.soft ∧ t.life.retries = s.life.retries) ∧
      (∀ k, exec (.lifeget k) s = .next (s.answer true (s.lifeList k)) ∧
        (s.portRuns 0 = true → exec (.liferead k) s = .next (s.answer true (s.lifeList k))))) ∧
   (∀ (s : State),
      let gives := fun (t : State) (n : Nat) (x : List Byte) => Host.Outcome.next (t.note (.spdm (Config.spdmBytes n x)))
      exec .getVersion s = gives s 0 [] ∧ exec .getCapabilities s = gives s 1 [] ∧ exec .negotiateAlgorithms s = gives s 2 [] ∧
      exec .getDigests s = gives s 3 [] ∧ exec .getCertificate s = gives s 4 [] ∧
      (∀ nonce, exec (.challenge nonce) s = gives s 5 (leBytes 32 nonce.toNat)) ∧
      (∀ rnd, (s.session = .none → exec (.keyExchange rnd) s = gives { s with session := .exchanging } 6 (leBytes 32 rnd.toNat)) ∧
        (s.session ≠ .none → exec (.keyExchange rnd) s = .next (s.answer false))) ∧
      (s.session = .exchanging → exec (.finish true) s = gives { s with session := .secured } 7 [] ∧
        exec (.finish false) s = gives { s with session := .none } 7 []) ∧
      (s.session ≠ .exchanging → ∀ ok, exec (.finish ok) s = .next (s.answer false)) ∧
      (s.session = .secured → exec .endSession s = gives { s with session := .none } 8 []) ∧
      (s.session ≠ .secured → exec .endSession s = .next (s.answer false)) ∧
      (∀ d : Fin 4, exec (.getMeasurements (4 + d.val)) s = .next (s.note (.spdm (leBytes 48 (s.die d.val).digest.toNat)))) ∧
      (∀ p : Fin 2, exec (.getMeasurements (2 + p.val)) s = .next (s.note (.spdm (leBytes 48 (s.pdie p.val).digest.toNat)))) ∧
      (∀ (id : BitVec 8) (key : BitVec 512),
        (s.session = .secured → id ≠ 0 → (∀ c ∈ s.ctxs, c.st ≠ .closed → c.keymask.getLsbD id.toNat = false) →
          ∃ t : State, exec (.keyload id key) s = .next (t.answer true) ∧ { t with keys := s.keys } = s ∧
            aget t.keys id = (if key = 0 then none else some key) ∧ ∀ j, j ≠ id → aget t.keys j = aget s.keys j) ∧
        (s.session ≠ .secured ∨ id = 0 ∨ (∃ c ∈ s.ctxs, c.st ≠ .closed ∧ c.keymask.getLsbD id.toNat = true) →
          exec (.keyload id key) s = .next (s.answer false))) ∧
      (∀ op : BitVec 16, s.portRuns 0 = true → 0xC052 ≤ op.toNat → op.toNat ≤ 0xC0FF → exec (.mailboxUnsupported op) s =
        .next (s.note (.answer .unsupported []))))

/-- R37 to R40, R67 step 4: the words and the instructions correspond one to one. Every well-formed instruction decodes from its encoding with every operand
at every value, whatever bytes follow; what decodes to an instruction word is that word's encoding, and it is well formed; and every 8 bytes with an assigned
length and an unassigned opcode decode to the table's row of unassigned opcodes. -/
def Obligations.EncodingRoundTrip : Prop :=
  (∀ (i : Instr) (rest : List Byte), i.wf = true → i.toFields.isSome = true →
    (encode i).length = i.bytes ∧ decode (encode i ++ rest) = .ok (i, rest)) ∧
  (∀ (bs : List Byte) (i : Instr) (rest : List Byte), decode bs = .ok (i, rest) → i.toFields.isSome = true → encode i ++ rest = bs ∧ i.wf = true) ∧
  (∀ (f : Fields) (rest : List Byte), assignedOp f.op.toNat = false →
    decode (leBytes 8 f.low.toNat ++ leBytes (f.len.bytes - 8) f.ext.toNat ++ rest) = .ok (.unassignedOpcode f.op f.len.code, rest))

/-- Words that the manual writes out bit by bit, from the lowest address upwards, and the instructions they stand for (R39 and the examples of the chapters);
a length code 11 and a word with a reserved bit set decode to nothing. -/
def Obligations.DecodeWords : Prop :=
  decode [0x14, 0x21, 0x0A, 0x04, 0x07, 0x00, 0x11, 0x00] =
    .ok (.iadd { h := ⟨true, 2, false⟩, sc := false, d := 10, a := ⟨4, false, true⟩, b := ⟨7, true, false⟩ } .i32 false, []) ∧
  decode [0x89, 0, 0, 0, 0, 0, 0, 0, 0x20, 0, 0, 0] = .ok (.bra ⟨false, 1, false⟩ 0x20, []) ∧
  decode [0xB8, 0x60, 0x0A, 0x04, 0x05, 0x00, 0xC0, 0x02] =
    .ok (.cvtp { h := ⟨false, 7, false⟩, sc := false, d := 10, a := ⟨4, false, false⟩, b := ⟨5, false, false⟩ } .e4m3 .rne false 0, []) ∧
  decode [0xBC, 0x71, 0x00, 0x42, 0x41, 0, 0, 0] = .ok (.fwait true 0x42 0x41, []) ∧
  decode [0x38, 0x75, 0x03, 0x06, 0, 0, 0x80, 0x0D] = .ok (.barv false false .gl .device 3 6, []) ∧
  decode [0x38, 0x80, 0x08, 0x02, 0x06, 0x04, 0x40, 0xAC] = .ok (.ld ⟨false, 7, false⟩ false (some .device) .two .gl .n32 8 ⟨2, false, false⟩ 4, []) ∧
  decode [0x39, 0xA2, 0x02, 0x01, 0, 0, 0, 0x24, 0x10, 0, 0, 0] = .ok (.lpart false true 1 2 1 16, []) ∧
  decode [0x38, 0xC0, 0, 0x11, 0x21, 0x04, 0x80, 0] = .ok (.cpy false 0 .tm ⟨1, 1⟩ ⟨2, 1⟩ 4, []) ∧
  decode [0x38, 0xD0, 0, 0x04, 0x06, 0x08, 0, 0x4C] = .ok (.xfer false false true .gl 4 6 8, []) ∧
  decode [0x38, 0x07, 0, 0x04, 0, 0, 0, 0x2C] = .ok (.setseg false true .gl 4, []) ∧
  decode [0x03, 0x21, 0x0A, 0x04, 0x07, 0x00, 0x11, 0x00] = .error .illegalLength ∧
  decode [0x14, 0x21, 0x0A, 0x04, 0x07, 0x01, 0x11, 0x00] = .error .illegalInstruction

/-- R411, R461, R464, R468, R471: after a power-on reset every compute die and port die is Held, every current limit is 900 A, every port is Down, the device
has no id (its id reads 0) and no host-given one, and nothing runs. That queues are disabled and contexts absent then is the model's reading (log entry 2).
The memories have their canonical form at reset. -/
def Obligations.ResetLeavesDiesHeld : Prop :=
   ((∀ x ∈ State.reset.dies.toList, x.st = .held ∧ x.amps = 900 ∧ x.halted = false) ∧ (∀ x ∈ State.reset.pdies.toList, x.st = .held) ∧
    (∀ x ∈ State.reset.ports.toList, x.st = .down) ∧ State.reset.devGiven = false ∧ State.reset.dev = 0 ∧ State.reset.leftDown = false ∧
    (∀ x ∈ State.reset.queues.toList, x.st = .disabled) ∧ State.reset.fibres = [] ∧ State.reset.clusters = [] ∧ State.reset.ctxs = [] ∧
    State.reset.copies = [] ∧ State.reset.coreTlb = [] ∧ State.reset.dieTlb = []) ∧
   (State.reset.memOk = true)

/-- R5: one byte is one datum: home memory and every team's scratchpad keep their canonical form, in which no address stands twice and equal memories are
equal data, through every step of every state, whatever instruction or event the step is. The canonical form is the model's representation (log entry 1). -/
def Obligations.StepKeepsMemoriesCanonical : Prop :=
  ∀ s s' : State, s.memOk = true → step s = .next s' → s'.memOk = true
end

