-- ==== Sys2Proof/Laws/State.lean ====
section
/-! SUPPORT. One lemma per field per update of the state, and what the updates do to the one thing that they name. -/

namespace Sys2Proof.Machine

open Sys2Proof

variable (s : State)

@[simp] theorem State.modFibre_mem (r : FibreRef) (u : Fibre → Fibre) : (s.modFibre r u).mem = s.mem := rfl
@[simp] theorem State.modFibre_locks (r : FibreRef) (u : Fibre → Fibre) : (s.modFibre r u).locks = s.locks := rfl
@[simp] theorem State.modFibre_codes (r : FibreRef) (u : Fibre → Fibre) : (s.modFibre r u).codes = s.codes := rfl
@[simp] theorem State.modFibre_poison (r : FibreRef) (u : Fibre → Fibre) : (s.modFibre r u).poison = s.poison := rfl
@[simp] theorem State.modFibre_tags (r : FibreRef) (u : Fibre → Fibre) : (s.modFibre r u).tags = s.tags := rfl
@[simp] theorem State.modFibre_copies (r : FibreRef) (u : Fibre → Fibre) : (s.modFibre r u).copies = s.copies := rfl
@[simp] theorem State.modFibre_coreTlb (r : FibreRef) (u : Fibre → Fibre) : (s.modFibre r u).coreTlb = s.coreTlb := rfl
@[simp] theorem State.modFibre_dieTlb (r : FibreRef) (u : Fibre → Fibre) : (s.modFibre r u).dieTlb = s.dieTlb := rfl
@[simp] theorem State.modFibre_walks (r : FibreRef) (u : Fibre → Fibre) : (s.modFibre r u).walks = s.walks := rfl
@[simp] theorem State.modFibre_binds (r : FibreRef) (u : Fibre → Fibre) : (s.modFibre r u).binds = s.binds := rfl
@[simp] theorem State.modFibre_slots (r : FibreRef) (u : Fibre → Fibre) : (s.modFibre r u).slots = s.slots := rfl
@[simp] theorem State.modFibre_teams (r : FibreRef) (u : Fibre → Fibre) : (s.modFibre r u).teams = s.teams := rfl
@[simp] theorem State.modFibre_clusters (r : FibreRef) (u : Fibre → Fibre) : (s.modFibre r u).clusters = s.clusters := rfl
@[simp] theorem State.modFibre_relics (r : FibreRef) (u : Fibre → Fibre) : (s.modFibre r u).relics = s.relics := rfl
@[simp] theorem State.modFibre_kernels (r : FibreRef) (u : Fibre → Fibre) : (s.modFibre r u).kernels = s.kernels := rfl
@[simp] theorem State.modFibre_queues (r : FibreRef) (u : Fibre → Fibre) : (s.modFibre r u).queues = s.queues := rfl
@[simp] theorem State.modFibre_acl (r : FibreRef) (u : Fibre → Fibre) : (s.modFibre r u).acl = s.acl := rfl
@[simp] theorem State.modFibre_ctxs (r : FibreRef) (u : Fibre → Fibre) : (s.modFibre r u).ctxs = s.ctxs := rfl
@[simp] theorem State.modFibre_monitors (r : FibreRef) (u : Fibre → Fibre) : (s.modFibre r u).monitors = s.monitors := rfl
@[simp] theorem State.modFibre_cmp (r : FibreRef) (u : Fibre → Fibre) : (s.modFibre r u).cmp = s.cmp := rfl
@[simp] theorem State.modFibre_keys (r : FibreRef) (u : Fibre → Fibre) : (s.modFibre r u).keys = s.keys := rfl
@[simp] theorem State.modFibre_cyc (r : FibreRef) (u : Fibre → Fibre) : (s.modFibre r u).cyc = s.cyc := rfl
@[simp] theorem State.modFibre_dev (r : FibreRef) (u : Fibre → Fibre) : (s.modFibre r u).dev = s.dev := rfl
@[simp] theorem State.modFibre_robin (r : FibreRef) (u : Fibre → Fibre) : (s.modFibre r u).robin = s.robin := rfl
@[simp] theorem State.modFibre_nextId (r : FibreRef) (u : Fibre → Fibre) : (s.modFibre r u).nextId = s.nextId := rfl
@[simp] theorem State.modFibre_ports (r : FibreRef) (u : Fibre → Fibre) : (s.modFibre r u).ports = s.ports := rfl
@[simp] theorem State.modFibre_planes (r : FibreRef) (u : Fibre → Fibre) : (s.modFibre r u).planes = s.planes := rfl
@[simp] theorem State.modFibre_routes (r : FibreRef) (u : Fibre → Fibre) : (s.modFibre r u).routes = s.routes := rfl
@[simp] theorem State.modFibre_span (r : FibreRef) (u : Fibre → Fibre) : (s.modFibre r u).span = s.span := rfl
@[simp] theorem State.modFibre_devGiven (r : FibreRef) (u : Fibre → Fibre) : (s.modFibre r u).devGiven = s.devGiven := rfl
@[simp] theorem State.modFibre_leftDown (r : FibreRef) (u : Fibre → Fibre) : (s.modFibre r u).leftDown = s.leftDown := rfl
@[simp] theorem State.modFibre_inc (r : FibreRef) (u : Fibre → Fibre) : (s.modFibre r u).inc = s.inc := rfl
@[simp] theorem State.modFibre_farInc (r : FibreRef) (u : Fibre → Fibre) : (s.modFibre r u).farInc = s.farInc := rfl
@[simp] theorem State.modFibre_seqs (r : FibreRef) (u : Fibre → Fibre) : (s.modFibre r u).seqs = s.seqs := rfl
@[simp] theorem State.modFibre_requests (r : FibreRef) (u : Fibre → Fibre) : (s.modFibre r u).requests = s.requests := rfl
@[simp] theorem State.modFibre_replies (r : FibreRef) (u : Fibre → Fibre) : (s.modFibre r u).replies = s.replies := rfl
@[simp] theorem State.modFibre_arrivals (r : FibreRef) (u : Fibre → Fibre) : (s.modFibre r u).arrivals = s.arrivals := rfl
@[simp] theorem State.modFibre_colls (r : FibreRef) (u : Fibre → Fibre) : (s.modFibre r u).colls = s.colls := rfl
@[simp] theorem State.modFibre_sent (r : FibreRef) (u : Fibre → Fibre) : (s.modFibre r u).sent = s.sent := rfl
@[simp] theorem State.modFibre_outbox (r : FibreRef) (u : Fibre → Fibre) : (s.modFibre r u).outbox = s.outbox := rfl
@[simp] theorem State.modFibre_cgs (r : FibreRef) (u : Fibre → Fibre) : (s.modFibre r u).cgs = s.cgs := rfl
@[simp] theorem State.modFibre_aborts (r : FibreRef) (u : Fibre → Fibre) : (s.modFibre r u).aborts = s.aborts := rfl
@[simp] theorem State.modFibre_staged (r : FibreRef) (u : Fibre → Fibre) : (s.modFibre r u).staged = s.staged := rfl
@[simp] theorem State.modFibre_staging (r : FibreRef) (u : Fibre → Fibre) : (s.modFibre r u).staging = s.staging := rfl
@[simp] theorem State.modFibre_releases (r : FibreRef) (u : Fibre → Fibre) : (s.modFibre r u).releases = s.releases := rfl
@[simp] theorem State.modFibre_dies (r : FibreRef) (u : Fibre → Fibre) : (s.modFibre r u).dies = s.dies := rfl
@[simp] theorem State.modFibre_pdies (r : FibreRef) (u : Fibre → Fibre) : (s.modFibre r u).pdies = s.pdies := rfl
@[simp] theorem State.modFibre_rails (r : FibreRef) (u : Fibre → Fibre) : (s.modFibre r u).rails = s.rails := rfl
@[simp] theorem State.modFibre_warm (r : FibreRef) (u : Fibre → Fibre) : (s.modFibre r u).warm = s.warm := rfl
@[simp] theorem State.modFibre_t2rate (r : FibreRef) (u : Fibre → Fibre) : (s.modFibre r u).t2rate = s.t2rate := rfl
@[simp] theorem State.modFibre_t2chan (r : FibreRef) (u : Fibre → Fibre) : (s.modFibre r u).t2chan = s.t2chan := rfl
@[simp] theorem State.modFibre_life (r : FibreRef) (u : Fibre → Fibre) : (s.modFibre r u).life = s.life := rfl
@[simp] theorem State.modFibre_kept (r : FibreRef) (u : Fibre → Fibre) : (s.modFibre r u).kept = s.kept := rfl
@[simp] theorem State.modFibre_session (r : FibreRef) (u : Fibre → Fibre) : (s.modFibre r u).session = s.session := rfl
@[simp] theorem State.modFibre_snaps (r : FibreRef) (u : Fibre → Fibre) : (s.modFibre r u).snaps = s.snaps := rfl
@[simp] theorem State.modFibre_notes (r : FibreRef) (u : Fibre → Fibre) : (s.modFibre r u).notes = s.notes := rfl
@[simp] theorem State.modFibre_agenda (r : FibreRef) (u : Fibre → Fibre) : (s.modFibre r u).agenda = s.agenda := rfl
@[simp] theorem State.modFibre_cur (r : FibreRef) (u : Fibre → Fibre) : (s.modFibre r u).cur = s.cur := rfl
@[simp] theorem State.modFibre_ticks (r : FibreRef) (u : Fibre → Fibre) : (s.modFibre r u).ticks = s.ticks := rfl

@[simp] theorem State.modSlot_mem (f : Fibre) (u : Slot → Slot) : (s.modSlot f u).mem = s.mem := rfl
@[simp] theorem State.modSlot_locks (f : Fibre) (u : Slot → Slot) : (s.modSlot f u).locks = s.locks := rfl
@[simp] theorem State.modSlot_codes (f : Fibre) (u : Slot → Slot) : (s.modSlot f u).codes = s.codes := rfl
@[simp] theorem State.modSlot_poison (f : Fibre) (u : Slot → Slot) : (s.modSlot f u).poison = s.poison := rfl
@[simp] theorem State.modSlot_tags (f : Fibre) (u : Slot → Slot) : (s.modSlot f u).tags = s.tags := rfl
@[simp] theorem State.modSlot_copies (f : Fibre) (u : Slot → Slot) : (s.modSlot f u).copies = s.copies := rfl
@[simp] theorem State.modSlot_coreTlb (f : Fibre) (u : Slot → Slot) : (s.modSlot f u).coreTlb = s.coreTlb := rfl
@[simp] theorem State.modSlot_dieTlb (f : Fibre) (u : Slot → Slot) : (s.modSlot f u).dieTlb = s.dieTlb := rfl
@[simp] theorem State.modSlot_walks (f : Fibre) (u : Slot → Slot) : (s.modSlot f u).walks = s.walks := rfl
@[simp] theorem State.modSlot_binds (f : Fibre) (u : Slot → Slot) : (s.modSlot f u).binds = s.binds := rfl
@[simp] theorem State.modSlot_fibres (f : Fibre) (u : Slot → Slot) : (s.modSlot f u).fibres = s.fibres := rfl
@[simp] theorem State.modSlot_teams (f : Fibre) (u : Slot → Slot) : (s.modSlot f u).teams = s.teams := rfl
@[simp] theorem State.modSlot_clusters (f : Fibre) (u : Slot → Slot) : (s.modSlot f u).clusters = s.clusters := rfl
@[simp] theorem State.modSlot_relics (f : Fibre) (u : Slot → Slot) : (s.modSlot f u).relics = s.relics := rfl
@[simp] theorem State.modSlot_kernels (f : Fibre) (u : Slot → Slot) : (s.modSlot f u).kernels = s.kernels := rfl
@[simp] theorem State.modSlot_queues (f : Fibre) (u : Slot → Slot) : (s.modSlot f u).queues = s.queues := rfl
@[simp] theorem State.modSlot_acl (f : Fibre) (u : Slot → Slot) : (s.modSlot f u).acl = s.acl := rfl
@[simp] theorem State.modSlot_ctxs (f : Fibre) (u : Slot → Slot) : (s.modSlot f u).ctxs = s.ctxs := rfl
@[simp] theorem State.modSlot_monitors (f : Fibre) (u : Slot → Slot) : (s.modSlot f u).monitors = s.monitors := rfl
@[simp] theorem State.modSlot_cmp (f : Fibre) (u : Slot → Slot) : (s.modSlot f u).cmp = s.cmp := rfl
@[simp] theorem State.modSlot_keys (f : Fibre) (u : Slot → Slot) : (s.modSlot f u).keys = s.keys := rfl
@[simp] theorem State.modSlot_cyc (f : Fibre) (u : Slot → Slot) : (s.modSlot f u).cyc = s.cyc := rfl
@[simp] theorem State.modSlot_dev (f : Fibre) (u : Slot → Slot) : (s.modSlot f u).dev = s.dev := rfl
@[simp] theorem State.modSlot_robin (f : Fibre) (u : Slot → Slot) : (s.modSlot f u).robin = s.robin := rfl
@[simp] theorem State.modSlot_nextId (f : Fibre) (u : Slot → Slot) : (s.modSlot f u).nextId = s.nextId := rfl
@[simp] theorem State.modSlot_ports (f : Fibre) (u : Slot → Slot) : (s.modSlot f u).ports = s.ports := rfl
@[simp] theorem State.modSlot_planes (f : Fibre) (u : Slot → Slot) : (s.modSlot f u).planes = s.planes := rfl
@[simp] theorem State.modSlot_routes (f : Fibre) (u : Slot → Slot) : (s.modSlot f u).routes = s.routes := rfl
@[simp] theorem State.modSlot_span (f : Fibre) (u : Slot → Slot) : (s.modSlot f u).span = s.span := rfl
@[simp] theorem State.modSlot_devGiven (f : Fibre) (u : Slot → Slot) : (s.modSlot f u).devGiven = s.devGiven := rfl
@[simp] theorem State.modSlot_leftDown (f : Fibre) (u : Slot → Slot) : (s.modSlot f u).leftDown = s.leftDown := rfl
@[simp] theorem State.modSlot_inc (f : Fibre) (u : Slot → Slot) : (s.modSlot f u).inc = s.inc := rfl
@[simp] theorem State.modSlot_farInc (f : Fibre) (u : Slot → Slot) : (s.modSlot f u).farInc = s.farInc := rfl
@[simp] theorem State.modSlot_seqs (f : Fibre) (u : Slot → Slot) : (s.modSlot f u).seqs = s.seqs := rfl
@[simp] theorem State.modSlot_requests (f : Fibre) (u : Slot → Slot) : (s.modSlot f u).requests = s.requests := rfl
@[simp] theorem State.modSlot_replies (f : Fibre) (u : Slot → Slot) : (s.modSlot f u).replies = s.replies := rfl
@[simp] theorem State.modSlot_arrivals (f : Fibre) (u : Slot → Slot) : (s.modSlot f u).arrivals = s.arrivals := rfl
@[simp] theorem State.modSlot_colls (f : Fibre) (u : Slot → Slot) : (s.modSlot f u).colls = s.colls := rfl
@[simp] theorem State.modSlot_sent (f : Fibre) (u : Slot → Slot) : (s.modSlot f u).sent = s.sent := rfl
@[simp] theorem State.modSlot_outbox (f : Fibre) (u : Slot → Slot) : (s.modSlot f u).outbox = s.outbox := rfl
@[simp] theorem State.modSlot_cgs (f : Fibre) (u : Slot → Slot) : (s.modSlot f u).cgs = s.cgs := rfl
@[simp] theorem State.modSlot_aborts (f : Fibre) (u : Slot → Slot) : (s.modSlot f u).aborts = s.aborts := rfl
@[simp] theorem State.modSlot_staged (f : Fibre) (u : Slot → Slot) : (s.modSlot f u).staged = s.staged := rfl
@[simp] theorem State.modSlot_staging (f : Fibre) (u : Slot → Slot) : (s.modSlot f u).staging = s.staging := rfl
@[simp] theorem State.modSlot_releases (f : Fibre) (u : Slot → Slot) : (s.modSlot f u).releases = s.releases := rfl
@[simp] theorem State.modSlot_dies (f : Fibre) (u : Slot → Slot) : (s.modSlot f u).dies = s.dies := rfl
@[simp] theorem State.modSlot_pdies (f : Fibre) (u : Slot → Slot) : (s.modSlot f u).pdies = s.pdies := rfl
@[simp] theorem State.modSlot_rails (f : Fibre) (u : Slot → Slot) : (s.modSlot f u).rails = s.rails := rfl
@[simp] theorem State.modSlot_warm (f : Fibre) (u : Slot → Slot) : (s.modSlot f u).warm = s.warm := rfl
@[simp] theorem State.modSlot_t2rate (f : Fibre) (u : Slot → Slot) : (s.modSlot f u).t2rate = s.t2rate := rfl
@[simp] theorem State.modSlot_t2chan (f : Fibre) (u : Slot → Slot) : (s.modSlot f u).t2chan = s.t2chan := rfl
@[simp] theorem State.modSlot_life (f : Fibre) (u : Slot → Slot) : (s.modSlot f u).life = s.life := rfl
@[simp] theorem State.modSlot_kept (f : Fibre) (u : Slot → Slot) : (s.modSlot f u).kept = s.kept := rfl
@[simp] theorem State.modSlot_session (f : Fibre) (u : Slot → Slot) : (s.modSlot f u).session = s.session := rfl
@[simp] theorem State.modSlot_snaps (f : Fibre) (u : Slot → Slot) : (s.modSlot f u).snaps = s.snaps := rfl
@[simp] theorem State.modSlot_notes (f : Fibre) (u : Slot → Slot) : (s.modSlot f u).notes = s.notes := rfl
@[simp] theorem State.modSlot_agenda (f : Fibre) (u : Slot → Slot) : (s.modSlot f u).agenda = s.agenda := rfl
@[simp] theorem State.modSlot_cur (f : Fibre) (u : Slot → Slot) : (s.modSlot f u).cur = s.cur := rfl
@[simp] theorem State.modSlot_ticks (f : Fibre) (u : Slot → Slot) : (s.modSlot f u).ticks = s.ticks := rfl

@[simp] theorem State.modTeam_mem (cl rank : Nat) (u : Team → Team) : (s.modTeam cl rank u).mem = s.mem := rfl
@[simp] theorem State.modTeam_locks (cl rank : Nat) (u : Team → Team) : (s.modTeam cl rank u).locks = s.locks := rfl
@[simp] theorem State.modTeam_codes (cl rank : Nat) (u : Team → Team) : (s.modTeam cl rank u).codes = s.codes := rfl
@[simp] theorem State.modTeam_poison (cl rank : Nat) (u : Team → Team) : (s.modTeam cl rank u).poison = s.poison := rfl
@[simp] theorem State.modTeam_tags (cl rank : Nat) (u : Team → Team) : (s.modTeam cl rank u).tags = s.tags := rfl
@[simp] theorem State.modTeam_copies (cl rank : Nat) (u : Team → Team) : (s.modTeam cl rank u).copies = s.copies := rfl
@[simp] theorem State.modTeam_coreTlb (cl rank : Nat) (u : Team → Team) : (s.modTeam cl rank u).coreTlb = s.coreTlb := rfl
@[simp] theorem State.modTeam_dieTlb (cl rank : Nat) (u : Team → Team) : (s.modTeam cl rank u).dieTlb = s.dieTlb := rfl
@[simp] theorem State.modTeam_walks (cl rank : Nat) (u : Team → Team) : (s.modTeam cl rank u).walks = s.walks := rfl
@[simp] theorem State.modTeam_binds (cl rank : Nat) (u : Team → Team) : (s.modTeam cl rank u).binds = s.binds := rfl
@[simp] theorem State.modTeam_fibres (cl rank : Nat) (u : Team → Team) : (s.modTeam cl rank u).fibres = s.fibres := rfl
@[simp] theorem State.modTeam_slots (cl rank : Nat) (u : Team → Team) : (s.modTeam cl rank u).slots = s.slots := rfl
@[simp] theorem State.modTeam_clusters (cl rank : Nat) (u : Team → Team) : (s.modTeam cl rank u).clusters = s.clusters := rfl
@[simp] theorem State.modTeam_relics (cl rank : Nat) (u : Team → Team) : (s.modTeam cl rank u).relics = s.relics := rfl
@[simp] theorem State.modTeam_kernels (cl rank : Nat) (u : Team → Team) : (s.modTeam cl rank u).kernels = s.kernels := rfl
@[simp] theorem State.modTeam_queues (cl rank : Nat) (u : Team → Team) : (s.modTeam cl rank u).queues = s.queues := rfl
@[simp] theorem State.modTeam_acl (cl rank : Nat) (u : Team → Team) : (s.modTeam cl rank u).acl = s.acl := rfl
@[simp] theorem State.modTeam_ctxs (cl rank : Nat) (u : Team → Team) : (s.modTeam cl rank u).ctxs = s.ctxs := rfl
@[simp] theorem State.modTeam_monitors (cl rank : Nat) (u : Team → Team) : (s.modTeam cl rank u).monitors = s.monitors := rfl
@[simp] theorem State.modTeam_cmp (cl rank : Nat) (u : Team → Team) : (s.modTeam cl rank u).cmp = s.cmp := rfl
@[simp] theorem State.modTeam_keys (cl rank : Nat) (u : Team → Team) : (s.modTeam cl rank u).keys = s.keys := rfl
@[simp] theorem State.modTeam_cyc (cl rank : Nat) (u : Team → Team) : (s.modTeam cl rank u).cyc = s.cyc := rfl
@[simp] theorem State.modTeam_dev (cl rank : Nat) (u : Team → Team) : (s.modTeam cl rank u).dev = s.dev := rfl
@[simp] theorem State.modTeam_robin (cl rank : Nat) (u : Team → Team) : (s.modTeam cl rank u).robin = s.robin := rfl
@[simp] theorem State.modTeam_nextId (cl rank : Nat) (u : Team → Team) : (s.modTeam cl rank u).nextId = s.nextId := rfl
@[simp] theorem State.modTeam_ports (cl rank : Nat) (u : Team → Team) : (s.modTeam cl rank u).ports = s.ports := rfl
@[simp] theorem State.modTeam_planes (cl rank : Nat) (u : Team → Team) : (s.modTeam cl rank u).planes = s.planes := rfl
@[simp] theorem State.modTeam_routes (cl rank : Nat) (u : Team → Team) : (s.modTeam cl rank u).routes = s.routes := rfl
@[simp] theorem State.modTeam_span (cl rank : Nat) (u : Team → Team) : (s.modTeam cl rank u).span = s.span := rfl
@[simp] theorem State.modTeam_devGiven (cl rank : Nat) (u : Team → Team) : (s.modTeam cl rank u).devGiven = s.devGiven := rfl
@[simp] theorem State.modTeam_leftDown (cl rank : Nat) (u : Team → Team) : (s.modTeam cl rank u).leftDown = s.leftDown := rfl
@[simp] theorem State.modTeam_inc (cl rank : Nat) (u : Team → Team) : (s.modTeam cl rank u).inc = s.inc := rfl
@[simp] theorem State.modTeam_farInc (cl rank : Nat) (u : Team → Team) : (s.modTeam cl rank u).farInc = s.farInc := rfl
@[simp] theorem State.modTeam_seqs (cl rank : Nat) (u : Team → Team) : (s.modTeam cl rank u).seqs = s.seqs := rfl
@[simp] theorem State.modTeam_requests (cl rank : Nat) (u : Team → Team) : (s.modTeam cl rank u).requests = s.requests := rfl
@[simp] theorem State.modTeam_replies (cl rank : Nat) (u : Team → Team) : (s.modTeam cl rank u).replies = s.replies := rfl
@[simp] theorem State.modTeam_arrivals (cl rank : Nat) (u : Team → Team) : (s.modTeam cl rank u).arrivals = s.arrivals := rfl
@[simp] theorem State.modTeam_colls (cl rank : Nat) (u : Team → Team) : (s.modTeam cl rank u).colls = s.colls := rfl
@[simp] theorem State.modTeam_sent (cl rank : Nat) (u : Team → Team) : (s.modTeam cl rank u).sent = s.sent := rfl
@[simp] theorem State.modTeam_outbox (cl rank : Nat) (u : Team → Team) : (s.modTeam cl rank u).outbox = s.outbox := rfl
@[simp] theorem State.modTeam_cgs (cl rank : Nat) (u : Team → Team) : (s.modTeam cl rank u).cgs = s.cgs := rfl
@[simp] theorem State.modTeam_aborts (cl rank : Nat) (u : Team → Team) : (s.modTeam cl rank u).aborts = s.aborts := rfl
@[simp] theorem State.modTeam_staged (cl rank : Nat) (u : Team → Team) : (s.modTeam cl rank u).staged = s.staged := rfl
@[simp] theorem State.modTeam_staging (cl rank : Nat) (u : Team → Team) : (s.modTeam cl rank u).staging = s.staging := rfl
@[simp] theorem State.modTeam_releases (cl rank : Nat) (u : Team → Team) : (s.modTeam cl rank u).releases = s.releases := rfl
@[simp] theorem State.modTeam_dies (cl rank : Nat) (u : Team → Team) : (s.modTeam cl rank u).dies = s.dies := rfl
@[simp] theorem State.modTeam_pdies (cl rank : Nat) (u : Team → Team) : (s.modTeam cl rank u).pdies = s.pdies := rfl
@[simp] theorem State.modTeam_rails (cl rank : Nat) (u : Team → Team) : (s.modTeam cl rank u).rails = s.rails := rfl
@[simp] theorem State.modTeam_warm (cl rank : Nat) (u : Team → Team) : (s.modTeam cl rank u).warm = s.warm := rfl
@[simp] theorem State.modTeam_t2rate (cl rank : Nat) (u : Team → Team) : (s.modTeam cl rank u).t2rate = s.t2rate := rfl
@[simp] theorem State.modTeam_t2chan (cl rank : Nat) (u : Team → Team) : (s.modTeam cl rank u).t2chan = s.t2chan := rfl
@[simp] theorem State.modTeam_life (cl rank : Nat) (u : Team → Team) : (s.modTeam cl rank u).life = s.life := rfl
@[simp] theorem State.modTeam_kept (cl rank : Nat) (u : Team → Team) : (s.modTeam cl rank u).kept = s.kept := rfl
@[simp] theorem State.modTeam_session (cl rank : Nat) (u : Team → Team) : (s.modTeam cl rank u).session = s.session := rfl
@[simp] theorem State.modTeam_snaps (cl rank : Nat) (u : Team → Team) : (s.modTeam cl rank u).snaps = s.snaps := rfl
@[simp] theorem State.modTeam_notes (cl rank : Nat) (u : Team → Team) : (s.modTeam cl rank u).notes = s.notes := rfl
@[simp] theorem State.modTeam_agenda (cl rank : Nat) (u : Team → Team) : (s.modTeam cl rank u).agenda = s.agenda := rfl
@[simp] theorem State.modTeam_cur (cl rank : Nat) (u : Team → Team) : (s.modTeam cl rank u).cur = s.cur := rfl
@[simp] theorem State.modTeam_ticks (cl rank : Nat) (u : Team → Team) : (s.modTeam cl rank u).ticks = s.ticks := rfl

@[simp] theorem State.modCluster_mem (cl : Nat) (u : Cluster → Cluster) : (s.modCluster cl u).mem = s.mem := rfl
@[simp] theorem State.modCluster_locks (cl : Nat) (u : Cluster → Cluster) : (s.modCluster cl u).locks = s.locks := rfl
@[simp] theorem State.modCluster_codes (cl : Nat) (u : Cluster → Cluster) : (s.modCluster cl u).codes = s.codes := rfl
@[simp] theorem State.modCluster_poison (cl : Nat) (u : Cluster → Cluster) : (s.modCluster cl u).poison = s.poison := rfl
@[simp] theorem State.modCluster_tags (cl : Nat) (u : Cluster → Cluster) : (s.modCluster cl u).tags = s.tags := rfl
@[simp] theorem State.modCluster_copies (cl : Nat) (u : Cluster → Cluster) : (s.modCluster cl u).copies = s.copies := rfl
@[simp] theorem State.modCluster_coreTlb (cl : Nat) (u : Cluster → Cluster) : (s.modCluster cl u).coreTlb = s.coreTlb := rfl
@[simp] theorem State.modCluster_dieTlb (cl : Nat) (u : Cluster → Cluster) : (s.modCluster cl u).dieTlb = s.dieTlb := rfl
@[simp] theorem State.modCluster_walks (cl : Nat) (u : Cluster → Cluster) : (s.modCluster cl u).walks = s.walks := rfl
@[simp] theorem State.modCluster_binds (cl : Nat) (u : Cluster → Cluster) : (s.modCluster cl u).binds = s.binds := rfl
@[simp] theorem State.modCluster_fibres (cl : Nat) (u : Cluster → Cluster) : (s.modCluster cl u).fibres = s.fibres := rfl
@[simp] theorem State.modCluster_slots (cl : Nat) (u : Cluster → Cluster) : (s.modCluster cl u).slots = s.slots := rfl
@[simp] theorem State.modCluster_teams (cl : Nat) (u : Cluster → Cluster) : (s.modCluster cl u).teams = s.teams := rfl
@[simp] theorem State.modCluster_relics (cl : Nat) (u : Cluster → Cluster) : (s.modCluster cl u).relics = s.relics := rfl
@[simp] theorem State.modCluster_kernels (cl : Nat) (u : Cluster → Cluster) : (s.modCluster cl u).kernels = s.kernels := rfl
@[simp] theorem State.modCluster_queues (cl : Nat) (u : Cluster → Cluster) : (s.modCluster cl u).queues = s.queues := rfl
@[simp] theorem State.modCluster_acl (cl : Nat) (u : Cluster → Cluster) : (s.modCluster cl u).acl = s.acl := rfl
@[simp] theorem State.modCluster_ctxs (cl : Nat) (u : Cluster → Cluster) : (s.modCluster cl u).ctxs = s.ctxs := rfl
@[simp] theorem State.modCluster_monitors (cl : Nat) (u : Cluster → Cluster) : (s.modCluster cl u).monitors = s.monitors := rfl
@[simp] theorem State.modCluster_cmp (cl : Nat) (u : Cluster → Cluster) : (s.modCluster cl u).cmp = s.cmp := rfl
@[simp] theorem State.modCluster_keys (cl : Nat) (u : Cluster → Cluster) : (s.modCluster cl u).keys = s.keys := rfl
@[simp] theorem State.modCluster_cyc (cl : Nat) (u : Cluster → Cluster) : (s.modCluster cl u).cyc = s.cyc := rfl
@[simp] theorem State.modCluster_dev (cl : Nat) (u : Cluster → Cluster) : (s.modCluster cl u).dev = s.dev := rfl
@[simp] theorem State.modCluster_robin (cl : Nat) (u : Cluster → Cluster) : (s.modCluster cl u).robin = s.robin := rfl
@[simp] theorem State.modCluster_nextId (cl : Nat) (u : Cluster → Cluster) : (s.modCluster cl u).nextId = s.nextId := rfl
@[simp] theorem State.modCluster_ports (cl : Nat) (u : Cluster → Cluster) : (s.modCluster cl u).ports = s.ports := rfl
@[simp] theorem State.modCluster_planes (cl : Nat) (u : Cluster → Cluster) : (s.modCluster cl u).planes = s.planes := rfl
@[simp] theorem State.modCluster_routes (cl : Nat) (u : Cluster → Cluster) : (s.modCluster cl u).routes = s.routes := rfl
@[simp] theorem State.modCluster_span (cl : Nat) (u : Cluster → Cluster) : (s.modCluster cl u).span = s.span := rfl
@[simp] theorem State.modCluster_devGiven (cl : Nat) (u : Cluster → Cluster) : (s.modCluster cl u).devGiven = s.devGiven := rfl
@[simp] theorem State.modCluster_leftDown (cl : Nat) (u : Cluster → Cluster) : (s.modCluster cl u).leftDown = s.leftDown := rfl
@[simp] theorem State.modCluster_inc (cl : Nat) (u : Cluster → Cluster) : (s.modCluster cl u).inc = s.inc := rfl
@[simp] theorem State.modCluster_farInc (cl : Nat) (u : Cluster → Cluster) : (s.modCluster cl u).farInc = s.farInc := rfl
@[simp] theorem State.modCluster_seqs (cl : Nat) (u : Cluster → Cluster) : (s.modCluster cl u).seqs = s.seqs := rfl
@[simp] theorem State.modCluster_requests (cl : Nat) (u : Cluster → Cluster) : (s.modCluster cl u).requests = s.requests := rfl
@[simp] theorem State.modCluster_replies (cl : Nat) (u : Cluster → Cluster) : (s.modCluster cl u).replies = s.replies := rfl
@[simp] theorem State.modCluster_arrivals (cl : Nat) (u : Cluster → Cluster) : (s.modCluster cl u).arrivals = s.arrivals := rfl
@[simp] theorem State.modCluster_colls (cl : Nat) (u : Cluster → Cluster) : (s.modCluster cl u).colls = s.colls := rfl
@[simp] theorem State.modCluster_sent (cl : Nat) (u : Cluster → Cluster) : (s.modCluster cl u).sent = s.sent := rfl
@[simp] theorem State.modCluster_outbox (cl : Nat) (u : Cluster → Cluster) : (s.modCluster cl u).outbox = s.outbox := rfl
@[simp] theorem State.modCluster_cgs (cl : Nat) (u : Cluster → Cluster) : (s.modCluster cl u).cgs = s.cgs := rfl
@[simp] theorem State.modCluster_aborts (cl : Nat) (u : Cluster → Cluster) : (s.modCluster cl u).aborts = s.aborts := rfl
@[simp] theorem State.modCluster_staged (cl : Nat) (u : Cluster → Cluster) : (s.modCluster cl u).staged = s.staged := rfl
@[simp] theorem State.modCluster_staging (cl : Nat) (u : Cluster → Cluster) : (s.modCluster cl u).staging = s.staging := rfl
@[simp] theorem State.modCluster_releases (cl : Nat) (u : Cluster → Cluster) : (s.modCluster cl u).releases = s.releases := rfl
@[simp] theorem State.modCluster_dies (cl : Nat) (u : Cluster → Cluster) : (s.modCluster cl u).dies = s.dies := rfl
@[simp] theorem State.modCluster_pdies (cl : Nat) (u : Cluster → Cluster) : (s.modCluster cl u).pdies = s.pdies := rfl
@[simp] theorem State.modCluster_rails (cl : Nat) (u : Cluster → Cluster) : (s.modCluster cl u).rails = s.rails := rfl
@[simp] theorem State.modCluster_warm (cl : Nat) (u : Cluster → Cluster) : (s.modCluster cl u).warm = s.warm := rfl
@[simp] theorem State.modCluster_t2rate (cl : Nat) (u : Cluster → Cluster) : (s.modCluster cl u).t2rate = s.t2rate := rfl
@[simp] theorem State.modCluster_t2chan (cl : Nat) (u : Cluster → Cluster) : (s.modCluster cl u).t2chan = s.t2chan := rfl
@[simp] theorem State.modCluster_life (cl : Nat) (u : Cluster → Cluster) : (s.modCluster cl u).life = s.life := rfl
@[simp] theorem State.modCluster_kept (cl : Nat) (u : Cluster → Cluster) : (s.modCluster cl u).kept = s.kept := rfl
@[simp] theorem State.modCluster_session (cl : Nat) (u : Cluster → Cluster) : (s.modCluster cl u).session = s.session := rfl
@[simp] theorem State.modCluster_snaps (cl : Nat) (u : Cluster → Cluster) : (s.modCluster cl u).snaps = s.snaps := rfl
@[simp] theorem State.modCluster_notes (cl : Nat) (u : Cluster → Cluster) : (s.modCluster cl u).notes = s.notes := rfl
@[simp] theorem State.modCluster_agenda (cl : Nat) (u : Cluster → Cluster) : (s.modCluster cl u).agenda = s.agenda := rfl
@[simp] theorem State.modCluster_cur (cl : Nat) (u : Cluster → Cluster) : (s.modCluster cl u).cur = s.cur := rfl
@[simp] theorem State.modCluster_ticks (cl : Nat) (u : Cluster → Cluster) : (s.modCluster cl u).ticks = s.ticks := rfl

@[simp] theorem State.modKernel_mem (k : KernelRef) (u : Kernel → Kernel) : (s.modKernel k u).mem = s.mem := rfl
@[simp] theorem State.modKernel_locks (k : KernelRef) (u : Kernel → Kernel) : (s.modKernel k u).locks = s.locks := rfl
@[simp] theorem State.modKernel_codes (k : KernelRef) (u : Kernel → Kernel) : (s.modKernel k u).codes = s.codes := rfl
@[simp] theorem State.modKernel_poison (k : KernelRef) (u : Kernel → Kernel) : (s.modKernel k u).poison = s.poison := rfl
@[simp] theorem State.modKernel_tags (k : KernelRef) (u : Kernel → Kernel) : (s.modKernel k u).tags = s.tags := rfl
@[simp] theorem State.modKernel_copies (k : KernelRef) (u : Kernel → Kernel) : (s.modKernel k u).copies = s.copies := rfl
@[simp] theorem State.modKernel_coreTlb (k : KernelRef) (u : Kernel → Kernel) : (s.modKernel k u).coreTlb = s.coreTlb := rfl
@[simp] theorem State.modKernel_dieTlb (k : KernelRef) (u : Kernel → Kernel) : (s.modKernel k u).dieTlb = s.dieTlb := rfl
@[simp] theorem State.modKernel_walks (k : KernelRef) (u : Kernel → Kernel) : (s.modKernel k u).walks = s.walks := rfl
@[simp] theorem State.modKernel_binds (k : KernelRef) (u : Kernel → Kernel) : (s.modKernel k u).binds = s.binds := rfl
@[simp] theorem State.modKernel_fibres (k : KernelRef) (u : Kernel → Kernel) : (s.modKernel k u).fibres = s.fibres := rfl
@[simp] theorem State.modKernel_slots (k : KernelRef) (u : Kernel → Kernel) : (s.modKernel k u).slots = s.slots := rfl
@[simp] theorem State.modKernel_teams (k : KernelRef) (u : Kernel → Kernel) : (s.modKernel k u).teams = s.teams := rfl
@[simp] theorem State.modKernel_clusters (k : KernelRef) (u : Kernel → Kernel) : (s.modKernel k u).clusters = s.clusters := rfl
@[simp] theorem State.modKernel_relics (k : KernelRef) (u : Kernel → Kernel) : (s.modKernel k u).relics = s.relics := rfl
@[simp] theorem State.modKernel_queues (k : KernelRef) (u : Kernel → Kernel) : (s.modKernel k u).queues = s.queues := rfl
@[simp] theorem State.modKernel_acl (k : KernelRef) (u : Kernel → Kernel) : (s.modKernel k u).acl = s.acl := rfl
@[simp] theorem State.modKernel_ctxs (k : KernelRef) (u : Kernel → Kernel) : (s.modKernel k u).ctxs = s.ctxs := rfl
@[simp] theorem State.modKernel_monitors (k : KernelRef) (u : Kernel → Kernel) : (s.modKernel k u).monitors = s.monitors := rfl
@[simp] theorem State.modKernel_cmp (k : KernelRef) (u : Kernel → Kernel) : (s.modKernel k u).cmp = s.cmp := rfl
@[simp] theorem State.modKernel_keys (k : KernelRef) (u : Kernel → Kernel) : (s.modKernel k u).keys = s.keys := rfl
@[simp] theorem State.modKernel_cyc (k : KernelRef) (u : Kernel → Kernel) : (s.modKernel k u).cyc = s.cyc := rfl
@[simp] theorem State.modKernel_dev (k : KernelRef) (u : Kernel → Kernel) : (s.modKernel k u).dev = s.dev := rfl
@[simp] theorem State.modKernel_robin (k : KernelRef) (u : Kernel → Kernel) : (s.modKernel k u).robin = s.robin := rfl
@[simp] theorem State.modKernel_nextId (k : KernelRef) (u : Kernel → Kernel) : (s.modKernel k u).nextId = s.nextId := rfl
@[simp] theorem State.modKernel_ports (k : KernelRef) (u : Kernel → Kernel) : (s.modKernel k u).ports = s.ports := rfl
@[simp] theorem State.modKernel_planes (k : KernelRef) (u : Kernel → Kernel) : (s.modKernel k u).planes = s.planes := rfl
@[simp] theorem State.modKernel_routes (k : KernelRef) (u : Kernel → Kernel) : (s.modKernel k u).routes = s.routes := rfl
@[simp] theorem State.modKernel_span (k : KernelRef) (u : Kernel → Kernel) : (s.modKernel k u).span = s.span := rfl
@[simp] theorem State.modKernel_devGiven (k : KernelRef) (u : Kernel → Kernel) : (s.modKernel k u).devGiven = s.devGiven := rfl
@[simp] theorem State.modKernel_leftDown (k : KernelRef) (u : Kernel → Kernel) : (s.modKernel k u).leftDown = s.leftDown := rfl
@[simp] theorem State.modKernel_inc (k : KernelRef) (u : Kernel → Kernel) : (s.modKernel k u).inc = s.inc := rfl
@[simp] theorem State.modKernel_farInc (k : KernelRef) (u : Kernel → Kernel) : (s.modKernel k u).farInc = s.farInc := rfl
@[simp] theorem State.modKernel_seqs (k : KernelRef) (u : Kernel → Kernel) : (s.modKernel k u).seqs = s.seqs := rfl
@[simp] theorem State.modKernel_requests (k : KernelRef) (u : Kernel → Kernel) : (s.modKernel k u).requests = s.requests := rfl
@[simp] theorem State.modKernel_replies (k : KernelRef) (u : Kernel → Kernel) : (s.modKernel k u).replies = s.replies := rfl
@[simp] theorem State.modKernel_arrivals (k : KernelRef) (u : Kernel → Kernel) : (s.modKernel k u).arrivals = s.arrivals := rfl
@[simp] theorem State.modKernel_colls (k : KernelRef) (u : Kernel → Kernel) : (s.modKernel k u).colls = s.colls := rfl
@[simp] theorem State.modKernel_sent (k : KernelRef) (u : Kernel → Kernel) : (s.modKernel k u).sent = s.sent := rfl
@[simp] theorem State.modKernel_outbox (k : KernelRef) (u : Kernel → Kernel) : (s.modKernel k u).outbox = s.outbox := rfl
@[simp] theorem State.modKernel_cgs (k : KernelRef) (u : Kernel → Kernel) : (s.modKernel k u).cgs = s.cgs := rfl
@[simp] theorem State.modKernel_aborts (k : KernelRef) (u : Kernel → Kernel) : (s.modKernel k u).aborts = s.aborts := rfl
@[simp] theorem State.modKernel_staged (k : KernelRef) (u : Kernel → Kernel) : (s.modKernel k u).staged = s.staged := rfl
@[simp] theorem State.modKernel_staging (k : KernelRef) (u : Kernel → Kernel) : (s.modKernel k u).staging = s.staging := rfl
@[simp] theorem State.modKernel_releases (k : KernelRef) (u : Kernel → Kernel) : (s.modKernel k u).releases = s.releases := rfl
@[simp] theorem State.modKernel_dies (k : KernelRef) (u : Kernel → Kernel) : (s.modKernel k u).dies = s.dies := rfl
@[simp] theorem State.modKernel_pdies (k : KernelRef) (u : Kernel → Kernel) : (s.modKernel k u).pdies = s.pdies := rfl
@[simp] theorem State.modKernel_rails (k : KernelRef) (u : Kernel → Kernel) : (s.modKernel k u).rails = s.rails := rfl
@[simp] theorem State.modKernel_warm (k : KernelRef) (u : Kernel → Kernel) : (s.modKernel k u).warm = s.warm := rfl
@[simp] theorem State.modKernel_t2rate (k : KernelRef) (u : Kernel → Kernel) : (s.modKernel k u).t2rate = s.t2rate := rfl
@[simp] theorem State.modKernel_t2chan (k : KernelRef) (u : Kernel → Kernel) : (s.modKernel k u).t2chan = s.t2chan := rfl
@[simp] theorem State.modKernel_life (k : KernelRef) (u : Kernel → Kernel) : (s.modKernel k u).life = s.life := rfl
@[simp] theorem State.modKernel_kept (k : KernelRef) (u : Kernel → Kernel) : (s.modKernel k u).kept = s.kept := rfl
@[simp] theorem State.modKernel_session (k : KernelRef) (u : Kernel → Kernel) : (s.modKernel k u).session = s.session := rfl
@[simp] theorem State.modKernel_snaps (k : KernelRef) (u : Kernel → Kernel) : (s.modKernel k u).snaps = s.snaps := rfl
@[simp] theorem State.modKernel_notes (k : KernelRef) (u : Kernel → Kernel) : (s.modKernel k u).notes = s.notes := rfl
@[simp] theorem State.modKernel_agenda (k : KernelRef) (u : Kernel → Kernel) : (s.modKernel k u).agenda = s.agenda := rfl
@[simp] theorem State.modKernel_cur (k : KernelRef) (u : Kernel → Kernel) : (s.modKernel k u).cur = s.cur := rfl
@[simp] theorem State.modKernel_ticks (k : KernelRef) (u : Kernel → Kernel) : (s.modKernel k u).ticks = s.ticks := rfl

@[simp] theorem State.modCtx_mem (a : BitVec 16) (u : Context → Context) : (s.modCtx a u).mem = s.mem := rfl
@[simp] theorem State.modCtx_locks (a : BitVec 16) (u : Context → Context) : (s.modCtx a u).locks = s.locks := rfl
@[simp] theorem State.modCtx_codes (a : BitVec 16) (u : Context → Context) : (s.modCtx a u).codes = s.codes := rfl
@[simp] theorem State.modCtx_poison (a : BitVec 16) (u : Context → Context) : (s.modCtx a u).poison = s.poison := rfl
@[simp] theorem State.modCtx_tags (a : BitVec 16) (u : Context → Context) : (s.modCtx a u).tags = s.tags := rfl
@[simp] theorem State.modCtx_copies (a : BitVec 16) (u : Context → Context) : (s.modCtx a u).copies = s.copies := rfl
@[simp] theorem State.modCtx_coreTlb (a : BitVec 16) (u : Context → Context) : (s.modCtx a u).coreTlb = s.coreTlb := rfl
@[simp] theorem State.modCtx_dieTlb (a : BitVec 16) (u : Context → Context) : (s.modCtx a u).dieTlb = s.dieTlb := rfl
@[simp] theorem State.modCtx_walks (a : BitVec 16) (u : Context → Context) : (s.modCtx a u).walks = s.walks := rfl
@[simp] theorem State.modCtx_binds (a : BitVec 16) (u : Context → Context) : (s.modCtx a u).binds = s.binds := rfl
@[simp] theorem State.modCtx_fibres (a : BitVec 16) (u : Context → Context) : (s.modCtx a u).fibres = s.fibres := rfl
@[simp] theorem State.modCtx_slots (a : BitVec 16) (u : Context → Context) : (s.modCtx a u).slots = s.slots := rfl
@[simp] theorem State.modCtx_teams (a : BitVec 16) (u : Context → Context) : (s.modCtx a u).teams = s.teams := rfl
@[simp] theorem State.modCtx_clusters (a : BitVec 16) (u : Context → Context) : (s.modCtx a u).clusters = s.clusters := rfl
@[simp] theorem State.modCtx_relics (a : BitVec 16) (u : Context → Context) : (s.modCtx a u).relics = s.relics := rfl
@[simp] theorem State.modCtx_kernels (a : BitVec 16) (u : Context → Context) : (s.modCtx a u).kernels = s.kernels := rfl
@[simp] theorem State.modCtx_queues (a : BitVec 16) (u : Context → Context) : (s.modCtx a u).queues = s.queues := rfl
@[simp] theorem State.modCtx_acl (a : BitVec 16) (u : Context → Context) : (s.modCtx a u).acl = s.acl := rfl
@[simp] theorem State.modCtx_monitors (a : BitVec 16) (u : Context → Context) : (s.modCtx a u).monitors = s.monitors := rfl
@[simp] theorem State.modCtx_cmp (a : BitVec 16) (u : Context → Context) : (s.modCtx a u).cmp = s.cmp := rfl
@[simp] theorem State.modCtx_keys (a : BitVec 16) (u : Context → Context) : (s.modCtx a u).keys = s.keys := rfl
@[simp] theorem State.modCtx_cyc (a : BitVec 16) (u : Context → Context) : (s.modCtx a u).cyc = s.cyc := rfl
@[simp] theorem State.modCtx_dev (a : BitVec 16) (u : Context → Context) : (s.modCtx a u).dev = s.dev := rfl
@[simp] theorem State.modCtx_robin (a : BitVec 16) (u : Context → Context) : (s.modCtx a u).robin = s.robin := rfl
@[simp] theorem State.modCtx_nextId (a : BitVec 16) (u : Context → Context) : (s.modCtx a u).nextId = s.nextId := rfl
@[simp] theorem State.modCtx_ports (a : BitVec 16) (u : Context → Context) : (s.modCtx a u).ports = s.ports := rfl
@[simp] theorem State.modCtx_planes (a : BitVec 16) (u : Context → Context) : (s.modCtx a u).planes = s.planes := rfl
@[simp] theorem State.modCtx_routes (a : BitVec 16) (u : Context → Context) : (s.modCtx a u).routes = s.routes := rfl
@[simp] theorem State.modCtx_span (a : BitVec 16) (u : Context → Context) : (s.modCtx a u).span = s.span := rfl
@[simp] theorem State.modCtx_devGiven (a : BitVec 16) (u : Context → Context) : (s.modCtx a u).devGiven = s.devGiven := rfl
@[simp] theorem State.modCtx_leftDown (a : BitVec 16) (u : Context → Context) : (s.modCtx a u).leftDown = s.leftDown := rfl
@[simp] theorem State.modCtx_inc (a : BitVec 16) (u : Context → Context) : (s.modCtx a u).inc = s.inc := rfl
@[simp] theorem State.modCtx_farInc (a : BitVec 16) (u : Context → Context) : (s.modCtx a u).farInc = s.farInc := rfl
@[simp] theorem State.modCtx_seqs (a : BitVec 16) (u : Context → Context) : (s.modCtx a u).seqs = s.seqs := rfl
@[simp] theorem State.modCtx_requests (a : BitVec 16) (u : Context → Context) : (s.modCtx a u).requests = s.requests := rfl
@[simp] theorem State.modCtx_replies (a : BitVec 16) (u : Context → Context) : (s.modCtx a u).replies = s.replies := rfl
@[simp] theorem State.modCtx_arrivals (a : BitVec 16) (u : Context → Context) : (s.modCtx a u).arrivals = s.arrivals := rfl
@[simp] theorem State.modCtx_colls (a : BitVec 16) (u : Context → Context) : (s.modCtx a u).colls = s.colls := rfl
@[simp] theorem State.modCtx_sent (a : BitVec 16) (u : Context → Context) : (s.modCtx a u).sent = s.sent := rfl
@[simp] theorem State.modCtx_outbox (a : BitVec 16) (u : Context → Context) : (s.modCtx a u).outbox = s.outbox := rfl
@[simp] theorem State.modCtx_cgs (a : BitVec 16) (u : Context → Context) : (s.modCtx a u).cgs = s.cgs := rfl
@[simp] theorem State.modCtx_aborts (a : BitVec 16) (u : Context → Context) : (s.modCtx a u).aborts = s.aborts := rfl
@[simp] theorem State.modCtx_staged (a : BitVec 16) (u : Context → Context) : (s.modCtx a u).staged = s.staged := rfl
@[simp] theorem State.modCtx_staging (a : BitVec 16) (u : Context → Context) : (s.modCtx a u).staging = s.staging := rfl
@[simp] theorem State.modCtx_releases (a : BitVec 16) (u : Context → Context) : (s.modCtx a u).releases = s.releases := rfl
@[simp] theorem State.modCtx_dies (a : BitVec 16) (u : Context → Context) : (s.modCtx a u).dies = s.dies := rfl
@[simp] theorem State.modCtx_pdies (a : BitVec 16) (u : Context → Context) : (s.modCtx a u).pdies = s.pdies := rfl
@[simp] theorem State.modCtx_rails (a : BitVec 16) (u : Context → Context) : (s.modCtx a u).rails = s.rails := rfl
@[simp] theorem State.modCtx_warm (a : BitVec 16) (u : Context → Context) : (s.modCtx a u).warm = s.warm := rfl
@[simp] theorem State.modCtx_t2rate (a : BitVec 16) (u : Context → Context) : (s.modCtx a u).t2rate = s.t2rate := rfl
@[simp] theorem State.modCtx_t2chan (a : BitVec 16) (u : Context → Context) : (s.modCtx a u).t2chan = s.t2chan := rfl
@[simp] theorem State.modCtx_life (a : BitVec 16) (u : Context → Context) : (s.modCtx a u).life = s.life := rfl
@[simp] theorem State.modCtx_kept (a : BitVec 16) (u : Context → Context) : (s.modCtx a u).kept = s.kept := rfl
@[simp] theorem State.modCtx_session (a : BitVec 16) (u : Context → Context) : (s.modCtx a u).session = s.session := rfl
@[simp] theorem State.modCtx_snaps (a : BitVec 16) (u : Context → Context) : (s.modCtx a u).snaps = s.snaps := rfl
@[simp] theorem State.modCtx_notes (a : BitVec 16) (u : Context → Context) : (s.modCtx a u).notes = s.notes := rfl
@[simp] theorem State.modCtx_agenda (a : BitVec 16) (u : Context → Context) : (s.modCtx a u).agenda = s.agenda := rfl
@[simp] theorem State.modCtx_cur (a : BitVec 16) (u : Context → Context) : (s.modCtx a u).cur = s.cur := rfl
@[simp] theorem State.modCtx_ticks (a : BitVec 16) (u : Context → Context) : (s.modCtx a u).ticks = s.ticks := rfl

@[simp] theorem State.note_mem (n : Note) : (s.note n).mem = s.mem := rfl
@[simp] theorem State.note_locks (n : Note) : (s.note n).locks = s.locks := rfl
@[simp] theorem State.note_codes (n : Note) : (s.note n).codes = s.codes := rfl
@[simp] theorem State.note_poison (n : Note) : (s.note n).poison = s.poison := rfl
@[simp] theorem State.note_tags (n : Note) : (s.note n).tags = s.tags := rfl
@[simp] theorem State.note_copies (n : Note) : (s.note n).copies = s.copies := rfl
@[simp] theorem State.note_coreTlb (n : Note) : (s.note n).coreTlb = s.coreTlb := rfl
@[simp] theorem State.note_dieTlb (n : Note) : (s.note n).dieTlb = s.dieTlb := rfl
@[simp] theorem State.note_walks (n : Note) : (s.note n).walks = s.walks := rfl
@[simp] theorem State.note_binds (n : Note) : (s.note n).binds = s.binds := rfl
@[simp] theorem State.note_fibres (n : Note) : (s.note n).fibres = s.fibres := rfl
@[simp] theorem State.note_slots (n : Note) : (s.note n).slots = s.slots := rfl
@[simp] theorem State.note_teams (n : Note) : (s.note n).teams = s.teams := rfl
@[simp] theorem State.note_clusters (n : Note) : (s.note n).clusters = s.clusters := rfl
@[simp] theorem State.note_relics (n : Note) : (s.note n).relics = s.relics := rfl
@[simp] theorem State.note_kernels (n : Note) : (s.note n).kernels = s.kernels := rfl
@[simp] theorem State.note_queues (n : Note) : (s.note n).queues = s.queues := rfl
@[simp] theorem State.note_acl (n : Note) : (s.note n).acl = s.acl := rfl
@[simp] theorem State.note_ctxs (n : Note) : (s.note n).ctxs = s.ctxs := rfl
@[simp] theorem State.note_monitors (n : Note) : (s.note n).monitors = s.monitors := rfl
@[simp] theorem State.note_cmp (n : Note) : (s.note n).cmp = s.cmp := rfl
@[simp] theorem State.note_keys (n : Note) : (s.note n).keys = s.keys := rfl
@[simp] theorem State.note_cyc (n : Note) : (s.note n).cyc = s.cyc := rfl
@[simp] theorem State.note_dev (n : Note) : (s.note n).dev = s.dev := rfl
@[simp] theorem State.note_robin (n : Note) : (s.note n).robin = s.robin := rfl
@[simp] theorem State.note_nextId (n : Note) : (s.note n).nextId = s.nextId := rfl
@[simp] theorem State.note_ports (n : Note) : (s.note n).ports = s.ports := rfl
@[simp] theorem State.note_planes (n : Note) : (s.note n).planes = s.planes := rfl
@[simp] theorem State.note_routes (n : Note) : (s.note n).routes = s.routes := rfl
@[simp] theorem State.note_span (n : Note) : (s.note n).span = s.span := rfl
@[simp] theorem State.note_devGiven (n : Note) : (s.note n).devGiven = s.devGiven := rfl
@[simp] theorem State.note_leftDown (n : Note) : (s.note n).leftDown = s.leftDown := rfl
@[simp] theorem State.note_inc (n : Note) : (s.note n).inc = s.inc := rfl
@[simp] theorem State.note_farInc (n : Note) : (s.note n).farInc = s.farInc := rfl
@[simp] theorem State.note_seqs (n : Note) : (s.note n).seqs = s.seqs := rfl
@[simp] theorem State.note_requests (n : Note) : (s.note n).requests = s.requests := rfl
@[simp] theorem State.note_replies (n : Note) : (s.note n).replies = s.replies := rfl
@[simp] theorem State.note_arrivals (n : Note) : (s.note n).arrivals = s.arrivals := rfl
@[simp] theorem State.note_colls (n : Note) : (s.note n).colls = s.colls := rfl
@[simp] theorem State.note_sent (n : Note) : (s.note n).sent = s.sent := rfl
@[simp] theorem State.note_outbox (n : Note) : (s.note n).outbox = s.outbox := rfl
@[simp] theorem State.note_cgs (n : Note) : (s.note n).cgs = s.cgs := rfl
@[simp] theorem State.note_aborts (n : Note) : (s.note n).aborts = s.aborts := rfl
@[simp] theorem State.note_staged (n : Note) : (s.note n).staged = s.staged := rfl
@[simp] theorem State.note_staging (n : Note) : (s.note n).staging = s.staging := rfl
@[simp] theorem State.note_releases (n : Note) : (s.note n).releases = s.releases := rfl
@[simp] theorem State.note_dies (n : Note) : (s.note n).dies = s.dies := rfl
@[simp] theorem State.note_pdies (n : Note) : (s.note n).pdies = s.pdies := rfl
@[simp] theorem State.note_rails (n : Note) : (s.note n).rails = s.rails := rfl
@[simp] theorem State.note_warm (n : Note) : (s.note n).warm = s.warm := rfl
@[simp] theorem State.note_t2rate (n : Note) : (s.note n).t2rate = s.t2rate := rfl
@[simp] theorem State.note_t2chan (n : Note) : (s.note n).t2chan = s.t2chan := rfl
@[simp] theorem State.note_life (n : Note) : (s.note n).life = s.life := rfl
@[simp] theorem State.note_kept (n : Note) : (s.note n).kept = s.kept := rfl
@[simp] theorem State.note_session (n : Note) : (s.note n).session = s.session := rfl
@[simp] theorem State.note_snaps (n : Note) : (s.note n).snaps = s.snaps := rfl
@[simp] theorem State.note_agenda (n : Note) : (s.note n).agenda = s.agenda := rfl
@[simp] theorem State.note_cur (n : Note) : (s.note n).cur = s.cur := rfl
@[simp] theorem State.note_ticks (n : Note) : (s.note n).ticks = s.ticks := rfl

@[simp] theorem State.modCg_mem (g : BitVec 32) (u : CommitGroup → CommitGroup) : (s.modCg g u).mem = s.mem := rfl
@[simp] theorem State.modCg_locks (g : BitVec 32) (u : CommitGroup → CommitGroup) : (s.modCg g u).locks = s.locks := rfl
@[simp] theorem State.modCg_codes (g : BitVec 32) (u : CommitGroup → CommitGroup) : (s.modCg g u).codes = s.codes := rfl
@[simp] theorem State.modCg_poison (g : BitVec 32) (u : CommitGroup → CommitGroup) : (s.modCg g u).poison = s.poison := rfl
@[simp] theorem State.modCg_tags (g : BitVec 32) (u : CommitGroup → CommitGroup) : (s.modCg g u).tags = s.tags := rfl
@[simp] theorem State.modCg_copies (g : BitVec 32) (u : CommitGroup → CommitGroup) : (s.modCg g u).copies = s.copies := rfl
@[simp] theorem State.modCg_coreTlb (g : BitVec 32) (u : CommitGroup → CommitGroup) : (s.modCg g u).coreTlb = s.coreTlb := rfl
@[simp] theorem State.modCg_dieTlb (g : BitVec 32) (u : CommitGroup → CommitGroup) : (s.modCg g u).dieTlb = s.dieTlb := rfl
@[simp] theorem State.modCg_walks (g : BitVec 32) (u : CommitGroup → CommitGroup) : (s.modCg g u).walks = s.walks := rfl
@[simp] theorem State.modCg_binds (g : BitVec 32) (u : CommitGroup → CommitGroup) : (s.modCg g u).binds = s.binds := rfl
@[simp] theorem State.modCg_fibres (g : BitVec 32) (u : CommitGroup → CommitGroup) : (s.modCg g u).fibres = s.fibres := rfl
@[simp] theorem State.modCg_slots (g : BitVec 32) (u : CommitGroup → CommitGroup) : (s.modCg g u).slots = s.slots := rfl
@[simp] theorem State.modCg_teams (g : BitVec 32) (u : CommitGroup → CommitGroup) : (s.modCg g u).teams = s.teams := rfl
@[simp] theorem State.modCg_clusters (g : BitVec 32) (u : CommitGroup → CommitGroup) : (s.modCg g u).clusters = s.clusters := rfl
@[simp] theorem State.modCg_relics (g : BitVec 32) (u : CommitGroup → CommitGroup) : (s.modCg g u).relics = s.relics := rfl
@[simp] theorem State.modCg_kernels (g : BitVec 32) (u : CommitGroup → CommitGroup) : (s.modCg g u).kernels = s.kernels := rfl
@[simp] theorem State.modCg_queues (g : BitVec 32) (u : CommitGroup → CommitGroup) : (s.modCg g u).queues = s.queues := rfl
@[simp] theorem State.modCg_acl (g : BitVec 32) (u : CommitGroup → CommitGroup) : (s.modCg g u).acl = s.acl := rfl
@[simp] theorem State.modCg_ctxs (g : BitVec 32) (u : CommitGroup → CommitGroup) : (s.modCg g u).ctxs = s.ctxs := rfl
@[simp] theorem State.modCg_monitors (g : BitVec 32) (u : CommitGroup → CommitGroup) : (s.modCg g u).monitors = s.monitors := rfl
@[simp] theorem State.modCg_cmp (g : BitVec 32) (u : CommitGroup → CommitGroup) : (s.modCg g u).cmp = s.cmp := rfl
@[simp] theorem State.modCg_keys (g : BitVec 32) (u : CommitGroup → CommitGroup) : (s.modCg g u).keys = s.keys := rfl
@[simp] theorem State.modCg_cyc (g : BitVec 32) (u : CommitGroup → CommitGroup) : (s.modCg g u).cyc = s.cyc := rfl
@[simp] theorem State.modCg_dev (g : BitVec 32) (u : CommitGroup → CommitGroup) : (s.modCg g u).dev = s.dev := rfl
@[simp] theorem State.modCg_robin (g : BitVec 32) (u : CommitGroup → CommitGroup) : (s.modCg g u).robin = s.robin := rfl
@[simp] theorem State.modCg_nextId (g : BitVec 32) (u : CommitGroup → CommitGroup) : (s.modCg g u).nextId = s.nextId := rfl
@[simp] theorem State.modCg_ports (g : BitVec 32) (u : CommitGroup → CommitGroup) : (s.modCg g u).ports = s.ports := rfl
@[simp] theorem State.modCg_planes (g : BitVec 32) (u : CommitGroup → CommitGroup) : (s.modCg g u).planes = s.planes := rfl
@[simp] theorem State.modCg_routes (g : BitVec 32) (u : CommitGroup → CommitGroup) : (s.modCg g u).routes = s.routes := rfl
@[simp] theorem State.modCg_span (g : BitVec 32) (u : CommitGroup → CommitGroup) : (s.modCg g u).span = s.span := rfl
@[simp] theorem State.modCg_devGiven (g : BitVec 32) (u : CommitGroup → CommitGroup) : (s.modCg g u).devGiven = s.devGiven := rfl
@[simp] theorem State.modCg_leftDown (g : BitVec 32) (u : CommitGroup → CommitGroup) : (s.modCg g u).leftDown = s.leftDown := rfl
@[simp] theorem State.modCg_inc (g : BitVec 32) (u : CommitGroup → CommitGroup) : (s.modCg g u).inc = s.inc := rfl
@[simp] theorem State.modCg_farInc (g : BitVec 32) (u : CommitGroup → CommitGroup) : (s.modCg g u).farInc = s.farInc := rfl
@[simp] theorem State.modCg_seqs (g : BitVec 32) (u : CommitGroup → CommitGroup) : (s.modCg g u).seqs = s.seqs := rfl
@[simp] theorem State.modCg_requests (g : BitVec 32) (u : CommitGroup → CommitGroup) : (s.modCg g u).requests = s.requests := rfl
@[simp] theorem State.modCg_replies (g : BitVec 32) (u : CommitGroup → CommitGroup) : (s.modCg g u).replies = s.replies := rfl
@[simp] theorem State.modCg_arrivals (g : BitVec 32) (u : CommitGroup → CommitGroup) : (s.modCg g u).arrivals = s.arrivals := rfl
@[simp] theorem State.modCg_colls (g : BitVec 32) (u : CommitGroup → CommitGroup) : (s.modCg g u).colls = s.colls := rfl
@[simp] theorem State.modCg_sent (g : BitVec 32) (u : CommitGroup → CommitGroup) : (s.modCg g u).sent = s.sent := rfl
@[simp] theorem State.modCg_outbox (g : BitVec 32) (u : CommitGroup → CommitGroup) : (s.modCg g u).outbox = s.outbox := rfl
@[simp] theorem State.modCg_aborts (g : BitVec 32) (u : CommitGroup → CommitGroup) : (s.modCg g u).aborts = s.aborts := rfl
@[simp] theorem State.modCg_staged (g : BitVec 32) (u : CommitGroup → CommitGroup) : (s.modCg g u).staged = s.staged := rfl
@[simp] theorem State.modCg_staging (g : BitVec 32) (u : CommitGroup → CommitGroup) : (s.modCg g u).staging = s.staging := rfl
@[simp] theorem State.modCg_releases (g : BitVec 32) (u : CommitGroup → CommitGroup) : (s.modCg g u).releases = s.releases := rfl
@[simp] theorem State.modCg_dies (g : BitVec 32) (u : CommitGroup → CommitGroup) : (s.modCg g u).dies = s.dies := rfl
@[simp] theorem State.modCg_pdies (g : BitVec 32) (u : CommitGroup → CommitGroup) : (s.modCg g u).pdies = s.pdies := rfl
@[simp] theorem State.modCg_rails (g : BitVec 32) (u : CommitGroup → CommitGroup) : (s.modCg g u).rails = s.rails := rfl
@[simp] theorem State.modCg_warm (g : BitVec 32) (u : CommitGroup → CommitGroup) : (s.modCg g u).warm = s.warm := rfl
@[simp] theorem State.modCg_t2rate (g : BitVec 32) (u : CommitGroup → CommitGroup) : (s.modCg g u).t2rate = s.t2rate := rfl
@[simp] theorem State.modCg_t2chan (g : BitVec 32) (u : CommitGroup → CommitGroup) : (s.modCg g u).t2chan = s.t2chan := rfl
@[simp] theorem State.modCg_life (g : BitVec 32) (u : CommitGroup → CommitGroup) : (s.modCg g u).life = s.life := rfl
@[simp] theorem State.modCg_kept (g : BitVec 32) (u : CommitGroup → CommitGroup) : (s.modCg g u).kept = s.kept := rfl
@[simp] theorem State.modCg_session (g : BitVec 32) (u : CommitGroup → CommitGroup) : (s.modCg g u).session = s.session := rfl
@[simp] theorem State.modCg_snaps (g : BitVec 32) (u : CommitGroup → CommitGroup) : (s.modCg g u).snaps = s.snaps := rfl
@[simp] theorem State.modCg_notes (g : BitVec 32) (u : CommitGroup → CommitGroup) : (s.modCg g u).notes = s.notes := rfl
@[simp] theorem State.modCg_agenda (g : BitVec 32) (u : CommitGroup → CommitGroup) : (s.modCg g u).agenda = s.agenda := rfl
@[simp] theorem State.modCg_cur (g : BitVec 32) (u : CommitGroup → CommitGroup) : (s.modCg g u).cur = s.cur := rfl
@[simp] theorem State.modCg_ticks (g : BitVec 32) (u : CommitGroup → CommitGroup) : (s.modCg g u).ticks = s.ticks := rfl

@[simp] theorem State.modRequest_mem (id : Nat) (u : Request → Request) : (s.modRequest id u).mem = s.mem := rfl
@[simp] theorem State.modRequest_locks (id : Nat) (u : Request → Request) : (s.modRequest id u).locks = s.locks := rfl
@[simp] theorem State.modRequest_codes (id : Nat) (u : Request → Request) : (s.modRequest id u).codes = s.codes := rfl
@[simp] theorem State.modRequest_poison (id : Nat) (u : Request → Request) : (s.modRequest id u).poison = s.poison := rfl
@[simp] theorem State.modRequest_tags (id : Nat) (u : Request → Request) : (s.modRequest id u).tags = s.tags := rfl
@[simp] theorem State.modRequest_copies (id : Nat) (u : Request → Request) : (s.modRequest id u).copies = s.copies := rfl
@[simp] theorem State.modRequest_coreTlb (id : Nat) (u : Request → Request) : (s.modRequest id u).coreTlb = s.coreTlb := rfl
@[simp] theorem State.modRequest_dieTlb (id : Nat) (u : Request → Request) : (s.modRequest id u).dieTlb = s.dieTlb := rfl
@[simp] theorem State.modRequest_walks (id : Nat) (u : Request → Request) : (s.modRequest id u).walks = s.walks := rfl
@[simp] theorem State.modRequest_binds (id : Nat) (u : Request → Request) : (s.modRequest id u).binds = s.binds := rfl
@[simp] theorem State.modRequest_fibres (id : Nat) (u : Request → Request) : (s.modRequest id u).fibres = s.fibres := rfl
@[simp] theorem State.modRequest_slots (id : Nat) (u : Request → Request) : (s.modRequest id u).slots = s.slots := rfl
@[simp] theorem State.modRequest_teams (id : Nat) (u : Request → Request) : (s.modRequest id u).teams = s.teams := rfl
@[simp] theorem State.modRequest_clusters (id : Nat) (u : Request → Request) : (s.modRequest id u).clusters = s.clusters := rfl
@[simp] theorem State.modRequest_relics (id : Nat) (u : Request → Request) : (s.modRequest id u).relics = s.relics := rfl
@[simp] theorem State.modRequest_kernels (id : Nat) (u : Request → Request) : (s.modRequest id u).kernels = s.kernels := rfl
@[simp] theorem State.modRequest_queues (id : Nat) (u : Request → Request) : (s.modRequest id u).queues = s.queues := rfl
@[simp] theorem State.modRequest_acl (id : Nat) (u : Request → Request) : (s.modRequest id u).acl = s.acl := rfl
@[simp] theorem State.modRequest_ctxs (id : Nat) (u : Request → Request) : (s.modRequest id u).ctxs = s.ctxs := rfl
@[simp] theorem State.modRequest_monitors (id : Nat) (u : Request → Request) : (s.modRequest id u).monitors = s.monitors := rfl
@[simp] theorem State.modRequest_cmp (id : Nat) (u : Request → Request) : (s.modRequest id u).cmp = s.cmp := rfl
@[simp] theorem State.modRequest_keys (id : Nat) (u : Request → Request) : (s.modRequest id u).keys = s.keys := rfl
@[simp] theorem State.modRequest_cyc (id : Nat) (u : Request → Request) : (s.modRequest id u).cyc = s.cyc := rfl
@[simp] theorem State.modRequest_dev (id : Nat) (u : Request → Request) : (s.modRequest id u).dev = s.dev := rfl
@[simp] theorem State.modRequest_robin (id : Nat) (u : Request → Request) : (s.modRequest id u).robin = s.robin := rfl
@[simp] theorem State.modRequest_nextId (id : Nat) (u : Request → Request) : (s.modRequest id u).nextId = s.nextId := rfl
@[simp] theorem State.modRequest_ports (id : Nat) (u : Request → Request) : (s.modRequest id u).ports = s.ports := rfl
@[simp] theorem State.modRequest_planes (id : Nat) (u : Request → Request) : (s.modRequest id u).planes = s.planes := rfl
@[simp] theorem State.modRequest_routes (id : Nat) (u : Request → Request) : (s.modRequest id u).routes = s.routes := rfl
@[simp] theorem State.modRequest_span (id : Nat) (u : Request → Request) : (s.modRequest id u).span = s.span := rfl
@[simp] theorem State.modRequest_devGiven (id : Nat) (u : Request → Request) : (s.modRequest id u).devGiven = s.devGiven := rfl
@[simp] theorem State.modRequest_leftDown (id : Nat) (u : Request → Request) : (s.modRequest id u).leftDown = s.leftDown := rfl
@[simp] theorem State.modRequest_inc (id : Nat) (u : Request → Request) : (s.modRequest id u).inc = s.inc := rfl
@[simp] theorem State.modRequest_farInc (id : Nat) (u : Request → Request) : (s.modRequest id u).farInc = s.farInc := rfl
@[simp] theorem State.modRequest_seqs (id : Nat) (u : Request → Request) : (s.modRequest id u).seqs = s.seqs := rfl
@[simp] theorem State.modRequest_replies (id : Nat) (u : Request → Request) : (s.modRequest id u).replies = s.replies := rfl
@[simp] theorem State.modRequest_arrivals (id : Nat) (u : Request → Request) : (s.modRequest id u).arrivals = s.arrivals := rfl
@[simp] theorem State.modRequest_colls (id : Nat) (u : Request → Request) : (s.modRequest id u).colls = s.colls := rfl
@[simp] theorem State.modRequest_sent (id : Nat) (u : Request → Request) : (s.modRequest id u).sent = s.sent := rfl
@[simp] theorem State.modRequest_outbox (id : Nat) (u : Request → Request) : (s.modRequest id u).outbox = s.outbox := rfl
@[simp] theorem State.modRequest_cgs (id : Nat) (u : Request → Request) : (s.modRequest id u).cgs = s.cgs := rfl
@[simp] theorem State.modRequest_aborts (id : Nat) (u : Request → Request) : (s.modRequest id u).aborts = s.aborts := rfl
@[simp] theorem State.modRequest_staged (id : Nat) (u : Request → Request) : (s.modRequest id u).staged = s.staged := rfl
@[simp] theorem State.modRequest_staging (id : Nat) (u : Request → Request) : (s.modRequest id u).staging = s.staging := rfl
@[simp] theorem State.modRequest_releases (id : Nat) (u : Request → Request) : (s.modRequest id u).releases = s.releases := rfl
@[simp] theorem State.modRequest_dies (id : Nat) (u : Request → Request) : (s.modRequest id u).dies = s.dies := rfl
@[simp] theorem State.modRequest_pdies (id : Nat) (u : Request → Request) : (s.modRequest id u).pdies = s.pdies := rfl
@[simp] theorem State.modRequest_rails (id : Nat) (u : Request → Request) : (s.modRequest id u).rails = s.rails := rfl
@[simp] theorem State.modRequest_warm (id : Nat) (u : Request → Request) : (s.modRequest id u).warm = s.warm := rfl
@[simp] theorem State.modRequest_t2rate (id : Nat) (u : Request → Request) : (s.modRequest id u).t2rate = s.t2rate := rfl
@[simp] theorem State.modRequest_t2chan (id : Nat) (u : Request → Request) : (s.modRequest id u).t2chan = s.t2chan := rfl
@[simp] theorem State.modRequest_life (id : Nat) (u : Request → Request) : (s.modRequest id u).life = s.life := rfl
@[simp] theorem State.modRequest_kept (id : Nat) (u : Request → Request) : (s.modRequest id u).kept = s.kept := rfl
@[simp] theorem State.modRequest_session (id : Nat) (u : Request → Request) : (s.modRequest id u).session = s.session := rfl
@[simp] theorem State.modRequest_snaps (id : Nat) (u : Request → Request) : (s.modRequest id u).snaps = s.snaps := rfl
@[simp] theorem State.modRequest_notes (id : Nat) (u : Request → Request) : (s.modRequest id u).notes = s.notes := rfl
@[simp] theorem State.modRequest_agenda (id : Nat) (u : Request → Request) : (s.modRequest id u).agenda = s.agenda := rfl
@[simp] theorem State.modRequest_cur (id : Nat) (u : Request → Request) : (s.modRequest id u).cur = s.cur := rfl
@[simp] theorem State.modRequest_ticks (id : Nat) (u : Request → Request) : (s.modRequest id u).ticks = s.ticks := rfl

/-- A frame changes nothing but a port. -/
theorem State.framed_is (p : Path) (n : Nat) : ∃ x, s.framed p n = { s with ports := x } := by
  unfold State.framed State.modPort
  cases p with
  | self => exact ⟨_, rfl⟩
  | plane => exact ⟨_, rfl⟩
  | span k =>
    dsimp only
    split
    · exact ⟨_, rfl⟩
    · exact ⟨_, rfl⟩

/-- A message goes out, or waits: nothing but the messages and the ports changes. -/
theorem State.say_is (m : Message) : ∃ x y z, s.say m = { s with sent := x, outbox := y, ports := z } := by
  unfold State.say
  cases m.to with
  | none => exact ⟨_, _, _, rfl⟩
  | some dev =>
    dsimp only
    split
    · exact ⟨_, _, _, rfl⟩
    · split
      · split
        · obtain ⟨x, h⟩ := s.framed_is _ m.bytes
          rw [h]
          exact ⟨_, _, _, rfl⟩
        · exact ⟨_, _, _, rfl⟩
      · exact ⟨_, _, _, rfl⟩

@[simp] theorem State.say_mem (m : Message) : (s.say m).mem = s.mem := by obtain ⟨_, _, _, h⟩ := s.say_is m; rw [h]
@[simp] theorem State.say_locks (m : Message) : (s.say m).locks = s.locks := by obtain ⟨_, _, _, h⟩ := s.say_is m; rw [h]
@[simp] theorem State.say_codes (m : Message) : (s.say m).codes = s.codes := by obtain ⟨_, _, _, h⟩ := s.say_is m; rw [h]
@[simp] theorem State.say_poison (m : Message) : (s.say m).poison = s.poison := by obtain ⟨_, _, _, h⟩ := s.say_is m; rw [h]
@[simp] theorem State.say_tags (m : Message) : (s.say m).tags = s.tags := by obtain ⟨_, _, _, h⟩ := s.say_is m; rw [h]
@[simp] theorem State.say_copies (m : Message) : (s.say m).copies = s.copies := by obtain ⟨_, _, _, h⟩ := s.say_is m; rw [h]
@[simp] theorem State.say_coreTlb (m : Message) : (s.say m).coreTlb = s.coreTlb := by obtain ⟨_, _, _, h⟩ := s.say_is m; rw [h]
@[simp] theorem State.say_dieTlb (m : Message) : (s.say m).dieTlb = s.dieTlb := by obtain ⟨_, _, _, h⟩ := s.say_is m; rw [h]
@[simp] theorem State.say_walks (m : Message) : (s.say m).walks = s.walks := by obtain ⟨_, _, _, h⟩ := s.say_is m; rw [h]
@[simp] theorem State.say_binds (m : Message) : (s.say m).binds = s.binds := by obtain ⟨_, _, _, h⟩ := s.say_is m; rw [h]
@[simp] theorem State.say_fibres (m : Message) : (s.say m).fibres = s.fibres := by obtain ⟨_, _, _, h⟩ := s.say_is m; rw [h]
@[simp] theorem State.say_slots (m : Message) : (s.say m).slots = s.slots := by obtain ⟨_, _, _, h⟩ := s.say_is m; rw [h]
@[simp] theorem State.say_teams (m : Message) : (s.say m).teams = s.teams := by obtain ⟨_, _, _, h⟩ := s.say_is m; rw [h]
@[simp] theorem State.say_clusters (m : Message) : (s.say m).clusters = s.clusters := by obtain ⟨_, _, _, h⟩ := s.say_is m; rw [h]
@[simp] theorem State.say_relics (m : Message) : (s.say m).relics = s.relics := by obtain ⟨_, _, _, h⟩ := s.say_is m; rw [h]
@[simp] theorem State.say_kernels (m : Message) : (s.say m).kernels = s.kernels := by obtain ⟨_, _, _, h⟩ := s.say_is m; rw [h]
@[simp] theorem State.say_queues (m : Message) : (s.say m).queues = s.queues := by obtain ⟨_, _, _, h⟩ := s.say_is m; rw [h]
@[simp] theorem State.say_acl (m : Message) : (s.say m).acl = s.acl := by obtain ⟨_, _, _, h⟩ := s.say_is m; rw [h]
@[simp] theorem State.say_ctxs (m : Message) : (s.say m).ctxs = s.ctxs := by obtain ⟨_, _, _, h⟩ := s.say_is m; rw [h]
@[simp] theorem State.say_monitors (m : Message) : (s.say m).monitors = s.monitors := by obtain ⟨_, _, _, h⟩ := s.say_is m; rw [h]
@[simp] theorem State.say_cmp (m : Message) : (s.say m).cmp = s.cmp := by obtain ⟨_, _, _, h⟩ := s.say_is m; rw [h]
@[simp] theorem State.say_keys (m : Message) : (s.say m).keys = s.keys := by obtain ⟨_, _, _, h⟩ := s.say_is m; rw [h]
@[simp] theorem State.say_cyc (m : Message) : (s.say m).cyc = s.cyc := by obtain ⟨_, _, _, h⟩ := s.say_is m; rw [h]
@[simp] theorem State.say_dev (m : Message) : (s.say m).dev = s.dev := by obtain ⟨_, _, _, h⟩ := s.say_is m; rw [h]
@[simp] theorem State.say_robin (m : Message) : (s.say m).robin = s.robin := by obtain ⟨_, _, _, h⟩ := s.say_is m; rw [h]
@[simp] theorem State.say_nextId (m : Message) : (s.say m).nextId = s.nextId := by obtain ⟨_, _, _, h⟩ := s.say_is m; rw [h]
@[simp] theorem State.say_planes (m : Message) : (s.say m).planes = s.planes := by obtain ⟨_, _, _, h⟩ := s.say_is m; rw [h]
@[simp] theorem State.say_routes (m : Message) : (s.say m).routes = s.routes := by obtain ⟨_, _, _, h⟩ := s.say_is m; rw [h]
@[simp] theorem State.say_span (m : Message) : (s.say m).span = s.span := by obtain ⟨_, _, _, h⟩ := s.say_is m; rw [h]
@[simp] theorem State.say_devGiven (m : Message) : (s.say m).devGiven = s.devGiven := by obtain ⟨_, _, _, h⟩ := s.say_is m; rw [h]
@[simp] theorem State.say_leftDown (m : Message) : (s.say m).leftDown = s.leftDown := by obtain ⟨_, _, _, h⟩ := s.say_is m; rw [h]
@[simp] theorem State.say_inc (m : Message) : (s.say m).inc = s.inc := by obtain ⟨_, _, _, h⟩ := s.say_is m; rw [h]
@[simp] theorem State.say_farInc (m : Message) : (s.say m).farInc = s.farInc := by obtain ⟨_, _, _, h⟩ := s.say_is m; rw [h]
@[simp] theorem State.say_seqs (m : Message) : (s.say m).seqs = s.seqs := by obtain ⟨_, _, _, h⟩ := s.say_is m; rw [h]
@[simp] theorem State.say_requests (m : Message) : (s.say m).requests = s.requests := by obtain ⟨_, _, _, h⟩ := s.say_is m; rw [h]
@[simp] theorem State.say_replies (m : Message) : (s.say m).replies = s.replies := by obtain ⟨_, _, _, h⟩ := s.say_is m; rw [h]
@[simp] theorem State.say_arrivals (m : Message) : (s.say m).arrivals = s.arrivals := by obtain ⟨_, _, _, h⟩ := s.say_is m; rw [h]
@[simp] theorem State.say_colls (m : Message) : (s.say m).colls = s.colls := by obtain ⟨_, _, _, h⟩ := s.say_is m; rw [h]
@[simp] theorem State.say_cgs (m : Message) : (s.say m).cgs = s.cgs := by obtain ⟨_, _, _, h⟩ := s.say_is m; rw [h]
@[simp] theorem State.say_aborts (m : Message) : (s.say m).aborts = s.aborts := by obtain ⟨_, _, _, h⟩ := s.say_is m; rw [h]
@[simp] theorem State.say_staged (m : Message) : (s.say m).staged = s.staged := by obtain ⟨_, _, _, h⟩ := s.say_is m; rw [h]
@[simp] theorem State.say_staging (m : Message) : (s.say m).staging = s.staging := by obtain ⟨_, _, _, h⟩ := s.say_is m; rw [h]
@[simp] theorem State.say_releases (m : Message) : (s.say m).releases = s.releases := by obtain ⟨_, _, _, h⟩ := s.say_is m; rw [h]
@[simp] theorem State.say_dies (m : Message) : (s.say m).dies = s.dies := by obtain ⟨_, _, _, h⟩ := s.say_is m; rw [h]
@[simp] theorem State.say_pdies (m : Message) : (s.say m).pdies = s.pdies := by obtain ⟨_, _, _, h⟩ := s.say_is m; rw [h]
@[simp] theorem State.say_rails (m : Message) : (s.say m).rails = s.rails := by obtain ⟨_, _, _, h⟩ := s.say_is m; rw [h]
@[simp] theorem State.say_warm (m : Message) : (s.say m).warm = s.warm := by obtain ⟨_, _, _, h⟩ := s.say_is m; rw [h]
@[simp] theorem State.say_t2rate (m : Message) : (s.say m).t2rate = s.t2rate := by obtain ⟨_, _, _, h⟩ := s.say_is m; rw [h]
@[simp] theorem State.say_t2chan (m : Message) : (s.say m).t2chan = s.t2chan := by obtain ⟨_, _, _, h⟩ := s.say_is m; rw [h]
@[simp] theorem State.say_life (m : Message) : (s.say m).life = s.life := by obtain ⟨_, _, _, h⟩ := s.say_is m; rw [h]
@[simp] theorem State.say_kept (m : Message) : (s.say m).kept = s.kept := by obtain ⟨_, _, _, h⟩ := s.say_is m; rw [h]
@[simp] theorem State.say_session (m : Message) : (s.say m).session = s.session := by obtain ⟨_, _, _, h⟩ := s.say_is m; rw [h]
@[simp] theorem State.say_snaps (m : Message) : (s.say m).snaps = s.snaps := by obtain ⟨_, _, _, h⟩ := s.say_is m; rw [h]
@[simp] theorem State.say_notes (m : Message) : (s.say m).notes = s.notes := by obtain ⟨_, _, _, h⟩ := s.say_is m; rw [h]
@[simp] theorem State.say_agenda (m : Message) : (s.say m).agenda = s.agenda := by obtain ⟨_, _, _, h⟩ := s.say_is m; rw [h]
@[simp] theorem State.say_cur (m : Message) : (s.say m).cur = s.cur := by obtain ⟨_, _, _, h⟩ := s.say_is m; rw [h]
@[simp] theorem State.say_ticks (m : Message) : (s.say m).ticks = s.ticks := by obtain ⟨_, _, _, h⟩ := s.say_is m; rw [h]

/-! ### A fibre, slot, team, cluster, kernel or context after the update of one of them -/

theorem find_map_at {α : Type} (p : α → Bool) (u : α → α) (hp : ∀ x, p x = true → p (u x) = true) (l : List α) :
    (l.map fun x => if p x then u x else x).find? p = (l.find? p).map u := by
  induction l with
  | nil => rfl
  | cons x xs ih =>
    by_cases h : p x = true
    · simp [h, hp x h]
    · simp [h, ih]

theorem find_map_other {α : Type} (p q : α → Bool) (u : α → α) (h : ∀ x, p x = true → q x = false ∧ q (u x) = false) (l : List α) :
    (l.map fun x => if p x then u x else x).find? q = l.find? q := by
  induction l with
  | nil => rfl
  | cons x xs ih =>
    by_cases hx : p x = true
    · simp [hx, h x hx, ih]
    · by_cases hq : q x = true <;> simp [hx, hq, ih]

theorem State.modFibre_at (r : FibreRef) (u : Fibre → Fibre) (hu : ∀ f, (u f).ref = f.ref) :
    (s.modFibre r u).fibre? r = (s.fibre? r).map u := by
  unfold State.modFibre State.fibre?
  exact find_map_at (fun f : Fibre => f.ref == r) u (fun f h => by simpa [hu f] using h) s.fibres

theorem State.modFibre_other (r q : FibreRef) (u : Fibre → Fibre) (hu : ∀ f, (u f).ref = f.ref) (h : q ≠ r) :
    (s.modFibre r u).fibre? q = s.fibre? q := by
  unfold State.modFibre State.fibre?
  refine find_map_other (fun f : Fibre => f.ref == r) (fun f : Fibre => f.ref == q) u (fun f hf => ?_) s.fibres
  have e : f.ref = r := by simpa using hf
  simp [hu f, e, Ne.symm h]

theorem State.modSlot_at (f : Fibre) (u : Slot → Slot) (hu : ∀ x cl t n, Slot.is x cl t n = true → Slot.is (u x) cl t n = true) :
    (s.modSlot f u).slot? f = (s.slot? f).map u := by
  unfold State.modSlot State.slot?
  exact find_map_at (fun x : Slot => x.is f.ref.cl f.ref.team f.slot) u (fun x h => hu x _ _ _ h) s.slots

theorem State.modTeam_at (cl rank : Nat) (u : Team → Team) (hu : ∀ t, (u t).cl = t.cl ∧ (u t).rank = t.rank) :
    (s.modTeam cl rank u).team? cl rank = (s.team? cl rank).map u := by
  unfold State.modTeam State.team?
  exact find_map_at (fun t : Team => t.cl == cl && t.rank == rank) u (fun t h => by simpa [hu t] using h) s.teams

theorem State.modCtx_at (a : BitVec 16) (u : Context → Context) (hu : ∀ c, (u c).asid = c.asid) :
    (s.modCtx a u).ctx? a = (s.ctx? a).map u := by
  unfold State.modCtx State.ctx?
  exact find_map_at (fun c : Context => c.asid == a) u (fun c h => by simpa [hu c] using h) s.ctxs

end Sys2Proof.Machine
end

