-- ==== Sys2Proof/Laws/Issue.lean ====
section
/-! SUPPORT. What the shared operations of an issue answer: the checks pass exactly as `View.mayRun` says, and an instruction over the wrapper or
the lane loop then answers the next state that its effect makes. -/

namespace Sys2Proof.Machine

open Sys2Proof

theorem unionMask_zero : ∀ {l : List Mask}, (∀ m ∈ l, m = 0) → unionMask l = 0 := by
  intro l h
  unfold unionMask
  suffices ∀ a : Mask, a = 0 → l.foldl (· ||| ·) a = 0 from this 0 rfl
  induction l with
  | nil => intro a ha; simpa using ha
  | cons x xs ih =>
    intro a ha
    have hx : x = 0 := h x (by simp)
    exact ih (fun m hm => h m (by simp [hm])) _ (by subst ha hx; rfl)

/-- The checks of R67, steps 5 to 9, pass when the issue may run. -/
theorem View.checks_ok {v : View} {k : Kindly} {us : List Use} (h : v.mayRun k us) : v.checks k us = .ok () := by
  obtain ⟨hp, hc, ho, hh, hd⟩ := h
  have e1 : unionMask (us.map (·.outside v)) = 0 := unionMask_zero (by simpa using ho)
  have e2 : unionMask (us.map (·.hazard v)) = 0 := unionMask_zero (by simpa using hh)
  have r1 : (!k.priv || v.f.hmode) = true := by cases hk : k.priv <;> simp_all
  have r2 : (!k.coll || !v.f.parted) = true := by cases hk : k.coll <;> simp_all
  have r3 : v.checkUses us = .ok () := by
    unfold View.checkUses
    rw [e1, e2]
    by_cases hb : v.c.dbg = true
    · have e3 : unionMask (us.map (·.dead v)) = 0 := unionMask_zero (by simpa using hd hb)
      simp [View.trapIf, e3, bind, pure, Except.bind, Except.pure]
    · simp [View.trapIf, hb, bind, pure, Except.bind, Except.pure]
  simp [View.checks, View.require, r1, r2, r3, bind, pure, Except.bind, Except.pure]

theorem State.canIssue_spec {s : State} {k : Kindly} {us : View → List Use} (h : s.canIssue k us = true) :
    ∃ v, s.issuing v k (us v) := by
  unfold State.canIssue at h
  cases hv : s.view? with
  | none => simp [hv] at h
  | some v =>
    refine ⟨v, hv, ?_⟩
    simp [hv] at h
    obtain ⟨⟨⟨⟨h1, h2⟩, h3⟩, h4⟩, h5⟩ := h
    refine ⟨?_, ?_, h3, h4, ?_⟩
    · intro e; simpa [e] using h1
    · intro e; simpa [e] using h2
    · intro e; simpa [e] using h5

/-- An issue that may run answers what its body makes. -/
theorem issueAs_body {k : Kindly} {sw : Bool} {len : Nat} {us : View → List Use} {body : View → State → Chk State} {s : State} {v : View}
    (h : s.issuing v k (us v)) :
    issueAs k sw len us body s = match body v (s.consume v (us v)) with
      | .ok s' => .next ((s'.noteDead v (us v)).retire v sw len)
      | .error e => e.outcome s v sw := by
  simp only [issueAs, h.1, View.checks_ok h.2, bind, Except.bind] <;> rfl

/-- An issue whose body completes. -/
theorem issueAs_next {k : Kindly} {sw : Bool} {len : Nat} {us : View → List Use} {body : View → State → Chk State} {s : State} {v : View}
    {eff : State → State} (h : s.issuing v k (us v)) (hb : body v (s.consume v (us v)) = .ok (eff (s.consume v (us v)))) :
    issueAs k sw len us body s = .next (v.after sw len (us v) eff s) := by
  rw [issueAs_body h, hb]; rfl

/-- The same with the uses and the effect as a statement writes them. -/
theorem issueAs_done {k : Kindly} {sw : Bool} {len : Nat} {us : View → List Use} {body : View → State → Chk State} {s : State} {v : View}
    {us' : List Use} {eff : State → State} (h : s.issuing v k us') (hus : us v = us')
    (hb : body v (s.consume v us') = .ok (eff (s.consume v us'))) :
    issueAs k sw len us body s = .next (v.after sw len us' eff s) := by
  subst hus
  exact issueAs_next h hb

/-- An instruction of the lane loop that may run. -/
theorem laneOp_next {long : Bool} {h : Hdr} {len : Nat} {sc w : Bool} {d : BitVec 8} {srcs : View → Mask → List Use}
    {f : View → Nat → Num DWord} {s : State} {v : View}
    (hi : s.issuing v perLane (srcs v (v.mask h sc) ++ useDst sc w d (v.mask h sc))) :
    laneOp long h len sc w d srcs f s = .next (v.computed h len long sc w d (srcs v (v.mask h sc) ++ useDst sc w d (v.mask h sc))
      (fun l => runLane v l (f v l)) s) := by
  unfold laneOp issue
  exact issueAs_next (us := fun v => srcs v (v.mask h sc) ++ useDst sc w d (v.mask h sc))
    (eff := fun s => laneEffect long sc w d v ((v.runs h sc).map fun l => (l, runLane v l (f v l))) s) hi rfl

/-- Lanes that raise no flag leave the flags alone. -/
theorem laneFlags_none {rs : List (Nat × DWord × NumSt)} (h : ∀ r ∈ rs, r.2.2.fps = 0 ∧ r.2.2.le8s = 0) : laneFlags rs = (0, 0) := by
  unfold laneFlags
  suffices ∀ a : BitVec 32 × BitVec 32, a = (0, 0) → rs.foldl (fun a r => (a.1 ||| r.2.2.fps, a.2 ||| r.2.2.le8s)) a = (0, 0) from this _ rfl
  induction rs with
  | nil => intro a ha; simpa using ha
  | cons x xs ih =>
    intro a ha
    have hx := h x (by simp)
    exact ih (fun r hr => h r (by simp [hr])) _ (by subst ha; simp [hx.1, hx.2])

/-- An instruction that writes a predicate and may run. -/
theorem predOp_next {h : Hdr} {sc : Bool} {q : BitVec 3} {srcs : View → Mask → List Use} {f : View → Nat → Bool}
    {s : State} {v : View} (hi : s.issuing v perLane (v.touchP h sc q (srcs v (v.mask h sc)))) :
    predOp h 8 sc q srcs f (fun _ _ => pure 0) s = .next (v.decided h sc q (srcs v (v.mask h sc)) (f v) s) := by
  have hf : laneFlags ((v.runs h sc).map fun l => (l, runLane v l (pure 0))) = (0, 0) :=
    laneFlags_none (by simp [runLane, pure, StateT.pure, StateT.run])
  have e : predOp h 8 sc q srcs f (fun _ _ => pure 0) s =
      issueAs perLane h.sw 8 (fun v => v.touchP h sc q (srcs v (v.mask h sc)))
        (fun v s => .ok ((s.upd v.f (v.predUpd h sc q (f v))).orFlags v.f
          (laneFlags ((v.runs h sc).map fun l => (l, runLane v l (pure 0)))).1
          (laneFlags ((v.runs h sc).map fun l => (l, runLane v l (pure 0)))).2)) s := rfl
  rw [e, issueAs_body (us := fun v => v.touchP h sc q (srcs v (v.mask h sc))) hi]
  simp only [hf, State.orFlags]
  rfl

/-- A branching instruction that may run. -/
theorem issueBranch_done {h : Hdr} {len : Nat} {us : View → List Use} {body : View → State → Chk (State × (Nat → VA))} {s : State}
    {v : View} {us' : List Use} {eff : State → State} {next : Nat → VA} (hi : s.issuing v perLane us') (hus : us v = us')
    (hb : body v (s.consume v us') = .ok (eff (s.consume v us'), next)) :
    issueBranch h len us body s = .next (v.branched h len us' eff next s) := by
  subst hus
  simp only [issueBranch, hi.1, View.checks_ok hi.2, bind, Except.bind, hb]
  rfl

end Sys2Proof.Machine
end

