-- ==== Sys2Proof/Laws/Access.lean ====
section
/-! SUPPORT. The accesses of memory instructions: when every access reaches its place the preparation finds no fault, and a memory instruction whose
body performs every lane answers the state that `View.performed` names. -/

namespace Sys2Proof.Machine

open Sys2Proof

/-- A memory instruction that may run, is fresh, and whose body performs every lane. -/
theorem issueMemAs_done {k : Kindly} {sw : Bool} {len : Nat} {us : View → List Use} {body : MemBody} {s : State} {v : View}
    {us' : List Use} {p : Performed} (h : s.issuing v k us') (hf : v.fresh) (hus : us v = us') (hb : body v s none = .ok (p, [])) :
    issueMemAs k sw len us body s = .next (v.performed sw len us' p) := by
  subst hus
  obtain ⟨hr, hn⟩ := hf
  simp only [issueMemAs, h.1, hr, View.checks_ok h.2, hn, hb, bind, Except.bind, View.performed, firstErr, Option.bind,
    Bool.false_eq_true, if_false, List.nil_append] <;>
  (rcases p with ⟨ps, now, held, out, done⟩; cases out <;> rfl)

theorem maskOf_zero {p : Nat → Bool} (h : ∀ l < 32, p l = false) : maskOf p = 0 := by
  have e : (upTo 32).map p = (upTo 32).map fun _ => false :=
    List.map_congr_left fun l hl => h l (by simpa [upTo] using hl)
  unfold maskOf
  rw [e]
  decide

theorem lanesOfAcc_zero {as : List Access} {p : Access → Bool} (h : ∀ a ∈ as, p a = false) : lanesOfAcc as p = 0 :=
  maskOf_zero fun l _ => by simpa [lanesOfAcc] using fun a ha _ => h a ha

/-- Accesses that reach their places pass the segment and alignment checks. -/
theorem View.checkAcc_ok {v : View} {sp : Space} {as : List Access}
    (h : ∀ a ∈ as, v.laneInSegment sp a.lane a.addr a.len = true ∧ a.aligned = true) : v.checkAcc sp as = .ok () := by
  have h1 : lanesOfAcc as (fun a => !v.laneInSegment sp a.lane a.addr a.len) = 0 := lanesOfAcc_zero fun a ha => by simp [(h a ha).1]
  have h2 : lanesOfAcc as (fun a => !a.aligned) = 0 := lanesOfAcc_zero fun a ha => by simp [(h a ha).2]
  simp [View.checkAcc, h1, h2, View.trapIf, bind, Except.bind, pure, Except.pure]

theorem mem_addOnce {α : Type} [DecidableEq α] {l : List α} {x y : α} : y ∈ addOnce l x ↔ y ∈ l ∨ y = x := by
  unfold addOnce
  split
  · rename_i h
    have hx : x ∈ l := by simpa using h
    exact ⟨Or.inl, fun h => h.elim id fun e => e ▸ hx⟩
  · simp

theorem mem_frames {zs : List Nat} {fr : Nat} {acc : List Nat} :
    fr ∈ zs.foldl (fun acc z => addOnce acc (z / 2 ^ 16)) acc ↔ fr ∈ acc ∨ ∃ z ∈ zs, z / 2 ^ 16 = fr := by
  induction zs generalizing acc with
  | nil => simp
  | cons z zs ih =>
    simp only [List.foldl_cons, ih, mem_addOnce, List.mem_cons, exists_eq_or_imp]
    constructor
    · rintro ((h | h) | h)
      · exact .inl h
      · exact .inr (.inl h.symm)
      · exact .inr (.inr h)
    · rintro (h | h | h)
      · exact .inl (.inl h)
      · exact .inl (.inr h.symm)
      · exact .inr h

theorem aget_map {α : Type} {l : List Nat} {f : Nat → α} {k : Nat} (h : k ∈ l) : aget (l.map fun x => (x, f x)) k = some (f k) := by
  unfold aget
  induction l with
  | nil => simp at h
  | cons x xs ih =>
    by_cases e : x = k
    · subst e; simp
    · have hk : k ∈ xs := by simpa [Ne.symm e] using h
      simpa [e] using ih hk

/-- Accesses that reach their places are prepared without a fault. -/
theorem View.prepare_ok {v : View} {s : State} {sp : Space} {need : Need} {as : List Access} (h : v.reaches s sp need as) :
    ∃ p, v.prepare s sp need [] as = .ok p ∧ p.ready = v.placed s sp need as ∧ p.waiting = 0 ∧ p.frames = [] ∧
      s.keepAll v.agent p = v.cached s sp need as := by
  have hc : v.checkAcc sp as = .ok () := View.checkAcc_ok fun a ha => ⟨(h a ha).1, (h a ha).2.1⟩
  have hf : ∀ fr ∈ v.framesOf sp as, ∃ e, s.xlat v.agent v.c (fr * 2 ^ 16) need = .ok e := by
    intro fr hfr
    unfold View.framesOf at hfr
    rw [mem_frames] at hfr
    obtain hfr | ⟨z, hz, rfl⟩ := hfr
    · simp at hfr
    · simp only [List.mem_flatMap, List.mem_filterMap] at hz
      obtain ⟨a, ha, y, hy, hyz⟩ := hz
      have := (h a ha).2.2 y hy
      cases hs : y.1 with
      | pad cl t o => simp [hs, Spot.va?] at hyz
      | va w => simp only [hs, Spot.va?, Option.some.injEq] at hyz this; subst hyz; exact this
  have hfr : ∀ a ∈ as, ∀ y ∈ v.laneSpots sp a.lane a.addr a.len, ∀ z, y.1 = .va z → z / 2 ^ 16 ∈ v.framesOf sp as := by
    intro a ha y hy z hz
    unfold View.framesOf
    rw [mem_frames]
    exact .inr ⟨z, List.mem_flatMap.2 ⟨a, ha, List.mem_filterMap.2 ⟨y, hy, by simp [hz, Spot.va?]⟩⟩, rfl⟩
  have hx : (v.framesOf sp as).map (fun fr => (fr, s.xlatOr v.agent v.c [] (fr * 2 ^ 16) need)) =
      (v.framesOf sp as).map fun fr => (fr, s.xlat v.agent v.c (fr * 2 ^ 16) need) := by
    refine List.map_congr_left fun fr hm => ?_
    obtain ⟨e, he⟩ := hf fr hm
    simp [-Nat.reducePow, State.xlatOr, he]
  have bad0 : ∀ q : Xlat → Bool, (∀ e, q (.ok e) = false) →
      v.lanesWith sp as ((v.framesOf sp as).map fun fr => (fr, s.xlat v.agent v.c (fr * 2 ^ 16) need)) q = 0 := by
    intro q hq
    refine maskOf_zero fun l _ => ?_
    simp only [List.any_eq_false, Bool.and_eq_true, not_and]
    intro a ha _
    simp only [List.any_eq_true, not_exists, not_and]
    intro y hy
    cases hs : y.1 with
    | pad cl t o => simp [Spot.va?]
    | va z =>
      have hm := hfr a ha y hy z hs
      obtain ⟨e, he⟩ := hf _ hm
      simp [-Nat.reducePow, Spot.va?, aget_map hm, he, hq]
  have hole : ((v.framesOf sp as).map fun fr => (fr, s.xlat v.agent v.c (fr * 2 ^ 16) need)).findSome? (fun x => x.2.hole?) = none := by
    simp only [List.findSome?_eq_none_iff, List.mem_map, forall_exists_index, and_imp]
    rintro _ fr hm rfl
    obtain ⟨e, he⟩ := hf fr hm
    simp [-Nat.reducePow, he, Xlat.hole?]
  refine ⟨{ ready := v.placed s sp need as, waiting := 0, frames := [],
            used := (v.framesOf sp as).filterMap fun fr => (s.xlat v.agent v.c (fr * 2 ^ 16) need).entry? }, ?_, rfl, rfl, rfl, rfl⟩
  have hl : ∀ l, lane (0 : Mask) l = false := by intro l; simp [lane]
  have ready : ((as.filter fun a => !lane (0 : Mask) a.lane).map fun a =>
      ({ lane := a.lane, addr := a.addr, parts := (v.laneSpots sp a.lane a.addr a.len).map fun y =>
          (y.1.target ((v.framesOf sp as).map fun fr => (fr, s.xlat v.agent v.c (fr * 2 ^ 16) need)), y.2) } : Ready)) =
      v.placed s sp need as := by
    rw [List.filter_eq_self.2 fun a _ => by rw [hl]; rfl]
    unfold View.placed
    refine List.map_congr_left fun a ha => ?_
    simp only [Ready.mk.injEq, true_and]
    refine List.map_congr_left fun y hy => ?_
    congr 1
    cases hs : y.1 with
    | pad cl t o => rfl
    | va z =>
      have hm := hfr a ha y hy z hs
      obtain ⟨e, he⟩ := hf _ hm
      simp [-Nat.reducePow, View.targetAt, Spot.target, Xlat.entry?, aget_map hm, he]
  have frames : (((v.framesOf sp as).map fun fr => (fr, s.xlat v.agent v.c (fr * 2 ^ 16) need)).filter fun x => x.2.waits) = [] := by
    rw [List.filter_eq_nil_iff]
    intro x hm
    simp only [List.mem_map] at hm
    obtain ⟨fr, hm, rfl⟩ := hm
    obtain ⟨e, he⟩ := hf fr hm
    simp [-Nat.reducePow, he, Xlat.waits]
  simp only [View.prepare, hc, bind, Except.bind, pure, Except.pure, hx, hole, bad0 (fun q => q == .mapping) (by intro e; rfl),
    bad0 (fun q => q == .permission) (by intro e; rfl), bad0 Xlat.waits (by intro e; rfl), View.trapIf, BEq.rfl, if_true,
    ready, frames, List.map_nil, List.filterMap_map]
  rfl

end Sys2Proof.Machine
end

