-- ==== Sys2Proof/Laws/Memory.lean ====
section
/-! SUPPORT. Memory: the canonical form is kept by every operation on it, what a byte reads as after a write, and that canonical
memories with equal bytes are equal. -/

namespace Sys2Proof.Machine

open Sys2Proof

/-! ### The canonical form -/

theorem wfFrom_mono {lo lo' : Nat} {m : Memory} (h : wfFrom lo m = true) (hl : lo' ≤ lo) : wfFrom lo' m = true := by
  cases m with
  | nil => rfl
  | cons c m =>
    obtain ⟨x, b⟩ := c
    simp only [wfFrom, Bool.and_eq_true, decide_eq_true_eq] at h ⊢
    exact ⟨⟨le_trans hl h.1.1, h.1.2⟩, h.2⟩

theorem putByte_wfFrom {lo : Nat} {m : Memory} (h : wfFrom lo m = true) {a : Nat} (ha : lo ≤ a) (b : Byte) :
    wfFrom lo (putByte m a b) = true := by
  induction m generalizing lo with
  | nil => by_cases hb : b = 0#8 <;> simp [putByte, wfFrom, hb, ha]
  | cons c m ih =>
    obtain ⟨x, y⟩ := c
    simp only [wfFrom, Bool.and_eq_true, decide_eq_true_eq] at h
    obtain ⟨⟨hx, hy⟩, hm⟩ := h
    unfold putByte
    by_cases h1 : a < x
    · by_cases hb : b = 0#8
      · simp [h1, hb, wfFrom, hx, hm]; simpa using hy
      · simp [h1, hb, wfFrom, ha, hm]; simpa using hy
    · by_cases h2 : a = x
      · by_cases hb : b = 0#8
        · simpa [h1, h2, hb] using wfFrom_mono hm (by omega)
        · simp [h2, hb, wfFrom, hx, hm]
      · simp only [h1, h2, if_false, wfFrom, Bool.and_eq_true, decide_eq_true_eq]
        exact ⟨⟨hx, hy⟩, ih hm (by omega)⟩

theorem putByte_wf {m : Memory} (h : Memory.wf m = true) (a : Nat) (b : Byte) : Memory.wf (putByte m a b) = true :=
  putByte_wfFrom h (Nat.zero_le a) b

theorem foldl_wf {α : Type} (f : Memory → α → Memory) (hf : ∀ m x, Memory.wf m = true → Memory.wf (f m x) = true) (l : List α)
    {m : Memory} (h : Memory.wf m = true) : Memory.wf (l.foldl f m) = true := by
  induction l generalizing m with
  | nil => exact h
  | cons x xs ih => exact ih (hf m x h)

theorem putBytes_wf {m : Memory} (h : Memory.wf m = true) (a : Nat) (bs : List Byte) : Memory.wf (putBytes m a bs) = true :=
  foldl_wf _ (fun _ _ h => putByte_wf h _ _) _ h

theorem filter_wfFrom (p : Host.Cell → Bool) {lo : Nat} {m : Memory} (h : wfFrom lo m = true) : wfFrom lo (m.filter p) = true := by
  induction m generalizing lo with
  | nil => rfl
  | cons c m ih =>
    obtain ⟨x, y⟩ := c
    simp only [wfFrom, Bool.and_eq_true, decide_eq_true_eq] at h
    by_cases hp : p (x, y) = true
    · simp only [List.filter_cons, hp, if_true, wfFrom, Bool.and_eq_true, decide_eq_true_eq]
      exact ⟨h.1, ih h.2⟩
    · simp only [List.filter_cons, hp]
      exact wfFrom_mono (ih h.2) (by omega)

theorem filter_wf (p : Host.Cell → Bool) {m : Memory} (h : Memory.wf m = true) : Memory.wf (m.filter p) = true := filter_wfFrom p h

/-! ### Reading after writing -/

theorem byteAt_below {lo : Nat} {m : Memory} (h : wfFrom lo m = true) {a : Nat} (ha : a < lo) : byteAt m a = 0 := by
  induction m generalizing lo with
  | nil => rfl
  | cons c m ih =>
    obtain ⟨x, y⟩ := c
    simp only [wfFrom, Bool.and_eq_true, decide_eq_true_eq] at h
    have : a ≠ x := by omega
    simp only [byteAt, this, if_false]
    exact ih h.2 (by omega)

theorem byteAt_putByteFrom {lo : Nat} {m : Memory} (h : wfFrom lo m = true) (a c : Nat) (b : Byte) :
    byteAt (putByte m a b) c = if c = a then b else byteAt m c := by
  induction m generalizing lo with
  | nil => by_cases hb : b = 0#8 <;> by_cases hc : c = a <;> simp [putByte, byteAt, hb, hc]
  | cons e m ih =>
    obtain ⟨x, y⟩ := e
    simp only [wfFrom, Bool.and_eq_true, decide_eq_true_eq] at h
    have hm := h.2
    unfold putByte
    by_cases h1 : a < x
    · by_cases hb : b = 0#8
      · by_cases hc : c = a
        · subst hc
          have : byteAt m c = 0 := byteAt_below hm (by omega)
          have hne : c ≠ x := by omega
          simp [h1, hb, byteAt, hne, this]
        · simp [h1, hb, hc]
      · by_cases hc : c = a <;> simp [h1, hb, byteAt, hc]
    · by_cases h2 : a = x
      · by_cases hb : b = 0#8
        · by_cases hc : c = a
          · subst hc h2
            simpa [hb] using byteAt_below hm (by omega)
          · have : c ≠ x := by omega
            simp [h2, hb, byteAt, this]
        · subst h2
          by_cases hc : c = a <;> simp [hb, byteAt, hc]
      · simp only [h1, h2, if_false, byteAt, ih hm]
        by_cases hx : c = x
        · have : c ≠ a := by omega
          simp [hx, Ne.symm h2]
        · simp [hx]

theorem byteAt_putByte {m : Memory} (h : Memory.wf m = true) (a c : Nat) (b : Byte) :
    byteAt (putByte m a b) c = if c = a then b else byteAt m c := byteAt_putByteFrom h a c b

theorem byteAt_filterFrom (p : Host.Cell → Bool) (q : Nat → Bool) (hp : ∀ x y, p (x, y) = q x) {lo : Nat} {m : Memory}
    (h : wfFrom lo m = true) (a : Nat) : byteAt (m.filter p) a = if q a then byteAt m a else 0 := by
  induction m generalizing lo with
  | nil => simp [byteAt]
  | cons c m ih =>
    obtain ⟨x, y⟩ := c
    simp only [wfFrom, Bool.and_eq_true, decide_eq_true_eq] at h
    by_cases hx : a = x
    · subst hx
      by_cases hq : q a = true
      · simp [hp, hq, byteAt]
      · have : byteAt m a = 0 := byteAt_below h.2 (by omega)
        simp [hp, hq, ih h.2]
    · by_cases hq : q x = true <;> simp [hp, hq, byteAt, hx, ih h.2]

/-! ### Equal bytes, equal memories -/

theorem wfFrom_ext {lo : Nat} {m m' : Memory} (h : wfFrom lo m = true) (h' : wfFrom lo m' = true)
    (e : ∀ a, byteAt m a = byteAt m' a) : m = m' := by
  induction m generalizing lo m' with
  | nil =>
    cases m' with
    | nil => rfl
    | cons c m' =>
      obtain ⟨x, y⟩ := c
      simp only [wfFrom, Bool.and_eq_true] at h'
      have := e x
      simp [byteAt] at this
      exact absurd this.symm (by simpa using h'.1.2)
  | cons c m ih =>
    obtain ⟨x, y⟩ := c
    have hw := h
    simp only [wfFrom, Bool.and_eq_true, decide_eq_true_eq] at h
    have hy : y ≠ 0 := by simpa using h.1.2
    cases m' with
    | nil => exact absurd (by simpa [byteAt] using e x) hy
    | cons c' m' =>
      obtain ⟨x', y'⟩ := c'
      simp only [wfFrom, Bool.and_eq_true, decide_eq_true_eq] at h'
      have hy' : y' ≠ 0 := by simpa using h'.1.2
      have hxx : x = x' := by
        rcases Nat.lt_trichotomy x x' with hlt | heq | hgt
        · have hn : x ≠ x' := by omega
          have := e x
          simp [byteAt, hn, byteAt_below h'.2 (show x < x' + 1 by omega)] at this
          exact absurd this hy
        · exact heq
        · have hn : x' ≠ x := by omega
          have := e x'
          simp [byteAt, hn, byteAt_below h.2 (show x' < x + 1 by omega)] at this
          exact absurd this.symm hy'
      subst hxx
      have hyy : y = y' := by simpa [byteAt] using e x
      subst hyy
      congr 1
      refine ih h.2 h'.2 fun a => ?_
      by_cases ha : a = x
      · subst ha
        rw [byteAt_below h.2 (by omega), byteAt_below h'.2 (by omega)]
      · simpa [byteAt, ha] using e a

theorem Memory.ext_of_wf {m m' : Memory} (h : Memory.wf m = true) (h' : Memory.wf m' = true) (e : ∀ a, byteAt m a = byteAt m' a) :
    m = m' := wfFrom_ext h h' e

/-! ### The operations of the state on home memory and scratchpads -/

theorem State.putHome_wf {s : State} (h : Memory.wf s.mem = true) (w : Nat) (x : Word) (p : Bool) :
    Memory.wf (s.putHome w x p).mem = true := putBytes_wf h _ _

theorem State.putHomeBytes_wf {s : State} (h : Memory.wf s.mem = true) (pa : Nat) (bs : List Byte) :
    Memory.wf (s.putHomeBytes pa bs).mem = true := putBytes_wf h _ _

theorem State.clearHome_wf {s : State} (h : Memory.wf s.mem = true) (pa n : Nat) : Memory.wf (s.clearHome pa n).mem = true :=
  filter_wf _ h

/-- A run of operations each of which keeps the canonical form of home memory. -/
theorem State.foldl_wf {α : Type} {f : State → α → State} (hf : ∀ s x, Memory.wf s.mem = true → Memory.wf (f s x).mem = true) (l : List α)
    {s : State} (h : Memory.wf s.mem = true) : Memory.wf (l.foldl f s).mem = true := by
  induction l generalizing s with
  | nil => exact h
  | cons x xs ih => exact ih (hf s x h)

theorem State.relock_wf {s : State} (h : Memory.wf s.mem = true) (k : Byte) (u : Nat) : Memory.wf (s.relock k u).mem = true := by
  have h' := putBytes_wf h (16 * u) (leBytes 16 (s.unitAs k u).toNat)
  simp only [State.relock, apply_ite State.mem]
  split_ifs <;> assumption

theorem State.putHomeAs_wf {s : State} (h : Memory.wf s.mem = true) (k : Byte) (w : Nat) (x : Word) (p : Bool) :
    Memory.wf (s.putHomeAs k w x p).mem = true := State.putHome_wf (State.relock_wf h _ _) _ _ _

@[simp] theorem State.writeBlock_mem (s : State) (die pa : Nat) : (s.writeBlock die pa).mem = s.mem := rfl
@[simp] theorem State.readBlock_mem (s : State) (die pa : Nat) : (s.readBlock die pa).1.mem = s.mem := rfl

theorem State.writeHome_wf {s : State} (h : Memory.wf s.mem = true) (m : Mapped) (x : Word) (p : Bool) :
    Memory.wf (s.writeHome m x p).mem = true := by
  unfold State.writeHome
  split
  · simpa using State.putHomeAs_wf h _ _ _ _
  · exact State.putHomeAs_wf h _ _ _ _

theorem State.writePlace_wf {s : State} (h : Memory.wf s.mem = true) (pa die : Nat) (k : Byte) (cp : Bool) (x : Word) :
    Memory.wf (s.writePlace pa die k cp x).mem = true := by
  unfold State.writePlace
  split
  · simpa using State.putHomeAs_wf h _ _ _ _
  · exact State.putHomeAs_wf h _ _ _ _

theorem State.putHomeRange_wf {s : State} (h : Memory.wf s.mem = true) (k : Byte) (pa : Nat) (bs : List Byte) :
    Memory.wf (s.putHomeRange k pa bs).mem = true :=
  State.foldl_wf (fun _ _ h => State.putHomeAs_wf h _ _ _ _) _ h

theorem State.writeRange_wf {s : State} (h : Memory.wf s.mem = true) (m : Mapped) (bs : List Byte) :
    Memory.wf (s.writeRange m bs).mem = true :=
  State.foldl_wf (fun _ _ h => by simpa using h) _ (State.putHomeRange_wf h _ _ _)

theorem State.relockRange_wf {s : State} (h : Memory.wf s.mem = true) (k : Byte) (pa n : Nat) : Memory.wf (s.relockRange k pa n).mem = true := by
  unfold State.relockRange
  split
  · exact h
  · exact State.foldl_wf (fun _ _ h => State.relock_wf h _ _) _ h

theorem State.copyRange_wf {s : State} (h : Memory.wf s.mem = true) (k : Byte) (old new n : Nat) :
    Memory.wf (s.copyRange k old new n).mem = true :=
  Sys2Proof.Machine.foldl_wf _ (fun _ _ h => putByte_wf h _ _) _ (State.clearHome_wf (State.relockRange_wf h _ _ _) new n)

/-- A write of a scratchpad keeps the canonical form of every scratchpad. -/
theorem State.putPad_wf {s : State} (h : ∀ t ∈ s.teams, Memory.wf t.pad = true) (cl team off : Nat) (bs : List Byte) :
    ∀ t ∈ (s.putPad cl team off bs).teams, Memory.wf t.pad = true := by
  intro t ht
  simp only [State.putPad, State.modTeam, List.mem_map] at ht
  obtain ⟨x, hx, rfl⟩ := ht
  split
  · exact putBytes_wf (h x hx) _ _
  · exact h x hx

end Sys2Proof.Machine
end

