-- ==== Sys2Proof/Laws/PerInstr.lean ====
section
/-! SUPPORT. The family Encoding, one lemma per constructor: the fields of a well-formed instruction word decode to that instruction. -/

namespace Sys2Proof.Laws

open Sys2Proof

/-! ### The parts of a field record -/

@[simp] theorem Fields.m108_eq (f : Fields) : f.m108 = (f.hi.extractLsb' 3 3) := rfl
@[simp] theorem Fields.m75_eq (f : Fields) : f.m75 = (f.hi.extractLsb' 0 3) := rfl
@[simp] theorem Fields.m85_eq (f : Fields) : f.m85 = (f.hi.extractLsb' 0 4) := rfl
@[simp] theorem Fields.m109_eq (f : Fields) : f.m109 = (f.hi.extractLsb' 4 2) := rfl
@[simp] theorem Fields.m98_eq (f : Fields) : f.m98 = (f.hi.extractLsb' 3 2) := rfl
@[simp] theorem Fields.m65_eq (f : Fields) : f.m65 = (f.hi.extractLsb' 0 2) := rfl
@[simp] theorem Fields.m86_eq (f : Fields) : f.m86 = (f.hi.extractLsb' 1 3) := rfl
@[simp] theorem Fields.m97_eq (f : Fields) : f.m97 = (f.hi.extractLsb' 2 3) := rfl
@[simp] theorem Fields.m76_eq (f : Fields) : f.m76 = (f.hi.extractLsb' 1 2) := rfl
@[simp] theorem Fields.m10_eq (f : Fields) : f.m10 = (f.hi.getLsbD 5) := rfl
@[simp] theorem Fields.m9_eq (f : Fields) : f.m9 = (f.hi.getLsbD 4) := rfl
@[simp] theorem Fields.m8_eq (f : Fields) : f.m8 = (f.hi.getLsbD 3) := rfl
@[simp] theorem Fields.m5_eq (f : Fields) : f.m5 = (f.hi.getLsbD 0) := rfl
@[simp] theorem Fields.sc_eq (f : Fields) : f.sc = (f.lo == 1) := rfl
@[simp] theorem Fields.hdr_eq (f : Fields) : f.hdr = (⟨f.sw, f.pg, f.pn⟩) := rfl
@[simp] theorem Fields.oa_eq (f : Fields) : f.oa = (⟨f.a, f.xa, f.la⟩) := rfl
@[simp] theorem Fields.ob_eq (f : Fields) : f.ob = (⟨f.b, f.xb, f.lb⟩) := rfl
@[simp] theorem Fields.oc_eq (f : Fields) : f.oc = (⟨f.c, false, f.lc⟩) := rfl
@[simp] theorem Fields.op1_eq (f : Fields) : f.op1 = (⟨f.hdr, f.sc, f.d, f.oa⟩) := rfl
@[simp] theorem Fields.op2_eq (f : Fields) : f.op2 = (⟨f.hdr, f.sc, f.d, f.oa, f.ob⟩) := rfl
@[simp] theorem Fields.op3_eq (f : Fields) : f.op3 = (⟨f.hdr, f.sc, f.d, f.oa, f.ob, f.oc⟩) := rfl
@[simp] theorem Fields.lat_eq (f : Fields) : f.lat = (⟨f.hdr, f.m5, f.d, f.oa, f.ob, f.c⟩) := rfl
@[simp] theorem Fields.ta_eq (f : Fields) : f.ta = (⟨f.a.extractLsb' 4 4, f.a.extractLsb' 0 4⟩) := rfl
@[simp] theorem Fields.tb_eq (f : Fields) : f.tb = (⟨f.b.extractLsb' 4 4, f.b.extractLsb' 0 4⟩) := rfl
@[simp] theorem laneWord_eq (len : Len) (h : Hdr) (op : Nat) : laneWord len h op =
    ⟨len, h.sw, h.pg, h.pn, BitVec.ofNat 9 op, 0, 0, 0, 0, false, false, false, false, false, 0, 0, 0, 0⟩ := rfl
@[simp] theorem wideWord_eq (len : Len) (sw : Bool) (op : Nat) : wideWord len sw op =
    ⟨len, sw, 7, false, BitVec.ofNat 9 op, 0, 0, 0, 0, false, false, false, false, false, 0, 0, 0, 0⟩ := rfl
@[simp] theorem Op1.fields_eq (o : Op1) (op : Nat) (hi : BitVec 6) (ty : BitVec 4) : o.fields op hi ty =
    ⟨.l64, o.h.sw, o.h.pg, o.h.pn, BitVec.ofNat 9 op, o.d, o.a.idx, 0, 0, o.a.last, false, false, o.a.x, false, hi, ty, bit o.sc, 0⟩ := rfl
@[simp] theorem Op2.fields_eq (o : Op2) (op : Nat) (hi : BitVec 6) (ty : BitVec 4) : o.fields op hi ty =
    ⟨.l64, o.h.sw, o.h.pg, o.h.pn, BitVec.ofNat 9 op, o.d, o.a.idx, o.b.idx, 0, o.a.last, o.b.last, false, o.a.x, o.b.x, hi, ty, bit o.sc, 0⟩ := rfl
@[simp] theorem Op3.fields_eq (o : Op3) (op : Nat) (hi : BitVec 6) (ty : BitVec 4) : o.fields op hi ty =
    ⟨.l64, o.h.sw, o.h.pg, o.h.pn, BitVec.ofNat 9 op, o.d, o.a.idx, o.b.idx, o.c.idx, o.a.last, o.b.last, o.c.last, o.a.x, o.b.x, hi, ty, bit o.sc, 0⟩ := rfl
@[simp] theorem LatOp.fields_eq (o : LatOp) (op : Nat) : o.fields op =
    ⟨.l64, o.h.sw, o.h.pg, o.h.pn, BitVec.ofNat 9 op, o.d, o.a.idx, o.b.idx, o.c, o.a.last, o.b.last, false, o.a.x, o.b.x, (0#5 ++ bit o.hi : BitVec 6), Ty.code .le8, 0, 0⟩ := rfl
@[simp] theorem Fields.setA_eq (f : Fields) (o : Opnd) : f.setA o = { f with a := o.idx, xa := o.x, la := o.last } := rfl
@[simp] theorem Fields.setB_eq (f : Fields) (o : Opnd) : f.setB o = { f with b := o.idx, xb := o.x, lb := o.last } := rfl
@[simp] theorem Fields.setC_eq (f : Fields) (o : Opnd) : f.setC o = { f with c := o.idx, lc := o.last } := rfl
@[simp] theorem Ty.code_back (t : Ty) : Ty.ofCode t.code = some t := Ty.ofCode_code t
@[simp] theorem Space.code_back (t : Space) : Space.ofCode t.code = some t := Space.ofCode_code t
@[simp] theorem Scope.code_back (t : Scope) : Scope.ofCode t.code = some t := Scope.ofCode_code t
@[simp] theorem RMode.code_back (t : RMode) : RMode.ofCode t.code = some t := RMode.ofCode_code t
@[simp] theorem Cond.code_back (t : Cond) : Cond.ofCode t.code = some t := Cond.ofCode_code t
@[simp] theorem FCond.code_back (t : FCond) : FCond.ofCode t.code = some t := FCond.ofCode_code t
@[simp] theorem VoteMode.code_back (t : VoteMode) : VoteMode.ofCode t.code = some t := VoteMode.ofCode_code t
@[simp] theorem ShflMode.code_back (t : ShflMode) : ShflMode.ofCode t.code = some t := ShflMode.ofCode_code t
@[simp] theorem AtomOp.code_back (t : AtomOp) : AtomOp.ofCode t.code = some t := AtomOp.ofCode_code t
@[simp] theorem AtomOrd.code_back (t : AtomOrd) : AtomOrd.ofCode t.code = some t := AtomOrd.ofCode_code t
@[simp] theorem Count.code_back (t : Count) : Count.ofCode t.code = some t := Count.ofCode_code t
@[simp] theorem PrefLevel.code_back (t : PrefLevel) : PrefLevel.ofCode t.code = some t := PrefLevel.ofCode_code t
@[simp] theorem RelsOp.code_back (t : RelsOp) : RelsOp.ofCode t.code = some t := RelsOp.ofCode_code t
@[simp] theorem GredOp.code_back (t : GredOp) : GredOp.ofCode t.code = some t := GredOp.ofCode_code t
@[simp] theorem GQuery.code_back (t : GQuery) : GQuery.ofCode t.code = some t := GQuery.ofCode_code t
@[simp] theorem Engine.code_back (t : Engine) : Engine.ofCode t.code = some t := Engine.ofCode_code t
@[simp] theorem Kind.code_back (t : Kind) : Kind.ofCode t.code = some t := Kind.ofCode_code t
@[simp] theorem HField.code_back (t : HField) : HField.ofCode t.code = some t := HField.ofCode_code t
@[simp] theorem MQuery.code_back (t : MQuery) : MQuery.ofCode t.code = some t := MQuery.ofCode_code t
@[simp] theorem CgQuery.code_back (t : CgQuery) : CgQuery.ofCode t.code = some t := CgQuery.ofCode_code t
@[simp] theorem Fmt.code_back (t : Fmt) : Fmt.ofCode t.code = some t := Fmt.ofCode_code t
@[simp] theorem SReg.code_back (t : SReg) : SReg.ofCode t.code = some t := SReg.ofCode_code t
@[simp] theorem FenceMode.code_back (t : FenceMode) : FenceMode.ofCode t.code = some t := FenceMode.ofCode_code t
@[simp] theorem Len.code_back (t : Len) : Len.ofCode t.code = some t := Len.ofCode_code t
theorem Opnd.back (c : Opnd) (hx : c.x = false) : (⟨c.idx, false, c.last⟩ : Opnd) = c := by cases c; simp_all
theorem Op3.back (o : Op3) (hx : o.c.x = false) :
    (⟨⟨o.h.sw, o.h.pg, o.h.pn⟩, o.sc, o.d, ⟨o.a.idx, o.a.x, o.a.last⟩, ⟨o.b.idx, o.b.x, o.b.last⟩, ⟨o.c.idx, false, o.c.last⟩⟩ : Op3) =
      o := by rw [Opnd.back o.c hx]
@[simp] theorem field_lowBits_reg8 {n : Nat} (h : n ≤ 8) (v : BitVec n) : lowBits n (reg8 v) = v := by
  unfold lowBits reg8; rw [BitVec.setWidth_setWidth_of_le v h]; exact BitVec.setWidth_eq v
@[simp] theorem field_setWidth_back {n m : Nat} (h : n ≤ m) (v : BitVec n) : (v.setWidth m).setWidth n = v := by
  rw [BitVec.setWidth_setWidth_of_le v h]; exact BitVec.setWidth_eq v
@[simp] theorem field_hi33_lo : ∀ x y : BitVec 3, (hi33 x y).extractLsb' 0 3 = y := by decide
@[simp] theorem field_hi33_hi : ∀ x y : BitVec 3, (hi33 x y).extractLsb' 3 3 = x := by decide
@[simp] theorem field_hi83_lo : ∀ (x : Bool) (y : BitVec 3), (hi83 x y).extractLsb' 0 3 = y := by decide
@[simp] theorem field_ap24_lo : ∀ (x : BitVec 2) (y : BitVec 4), ((x ++ y : BitVec 6)).extractLsb' 0 4 = y := by decide
@[simp] theorem field_ap24_hi : ∀ (x : BitVec 2) (y : BitVec 4), ((x ++ y : BitVec 6)).extractLsb' 4 2 = x := by decide
@[simp] theorem field_trap_n : ∀ n : BitVec 8, ((n.extractLsb' 2 6 ++ ((n.extractLsb' 0 2 ++ 0#2 : BitVec 4)).extractLsb' 2 2 : BitVec 8)) = n := by decide
@[simp] theorem field_tile_back (t : Tile) : (⟨t.code.extractLsb' 4 4, t.code.extractLsb' 0 4⟩ : Tile) = t := by
  cases t with | mk a b => revert a b; decide

@[simp] theorem field_bit_one' : ∀ x : Bool, (bit x == 1#1) = x := by decide
@[simp] theorem field_hi5_b' : ∀ x : Bool, (hi5 x)[0] = x := by decide
@[simp] theorem field_hi83_b' : ∀ (x : Bool) (y : BitVec 3), (hi83 x y)[3] = x := by decide
@[simp] theorem field_hi33_b0' : ∀ x : BitVec 3, (hi33 x 0#3)[0] = false := by decide
@[simp] theorem field_hi33_b1' : ∀ x : BitVec 3, (hi33 x 1#3)[0] = true := by decide
@[simp] theorem field_scope_dev : ∀ x : Bool, ((if x = true then Scope.device else Scope.die).code == Scope.device.code) = x := by decide
@[simp] theorem field_rel_back : ∀ x : Bool, ((if x = true then AtomOrd.rel else AtomOrd.none).code == AtomOrd.rel.code) = x := by decide
@[simp] theorem field_a1_0 : ∀ (b : Bool) (x : BitVec 2) (y : BitVec 3), ((bit b ++ x ++ y : BitVec 6))[5] = b := by decide
@[simp] theorem field_a1_1 : ∀ (b : Bool) (x : BitVec 2) (y : BitVec 3), ((bit b ++ x ++ y : BitVec 6)).extractLsb' 3 2 = x := by decide
@[simp] theorem field_a1_2 : ∀ (b : Bool) (x : BitVec 2) (y : BitVec 3), ((bit b ++ x ++ y : BitVec 6)).extractLsb' 0 3 = y := by decide
@[simp] theorem field_a2_0 : ∀ (b c : Bool) (y : BitVec 3), ((0#1 ++ bit b ++ bit c ++ y : BitVec 6))[4] = b := by decide
@[simp] theorem field_a2_1 : ∀ (b c : Bool) (y : BitVec 3), ((0#1 ++ bit b ++ bit c ++ y : BitVec 6))[3] = c := by decide
@[simp] theorem field_a2_2 : ∀ (b c : Bool) (y : BitVec 3), ((0#1 ++ bit b ++ bit c ++ y : BitVec 6)).extractLsb' 0 3 = y := by decide
@[simp] theorem field_a3_0 : ∀ (m : BitVec 2), ((0#4 ++ m : BitVec 6)).extractLsb' 0 2 = m := by decide
@[simp] theorem field_a4_0 : ∀ (b c : Bool) (y : BitVec 3), ((bit b ++ bit c ++ 0#1 ++ y : BitVec 6))[5] = b := by decide
@[simp] theorem field_a4_1 : ∀ (b c : Bool) (y : BitVec 3), ((bit b ++ bit c ++ 0#1 ++ y : BitVec 6))[4] = c := by decide
@[simp] theorem field_a4_2 : ∀ (b c : Bool) (y : BitVec 3), ((bit b ++ bit c ++ 0#1 ++ y : BitVec 6)).extractLsb' 0 3 = y := by decide
@[simp] theorem field_a4b_0 : ∀ (b c : Bool) (y : BitVec 3), ((bit b ++ 1#1 ++ bit c ++ y : BitVec 6))[5] = b := by decide
@[simp] theorem field_a4b_1 : ∀ (b c : Bool) (y : BitVec 3), ((bit b ++ 1#1 ++ bit c ++ y : BitVec 6))[4] = true := by decide
@[simp] theorem field_a4b_2 : ∀ (b c : Bool) (y : BitVec 3), ((bit b ++ 1#1 ++ bit c ++ y : BitVec 6))[3] = c := by decide
@[simp] theorem field_a4b_3 : ∀ (b c : Bool) (y : BitVec 3), ((bit b ++ 1#1 ++ bit c ++ y : BitVec 6)).extractLsb' 0 3 = y := by decide
@[simp] theorem field_a4c_0 : ∀ (b c : Bool) (y : BitVec 3), ((bit b ++ 0#1 ++ bit c ++ y : BitVec 6))[5] = b := by decide
@[simp] theorem field_a4c_1 : ∀ (b c : Bool) (y : BitVec 3), ((bit b ++ 0#1 ++ bit c ++ y : BitVec 6))[4] = false := by decide
@[simp] theorem field_a4c_2 : ∀ (b c : Bool) (y : BitVec 3), ((bit b ++ 0#1 ++ bit c ++ y : BitVec 6))[3] = c := by decide
@[simp] theorem field_a4c_3 : ∀ (b c : Bool) (y : BitVec 3), ((bit b ++ 0#1 ++ bit c ++ y : BitVec 6)).extractLsb' 0 3 = y := by decide
@[simp] theorem field_a5_0 : ∀ (b : Bool) (y : BitVec 3), ((0#1 ++ bit b ++ 0#1 ++ y : BitVec 6))[4] = b := by decide
@[simp] theorem field_a5_1 : ∀ (b : Bool) (y : BitVec 3), ((0#1 ++ bit b ++ 0#1 ++ y : BitVec 6)).extractLsb' 0 3 = y := by decide
@[simp] theorem field_a6_0 : ∀ (c : BitVec 2), ((0#3 ++ c ++ 1#1 : BitVec 6))[0] = true := by decide
@[simp] theorem field_a6_1 : ∀ (c : BitVec 2), ((0#3 ++ c ++ 1#1 : BitVec 6)).extractLsb' 1 2 = c := by decide
@[simp] theorem field_a6b_0 : ∀ (c : BitVec 2), ((0#3 ++ c ++ 0#1 : BitVec 6))[0] = false := by decide
@[simp] theorem field_a6b_1 : ∀ (c : BitVec 2), ((0#3 ++ c ++ 0#1 : BitVec 6)).extractLsb' 1 2 = c := by decide
@[simp] theorem field_a7_0 : ∀ (b c : Bool), ((0#4 ++ bit b ++ bit c : BitVec 6))[1] = b := by decide
@[simp] theorem field_a7_1 : ∀ (b c : Bool), ((0#4 ++ bit b ++ bit c : BitVec 6))[0] = c := by decide
@[simp] theorem field_a9_0 : ∀ (w : BitVec 3) (m : BitVec 2), ((0#1 ++ w ++ m : BitVec 6)).extractLsb' 2 3 = w := by decide
@[simp] theorem field_a9_1 : ∀ (w : BitVec 3) (m : BitVec 2), ((0#1 ++ w ++ m : BitVec 6)).extractLsb' 0 2 = m := by decide
@[simp] theorem field_a11_0 : ∀ (p : BitVec 2) (b : Bool) (y : BitVec 3), ((p ++ bit b ++ y : BitVec 6)).extractLsb' 4 2 = p := by decide
@[simp] theorem field_a11_1 : ∀ (p : BitVec 2) (b : Bool) (y : BitVec 3), ((p ++ bit b ++ y : BitVec 6))[3] = b := by decide
@[simp] theorem field_a11_2 : ∀ (p : BitVec 2) (b : Bool) (y : BitVec 3), ((p ++ bit b ++ y : BitVec 6)).extractLsb' 0 3 = y := by decide
@[simp] theorem field_a12_0 : ∀ (l : BitVec 2) (y : BitVec 3), ((0#1 ++ l ++ y : BitVec 6)).extractLsb' 3 2 = l := by decide
@[simp] theorem field_a12_1 : ∀ (l : BitVec 2) (y : BitVec 3), ((0#1 ++ l ++ y : BitVec 6)).extractLsb' 0 3 = y := by decide
@[simp] theorem field_a13_0 : ∀ (g : BitVec 2) (k : BitVec 3) (f : BitVec 1), ((g ++ k ++ f : BitVec 6)).extractLsb' 4 2 = g := by decide
@[simp] theorem field_a13_1 : ∀ (g : BitVec 2) (k : BitVec 3) (f : BitVec 1), ((g ++ k ++ f : BitVec 6)).extractLsb' 1 3 = k := by decide
@[simp] theorem field_a13_2 : ∀ (g : BitVec 2) (k : BitVec 3) (f : BitVec 1), ((g ++ k ++ f : BitVec 6)).extractLsb' 0 1 = f := by decide
@[simp] theorem field_a14_0 : ∀ (c : BitVec 3) (b : Bool), ((c ++ 0#2 ++ bit b : BitVec 6)).extractLsb' 3 3 = c := by decide
@[simp] theorem field_a14_1 : ∀ (c : BitVec 3) (b : Bool), ((c ++ 0#2 ++ bit b : BitVec 6))[0] = b := by decide
@[simp] theorem field_a16_0 : ∀ (b : Bool), ((0#5 ++ bit b : BitVec 6))[0] = b := by decide
@[simp] theorem field_a17_0 : ∀ (n : BitVec 5), ((0#1 ++ n : BitVec 6))[5] = false := by decide
@[simp] theorem field_a17_1 : ∀ (n : BitVec 5), ((0#1 ++ n : BitVec 6)).extractLsb' 0 5 = n := by decide
@[simp] theorem field_a15 : ∀ s : BitVec 3, ((s ++ 0#1 : BitVec 4)).extractLsb' 1 3 = s := by decide
@[simp] theorem field_atom_sc : ∀ (s : Scope) (o : AtomOrd), (atomC s o).extractLsb' 4 4 = s.code := by intro s o; cases s <;> cases o <;> rfl
@[simp] theorem field_atom_o : ∀ (s : Scope) (o : AtomOrd), (atomC s o).extractLsb' 2 2 = o.code := by intro s o; cases s <;> cases o <;> rfl
@[simp] theorem field_fmt_back : ∀ f : Fmt, ((f.code.extractLsb' 4 1 ++ f.code.extractLsb' 0 4 : BitVec 5)) = f.code := by intro f; cases f <;> rfl
@[simp] theorem field_ix10c : ∀ n : BitVec 10, ((n.extractLsb' 5 5 ++ n.extractLsb' 1 4 ++ n.extractLsb' 0 1 : BitVec 10)) = n := by decide
@[simp] theorem field_plop_parts : ∀ g : PlopG, PlopG.ofParts g.parts.1 g.parts.2 = g := by intro g; cases g <;> rfl
@[simp] theorem field_lq_parts : ∀ q : LQuery, LQuery.ofParts q.parts.1 q.parts.2.1 q.parts.2.2 = some q := by
  intro q; cases q <;> first | rfl | (rename_i e h; cases e <;> rfl)
@[simp] theorem field_jq_parts : ∀ q : JQuery, JQuery.ofParts q.parts.1 q.parts.2 = some q := by intro q; cases q <;> rfl
@[simp] theorem field_scope_read : ∀ s : Option Scope, scopeRead s.isSome (scopeField s) = some s := by
  intro s; cases s with
  | none => rfl
  | some x => cases x <;> rfl
@[simp] theorem field_hi33_13 : (hi33 1#3 0#3)[3] = true := by decide
theorem lset_nat (x : BitVec 24) (y : BitVec 16) : (0#24 ++ x ++ y : BitVec 64).toNat = x.toNat * 65536 + y.toNat := by
  have h := y.isLt
  have e : (0#24 ++ x ++ y : BitVec 64).toNat = (0#24 ++ x).toNat <<< 16 ||| y.toNat := BitVec.toNat_append _ _
  have e' : (0#24 ++ x : BitVec 48).toNat = (0#24).toNat <<< 24 ||| x.toNat := BitVec.toNat_append _ _
  rw [e, e', ← Nat.shiftLeft_add_eq_or_of_lt h, Nat.shiftLeft_eq]; simp
@[simp] theorem field_lset_lo (x : BitVec 24) (y : BitVec 16) : ((0#24 ++ x ++ y : BitVec 64)).extractLsb' 0 16 = y := by
  apply BitVec.eq_of_toNat_eq
  have h := y.isLt; have h' := x.isLt
  rw [BitVec.extractLsb'_toNat, lset_nat]; simp; exact h
@[simp] theorem field_lset_hi (x : BitVec 24) (y : BitVec 16) : ((0#24 ++ x ++ y : BitVec 64)).extractLsb' 16 24 = x := by
  apply BitVec.eq_of_toNat_eq
  have h := y.isLt; have h' := x.isLt
  rw [BitVec.extractLsb'_toNat, lset_nat, Nat.shiftRight_eq_div_pow]; omega

/-! ### Reading a record back -/

theorem decode_of_read (i : Instr) (f : Fields) (hf : i.toFields = some f) (ha : assignedOp f.op.toNat = true) (hr : f.read = some i) (hw : i.wf = true) : f.decode = some i := by
  unfold Fields.decode; rw [if_pos ha, hr]; simp [hf, hw]
theorem read_as (g : Fields → Option Instr) (f : Fields) (i : Option Instr) (h : f.read = g f) (h2 : g f = i) : f.read = i := h.trans h2

end Sys2Proof.Laws

namespace Sys2Proof.Laws.Encoding

open Sys2Proof Sys2Proof.Laws

/-- A well-formed instruction word is what its own fields decode to. -/
def Statement (i : Instr) : Prop := i.wf = true → ∀ f, i.toFields = some f → f.decode = some i

theorem nop (h : Hdr) (len : Len) : Statement (.nop h len) := by
  intro hw w hf
  obtain rfl := Option.some.inj hf
  exact decode_of_read _ _ rfl rfl (read_as (fun f => some (.nop f.hdr f.len)) _ _ rfl rfl) hw

theorem bra (h : Hdr) (off : Word) : Statement (.bra h off) := by
  intro hw w hf
  obtain rfl := Option.some.inj hf
  exact decode_of_read _ _ rfl rfl (read_as (fun f => some (.bra f.hdr (f.ext.setWidth 32))) _ _ rfl (by simp)) hw

theorem brx (h : Hdr) (a : Opnd) : Statement (.brx h a) := by
  intro hw w hf
  obtain rfl := Option.some.inj hf
  exact decode_of_read _ _ rfl rfl (read_as (fun f => some (.brx f.hdr f.oa)) _ _ rfl rfl) hw

theorem call (h : Hdr) (d : BitVec 8) (off : Word) : Statement (.call h d off) := by
  intro hw w hf
  obtain rfl := Option.some.inj hf
  exact decode_of_read _ _ rfl rfl (read_as (fun f => some (.call f.hdr f.d (f.ext.setWidth 32))) _ _ rfl (by simp)) hw

theorem callx (h : Hdr) (d : BitVec 8) (a : Opnd) : Statement (.callx h d a) := by
  intro hw w hf
  obtain rfl := Option.some.inj hf
  exact decode_of_read _ _ rfl rfl (read_as (fun f => some (.callx f.hdr f.d f.oa)) _ _ rfl rfl) hw

theorem ret (h : Hdr) (a : Opnd) : Statement (.ret h a) := by
  intro hw w hf
  obtain rfl := Option.some.inj hf
  exact decode_of_read _ _ rfl rfl (read_as (fun f => some (.ret f.hdr f.oa)) _ _ rfl rfl) hw

theorem regang (sw : Bool) (a : BitVec 8) : Statement (.regang sw a) := by
  intro hw w hf
  obtain rfl := Option.some.inj hf
  exact decode_of_read _ _ rfl rfl (read_as (fun f => some (.regang f.sw f.a)) _ _ rfl rfl) hw

theorem exit (h : Hdr) : Statement (.exit h) := by
  intro hw w hf
  obtain rfl := Option.some.inj hf
  exact decode_of_read _ _ rfl rfl (read_as (fun f => some (.exit f.hdr)) _ _ rfl rfl) hw

theorem yield (sw : Bool) : Statement (.yield sw) := by
  intro hw w hf
  obtain rfl := Option.some.inj hf
  exact decode_of_read _ _ rfl rfl (read_as (fun f => some (.yield f.sw)) _ _ rfl rfl) hw

theorem trap (h : Hdr) (n : BitVec 8) : Statement (.trap h n) := by
  intro hw w hf
  obtain rfl := Option.some.inj hf
  exact decode_of_read _ _ rfl rfl (read_as (fun f => some (.trap f.hdr (f.hi ++ f.ty.extractLsb' 2 2 : BitVec 8))) _ _ rfl (by simp)) hw

theorem bkpt (h : Hdr) : Statement (.bkpt h) := by
  intro hw w hf
  obtain rfl := Option.some.inj hf
  exact decode_of_read _ _ rfl rfl (read_as (fun f => some (.bkpt f.hdr)) _ _ rfl rfl) hw

theorem rtt (sw : Bool) : Statement (.rtt sw) := by
  intro hw w hf
  obtain rfl := Option.some.inj hf
  exact decode_of_read _ _ rfl rfl (read_as (fun f => some (.rtt f.sw)) _ _ rfl rfl) hw

theorem rdsr (h : Hdr) (sc : Bool) (d : BitVec 8) (sr : SReg) : Statement (.rdsr h sc d sr) := by
  intro hw w hf
  obtain rfl := Option.some.inj hf
  exact decode_of_read _ _ rfl rfl (read_as (fun f => (SReg.ofCode f.a).map (.rdsr f.hdr f.sc f.d ·)) _ _ rfl (by simp)) hw

theorem wrsr (h : Hdr) (sr : SReg) (a : Opnd) : Statement (.wrsr h sr a) := by
  intro hw w hf
  obtain rfl := Option.some.inj hf
  exact decode_of_read _ _ rfl rfl (read_as (fun f => (SReg.ofCode f.d).map (.wrsr f.hdr · f.oa)) _ _ rfl (by simp)) hw

theorem setseg (sw : Bool) (lim : Bool) (sp : Space) (a : BitVec 8) : Statement (.setseg sw lim sp a) := by
  intro hw w hf
  obtain rfl := Option.some.inj hf
  exact decode_of_read _ _ rfl rfl (read_as (fun f => (Space.ofCode f.m75).map (.setseg f.sw f.m8 · f.a)) _ _ rfl (by simp)) hw

theorem getseg (sw : Bool) (lim : Bool) (sp : Space) (d : BitVec 6) : Statement (.getseg sw lim sp d) := by
  intro hw w hf
  obtain rfl := Option.some.inj hf
  exact decode_of_read _ _ rfl rfl (read_as (fun f => (Space.ofCode f.m75).map (.getseg f.sw f.m8 · (lowBits 6 f.d))) _ _ rfl (by simp)) hw

theorem rdcyc (h : Hdr) (sc : Bool) (ord : Bool) (d : BitVec 8) : Statement (.rdcyc h sc ord d) := by
  intro hw w hf
  obtain rfl := Option.some.inj hf
  exact decode_of_read _ _ rfl rfl (read_as (fun f => some (.rdcyc f.hdr f.sc f.m5 f.d)) _ _ rfl (by simp)) hw

theorem dbnz (h : Hdr) (sc : Bool) (d : BitVec 8) (off : Word) : Statement (.dbnz h sc d off) := by
  intro hw w hf
  obtain rfl := Option.some.inj hf
  exact decode_of_read _ _ rfl rfl (read_as (fun f => some (.dbnz f.hdr f.sc f.d (f.ext.setWidth 32))) _ _ rfl (by simp)) hw

theorem savectx (sw : Bool) (a : BitVec 8) : Statement (.savectx sw a) := by
  intro hw w hf
  obtain rfl := Option.some.inj hf
  exact decode_of_read _ _ rfl rfl (read_as (fun f => some (.savectx f.sw f.a)) _ _ rfl rfl) hw

theorem loadctx (sw : Bool) (a : BitVec 8) : Statement (.loadctx sw a) := by
  intro hw w hf
  obtain rfl := Option.some.inj hf
  exact decode_of_read _ _ rfl rfl (read_as (fun f => some (.loadctx f.sw f.a)) _ _ rfl rfl) hw

theorem tlbinv (sw : Bool) (dev : Bool) (rng : InvRange) : Statement (.tlbinv sw dev rng) := by
  intro hw w hf
  cases rng
  all_goals
    obtain rfl := Option.some.inj hf
    exact decode_of_read _ _ rfl rfl (read_as (fun f => some (.tlbinv f.sw (f.ty == Scope.device.code) (if f.m8 then .range f.a f.b else .all))) _ _ rfl (by simp)) hw

theorem mov (o : Op1) (ty : Ty) : Statement (.mov o ty) := by
  intro hw w hf
  obtain rfl := Option.some.inj hf
  exact decode_of_read _ _ rfl rfl (read_as (fun f => (Ty.ofCode f.ty).map (.mov f.op1 ·)) _ _ rfl (by simp)) hw

theorem movi (h : Hdr) (sc : Bool) (ty : Ty) (d : BitVec 8) (v : DWord) : Statement (.movi h sc ty d v) := by
  intro hw w hf
  obtain rfl := Option.some.inj hf
  exact decode_of_read _ _ rfl rfl (read_as (fun f => (Ty.ofCode f.ty).map (.movi f.hdr f.sc · f.d f.ext)) _ _ rfl (by simp)) hw

theorem iadd (o : Op2) (ty : Ty) (sat : Bool) : Statement (.iadd o ty sat) := by
  intro hw w hf
  obtain rfl := Option.some.inj hf
  exact decode_of_read _ _ rfl rfl (read_as (fun f => (Ty.ofCode f.ty).map (.iadd f.op2 · f.m5)) _ _ rfl (by simp)) hw

theorem isub (o : Op2) (ty : Ty) (sat : Bool) : Statement (.isub o ty sat) := by
  intro hw w hf
  obtain rfl := Option.some.inj hf
  exact decode_of_read _ _ rfl rfl (read_as (fun f => (Ty.ofCode f.ty).map (.isub f.op2 · f.m5)) _ _ rfl (by simp)) hw

theorem imul (o : Op2) (ty : Ty) : Statement (.imul o ty) := by
  intro hw w hf
  obtain rfl := Option.some.inj hf
  exact decode_of_read _ _ rfl rfl (read_as (fun f => (Ty.ofCode f.ty).map (.imul f.op2 ·)) _ _ rfl (by simp)) hw

theorem imulh (o : Op2) (ty : Ty) : Statement (.imulh o ty) := by
  intro hw w hf
  obtain rfl := Option.some.inj hf
  exact decode_of_read _ _ rfl rfl (read_as (fun f => (Ty.ofCode f.ty).map (.imulh f.op2 ·)) _ _ rfl (by simp)) hw

theorem imad (o : Op3) (ty : Ty) : Statement (.imad o ty) := by
  intro hw w hf
  have h2 : (ty.isInt && o.ok ty.is64 ty.is64 ty.is64 ty.is64) = true := hw
  have hx : o.c.x = false := by simp [Op3.ok, srcCOk] at h2; simp [h2]
  obtain rfl := Option.some.inj hf
  exact decode_of_read _ _ rfl rfl (read_as (fun f => (Ty.ofCode f.ty).map (.imad f.op3 ·)) _ _ rfl (by simp [Op3.back o hx])) hw

theorem imin (o : Op2) (ty : Ty) : Statement (.imin o ty) := by
  intro hw w hf
  obtain rfl := Option.some.inj hf
  exact decode_of_read _ _ rfl rfl (read_as (fun f => (Ty.ofCode f.ty).map (.imin f.op2 ·)) _ _ rfl (by simp)) hw

theorem imax (o : Op2) (ty : Ty) : Statement (.imax o ty) := by
  intro hw w hf
  obtain rfl := Option.some.inj hf
  exact decode_of_read _ _ rfl rfl (read_as (fun f => (Ty.ofCode f.ty).map (.imax f.op2 ·)) _ _ rfl (by simp)) hw

theorem iabs (o : Op1) (ty : Ty) (sat : Bool) : Statement (.iabs o ty sat) := by
  intro hw w hf
  obtain rfl := Option.some.inj hf
  exact decode_of_read _ _ rfl rfl (read_as (fun f => (Ty.ofCode f.ty).map (.iabs f.op1 · f.m5)) _ _ rfl (by simp)) hw

theorem ineg (o : Op1) (ty : Ty) (sat : Bool) : Statement (.ineg o ty sat) := by
  intro hw w hf
  obtain rfl := Option.some.inj hf
  exact decode_of_read _ _ rfl rfl (read_as (fun f => (Ty.ofCode f.ty).map (.ineg f.op1 · f.m5)) _ _ rfl (by simp)) hw

theorem and (o : Op2) (ty : Ty) : Statement (.and o ty) := by
  intro hw w hf
  obtain rfl := Option.some.inj hf
  exact decode_of_read _ _ rfl rfl (read_as (fun f => (Ty.ofCode f.ty).map (.and f.op2 ·)) _ _ rfl (by simp)) hw

theorem or (o : Op2) (ty : Ty) : Statement (.or o ty) := by
  intro hw w hf
  obtain rfl := Option.some.inj hf
  exact decode_of_read _ _ rfl rfl (read_as (fun f => (Ty.ofCode f.ty).map (.or f.op2 ·)) _ _ rfl (by simp)) hw

theorem xor (o : Op2) (ty : Ty) : Statement (.xor o ty) := by
  intro hw w hf
  obtain rfl := Option.some.inj hf
  exact decode_of_read _ _ rfl rfl (read_as (fun f => (Ty.ofCode f.ty).map (.xor f.op2 ·)) _ _ rfl (by simp)) hw

theorem not (o : Op1) (ty : Ty) : Statement (.not o ty) := by
  intro hw w hf
  obtain rfl := Option.some.inj hf
  exact decode_of_read _ _ rfl rfl (read_as (fun f => (Ty.ofCode f.ty).map (.not f.op1 ·)) _ _ rfl (by simp)) hw

theorem shl (o : Op2) (ty : Ty) : Statement (.shl o ty) := by
  intro hw w hf
  obtain rfl := Option.some.inj hf
  exact decode_of_read _ _ rfl rfl (read_as (fun f => (Ty.ofCode f.ty).map (.shl f.op2 ·)) _ _ rfl (by simp)) hw

theorem shr (o : Op2) (ty : Ty) : Statement (.shr o ty) := by
  intro hw w hf
  obtain rfl := Option.some.inj hf
  exact decode_of_read _ _ rfl rfl (read_as (fun f => (Ty.ofCode f.ty).map (.shr f.op2 ·)) _ _ rfl (by simp)) hw

theorem shra (o : Op2) (ty : Ty) : Statement (.shra o ty) := by
  intro hw w hf
  obtain rfl := Option.some.inj hf
  exact decode_of_read _ _ rfl rfl (read_as (fun f => (Ty.ofCode f.ty).map (.shra f.op2 ·)) _ _ rfl (by simp)) hw

theorem rot (o : Op2) (ty : Ty) (right : Bool) : Statement (.rot o ty right) := by
  intro hw w hf
  obtain rfl := Option.some.inj hf
  exact decode_of_read _ _ rfl rfl (read_as (fun f => (Ty.ofCode f.ty).map (.rot f.op2 · f.m5)) _ _ rfl (by simp)) hw

theorem popc (o : Op1) (ty : Ty) : Statement (.popc o ty) := by
  intro hw w hf
  obtain rfl := Option.some.inj hf
  exact decode_of_read _ _ rfl rfl (read_as (fun f => (Ty.ofCode f.ty).map (.popc f.op1 ·)) _ _ rfl (by simp)) hw

theorem clz (o : Op1) (ty : Ty) : Statement (.clz o ty) := by
  intro hw w hf
  obtain rfl := Option.some.inj hf
  exact decode_of_read _ _ rfl rfl (read_as (fun f => (Ty.ofCode f.ty).map (.clz f.op1 ·)) _ _ rfl (by simp)) hw

theorem brev (o : Op1) (ty : Ty) : Statement (.brev o ty) := by
  intro hw w hf
  obtain rfl := Option.some.inj hf
  exact decode_of_read _ _ rfl rfl (read_as (fun f => (Ty.ofCode f.ty).map (.brev f.op1 ·)) _ _ rfl (by simp)) hw

theorem bfe (o : Op2) (ty : Ty) : Statement (.bfe o ty) := by
  intro hw w hf
  obtain rfl := Option.some.inj hf
  exact decode_of_read _ _ rfl rfl (read_as (fun f => (Ty.ofCode f.ty).map (.bfe f.op2 ·)) _ _ rfl (by simp)) hw

theorem bfi (o : Op3) (ty : Ty) : Statement (.bfi o ty) := by
  intro hw w hf
  have h2 : (ty.isInt && o.ok ty.is64 ty.is64 false ty.is64) = true := hw
  have hx : o.c.x = false := by simp [Op3.ok, srcCOk] at h2; simp [h2]
  obtain rfl := Option.some.inj hf
  exact decode_of_read _ _ rfl rfl (read_as (fun f => (Ty.ofCode f.ty).map (.bfi f.op3 ·)) _ _ rfl (by simp [Op3.back o hx])) hw

theorem lea (o : Op2) (ty : Ty) (s : BitVec 3) (disp : Word) : Statement (.lea o ty s disp) := by
  intro hw w hf
  obtain rfl := Option.some.inj hf
  exact decode_of_read _ _ rfl rfl (read_as (fun f => (Ty.ofCode f.ty).map (.lea f.op2 · f.m75 (f.ext.setWidth 32))) _ _ rfl (by simp)) hw

theorem icmp (h : Hdr) (sc : Bool) (cc : Cond) (ty : Ty) (pd : BitVec 3) (a : Opnd) (b : Opnd) : Statement (.icmp h sc cc ty pd a b) := by
  intro hw w hf
  obtain rfl := Option.some.inj hf
  exact decode_of_read _ _ rfl rfl (read_as (fun f => do some (.icmp f.hdr f.sc (← Cond.ofCode f.m75) (← Ty.ofCode f.ty) (lowBits 3 f.d) f.oa f.ob)) _ _ rfl (by simp)) hw

theorem sel (o : Op2) (ty : Ty) (pc : BitVec 3) : Statement (.sel o ty pc) := by
  intro hw w hf
  obtain rfl := Option.some.inj hf
  exact decode_of_read _ _ rfl rfl (read_as (fun f => (Ty.ofCode f.ty).map (.sel f.op2 · (lowBits 3 f.c))) _ _ rfl (by simp)) hw

theorem plop (h : Hdr) (f : BitVec 4) (g : PlopG) (pd : BitVec 3) (pa : BitVec 3) (pb : BitVec 3) : Statement (.plop h f g pd pa pb) := by
  intro hw w hf
  obtain rfl := Option.some.inj hf
  exact decode_of_read _ _ rfl rfl (read_as (fun f => some (.plop f.hdr f.m85 (PlopG.ofParts f.m109 (lowBits 3 f.c)) (lowBits 3 f.d) (lowBits 3 f.a) (lowBits 3 f.b))) _ _ rfl (by simp)) hw

theorem vote (h : Hdr) (m : VoteMode) (pd : BitVec 3) (pa : BitVec 3) : Statement (.vote h m pd pa) := by
  intro hw w hf
  obtain rfl := Option.some.inj hf
  exact decode_of_read _ _ rfl rfl (read_as (fun f => (VoteMode.ofCode f.m65).map (.vote f.hdr · (lowBits 3 f.d) (lowBits 3 f.a))) _ _ rfl (by simp)) hw

theorem ballot (h : Hdr) (d : BitVec 8) (pa : BitVec 3) : Statement (.ballot h d pa) := by
  intro hw w hf
  obtain rfl := Option.some.inj hf
  exact decode_of_read _ _ rfl rfl (read_as (fun f => some (.ballot f.hdr f.d (lowBits 3 f.a))) _ _ rfl (by simp)) hw

theorem v2s (sw : Bool) (ty : Ty) (d : BitVec 6) (a : Opnd) (b : BitVec 8) : Statement (.v2s sw ty d a b) := by
  intro hw w hf
  obtain rfl := Option.some.inj hf
  exact decode_of_read _ _ rfl rfl (read_as (fun f => (Ty.ofCode f.ty).map (.v2s f.sw · (lowBits 6 f.d) f.oa f.b)) _ _ rfl (by simp)) hw

theorem iaddc (o : Op2) (ty : Ty) (q : BitVec 3) (ci : Option (BitVec 3)) : Statement (.iaddc o ty q ci) := by
  intro hw w hf
  cases ci
  all_goals
    obtain rfl := Option.some.inj hf
    exact decode_of_read _ _ rfl rfl (read_as (fun f => (Ty.ofCode f.ty).map (.iaddc f.op2 · f.m75 (if f.m8 then some (lowBits 3 f.c) else none))) _ _ rfl (by simp)) hw

theorem isubb (o : Op2) (ty : Ty) (q : BitVec 3) (ci : Option (BitVec 3)) : Statement (.isubb o ty q ci) := by
  intro hw w hf
  cases ci
  all_goals
    obtain rfl := Option.some.inj hf
    exact decode_of_read _ _ rfl rfl (read_as (fun f => (Ty.ofCode f.ty).map (.isubb f.op2 · f.m75 (if f.m8 then some (lowBits 3 f.c) else none))) _ _ rfl (by simp)) hw

theorem shfl (o : Op2) (ty : Ty) (m : ShflMode) (w : Fin 6) : Statement (.shfl o ty m w) := by
  intro hw w hf
  obtain rfl := Option.some.inj hf
  exact decode_of_read _ _ rfl rfl (read_as (fun f => do let m ← ShflMode.ofCode f.m65 let t ← Ty.ofCode f.ty if h : f.m97.toNat < 6 then some (.shfl f.op2 t m ⟨f.m97.toNat, h⟩) else none) _ _ rfl (by simp; have := w.isLt; exact ⟨by omega, Fin.ext (Nat.mod_eq_of_lt (by omega))⟩)) hw

theorem prmt (o : Op3) : Statement (.prmt o) := by
  intro hw w hf
  have h2 : (o.ok false false false false) = true := hw
  have hx : o.c.x = false := by simp [Op3.ok, srcCOk] at h2; simp [h2]
  obtain rfl := Option.some.inj hf
  exact decode_of_read _ _ rfl rfl (read_as (fun f => some (.prmt f.op3)) _ _ rfl (by simp [Op3.back o hx])) hw

theorem fadd (o : Op2) (rm : RMode) : Statement (.fadd o rm) := by
  intro hw w hf
  obtain rfl := Option.some.inj hf
  exact decode_of_read _ _ rfl rfl (read_as (fun f => (RMode.ofCode f.m75).map (.fadd f.op2 ·)) _ _ rfl (by simp)) hw

theorem fsub (o : Op2) (rm : RMode) : Statement (.fsub o rm) := by
  intro hw w hf
  obtain rfl := Option.some.inj hf
  exact decode_of_read _ _ rfl rfl (read_as (fun f => (RMode.ofCode f.m75).map (.fsub f.op2 ·)) _ _ rfl (by simp)) hw

theorem fmul (o : Op2) (rm : RMode) : Statement (.fmul o rm) := by
  intro hw w hf
  obtain rfl := Option.some.inj hf
  exact decode_of_read _ _ rfl rfl (read_as (fun f => (RMode.ofCode f.m75).map (.fmul f.op2 ·)) _ _ rfl (by simp)) hw

theorem ffma (o : Op3) (rm : RMode) : Statement (.ffma o rm) := by
  intro hw w hf
  have h2 : (o.ok false false false false) = true := hw
  have hx : o.c.x = false := by simp [Op3.ok, srcCOk] at h2; simp [h2]
  obtain rfl := Option.some.inj hf
  exact decode_of_read _ _ rfl rfl (read_as (fun f => (RMode.ofCode f.m75).map (.ffma f.op3 ·)) _ _ rfl (by simp [Op3.back o hx])) hw

theorem fmin (o : Op2) (nan : Bool) : Statement (.fmin o nan) := by
  intro hw w hf
  obtain rfl := Option.some.inj hf
  exact decode_of_read _ _ rfl rfl (read_as (fun f => some (.fmin f.op2 f.m8)) _ _ rfl (by simp)) hw

theorem fmax (o : Op2) (nan : Bool) : Statement (.fmax o nan) := by
  intro hw w hf
  obtain rfl := Option.some.inj hf
  exact decode_of_read _ _ rfl rfl (read_as (fun f => some (.fmax f.op2 f.m8)) _ _ rfl (by simp)) hw

theorem fcmp (h : Hdr) (sc : Bool) (cc : FCond) (pd : BitVec 3) (a : Opnd) (b : Opnd) : Statement (.fcmp h sc cc pd a b) := by
  intro hw w hf
  obtain rfl := Option.some.inj hf
  exact decode_of_read _ _ rfl rfl (read_as (fun f => (FCond.ofCode f.m85).map (.fcmp f.hdr f.sc · (lowBits 3 f.d) f.oa f.ob)) _ _ rfl (by simp)) hw

theorem frcp (o : Op1) (rm : RMode) : Statement (.frcp o rm) := by
  intro hw w hf
  obtain rfl := Option.some.inj hf
  exact decode_of_read _ _ rfl rfl (read_as (fun f => (RMode.ofCode f.m75).map (.frcp f.op1 ·)) _ _ rfl (by simp)) hw

theorem frsq (o : Op1) : Statement (.frsq o) := by
  intro hw w hf
  obtain rfl := Option.some.inj hf
  exact decode_of_read _ _ rfl rfl (read_as (fun f => some (.frsq f.op1)) _ _ rfl (by simp)) hw

theorem fsqrt (o : Op1) (rm : RMode) : Statement (.fsqrt o rm) := by
  intro hw w hf
  obtain rfl := Option.some.inj hf
  exact decode_of_read _ _ rfl rfl (read_as (fun f => (RMode.ofCode f.m75).map (.fsqrt f.op1 ·)) _ _ rfl (by simp)) hw

theorem fexp2 (o : Op1) : Statement (.fexp2 o) := by
  intro hw w hf
  obtain rfl := Option.some.inj hf
  exact decode_of_read _ _ rfl rfl (read_as (fun f => some (.fexp2 f.op1)) _ _ rfl (by simp)) hw

theorem flog2 (o : Op1) : Statement (.flog2 o) := by
  intro hw w hf
  obtain rfl := Option.some.inj hf
  exact decode_of_read _ _ rfl rfl (read_as (fun f => some (.flog2 f.op1)) _ _ rfl (by simp)) hw

theorem fsin (o : Op1) : Statement (.fsin o) := by
  intro hw w hf
  obtain rfl := Option.some.inj hf
  exact decode_of_read _ _ rfl rfl (read_as (fun f => some (.fsin f.op1)) _ _ rfl (by simp)) hw

theorem fcos (o : Op1) : Statement (.fcos o) := by
  intro hw w hf
  obtain rfl := Option.some.inj hf
  exact decode_of_read _ _ rfl rfl (read_as (fun f => some (.fcos f.op1)) _ _ rfl (by simp)) hw

theorem ftanh (o : Op1) : Statement (.ftanh o) := by
  intro hw w hf
  obtain rfl := Option.some.inj hf
  exact decode_of_read _ _ rfl rfl (read_as (fun f => some (.ftanh f.op1)) _ _ rfl (by simp)) hw

theorem fscale (o : Op2) (rm : RMode) : Statement (.fscale o rm) := by
  intro hw w hf
  obtain rfl := Option.some.inj hf
  exact decode_of_read _ _ rfl rfl (read_as (fun f => (RMode.ofCode f.m75).map (.fscale f.op2 ·)) _ _ rfl (by simp)) hw

theorem frnd (o : Op1) (rm : RMode) : Statement (.frnd o rm) := by
  intro hw w hf
  obtain rfl := Option.some.inj hf
  exact decode_of_read _ _ rfl rfl (read_as (fun f => (RMode.ofCode f.m75).map (.frnd f.op1 ·)) _ _ rfl (by simp)) hw

theorem fclass (o : Op1) (ty : Ty) : Statement (.fclass o ty) := by
  intro hw w hf
  obtain rfl := Option.some.inj hf
  exact decode_of_read _ _ rfl rfl (read_as (fun f => (Ty.ofCode f.ty).map (.fclass f.op1 ·)) _ _ rfl (by simp)) hw

theorem ffma2 (o : Op3) (ty : Ty) (rm : RMode) : Statement (.ffma2 o ty rm) := by
  intro hw w hf
  have h2 : (ty.isHalf && o.ok false false false false) = true := hw
  have hx : o.c.x = false := by simp [Op3.ok, srcCOk] at h2; simp [h2]
  obtain rfl := Option.some.inj hf
  exact decode_of_read _ _ rfl rfl (read_as (fun f => do some (.ffma2 f.op3 (← Ty.ofCode f.ty) (← RMode.ofCode f.m75))) _ _ rfl (by simp [Op3.back o hx])) hw

theorem fadd2 (o : Op2) (ty : Ty) (rm : RMode) : Statement (.fadd2 o ty rm) := by
  intro hw w hf
  obtain rfl := Option.some.inj hf
  exact decode_of_read _ _ rfl rfl (read_as (fun f => do some (.fadd2 f.op2 (← Ty.ofCode f.ty) (← RMode.ofCode f.m75))) _ _ rfl (by simp)) hw

theorem fmul2 (o : Op2) (ty : Ty) (rm : RMode) : Statement (.fmul2 o ty rm) := by
  intro hw w hf
  obtain rfl := Option.some.inj hf
  exact decode_of_read _ _ rfl rfl (read_as (fun f => do some (.fmul2 f.op2 (← Ty.ofCode f.ty) (← RMode.ofCode f.m75))) _ _ rfl (by simp)) hw

theorem fdot2 (o : Op3) (ty : Ty) (rm : RMode) : Statement (.fdot2 o ty rm) := by
  intro hw w hf
  have h2 : (ty.isHalf && o.ok false false false false) = true := hw
  have hx : o.c.x = false := by simp [Op3.ok, srcCOk] at h2; simp [h2]
  obtain rfl := Option.some.inj hf
  exact decode_of_read _ _ rfl rfl (read_as (fun f => do some (.fdot2 f.op3 (← Ty.ofCode f.ty) (← RMode.ofCode f.m75))) _ _ rfl (by simp [Op3.back o hx])) hw

theorem fdot4 (o : Op3) (ty : Ty) (rm : RMode) (mx : Bool) : Statement (.fdot4 o ty rm mx) := by
  intro hw w hf
  have h2 : ((ty == .e4m3 || ty == .e5m2) && o.ok false false false false) = true := hw
  have hx : o.c.x = false := by simp [Op3.ok, srcCOk] at h2; simp [h2]
  obtain rfl := Option.some.inj hf
  exact decode_of_read _ _ rfl rfl (read_as (fun f => do some (.fdot4 f.op3 (← Ty.ofCode f.ty) (← RMode.ofCode f.m75) f.m8)) _ _ rfl (by simp [Op3.back o hx])) hw

theorem cvt (o : Op1) (dst : Ty) (src : Ty) (rm : RMode) (sat : Bool) : Statement (.cvt o dst src rm sat) := by
  intro hw w hf
  obtain rfl := Option.some.inj hf
  exact decode_of_read _ _ rfl rfl (read_as (fun f => do some (.cvt f.op1 (← Ty.ofCode f.ty) (← Ty.ofCode (lowBits 4 f.c)) (← RMode.ofCode f.m75) f.m8)) _ _ rfl (by simp)) hw

theorem cvtp (o : Op2) (dst : Ty) (rm : RMode) (sat : Bool) (p : BitVec 2) : Statement (.cvtp o dst rm sat p) := by
  intro hw w hf
  obtain rfl := Option.some.inj hf
  exact decode_of_read _ _ rfl rfl (read_as (fun f => do some (.cvtp f.op2 (← Ty.ofCode f.ty) (← RMode.ofCode f.m75) f.m8 f.m109)) _ _ rfl (by simp)) hw

theorem cvtu (o : Op1) (src : Ty) (i : BitVec 3) (scale : Option Opnd) : Statement (.cvtu o src i scale) := by
  intro hw w hf
  cases scale
  all_goals
    obtain rfl := Option.some.inj hf
    exact decode_of_read _ _ rfl rfl (read_as (fun f => (Ty.ofCode f.ty).map (.cvtu f.op1 · f.m108 (if f.m5 then some f.ob else none))) _ _ rfl (by simp)) hw

theorem bscale (o : Op1) (ty : Ty) (inv : Bool) : Statement (.bscale o ty inv) := by
  intro hw w hf
  obtain rfl := Option.some.inj hf
  exact decode_of_read _ _ rfl rfl (read_as (fun f => (Ty.ofCode f.ty).map (.bscale f.op1 · f.m5)) _ _ rfl (by simp)) hw

theorem qparm (o : Op2) (q8 : Bool) : Statement (.qparm o q8) := by
  intro hw w hf
  obtain rfl := Option.some.inj hf
  exact decode_of_read _ _ rfl rfl (read_as (fun f => some (.qparm f.op2 f.m8)) _ _ rfl (by simp)) hw

theorem qapply (o : Op2) (q8 : Bool) (rm : RMode) : Statement (.qapply o q8 rm) := by
  intro hw w hf
  obtain rfl := Option.some.inj hf
  exact decode_of_read _ _ rfl rfl (read_as (fun f => (RMode.ofCode f.m75).map (.qapply f.op2 f.m8 ·)) _ _ rfl (by simp)) hw

theorem dq (o : Op2) (q8 : Bool) (i : BitVec 3) : Statement (.dq o q8 i) := by
  intro hw w hf
  obtain rfl := Option.some.inj hf
  exact decode_of_read _ _ rfl rfl (read_as (fun f => some (.dq f.op2 f.m8 f.m75)) _ _ rfl (by simp)) hw

theorem qle8 (o : LatOp) : Statement (.qle8 o) := by
  intro hw w hf
  obtain rfl := Option.some.inj hf
  exact decode_of_read _ _ rfl rfl (read_as (fun f => some (.qle8 f.lat)) _ _ rfl (by simp)) hw

theorem dle8 (o : LatOp) : Statement (.dle8 o) := by
  intro hw w hf
  obtain rfl := Option.some.inj hf
  exact decode_of_read _ _ rfl rfl (read_as (fun f => some (.dle8 f.lat)) _ _ rfl (by simp)) hw

theorem rle8 (o : LatOp) : Statement (.rle8 o) := by
  intro hw w hf
  obtain rfl := Option.some.inj hf
  exact decode_of_read _ _ rfl rfl (read_as (fun f => some (.rle8 f.lat)) _ _ rfl (by simp)) hw

theorem ule8 (o : LatOp) : Statement (.ule8 o) := by
  intro hw w hf
  obtain rfl := Option.some.inj hf
  exact decode_of_read _ _ rfl rfl (read_as (fun f => some (.ule8 f.lat)) _ _ rfl (by simp)) hw

theorem cbq (h : Hdr) (d : BitVec 8) (a : Opnd) (b : Opnd) : Statement (.cbq h d a b) := by
  intro hw w hf
  obtain rfl := Option.some.inj hf
  exact decode_of_read _ _ rfl rfl (read_as (fun f => some (.cbq f.hdr f.d f.oa f.ob)) _ _ rfl rfl) hw

theorem requota (sw : Bool) (a : BitVec 8) (b : BitVec 8) : Statement (.requota sw a b) := by
  intro hw w hf
  obtain rfl := Option.some.inj hf
  exact decode_of_read _ _ rfl rfl (read_as (fun f => some (.requota f.sw f.a f.b)) _ _ rfl rfl) hw

theorem fbar (sw : Bool) (a : BitVec 8) : Statement (.fbar sw a) := by
  intro hw w hf
  obtain rfl := Option.some.inj hf
  exact decode_of_read _ _ rfl rfl (read_as (fun f => some (.fbar f.sw f.a)) _ _ rfl rfl) hw

theorem fpost (sw : Bool) (a : BitVec 8) (b : BitVec 8) : Statement (.fpost sw a b) := by
  intro hw w hf
  obtain rfl := Option.some.inj hf
  exact decode_of_read _ _ rfl rfl (read_as (fun f => some (.fpost f.sw f.a f.b)) _ _ rfl rfl) hw

theorem fwait (sw : Bool) (a : BitVec 8) (b : BitVec 8) : Statement (.fwait sw a b) := by
  intro hw w hf
  obtain rfl := Option.some.inj hf
  exact decode_of_read _ _ rfl rfl (read_as (fun f => some (.fwait f.sw f.a f.b)) _ _ rfl rfl) hw

theorem gbar (sw : Bool) (nf : Bool) (g : BitVec 2) : Statement (.gbar sw nf g) := by
  intro hw w hf
  obtain rfl := Option.some.inj hf
  exact decode_of_read _ _ rfl rfl (read_as (fun f => some (.gbar f.sw f.m8 (lowBits 2 f.a))) _ _ rfl (by simp)) hw

theorem garv (sw : Bool) (nf : Bool) (d : BitVec 6) (g : BitVec 2) : Statement (.garv sw nf d g) := by
  intro hw w hf
  obtain rfl := Option.some.inj hf
  exact decode_of_read _ _ rfl rfl (read_as (fun f => some (.garv f.sw f.m8 (lowBits 6 f.d) (lowBits 2 f.a))) _ _ rfl (by simp)) hw

theorem gwait (sw : Bool) (nf : Bool) (g : BitVec 2) (b : BitVec 8) : Statement (.gwait sw nf g b) := by
  intro hw w hf
  obtain rfl := Option.some.inj hf
  exact decode_of_read _ _ rfl rfl (read_as (fun f => some (.gwait f.sw f.m8 (lowBits 2 f.a) f.b)) _ _ rfl (by simp)) hw

theorem gred (sw : Bool) (nf : Bool) (op : GredOp) (ty : Ty) (d : BitVec 6) (g : BitVec 2) (b : BitVec 8) : Statement (.gred sw nf op ty d g b) := by
  intro hw w hf
  obtain rfl := Option.some.inj hf
  exact decode_of_read _ _ rfl rfl (read_as (fun f => do some (.gred f.sw f.m8 (← GredOp.ofCode f.m75) (← Ty.ofCode f.ty) (lowBits 6 f.d) (lowBits 2 f.a) f.b)) _ _ rfl (by simp)) hw

theorem gqry (sw : Bool) (q : GQuery) (d : BitVec 6) (g : BitVec 2) : Statement (.gqry sw q d g) := by
  intro hw w hf
  obtain rfl := Option.some.inj hf
  exact decode_of_read _ _ rfl rfl (read_as (fun f => (GQuery.ofCode f.m75).map (.gqry f.sw · (lowBits 6 f.d) (lowBits 2 f.a))) _ _ rfl (by simp)) hw

theorem binit (sw : Bool) (sp : Space) (a : BitVec 8) (b : BitVec 8) : Statement (.binit sw sp a b) := by
  intro hw w hf
  obtain rfl := Option.some.inj hf
  exact decode_of_read _ _ rfl rfl (read_as (fun f => (Space.ofCode f.m75).map (.binit f.sw · f.a f.b)) _ _ rfl (by simp)) hw

theorem barv (sw : Bool) (nf : Bool) (sp : Space) (sc : Scope) (d : BitVec 6) (a : BitVec 8) : Statement (.barv sw nf sp sc d a) := by
  intro hw w hf
  obtain rfl := Option.some.inj hf
  exact decode_of_read _ _ rfl rfl (read_as (fun f => do some (.barv f.sw f.m8 (← Space.ofCode f.m75) (← Scope.ofCode f.ty) (lowBits 6 f.d) f.a)) _ _ rfl (by simp)) hw

theorem bwait (sw : Bool) (nf : Bool) (sp : Space) (sc : Scope) (a : BitVec 8) (b : BitVec 8) : Statement (.bwait sw nf sp sc a b) := by
  intro hw w hf
  obtain rfl := Option.some.inj hf
  exact decode_of_read _ _ rfl rfl (read_as (fun f => do some (.bwait f.sw f.m8 (← Space.ofCode f.m75) (← Scope.ofCode f.ty) f.a f.b)) _ _ rfl (by simp)) hw

theorem bdrop (sw : Bool) (sp : Space) (a : BitVec 8) : Statement (.bdrop sw sp a) := by
  intro hw w hf
  obtain rfl := Option.some.inj hf
  exact decode_of_read _ _ rfl rfl (read_as (fun f => (Space.ofCode f.m75).map (.bdrop f.sw · f.a)) _ _ rfl (by simp)) hw

theorem waitcmp (h : Hdr) (cc : Cond) (acq : Bool) (ty : Ty) (sc : Scope) (d : BitVec 8) (a : Opnd) (b : Opnd) : Statement (.waitcmp h cc acq ty sc d a b) := by
  intro hw w hf
  obtain rfl := Option.some.inj hf
  exact decode_of_read _ _ rfl rfl (read_as (fun f => do some (.waitcmp f.hdr (← Cond.ofCode f.m108) f.m5 (← Ty.ofCode f.ty) (← Scope.ofCode (lowBits 4 f.c)) f.d f.oa f.ob)) _ _ rfl (by simp)) hw

theorem ld (h : Hdr) (scf : Bool) (acq : Option Scope) (cnt : Count) (sp : Space) (ty : Ty) (d : BitVec 8) (a : Opnd) (c : BitVec 8) : Statement (.ld h scf acq cnt sp ty d a c) := by
  intro hw w hf
  obtain rfl := Option.some.inj hf
  exact decode_of_read _ _ rfl rfl (read_as (fun f => do some (.ld f.hdr f.sc (← scopeRead f.m10 f.b) (← Count.ofCode f.m98) (← Space.ofCode f.m75) (← Ty.ofCode f.ty) f.d f.oa f.c)) _ _ rfl (by simp)) hw

theorem st (h : Hdr) (rel : Option Scope) (cnt : Count) (sp : Space) (ty : Ty) (a : Opnd) (b : Opnd) (c : BitVec 8) : Statement (.st h rel cnt sp ty a b c) := by
  intro hw w hf
  obtain rfl := Option.some.inj hf
  exact decode_of_read _ _ rfl rfl (read_as (fun f => do some (.st f.hdr (← scopeRead f.m10 f.d) (← Count.ofCode f.m98) (← Space.ofCode f.m75) (← Ty.ofCode f.ty) f.oa f.ob f.c)) _ _ rfl (by simp)) hw

theorem ldl (sw : Bool) (k : BitVec 3) (d : BitVec 8) (t : Tile) (b : BitVec 8) : Statement (.ldl sw k d t b) := by
  intro hw w hf
  obtain rfl := Option.some.inj hf
  exact decode_of_read _ _ rfl rfl (read_as (fun f => some (.ldl f.sw f.m75 f.d f.ta f.b)) _ _ rfl (by simp)) hw

theorem stl (sw : Bool) (k : BitVec 3) (t : Tile) (b : BitVec 8) (c : Opnd) : Statement (.stl sw k t b c) := by
  intro hw w hf
  have h2 : (k.toNat < 7 && runOk (2 ^ k.toNat) c.idx && !c.x && sOk b) = true := hw
  have hx : c.x = false := by simp at h2; simp [h2]
  obtain rfl := Option.some.inj hf
  exact decode_of_read _ _ rfl rfl (read_as (fun f => some (.stl f.sw f.m75 f.ta f.b f.oc)) _ _ rfl (by simp [Opnd.back c hx])) hw

theorem gath (h : Hdr) (cont : Bool) (sx : Bool) (sp : Space) (ty : Ty) (d : BitVec 8) (a : Opnd) (b : Opnd) (cb : BitVec 3) : Statement (.gath h cont sx sp ty d a b cb) := by
  intro hw w hf
  obtain rfl := Option.some.inj hf
  exact decode_of_read _ _ rfl rfl (read_as (fun f => do some (.gath f.hdr f.m9 f.m8 (← Space.ofCode f.m75) (← Ty.ofCode f.ty) f.d f.oa f.ob (lowBits 3 f.c))) _ _ rfl (by simp)) hw

theorem scat (h : Hdr) (cont : Bool) (sx : Bool) (sp : Space) (ty : Ty) (d : BitVec 8) (a : Opnd) (b : Opnd) (cb : BitVec 3) : Statement (.scat h cont sx sp ty d a b cb) := by
  intro hw w hf
  obtain rfl := Option.some.inj hf
  exact decode_of_read _ _ rfl rfl (read_as (fun f => do some (.scat f.hdr f.m9 f.m8 (← Space.ofCode f.m75) (← Ty.ofCode f.ty) f.d f.oa f.ob (lowBits 3 f.c))) _ _ rfl (by simp)) hw

theorem atom (h : Hdr) (op : AtomOp) (sp : Space) (ty : Ty) (sc : Scope) (ord : AtomOrd) (d : BitVec 8) (a : Opnd) (b : Opnd) : Statement (.atom h op sp ty sc ord d a b) := by
  intro hw w hf
  obtain rfl := Option.some.inj hf
  exact decode_of_read _ _ rfl rfl (read_as (fun f => do some (.atom f.hdr (← AtomOp.ofCode f.m108) (← Space.ofCode f.m75) (← Ty.ofCode f.ty) (← Scope.ofCode (f.c.extractLsb' 4 4)) (← AtomOrd.ofCode (f.c.extractLsb' 2 2)) f.d f.oa f.ob)) _ _ rfl (by simp)) hw

theorem red (h : Hdr) (op : AtomOp) (sp : Space) (ty : Ty) (sc : Scope) (rel : Bool) (a : Opnd) (b : Opnd) : Statement (.red h op sp ty sc rel a b) := by
  intro hw w hf
  obtain rfl := Option.some.inj hf
  exact decode_of_read _ _ rfl rfl (read_as (fun f => do some (.red f.hdr (← AtomOp.ofCode f.m108) (← Space.ofCode f.m75) (← Ty.ofCode f.ty) (← Scope.ofCode (f.c.extractLsb' 4 4)) (f.c.extractLsb' 2 2 == AtomOrd.rel.code) f.oa f.ob)) _ _ rfl (by simp)) hw

theorem fence (sw : Bool) (m : FenceMode) (sc : Scope) : Statement (.fence sw m sc) := by
  intro hw w hf
  obtain rfl := Option.some.inj hf
  exact decode_of_read _ _ rfl rfl (read_as (fun f => do some (.fence f.sw (← FenceMode.ofCode f.m65) (← Scope.ofCode f.ty))) _ _ rfl (by simp)) hw

theorem bind (sw : Bool) (i : BitVec 10) (a : BitVec 8) (b : BitVec 8) (c : BitVec 8) : Statement (.bind sw i a b c) := by
  intro hw w hf
  obtain rfl := Option.some.inj hf
  exact decode_of_read _ _ rfl rfl (read_as (fun f => some (.bind f.sw (f.hi.extractLsb' 0 5 ++ f.ty ++ f.lo : BitVec 10) f.a f.b f.c)) _ _ rfl (by simp)) hw

theorem unbind (sw : Bool) (i : BitVec 10) : Statement (.unbind sw i) := by
  intro hw w hf
  obtain rfl := Option.some.inj hf
  exact decode_of_read _ _ rfl rfl (read_as (fun f => if f.m10 then some (.unbindObj f.sw f.a) else some (.unbind f.sw (f.hi.extractLsb' 0 5 ++ f.ty ++ f.lo : BitVec 10))) _ _ rfl (by simp)) hw

theorem unbindObj (sw : Bool) (a : BitVec 8) : Statement (.unbindObj sw a) := by
  intro hw w hf
  obtain rfl := Option.some.inj hf
  exact decode_of_read _ _ rfl rfl (read_as (fun f => if f.m10 then some (.unbindObj f.sw f.a) else some (.unbind f.sw (f.hi.extractLsb' 0 5 ++ f.ty ++ f.lo : BitVec 10))) _ _ rfl (by simp)) hw

theorem acq (h : Hdr) (op : AcqOp) (sc : Scope) (d : BitVec 8) (a : Opnd) : Statement (.acq h op sc d a) := by
  intro hw w hf
  cases op
  rotate_left
  · rename_i b c
    have h2 : (isEven d && srcOk false true a && (srcOk false true b && vecOk true c)) = true := hw
    have hx : c.x = false := by simp [vecOk] at h2; simp [h2]
    obtain rfl := Option.some.inj hf
    exact decode_of_read _ _ rfl rfl (read_as (fun f => (Scope.ofCode f.ty).map (.acq f.hdr (if f.m8 then .cas f.ob f.oc else .ld) · f.d f.oa)) _ _ rfl (by simp [Opnd.back c hx])) hw
  obtain rfl := Option.some.inj hf
  exact decode_of_read _ _ rfl rfl (read_as (fun f => (Scope.ofCode f.ty).map (.acq f.hdr (if f.m8 then .cas f.ob f.oc else .ld) · f.d f.oa)) _ _ rfl (by simp)) hw

theorem rels (h : Hdr) (op : RelsOp) (sc : Scope) (a : Opnd) (b : Opnd) : Statement (.rels h op sc a b) := by
  intro hw w hf
  obtain rfl := Option.some.inj hf
  exact decode_of_read _ _ rfl rfl (read_as (fun f => do some (.rels f.hdr (← RelsOp.ofCode f.m108) (← Scope.ofCode f.ty) f.oa f.ob)) _ _ rfl (by simp)) hw

theorem pref (h : Hdr) (lvl : PrefLevel) (sp : Space) (a : Opnd) (c : BitVec 8) : Statement (.pref h lvl sp a c) := by
  intro hw w hf
  obtain rfl := Option.some.inj hf
  exact decode_of_read _ _ rfl rfl (read_as (fun f => do some (.pref f.hdr (← PrefLevel.ofCode f.m98) (← Space.ofCode f.m75) f.oa f.c)) _ _ rfl (by simp)) hw

theorem cinv (h : Hdr) (sc : Scope) (sp : Space) (a : Opnd) (c : BitVec 8) : Statement (.cinv h sc sp a c) := by
  intro hw w hf
  obtain rfl := Option.some.inj hf
  exact decode_of_read _ _ rfl rfl (read_as (fun f => do some (.cinv f.hdr (← Scope.ofCode (lowBits 4 f.b)) (← Space.ofCode f.m75) f.oa f.c)) _ _ rfl (by simp)) hw

theorem cwb (h : Hdr) (sc : Scope) (sp : Space) (a : Opnd) (c : BitVec 8) : Statement (.cwb h sc sp a c) := by
  intro hw w hf
  obtain rfl := Option.some.inj hf
  exact decode_of_read _ _ rfl rfl (read_as (fun f => do some (.cwb f.hdr (← Scope.ofCode (lowBits 4 f.b)) (← Space.ofCode f.m75) f.oa f.c)) _ _ rfl (by simp)) hw

theorem lld (sw : Bool) (sp : Space) (d : BitVec 4) (a : BitVec 8) : Statement (.lld sw sp d a) := by
  intro hw w hf
  obtain rfl := Option.some.inj hf
  exact decode_of_read _ _ rfl rfl (read_as (fun f => (Space.ofCode f.m75).map (.lld f.sw · (lowBits 4 f.d) f.a)) _ _ rfl (by simp)) hw

theorem lst (sw : Bool) (sp : Space) (a : BitVec 8) (b : BitVec 4) : Statement (.lst sw sp a b) := by
  intro hw w hf
  obtain rfl := Option.some.inj hf
  exact decode_of_read _ _ rfl rfl (read_as (fun f => (Space.ofCode f.m75).map (.lst f.sw · f.a (lowBits 4 f.b))) _ _ rfl (by simp)) hw

theorem lset (sw : Bool) (clr : Bool) (level : Bool) (mode : BitVec 3) (d : BitVec 4) (ext : BitVec 16) (step : BitVec 24) : Statement (.lset sw clr level mode d ext step) := by
  intro hw w hf
  obtain rfl := Option.some.inj hf
  exact decode_of_read _ _ rfl rfl (read_as (fun f => some (.lset f.sw f.m9 f.m8 f.m75 (lowBits 4 f.d) (f.ext.extractLsb' 0 16) (f.ext.extractLsb' 16 24))) _ _ rfl (by simp)) hw

theorem lchain (sw : Bool) (d : BitVec 4) (a : BitVec 4) (b : BitVec 4) : Statement (.lchain sw d a b) := by
  intro hw w hf
  obtain rfl := Option.some.inj hf
  exact decode_of_read _ _ rfl rfl (read_as (fun f => some (.lchain f.sw (lowBits 4 f.d) (lowBits 4 f.a) (lowBits 4 f.b))) _ _ rfl (by simp)) hw

theorem lpart (sw : Bool) (die : Bool) (mode : BitVec 3) (d : BitVec 4) (a : BitVec 4) (tile : BitVec 16) : Statement (.lpart sw die mode d a tile) := by
  intro hw w hf
  obtain rfl := Option.some.inj hf
  exact decode_of_read _ _ rfl rfl (read_as (fun f => some (.lpart f.sw f.m8 f.m75 (lowBits 4 f.d) (lowBits 4 f.a) (f.ext.setWidth 16))) _ _ rfl (by simp)) hw

theorem ltrans (sw : Bool) (d : BitVec 4) (a : BitVec 4) (perm : BitVec 18) : Statement (.ltrans sw d a perm) := by
  intro hw w hf
  obtain rfl := Option.some.inj hf
  exact decode_of_read _ _ rfl rfl (read_as (fun f => some (.ltrans f.sw (lowBits 4 f.d) (lowBits 4 f.a) (f.ext.setWidth 18))) _ _ rfl (by simp)) hw

theorem lflat (sw : Bool) (byMode : Bool) (mode : BitVec 3) (d : BitVec 4) (a : BitVec 4) : Statement (.lflat sw byMode mode d a) := by
  intro hw w hf
  obtain rfl := Option.some.inj hf
  exact decode_of_read _ _ rfl rfl (read_as (fun f => some (.lflat f.sw f.m8 f.m75 (lowBits 4 f.d) (lowBits 4 f.a))) _ _ rfl (by simp)) hw

theorem lslice (sw : Bool) (mode : BitVec 3) (d : BitVec 4) (a : BitVec 4) (b : BitVec 8) (c : BitVec 4) (imm : Word) : Statement (.lslice sw mode d a b c imm) := by
  intro hw w hf
  obtain rfl := Option.some.inj hf
  exact decode_of_read _ _ rfl rfl (read_as (fun f => some (.lslice f.sw f.m75 (lowBits 4 f.d) (lowBits 4 f.a) f.b (lowBits 4 f.c) (f.ext.setWidth 32))) _ _ rfl (by simp)) hw

theorem lswz (sw : Bool) (d : BitVec 4) (a : BitVec 4) (b : BitVec 8) : Statement (.lswz sw d a b) := by
  intro hw w hf
  obtain rfl := Option.some.inj hf
  exact decode_of_read _ _ rfl rfl (read_as (fun f => some (.lswz f.sw (lowBits 4 f.d) (lowBits 4 f.a) f.b)) _ _ rfl (by simp)) hw

theorem lqry (sw : Bool) (q : LQuery) (d : BitVec 6) (a : BitVec 4) : Statement (.lqry sw q d a) := by
  intro hw w hf
  obtain rfl := Option.some.inj hf
  exact decode_of_read _ _ rfl rfl (read_as (fun f => (LQuery.ofParts f.m75 f.m98 (lowBits 4 f.b)).map (.lqry f.sw · (lowBits 6 f.d) (lowBits 4 f.a))) _ _ rfl (by simp)) hw

theorem hmk (sw : Bool) (gsize : BitVec 2) (kind : Kind) (fmt : Fmt) (d : BitVec 4) (a : BitVec 8) (b : BitVec 8) (stride : BitVec 48) : Statement (.hmk sw gsize kind fmt d a b stride) := by
  intro hw w hf
  obtain rfl := Option.some.inj hf
  exact decode_of_read _ _ rfl rfl (read_as (fun f => do some (.hmk f.sw f.m109 (← Kind.ofCode f.m86) (← Fmt.ofCode (f.hi.extractLsb' 0 1 ++ f.ty : BitVec 5)) (lowBits 4 f.d) f.a f.b (f.ext.setWidth 48))) _ _ rfl (by simp)) hw

theorem hset (sw : Bool) (f : HField) (d : BitVec 4) (v : HVal) : Statement (.hset sw f d v) := by
  intro hw w hf
  cases v
  all_goals
    obtain rfl := Option.some.inj hf
    exact decode_of_read _ _ rfl rfl (read_as (fun f => (HField.ofCode f.m85).map (.hset f.sw · (lowBits 4 f.d) (if f.xa then .reg f.a else .imm f.ext))) _ _ rfl (by simp)) hw

theorem hqry (sw : Bool) (f : HField) (d : BitVec 6) (a : BitVec 4) : Statement (.hqry sw f d a) := by
  intro hw w hf
  obtain rfl := Option.some.inj hf
  exact decode_of_read _ _ rfl rfl (read_as (fun f => (HField.ofCode f.m85).map (.hqry f.sw · (lowBits 6 f.d) (lowBits 4 f.a))) _ _ rfl (by simp)) hw

theorem permx (sw : Bool) (t : BitVec 4) (d : BitVec 8) (a : Opnd) : Statement (.permx sw t d a) := by
  intro hw w hf
  obtain rfl := Option.some.inj hf
  exact decode_of_read _ _ rfl rfl (read_as (fun f => some (.permx f.sw f.m85 f.d f.oa)) _ _ rfl (by simp)) hw

theorem ptld (sw : Bool) (sp : Space) (t : BitVec 4) (a : BitVec 8) : Statement (.ptld sw sp t a) := by
  intro hw w hf
  have h2 : (sp.isTmGlKo && sOk a) = true := hw
  have hs : ptldSpace (ptldCode sp) = some sp := by cases sp <;> first | rfl | simp [Space.isTmGlKo] at h2
  obtain rfl := Option.some.inj hf
  exact decode_of_read _ _ rfl rfl (read_as (fun f => (ptldSpace f.m109).map (.ptld f.sw · f.m85 f.a)) _ _ rfl (by simp [hs])) hw

theorem lmov (sw : Bool) (hnd : Bool) (d : BitVec 4) (a : BitVec 4) : Statement (.lmov sw hnd d a) := by
  intro hw w hf
  obtain rfl := Option.some.inj hf
  exact decode_of_read _ _ rfl rfl (read_as (fun f => some (.lmov f.sw f.m5 (lowBits 4 f.d) (lowBits 4 f.a))) _ _ rfl (by simp)) hw

theorem mwld (sw : Bool) (bmc : Bool) (t : Tile) : Statement (.mwld sw bmc t) := by
  intro hw w hf
  obtain rfl := Option.some.inj hf
  exact decode_of_read _ _ rfl rfl (read_as (fun f => some (.mwld f.sw f.m5 f.ta)) _ _ rfl (by simp)) hw

theorem mwsw (sw : Bool) : Statement (.mwsw sw) := by
  intro hw w hf
  obtain rfl := Option.some.inj hf
  exact decode_of_read _ _ rfl rfl (read_as (fun f => some (.mwsw f.sw)) _ _ rfl rfl) hw

theorem mrel (sw : Bool) : Statement (.mrel sw) := by
  intro hw w hf
  obtain rfl := Option.some.inj hf
  exact decode_of_read _ _ rfl rfl (read_as (fun f => some (.mrel f.sw)) _ _ rfl rfl) hw

theorem mstr (sw : Bool) (init : Bool) (zb : Option (BitVec 8)) (d : BitVec 2) (t : Tile) (row0 : BitVec 7) : Statement (.mstr sw init zb d t row0) := by
  intro hw w hf
  cases zb
  all_goals
    obtain rfl := Option.some.inj hf
    exact decode_of_read _ _ rfl rfl (read_as (fun f => some (.mstr f.sw f.m5 (if f.hi.getLsbD 1 then some f.c else none) (lowBits 2 f.d) f.ta (f.ext.setWidth 7))) _ _ rfl (by simp)) hw

theorem mzero (sw : Bool) (d : BitVec 2) : Statement (.mzero sw d) := by
  intro hw w hf
  obtain rfl := Option.some.inj hf
  exact decode_of_read _ _ rfl rfl (read_as (fun f => some (.mzero f.sw (lowBits 2 f.d))) _ _ rfl (by simp)) hw

theorem mzld (sw : Bool) (d : BitVec 2) (t : Tile) (b : BitVec 8) : Statement (.mzld sw d t b) := by
  intro hw w hf
  obtain rfl := Option.some.inj hf
  exact decode_of_read _ _ rfl rfl (read_as (fun f => some (.mzld f.sw (lowBits 2 f.d) f.ta f.b)) _ _ rfl (by simp)) hw

theorem mzst (sw : Bool) (rm : RMode) (d : BitVec 2) (t : Tile) (b : BitVec 8) : Statement (.mzst sw rm d t b) := by
  intro hw w hf
  obtain rfl := Option.some.inj hf
  exact decode_of_read _ _ rfl rfl (read_as (fun f => (RMode.ofCode f.m75).map (.mzst f.sw · (lowBits 2 f.d) f.ta f.b)) _ _ rfl (by simp)) hw

theorem mzmvTo (sw : Bool) (c : BitVec 2) (d : BitVec 8) (a : BitVec 2) (b : BitVec 8) : Statement (.mzmvTo sw c d a b) := by
  intro hw w hf
  obtain rfl := Option.some.inj hf
  exact decode_of_read _ _ rfl rfl (read_as (fun f => if f.m5 then some (.mzmvFrom f.sw f.m76 (lowBits 2 f.d) f.oa f.b) else some (.mzmvTo f.sw f.m76 f.d (lowBits 2 f.a) f.b)) _ _ rfl (by simp)) hw

theorem mzmvFrom (sw : Bool) (c : BitVec 2) (d : BitVec 2) (a : Opnd) (b : BitVec 8) : Statement (.mzmvFrom sw c d a b) := by
  intro hw w hf
  obtain rfl := Option.some.inj hf
  exact decode_of_read _ _ rfl rfl (read_as (fun f => if f.m5 then some (.mzmvFrom f.sw f.m76 (lowBits 2 f.d) f.oa f.b) else some (.mzmvTo f.sw f.m76 f.d (lowBits 2 f.a) f.b)) _ _ rfl (by simp)) hw

theorem mresc (sw : Bool) (d : BitVec 2) (a : Opnd) : Statement (.mresc sw d a) := by
  intro hw w hf
  obtain rfl := Option.some.inj hf
  exact decode_of_read _ _ rfl rfl (read_as (fun f => some (.mresc f.sw (lowBits 2 f.d) f.oa)) _ _ rfl (by simp)) hw

theorem mcbld (sw : Bool) (sp : Space) (a : BitVec 8) : Statement (.mcbld sw sp a) := by
  intro hw w hf
  obtain rfl := Option.some.inj hf
  exact decode_of_read _ _ rfl rfl (read_as (fun f => (Space.ofCode f.m75).map (.mcbld f.sw · f.a)) _ _ rfl (by simp)) hw

theorem mqry (sw : Bool) (q : MQuery) (d : BitVec 6) : Statement (.mqry sw q d) := by
  intro hw w hf
  obtain rfl := Option.some.inj hf
  exact decode_of_read _ _ rfl rfl (read_as (fun f => (MQuery.ofCode f.m75).map (.mqry f.sw · (lowBits 6 f.d))) _ _ rfl (by simp)) hw

theorem tred (sw : Bool) (sum : Bool) (d : BitVec 8) (a : BitVec 2) (b : BitVec 8) : Statement (.tred sw sum d a b) := by
  intro hw w hf
  obtain rfl := Option.some.inj hf
  exact decode_of_read _ _ rfl rfl (read_as (fun f => some (.tred f.sw f.m5 f.d (lowBits 2 f.a) f.b)) _ _ rfl (by simp)) hw

theorem cpy (sw : Bool) (tag : BitVec 6) (sp : Space) (a : Tile) (b : Tile) (c : BitVec 8) : Statement (.cpy sw tag sp a b c) := by
  intro hw w hf
  obtain rfl := Option.some.inj hf
  exact decode_of_read _ _ rfl rfl (read_as (fun f => (Space.ofCode (f.ty.extractLsb' 1 3)).map (.cpy f.sw f.hi · f.ta f.tb f.c)) _ _ rfl (by simp)) hw

theorem cpym (sw : Bool) (tag : BitVec 6) (sp : Space) (a : Tile) (b : Tile) (c : BitVec 8) : Statement (.cpym sw tag sp a b c) := by
  intro hw w hf
  obtain rfl := Option.some.inj hf
  exact decode_of_read _ _ rfl rfl (read_as (fun f => (Space.ofCode (f.ty.extractLsb' 1 3)).map (.cpym f.sw f.hi · f.ta f.tb f.c)) _ _ rfl (by simp)) hw

theorem twany (sw : Bool) (d : BitVec 6) (a : BitVec 8) : Statement (.twany sw d a) := by
  intro hw w hf
  obtain rfl := Option.some.inj hf
  exact decode_of_read _ _ rfl rfl (read_as (fun f => some (.twany f.sw (lowBits 6 f.d) f.a)) _ _ rfl (by simp)) hw

theorem twall (sw : Bool) (a : BitVec 8) : Statement (.twall sw a) := by
  intro hw w hf
  obtain rfl := Option.some.inj hf
  exact decode_of_read _ _ rfl rfl (read_as (fun f => some (.twall f.sw f.a)) _ _ rfl rfl) hw

theorem tffr (sw : Bool) (d : BitVec 6) (a : BitVec 8) : Statement (.tffr sw d a) := by
  intro hw w hf
  obtain rfl := Option.some.inj hf
  exact decode_of_read _ _ rfl rfl (read_as (fun f => some (.tffr f.sw (lowBits 6 f.d) f.a)) _ _ rfl (by simp)) hw

theorem tclr (sw : Bool) (a : BitVec 8) : Statement (.tclr sw a) := by
  intro hw w hf
  obtain rfl := Option.some.inj hf
  exact decode_of_read _ _ rfl rfl (read_as (fun f => some (.tclr f.sw f.a)) _ _ rfl rfl) hw

theorem jqry (sw : Bool) (q : JQuery) (d : BitVec 6) : Statement (.jqry sw q d) := by
  intro hw w hf
  obtain rfl := Option.some.inj hf
  exact decode_of_read _ _ rfl rfl (read_as (fun f => (JQuery.ofParts f.m75 f.a).map (.jqry f.sw · (lowBits 6 f.d))) _ _ rfl (by simp)) hw

theorem jcan (sw : Bool) (a : BitVec 8) : Statement (.jcan sw a) := by
  intro hw w hf
  obtain rfl := Option.some.inj hf
  exact decode_of_read _ _ rfl rfl (read_as (fun f => some (.jcan f.sw f.a)) _ _ rfl rfl) hw

theorem xfer (sw : Bool) (cg : Bool) (arv : Bool) (sp : Space) (a : BitVec 8) (b : BitVec 8) (c : BitVec 6) : Statement (.xfer sw cg arv sp a b c) := by
  intro hw w hf
  obtain rfl := Option.some.inj hf
  exact decode_of_read _ _ rfl rfl (read_as (fun f => (Space.ofCode f.m75).map (.xfer f.sw f.m10 f.m9 · f.a f.b (lowBits 6 f.c))) _ _ rfl (by simp)) hw

theorem xget (sw : Bool) (sp : Space) (a : BitVec 8) (b : BitVec 8) (c : BitVec 6) : Statement (.xget sw sp a b c) := by
  intro hw w hf
  obtain rfl := Option.some.inj hf
  exact decode_of_read _ _ rfl rfl (read_as (fun f => (Space.ofCode f.m75).map (.xget f.sw · f.a f.b (lowBits 6 f.c))) _ _ rfl (by simp)) hw

theorem xatom (sw : Bool) (cg : Bool) (rel : Bool) (f : XatomForm) (a : BitVec 8) (b : BitVec 8) (c : BitVec 6) : Statement (.xatom sw cg rel f a b c) := by
  intro hw w hf
  cases f
  all_goals
    obtain rfl := Option.some.inj hf
    exact decode_of_read _ _ rfl rfl (read_as (fun f => if f.m9 then some (.xatom f.sw f.m10 f.m8 .arv f.a f.b (lowBits 6 f.c)) else do some (.xatom f.sw f.m10 f.m8 (.mem (lowBits 6 f.d) (← AtomOp.ofCode f.m75) (← Ty.ofCode f.ty)) f.a f.b (lowBits 6 f.c))) _ _ rfl (by simp)) hw

theorem xpost (sw : Bool) (sp : Space) (d : BitVec 6) (a : BitVec 8) (b : BitVec 8) : Statement (.xpost sw sp d a b) := by
  intro hw w hf
  obtain rfl := Option.some.inj hf
  exact decode_of_read _ _ rfl rfl (read_as (fun f => (Space.ofCode f.m75).map (.xpost f.sw · (lowBits 6 f.d) f.a f.b)) _ _ rfl (by simp)) hw

theorem xmc (sw : Bool) (arv : Bool) (sp : Space) (a : BitVec 8) (b : BitVec 8) (c : BitVec 6) : Statement (.xmc sw arv sp a b c) := by
  intro hw w hf
  obtain rfl := Option.some.inj hf
  exact decode_of_read _ _ rfl rfl (read_as (fun f => (Space.ofCode f.m75).map (.xmc f.sw f.m9 · f.a f.b (lowBits 6 f.c))) _ _ rfl (by simp)) hw

theorem arvset (sw : Bool) (clr : Bool) (a : BitVec 8) (b : BitVec 8) (c : BitVec 8) : Statement (.arvset sw clr a b c) := by
  intro hw w hf
  obtain rfl := Option.some.inj hf
  exact decode_of_read _ _ rfl rfl (read_as (fun f => some (.arvset f.sw f.m5 f.a f.b f.c)) _ _ rfl (by simp)) hw

theorem arvwait (sw : Bool) (nf : Bool) (a : BitVec 8) : Statement (.arvwait sw nf a) := by
  intro hw w hf
  obtain rfl := Option.some.inj hf
  exact decode_of_read _ _ rfl rfl (read_as (fun f => some (.arvwait f.sw f.m5 f.a)) _ _ rfl (by simp)) hw

theorem coll (sw : Bool) (a : BitVec 8) : Statement (.coll sw a) := by
  intro hw w hf
  obtain rfl := Option.some.inj hf
  exact decode_of_read _ _ rfl rfl (read_as (fun f => some (.coll f.sw f.a)) _ _ rfl rfl) hw

theorem xfence (sw : Bool) : Statement (.xfence sw) := by
  intro hw w hf
  obtain rfl := Option.some.inj hf
  exact decode_of_read _ _ rfl rfl (read_as (fun f => some (.xfence f.sw)) _ _ rfl rfl) hw

theorem cgopen (sw : Bool) (d : BitVec 6) (a : BitVec 8) (b : BitVec 8) : Statement (.cgopen sw d a b) := by
  intro hw w hf
  obtain rfl := Option.some.inj hf
  exact decode_of_read _ _ rfl rfl (read_as (fun f => if f.m5 then some (.cgopenJoin f.sw (lowBits 6 f.d) f.a) else some (.cgopen f.sw (lowBits 6 f.d) f.a f.b)) _ _ rfl (by simp)) hw

theorem cgopenJoin (sw : Bool) (d : BitVec 6) (a : BitVec 8) : Statement (.cgopenJoin sw d a) := by
  intro hw w hf
  obtain rfl := Option.some.inj hf
  exact decode_of_read _ _ rfl rfl (read_as (fun f => if f.m5 then some (.cgopenJoin f.sw (lowBits 6 f.d) f.a) else some (.cgopen f.sw (lowBits 6 f.d) f.a f.b)) _ _ rfl (by simp)) hw

theorem cgprep (sw : Bool) (d : BitVec 6) : Statement (.cgprep sw d) := by
  intro hw w hf
  obtain rfl := Option.some.inj hf
  exact decode_of_read _ _ rfl rfl (read_as (fun f => some (.cgprep f.sw (lowBits 6 f.d))) _ _ rfl (by simp)) hw

theorem cghoist (sw : Bool) (d : BitVec 6) : Statement (.cghoist sw d) := by
  intro hw w hf
  obtain rfl := Option.some.inj hf
  exact decode_of_read _ _ rfl rfl (read_as (fun f => some (.cghoist f.sw (lowBits 6 f.d))) _ _ rfl (by simp)) hw

theorem cgabort (sw : Bool) : Statement (.cgabort sw) := by
  intro hw w hf
  obtain rfl := Option.some.inj hf
  exact decode_of_read _ _ rfl rfl (read_as (fun f => some (.cgabort f.sw)) _ _ rfl rfl) hw

theorem cgqry (sw : Bool) (q : CgQuery) (d : BitVec 6) (a : BitVec 8) : Statement (.cgqry sw q d a) := by
  intro hw w hf
  obtain rfl := Option.some.inj hf
  exact decode_of_read _ _ rfl rfl (read_as (fun f => (CgQuery.ofCode f.m75).map (.cgqry f.sw · (lowBits 6 f.d) f.a)) _ _ rfl (by simp)) hw

theorem qpush (sw : Bool) (sp : Space) (d : BitVec 6) (a : BitVec 8) (b : BitVec 8) : Statement (.qpush sw sp d a b) := by
  intro hw w hf
  obtain rfl := Option.some.inj hf
  exact decode_of_read _ _ rfl rfl (read_as (fun f => (Space.ofCode f.m75).map (.qpush f.sw · (lowBits 6 f.d) f.a f.b)) _ _ rfl (by simp)) hw

theorem unassignedOpcode (op : BitVec 9) (lenCode : BitVec 2) : Statement (.unassignedOpcode op lenCode) := by
  intro _ f hf; cases hf

theorem resultReturn (f : FibreRef) (n : Nat) : Statement (.resultReturn f n) := by
  intro _ f hf; cases hf

theorem deferredFpostApply (f : FibreRef) : Statement (.deferredFpostApply f) := by
  intro _ f hf; cases hf

theorem fbarArrivalCount (f : FibreRef) : Statement (.fbarArrivalCount f) := by
  intro _ f hf; cases hf

theorem forcedRotation (f : FibreRef) : Statement (.forcedRotation f) := by
  intro _ f hf; cases hf

theorem gangTurnLimit (f : FibreRef) : Statement (.gangTurnLimit f) := by
  intro _ f hf; cases hf

theorem asyncDataError (f : FibreRef) : Statement (.asyncDataError f) := by
  intro _ f hf; cases hf

theorem matrixDataError (f : FibreRef) : Statement (.matrixDataError f) := by
  intro _ f hf; cases hf

theorem jobFaultSignal (f : FibreRef) : Statement (.jobFaultSignal f) := by
  intro _ f hf; cases hf

theorem remoteErrorTrap (f : FibreRef) : Statement (.remoteErrorTrap f) := by
  intro _ f hf; cases hf

theorem faultServiced (f : FibreRef) (ans : FaultAnswer) : Statement (.faultServiced f ans) := by
  intro _ f hf; cases hf

theorem migrationCopyComplete (asid : BitVec 16) (va : VA) : Statement (.migrationCopyComplete asid va) := by
  intro _ f hf; cases hf

theorem migrationCopyError (asid : BitVec 16) (va : VA) : Statement (.migrationCopyError asid va) := by
  intro _ f hf; cases hf

theorem shootdownComplete (asid : BitVec 16) (va : VA) : Statement (.shootdownComplete asid va) := by
  intro _ f hf; cases hf

theorem lineReplacement (core : Option Nat) (die : Fin 4) (line : Nat) : Statement (.lineReplacement core die line) := by
  intro _ f hf; cases hf

theorem monitorFire (f : FibreRef) (g : Nat) : Statement (.monitorFire f g) := by
  intro _ f hf; cases hf

theorem monitorPoll (f : FibreRef) (g : Nat) : Statement (.monitorPoll f g) := by
  intro _ f hf; cases hf

theorem queueProducerWrite (q : Nat) : Statement (.queueProducerWrite q) := by
  intro _ f hf; cases hf

theorem packetTake (q : Nat) (noAlloc : List Nat) : Statement (.packetTake q noAlloc) := by
  intro _ f hf; cases hf

theorem launchLoadComplete (k : KernelRef) (noAlloc : List Nat) : Statement (.launchLoadComplete k noAlloc) := by
  intro _ f hf; cases hf

theorem clusterPlace (k : KernelRef) (clu : Nat) (cores : List Nat) : Statement (.clusterPlace k clu cores) := by
  intro _ f hf; cases hf

theorem preemptRequest (cl : Nat) (why : PreemptWhy) : Statement (.preemptRequest cl why) := by
  intro _ f hf; cases hf

theorem parkedClusterTimeout (cl : Nat) : Statement (.parkedClusterTimeout cl) := by
  intro _ f hf; cases hf

theorem clusterSaveComplete (cl : Nat) : Statement (.clusterSaveComplete cl) := by
  intro _ f hf; cases hf

theorem clusterResume (cl : Nat) (cores : List Nat) : Statement (.clusterResume cl cores) := by
  intro _ f hf; cases hf

theorem kernelRetire (k : KernelRef) (noAlloc : List Nat) : Statement (.kernelRetire k noAlloc) := by
  intro _ f hf; cases hf

theorem quiesceComplete (d : Fin 4) : Statement (.quiesceComplete d) := by
  intro _ f hf; cases hf

theorem coreResetComplete (d : Fin 4) : Statement (.coreResetComplete d) := by
  intro _ f hf; cases hf

theorem jobStart (cl : Nat) (team : Nat) (tag : Nat) : Statement (.jobStart cl team tag) := by
  intro _ f hf; cases hf

theorem jobLanded (cl : Nat) (team : Nat) (tag : Nat) : Statement (.jobLanded cl team tag) := by
  intro _ f hf; cases hf

theorem jobDone (cl : Nat) (team : Nat) (tag : Nat) : Statement (.jobDone cl team tag) := by
  intro _ f hf; cases hf

theorem jobFaulted (cl : Nat) (team : Nat) (tag : Nat) : Statement (.jobFaulted cl team tag) := by
  intro _ f hf; cases hf

theorem jobReplay (cl : Nat) (team : Nat) (tag : Nat) (ans : FaultAnswer) : Statement (.jobReplay cl team tag ans) := by
  intro _ f hf; cases hf

theorem cpymFollowOn (cl : Nat) (team : Nat) (tag : Nat) : Statement (.cpymFollowOn cl team tag) := by
  intro _ f hf; cases hf

theorem weightLoadComplete (cl : Nat) (team : Nat) : Statement (.weightLoadComplete cl team) := by
  intro _ f hf; cases hf

theorem streamRowCommit (cl : Nat) (team : Nat) : Statement (.streamRowCommit cl team) := by
  intro _ f hf; cases hf

theorem arrayDeferredAct (cl : Nat) (team : Nat) : Statement (.arrayDeferredAct cl team) := by
  intro _ f hf; cases hf

theorem remoteRequestArrive (r : RemReq) : Statement (.remoteRequestArrive r) := by
  intro _ f hf; cases hf

theorem remoteReply (id : Nat) (rep : Reply) (src : Replier) : Statement (.remoteReply id rep src) := by
  intro _ f hf; cases hf

theorem rnrRetry (id : Nat) : Statement (.rnrRetry id) := by
  intro _ f hf; cases hf

theorem counterPacketArrive (asid : BitVec 16) (id : BitVec 8) (n : DWord) : Statement (.counterPacketArrive asid id n) := by
  intro _ f hf; cases hf

theorem multicastPacketArrive (r : RemReq) : Statement (.multicastPacketArrive r) := by
  intro _ f hf; cases hf

theorem xpostArrive (r : RemReq) : Statement (.xpostArrive r) := by
  intro _ f hf; cases hf

theorem collResultArrive (id : Nat) (parts : List (List Word)) : Statement (.collResultArrive id parts) := by
  intro _ f hf; cases hf

theorem leaderExchangeArrive (id : Nat) (data : List LeaderData) : Statement (.leaderExchangeArrive id data) := by
  intro _ f hf; cases hf

theorem planeDrainComplete (plane : Nat) : Statement (.planeDrainComplete plane) := by
  intro _ f hf; cases hf

theorem portTrained (port : Nat) (lanes : Nat) (far : BitVec 16) (inc : BitVec 32) : Statement (.portTrained port lanes far inc) := by
  intro _ f hf; cases hf

theorem portTrainingFail (port : Nat) : Statement (.portTrainingFail port) := by
  intro _ f hf; cases hf

theorem laneLost (port : Nat) : Statement (.laneLost port) := by
  intro _ f hf; cases hf

theorem replayLimit (port : Nat) : Statement (.replayLimit port) := by
  intro _ f hf; cases hf

theorem flitCrcError (port : Nat) : Statement (.flitCrcError port) := by
  intro _ f hf; cases hf

theorem portDown (port : Nat) : Statement (.portDown port) := by
  intro _ f hf; cases hf

theorem frameAck (port : Nat) (n : Nat) : Statement (.frameAck port n) := by
  intro _ f hf; cases hf

theorem siroccoKeyRollover (port : Nat) : Statement (.siroccoKeyRollover port) := by
  intro _ f hf; cases hf

theorem hostMemRead (pa : Nat) (n : Nat) : Statement (.hostMemRead pa n) := by
  intro _ f hf; cases hf

theorem hostMemWrite (pa : Nat) (bytes : List Byte) : Statement (.hostMemWrite pa bytes) := by
  intro _ f hf; cases hf

theorem hostSnoop (pa : Nat) : Statement (.hostSnoop pa) := by
  intro _ f hf; cases hf

theorem cgRecordArrive (r : RemReq) : Statement (.cgRecordArrive r) := by
  intro _ f hf; cases hf

theorem cgPrepareArrive (sdev : BitVec 16) (cgid : BitVec 32) (asid : BitVec 16) (obj : VA) (n : Nat) (crc : DWord) : Statement (.cgPrepareArrive sdev cgid asid obj n crc) := by
  intro _ f hf; cases hf

theorem cgPrepareReply (cgid : BitVec 32) (dst : Nat) (rep : CgReply) : Statement (.cgPrepareReply cgid dst rep) := by
  intro _ f hf; cases hf

theorem cgWindowExpire (cgid : BitVec 32) : Statement (.cgWindowExpire cgid) := by
  intro _ f hf; cases hf

theorem cgAbortArrive (cgid : BitVec 32) (asid : BitVec 16) : Statement (.cgAbortArrive cgid asid) := by
  intro _ f hf; cases hf

theorem cgHoistArrive (cgid : BitVec 32) (asid : BitVec 16) : Statement (.cgHoistArrive cgid asid) := by
  intro _ f hf; cases hf

theorem cgApplyAck (cgid : BitVec 32) (dst : Nat) (applied : Bool) : Statement (.cgApplyAck cgid dst applied) := by
  intro _ f hf; cases hf

theorem cgHoldExpire (cgid : BitVec 32) (asid : BitVec 16) : Statement (.cgHoldExpire cgid asid) := by
  intro _ f hf; cases hf

theorem cgDecisionAnswer (cgid : BitVec 32) (asid : BitVec 16) (ans : CgAnswer) : Statement (.cgDecisionAnswer cgid asid ans) := by
  intro _ f hf; cases hf

theorem powerOnReset  : Statement (.powerOnReset ) := by
  intro _ f hf; cases hf

theorem dieMeasurement (d : DieId) (digest : BitVec 384) (ok : Bool) : Statement (.dieMeasurement d digest ok) := by
  intro _ f hf; cases hf

theorem ucieTrained (d : DieId) : Statement (.ucieTrained d) := by
  intro _ f hf; cases hf

theorem operatingPointGrant (d : Fin 4) (freq : Nat) : Statement (.operatingPointGrant d freq) := by
  intro _ f hf; cases hf

theorem diewarm (d : Fin 4) : Statement (.diewarm d) := by
  intro _ f hf; cases hf

theorem dieRetrainComplete (d : Fin 4) (digest : BitVec 384) (ok : Bool) : Statement (.dieRetrainComplete d digest ok) := by
  intro _ f hf; cases hf

theorem mgmtCoreStart (p : Fin 2) : Statement (.mgmtCoreStart p) := by
  intro _ f hf; cases hf

theorem portDieFail (p : Fin 2) : Statement (.portDieFail p) := by
  intro _ f hf; cases hf

theorem railPowerGood (r : Rail) : Statement (.railPowerGood r) := by
  intro _ f hf; cases hf

theorem railPowerLoss (r : Rail) : Statement (.railPowerLoss r) := by
  intro _ f hf; cases hf

theorem frequencyChange (d : Fin 4) (freq : Nat) : Statement (.frequencyChange d freq) := by
  intro _ f hf; cases hf

theorem linkWidthReduction (d : Fin 4) (width : UcieLink × Nat) : Statement (.linkWidthReduction d width) := by
  intro _ f hf; cases hf

theorem lifetimeCommit  : Statement (.lifetimeCommit ) := by
  intro _ f hf; cases hf

theorem ctxcreate (c : CtxArgs) : Statement (.ctxcreate c) := by
  intro _ f hf; cases hf

theorem ctxrestore (asid : BitVec 16) : Statement (.ctxrestore asid) := by
  intro _ f hf; cases hf

theorem ctxevict (asid : BitVec 16) : Statement (.ctxevict asid) := by
  intro _ f hf; cases hf

theorem ctxclose (asid : BitVec 16) : Statement (.ctxclose asid) := by
  intro _ f hf; cases hf

theorem ctxquery (asid : BitVec 16) : Statement (.ctxquery asid) := by
  intro _ f hf; cases hf

theorem map (asid : BitVec 16) (va : VA) (level : Nat) (pas : List Nat) (tier : BitVec 2) (home : BitVec 2) (attr : LeafAttr) (tables : List Nat) : Statement (.map asid va level pas tier home attr tables) := by
  intro _ f hf; cases hf

theorem unmap (asid : BitVec 16) (va : VA) (len : Nat) : Statement (.unmap asid va len) := by
  intro _ f hf; cases hf

theorem protect (asid : BitVec 16) (va : VA) (len : Nat) (attr : LeafAttr) : Statement (.protect asid va len attr) := by
  intro _ f hf; cases hf

theorem migrate (asid : BitVec 16) (va : VA) (len : Nat) (tier : BitVec 2) (home : BitVec 2) (pas : List Nat) : Statement (.migrate asid va len tier home pas) := by
  intro _ f hf; cases hf

theorem pin (asid : BitVec 16) (va : VA) (len : Nat) : Statement (.pin asid va len) := by
  intro _ f hf; cases hf

theorem unpin (asid : BitVec 16) (va : VA) (len : Nat) : Statement (.unpin asid va len) := by
  intro _ f hf; cases hf

theorem translate (asid : BitVec 16) (va : VA) : Statement (.translate asid va) := by
  intro _ f hf; cases hf

theorem qcreate (q : Nat) (asid : BitVec 16) (lsz : BitVec 4) (cap : BitVec 2) (rva : VA) (pva : VA) (cva : VA) : Statement (.qcreate q asid lsz cap rva pva cva) := by
  intro _ f hf; cases hf

theorem qdestroy (q : Nat) : Statement (.qdestroy q) := by
  intro _ f hf; cases hf

theorem qreset (q : Nat) : Statement (.qreset q) := by
  intro _ f hf; cases hf

theorem aclset (i : Nat) (v : Bool) (sdev : BitVec 16) (sasid : BitVec 16) (cap : BitVec 2) (qmask : DWord) : Statement (.aclset i v sdev sasid cap qmask) := by
  intro _ f hf; cases hf

theorem linkset (r : LinkSetReq) : Statement (.linkset r) := by
  intro _ f hf; cases hf

theorem linkquery (r : LinkQueryReq) : Statement (.linkquery r) := by
  intro _ f hf; cases hf

theorem planeset (plane : Nat) (r : PlaneReq) : Statement (.planeset plane r) := by
  intro _ f hf; cases hf

theorem spanset (pod : BitVec 7) (mask : BitVec 8) : Statement (.spanset pod mask) := by
  intro _ f hf; cases hf

theorem devid (pod : BitVec 7) (dev : BitVec 9) : Statement (.devid pod dev) := by
  intro _ f hf; cases hf

theorem dhalt (d : Fin 4) : Statement (.dhalt d) := by
  intro _ f hf; cases hf

theorem dresume (d : Fin 4) : Statement (.dresume d) := by
  intro _ f hf; cases hf

theorem dread (asid : BitVec 16) (f : FibreRef) (off : Nat) (n : Nat) : Statement (.dread asid f off n) := by
  intro _ f hf; cases hf

theorem dwrite (asid : BitVec 16) (f : FibreRef) (off : Nat) (bytes : List Byte) : Statement (.dwrite asid f off bytes) := by
  intro _ f hf; cases hf

theorem dcont (f : FibreRef) : Statement (.dcont f) := by
  intro _ f hf; cases hf

theorem liferead (k : LifeKind) : Statement (.liferead k) := by
  intro _ f hf; cases hf

theorem powerset (d : Fin 4) (amps : Nat) : Statement (.powerset d amps) := by
  intro _ f hf; cases hf

theorem mailboxUnsupported (opcode : BitVec 16) : Statement (.mailboxUnsupported opcode) := by
  intro _ f hf; cases hf

theorem mctpPowerset (d : Fin 4) (amps : Nat) : Statement (.mctpPowerset d amps) := by
  intro _ f hf; cases hf

theorem lifeget (k : LifeKind) : Statement (.lifeget k) := by
  intro _ f hf; cases hf

theorem keyload (id : BitVec 8) (key : BitVec 512) : Statement (.keyload id key) := by
  intro _ f hf; cases hf

theorem getVersion  : Statement (.getVersion ) := by
  intro _ f hf; cases hf

theorem getCapabilities  : Statement (.getCapabilities ) := by
  intro _ f hf; cases hf

theorem negotiateAlgorithms  : Statement (.negotiateAlgorithms ) := by
  intro _ f hf; cases hf

theorem getDigests  : Statement (.getDigests ) := by
  intro _ f hf; cases hf

theorem getCertificate  : Statement (.getCertificate ) := by
  intro _ f hf; cases hf

theorem challenge (nonce : BitVec 256) : Statement (.challenge nonce) := by
  intro _ f hf; cases hf

theorem getMeasurements (i : Nat) : Statement (.getMeasurements i) := by
  intro _ f hf; cases hf

theorem keyExchange (rnd : BitVec 256) : Statement (.keyExchange rnd) := by
  intro _ f hf; cases hf

theorem finish (hmacOk : Bool) : Statement (.finish hmacOk) := by
  intro _ f hf; cases hf

theorem endSession  : Statement (.endSession ) := by
  intro _ f hf; cases hf

theorem yardarmRouteReport (plane : Nat) (dev : BitVec 16) (present : Bool) : Statement (.yardarmRouteReport plane dev present) := by
  intro _ f hf; cases hf

theorem orderlyPowerDown  : Statement (.orderlyPowerDown ) := by
  intro _ f hf; cases hf

theorem droopEvent (d : Fin 4) (mv : Nat) : Statement (.droopEvent d mv) := by
  intro _ f hf; cases hf

theorem lifetimeMinute (temps : List Nat) (mv : List Nat) : Statement (.lifetimeMinute temps mv) := by
  intro _ f hf; cases hf

end Sys2Proof.Laws.Encoding
end

