-- ==== Sys2Proof/Tests/Slice0.lean ====
section
/-! SUPPORT. Witnesses for the hypotheses of every obligation, the words that the manual writes out, an ill-formed term for every check of `Instr.wf`,
and single steps on the values of the manual's examples. -/

namespace Sys2Proof.Tests

open Sys2Proof Sys2Proof.Machine

set_option Elab.async false

/-! ### States for the witnesses: one fibre of 32 lanes at address 0, all registers 0, and changes to it -/

def wbase : State := { State.reset.placeBytes (leBytes 16 0) with cur := some { f := ⟨0, 0, 0⟩, gang := 0, pc := 0 } }
def wfib (u : Fibre → Fibre) : State := wbase.modFibre ⟨0, 0, 0⟩ u
def wslot (u : Slot → Slot) : State := { wbase with slots := wbase.slots.map u }
def wscal (n : Nat) (x : DWord) (f : Fibre) : Fibre := { f with s := f.s.set! n x }
def wout : Out := { Out.of [.s 9 1] with id := 5 }
def hd : Hdr := ⟨false, 7, false⟩
/-- A guard that no lane of the base state meets. -/
def hno : Hdr := ⟨false, 1, false⟩
def op1 (sc : Bool) : Op1 := { h := hd, sc := sc, d := 2, a := ⟨4, false, true⟩ }
def op2 (sc : Bool) : Op2 := { h := hd, sc := sc, d := 2, a := ⟨4, false, true⟩, b := ⟨6, false, false⟩ }
def op3 (sc : Bool) : Op3 := { h := hd, sc := sc, d := 2, a := ⟨4, false, true⟩, b := ⟨6, false, false⟩, c := ⟨8, false, false⟩ }
/-- A second fibre of the slot, at position 1. -/
def wother : Fibre := { newFibre placedLaunch 1 ⟨0, 0, 0⟩ 0 0 0 0 0 1 with pos := 1 }

theorem meets {s : State} {k : Kindly} {us : View → List Use} {P : View → Prop} [DecidablePred P]
    (h : s.canIssue k us = true) (hp : (match s.view? with | some v => decide (P v) | none => false) = true) :
    ∃ v, s.issuing v k (us v) ∧ P v := by
  obtain ⟨v, hv⟩ := State.canIssue_spec h
  refine ⟨v, hv, ?_⟩
  rw [hv.1] at hp
  exact of_decide_eq_true hp

theorem sees {s : State} {P : View → Prop} [DecidablePred P] (hp : (match s.view? with | some v => decide (P v) | none => false) = true) :
    ∃ v, s.view? = some v ∧ P v := by
  cases h : s.view? with
  | none => simp [h] at hp
  | some v => rw [h] at hp; exact ⟨v, rfl, of_decide_eq_true hp⟩

/-! ### Witnesses: integer, floating point, conversions, lattice -/

/-- Every form of the lane loop can issue: vector and scalar, with 32-bit and 64-bit operands, the last registers of the window among them. -/
theorem witness_lane_forms : ∀ sc : Bool, ∀ w : Bool,
    wbase.canIssue perLane (fun v => v.touch1 (op1 sc) w w) = true ∧ wbase.canIssue perLane (fun v => v.touch2 (op2 sc) w w w) = true ∧
    wbase.canIssue perLane (fun v => v.touch3 (op3 sc) w w w w) = true ∧
    wbase.canIssue perLane (fun v => v.touch2 { op2 sc with d := if sc then 62 else 254 } w w false) = true := by decide +kernel

theorem witness_IntegerArithmetic : (∃ v, wbase.issuing v perLane (v.touch2 (op2 false) true true true)) ∧
    (∃ v, wbase.issuing v perLane (v.touch1 (op1 true) false false)) ∧ ∃ v, wbase.issuing v perLane (v.touch3 (op3 false) false false false false) :=
  ⟨State.canIssue_spec (by decide +kernel), State.canIssue_spec (by decide +kernel), State.canIssue_spec (by decide +kernel)⟩

theorem witness_IntegerShiftsAndBits : Ty.isInt .n64 = true ∧ (∃ v, wbase.issuing v perLane (v.touch2 (op2 false) true true false)) ∧
    (∃ v, wbase.issuing v perLane (v.touch3 (op3 false) true true false true)) ∧ (∃ v, wbase.issuing v perLane (v.touch1 (op1 true) false true)) ∧
    ∃ v, wbase.issuing v perLane ((useSrc false true ⟨4, false, false⟩ (v.active hd) ++ useSrc false false ⟨6, true, false⟩ (v.active hd)) ++
      useDst false true 8 (v.active hd)) :=
  ⟨rfl, State.canIssue_spec (by decide +kernel), State.canIssue_spec (by decide +kernel), State.canIssue_spec (by decide +kernel),
    State.canIssue_spec (us := fun v => (useSrc false true ⟨4, false, false⟩ (v.active hd) ++ useSrc false false ⟨6, true, false⟩ (v.active hd)) ++
      useDst false true 8 (v.active hd)) (by decide +kernel)⟩

theorem witness_IntegerCarriesAndPredicates : (∃ v, wbase.issuing v perLane (useDst false true 254 (v.mask hd false))) ∧
    (∃ v, wbase.issuing v perLane ((useSrc false true ⟨4, false, false⟩ (v.mask hd false) ++ useSrc false true ⟨6, false, false⟩ (v.mask hd false)) ++
      useP 1 (v.mask hd false) ++ useDst false true 8 (v.mask hd false) ++ [⟨.r (.p 7), v.mask hd false, false, false⟩])) ∧
    (∃ v, wbase.issuing v perLane (v.touchP hd false 7 (useP 1 (v.active hd) ++ useP 2 (v.active hd) ++ useP 3 (v.active hd)))) ∧
    (∃ v, wbase.issuing v perLane (useS 0x5F v.g.lanes ++ useSrc false true ⟨4, false, false⟩ (1#32 <<< 31) ++ defS 63 v.g.lanes) ∧
      ∀ i < 2, (quotaRow v.f.quota (254 + i)).isSome = true) ∧
    ∃ v, (wfib fun f => { f with quota := 0x86780013 }).view? = some v ∧ v.g.lanes ≠ 0 ∧ ¬∀ i < 2, (quotaRow v.f.quota (19 + i)).isSome = true :=
  ⟨State.canIssue_spec (us := fun v => useDst false true 254 (v.mask hd false)) (by decide +kernel),
    State.canIssue_spec (us := fun v => (useSrc false true ⟨4, false, false⟩ (v.mask hd false) ++ useSrc false true ⟨6, false, false⟩ (v.mask hd false)) ++
      useP 1 (v.mask hd false) ++ useDst false true 8 (v.mask hd false) ++ [⟨.r (.p 7), v.mask hd false, false, false⟩]) (by decide +kernel),
    State.canIssue_spec (us := fun v => v.touchP hd false 7 (useP 1 (v.active hd) ++ useP 2 (v.active hd) ++ useP 3 (v.active hd))) (by decide +kernel),
    meets (us := fun v => useS 0x5F v.g.lanes ++ useSrc false true ⟨4, false, false⟩ (1#32 <<< 31) ++ defS 63 v.g.lanes) (by decide +kernel) (by decide +kernel),
    sees (by decide +kernel)⟩

theorem witness_FloatArithmetic : (∃ v, wbase.issuing v perLane (v.touch3 (op3 true) false false false false)) ∧
    (∃ v, wbase.issuing v perLane (v.touch2 (op2 false) false false false)) ∧ (∃ v, wbase.issuing v perLane (v.touch1 (op1 false) false false)) ∧
    ∃ v, wbase.issuing v perLane (v.touchP hd false 0 (useSrc false false ⟨4, false, false⟩ (v.mask hd false) ++ useSrc false false ⟨6, false, false⟩ (v.mask hd false))) :=
  ⟨State.canIssue_spec (by decide +kernel), State.canIssue_spec (by decide +kernel), State.canIssue_spec (by decide +kernel),
    State.canIssue_spec (us := fun v => v.touchP hd false 0 (useSrc false false ⟨4, false, false⟩ (v.mask hd false) ++
      useSrc false false ⟨6, false, false⟩ (v.mask hd false))) (by decide +kernel)⟩

theorem witness_FloatElementary : ∃ v, wbase.issuing v perLane (v.touch1 (op1 false) false false) := State.canIssue_spec (by decide +kernel)

theorem witness_ConversionsRoundOnce : (∃ v, wbase.issuing v perLane (v.touch1 (op1 false) true false)) ∧
    (∃ v, wbase.issuing v perLane ((useSrc false false ⟨4, false, false⟩ (v.mask hd false) ++ useSrc false false ⟨5, true, false⟩ (v.mask hd false)) ++
      useDst false false 2 (v.mask hd false) ++ useDst false false 2 (v.mask hd false))) ∧ (∃ v, wbase.issuing v perLane (v.touch2 (op2 false) false false false)) ∧
    (Ty.e2m1 ∈ [Ty.f32, .f16, .bf16, .e4m3, .e5m2, .e2m1] ∧ 15 < 2 ^ (fpFmt .e2m1).w ∧ resolveRm 0 .rne ≠ .rst ∧ flushOut 0 .e2m1 = false ∧
      ((fpFmt .e2m1).value 15).isNan = false ∧ (Ty.e2m1 = .e2m1 → 15 ≠ 8)) :=
  ⟨State.canIssue_spec (by decide +kernel), State.canIssue_spec (us := fun v => (useSrc false false ⟨4, false, false⟩ (v.mask hd false) ++
    useSrc false false ⟨5, true, false⟩ (v.mask hd false)) ++ useDst false false 2 (v.mask hd false) ++ useDst false false 2 (v.mask hd false)) (by decide +kernel),
    State.canIssue_spec (by decide +kernel), by decide +kernel⟩

def latop : LatOp := { h := hd, hi := true, d := 20, a := ⟨4, false, true⟩, b := ⟨2, true, false⟩, c := 0x81 }
/-- Every lattice form can issue, with active lanes and without. -/
theorem witness_LatticePoints : (∃ v, wbase.issuing v perLane (useRun 8 4 (v.active hd) true ++ (useSrc false false latop.b (v.active hd) ++
      useS latop.c (v.active hd)) ++ useDst false false 20 (v.active hd)) ∧ lanesOf (v.active hd) ≠ []) ∧
    (∃ v, wbase.issuing v perLane (useRun 1 4 (v.active hno) true ++ (useSrc false false latop.b (v.active hno) ++
      useS latop.c (v.active hno)) ++ defRun 8 20 (v.active hno)) ∧ lanesOf (v.active hno) = []) ∧
    (latop.a.idx.toNat ≤ latop.d.toNat → latop.a.idx.toNat + 7 < latop.d.toNat) :=
  ⟨meets (us := fun v => useRun 8 4 (v.active hd) true ++ (useSrc false false latop.b (v.active hd) ++
      useS latop.c (v.active hd)) ++ useDst false false 20 (v.active hd)) (by decide +kernel) (by decide +kernel),
    meets (us := fun v => useRun 1 4 (v.active hno) true ++ (useSrc false false latop.b (v.active hno) ++
      useS latop.c (v.active hno)) ++ defRun 8 20 (v.active hno)) (by decide +kernel) (by decide +kernel), by decide⟩

/-- The first and the last register run of a codebook. -/
theorem witness_CodebookIndices : (∃ v, wbase.issuing v perLane ((useSrc false false ⟨4, false, false⟩ (v.active hd) ++ useRun 8 248 (v.active hd) false) ++
      useDst false false 2 (v.active hd))) ∧
    ∃ v, wbase.issuing v perLane ((useSrc false false ⟨4, false, false⟩ (v.active hd) ++ (upTo 4).flatMap (fun i => useS (BitVec.ofNat 8 (60 + i)) (v.active hd))) ++
      useDst false false 2 (v.active hd)) :=
  ⟨State.canIssue_spec (us := fun v => (useSrc false false ⟨4, false, false⟩ (v.active hd) ++ useRun 8 248 (v.active hd) false) ++
      useDst false false 2 (v.active hd)) (by decide +kernel),
    State.canIssue_spec (us := fun v => (useSrc false false ⟨4, false, false⟩ (v.active hd) ++ (upTo 4).flatMap (fun i => useS (BitVec.ofNat 8 (60 + i)) (v.active hd))) ++
      useDst false false 2 (v.active hd)) (by decide +kernel)⟩

/-! ### Witnesses: control, traps, registers, slots -/

def atwo : Opnd := ⟨4, true, false⟩
theorem witness_BranchesSortLanes : (∃ v, wbase.issuing v perLane (useSrc false true atwo (v.active hd) ++ useDst false true 254 (v.active hd)) ∧
      ∀ l ∈ lanesOf (v.active hd), (v.src false .n64 atwo l).extractLsb' 0 2 = 0#2) ∧
    (∃ v, wbase.issuing v perLane (useRun 1 255 (v.active hd) false)) ∧
    (∃ v, wbase.issuing v perLane [⟨.r (.s 63), v.mask hd true, true, false⟩] ∧ v.scalarGuard hd = true ∧ v.scalarGuard hno = false) ∧
    (∃ v, (wfib (wscal 4 2)).issuing v perLane (useSrc false true atwo (v.active hd) ++ useDst false true 254 (v.active hd)) ∧
      (maskOf fun k => (v.active hd).getLsbD k && (v.src false .n64 atwo k).extractLsb' 0 2 != 0#2).getLsbD 0 = true) ∧
    (let f := newFibre placedLaunch 1 ⟨0, 0, 0⟩ 0 0 0 0 0 0
     ∃ g ∈ f.gangs, g.lanes ≠ 0 ∧ (f.gangs.map (·.id)).Nodup ∧ ∀ x ∈ f.gangs, x.id < f.nextGang) :=
  ⟨meets (us := fun v => useSrc false true atwo (v.active hd) ++ useDst false true 254 (v.active hd)) (by decide +kernel) (by decide +kernel),
    State.canIssue_spec (us := fun v => useRun 1 255 (v.active hd) false) (by decide +kernel),
    meets (us := fun v => [⟨.r (.s 63), v.mask hd true, true, false⟩]) (by decide +kernel) (by decide +kernel),
    meets (us := fun v => useSrc false true atwo (v.active hd) ++ useDst false true 254 (v.active hd)) (by decide +kernel) (by decide +kernel), by decide +kernel⟩

/-- Two gangs, of which the second waits at the rendezvous `i`. -/
def wparted (st : GangSt) (pc : VA) (f : Fibre) : Fibre :=
  { f with gangs := [{ id := 0, lanes := 0xFFFF, pc := 0, st := .run, count := 64 }, { id := 1, lanes := 0xFFFF0000, pc := pc, st := st, count := 0 }], nextGang := 2 }
theorem witness_RegangMeets :
    (∃ v, (wfib (wparted (.rendezvous 0) 0)).issuing v perLane (useS 4 v.g.lanes) ∧ 1 < v.f.gangs.length) ∧
    (∃ v, (wfib (wparted (.rendezvous 0) 16)).issuing v perLane (useS 4 v.g.lanes) ∧ 1 < v.f.gangs.length) ∧
    ∃ v, (wfib (wparted .run 0)).issuing v perLane (useS 4 v.g.lanes) ∧ 1 < v.f.gangs.length :=
  ⟨meets (us := fun v => useS 4 v.g.lanes) (by decide +kernel) (by decide +kernel), meets (us := fun v => useS 4 v.g.lanes) (by decide +kernel) (by decide +kernel),
    meets (us := fun v => useS 4 v.g.lanes) (by decide +kernel) (by decide +kernel)⟩

theorem witness_PlainControlAndTraps : (∃ v, wbase.issuing v perLane [] ∧ v.active hd ≠ 0 ∧ v.active hno = 0) ∧
    ∃ v, wbase.issuing v perLane (useS 4 v.g.lanes) ∧ v.f.gangs.length ≤ 1 :=
  ⟨meets (us := fun _ => []) (by decide +kernel) (by decide +kernel), meets (us := fun v => useS 4 v.g.lanes) (by decide +kernel) (by decide +kernel)⟩

/-- The fibre in handler mode in a context with the sysop bit. -/
def whand : State := { (wfib fun f => { f with hmode := true }) with ctxs := wbase.ctxs.map fun c => { c with sysop := true } }
theorem witness_SpecialRegisters : (∃ v, wbase.issuing v perLane (useDst false true 254 (v.mask hd false)) ∧ v.f.out = []) ∧
    (∃ v, (wfib fun f => { f with out := [wout] }).issuing v perLane [] ∧ v.f.out ≠ [] ∧ v.runs hd false ≠ []) ∧
    (∃ v, wbase.issuing v perLane (useSrc false true ⟨4, true, false⟩ (v.active hd)) ∧ v.active hd ≠ 0) ∧
    (∃ v, whand.issuing v privileged (useS 4 v.g.lanes) ∧ v.c.sysop = true ∧ (v.sval 4).toNat ≤ 2 ^ 56) ∧
    (∃ v, (whand.modFibre ⟨0, 0, 0⟩ (wscal 4 (BitVec.ofNat 64 (2 ^ 56 + 1)))).issuing v privileged (useS 4 v.g.lanes) ∧ v.c.sysop = true ∧ 2 ^ 56 < (v.sval 4).toNat) ∧
    ∃ v, wbase.issuing v perLane (defS 63 v.g.lanes) :=
  ⟨meets (us := fun v => useDst false true 254 (v.mask hd false)) (by decide +kernel) (by decide +kernel),
    meets (us := fun _ => []) (by decide +kernel) (by decide +kernel),
    meets (us := fun v => useSrc false true ⟨4, true, false⟩ (v.active hd)) (by decide +kernel) (by decide +kernel),
    meets (us := fun v => useS 4 v.g.lanes) (by decide +kernel) (by decide +kernel), meets (us := fun v => useS 4 v.g.lanes) (by decide +kernel) (by decide +kernel),
    State.canIssue_spec (us := fun v => defS 63 v.g.lanes) (by decide +kernel)⟩

/-- Each condition of the order of checks comes about: outside handler mode, in a parted fibre, beyond the window, on a pending row, on a dead row. -/
theorem witness_ChecksComeInOrder :
    (∃ v, wbase.view? = some v ∧ v.f.hmode = false) ∧ (∃ v, (wfib (wparted .run 0)).view? = some v ∧ 1 < v.f.gangs.length) ∧
    (∃ v, wbase.view? = some v ∧ (∃ u ∈ useRun 2 255 v.g.lanes false, u.outside v ≠ 0)) ∧
    (∃ v, (wslot fun x => { x with pend := [0] }).view? = some v ∧ ∃ u ∈ useRun 1 0 v.g.lanes false, u.hazard v ≠ 0) ∧
    (∃ v, wbase.view? = some v ∧ ∃ u ∈ useRun 1 0 v.g.lanes false, u.dead v ≠ 0) ∧
    (∃ v, wbase.issuing v perLane (useS 4 v.g.lanes) ∧ v.replaying = none ∧ v.f.fenced = false) ∧
    ∃ v, (wfib fun f => { f with hmode := true }).issuing v privileged [] :=
  ⟨sees (by decide +kernel), sees (by decide +kernel), sees (by decide +kernel), sees (by decide +kernel), sees (by decide +kernel), meets (us := fun v => useS 4 v.g.lanes) (by decide +kernel) (by decide +kernel),
    State.canIssue_spec (us := fun _ => []) (by decide +kernel)⟩

theorem witness_PrivilegedInstructionsTrap : (∃ v, wbase.view? = some v ∧ v.f.hmode = false ∧ v.replaying = none ∧ v.c.sysop = false) ∧
    (∃ v, (wfib fun f => { f with hmode := true }).issuing v privileged []) ∧
    (∃ v, (wfib fun f => { f with hmode := true }).issuing v privileged (useS 4 v.g.lanes ++ useS 5 v.g.lanes)) ∧
    ∃ v, (wfib fun f => { f with hmode := true }).issuing v privileged (useS 4 v.g.lanes) ∧ v.c.sysop = false ∧ v.replaying = none ∧ v.f.out.any (·.fence) = false :=
  ⟨sees (by decide +kernel), State.canIssue_spec (us := fun _ => []) (by decide +kernel),
    State.canIssue_spec (us := fun v => useS 4 v.g.lanes ++ useS 5 v.g.lanes) (by decide +kernel), meets (us := fun v => useS 4 v.g.lanes) (by decide +kernel) (by decide +kernel)⟩

def wtrap (c : Trap) : TrapRec := { code := c, info := 0, emask := 1, eaddr := 0, epc := 0, rp := false, asy := false }
/-- An instruction at address 0 that replays, with one lane done or none. -/
def wbitmap (done : Mask) : Replay := { gang := 0, pc := 0, done := done, upds := [.s 9 1], rows := [], regs := [.s 9], noAlloc := [], err := none, mute := false }
/-- A handler at 64 and none; outstanding results and none; handler mode; a breakpoint under dbh. -/
def whdl : State := { wbase with kernels := wbase.kernels.map fun k => { k with rcd := some { placedLaunch with handler := 64 } } }
theorem witness_TrapsEnterHandler :
    (∃ f ∈ whdl.fibres, whdl.fibre? f.ref = some f ∧ f.bitmapAt 0 0 = none ∧ f.hmode = false ∧ whdl.handlerOf f ≠ 0 ∧ f.out = [] ∧ (wtrap .softTrap).code ≠ .breakpoint) ∧
    (∃ f ∈ (whdl.modFibre ⟨0, 0, 0⟩ fun f => { f with out := [wout] }).fibres, f.bitmapAt 0 0 = none ∧ f.out ≠ []) ∧
    (∀ r ∈ [wbitmap 1, wbitmap 0], ∃ f ∈ (whdl.modFibre ⟨0, 0, 0⟩ fun f => { f with replay := [r] }).fibres, f.bitmapAt 0 0 = some r ∧ f.hmode = false ∧
      (whdl.modFibre ⟨0, 0, 0⟩ fun f => { f with replay := [r] }).handlerOf f ≠ 0) ∧
    (∃ f ∈ wbase.fibres, ∃ c ∈ wbase.ctxs, wbase.fibre? f.ref = some f ∧ wbase.ctx? f.asid = some c ∧ f.bitmapAt 0 0 = none ∧ wbase.handlerOf f = 0 ∧ c.fault = none) ∧
    (∃ f ∈ wbase.fibres, ∃ c ∈ wbase.ctxs, wbase.fibre? f.ref = some f ∧
      ({ wbase with ctxs := [{ c with dbh := true }] } : State).ctx? f.asid = some { c with dbh := true } ∧ (wtrap .breakpoint).code = .breakpoint) := by decide +kernel

theorem witness_ReturnFromTrap : (∃ v, whand.issuing v privileged [] ∧ v.f.epc.extractLsb' 0 2 = 0#2 ∧ v.f.loaded = none) ∧
    (∃ v, (whand.modFibre ⟨0, 0, 0⟩ fun f => { f with epc := 0, tookAt := 0, ecause := 0x10000, trapped := some (wbitmap 1) }).issuing v privileged [] ∧
      v.f.loaded = none ∧ v.f.ecause.getLsbD 16 = true ∧ v.f.epc.setWidth 56 = v.f.tookAt ∧ v.f.trapped = some (wbitmap 1)) ∧
    ∃ v, (whand.modFibre ⟨0, 0, 0⟩ fun f => { f with epc := 2 }).issuing v privileged [] ∧ v.f.epc.extractLsb' 0 2 ≠ 0#2 :=
  ⟨meets (us := fun _ => []) (by decide +kernel) (by decide +kernel), meets (us := fun _ => []) (by decide +kernel) (by decide +kernel),
    meets (us := fun _ => []) (by decide +kernel) (by decide +kernel)⟩

theorem witness_RegisterWrites : (∃ f ∈ wbase.fibres, ∃ sl ∈ wbase.slots, wbase.fibre? f.ref = some f ∧ wbase.slot? f = some sl) ∧
    ∃ v, wbase.view? = some v ∧ quotaRow v.f.quota 254 = some 254 ∧ quotaRow v.f.quota 255 ≠ some 254 ∧ v.scalarGuard hd = true ∧
      ∀ u ∈ useDst false true 254 v.g.lanes, u.dead v = 0 :=
  ⟨by decide +kernel, sees (by decide +kernel)⟩

theorem witness_LaneInstructionFrame : ∃ v, wbase.view? = some v := State.canIssue_spec (k := perLane) (us := fun _ => []) (by decide +kernel) |>.imp fun _ h => h.1

theorem witness_LongResultsReturn : (∃ v, wbase.view? = some v ∧ v.active hd ≠ 0 ∧ quotaRow v.f.quota 0 = some 0) ∧
    (let s := wfib fun f => { f with out := [wout] }
     ∃ f ∈ s.fibres, ∃ sl ∈ s.slots, s.fibre? f.ref = some f ∧ s.slot? f = some sl ∧ f.out[0]? = some wout ∧ (∀ x ∈ f.out, x.id = wout.id → x = wout) ∧ wout.remote = []) ∧
    (let o : Out := { wout with err := some (wtrap .dataError) }
     let s := wfib fun f => { f with out := [o] }
     ∃ f ∈ s.fibres, s.fibre? f.ref = some f ∧ f.out[0]? = some o ∧ o.err ≠ none) :=
  ⟨sees (by decide +kernel), by decide +kernel, by decide +kernel⟩

/-- A giver whose window of three granules lies directly above a taker's: what moves, what does not fit, what is pending. -/
def wgive (p : List Nat) : State :=
  let s := wfib fun f => wscal 4 1 (wscal 5 2 { f with quota := { quotaOf f.quota with pbase := 2, plo := 0, pcount := 24 }.bits })
  { s with fibres := s.fibres ++ [{ wother with quota := { quotaOf wother.quota with pbase := 0, plo := 0, pcount := 13 }.bits }]
           slots := s.slots.map fun x => { x with pend := p } }
abbrev wgives (s : State) (g : Nat) (v : View) : Prop := ∃ tk ∈ s.fibres, (s.slotLive 0 0 v.f.slot).find? (fun x => x.ref.fib == 1 && x.ref != v.f.ref) = some tk ∧
    let gq := quotaOf v.f.quota
    let tq := quotaOf tk.quota
    g ≤ 32 ∧ tq.pbase + ceilDiv tq.pcount 8 = gq.pbase + gq.plo ∧ gq.plo + g ≤ ceilDiv gq.pcount 8 - 1 ∧
      8 * (ceilDiv tq.pcount 8 + g) ≤ 256 - (if tq.sa then tq.scount else 0)
theorem witness_RequotaMovesGranules :
    (∃ v, (wgive []).issuing v collective (useS 4 v.g.lanes ++ useS 5 v.g.lanes) ∧ ((v.sval 4).setWidth 6).toNat = 1 ∧ ((v.sval 5).setWidth 6).toNat = 2 ∧
      v.sl.pend = [] ∧ wgives (wgive []) 2 v ∧ ¬wgives (wgive []) 3 v) ∧
    (∃ v, (wgive [16]).issuing v collective (useS 4 v.g.lanes ++ useS 5 v.g.lanes) ∧ wgives (wgive [16]) 2 v ∧ ∃ r ∈ v.sl.pend, 16 ≤ r ∧ r < 32) ∧
    (∃ v, wbase.issuing v collective (useS 4 v.g.lanes ++ useS 5 v.g.lanes) ∧ ∀ x ∈ wbase.slotLive 0 0 0, x.ref.fib = 1 → x.ref = v.f.ref) :=
  ⟨meets (us := fun v => useS 4 v.g.lanes ++ useS 5 v.g.lanes)
      (by decide +kernel) (by decide +kernel),
    meets (us := fun v => useS 4 v.g.lanes ++ useS 5 v.g.lanes) (by decide +kernel) (by decide +kernel),
    meets (us := fun v => useS 4 v.g.lanes ++ useS 5 v.g.lanes) (by decide +kernel) (by decide +kernel)⟩

abbrev wfl (v : View) : List Use := useS 4 v.g.lanes ++ useS 5 v.g.lanes
def wsl (u : Slot → Slot) (g : Fibre → Fibre) : State := { wslot u with fibres := (wbase.fibres ++ [wother]).map g }
/-- No amount, an amount with nothing outstanding, with results outstanding, and with enough in the flag; the last and an earlier arrival, at once or deferred. -/
theorem witness_FlagsAndBarriers :
    (∃ v, wbase.issuing v collective (wfl v) ∧ ((v.sval 5).setWidth 8).toNat = 0 ∧ v.f.out = [] ∧ v.f.arrivals = [] ∧
      (wbase.slotLive v.f.ref.cl v.f.ref.team v.f.slot).length = v.sl.bars[0]! + 1) ∧
    (∃ v, (wfib (wscal 5 2)).issuing v collective (wfl v) ∧ v.f.out = [] ∧ v.f.posts = [] ∧ ((v.sval 5).setWidth 8).toNat ≠ 0 ∧ v.sl.flags[0]! < 2) ∧
    (∃ v, ({ wfib (fun f => { wscal 5 2 f with out := [wout] }) with slots := wbase.slots.map fun x => { x with flags := x.flags.set! 0 2 } } : State).issuing v
      collective (wfl v) ∧ v.f.out ≠ [] ∧ (∀ q ∈ v.sl.queue, q.1 ≠ 0) ∧ 2 ≤ v.sl.flags[0]! ∧ v.sl.bars[0]! + 1 + 0 = 1) ∧
    ∃ v, (wsl id id).issuing v collective (useS 4 v.g.lanes) ∧ v.f.out = [] ∧ v.sl.bars[0]! + 1 < ((wsl id id).slotLive v.f.ref.cl v.f.ref.team v.f.slot).length :=
  ⟨meets (us := wfl) (by decide +kernel) (by decide +kernel), meets (us := wfl) (by decide +kernel) (by decide +kernel),
    meets (us := wfl) (by decide +kernel) (by decide +kernel), meets (us := fun v => useS 4 v.g.lanes) (by decide +kernel) (by decide +kernel)⟩

/-- A deferred post and arrival whose results have and have not returned; a fibre that is urgent beside the holder and one that is not; a parted fibre at its limit. -/
theorem witness_SlotEventsComplete :
    (∀ out ∈ [[], [wout]], ∃ x ∈ (wsl id fun f => { f with posts := [(1, 2, [5])], arrivals := [(3, [5])], out := out }).fibres,
      (wsl id fun f => { f with posts := [(1, 2, [5])], arrivals := [(3, [5])], out := out }).fibre? x.ref = some x ∧ x.posts = [(1, 2, [5])] ∧
      x.arrivals = [(3, [5])] ∧ x.out = out ∧ wout.id = 5 ∧ ((wsl id id).slot? x).isSome = true) ∧
    (∀ age ∈ [127, 128], ∃ x ∈ (wsl (fun y => { y with holder := some 0 }) fun f => { f with age := age }).fibres, x.ref = ⟨0, 0, 1⟩ ∧ x.st = .run ∧ x.age = age ∧
      ((wsl (fun y => { y with holder := some 0 }) fun f => { f with age := age }).slot? x).any (fun y => y.holder != some x.pos) = true) ∧
    (∃ x ∈ (wfib (wparted .run 0)).fibres, 1 < x.gangs.length ∧ ∃ g ∈ x.gangs, g.id = x.turn ∧ 64 ≤ g.count) ∧
    (∃ x ∈ (wfib (wparted .run 0)).fibres, (x.gangs.map (·.id)).Nodup ∧ ∃ g y, x.gangs = [] ++ g :: [y] ∧ x.turn = g.id ∧ x.mayTurn y = true) := by
  refine ⟨by decide +kernel, by decide +kernel, by decide +kernel, ?_⟩
  refine ⟨wparted .run 0 (newFibre placedLaunch 1 ⟨0, 0, 0⟩ 0 0 0 0 0 0), by decide +kernel, by decide +kernel,
    { id := 0, lanes := 0xFFFF, pc := 0, st := .run, count := 64 }, { id := 1, lanes := 0xFFFF0000, pc := 0, st := .run, count := 0 }, by decide +kernel⟩

/-! ### Witnesses: groups and barriers -/

/-- The fibre is the member of group 7, of `n` members of which `a` have arrived, in its group slot 0. -/
def wgroup (n a : Nat) (k : Option GroupKind) (arr : List (Nat × BitVec 16)) : State :=
  let s := wfib fun f => { f with grp := 1, g := f.g.set! 0 7, garr := arr }
  { s with kernels := s.kernels.map fun x => { x with groups := [{ id := 7, res := 0, n := n, a := a, phase := 0, scope := .device, lvl := 2, kind := k, acc := [] }] } }
abbrev wentry (v : View) : Option Group := (v.f.groupSlot 0).bind v.k.group?

/-- The fibre awaits the reply to a request. -/
def wlate : State := (wgroup 3 0 none []).modFibre ⟨0, 0, 0⟩ fun f => { f with out := [{ wout with remote := [99] }] }
/-- Group 7 is there: the fibre arrives as the last or not, has arrived, meets a phase of another kind; and its slot names no group. -/
theorem witness_GroupInstructions :
    (∃ v, (wgroup 1 0 none []).issuing v collective (useS 4 v.g.lanes ++ defS 63 v.g.lanes) ∧ (∃ e ∈ wentry v, aget v.f.garr 0 ≠ some e.phase ∧ e.a = 0 ∧ e.n ≤ e.a + 1) ∧
      (wgroup 1 0 none []).releaseWaits v.f .device = []) ∧
    (∃ v, (wgroup 3 1 (some (.reduce .add .n32)) []).issuing v collective (useS 4 v.g.lanes ++ defS 63 v.g.lanes) ∧
      ∃ e ∈ wentry v, e.kind = some (.reduce .add .n32) ∧ e.kind ≠ some .barrier ∧ e.a ≠ 0 ∧ e.a + 1 < e.n) ∧
    (∃ v, wlate.issuing v collective (useS 4 v.g.lanes ++ defS 63 v.g.lanes) ∧ wlate.releaseWaits v.f .device ≠ [] ∧
      ∃ e ∈ wentry v, e.scope = .device ∧ aget v.f.garr 0 ≠ some e.phase ∧ e.a = 0) ∧
    (∃ v, (wgroup 3 1 (some .barrier) [(0, 0)]).issuing v collective [] ∧ ∃ e ∈ wentry v, aget v.f.garr 0 = some e.phase ∧ e.kind ≠ some (.reduce .add .n32)) ∧
    (∃ v, (wgroup 1 0 none []).issuing v collective (useS 4 v.g.lanes) ∧ ∃ e ∈ wentry v, e.phase = (v.sval 4).setWidth 16) ∧
    (∃ v, wbase.issuing v collective (useS 4 v.g.lanes ++ defS 63 v.g.lanes) ∧ wentry v = none) :=
  ⟨meets (us := fun v => useS 4 v.g.lanes ++ defS 63 v.g.lanes) (by decide +kernel) (by decide +kernel),
    meets (us := fun v => useS 4 v.g.lanes ++ defS 63 v.g.lanes) (by decide +kernel) (by decide +kernel),
    meets (us := fun v => useS 4 v.g.lanes ++ defS 63 v.g.lanes) (by decide +kernel) (by decide +kernel),
    meets (us := fun _ => []) (by decide +kernel) (by decide +kernel), meets (us := fun v => useS 4 v.g.lanes) (by decide +kernel) (by decide +kernel),
    meets (us := fun v => useS 4 v.g.lanes ++ defS 63 v.g.lanes) (by decide +kernel) (by decide +kernel)⟩

/-- A phase of three, a fibre of it that leaves as the last awaited, one that leaves before that, and the last member. -/
theorem witness_PhasesAndReductions : ([1, 2] : List DWord).Perm [2, 1] ∧ ∀ p ∈ [(3, 2), (3, 1), (1, 0)], ∃ x ∈ (wgroup p.1 p.2 none []).kernels, ∃ e ∈ x.groups, ∃ f ∈ (wgroup p.1 p.2 none []).fibres,
    (wgroup p.1 p.2 none []).kernel? x.ref = some x ∧ x.group? e.id = some e ∧ (x.groups.map (·.id)).Nodup ∧ f.kern = x.ref ∧ f.groupSlot 0 = some e.id ∧
    (∀ j < 4, j ≠ 0 → f.groupSlot j = none) ∧ e.n = p.1 ∧ e.a = p.2 :=
  ⟨List.Perm.swap _ _ _, by decide +kernel⟩

/-- A barrier word of value `x` at 0x1000, with its tag or without. -/
def wbar (tag : Bool) (x : Nat) (cut : DWord) : State :=
  { wfib (fun f => wscal 4 0x1000 (wscal 5 cut f)) with mem := putBytes wbase.mem 0x1000 (leBytes 8 x), tags := if tag then [0x200] else [] }
abbrev wbarOk (s : State) (v : View) (tag : Bool) (p : BarWord → Prop) [DecidablePred p] : Prop :=
  v.fresh ∧ v.canReach s .gl .both (v.wideAccs (barAddr v .gl 4) 8 8) = true ∧ ∃ t ∈ v.barWord s .gl 4,
    let s0 := v.cached s .gl .both (v.wideAccs (barAddr v .gl 4) 8 8)
    s0.peekPoison t.place none 8 = false ∧ (match t with | .mem m => m.hbm && m.w && m.r && !m.rp | .pad .. => true) = true ∧
    (s0.barAt t.place).2 = tag ∧ p (s0.barAt t.place).1
theorem reaches_of {v : View} {s : State} {sp : Space} {need : Need} {as : List Access} (h : v.canReach s sp need as = true) : v.reaches s sp need as := by
  intro a ha
  have h1 := List.all_eq_true.1 h a ha
  simp only [Bool.and_eq_true] at h1
  refine ⟨h1.1.1, h1.1.2, fun y hy => ?_⟩
  have h2 := List.all_eq_true.1 h1.2 y hy
  cases hs : y.1 with
  | pad => trivial
  | va z =>
    simp only [hs] at h2 ⊢
    revert h2
    cases hx : s.xlat v.agent v.c (z / 2 ^ 16 * 2 ^ 16) need with
    | ok e => exact fun _ => ⟨e, rfl⟩
    | _ => intro h2; simp only [Bool.false_eq_true] at h2

/-- A word without a tag, with a tag and an expected count of 1 and of 2, with a count of 0; the cut 0, equal to the phase, and another. -/
theorem witness_BarrierInstructions :
    (∃ v, (wbar false 0 3).issuing v perLane (useS 4 v.g.lanes ++ useS 5 v.g.lanes) ∧ wbarOk (wbar false 0 3) v false fun _ => True) ∧
    (∃ v, (wbar true (BarWord.value ⟨0, 1, 0⟩) 0).issuing v perLane (useS 4 v.g.lanes ++ useS 5 v.g.lanes) ∧
      wbarOk (wbar true (BarWord.value ⟨0, 1, 0⟩) 0) v true fun w => w.gen = 0 ∧ w.n = 1 ∧ w.a < w.n) ∧
    (∃ v, (wbar true (BarWord.value ⟨9, 2, 0⟩) 3).issuing v perLane (useS 4 v.g.lanes ++ defS 63 v.g.lanes) ∧
      wbarOk (wbar true (BarWord.value ⟨9, 2, 0⟩) 3) v true fun w => w.gen = 9 ∧ w.n = 2 ∧ w.a = 0) ∧
    (let s := (wbar true (BarWord.value ⟨9, 2, 0⟩) 3).modFibre ⟨0, 0, 0⟩ fun f => { f with out := [{ wout with remote := [99] }] }
     ∃ v, s.issuing v perLane (useS 4 v.g.lanes ++ defS 63 v.g.lanes) ∧ (wbarOk s v true fun w => w.n = 2) ∧ s.releaseWaits v.f .device ≠ []) ∧
    (∃ v, (wbar true 0 3).issuing v perLane (useS 4 v.g.lanes) ∧ wbarOk (wbar true 0 3) v true fun w => w.n = 0) ∧
    ((⟨65535, 65535, 65535⟩ : BarWord).n < 2 ^ 16 ∧ Memory.wf wbase.mem = true ∧ ∃ t ∈ wbase.teams, wbase.team? 0 0 = some t ∧ Memory.wf t.pad = true) :=
  ⟨meets (us := fun v => useS 4 v.g.lanes ++ useS 5 v.g.lanes) (by decide +kernel) (by decide +kernel),
    meets (us := fun v => useS 4 v.g.lanes ++ useS 5 v.g.lanes) (by decide +kernel) (by decide +kernel),
    meets (us := fun v => useS 4 v.g.lanes ++ defS 63 v.g.lanes) (by decide +kernel) (by decide +kernel),
    meets (us := fun v => useS 4 v.g.lanes ++ defS 63 v.g.lanes) (by decide +kernel) (by decide +kernel),
    meets (us := fun v => useS 4 v.g.lanes) (by decide +kernel) (by decide +kernel), by decide +kernel⟩

abbrev waccs (v : View) (h : Hdr) (n : Nat) : List Access := (lanesOf (v.active h)).map fun l => accessOf l (v.addrOf false .gl atwo 0 l) n n
/-- The 4-byte flag at 0x1000 holds 1: satisfied for eq 1, not for eq 0. -/
def wflag : State := { wfib (fun f => wscal 4 0x1000 (wscal 5 1 f)) with mem := putByte wbase.mem 0x1000 1 }
abbrev wcmpOk (v : View) (b : Opnd) (met : Bool) : Prop :=
  let words : List (Nat × VA × Place × DWord) := (v.placed wflag .gl .read (waccs v hd 4)).filterMap fun r => r.parts.head?.map fun q =>
    (r.lane, BitVec.ofNat 56 r.addr, q.1.place, v.src false .n32 b r.lane)
  let s0 := (v.cached wflag .gl .read (waccs v hd 4)).syncWords v.agent none 4 words
  v.fresh ∧ v.canReach wflag .gl .read (waccs v hd 4) = true ∧ v.active hd ≠ 0 ∧ words ≠ [] ∧
  ∀ x ∈ words, s0.peekPoison x.2.2.1 none 4 = false ∧
    Cond.holds .eq (asInt .n32 (BitVec.ofNat 64 (s0.peek x.2.2.1 none 4))) (asInt .n32 x.2.2.2) = met
theorem witness_WaitcmpCompletesOrWaits :
    (∃ v, wflag.issuing v perLane (useSrc false true atwo (v.active hd) ++ useSrc false false ⟨5, true, false⟩ (v.active hd) ++ useDst false false 255 (v.active hd)) ∧
      wcmpOk v ⟨5, true, false⟩ true) ∧
    ∃ v, wflag.issuing v perLane (useSrc false true atwo (v.active hd) ++ useSrc false false ⟨6, true, false⟩ (v.active hd) ++ useDst false false 255 (v.active hd)) ∧
      wcmpOk v ⟨6, true, false⟩ false :=
  ⟨meets (us := fun v => useSrc false true atwo (v.active hd) ++ useSrc false false ⟨5, true, false⟩ (v.active hd) ++ useDst false false 255 (v.active hd)) (by decide +kernel)
      (by decide +kernel),
    meets (us := fun v => useSrc false true atwo (v.active hd) ++ useSrc false false ⟨6, true, false⟩ (v.active hd) ++ useDst false false 255 (v.active hd)) (by decide +kernel)
      (by decide +kernel)⟩

/-! ### Witnesses: memory -/

/-- An own request to block 0 of the device itself is open, with a number as the next instruction's requests have: they go its way. -/
def wreq (u : ReplyUse) : Request :=
  { id := 150, f := ⟨0, 0, 0⟩, lanes := 1, dst := 0, mc := false, path := .self, limit := 1, tries := 0, backoff := false, resent := false, answer := none, broken := none, use := u
    req := { sdev := 0, sasid := 1, asid := 1, va := 0, op := .read 4, seq := none, lowest := 0, inc := none, arv := none, scope := .device } }
def wrem : State :=
  { wfib (fun f => wscal 8 0x10000 { f with seg := f.seg.set! 5 { base := 0, limit := BitVec.ofNat 64 (2 ^ 56) } }) with requests := [wreq .nothing], nextId := 100 }
/-- Every lane at the address that s4 holds. -/
def wat (x : DWord) : State := wfib (wscal 4 x)
/-- The same, with a constant space of 256 bytes. -/
def wko : State := wfib fun f => wscal 4 0 { f with seg := f.seg.set! 4 { base := 0, limit := 256 } }
/-- The same, while a request of the fibre is open. -/
def wopenReq : State := { wat 0x1000 with requests := [{ wreq (.scalar 9 9 .n32) with path := .plane 0 0 }] }
abbrev wclean (v : View) (s : State) (sp : Space) (need : Need) (as : List Access) : Prop := ∀ r ∈ v.placed s sp need as, ∀ p ∈ r.parts, s.isTagged p.1 = false

theorem witness_LoadsAndGathersComplete :
    (∃ v, (wat 0xFFFC).issuing v perLane (ldUses hd false .one .gl .n32 255 atwo 0 v) ∧ v.fresh ∧ v.runs hd false ≠ [] ∧
      v.canReach (wat 0xFFFC) .gl .read (waccs v hd 4) = true) ∧
    (∃ v, (wat 0).issuing v perLane (ldUses hno false .four .tm .n32 252 atwo 0 v) ∧ v.fresh ∧ v.runs hno false = []) ∧
    (∃ v, wrem.issuing v perLane (ldUses hd false .one .rm .n32 2 atwo 8 v) ∧ v.fresh ∧ v.f.xfenced = false ∧
      (∀ l ∈ v.runs hd false, v.inSegment .rm (v.addrOf false .rm atwo 0 l) 4 = true ∧ v.addrOf false .rm atwo 0 l % 4 = 0) ∧
      (wrem.sendEach v (v.targetDev 8) false wrem.nextId ((v.runs hd false).map fun l => (maskOf (· == l),
        v.request (v.targetAsid 8) (BitVec.ofNat 56 (v.addrOf false .rm atwo 0 l)) (.read 4) .device, v.remoteDst false .n32 2 1 l))).isSome = true) ∧
    (∃ v, (wat 0x1000).issuing v perLane (gathUses hd .gl atwo ⟨6, true, false⟩ 7 v ++ defRun 1 2 (v.active hd)) ∧ v.fresh ∧ v.active hd ≠ 0 ∧
      v.canReach (wat 0x1000) .gl .read (waccs v hd 4) = true) ∧
    (∃ v, wko.issuing v perLane (gathUses hd .ko ⟨4, false, false⟩ ⟨6, true, false⟩ 7 v ++ useRun 1 2 (v.active hd) false) ∧ v.fresh ∧ v.active hd &&& ~~~(~~~(v.active hd)) ≠ 0 ∧
      ∀ l ∈ lanesOf (v.active hd), v.inSegment .ko (v.addrOf false .ko ⟨4, false, false⟩ (asInt .n32 (v.src false .n32 ⟨6, true, false⟩ l) * 4) l) 4 = true ∧
        v.addrOf false .ko ⟨4, false, false⟩ (asInt .n32 (v.src false .n32 ⟨6, true, false⟩ l) * 4) l % 4 = 0) ∧
    ∃ v, (wat 0x1000).issuing v perLane (gathUses hd .gl atwo ⟨6, true, false⟩ 7 v ++ useRun 1 2 (v.active hd) false) ∧ v.fresh ∧ v.active hd ≠ 0 ∧
      v.canReach (wat 0x1000) .gl .write (waccs v hd 4) = true ∧ wclean v (wat 0x1000) .gl .write (waccs v hd 4) :=
  ⟨meets (us := ldUses hd false .one .gl .n32 255 atwo 0) (by decide +kernel) (by decide +kernel),
    meets (us := ldUses hno false .four .tm .n32 252 atwo 0) (by decide +kernel) (by decide +kernel),
    meets (us := ldUses hd false .one .rm .n32 2 atwo 8) (by decide +kernel) (by decide +kernel),
    meets (us := fun v => gathUses hd .gl atwo ⟨6, true, false⟩ 7 v ++ defRun 1 2 (v.active hd)) (by decide +kernel) (by decide +kernel),
    meets (us := fun v => gathUses hd .ko ⟨4, false, false⟩ ⟨6, true, false⟩ 7 v ++ useRun 1 2 (v.active hd) false) (by decide +kernel) (by decide +kernel),
    meets (us := fun v => gathUses hd .gl atwo ⟨6, true, false⟩ 7 v ++ useRun 1 2 (v.active hd) false) (by decide +kernel) (by decide +kernel)⟩

/-- A part in one word of a page of the zero key whose home is there. -/
def wplain (s : State) (p : Target × Nat) : Bool :=
  match p.1 with | .mem x => x.key == 0 && !s.gone (some x.die) x.pa && decide (x.pa % 4 + p.2 ≤ 4) | .pad .. => true
abbrev wstUses (sp : Space) (c : BitVec 8) (v : View) : List Use := addrUses false sp atwo c (v.active hd) ++ useRun 1 6 (v.active hd) true
theorem witness_StoresComplete :
    (∃ v, (wat 0xFFFC).issuing v perLane (wstUses .gl 0 v) ∧ v.fresh ∧ (∀ o ∈ v.f.out, o.remote = []) ∧ v.canReach (wat 0xFFFC) .gl .write (waccs v hd 4) = true ∧
      wclean v (wat 0xFFFC) .gl .write (waccs v hd 4) ∧
      (∀ r ∈ v.placed (wat 0xFFFC) .gl .write (waccs v hd 4), ∀ p ∈ r.parts, wplain (wat 0xFFFC) p = true) ∧
      ((wat 0xFFFC).linesAt (.l1 v.core)).length + ((v.placed (wat 0xFFFC) .gl .write (waccs v hd 4)).map fun r => r.parts.length).sum ≤ (wat 0xFFFC).linesFor (.l1 v.core) ∧
      ((wat 0xFFFC).linesAt (.dc v.die)).length + ((v.placed (wat 0xFFFC) .gl .write (waccs v hd 4)).map fun r => r.parts.length).sum ≤ (wat 0xFFFC).linesFor (.dc v.die)) ∧
    (∃ v, (wat 0xBFFC).issuing v perLane (wstUses .tm 0 v) ∧ v.fresh ∧ v.canReach (wat 0xBFFC) .tm .write
        ((lanesOf (v.active hd)).map fun l => accessOf l (v.addrOf false .tm atwo (dispOf .tm 0 4) l) 4 4) = true) ∧
    (∃ v, wko.issuing v perLane (wstUses .ko 0 v) ∧ v.fresh ∧ v.active hd ≠ 0 ∧
      ∀ l ∈ lanesOf (v.active hd), v.inSegment .ko (v.addrOf false .ko atwo (dispOf .ko 0 4) l) 4 = true ∧ v.addrOf false .ko atwo (dispOf .ko 0 4) l % 4 = 0) ∧
    ∃ v, wrem.issuing v perLane (wstUses .rm 8 v) ∧ v.fresh ∧ v.f.xfenced = false ∧
      (∀ l ∈ lanesOf (v.active hd), v.inSegment .rm (v.addrOf false .rm atwo 0 l) 4 = true ∧ v.addrOf false .rm atwo 0 l % 4 = 0) ∧
      (wrem.sendEach v (v.targetDev 8) false wrem.nextId ((lanesOf (v.active hd)).map fun l => (maskOf (· == l),
        v.request (v.targetAsid 8) (BitVec.ofNat 56 (v.addrOf false .rm atwo 0 l)) (.write (v.dataBytes .n32 .one ⟨6, false, true⟩ l)) .device, .nothing))).isSome = true :=
  ⟨meets (us := wstUses .gl 0) (by decide +kernel) (by decide +kernel), meets (us := wstUses .tm 0) (by decide +kernel) (by decide +kernel),
    meets (us := wstUses .ko 0) (by decide +kernel) (by decide +kernel), meets (us := wstUses .rm 8) (by decide +kernel) (by decide +kernel)⟩

def wmap : Mapped :=
  { pa := 0x1000, die := 0, va := 0x1000, asid := 1, key := 0, ms := false, na := false, rp := false, cp := false, hbm := true, host := false, w := true, r := true }
def wcopy : Copy := { pos := .l1 0, word := 0x400, val := 7, dirty := true, poison := false, asid := 1, va := 0x1000, home := 0, repl := false, cp := false, key := 0 }
/-- A word at 0x1000 of HBM, a word of the scratchpad, and a dirty word in the L1 of core 0. -/
theorem witness_StoredWordsAreRead : Memory.wf wbase.mem = true ∧ wbase.gone (some wmap.die) wmap.pa = false ∧ wmap.pa % 4 = 0 ∧
    (∀ c ∈ wbase.copies, c.word = wmap.pa / 4 → c.dirty = true → c.pos = .l1 0 ∨ c.pos = .dc 0) ∧
    (∃ t ∈ wbase.teams, wbase.team? 0 0 = some t ∧ Memory.wf t.pad = true) ∧
    (let s : State := { wbase with copies := [wcopy] }
     s.copy? (.l1 0) 0x400 = some wcopy ∧ wcopy.dirty = true ∧ s.gone (some wcopy.home) (4 * 0x400) = false ∧
      (∀ x ∈ s.copies, x.word = 0x400 → x.dirty = true → x.pos = .l1 0 ∨ x.pos = .dc 0) ∧
      ∀ x ∈ s.copies, x.word / 4 = 0x400 / 4 → x.dirty = true → x.key = wcopy.key) := by decide +kernel

abbrev watUses (v : View) (ty : Ty) (cas : Bool) : List Use :=
  useSrc false true atwo (v.active hd) ++ useSrc false ty.is64 ⟨6, false, false⟩ (v.active hd) ++ (if cas then useRun (runRegs ty .one) 8 (v.active hd) false else []) ++
    defRun (runRegs ty .one) 8 (v.active hd)
theorem witness_AtomicsApplyInLaneOrder :
    (∃ v, (wat 0x1000).issuing v perLane (watUses v .n64 true) ∧ v.fresh ∧ v.active hd ≠ 0 ∧ v.canReach (wat 0x1000) .gl .both (waccs v hd 8) = true ∧
      wclean v (wat 0x1000) .gl .both (waccs v hd 8) ∧ Space.gl ≠ .ko ∧ ∀ o ∈ v.f.out, o.remote = []) ∧
    (∃ v, wko.issuing v perLane (useSrc false false atwo (v.active hd) ++ useSrc false false ⟨6, false, false⟩ (v.active hd)) ∧ v.fresh ∧ v.active hd ≠ 0 ∧
      ∀ l ∈ lanesOf (v.active hd), v.inSegment .ko (v.addrOf false .ko atwo 0 l) 4 = true ∧ v.addrOf false .ko atwo 0 l % 4 = 0) ∧
    (Memory.wf wbase.mem = true ∧ wmap.pa % 4 = 0 ∧ wmap.ms = false ∧ (wmap.cp = true → (wbase.codeOf (wmap.pa / 256)).toNat < 9) ∧ wbase.gone (some wmap.die) wmap.pa = false ∧ wbase.poison.contains (wmap.pa / 4) = false ∧
      ∀ c ∈ wbase.copies, c.word = wmap.pa / 4 → c.dirty = true → c.pos ≠ .l1 0 ∧ c.pos ≠ .dc 0) :=
  ⟨meets (us := fun v => watUses v .n64 true) (by decide +kernel) (by decide +kernel),
    meets (us := fun v => useSrc false false atwo (v.active hd) ++ useSrc false false ⟨6, false, false⟩ (v.active hd)) (by decide +kernel) (by decide +kernel), by decide +kernel⟩

def wbnd : State := wfib fun f => wscal 4 0x1000 (wscal 5 0x2000 (wscal 6 4 f))
theorem witness_FencesLinesAndObjects :
    (∃ v, (wat 0x1000).issuing v perLane (addrUses false .gl atwo 0 (v.active hd)) ∧ v.fresh ∧ v.active hd ≠ 0 ∧
      v.canReach (wat 0x1000) .gl .read ((lanesOf (v.active hd)).map fun l => accessOf l (v.addrOf false .gl atwo (dispOf .gl 0 1) l) 1 1) = true ∧
      (wat 0x1000).releaseWaits v.f .device = [] ∧ ((wat 0x1000).linesAt (.l1 v.core)).length + 32 ≤ (wat 0x1000).linesFor (.l1 v.core) ∧
      ((wat 0x1000).linesAt (.dc v.die)).length + 32 ≤ (wat 0x1000).linesFor (.dc v.die)) ∧
    (∃ v, wopenReq.issuing v perLane (useSrc false true atwo (v.active hd) ++ useSrc false true ⟨6, true, false⟩ (v.active hd)) ∧ v.fresh ∧ v.active hd ≠ 0 ∧
      v.canReach wopenReq .gl .write (waccs v hd 8) = true ∧ wclean v wopenReq .gl .write (waccs v hd 8) ∧ wopenReq.releaseWaits v.f .device ≠ []) ∧
    (∃ v, (wat 0).issuing v perLane (addrUses false .tm atwo 0 (v.active hno)) ∧ v.fresh ∧ v.active hno = 0) ∧
    (∃ v, wbnd.issuing v perLane (useS 4 v.g.lanes ++ useS 5 v.g.lanes ++ useS 6 v.g.lanes) ∧ v.fresh ∧ (v.sval 4).toNat % 8 = 0 ∧ (v.sval 5).toNat % 4 = 0 ∧
      (v.sval 6).toNat % 4 = 0 ∧ (v.sval 6).toNat ≠ 0 ∧ v.inSegment .gl 0x1000 8 = true ∧ v.inSegment .gl 0x2000 4 = true) ∧
    (∃ v, (wat 0x1000).issuing v perLane (useSrc false true atwo (v.active hd) ++ (useSrc false true ⟨6, true, false⟩ (v.active hd) ++ useSrc false true ⟨8, true, false⟩ (v.active hd)) ++
        defRun 2 254 (v.active hd)) ∧ v.fresh ∧ v.active hd ≠ 0 ∧ v.canReach (wat 0x1000) .gl .both (waccs v hd 8) = true ∧
      wclean v (wat 0x1000) .gl .both (waccs v hd 8)) ∧
    ∃ v, (wat 0x1000).issuing v perLane (useSrc false true atwo (v.active hd) ++ useSrc false true ⟨6, true, false⟩ (v.active hd)) ∧ v.fresh ∧
      v.canReach (wat 0x1000) .gl .write (waccs v hd 8) = true ∧ wclean v (wat 0x1000) .gl .write (waccs v hd 8) ∧ (wat 0x1000).releaseWaits v.f .device = [] :=
  ⟨meets (us := fun v => addrUses false .gl atwo 0 (v.active hd)) (by decide +kernel) (by decide +kernel),
    meets (us := fun v => useSrc false true atwo (v.active hd) ++ useSrc false true ⟨6, true, false⟩ (v.active hd)) (by decide +kernel) (by decide +kernel),
    meets (us := fun v => addrUses false .tm atwo 0 (v.active hno)) (by decide +kernel) (by decide +kernel),
    meets (us := fun v => useS 4 v.g.lanes ++ useS 5 v.g.lanes ++ useS 6 v.g.lanes) (by decide +kernel) (by decide +kernel),
    meets (us := fun v => useSrc false true atwo (v.active hd) ++ (useSrc false true ⟨6, true, false⟩ (v.active hd) ++ useSrc false true ⟨8, true, false⟩ (v.active hd)) ++
      defRun 2 254 (v.active hd)) (by decide +kernel) (by decide +kernel),
    meets (us := fun v => useSrc false true atwo (v.active hd) ++ useSrc false true ⟨6, true, false⟩ (v.active hd)) (by decide +kernel) (by decide +kernel)⟩

/-! ### Witnesses: layouts, tiles, the array -/

def wokAnd {ε α : Type} (x : Except ε α) (p : α → Bool) : Bool := match x with | .ok a => p a | .error _ => false
/-- Layout registers l1 and l2, handle register h1 and the scalars s4 to s6. -/
def wtile (l1 l2 : Lay) (h1 : Handle) (x y z : DWord) (f : Fibre) : Fibre :=
  wscal 4 x (wscal 5 y (wscal 6 z { f with l := (f.l.set! 1 l1.bits).set! 2 l2.bits, h := f.h.set! 1 h1.bits }))
def wl (nm dm : Nat) (ms : List Mode) : Lay := { nm := nm, dm := dm, sb := 0, sm := 0, ss := 0, modes := ms ++ List.replicate (6 - ms.length) .nil }
def wh (fmt : Fmt) (kind : Kind) (base : Nat) : Handle :=
  { dstride := 0x100, tscale := 0x3F800000, fp4x := 0, sshift := 0, sbase := 0, asid := 0, tdev := 0, gsize := 0, fmt := fmt.code, kind := kind.code, base := base }
/-- 8 × 32 elements of which mode 1 is split in two, with the outer level across dies. -/
def wl8 : Lay := wl 2 7 [⟨8, 1, 0, 0⟩, ⟨32, 8, 0, 0⟩]
def wldie : Lay := wl 2 1 [⟨8, 1, 0, 0⟩, ⟨16, 8, 2, 0⟩]
def wlbad : Lay := wl 7 7 []
abbrev wl1 (v : View) : Lay := v.lay 1
abbrev wl2 (v : View) : Lay := v.lay 2
def wts (l1 l2 : Lay) (x y z : DWord) : State := wfib (wtile l1 l2 (wh .bf16 .pg 0x2000) x y z)

/-- The greatest value of each field; a slice by a coordinate at the end of its mode, by one beyond it, across dies, of an ill-formed layout; a reserved value. -/
theorem witness_LayoutAndHandleRegisters :
    (let m : Mode := ⟨65535, 2 ^ 23 - 1, 65535, -2 ^ 23⟩
     let l : Lay := { nm := 6, dm := 7, sb := 15, sm := 15, ss := 15, modes := List.replicate 6 m }
     l.nm < 8 ∧ l.dm < 8 ∧ l.sb < 16 ∧ l.modes.length = 6 ∧ (∀ m ∈ l.modes, m.ei < 2 ^ 16 ∧ m.eo < 2 ^ 16 ∧ -2 ^ 23 ≤ m.si ∧ m.si < 2 ^ 23 ∧ -2 ^ 23 ≤ m.so ∧ m.so < 2 ^ 23)) ∧
    (∀ p ∈ [(wl8, 31, true), (wl8, 32, false), (wldie, 31, true), (wlbad, 0, false)],
      ((wts p.1 wl8 (BitVec.ofNat 64 p.2.1) 0 0).canIssue perLane fun v => useL 1 v.g.lanes ++ useS 4 v.g.lanes ++ useH 1 v.g.lanes ++ defL 3 v.g.lanes ++ defH 1 v.g.lanes) = true ∧
      ((wts p.1 wl8 (BitVec.ofNat 64 p.2.1) 0 0).view?.any fun v => decide ((wl1 v).illFormed = false ∧ 1 < (wl1 v).nm ∧
        ((v.sval 4).setWidth 32 : Word).toNat < ((wl1 v).mode 1).extent) == p.2.2) = true) ∧
    (∃ v, (wts wl8 wlbad 6 0 0).issuing v perLane (useH 1 v.g.lanes ++ useS 4 v.g.lanes ++ defH 1 v.g.lanes) ∧ 6 ≤ (v.sval 4).toNat % 8 ∧ (v.sval 4).toNat % 4 ≠ 3) ∧
    ∃ v, (wts wl8 wlbad 0 0 0).issuing v perLane (useL 2 v.g.lanes ++ useH 1 v.g.lanes ++ defS 63 v.g.lanes) ∧ (wl2 v).illFormed = true ∧ (wl1 v).illFormed = false :=
  ⟨by decide +kernel, by decide +kernel, meets (us := fun v => useH 1 v.g.lanes ++ useS 4 v.g.lanes ++ defH 1 v.g.lanes) (by decide +kernel) (by decide +kernel),
    meets (us := fun v => useL 2 v.g.lanes ++ useH 1 v.g.lanes ++ defS 63 v.g.lanes) (by decide +kernel) (by decide +kernel)⟩

/-- What each instruction meets: a partition that fits and one that does not, a permutation and none, levels that merge and that do not, a composition and none,
a bank function that keeps its rule and one that breaks it, an ill-formed source. -/
theorem witness_LayoutsAreBuilt :
    (∃ v, (wts wl8 wlbad 0x321 0x432 0).issuing v perLane (useL 1 v.g.lanes ++ useL 2 v.g.lanes ++ defL 3 v.g.lanes) ∧ (wl1 v).illFormed = false ∧ (wl2 v).illFormed = true ∧
      1 < (wl1 v).nm ∧ ((wl1 v).mode 1).eo = 0 ∧ extOf ((wl1 v).mode 1).ei % 16 = 0 ∧ extOf ((wl1 v).mode 1).ei % 5 ≠ 0 ∧ (wl1 v).dm = 7 ∧
      mergePair 8 1 0 0 = some (8, 1) ∧ mergePair 8 8 2 1 = none) ∧
    (∃ v, (wts wl8 wl8 0x321 0x432 0).issuing v perLane (useL 1 v.g.lanes ++ useS 4 v.g.lanes ++ defL 3 v.g.lanes) ∧ ((v.sval 4).extractLsb' 0 4).toNat = 1 ∧
      ((v.sval 4).extractLsb' 4 4).toNat = 2 ∧ ((v.sval 4).extractLsb' 8 4).toNat = 3) ∧
    (∃ v, (wts wl8 (wl 1 7 [⟨8, 1, 0, 0⟩]) 0 0 0).view? = some v ∧ (chain (wl1 v) (wl2 v)).isSome = true ∧ ((wl1 v).mode 0).single.isSome = true ∧
      ((wl1 v).mode 1).single.isSome = true ∧ (mergePair 8 1 32 8).isSome = true) ∧
    (∃ v, (wts wl8 (wl 1 7 [⟨8, 3, 0, 0⟩]) 0 0 0).view? = some v ∧ chain (wl1 v) (wl2 v) = none) ∧
    ((1 : Nat) < wl8.nm ∧ wl8.nm ≤ wl8.modes.length ∧ [7, 31].length = wl8.nm ∧ wl8.dm ≠ 1 ∧ (wl8.mode 1).eo = 0 ∧ extOf (wl8.mode 1).ei % 16 = 0 ∧
      [7, 31].getD 1 0 < extOf (wl8.mode 1).ei ∧ (mergePair (wl8.mode 1).ei (wl8.mode 1).si (wl8.mode 1).eo (wl8.mode 1).so).isSome = true) :=
  ⟨meets (us := fun v => useL 1 v.g.lanes ++ useL 2 v.g.lanes ++ defL 3 v.g.lanes) (by decide +kernel) (by decide +kernel),
    meets (us := fun v => useL 1 v.g.lanes ++ useS 4 v.g.lanes ++ defL 3 v.g.lanes) (by decide +kernel) (by decide +kernel),
    sees (by decide +kernel), sees (by decide +kernel), by decide +kernel⟩

/-- 32 FP32 elements in a run of 128 bytes at 0x1000 of global memory and in register rows; two pattern tables. -/
def wtl (k : Kind) (base : Nat) : State :=
  let s := wfib (wtile (wl 1 7 [⟨32, 1, 0, 0⟩]) wl8 (wh .f32 k base) 0x1000 0 0)
  { s with kernels := s.kernels.map fun x => { x with rcd := some { placedLaunch with patn := 2 } } }
abbrev wacc (v : View) (n : Nat) : List Access := (lanesOf v.g.lanes).map fun l => accessOf l (v.wideAddr .gl 4) n n
abbrev wtt : Tile := ⟨1, 1⟩
theorem witness_TileAccessesComplete :
    (∃ v, (wtl .gl 0x1000).issuing v perLane (useS 4 v.g.lanes ++ defL 15 v.g.lanes) ∧ v.fresh ∧ v.canReach (wtl .gl 0x1000) .gl .read (wacc v 64) = true ∧
      (v.placed (wtl .gl 0x1000) .gl .read (wacc v 64)).head?.isSome = true) ∧
    (∃ v, (wtl .gl 0x1000).issuing v perLane (useS 4 v.g.lanes ++ useL 15 v.g.lanes) ∧ v.canReach (wtl .gl 0x1000) .gl .write (wacc v 64) = true ∧
      wclean v (wtl .gl 0x1000) .gl .write (wacc v 64)) ∧
    (∃ v, (wtl .gl 0x1000).issuing v perLane (useS 4 v.g.lanes ++ [(⟨.r (.pat 1), v.g.lanes, false, false⟩ : Use)]) ∧ (1 : Nat) < v.rcd.patn ∧ v.rcd.patn ≤ 2 ∧
      v.canReach (wtl .gl 0x1000) .gl .read (wacc v 128) = true) ∧
    (∃ v, (wtl .gl 0x1000).issuing v collective [⟨.v 4, BitVec.allOnes 32, true, false⟩, ⟨.v 255, BitVec.allOnes 32, false, false⟩, ⟨.r (.pat 1), BitVec.allOnes 32, true, false⟩] ∧
      quotaRow v.f.quota 255 = some 255 ∧ (1 : Nat) < v.rcd.patn) ∧
    (∃ v, (wtl .gl 0x1000).issuing v collective (v.ldlUses 0 8 wtt 5) ∧ v.fresh ∧ wokAnd (v.tileAccept wtt false (v.firstIndex 5)) (fun x => x.1.kind != .vr &&
      wokAnd (v.prepareTile (wtl .gl 0x1000) .read [] x.1.kind x.1.fmt.align (x.1.units x.2 0 (2 ^ 0 * 128 / x.1.fmt.unit))) fun p => p.frames.isEmpty) = true) ∧
    (∃ v, (wtl .vr 0).issuing v collective (v.ldlUses 0 8 wtt 5) ∧ wokAnd (v.tileAccept wtt false (v.firstIndex 5)) (fun x => x.1.kind == .vr &&
      (x.1.units x.2 0 (2 ^ 0 * 128 / x.1.fmt.unit)).all fun u => u.addr % x.1.fmt.align == 0) = true) ∧
    ∃ v, (wtl .tm 0x1000).issuing v collective (v.stlUses 0 wtt 5 ⟨8, false, false⟩) ∧ wokAnd (v.tileAccept wtt true (v.firstIndex 5)) (fun x =>
      wokAnd (v.prepareTile (wtl .tm 0x1000) .write [] x.1.kind x.1.fmt.align (x.1.units x.2 0 32)) fun p => p.frames.isEmpty &&
        p.units.all fun u => u.2.all fun y => !(wtl .tm 0x1000).isTagged y.1) = true :=
  ⟨meets (us := fun v => useS 4 v.g.lanes ++ defL 15 v.g.lanes) (by decide +kernel) (by decide +kernel),
    meets (us := fun v => useS 4 v.g.lanes ++ useL 15 v.g.lanes) (by decide +kernel) (by decide +kernel),
    meets (us := fun v => useS 4 v.g.lanes ++ [(⟨.r (.pat 1), v.g.lanes, false, false⟩ : Use)]) (by decide +kernel) (by decide +kernel),
    meets (us := fun _ => [⟨.v 4, BitVec.allOnes 32, true, false⟩, ⟨.v 255, BitVec.allOnes 32, false, false⟩, ⟨.r (.pat 1), BitVec.allOnes 32, true, false⟩]) (by decide +kernel)
      (by decide +kernel),
    meets (us := fun v => v.ldlUses 0 8 wtt 5) (by decide +kernel) (by decide +kernel), meets (us := fun v => v.ldlUses 0 8 wtt 5) (by decide +kernel) (by decide +kernel),
    meets (us := fun v => v.stlUses 0 wtt 5 ⟨8, false, false⟩) (by decide +kernel) (by decide +kernel)⟩

/-- The team holds the array `a`; the tile is two rows of 128 BF16 values, or of 32 FP32 values, in team space. -/
def warr (a : Arr) (t : Team) : Team := { t with arr := some a }
def wmat (a : Arr) (f : Fmt) : State :=
  let s := wfib (wtile (if f = .bf16 then wl 2 7 [⟨128, 1, 0, 0⟩, ⟨2, 128, 0, 0⟩] else wl 2 7 [⟨32, 1, 0, 0⟩, ⟨2, 32, 0, 0⟩]) wl8 (wh f .tm 0) 126 0 0)
  { s with teams := s.teams.map (warr a) }
def wfeed : Feed := { fmt := .bf16, k := 128, x4 := 0, tscale := 0x3F800000, fpm := 0 }
def wplane (st : WtSt) : Plane := { st := st, feed := wfeed, n := 1, cols := [⟨[], []⟩], book := [] }
def wfull : Arr := { Arr.fresh with shadow := wplane .valid, other := wplane .active }
theorem witness_MatrixInstructionsEnterArrayOrder :
    (∃ v, wbase.issuing v collective (useS 4 v.g.lanes ++ fullRun 4 0 false false) ∧ v.tm.arr = none) ∧
    (∃ v, (wmat wfull .bf16).issuing v collective (useS 4 v.g.lanes ++ fullRun 8 248 false false) ∧ v.tm.arr = some wfull ∧ wfull.logical.sh = .valid ∧ v.rowOf 4 + 2 = 128 ∧
      128 < v.rowOf 4 + 4) ∧
    (∃ v, (wmat Arr.fresh .bf16).issuing v collective [] ∧ v.tm.arr = some Arr.fresh ∧ Arr.fresh.logical.sh ≠ .loading ∧ Arr.fresh.logical.sh ≠ .valid) ∧
    (∃ v, (wmat wfull .bf16).issuing v collective (fullRun 4 8 true true) ∧ v.tm.arr.isSome = true) ∧
    (∃ v, (wmat wfull .bf16).issuing v collective (defS 63 v.g.lanes) ∧ wfull.shadow.st = .valid ∧ wfull.other.st = .active) ∧
    (∃ v, (wmat wfull .bf16).issuing v collective (tileUses wtt v) ∧ v.fresh ∧ (wokAnd (v.feedAccept .wf (v.handle 1) (v.lay 1)) fun x => weightOk x (v.lay 1) &&
      wokAnd (v.feedRows (wmat wfull .bf16) x (v.lay 1) [] []) fun p => p.2.2.1.isEmpty) = true) ∧
    (∃ v, (wmat wfull .bf16).issuing v collective (tileUses wtt v ++ []) ∧ (wokAnd (v.feedAccept .af (v.handle 1) (v.lay 1)) fun x =>
      wfull.logical.streamOk x (v.lay 1) 126 && !wfull.logical.streamOk x (v.lay 1) 127 && wokAnd (v.feedRows (wmat wfull .bf16) x (v.lay 1) [] []) fun p => p.2.2.1.isEmpty) = true) ∧
    (∃ v, (wmat wfull .f32).issuing v collective (tileUses wtt v ++ useS 4 v.g.lanes) ∧ (wokAnd (v.laneAccept false (v.handle 1) (v.lay 1)) fun x =>
      moveOk (v.lay 1) (v.rowOf 4) true && wokAnd (v.placeAll (wmat wfull .f32) .read [] ((x.units (v.lay 1) 0 (x.unitCount (v.lay 1))).map x.unitRange)) fun p => p.2.1.isEmpty) = true) ∧
    (∃ v, (wmat wfull .f32).issuing v collective (tileUses wtt v ++ useS 4 v.g.lanes) ∧ (wokAnd (v.laneAccept true (v.handle 1) (v.lay 1)) fun x =>
      moveOk (v.lay 1) (v.rowOf 4) (storeFmt x.fmt) && wokAnd (v.placeEach (wmat wfull .f32) [] ((x.units (v.lay 1) 0 (x.unitCount (v.lay 1))).map fun u => (Need.write, x.unitRange u))) fun p =>
        p.2.1.isEmpty && x.h.sbase == 0 && p.1.length == x.unitCount (v.lay 1) && p.1.all fun q => q.parts.all fun y => !(wmat wfull .f32).isTagged y.1) = true) ∧
    (∃ v, (wmat wfull .bf16).issuing v collective (useS 5 v.g.lanes) ∧ wokAnd (v.placeAll (wmat wfull .bf16) .read []
      [{ sp := .tm, addr := v.wideAddr .tm 5, len := 256, align := 256 }]) (fun p => p.2.1.isEmpty) = true) ∧
    ∃ v, (wmat wfull .bf16).issuing v collective (tileUses wtt v) ∧ ((v.handle 1).tensor.any fun x => kindTaken .wf false x.kind && x.fmt == .bf16 && weightOk x (v.lay 1) &&
      wokAnd (v.bmcColumns (wmat wfull .bf16) x (v.lay 1).dims.1 (v.lay 1).dims.2 []) fun p => p.2.2.2.1.isEmpty) = true :=
  ⟨meets (us := fun v => useS 4 v.g.lanes ++ fullRun 4 0 false false) (by decide +kernel) (by decide +kernel),
    meets (us := fun v => useS 4 v.g.lanes ++ fullRun 8 248 false false) (by decide +kernel) (by decide +kernel),
    meets (us := fun _ => []) (by decide +kernel) (by decide +kernel), meets (us := fun _ => fullRun 4 8 true true) (by decide +kernel) (by decide +kernel),
    meets (us := fun v => defS 63 v.g.lanes) (by decide +kernel) (by decide +kernel), meets (us := tileUses wtt) (by decide +kernel) (by decide +kernel),
    meets (us := fun v => tileUses wtt v ++ []) (by decide +kernel) (by decide +kernel), meets (us := fun v => tileUses wtt v ++ useS 4 v.g.lanes) (by decide +kernel) (by decide +kernel),
    meets (us := fun v => tileUses wtt v ++ useS 4 v.g.lanes) (by decide +kernel) (by decide +kernel), meets (us := fun v => useS 5 v.g.lanes) (by decide +kernel) (by decide +kernel),
    meets (us := tileUses wtt) (by decide +kernel) (by decide +kernel)⟩

def wcmd (op : ArrOp) : ArrCmd := { id := 9, f := ⟨0, 0, 0⟩, pc := 8, op := op, prog := 0, stale := false }
def wpiece : Piece := { addr := 0, parts := [(.pad 0 0 0, 4)] }
/-- Each command at the head of array order; a weight load with and without an error; a row that commits and one whose data were in error. -/
theorem witness_ArrayCommandsAct :
    (∀ op ∈ [ArrOp.swap, .rel, .zero 3, .mvFrom 1 127 [List.replicate 128 1], .resc 2 [] 0, .mvTo 3 124 (List.replicate 16 none), .tred 0 true 128 0 [], .cbload [],
        .wload wfeed [] []], ∃ t ∈ (wmat { wfull with queue := [wcmd op, { wcmd .rel with id := 10 }] } .bf16).teams,
      ((wmat { wfull with queue := [wcmd op, { wcmd .rel with id := 10 }] } .bf16).refresh 0 0).team? 0 0 = some t ∧
      ((wmat { wfull with queue := [wcmd op, { wcmd .rel with id := 10 }] } .bf16).refresh 0 0).liveArr 0 0 = t.arr ∧ (wcmd op).stale = false ∧ (t.arr.any fun a => a.queue.head? == some (wcmd op) && a.shadow.st == .valid &&
        (a.queue.drop 1).all fun x => x.id != 9) = true) ∧
    (∃ t ∈ (wmat { wfull with shadow := wplane .loading, queue := [wcmd (.wload wfeed [] [⟨[], []⟩])] } .bf16).teams, (t.arr.any fun a => a.shadow.st == .loading) = true) ∧
    (let a : Arr := { wfull with queue := [wcmd (.stream 0 0 true wfeed [] [⟨[], []⟩])], last := 9 }
     ((wmat a .bf16).commitRow ((wmat a .bf16).agentOf 0 0) a (wcmd (.stream 0 0 true wfeed [] [⟨[], []⟩]))).2.2 = none) ∧
    (let a : Arr := { wfull with queue := [wcmd (.zload 0 0 wfeed [[.mem wpiece false]])] }
     let s : State := { wmat a .bf16 with teams := (wmat a .bf16).teams.map fun t => { t with padPoison := [0] } }
     (s.commitRow (s.agentOf 0 0) a (wcmd (.zload 0 0 wfeed [[.mem wpiece false]]))).2.2.isSome = true) := by decide +kernel

/-! ### Witnesses: jobs and the fabric -/

def wcard : List Byte :=
  leBytes 16 (2 ^ 16 + 2 ^ 20 + 4 * 2 ^ 28) ++ leBytes 16 (2 ^ 61 + 512 * 2 ^ 96) ++ List.replicate 48 0 ++ leBytes 16 (2 ^ 61 + 0x1000 + 512 * 2 ^ 96) ++ List.replicate 32 0
/-- A card at 0x8000 that copies 256 BF16 values from 0 to 0x1000 of team space, or is invalid, on one of two tags. -/
def wjobs (card : List Byte) (addr : DWord) : State :=
  let s := wfib fun f => let f := wtile (wl 2 7 [⟨128, 1, 0, 0⟩, ⟨2, 128, 0, 0⟩]) wl8 (wh .bf16 .tm 0) addr 3 0 f
    { f with h := f.h.set! 2 (wh .bf16 .tm 0x1000).bits }
  { s with kernels := s.kernels.map fun x => { x with rcd := some { placedLaunch with tags := 2 } }, teams := s.teams.map fun t => { t with pad := putBytes [] 0x8000 card } }
abbrev wjacc (v : View) : List Access := (lanesOf v.g.lanes).map fun l => accessOf l ((v.sval 4).setWidth 56 : VA).toNat 128 128
abbrev wjr (s : State) (v : View) (r0 : Ready) := (v.cached s .tm .read (wjacc v)).loadCard v.agent r0.parts
abbrev wjcard (s : State) (v : View) (r0 : Ready) : Option Card := cardOf (wjr s v r0).2.1
theorem witness_CopiesBecomeJobs :
    (∃ v, (wjobs wcard 0x8000).issuing v perLane (jobUses ⟨1, 1⟩ ⟨2, 1⟩ 4 v) ∧ v.fresh ∧ v.canReach (wjobs wcard 0x8000) .tm .read (wjacc v) = true ∧
      ∃ r0 ∈ (v.placed (wjobs wcard 0x8000) .tm .read (wjacc v)).head?, (wjr (wjobs wcard 0x8000) v r0).2.2 = false ∧ ∃ card ∈ wjcard (wjobs wcard 0x8000) v r0,
        card.fop = 0 ∧ (∀ q ∈ card.reads ++ card.writes, v.inSegment q.sp q.base q.len = true) ∧ overlapAny v.tm.rank card.reads card.writes = false ∧ (1 : Nat) < v.rcd.tags ∧
        v.tm.jobs = [] ∧ (∀ o ∈ v.f.out, o.remote = []) ∧ (wokAnd (v.copyAccept false false (v.handle 1) (v.lay 1)) fun x => wokAnd (v.copyAccept false true (v.handle 2) (v.lay 1)) fun y =>
          ((v.lay 1).padded x.fmt.grain).size == ((v.lay 1).padded y.fmt.grain).size) = true ∧ (wjr (wjobs wcard 0x8000) v r0).1.jobEntries v.core < 64 ∧
        (wjobs wcard 0x8000).team? 0 0 = some v.tm) ∧
    (∃ v, (wjobs [] 0x8000).issuing v perLane (jobUses ⟨1, 1⟩ ⟨2, 1⟩ 4 v) ∧ ∃ r0 ∈ (v.placed (wjobs [] 0x8000) .tm .read (wjacc v)).head?, wjcard (wjobs [] 0x8000) v r0 = none) ∧
    (∃ v, (wjobs [] 0x8040).issuing v perLane (jobUses ⟨1, 1⟩ ⟨2, 1⟩ 4 v) ∧ ((v.sval 4).setWidth 56 : VA).toNat % 128 ≠ 0) ∧
    (∃ v, (wjobs [] 0x8000).issuing v collective (useS 5 v.g.lanes ++ defS 63 v.g.lanes) ∧ v.sval 5 &&& tagMask v.rcd.tags = 3 ∧ v.tm.tags &&& 3 = 0) ∧
    ∃ v, wbase.issuing v perLane (useS 5 v.g.lanes ++ defS 63 v.g.lanes) ∧ v.sval 5 &&& tagMask v.rcd.tags = 0 ∧ wbase.team? v.f.ref.cl v.f.ref.team = some v.tm :=
  ⟨meets (us := jobUses ⟨1, 1⟩ ⟨2, 1⟩ 4) (by decide +kernel) (by decide +kernel), meets (us := jobUses ⟨1, 1⟩ ⟨2, 1⟩ 4) (by decide +kernel) (by decide +kernel),
    meets (us := jobUses ⟨1, 1⟩ ⟨2, 1⟩ 4) (by decide +kernel) (by decide +kernel), meets (us := fun v => useS 5 v.g.lanes ++ defS 63 v.g.lanes) (by decide +kernel) (by decide +kernel),
    meets (us := fun v => useS 5 v.g.lanes ++ defS 63 v.g.lanes) (by decide +kernel) (by decide +kernel)⟩

def wjob (st : JobSt) : Job :=
  { id := 7, tag := 1, f := ⟨0, 0, 0⟩, st := st, src := ((wh .bf16 .tm 0).bits, (wl 1 7 [⟨2, 1, 0, 0⟩]).bits), dst := ((wh .bf16 .tm 0x1000).bits, (wl 1 7 [⟨2, 1, 0, 0⟩]).bits)
    reads := [{ sp := .tm, base := 0, len := 512, tdev := 0, asid := 0 }], writes := [{ sp := .tm, base := 0x1000, len := 512, tdev := 0, asid := 0 }], scope := .team, rm := .rne
    fpm := 0, xretry := 1, edges := [], prog := 0, cause := 0, addr := 0, frames := [], noAlloc := [], buf := [], req := none, broken := none, cmd := none }
def wteam (j : Job) (a : Option Arr) : State := { wbase with teams := wbase.teams.map fun t => { t with jobs := [j], arr := a } }
def wfollow : ArrCmd := { wcmd (.follow 1 true 0 0 false wfeed 1) with id := 9 }
def wcpym : Job := { wjob .landed with cmd := some 9, dst := ((wh .bf16 .tm 0x1000).bits, (wl 1 7 [⟨128, 1, 0, 0⟩]).bits) }
theorem witness_JobEventsComplete_queued : (∃ t ∈ (wteam (wjob .queued) none).teams, (wteam (wjob .queued) none).team? 0 0 = some t ∧ wjob .queued ∈ t.jobs ∧ (t.jobs.map (·.tag)).Nodup ∧ (t.jobs.map (·.id)).Nodup) ∧
    ((wteam (wjob .queued) none).cluster? 0).any Cluster.placed = true := by decide +kernel
theorem witness_JobEventsComplete_runs : (let s := (wteam (wjob .queued) none).modJob 0 0 7 fun j => { j with st := .running }
     (s.jobView 0 0 (wjob .running)).any (fun v => decide ((State.jobRun v (v.count + 1) s 0).2.2 = .all)) = true) := by decide +kernel
theorem witness_JobEventsComplete_faults : (let j : Job := { wjob .queued with reads := [] }
     let s := (wteam j none).modJob 0 0 7 fun j => { j with st := .running }
     (s.jobView 0 0 { j with st := .running }).any (fun v => match (State.jobRun v (v.count + 1) s 0).2.2 with | .fault .. => true | _ => false) = true) := by decide +kernel
theorem witness_JobEventsComplete_more : ((wteam (wjob .running) none).jobView 0 0 (wjob .running)).any (fun v => decide (0 < v.count)) = true := by decide +kernel
theorem witness_JobEventsComplete_all : ((wteam { wjob .running with prog := 2 } none).jobView 0 0 { wjob .running with prog := 2 }).any (fun v => decide (v.count ≤ 2)) = true := by decide +kernel
theorem witness_JobEventsComplete_told : (∃ f ∈ (wteam { wjob .running with broken := some (0x18, 0) } none).fibres, f.st ≠ .exited ∧ f.live ≠ 0 ∧
      (wteam { wjob .running with broken := some (0x18, 0) } none).fibre? ({ wjob .running with broken := some (0x18, 0) } : Job).f = some f) := by decide +kernel
theorem witness_JobEventsComplete_landed : ((wteam (wjob .landed) none).lostWord 0 0 (wjob .landed) = none ∧ (wjob .landed).st = .landed ∧ (wjob .landed).cmd = none ∧ wbase.portRuns 0 = true) := by decide +kernel
theorem witness_JobEventsComplete_follow : (let s := wteam wcpym (some { Arr.fresh with queue := [wfollow] })
     s.lostWord 0 0 wcpym = none ∧ (s.cmdView wcpym.f).any (fun v => (handleOf wcpym.dst.1).tensor.any fun x => wokAnd (v.feedRows (s.writeRegions 0 0 wcpym) x (layOf wcpym.dst.2) [] []) fun p =>
       p.2.2.1.isEmpty) = true) := by decide +kernel
theorem witness_JobEventsComplete_step : (((wteam (wjob .running) none).jobView 0 0 (wjob .running)).any fun v => decide (v.x.fmt = v.y.fmt ∧ v.x.kind = .tm ∧ v.y.kind = .tm ∧ v.x.fmt.grain ≠ 2 ∧
      (unitRegions v.y (unitAt v.y v.ly 0)).length = 1) &&
      (match (wteam (wjob .running) none).jobStep v 0 with | .ok _ => true | _ => false)) = true := by decide +kernel
theorem witness_JobEventsComplete_uncovered : (((wteam { wjob .running with reads := [] } none).jobView 0 0 { wjob .running with reads := [] }).any fun v =>
      !covered v.team v.j.reads (rangeOf v.x (unitAt v.x v.lx 0).addr (unitAt v.x v.lx 0).len)) = true := by decide +kernel
/-- One live lane. -/
def wone (f : Fibre) : Fibre := { f with live := 1, gangs := f.gangs.map fun g => { g with lanes := 1 } }
/-- A request to the device itself goes when no request is open. -/
theorem sends_to_self {s : State} {v : View} {dst : BitVec 16} (r : Mask × RemReq × ReplyUse) (hd : dst = s.dev) (hr : s.requests = []) :
    (s.sendEach v dst false s.nextId [r]).isSome = true := by
  have h : s.way v.f.ref dst false r.2.1 s.nextId = .go .self := by
    simp [State.way, State.sameBlock, State.pathsTo, hd, hr, Nat.mod_one, State.roomOn, State.openSeqs]
  simp [State.sendEach, h]
def wcg (st : CgSt) : CommitGroup :=
  { cgid := 5, asid := 1, kern := ⟨0, 0, 0⟩, obj := 0, val := 0, st := st, dests := [], why := 0, failDev := 0, asked := false, limit := 2 }
/-- A transfer of `n` bytes from 0x1000 to offset `far` of the device's own global space, under the group in state `st`. -/
def wxfer (n : DWord) (far : DWord) (st : CgSt) : State :=
  let s := wfib fun f => wscal 4 0x1000 (wscal 5 far (wscal 8 0x10000 (wscal 9 n { f with cgid := 5, seg := f.seg.set! 5 { base := 0, limit := BitVec.ofNat 64 (2 ^ 56) } })))
  { s with requests := [wreq .nothing], nextId := 100, cgs := [wcg st] }
/-- One of 8 bytes to offset 0, with no request open. -/
def wquietx : State := { wxfer 8 0 .open_ with requests := [] }
abbrev wxuses (v : View) : List Use := useS 4 v.g.lanes ++ useS 5 v.g.lanes ++ pairUses 8 v
abbrev wxacc (v : View) (n : Nat) : List Access := [accessOf v.lane0 (v.wideAddr .gl 4) n 1]
theorem witness_RemoteInstructions :
    (∃ v, (wxfer 512 0 .open_).issuing v perLane (wxuses v) ∧ v.fresh ∧ v.f.sending = [] ∧ v.f.xfenced = false ∧ (v.pair 8).len = 512 ∧ v.inSegment .rm 0 512 = true ∧
      v.canReach (wxfer 512 0 .open_) .gl .read (wxacc v 512) = true ∧ v.canReach (wxfer 512 0 .open_) .gl .write (wxacc v 512) = true ∧
      wclean v (wxfer 512 0 .open_) .gl .write (wxacc v 512) ∧ (blockRuns 0 512).length = 1 ∧ ((wxfer 512 0 .open_).sendEach v (v.pair 8).dev false 100
        [(v.f.live, v.request (v.pair 8).asid 0 (.write []) .device none, .nothing)]).isSome = true ∧ v.f.cgid ≠ 0 ∧ (wxfer 512 0 .open_).cg? v.f.cgid = some (wcg .open_)) ∧
    (∃ v, (wxfer 0 0 .staging).issuing v perLane (wxuses v) ∧ blockRuns 0 (v.pair 8).len = []) ∧
    (∃ v, ({ wxfer 512 0 .open_ with requests := [] } : State).issuing v perLane (wxuses v) ∧ v.fresh ∧ v.f.sending = [] ∧ v.f.out = [] ∧
      v.canReach { wxfer 512 0 .open_ with requests := [] } .gl .write (wxacc v 512) = true ∧
      (v.cached { wxfer 512 0 .open_ with requests := [] } .gl .write (wxacc v 512)).requests = [] ∧
      (v.cached { wxfer 512 0 .open_ with requests := [] } .gl .write (wxacc v 512)).dev = (v.pair 8).dev) ∧
    (∃ v, (wxfer 6 2 .open_).issuing v perLane (wxuses v) ∧ ((v.sval 5).setWidth 56 : VA).toNat % 4 ≠ 0) ∧
    (∃ v, wquietx.issuing v perLane (xatomUses (.mem 10 .add .n64) 5 9 8 v) ∧ v.inSegment .rm 0 8 = true ∧ wquietx.fenceWaits v.f.ref = [] ∧
      (∀ q ∈ wquietx.requests, q.id < wquietx.nextId) ∧ (wquietx.sendEach v 0 false wquietx.nextId
        [(v.f.live, v.request 1 0 (.arrive 1 3) .device, .nothing)]).isSome = true) ∧
    (∃ v, (wxfer 8 0 .open_).issuing v perLane (xatomUses .arv 5 9 8 v) ∧ (wcg .open_).dests.length < 64) ∧
    ∃ v, (wfib fun f => wone (wscal 4 0x1000 f)).issuing v perLane (useS 5 v.g.lanes ++ useS 4 v.g.lanes ++ defS 63 v.g.lanes) ∧ v.fresh ∧
      wokAnd (v.postImage (wfib fun f => wone (wscal 4 0x1000 f)) .gl 63 4 .pod true none) (fun p => p.2.2.1.isNone && p.2.2.2.isEmpty && p.1.requests.isEmpty && p.1.dev == 0) = true :=
  ⟨meets (us := wxuses) (by decide +kernel) (by decide +kernel), meets (us := wxuses) (by decide +kernel) (by decide +kernel), meets (us := wxuses) (by decide +kernel) (by decide +kernel), meets (us := wxuses) (by decide +kernel) (by decide +kernel),
    let ⟨v, h, h1, h2, h3⟩ := meets (s := wquietx) (us := xatomUses (.mem 10 .add .n64) 5 9 8) (P := fun v => v.inSegment .rm 0 8 = true ∧
      wquietx.fenceWaits v.f.ref = [] ∧ ∀ q ∈ wquietx.requests, q.id < wquietx.nextId) (by decide +kernel) (by decide +kernel)
    ⟨v, h, h1, h2, h3, sends_to_self _ (by decide +kernel) rfl⟩, meets (us := xatomUses .arv 5 9 8) (by decide +kernel) (by decide +kernel),
    meets (us := fun v => useS 5 v.g.lanes ++ useS 4 v.g.lanes ++ defS 63 v.g.lanes) (by decide +kernel) (by decide +kernel)⟩

def warrival (st : ArrSt) (tgt : DWord) : Arrival :=
  { asid := 1, id := 3, st := st, tgt := tgt, spill := 5, off := 0x100, kern := ⟨0, 0, 0⟩, cl := 0, clu := 0, rank := 0 }
/-- An armed entry that nothing has arrived at before. -/
def wspent (tgt : DWord) : Arrival := { warrival .armed tgt with spill := 0 }
def warv (o : DWord) (as : List Arrival) : State := { wfib (fun f => wscal 4 o (wscal 6 3 f)) with arrivals := as }
/-- The last aligned word of the scratchpad, a word that is not aligned, an armed entry that has and has not reached its target, an unarmed one, and none. -/
theorem witness_ArrivalCounters :
    (∃ v, (warv 0xBFF8 []).issuing v perLane (useS 4 v.g.lanes ++ useS 5 v.g.lanes ++ useS 6 v.g.lanes) ∧ v.fresh ∧ v.inSegment .tm 0xBFF8 8 = true ∧
      0xBFF8 / 8 ∉ v.tm.padTags ∧ ((warv 0xBFF8 []).padValue 0 0 0xBFF8 8).2 = false) ∧
    (∃ v, (warv 0x104 []).issuing v perLane (useS 4 v.g.lanes ++ useS 5 v.g.lanes ++ useS 6 v.g.lanes) ∧ v.inSegment .tm 0x104 8 = true) ∧
    (∃ v, (warv 3 [wspent 0]).issuing v perLane (useS 4 v.g.lanes) ∧ v.fresh ∧ (warv 3 [wspent 0]).arrival? v.f.asid 3 = some (wspent 0) ∧
      (wspent 0).tgt.toNat ≤ ((warv 3 [wspent 0]).padValue 0 0 0x100 8).1) ∧
    (∃ v, (warv 3 [wspent 1]).issuing v perLane (useS 4 v.g.lanes) ∧ v.fresh ∧ (wspent 1).spill = 0 ∧
      ((warv 3 [wspent 1]).padValue 0 0 0x100 8).1 < (wspent 1).tgt.toNat) ∧
    (∃ c ∈ wbase.ctxs, wbase.ctx? c.asid = some c ∧ c.ridx.isSome = true ∧ (warv 0 [warrival .armed 0]).arrival? c.asid 3 = some (warrival .armed 0) ∧
      (warv 0 [warrival .unarmed 0]).arrival? c.asid 3 = some (warrival .unarmed 0) ∧ (warv 0 []).arrival? c.asid 3 = none ∧
      ∃ t ∈ wbase.teams, wbase.team? 0 0 = some t ∧ Memory.wf t.pad = true) :=
  ⟨meets (us := fun v => useS 4 v.g.lanes ++ useS 5 v.g.lanes ++ useS 6 v.g.lanes) (by decide +kernel) (by decide +kernel),
    meets (us := fun v => useS 4 v.g.lanes ++ useS 5 v.g.lanes ++ useS 6 v.g.lanes) (by decide +kernel) (by decide +kernel),
    meets (us := fun v => useS 4 v.g.lanes) (by decide +kernel) (by decide +kernel), meets (us := fun v => useS 4 v.g.lanes) (by decide +kernel) (by decide +kernel), by decide +kernel⟩

def wdesc : CollDesc := { op := 0, w := 0, cmp := false, np := 1, id := 3, grp := 1, n := 1, src := 0x2000, dst := 0x3000, res := 0, leads := [(0, 1)] }
/-- A descriptor of one word of one pod at 0x1000, with a live plane, or none there. -/
def wcoll (ok : Bool) : State :=
  { wfib (fun f => wone (wscal 4 0x1000 f)) with
    mem := if ok then putBytes (putBytes (putBytes wbase.mem 0x1000 (leBytes 8 (2 ^ 20 + 3 * 2 ^ 24 + 2 ^ 32))) 0x1008 (leBytes 24 (1 + 0x2000 * 2 ^ 64 + 0x3000 * 2 ^ 128)))
      0x1030 (leBytes 4 (2 ^ 16)) else wbase.mem
    ports := wbase.ports.map fun x => { x with st := .up } }
def wcl (st : CollSt) (np : Nat) : Coll :=
  { id := 1, f := ⟨0, 0, 0⟩, asid := 1, desc := { wdesc with np := np }, dst := [.home 0x3000 0 0 false], res := [], st := st, src := [1], own := .plain [7] }
theorem witness_Collectives :
    (∃ v, (wcoll true).issuing v perLane (useS 4 v.g.lanes) ∧ v.fresh ∧ v.f.xfenced = false ∧ v.wideAddr .gl 4 % 128 = 0 ∧
      wokAnd (v.wideLoad (wcoll true) .gl 0x1000 128 128 none) (fun p => p.2.2.2.isEmpty && p.2.2.1.isNone && (collOf p.2.1).any fun d => d == wdesc &&
        wokAnd (v.collRegion p.1 .read [] d.src d.size) fun q => q.2.2.isEmpty && wokAnd (v.collRegion q.1 .write [] d.dst d.size) fun r => r.2.2.isEmpty) = true ∧
      (wcoll true).planes.getD 0 .unavailable = .available ∧ ((wcoll true).planePort 0).isSome = true) ∧
    (∃ v, (wcoll false).issuing v perLane (useS 4 v.g.lanes) ∧ wokAnd (v.wideLoad (wcoll false) .gl 0x1000 128 128 none) (fun p => (collOf p.2.1).isNone) = true) ∧
    (∃ v, (wfib (wscal 4 0x1040)).issuing v perLane (useS 4 v.g.lanes) ∧ v.wideAddr .gl 4 % 128 ≠ 0) ∧
    (∀ c ∈ [wcl .combine 1, wcl .combine 2, wcl .spread 2, wcl .exchange 2], ({ wbase with colls := [c] } : State).colls.find? (fun x => x.id == c.id) = some c ∧
      4 * [(7 : Word)].length = c.desc.size ∧ [LeaderData.plain [1]].length + 1 = (wcl .exchange 2).desc.np ∧ (wcl .exchange 2).desc.fits (.plain [1]) = true ∧
      wbase.leads c.desc = true ∧ ({ wbase with dev := 9 } : State).leads c.desc = false) ∧
    ({ wdesc with op := 2 } : CollDesc).op = 2 :=
  ⟨meets (us := fun v => useS 4 v.g.lanes) (by decide +kernel) (by decide +kernel), meets (us := fun v => useS 4 v.g.lanes) (by decide +kernel) (by decide +kernel),
    meets (us := fun v => useS 4 v.g.lanes) (by decide +kernel) (by decide +kernel), by decide +kernel, rfl⟩

/-! ### Witnesses: commit groups -/

def wcgs (cgid : BitVec 32) (st : CgSt) : State := { wfib (fun f => wscal 4 5 (wscal 5 0x1000 { f with cgid := cgid })) with cgs := [wcg st] }
/-- Every state of a group, a fibre without a group, a full table, another group's id, no group of that id. -/
theorem witness_CommitInstructions :
    (∃ v, (wcgs 0 .open_).issuing v perLane (useS 5 v.g.lanes ++ useS 6 v.g.lanes ++ defS 63 v.g.lanes) ∧ v.inSegment .gl 0x1000 8 = true ∧ (v.sval 5).toNat % 8 = 0 ∧
      v.f.cgid = 0 ∧ (wcgs 0 .open_).cgs.length < 256 ∧ 256 ≤ (List.replicate 256 (wcg .open_)).length) ∧
    (∃ v, (wcgs 5 .open_).issuing v perLane (useS 4 v.g.lanes ++ defS 63 v.g.lanes) ∧ v.f.cgid ≠ 0 ∧ (wcgs 5 .open_).cg? 5 = some (wcg .open_) ∧ (wcg .open_).asid = v.f.asid ∧
      (wcgs 5 .open_).cg? 6 = none) ∧
    (∀ st ∈ [CgSt.open_, .staging, .preparing, .prepared, .hoisted, .applied, .aborted, .torn],
      (wcgs 5 st).canIssue perLane (fun v => defS 63 v.g.lanes) = true ∧ (wcgs 5 st).cg? 5 = some (wcg st) ∧ ((wcgs 5 st).view?.any fun v => v.f.cgid == 5) = true) :=
  ⟨meets (us := fun v => useS 5 v.g.lanes ++ useS 6 v.g.lanes ++ defS 63 v.g.lanes) (by decide +kernel) (by decide +kernel),
    meets (us := fun v => useS 4 v.g.lanes ++ defS 63 v.g.lanes) (by decide +kernel) (by decide +kernel), by decide +kernel⟩

/-- A page table whose first leaf, of level 2, has the flags `x`. -/
def wtab (x : Nat) (m : Memory) : Memory := putBytes (putBytes m (2 ^ 20) (leBytes 8 (2 ^ 20 + 2 ^ 18 + 1))) (2 ^ 20 + 2 ^ 18) (leBytes 8 x)
def wpt : State := { wbase with mem := wtab 0x1F wbase.mem }
def wsg (failed : Option (BitVec 8)) (prep asking : Bool) : StagedGroup :=
  { cgid := 5, sdev := 0, asid := 1, recs := [{ seq := 1, va := 0x1000, arrival := none, bytes := [1, 2, 3, 4], inc := 0, bad := false }], failed := failed, prepared := prep, asking := asking
    obj := 0x1000, pins := [] }
def wstg (g : StagedGroup) : State := { wpt with staged := [g] }
def wdest (a : Option Bool) : CgDest := { dev := 9, asid := 1, recs := 1, crc := 0, failed := none, ready := false, acked := a, tries := 0, retry := some 77 }
def wini (st : CgSt) (a b : Option Bool) : CommitGroup := { wcg st with dests := [wdest a, wdest b], asked := true }
/-- A staged group that failed, has another count, another checksum, names a page that may not be written, or is whole; one that is prepared and one that asks; a
group at the initiator with a destination not acknowledged, applied, or not applied beside the one that answers. -/
theorem witness_CommitGroupsEnd :
    (∃ c ∈ wpt.ctxs, wpt.ctx? 1 = some c ∧ c.st ≠ .closed ∧ c.ridx.isSome = true ∧ (∀ f ∈ groupFrames (wsg none false false).recs 0x1000, wpt.writable c f = true) ∧
      (∃ f ∈ groupFrames (wsg none false false).recs 0x20000000, wpt.writable c f = false)) ∧
    (∀ g ∈ [wsg (some 2) false false, wsg none false false, wsg none true false, wsg none true true], (wstg g).stagedGroup? 5 1 = some g ∧
      ((wstg g).staged.filter (·.prepared)).length < 16 ∧ (wstg g).pathsTo g.sdev ≠ []) ∧
    ((wsg none false false).recs.length = 1 ∧ (∀ r ∈ (wsg none false false).recs, r.bad = false) ∧
      (let g := wsg none false false
       let b : StagedGroup := { g with recs := g.recs.map fun r => { r with bad := true } }
       (wstg b).stagedGroup? 5 1 = some b ∧ b.recs.length = 1 ∧ ∃ r ∈ b.recs, r.bad = true) ∧
      (∀ st ∈ [CgSt.hoisted, .preparing], ({ wstg (wsg none true true) with cgs := [wcg st] } : State).stagedGroup? 5 1 = some (wsg none true true) ∧
        (wsg none true true).sdev = wbase.dev ∧ ({ wsg none true true with sdev := 9 } : StagedGroup).sdev ≠ wbase.dev ∧
        ({ wbase with cgs := [wcg st] } : State).cg? 5 = some (wcg st)) ∧ stagedCrc (wsg none false false).recs ≠ 0) ∧ (wstg (wsg none true false)).pathsTo 9 = [] ∧
    (∀ p ∈ [(CgSt.preparing, none, none), (.prepared, none, none), (.hoisted, none, none), (.hoisted, none, some true), (.hoisted, none, some false)],
      ({ wbase with cgs := [wini p.1 p.2.1 p.2.2] } : State).cg? 5 = some (wini p.1 p.2.1 p.2.2) ∧ (wini p.1 p.2.1 p.2.2).dests[0]? = some (wdest p.2.1) ∧
      (wdest p.2.1).acked = none ∧ (wini p.1 p.2.1 p.2.2).asked = true) := by decide +kernel

/-- A prepare to a context that is not resident; a first and a second RNR of two attempts; a retry to a device that a plane reaches. -/
theorem witness_CommitGroupsEnd_retry :
    (∃ c ∈ wbase.ctxs, ({ wpt with ctxs := [{ c with ridx := none }] } : State).ctx? 1 = some { c with ridx := none } ∧ c.st ≠ .closed) ∧
    ((wdest none).tries + 1 < (wini .preparing none none).limit ∧ (wini .preparing none none).limit ≤ ({ wdest none with tries := 1 } : CgDest).tries + 1) ∧
    (let s : State := { wbase with cgs := [wini .preparing none none], routes := [(0, 9)], ports := wbase.ports.map fun x => { x with st := .up } }
     s.retryOf 77 = some (5, 0) ∧ (s.requests.find? fun q => q.id == 77) = none ∧ (wdest none).dev ≠ s.dev ∧ s.pathsTo 9 ≠ []) := by decide +kernel

/-! ### Witnesses: system instructions, posts, fetch and step -/

def wctx : State := whand.modFibre ⟨0, 0, 0⟩ fun f => wscal 4 0x3000 (wscal 5 0x1040 (wone f))
/-- A fibre without a window: a block of zeros is one of its own. -/
def wblk : State := wctx.modFibre ⟨0, 0, 0⟩ fun f => { f with quota := 0 }
theorem witness_SystemInstructions :
    (∃ v, wctx.issuing v privileged (useS 4 v.g.lanes) ∧ v.c.sysop = true ∧ v.fresh ∧ v.inSegment .gl 0x3000 0x9000 = true ∧ v.blockAddr 4 % 0x1000 = 0 ∧ v.f.out = [] ∧
      wokAnd (v.blockPlaces wctx 0x3000 .write none) (fun p => p.2.1.isEmpty && p.1.all fun q => !wctx.isTagged q.1) = true ∧
      wokAnd (v.blockPlaces wctx 0x3000 .read none) (fun p => p.2.1.isEmpty) = true) ∧
    (∃ v, wctx.issuing v privileged (useS 5 v.g.lanes) ∧ v.inSegment .gl 0x1040 0x9000 = true ∧ v.blockAddr 5 % 0x1000 ≠ 0) ∧
    (∃ v, wctx.issuing v privileged [] ∧ v.c.sysop = true) ∧ (∃ v, wctx.issuing v privileged (useS 4 v.g.lanes ++ useS 5 v.g.lanes)) ∧
    ∃ v, wctx.view? = some v ∧ block32 (List.replicate 4096 0) 0x248 ≠ v.f.quota :=
  ⟨meets (us := fun v => useS 4 v.g.lanes) (by decide +kernel) (by decide +kernel), meets (us := fun v => useS 5 v.g.lanes) (by decide +kernel) (by decide +kernel),
    meets (us := fun _ => []) (by decide +kernel) (by decide +kernel), State.canIssue_spec (us := fun v => useS 4 v.g.lanes ++ useS 5 v.g.lanes) (by decide +kernel), sees (by decide +kernel)⟩

/-- Words of one page that a cache holds as zero. -/
def wzero (w : Nat) : Copy := { wcopy with word := w, val := 0, dirty := false }
def wzerosOf (n : Nat) : State := { wblk with copies := (upTo n).map fun i => wzero (0xC00 + i) }
abbrev wzeros : State := wzerosOf 9216
theorem wzerosOf_copies (n : Nat) : (wzerosOf n).copies = (upTo n).map fun i => wzero (0xC00 + i) := rfl
theorem leNat_replicate_zero (n : Nat) : leNat (List.replicate n (0 : Byte)) = 0 := by
  induction n with
  | zero => rfl
  | succ n ih => rw [List.replicate_succ, leNat, ih]; rfl
theorem blockNat_replicate_zero (n o k : Nat) : blockNat (List.replicate n 0) o k = 0 := by
  rw [blockNat, List.drop_replicate, List.take_replicate]; exact leNat_replicate_zero _
/-- Parts of whole words that a core's L1 holds as zero are loaded as zeros and change nothing. -/
theorem loads_zeros {s : State} {a : Agent} {ps : List (Target × Nat)} (hne : 4 ≤ partsLen ps)
    (h : ∀ p ∈ ps, s.loadWord a p.1 none = (s, 0, false) ∧ p.2 = 4) : s.loadParts a none ps = (s, List.replicate ps.length 0, false) := by
  have fold : ∀ (ps : List (Target × Nat)) (acc : List (Nat × Nat)), (∀ p ∈ ps, s.loadWord a p.1 none = (s, 0, false) ∧ p.2 = 4) →
      ps.foldl (fun acc p => let (s, w, bad) := acc.1.loadWord a p.1 none
        (s, acc.2.1 ++ [(partOf p.1 p.2 w, p.2)], acc.2.2 || bad)) (s, acc, false) = (s, acc ++ List.replicate ps.length (0, 4), false) := by
    intro ps
    induction ps with
    | nil => intro acc _; simp
    | cons p ps ih =>
      intro acc h
      obtain ⟨h1, h2⟩ := h p (List.mem_cons_self ..)
      have hp : partOf p.1 4 0 = 0 := by simp [partOf]
      rw [List.foldl_cons, h1]
      show List.foldl _ (s, acc ++ [(partOf p.1 p.2 0, p.2)], false) ps = _
      rw [h2, hp, ih _ fun q hq => h q (List.mem_cons_of_mem _ hq)]
      simp [List.replicate_succ]
  rw [State.loadParts, fold ps [] h]
  simp [rejoin, Nat.min_eq_left hne, State.homeReads, State.countReads, blocksOf]
theorem zero_load {w n : Nat} (h : 0xC00 ≤ w ∧ w < 0xC00 + n) {s : State} (hs : s.copies = (upTo n).map fun i => wzero (0xC00 + i)) (m : Mapped)
    (hm : m.pa / 4 = w) : s.loadWord ⟨0, 0⟩ (.mem m) none = (s, 0, false) := by
  have hc : ∃ c, s.copy? (.l1 0) w = some c ∧ c.val = 0 ∧ c.poison = false := by
    have hi : ((s.copies.find? fun c => c.pos == .l1 0 && c.word == w).isSome) = true := by
      rw [List.find?_isSome, hs]
      exact ⟨wzero w, List.mem_map.2 ⟨w - 0xC00, List.mem_range.2 (by omega), by rw [Nat.add_sub_cancel' h.1]⟩, by simp [wzero, wcopy]⟩
    obtain ⟨c, hc⟩ := Option.isSome_iff_exists.1 hi
    have hm := List.mem_of_find?_eq_some hc
    rw [hs] at hm
    obtain ⟨i, -, rfl⟩ := List.mem_map.1 hm
    exact ⟨_, hc, rfl, rfl⟩
  obtain ⟨c, hc, hv, hp⟩ := hc
  simp [State.loadWord, State.valueAtLevel, State.nearCopy, hm, hc, hv, hp]
theorem keeps_copies (a : Agent) (es : List TlbEntry) (s : State) : (es.foldl (fun s e => s.keepXlat a e) s).copies = s.copies := by
  induction es generalizing s with
  | nil => rfl
  | cons e es ih => rw [List.foldl_cons, ih]; unfold State.keepXlat; split <;> rfl
/-- A block of zeros in the L1, which a fibre without a window accepts. -/
theorem witness_SystemInstructions_load : ∃ v, wzeros.issuing v privileged (useS 4 v.g.lanes) ∧ v.c.sysop = true ∧ v.fresh ∧ v.inSegment .gl (v.blockAddr 4) 0x9000 = true ∧
    v.blockAddr 4 % 0x1000 = 0 ∧ v.f.out = [] ∧ ∃ parts used, v.blockPlaces wzeros (v.blockAddr 4) .read none = .ok (parts, [], used) ∧
      (let r := (used.foldl (fun s e => s.keepXlat v.agent e) wzeros).loadParts v.agent none parts
       let blk := r.2.1.flatMap fun x => leBytes 4 x
       r.2.2 = false ∧ blockClean blk = true ∧ block32 blk 0x248 = v.f.quota ∧ block32 blk 0x2C0 &&& ~~~v.f.live = 0) := by
  obtain ⟨v, hv, h1, h2, h3, h4, h5, ha, hq, hp⟩ := meets (s := wzeros) (k := privileged) (us := fun v => useS 4 v.g.lanes)
    (P := fun v => v.c.sysop = true ∧ v.fresh ∧ v.inSegment .gl (v.blockAddr 4) 0x9000 = true ∧ v.blockAddr 4 % 0x1000 = 0 ∧ v.f.out = [] ∧ v.agent = ⟨0, 0⟩ ∧
      v.f.quota = 0 ∧ wokAnd (v.blockPlaces wzeros (v.blockAddr 4) .read none) (fun p => p.2.1.isEmpty && p.1.length == 9216 && p.1.all fun q =>
        q.2 == 4 && match q.1 with | .mem x => decide (0xC00 ≤ x.pa / 4 ∧ x.pa / 4 < 0xC00 + 9216) | .pad .. => false) = true)
    (by decide +kernel) (by decide +kernel)
  refine ⟨v, hv, h1, h2, h3, h4, h5, ?_⟩
  cases hb : v.blockPlaces wzeros (v.blockAddr 4) .read none with
  | error e => rw [hb] at hp; cases hp
  | ok p =>
    obtain ⟨parts, frames, used⟩ := p
    rw [hb] at hp
    simp only [wokAnd, Bool.and_eq_true, List.isEmpty_iff, beq_iff_eq, List.all_eq_true] at hp
    obtain ⟨⟨rfl, hl⟩, hall⟩ := hp
    refine ⟨parts, used, rfl, ?_⟩
    have four : ∀ q ∈ parts, q.2 = 4 := fun q hq' => (hall q hq').1
    have hlen : 4 ≤ partsLen parts := by
      cases parts with
      | nil => cases hl
      | cons q qs => simp [partsLen, four q (List.mem_cons_self ..)]
    rw [ha, loads_zeros hlen fun q hq' => ⟨?_, four q hq'⟩]
    · have hz : (List.replicate parts.length 0).flatMap (fun x => leBytes 4 x) = List.replicate (4 * parts.length) 0 := by
        generalize parts.length = n
        induction n with
        | zero => rfl
        | succ n ih =>
          rw [List.replicate_succ, List.flatMap_cons, ih, Nat.mul_succ, Nat.add_comm, List.replicate_add]
          rfl
      simp only [hz, block32, blockNat_replicate_zero, blockClean, hq]
      exact ⟨trivial, rfl, rfl, BitVec.zero_and⟩
    · obtain ⟨t, n⟩ := q
      have := (hall _ hq').2
      cases t with
      | pad => cases this
      | mem x =>
        simp only [decide_eq_true_eq] at this
        exact zero_load this ((keeps_copies _ _ _).trans (wzerosOf_copies _)) x rfl

def wqueue (st : QueueSt) : Queue := { cva := 0x2000, pva := 0x2080, rva := 0x4000, asid := 1, lsz := 2, cap := 0, st := st, met := [] }
/-- Queue 0 in a state, its producer index `p`, and a packet image at 0x1000 of team space. -/
def wq (st : QueueSt) (p : Nat) (kind : Byte) : State :=
  { wfib (fun f => wscal 5 0x1000 f) with queues := wbase.queues.set! 0 (wqueue st), mem := putBytes wpt.mem 0x2080 (leBytes 8 p)
                                          teams := wbase.teams.map fun t => { t with pad := putByte [] 0x1000 kind } }
/-- The same while a request of the fibre is open; and with the producer index on a page of die 1, which answers with errors. -/
def wqlate : State := (wq .active 3 1).modFibre ⟨0, 0, 0⟩ fun f => { f with out := [{ wout with remote := [99] }] }
def wqgone : State :=
  { wq .active 3 1 with
    queues := wbase.queues.set! 0 { wqueue .active with pva := 0x20002080 }, mem := putBytes (wq .active 3 1).mem (2 ^ 20 + 2 ^ 18 + 8) (leBytes 8 0x300000001F)
    dies := wbase.dies.set 1 { wbase.dies[1] with errs := true } }
theorem witness_PostsAndStatus :
    (∃ v, wqlate.issuing v perLane (useS 4 v.g.lanes ++ useS 5 v.g.lanes ++ defS 63 v.g.lanes) ∧ v.fresh ∧ wqlate.releaseWaits v.f .device ≠ [] ∧
      wokAnd (v.wideLoad wqlate .tm 0x1000 128 128 none) (fun p => p.2.2.1.isNone && p.2.2.2.isEmpty) = true) ∧
    (∃ v, wqgone.issuing v perLane (useS 4 v.g.lanes ++ useS 5 v.g.lanes ++ defS 63 v.g.lanes) ∧ v.fresh ∧
      wokAnd (v.postImage wqgone .tm 63 5 .device true none) (fun p => p.2.2.1.isNone && p.2.2.2.isEmpty && (p.1.postLost 0 p.2.1).isSome) = true) ∧
    (∃ v, (wq .active 3 1).issuing v perLane (useS 4 v.g.lanes ++ useS 5 v.g.lanes ++ defS 63 v.g.lanes) ∧ v.fresh ∧ ((wq .active 3 1).queue 0).asid = v.f.asid ∧
      wokAnd (v.postImage (wq .active 3 1) .tm 63 5 .device true none) (fun p => p.2.2.1.isNone && p.2.2.2.isEmpty && (packetOf p.2.1).kind == 1) = true) ∧
    (∃ v, (wq .disabled 0 0).issuing v perLane (useS 4 v.g.lanes ++ useS 5 v.g.lanes ++ defS 63 v.g.lanes) ∧ ((wq .disabled 0 0).queue 0).st = .disabled ∧
      wokAnd (v.wideLoad (wq .disabled 0 0) .tm 0x1000 128 128 none) (fun p => p.2.2.1.isNone && p.2.2.2.isEmpty && (packetOf p.2.1).kind == 0) = true) ∧
    (∃ c ∈ wbase.ctxs, (wq .active 3 1).ctx? 1 = some c ∧ wokAnd ((wq .active 3 1).indices c (wqueue .active)) (fun p => p == (3, 0)) = true ∧ 3 < 0 + 2 ^ (wqueue .active).lsz ∧
      wokAnd ((wq .active 4 1).indices c (wqueue .active)) (fun p => p == (4, 0)) = true ∧ 0 + 2 ^ (wqueue .active).lsz ≤ 4 ∧
      wokAnd ((wq .active 3 1).homeWrite c (0x4000 + 128 * 3) (List.replicate 128 0)) (fun t => wokAnd (t.writeIndex c 0x2080 4) fun _ => true) = true) :=
  ⟨meets (us := fun v => useS 4 v.g.lanes ++ useS 5 v.g.lanes ++ defS 63 v.g.lanes) (by decide +kernel) (by decide +kernel),
    meets (us := fun v => useS 4 v.g.lanes ++ useS 5 v.g.lanes ++ defS 63 v.g.lanes) (by decide +kernel) (by decide +kernel),
    meets (us := fun v => useS 4 v.g.lanes ++ useS 5 v.g.lanes ++ defS 63 v.g.lanes) (by decide +kernel) (by decide +kernel),
    meets (us := fun v => useS 4 v.g.lanes ++ useS 5 v.g.lanes ++ defS 63 v.g.lanes) (by decide +kernel) (by decide +kernel), by decide +kernel⟩

/-- The fibre at `pc`, where the bytes `bs` stand. -/
def wpc (pc : VA) (bs : List Byte) : State :=
  let s := wfib fun f => { f with gangs := f.gangs.map (fun g => { g with pc := pc }), noFetch := [2 ^ 20] }
  { s with cur := some { f := ⟨0, 0, 0⟩, gang := 0, pc := pc }, mem := putBytes [] pc.toNat bs }
abbrev wx (s : State) (v : View) : Xlat := s.xlatOr v.agent v.c v.f.noFetch v.iss.pc.toNat .exec
/-- The fibre at 0, with page tables whose first leaf has the flags `x`. -/
def wleaf (x : Nat) : State := { wpc 0 [] with coreTlb := [], mem := wtab x [] }
/-- A page that is migrating, an entry that is invalid, a page that is not mapped and one without the right, an error in the data, the length code 11, the last word that its block holds and one that crosses it, and one that
does not decode. -/
theorem witness_FetchTraps :
    (∃ v, (wleaf 0x81F).view? = some v ∧ wx (wleaf 0x81F) v = .replay) ∧
    (∃ v, (wleaf 0).view? = some v ∧ (match wx (wleaf 0) v with | .unmapped _ => true | _ => false) = true) ∧
    (∃ v, (wpc 0x1FFF0000 []).view? = some v ∧ wx (wpc 0x1FFF0000 []) v = .mapping) ∧
    (∃ v, (wleaf 0x7).view? = some v ∧ wx (wleaf 0x7) v = .permission) ∧
    (∃ v, (wpc 24 (leBytes 8 0x3C)).view? = some v ∧ (match wx (wpc 24 (leBytes 8 0x3C)) v with | .ok _ => true | _ => false) = true ∧ 32 - v.iss.pc.toNat % 32 = 8 ∧
      Len.ofCode (((bytesAt (wpc 24 (leBytes 8 0x3C)).mem 24 8).headD 0).extractLsb' 0 2) = some .l64 ∧ (wpc 24 []).gone (some 0) 24 = false ∧ (wpc 24 []).poison = []) ∧
    (∃ v, (wpc 28 [0x3C]).view? = some v ∧ 32 - v.iss.pc.toNat % 32 < 8) ∧ ((3 : Byte).extractLsb' 0 2 = 3#2) ∧
    (({ wpc 24 [] with poison := [6] } : State).codeWord ⟨0, 0⟩ { wmap with pa := 24 } 6).2 = true ∧ (∀ c ∈ (wpc 24 []).copies, c.word = 6 → c.dirty = false) ∧ (match decode (leBytes 8 (0x3C + 2 ^ 63)) with | .error .illegalInstruction => true | _ => false) = true :=
  ⟨sees (by decide +kernel), sees (by decide +kernel), sees (by decide +kernel), sees (by decide +kernel), sees (by decide +kernel), sees (by decide +kernel), by decide +kernel, by decide +kernel, by decide +kernel⟩

/-- A fibre that its quadrant chooses, an event at the head of the agenda, and an event of the device's own. -/
theorem witness_StepRunsDecodedInstruction :
    (let s : State := { wbase with agenda := [.issue ⟨0, 0, 0⟩], mem := putBytes [] 0 (leBytes 8 0x38) }
     let s0 := ({ s with agenda := [] } : State).pass
     ∃ f ∈ s0.fibres, s0.fibre? ⟨0, 0, 0⟩ = some f ∧ (s0.chosen (s0.quadrantOf f)).map (·.ref) = some f.ref ∧
       ((s0.turnTo f).view?.any fun v => wokAnd (v.fetch (s0.turnTo f)) fun x => x.2 == .nop hd .l64) = true) ∧
    (∀ p ∈ [(0x81F, true), (0x7, false)],
      let s : State := { wbase with agenda := [.issue ⟨0, 0, 0⟩], coreTlb := [], mem := wtab p.1 [] }
      let s0 := ({ s with agenda := [] } : State).pass
      ∃ f ∈ s0.fibres, s0.fibre? ⟨0, 0, 0⟩ = some f ∧ (s0.chosen (s0.quadrantOf f)).map (·.ref) = some f.ref ∧
        ((s0.turnTo f).view?.any fun v => match v.fetch (s0.turnTo f) with
          | .error (.freeze ..) => p.2 | .error (.trap none _) => !p.2 | _ => false) = true) ∧
    isWord .powerOnReset = false ∧
    (let s := wfib fun f => { f with out := [wout] }
     s.pass.ownEvent.any (fun e => !isWord e) = true) := by decide +kernel

/-! ### Witnesses: events -/

/-- The fibre holds a trap of a kind, as it runs or parked at a wait for tags. -/
def wheld (k : HeldKind) (parked : Bool) : State :=
  wfib fun f => { f with
    held := [⟨k, wtrap .dataError⟩]
    st := if parked then .parked .waits else .run
    gangs := f.gangs.map fun g => if parked then { g with st := .wait (.tagsAll 1) } else g }
def wcmpw (x : Nat) : State :=
  { wfib (fun f => { f with gangs := f.gangs.map fun g => { g with st := .wait (.cmp .eq .n32 .device false 8
      [(0, 0x1000, .home 0x1000 0 0 false, 1), (1, 0x1004, .home 0x1004 0 0 false, 0)] [] [0] false []) } }) with
    mem := putByte wbase.mem 0x1000 (BitVec.ofNat 8 x), monitors := [{ at_ := .home 0x1000 0 0 false, die := 0, home := true, owner := .gang ⟨0, 0, 0⟩ 0 }] }
def wflagged : State := { wfib (fun f => { f with st := .parked (.flag 2 1) }) with slots := wbase.slots.map fun x => { x with queue := [(2, 0, 1), (2, 1, 1)] } }
def wgrouped : State := wfib fun f => { f with st := .parked .waits, gangs := f.gangs.map fun g => { g with st := .wait (.group 3 7 false 8) } }
/-- A data error of a fibre parked at a wait for tags; a fibre of one gang that runs, that waits for a flag, or for a group's phase. -/
theorem witness_FibreEventsComplete_parked :
    (∃ f ∈ (wheld .data true).fibres, f.live ≠ 0 ∧ f.st = .parked .waits ∧ (((wheld .data true).unpark f.ref).fibre? f.ref).isSome = true) ∧
    (∃ f ∈ wbase.fibres, ∃ g ∈ f.gangs, wbase.fibre? f.ref = some f ∧ f.gangs = [g] ∧ f.turn = g.id ∧ f.st = .run) ∧
    (∃ f ∈ wflagged.fibres, ∃ g ∈ f.gangs, wflagged.fibre? f.ref = some f ∧ f.gangs = [g] ∧ f.turn = g.id ∧ f.st = .parked (.flag 2 1) ∧
      (wflagged.slot? f).isSome = true) ∧
    (∃ f ∈ wgrouped.fibres, ∃ g ∈ f.gangs, wgrouped.fibre? f.ref = some f ∧ f.gangs = [g] ∧ f.turn = g.id ∧ f.st = .parked .waits ∧
      g.st = .wait (.group 3 7 false 8)) := by decide +kernel
/-- Every kind of held trap while the fibre runs, a JobFault at a wait for tags; a fibre frozen for a page; a wait of two lanes of which both or one are satisfied, of
which one polls; and the same wait of a cluster that is saved. -/
theorem witness_FibreEventsComplete :
    (∀ p ∈ [(HeldKind.data, false), (.matrix, false), (.job, false), (.remote, false), (.job, true)], ∃ f ∈ (wheld p.1 p.2).fibres,
      (wheld p.1 p.2).fibre? f.ref = some f ∧ f.held = ⟨p.1, wtrap .dataError⟩ :: [] ∧ f.taking = none ∧ f.hmode = false ∧ (wheld p.1 p.2).issues f.ref.cl = true ∧
      (f.st = .run ∨ p.1 = .job ∧ f.st = .parked .waits ∧ f.waitsOnTags = true) ∧
      ((((wheld p.1 p.2).modFibre f.ref Fibre.trapTurn).unpark f.ref).fibre? f.ref).isSome = true) ∧
    (∃ f ∈ (wfib fun f => { f with st := .frozen (.replay [5]) }).fibres, (wfib fun f => { f with st := .frozen (.replay [5]) }).fibre? f.ref = some f ∧
      f.st = .frozen (.replay [5]) ∧ wbase.portRuns 0 = true ∧ (wbase.ctx? f.asid).isSome = true ∧ f.sending = []) ∧
    (∃ c ∈ wpt.ctxs, (wpt.tableWrite c (2 ^ 20 + 2 ^ 18 + 8, 0x2000001F)).isSome = true ∧ (wpt.tableWrite c (2 ^ 20 + 2 ^ 18, 0x2000001F)).isSome = false ∧
      (wpt.tableWrites c [(2 ^ 20 + 2 ^ 18 + 8, 0x2000001F)]).isSome = true) ∧
    (∀ x ∈ [0, 1], ∃ f ∈ (wcmpw x).fibres, ∃ g ∈ f.gangs, (wcmpw x).fibre? f.ref = some f ∧ (f.gangs.find? fun x => x.id == g.id) = some g ∧
      g.st = .wait (.cmp .eq .n32 .device false 8 [(0, 0x1000, .home 0x1000 0 0 false, 1), (1, 0x1004, .home 0x1004 0 0 false, 0)] [] [0] false []) ∧
      ((wcmpw x).syncWords ((wcmpw x).agentOfFibre f) none 4 [(0, 0x1000, .home 0x1000 0 0 false, 1), (1, 0x1004, .home 0x1004 0 0 false, 0)]).waitError ((wcmpw x).waitDie f .device) .n32 [(0, 0x1000, .home 0x1000 0 0 false, 1), (1, 0x1004, .home 0x1004 0 0 false, 0)] = none ∧
      (wcmpw x).isOut f.ref = false ∧ (wcmpw x).issues f.ref.cl = true ∧ (∃ m ∈ (wcmpw x).monitors, m.owner = .gang f.ref g.id) ∧ 1 ∉ [(0 : Nat)]) ∧
    ({ wcmpw 0 with clusters := wbase.clusters.map fun c => { c with st := .saved } } : State).isOut ⟨0, 0, 0⟩ = true := by decide +kernel

/-! A queue of 16 packets at 0x4000 whose head is a launch of the record at 0x6000, or an empty packet, or malformed. -/

def wring (p : Nat) (pkt : List Byte) : State :=
  { wpt with queues := wbase.queues.set! 0 { wqueue .active with lsz := 4 }, mem := putBytes (putBytes wpt.mem 0x2080 (leBytes 8 p)) 0x4000 pkt, kernels := [] }
def wlaunch : List Byte := leBytes 8 1 ++ leBytes 8 0x6000
theorem witness_KernelsLoadAndRetire_take : ∃ c ∈ wbase.ctxs, (wring 1 wlaunch).ctx? 1 = some c ∧ (c.st = .resident ∨ c.st = .running) ∧
    wokAnd ((wring 1 wlaunch).indices c { wqueue .active with lsz := 4 }) (fun p => p == (1, 0)) = true ∧
    wokAnd ((wring 17 []).indices c { wqueue .active with lsz := 4 }) (fun p => p == (17, 0)) = true ∧ 0 + 2 ^ 4 < 17 ∧
    (∀ x ∈ [(leBytes 8 0, 0, false), (leBytes 8 3, 3, true), (wlaunch, 1, false), (leBytes 8 2, 2, false)],
      wokAnd ((wring 1 x.1).homeRead c [] 0x4000 128) (fun b => (packetOf b).kind == x.2.1 && packetBad b == x.2.2 &&
        wokAnd ((wring 1 x.1).observe c [] (packetOf b) []) fun met => met == []) = true) ∧
    (wring 1 wlaunch).queueBusy 0 = false ∧ wbase.queueBusy 0 = true ∧ (packetOf (leBytes 16 0x1001)).ord = true ∧
    wokAnd ((wring 1 wlaunch).leaveRing c { wqueue .active with lsz := 4 } 0x4000 0 1) (fun s2 => wokAnd (s2.release [] ((packetOf wlaunch).release 1 ⟨0, 0, 0⟩ false)) fun _ => true) = true := by
  decide +kernel
theorem witness_KernelsLoadAndRetire_depend : ∃ c ∈ wbase.ctxs, let b := leBytes 32 0x101 ++ leBytes 16 (0x5000 + 2 ^ 64) ++ List.replicate 80 0
    (packetOf b).nd = 1 ∧ packetBad b = false ∧ wokAnd ((wring 1 b).observe c [] (packetOf b) []) (fun met => met == []) = true := by decide +kernel

/-- A launch of no cluster or of one cluster of one team with one fibre at 0x6000; one whose record sets a reserved bit. -/
def wrecord (ctl cnt : Nat) : List Byte :=
  leBytes 16 (ctl + 2 ^ 14) ++ leBytes 16 0x8000 ++ leBytes 16 (1 + 2 ^ 32 + 2 ^ 64) ++ leBytes 16 (cnt * 2 ^ 32) ++ List.replicate 120 0 ++ leBytes 8 (2 ^ 60 + 7)
def wload (st : KernelSt) (at_ : Nat) (r : List Byte) : State :=
  { wpt with mem := putBytes wpt.mem 0x6000 r, clusters := [], fibres := [], teams := [], slots := []
             kernels := [{ placedKernel with st := st, rcd := none, pkt := { placedKernel.pkt with recd := BitVec.ofNat 64 at_ } }] }
theorem witness_KernelsLoadAndRetire_load :
    (∀ p ∈ [(0x6000, wrecord 0 0, none), (0x6000, wrecord 0 1, none), (0x6000, wrecord 1 1, some (0x02 : Byte))], ∃ x ∈ (wload .loading p.1 p.2.1).kernels, ∃ c ∈ wbase.ctxs,
      (wload .loading p.1 p.2.1).kernel? x.ref = some x ∧ (wload .loading p.1 p.2.1).ctx? x.asid = some c ∧ x.st = .loading ∧
      (match (wload .loading p.1 p.2.1).readLaunch c [] x.pkt.recd.toNat x.reads with | .ok raw _ => launchReason raw x.pkt.args == p.2.2 | .error .. => false) = true ∧
      wokAnd ((wload .loading p.1 p.2.1).release [] (x.pkt.release x.asid x.ref true)) (fun _ => true) = true) ∧
    (∃ c ∈ wbase.ctxs, (match (wload .loading 0 []).readLaunch c [] 0x6001 [] with | .error e _ => e == .bad 0 | .ok .. => false) = true ∧
      (match (wload .loading 0 []).readLaunch c [] 0x20000000 [] with | .error e _ => e == .wait 0x2000 | .ok .. => false) = true ∧
      (match (wload .loading 0x6000 (wrecord 0 1)).readLaunch c [] 0x6000 [] with | .ok _ rs => (aget rs (0x6000, 512)).isSome | .error .. => false) = true) := by
  decide +kernel
theorem witness_KernelsLoadAndRetire_end : ∃ x ∈ (wload .ending 0 []).kernels, (wload .ending 0 []).kernel? x.ref = some x ∧ x.st = .ending ∧
    wokAnd ((x.cores.foldl (fun s core => s.throughAll ⟨core, core / 40⟩ .home fun _ => true) (wload .ending 0 [])).release [] (x.pkt.release x.asid x.ref false)) (fun _ => true) = true ∧
    ∃ c ∈ wbase.ctxs, wokAnd (wpt.homePlace c [] 0x5000 .write) (fun m => wpt.gone (some m.die) m.pa == false) = true := by decide +kernel

/-! A kernel one cluster of which waits for a place on die 0, while another one of it may run, be saved, or be pre-empted. -/

def wplaceable (r : Launch) (left : List (Nat × Nat × Nat)) (st : Option ClusterSt) : State :=
  { wbase with
    kernels := [{ placedKernel with ref := ⟨0, 0, 0⟩, rcd := some r, st := .dispatching, left := left }]
    ctxs := wbase.ctxs.map fun c => { c with savesize := 2 ^ 25 }
    clusters := match st with | some st => wbase.clusters.map fun c => { c with st := st } | none => []
    fibres := if st.isSome then wbase.fibres else [], teams := if st.isSome then wbase.teams else [], slots := if st.isSome then wbase.slots else [] }
abbrev wlaunch4 : Launch := { placedLaunch with shape := .s22, m := 2, n := 4, counts := [128, 120] }
theorem witness_ClustersRunAndStop_place : ∀ p ∈ [(placedLaunch, [(7 : Nat)]), (wlaunch4, [0, 1, 7, 8])],
    let s := wplaceable p.1 [(0, 5, 2)] none
    ∃ x ∈ s.kernels, s.kernel? x.ref = some x ∧ x.rcd = some p.1 ∧ (x.left.find? fun y => y.2.1 == 5 && y.2.2 != 0) = some (0, 5, 2) ∧
      (s.fitsCores p.1 p.2).isSome = true ∧ ({ k := x.ref, cls := x.cls, order := x.order, index := 5, saved := none } : Candidate) ∈ s.candidates 0 ∧
      s.mayPlace 0 { k := x.ref, cls := x.cls, order := x.order, index := 5, saved := none } = true ∧ p.2 ∈ s.placesOn p.1 0 := by decide +kernel
/-- A die that quiesces pre-empts the cluster; its only fibre is parked at a wait for tags; a pre-emption that can be saved; a saved cluster that can be resumed. -/
theorem witness_ClustersRunAndStop_stop :
    (let s := { wplaceable placedLaunch [] (some .running) with dies := wbase.dies.set 0 { wbase.dies[0] with st := .quiescing } }
     ∃ c ∈ s.clusters, s.cluster? c.id = some c ∧ c.st = .running ∧ (s.dies.getD c.die Die.reset).halted = false ∧ s.mayPreempt c .quiesce = true ∧ (s.runFor c).isSome = true) ∧
    (∃ c ∈ (wheld .job true).clusters, c.st = .running ∧ (∃ f ∈ (wheld .job true).fibres, f.ref.cl = c.id ∧ f.st ≠ .exited) ∧
      ∀ f ∈ (wheld .job true).fibres, f.ref.cl = c.id → f.st ≠ .exited → f.parkedLong = true) ∧
    (∃ c ∈ (wplaceable placedLaunch [] (some .preempting)).clusters, c.st = .preempting ∧ (wplaceable placedLaunch [] (some .preempting)).canSave c.id = true) ∧
    (let s := wplaceable placedLaunch [] (some .saved)
     ∃ c ∈ s.clusters, ∃ k ∈ s.kernels, s.cluster? c.id = some c ∧ s.kernelOf c = some k ∧ k.rcd = some placedLaunch ∧ (s.fitsCores placedLaunch [0]).isSome = true ∧
      ({ k := k.ref, cls := k.cls, order := k.order, index := c.index, saved := some c.id } : Candidate) ∈ s.candidates c.die ∧
      s.mayPlace c.die { k := k.ref, cls := k.cls, order := k.order, index := c.index, saved := some c.id } = true ∧ [0] ∈ s.placesOn placedLaunch c.die ∧ s.arrivals = []) := by
  decide +kernel

/-! Requests of device 9 under ASID 3 to context 1, and open requests of the fibre. -/

def wreqs (op : RemOp) (seq : Option (BitVec 16)) : RemReq :=
  { sdev := 9, sasid := 3, asid := 1, va := 0x1000, op := op, seq := seq, lowest := 0, inc := none, arv := none, scope := .pod }
def wacl : Acl := { v := true, sdev := 9, sasid := 3, cap := 3, qmask := 1 }
def winp : State := { wpt with acl := [(4, wacl)], replies := [(((none, 9), 7), .ack [])] }
def whome (op : RemOp) (p : Mapped → Bool) : Bool := wbase.ctxs.any fun c => match winp.reach c 0x1000 (needOf op) with | .here m => p m | _ => false
/-- An entry and none; a kept reply and none; a context that is here, is not resident, or is not; a page that is mapped, with and without a tagged word. -/
theorem witness_RequestsAndReplies_arrive :
    (∀ op ∈ [RemOp.read 8, .write [1], .atom .add .n64 1 0, .arrive 3 5, .post 0 [], .staged 5 1 none [] 0], winp.outOfOrder (wreqs op none) = false ∧
      winp.namedInc (wreqs op none) = none ∧ winp.namedInc { wreqs op none with inc := some 5 } = some 5) ∧
    (aget (winp.freeReplies (wreqs (.read 8) (some 7))).replies ((none, 9), 7) = some (.ack [])) ∧
    winp.entryFor 9 3 = some wacl ∧ winp.entryFor 9 4 = none ∧ aget winp.replies ((none, 9), 7) = some (.ack []) ∧ aget winp.replies ((none, 9), 8) = none ∧
    (winp.ctx? 2 = none) ∧ (∃ c ∈ winp.ctxs, winp.ctx? 1 = some c ∧ c.st ≠ .closed ∧ c.ridx.isSome = true) ∧
    (∃ c ∈ wbase.ctxs, ({ winp with ctxs := [{ c with st := .created, ridx := none }] } : State).ctx? 1 = some { c with st := .created, ridx := none }) ∧
    whome (.read 8) (fun m => !winp.gone (some m.die) m.pa && !winp.poisonIn m.pa 8) = true ∧ whome (.write [1]) (fun m => !winp.tagsIn m.pa 1) = true ∧
    (({ winp with tags := [0x200] } : State).tagsIn 0x1000 1 = true) ∧ (some (5 : BitVec 32) ≠ none ∧ some (5 : BitVec 32) ≠ some winp.inc) := by decide +kernel

def wopen (u : ReplyUse) (tries : Nat) (back : Bool) (p : Path) : Request := { wreq u with path := p, tries := tries, backoff := back }
def wopened (q : Request) : State := { wpt with requests := [q], ports := wbase.ports.map fun x => { x with st := .up } }
/-- A request of each use that waits for its reply, the first attempt of one and of two, one that waits to be sent again with a way or without, and one that is no access. -/
theorem witness_RequestsAndReplies_reply :
    (∀ u ∈ [ReplyUse.nothing, .scalar 5 8 .n32, .status 5 8, .get 5 []], ∀ t ∈ [0, 1],
      let q := wopen u t false (.plane 0 0)
      ((wopened q).requests.find? fun x => x.id == q.id) = some q ∧ q.backoff = false ∧ q.path ≠ .self ∧ (q.tries + 1 < 2 ∨ 2 ≤ q.tries + 1)) ∧
    (∀ b ∈ [none, some (Trap.remoteFault, (1 : Byte))], ∀ t ∈ [0, 1],
      let q := { wopen .nothing t false (.plane 0 0) with mc := true, broken := b }
      ((wopened q).requests.find? fun x => x.id == q.id) = some q ∧ q.backoff = false ∧ q.path ≠ .self ∧ q.broken = b ∧ (q.tries + 1 < q.limit ∨ q.limit ≤ q.tries + 1)) ∧
    (let q := wopen .nothing 0 true (.plane 0 0)
     (wopened q).behind q = false ∧ ((wopened q).wayAgain { q with mc := true }).isSome = true ∧ ((wopened q).wayAgain { q with mc := true }).all (fun p => (wopened q).roomOn p q.req.op.bytes) = true) ∧
    (let q := { wopen .nothing 0 true (.span 32) with dst := 0xFE00 }
     ({ wopened q with ports := wbase.ports } : State).pathsTo q.dst = []) ∧
    (let q := wopen .nothing 0 false (.plane 0 0)
     ∃ f ∈ (wopened q).fibres, (wopened q).fibre? q.f = some f ∧ f.st ≠ .exited ∧ f.live ≠ 0 ∧ (wopened q).accessOf q = none) := by decide +kernel

/-! Ports and planes in every state. -/

def wport (n : Nat) (u : Port → Port) : State := { wbase with ports := wbase.ports.mapIdx fun i p => if i = n then u p else p, devGiven := true }
theorem witness_LinkEventsComplete :
    (∀ n ∈ [0, 31, 32, 39], (trainedSt n (if n < 32 then 4 else 1)).isSome = true ∧
      (∀ st ∈ [PortSt.training, .retraining, .up, .degraded, .down], ((wport n fun p => { p with st := st }).port n).st = st) ∧
      ((wport n fun p => { p with st := .up, lanes := 4, replays := 8, rekey := true }).port n).lanes = 4 ∧
      ((wport n fun p => { p with st := .up, lanes := 1, replays := 8, rekey := true }).port n).replays = 8) ∧
    wbase.farWrong 0 5 = false ∧ wbase.farWrong 0 0xFE00 = true ∧ wbase.farWrong 32 5 = true ∧
    ({ wbase with span := wbase.span.set! 0 1 } : State).farWrong 32 5 = false ∧
    (∀ st ∈ [PlaneSt.draining, .available, .unavailable], ({ wbase with planes := Vector.replicate 16 st } : State).plane 15 = st) ∧
    (∀ q ∈ wbase.requests, q.path.planeOf = some 15 → q.backoff = true) ∧ (∀ c ∈ wbase.colls, c.on 15 = false) ∧ (∀ g ∈ wbase.cgs, wbase.awaits g 15 = false) ∧ (wport 0 id).devGiven = true ∧ wbase.portRuns 0 = true ∧ wbase.portRuns (portDieOf 39) = true ∧
    (∀ q ∈ wbase.ports.toList, q.st = .down) ∧ wbase.leftDown = false ∧ ({ wbase with leftDown := true } : State).leftDown = true := by decide +kernel

/-! A context whose first 512 MiB are one page, with a request, a shootdown, and a migration in progress. -/

def wpages (u : Context → Context) : State := { wpt with ctxs := wpt.ctxs.map u }
def wattr (w : Bool) : LeafAttr := ⟨true, w, true, false, false, false, false, 0⟩
/-- A page that MAP can write and one that is mapped already. -/
theorem witness_PageEventsComplete_map : ∃ c ∈ wpt.ctxs, wpt.portRuns 0 = true ∧ wpt.ctx? c.asid = some c ∧ c.st ≠ .closed ∧ c.work = [] ∧ c.owed = [] ∧ (∀ f ∈ wpt.fibres, wpt.faulting c f = false) ∧ wpt.faultingJobs c = [] ∧ keyOk c (wattr true).key = true ∧
    (wpt.mapAll c 0x20000000 2 [0x20000000] 0 0 (wattr true) []).isSome = true ∧ (wpt.mapAll c 0 2 [0x20000000] 0 0 (wattr true) []).isSome = false := by decide +kernel
/-- A request behind a fault of the fibre, and one behind a fault of a copy job. -/
def wbehind : State :=
  let r : PageReq := { op := .unpin, first := 0, va := 0, stop := 1, begun := false, after := [⟨0, 0, 0⟩], jobs := [(0, 0, 3)] }
  { wpages fun c => { c with work := [r] } with fibres := wbase.fibres.map fun f => { f with st := .frozen (.replay [0x2000]) } }
theorem witness_PageEventsComplete_behind : ∃ c ∈ wbehind.ctxs, ∃ r ∈ c.work, wbehind.ctx? c.asid = some c ∧ c.work = [r] ∧ c.owed = [] ∧
    wbehind.portRuns 0 = true ∧ ∃ f ∈ wbehind.fibres, f.ref ∈ r.after ∧ wbehind.faulting c f = true := by decide +kernel
/-- The next 512 MiB as well, without the tables. -/
def wfar : State := { wpt with mem := putBytes wpt.mem (2 ^ 20 + 2 ^ 18 + 8) (leBytes 8 0x2000001F) }
/-- One page unmapped, protected with less and with the same, or marked for a migration. -/
theorem witness_PageEventsComplete_range : ∃ c ∈ wpt.ctxs, wpt.pageOf c 0 = some (2 ^ 20 + 2 ^ 18, 2, 0x1F) ∧ leafMg 0x1F = false ∧
    wpt.heldPage c.asid (pageBase 2 0) (pageSize 2) 0x1F = false ∧ wpt.rangeOk c 0 (pageSize 2) (fun _ => true) = true ∧
    (protectLeaf 0x1F (wattr false)).2 = true ∧ (protectLeaf 0x1F (wattr true)).2 = false ∧
    (∀ w : Bool, wpt.rangeOk c 0 (pageSize 2) (fun p => !leafMalformed wpt.t2cap [] p.2.1 (protectLeaf p.2.2 (wattr w)).1) = true) ∧
    wpt.wholePages c (pageSize 2 / 2 ^ 16 + 1) 0 (pageSize 2) = some [(0, 2, 0x1F)] ∧
    (wfar.pageOf c 0x20000000 = some (2 ^ 20 + 2 ^ 18 + 8, 2, 0x2000001F) ∧ wfar.rangeOk c 0x20000000 (pageSize 2) (fun _ => true) = true ∧
      wfar.heldPage c.asid 0x20000000 (pageSize 2) 0x2000001F = false ∧
      wfar.wholePages c (pageSize 2 / 2 ^ 16 + 1) 0x20000000 (0x20000000 + pageSize 2) = some [(0x20000000, 2, 0x2000001F)] ∧
      wfar.mayMove c (0x20000000, 2, 0x2000001F) 0x40000000 0 0 = true) ∧
    c.pins = [] ∧ c.owed = [] ∧ c.work = [] ∧ c.shoot = [] ∧ (∀ f ∈ wpt.fibres, wpt.faulting c f = false) := by decide +kernel
theorem witness_PageEventsComplete_pin : ∃ c ∈ wpt.ctxs, (∀ f ∈ rangeFrames 0x10000 0x20000, ∃ x ∈ wpt.pageOf c (f * 2 ^ 16), leafMg x.2.2 = false ∧
      wpt.heldPage c.asid (pageBase x.2.1 (f * 2 ^ 16)) (pageSize x.2.1) x.2.2 = false) ∧
    (∀ f ∈ rangeFrames 0x10000 0x20000, f ∉ wpt.queueFrames c.asid) ∧ wpt.pageOf c 0x20000000 = none := by decide +kernel
/-- A BWAIT at a word of the first page, which is replicated. -/
def wshot : State :=
  { wpages fun c => { c with shoot := [(0, 2 ^ 29, 0x11F, false)] } with
    fibres := wbase.fibres.map fun f => { f with st := .parked .waits, gangs := f.gangs.map fun g => { g with st := .wait (.bword (.home 0x1000 0 0 false) 0 true .device false) } } }
theorem witness_PageEventsComplete_shoot :
    (let s1 := (wshot.dropXlat 1 none (some (0, 2 ^ 29))).drain (leafPa 0x11F) (2 ^ 29)
     (wshot.ctxs.any fun c => c.asid == 1 && (c.shoot.find? fun x => x.1 == 0) == some (0, 2 ^ 29, 0x11F, false)) = true ∧ wshot.usesPage (leafPa 0x11F) (2 ^ 29) = false ∧
     (0x11F : DWord).getLsbD 8 = true ∧ ∃ f ∈ s1.fibres, f.asid = 1 ∧ (∀ x ∈ s1.fibres, x.ref = f.ref → x = f) ∧
       ∃ g ∈ f.gangs, (∀ y ∈ f.gangs, y.id = g.id → y = g) ∧ (g.restarted f (leafPa 0x11F) (2 ^ 29)).isSome = true) ∧
    (let s := wpages fun c => { c with shoot := [(0, 2 ^ 29, 0x1F, false)] }
     ∃ c ∈ s.ctxs, s.ctx? c.asid = some c ∧ (c.shoot.find? fun x => x.1 == 0) = some (0, 2 ^ 29, 0x1F, false) ∧ s.usesPage (leafPa 0x1F) (2 ^ 29) = false) ∧
    (let s := { wpages fun c => { c with moving := [(0, 2 ^ 30, 0, 0)] } with poison := [2 ^ 35] }
     (s.migrating 1 0).any (fun x => x.2.1 == (2 ^ 20 + 2 ^ 18, 2, 0x1F) && x.2.2 == (2 ^ 30, 0, 0)) = true ∧ s.poisonIn (leafPa 0x1F) (pageSize 2) = false ∧
      s.gone (some (leafDie 0x1F)) (leafPa 0x1F) = false ∧ Memory.wf s.mem = true) := by decide +kernel

/-! The host's memory requests, without contexts and with a confidential one whose page 0 has a key; queues. -/

def whost : State := { wbase with ctxs := [], tags := [0x200], copies := [wcopy] }
theorem witness_HostCommandsComplete_mem : whost.portRuns 0 = true ∧ whost.hostReaches 0x2000 8 = true ∧ whost.gone (whost.dieOf 0x2000) 0x2000 = false ∧ whost.sealed 0x2000 = false ∧
    whost.tagsIn 0x2000 8 = false ∧ whost.tagsIn 0x1004 1 = true ∧ Memory.wf whost.mem = true ∧ whost.tierOf 0x8000000000000 1 = some 2 := by decide +kernel
theorem witness_HostCommandsComplete_keys : ∀ u, whost.lockOf u = whost.keyAt (whost.hostPlace 0x2000).key u := fun _ => rfl
theorem witness_HostCommandsComplete_queue :
    (let s := wpages fun c => { c with pins := [0] }
     ∃ c ∈ s.ctxs, s.ctx? 1 = some c ∧ (s.queue 5).st = .disabled ∧ s.pinnedHbm c 0x4000 (128 * 2 ^ 4) = true ∧ s.pinnedHbm c 0x2080 8 = true ∧ s.pinnedHbm c 0x2000 8 = true ∧
      wokAnd (s.writeIndex c 0x2080 0) (fun s1 => wokAnd (s1.writeIndex c 0x2000 0) fun _ => true) = true) ∧
    ((wring 1 []).queue 0).st = .active ∧ (wring 1 []).queueBusy 0 = false ∧ ({ wring 1 [] with kernels := wbase.kernels } : State).queueBusy 0 = true ∧
    (let s := { wring 1 [] with queues := (wring 1 []).queues.set! 0 (wqueue .error) }
     ∃ c ∈ s.ctxs, (s.queue 0).st = .error ∧ wokAnd (s.homeRead c [] 0x2080 8) (fun b => wokAnd (s.writeIndex c 0x2000 (leNat b)) fun _ => true) = true) := by decide +kernel

def wargs : CtxArgs := { asid := 7, sysop := true, dbg := false, dbh := true, conf := false, ptroot := 2 ^ 17, bindtab := 2 ^ 30, savebase := 2 ^ 16, savesize := 2 ^ 20, keymask := 2 }
/-- A context that can be made; one that is Created beside another that is resident under 0; one that has or has not a cluster placed. -/
theorem witness_ContextsAndDebugger_contexts : wbase.portRuns 0 = true ∧ wbase.mayCreate wargs = true ∧ (∃ x ∈ wbase.ctxs, x.asid = 1 ∧ x.st ≠ .closed) ∧
    (∃ c ∈ wbase.ctxs, let c' := { c with asid := 7, st := .created, ridx := none }
      let s : State := { wbase with ctxs := [c, c'] }
      s.ctx? 7 = some c' ∧ (∀ x ∈ s.ctxs, x.ridx ≠ some 1) ∧ (∀ j < 1, ∃ x ∈ s.ctxs, x.ridx = some j) ∧ c.st ≠ .created ∧ c.st ≠ .saved ∧ c.st = .running) ∧
    wbase.quiet 1 = false ∧ ({ wbase with clusters := [] } : State).quiet 1 = true := by decide +kernel
def whalted (b : Bool) : State := { wbase with dies := wbase.dies.set 0 { wbase.dies[0] with halted := b } }
theorem witness_ContextsAndDebugger_debugger :
    (((whalted false).die 0).st = .running ∧ ((whalted false).die 0).halted = false ∧ ((whalted false).die 0).halting = false ∧
      (∀ c ∈ (whalted false).clusters, c.die = 0 → c.st ≠ .preempting) ∧ (∃ c ∈ (wplaceable placedLaunch [] (some .preempting)).clusters, c.die = 0 ∧ c.st = .preempting)) ∧
    ((whalted true).die 0).halted = true ∧ (whalted false).debugged 1 ⟨0, 0, 0⟩ = none ∧
    (∃ f ∈ (whalted true).fibres, ∃ sl ∈ (whalted true).slots, (whalted true).debugged 1 f.ref = some (f, sl)) ∧
    ((wfib fun f => { f with st := .frozen (.breakpoint 0) }).fibre? ⟨0, 0, 0⟩).any (fun f => f.st == .frozen (.breakpoint 0)) = true := by decide +kernel
/-- The head of a fibre block without registers, live lanes or anything else but the window. -/
def whead (f : Fibre) : List Byte := List.replicate 0x248 0 ++ leBytes 4 f.quota.toNat ++ List.replicate (0x1000 - 0x24C) 0
def wblock (f : Fibre) (sl : Slot) : List Byte := (debugBlock f sl 0).take 0 ++ whead f ++ (debugBlock f sl 0).drop (0 + (whead f).length)
theorem witness_ContextsAndDebugger_write : (((whalted true).debugged 1 ⟨0, 0, 0⟩).any fun x => blockClean (wblock x.1 x.2) &&
    decide (0 + (whead x.1).length ≤ 0x9000) && block32 (wblock x.1 x.2) 0x248 == x.1.quota && block32 (wblock x.1 x.2) 0x2C0 &&& ~~~x.1.live == 0) = true := by decide +kernel

/-! The states of dies, the rails, and the session. -/

def wdie (st : DieSt) (w : List (Fin 4)) : State := { wbase with dies := Vector.replicate 4 { Die.reset with st := st }, warm := w, rails := [.standby, .ports, .hbm, .core 0], clusters := [] }
theorem witness_DieLife :
    (∀ w ∈ [[], [(1 : Fin 4)]], (wdie .held w).warm = w) ∧
    (let s := wdie .held []
     s.mayMeasure (.compute 0) = true ∧ ({ s with pdies := Vector.replicate 2 PortDie.reset } : State).mayMeasure (.port 0) = true ∧ s.railRuns .standby = true ∧
      Rail.core 0 ∈ s.rails ∧ s.railRuns (.core 0) = false ∧ Rail.ports ∈ s.rails ∧ s.railRuns .ports = true) ∧
    (∀ st ∈ [DieSt.measured, .admitted, .running, .quiescing, .quiesced, .retraining], ((wdie st []).die 3).st = st ∧
      ∀ c ∈ (wdie st []).clusters, c.die = 3 → c.st ≠ .running ∧ c.st ≠ .preempting) ∧
    (∀ st ∈ [PortDieSt.measured, .admitted, .running], (({ wbase with pdies := Vector.replicate 2 { PortDie.reset with st := st } } : State).pdie 1).st = st) ∧
    (∀ p ∈ [([], false), ([UcieLink.masthead], false), ([], true)], let x := (({ wbase with dies := Vector.replicate 4 { Die.reset with st := .running, linking := p.1, changing := p.2 } } : State).die 2)
      x.linking = p.1 ∧ x.changing = p.2 ∧ (UcieLink.masthead ∈ p.1 ∨ UcieLink.masthead ∉ p.1) ∧ ({ x with heldWidths := [(UcieLink.masthead, 32)] } : Die).heldWidths = [(UcieLink.masthead, 32)]) ∧
    (300 ≤ 900 ∧ ¬(300 ≤ 901 ∧ 901 ≤ 900)) ∧ (∀ x ∈ [Session.none, .exchanging, .secured], ({ wbase with session := x } : State).session = x) ∧
    (∀ c ∈ wbase.ctxs, c.st ≠ .closed → c.keymask.getLsbD 1 = false) ∧
    (∃ c ∈ (wpages fun c => { c with keymask := 2 }).ctxs, c.st ≠ .closed ∧ c.keymask.getLsbD 1 = true) ∧ (0xC052 : BitVec 16).toNat ≤ 0xC0FF := by decide +kernel

/-! ### Witnesses: encoding and the invariant -/

theorem witness_EncodingRoundTrip : (Instr.iadd (op2 false) .i32 true).wf = true ∧ (Instr.iadd (op2 false) .i32 true).toFields.isSome = true ∧
    wokAnd (decode (leBytes 8 0x38)) (fun x => x.1.toFields.isSome && x.2 == []) = true ∧ assignedOp 0x012 = false := by decide +kernel

/-- A step of a state with two cells in memory. -/
theorem witness_StepKeepsMemoriesCanonical : ({ wbase with agenda := [.event .lifetimeCommit], mem := putBytes [] 8 [1, 2] } : State).memOk = true ∧
    (match step { wbase with agenda := [.event .lifetimeCommit], mem := putBytes [] 8 [1, 2] } with | .next _ => true | _ => false) = true := by decide +kernel

/-! ### The words that the manual writes out (R39, R71 and the examples of the chapters named) -/

/-- 02, the first example; 05, the example of BRA. -/
theorem test_decode_integer :
    decode [0x14, 0x21, 0x0A, 0x04, 0x07, 0x00, 0x11, 0x00] =
      .ok (.iadd { h := ⟨true, 2, false⟩, sc := false, d := 10, a := ⟨4, false, true⟩, b := ⟨7, true, false⟩ } .i32 false, []) ∧
    decode [0x89, 0, 0, 0, 0, 0, 0, 0, 0x20, 0, 0, 0] = .ok (.bra ⟨false, 1, false⟩ 0x20, []) := by decide +kernel
/-- 05, the example of the 64-bit sum. -/
theorem test_decode_carry : decode [0xB8, 0x30, 0x07, 0x03, 0x05, 0x01, 0x40, 0x3C] =
    .ok (.iaddc { h := ⟨false, 7, false⟩, sc := false, d := 7, a := ⟨3, false, false⟩, b := ⟨5, false, false⟩ } .n32 7 (some 1), []) := by decide +kernel
/-- 06, the examples of CVTP and RLE8. -/
theorem test_decode_convert :
    decode [0xB8, 0x60, 0x0A, 0x04, 0x05, 0x00, 0xC0, 0x02] =
      .ok (.cvtp { h := ⟨false, 7, false⟩, sc := false, d := 10, a := ⟨4, false, false⟩, b := ⟨5, false, false⟩ } .e4m3 .rne false 0, []) ∧
    decode [0xBC, 0x64, 0x10, 0x00, 0x02, 0x81, 0x90, 0x03] =
      .ok (.rle8 { h := ⟨true, 7, false⟩, hi := false, d := 16, a := ⟨0, false, false⟩, b := ⟨2, true, false⟩, c := 0x81 }, []) := by decide +kernel
/-- 04, FWAIT; 14, BARV. -/
theorem test_decode_fibre_group_barrier :
    decode [0xBC, 0x71, 0x00, 0x42, 0x41, 0, 0, 0] = .ok (.fwait true 0x42 0x41, []) ∧
    decode [0x38, 0x75, 0x03, 0x06, 0, 0, 0x80, 0x0D] = .ok (.barv false false .gl .device 3 6, []) := by decide +kernel
/-- 08, LD and FENCE; 09, BIND, ACQ and RELS. -/
theorem test_decode_memory :
    decode [0x38, 0x80, 0x08, 0x02, 0x06, 0x04, 0x40, 0xAC] = .ok (.ld ⟨false, 7, false⟩ false (some .device) .two .gl .n32 8 ⟨2, false, false⟩ 4, []) ∧
    decode [0xB8, 0x84, 0, 0, 0, 0, 0x80, 0x09] = .ok (.fence false .rel .device, []) ∧
    decode [0x38, 0x85, 0, 0x06, 0x04, 0x44, 0xA0, 0] = .ok (.bind false 5 6 4 0x44, []) ∧
    decode [0x38, 0x86, 0x02, 0x06, 0, 0, 0x88, 0x01] = .ok (.acq ⟨false, 7, false⟩ .ld .device 2 ⟨6, true, false⟩, []) ∧
    decode [0xB8, 0x86, 0, 0x06, 0x41, 0, 0x98, 0x01] = .ok (.rels ⟨false, 7, false⟩ .st .device ⟨6, true, false⟩ ⟨0x41, true, false⟩, []) := by decide +kernel
/-- 10, LPART. -/
theorem test_decode_layout :
    decode [0x39, 0xA2, 0x02, 0x01, 0, 0, 0, 0x24, 0x10, 0, 0, 0] = .ok (.lpart false true 1 2 1 16, []) := by decide +kernel
/-- 16, XPOST; 17, SETSEG. -/
theorem test_decode_fabric_queue_context :
    decode [0xB8, 0xD1, 0x03, 0x04, 0x06, 0, 0, 0x0C] = .ok (.xpost false .gl 3 4 6, []) ∧
    decode [0x38, 0x07, 0, 0x04, 0, 0, 0, 0x2C] = .ok (.setseg false true .gl 4, []) := by decide +kernel
/-- The encoder gives the manual's bytes (04, 09, 17). -/
theorem test_encode_words : encode (.fwait true 0x42 0x41) = [0xBC, 0x71, 0x00, 0x42, 0x41, 0, 0, 0] ∧
    encode (.bind false 5 6 4 0x44) = [0x38, 0x85, 0, 0x06, 0x04, 0x44, 0xA0, 0] ∧
    encode (.setseg false true .gl 4) = [0x38, 0x07, 0, 0x04, 0, 0, 0, 0x2C] := by decide +kernel

/-! ### Ill-formed terms, one for each check of R52, R55, R63 and the encoding tables -/

def vo (n : BitVec 8) : Opnd := ⟨n, false, false⟩
def so (n : BitVec 8) : Opnd := ⟨n, true, false⟩
def o1 (d a : BitVec 8) : Op1 := { h := hd, sc := false, d := d, a := vo a }
def o2 (d a b : BitVec 8) : Op2 := { h := hd, sc := false, d := d, a := vo a, b := vo b }
def o3 (d a b c : BitVec 8) : Op3 := { h := hd, sc := false, d := d, a := vo a, b := vo b, c := vo c }
def wlat (d a : BitVec 8) : LatOp := { h := hd, hi := false, d := d, a := vo a, b := vo 2, c := 0 }

theorem test_wf_refuses_control : [Instr.bra hd 2, .brx hd (vo 3), .ret hd (so 0x8A), .call hd 3 8, .call hd 2 6, .callx hd 3 (vo 4), .callx hd 2 (vo 5), .regang false 0x8A,
    .rdsr hd true 0x40 .lane, .rdsr hd false 3 .cyc, .wrsr hd .epc (vo 3), .setseg false false .gl 0x8A, .setseg false false .tm 4, .rdcyc hd false true 3, .dbnz hd false 4 2,
    .savectx false 0x8A, .loadctx false 0x8A, .tlbinv false false (.range 4 0x8A)].all (fun i => !i.wf) = true := by decide +kernel
theorem test_wf_refuses_integer : [Instr.mov (o1 2 4) .f32, .mov (o1 3 4) .i64, .movi hd false .n32 2 (2 ^ 32), .iadd (o2 2 4 5) .n64 false, .imad (o3 2 4 6 7) .i64, .iabs (o1 2 4) .n32 false,
    .shl (o2 2 5 6) .n64, .popc (o1 2 5) .i64, .bfi (o3 2 4 6 7) .n64, .lea (o2 3 4 6) .n32 0 0, .icmp hd false .eq .f32 1 (vo 2) (vo 3), .icmp hd false .eq .i64 1 (vo 3) (vo 4),
    .sel (o2 2 4 5) .i64 1, .v2s false .i32 2 (vo 4) 0, .v2s false .n64 2 (vo 5) 0, .iaddc (o2 2 4 6) .i32 0 none, .shfl (o2 2 4 6) .i16 .idx 0,
    .shfl { o2 2 4 6 with sc := true } .n32 .idx 0, .prmt { o3 2 4 6 8 with c := so 8 }, .mov { o1 2 4 with a := ⟨4, true, true⟩ } .i32].all (fun i => !i.wf) = true := by decide +kernel
theorem test_wf_refuses_float_and_conversion : [Instr.fadd { o2 2 4 6 with sc := true, d := 0x40 } .rne, .ffma { o3 2 4 6 8 with c := so 8 } .rne, .fcmp hd false .eq 1 (so 0x8A) (vo 3),
    .frcp { o1 2 4 with a := so 0x8A } .rne, .fclass (o1 2 4) .e4m3, .ffma2 (o3 2 4 6 8) .f32 .rne, .fadd2 (o2 2 4 6) .f32 .rne, .fdot4 (o3 2 4 6 8) .f16 .rne false,
    .cvt (o1 2 4) .le8 .f32 .rne false, .cvt (o1 2 4) .f32 .grp .rne false, .cvtp (o2 2 4 6) .f16 .rne false 1, .cvtp (o2 2 4 6) .e4m3 .rne false 2, .cvtp (o2 2 4 6) .f32 .rne false 0,
    .cvtu (o1 2 4) .i16 2 none, .cvtu (o1 2 4) .i16 0 (some (vo 6)), .cvtu (o1 2 4) .e4m3 4 none, .cvtu (o1 2 4) .f32 0 none, .bscale (o1 2 4) .f16 false,
    .qparm { o2 2 4 6 with sc := true, a := so 0x8A } false, .dq (o2 2 4 6) true 4, .qle8 (wlat 20 249), .dle8 (wlat 249 4), .rle8 (wlat 9 4), .rle8 { wlat 20 4 with a := ⟨4, false, true⟩ },
    .ule8 { wlat 20 4 with c := 0x8A }, .cbq hd 2 (vo 4) (vo 249), .cbq hd 2 (vo 4) (so 2)].all (fun i => !i.wf) = true := by decide +kernel
theorem test_wf_refuses_slots_and_barriers : [Instr.requota false 4 0x8A, .fbar false 0x8A, .fpost false 0x8A 4, .fwait false 4 0x8A, .gwait false false 0 0x8A, .gred false false .add .f16 2 0 4,
    .gred false false .and .f32 2 0 4, .binit false .ko 4 5, .barv false false .rm .device 2 4, .bwait false false .prv .device 4 5, .bdrop false .gl 0x8A,
    .waitcmp hd .eq false .f32 .device 2 (vo 4) (vo 6), .waitcmp hd .eq false .n64 .device 3 (vo 4) (vo 6)].all (fun i => !i.wf) = true := by decide +kernel
theorem test_wf_refuses_memory : [Instr.ld hd false none .two .gl .n32 3 (vo 4) 0, .ld hd false none .two .gl .i8 4 (vo 4) 0, .ld hd false none .one .gl .n32 4 (vo 5) 0,
    .ld hd true none .two .gl .n32 4 (so 4) 0, .ld hd false none .one .rm .n32 4 (vo 4) 0x40, .ld hd false none .one .gl .e2m1 4 (vo 4) 0, .st hd none .four .gl .n64 (vo 4) (vo 8) 0,
    .st hd none .two .gl .n32 (vo 4) (so 8) 0, .ldl false 7 0 ⟨1, 1⟩ 4, .ldl false 1 255 ⟨1, 1⟩ 4, .stl false 0 ⟨1, 1⟩ 4 (so 4), .gath hd false false .rm .n32 2 (vo 4) (vo 6) 0,
    .scat hd false false .gl .n64 3 (vo 4) (vo 6) 0, .atom hd .add .rm .n32 .device .none 2 (vo 4) (vo 6), .atom hd .and .gl .i32 .device .none 2 (vo 4) (vo 6),
    .red hd .exch .gl .n32 .device false (vo 4) (vo 6), .bind false 0 4 5 0x8A, .unbindObj false 0x8A, .acq hd .ld .device 3 (vo 4), .acq hd (.cas (vo 6) (so 8)) .device 2 (vo 4),
    .rels hd .st .device (vo 5) (vo 6), .pref hd .l1 .tm (vo 4) 0, .cinv hd .device .rm (vo 4) 0, .cwb hd .device .gl (vo 5) 0].all (fun i => !i.wf) = true := by decide +kernel
theorem test_wf_refuses_layouts_and_matrix : [Instr.lld false .cl 1 4, .lst false .ko 4 1, .lset false false false 6 1 0 0, .lpart false false 7 2 1 0, .lflat false false 6 2 1,
    .lslice false 6 2 1 4 1 0, .lslice false 0 2 1 0x8A 1 0, .lswz false 2 1 0x8A, .hmk false 3 .gl .f32 1 4 5 0, .hmk false 0 .gl .f32 1 4 5 0, .hset false .base 1 (.reg 0x8A),
    .permx false 0 2 (so 4), .ptld false .cl 0 4, .mstr false false (some 0x8A) 0 ⟨1, 1⟩ 0, .mzld false 0 ⟨1, 1⟩ 0x8A, .mzst false .rst 0 ⟨1, 1⟩ 4, .mzmvTo false 1 249 0 4,
    .mzmvFrom false 0 0 (so 4) 4, .mresc false 0 (vo 253), .mcbld false .cl 4, .tred false true 253 0 4].all (fun i => !i.wf) = true := by decide +kernel
theorem test_wf_refuses_jobs_and_fabric : [Instr.cpy false 0 .cl ⟨1, 1⟩ ⟨2, 1⟩ 4, .cpym false 0 .gl ⟨1, 1⟩ ⟨2, 1⟩ 0x8A, .twany false 2 0x8A, .twall false 0x8A, .tclr false 0x8A,
    .jqry false (.st 0x8A) 2, .xfer false false false .rm 4 5 8, .xfer false false false .gl 4 5 9, .xget false .ko 4 5 8, .xatom false true false (.mem 2 .add .n64) 4 5 8,
    .xatom false false false (.mem 2 .add .f16) 4 5 8, .xpost false .cl 2 4 5, .xmc false false .prv 4 5 8, .arvset false false 4 0x8A 5, .arvwait false false 0x8A, .coll false 0x8A,
    .cgopen false 2 4 0x8A, .cgqry false .st 2 0x8A, .qpush false .rm 2 4 5].all (fun i => !i.wf) = true := by decide +kernel

/-! ### One step of an instruction, on the values of the manual's examples -/

def run (i : Instr) (s : State) : State := match exec i s with | .next t => t | _ => { s with fibres := [] }
def wrow (n : Nat) (x : Word) (s : State) : State := { s with slots := s.slots.map fun y => { y with rows := y.rows ++ [(n, mkRow fun _ => x)] } }
def sreg (s : State) (n : Nat) : Option DWord := s.fibres.head?.map fun f => f.s.getD n 0
def vreg (s : State) (n l : Nat) : Option Word := s.slots.head?.bind fun y => (aget y.rows n).map fun r => r.at l
def freg {α : Type} (s : State) (p : Fibre → α) : Option α := s.fibres.head?.map p
def sOp3 (d a b c : BitVec 8) : Op3 := { h := hd, sc := true, d := d, a := so a, b := so b, c := vo c }

/-- 05, the example of PRMT. -/
theorem test_prmt : sreg (run (.prmt (sOp3 2 4 5 6)) (wfib fun f => wscal 4 0x44332211 (wscal 5 0xC470 (wscal 6 0x88776655 f)))) 2 = some 0x00558811 := by decide +kernel
/-- 05, the example of a 64-bit sum: the high halves 1 and 2 with a carry give 4. -/
theorem test_iaddc_carries_in : vreg (run (.iaddc (o2 6 3 5) .n32 7 (some 1)) (wrow 3 1 (wrow 5 2 (wfib fun f => { f with p := f.p.set! 1 0xFFFFFFFF })))) 6 31 = some 4 := by decide +kernel
/-- 05, the same: 0xFFFFFFFF + 1 wraps and carries. -/
theorem test_iaddc_carries_out : let t := run (.iaddc (o2 6 3 5) .n32 1 none) (wrow 3 0xFFFFFFFF (wrow 5 1 wbase))
    vreg t 6 0 = some 0 ∧ freg t (·.p[1]!) = some 0xFFFFFFFF := by decide +kernel
/-- 06, the example of FFMA: −2^−46 with no flag. -/
theorem test_ffma_rounds_once : let t := run (.ffma (sOp3 2 4 5 6) .rne) (wfib fun f => wscal 4 0x3F800001 (wscal 5 0x3F7FFFFE (wscal 6 0xBF800000 f)))
    sreg t 2 = some 0xA8800000 ∧ freg t (·.fps) = some 0 := by decide +kernel
/-- 06, the example of CVTP: 500.0 saturates to 0x7E, −0.3 rounds to 0xAA, the upper half is kept, and sat and nx are set. -/
theorem test_cvtp : let t := run (.cvtp (o2 10 4 5) .e4m3 .rne false 0) (wrow 4 0x43FA0000 (wrow 5 0xBE99999A (wrow 10 0x12345678 wbase)))
    vreg t 10 3 = some 0x1234AA7E ∧ freg t (·.fps) = some 0x21 := by decide +kernel
/-- 03, the two examples of LE8. -/
theorem test_le8_codes : encodeLE8 [1, -3, 3, 1, -1, 1, 3, -1] = some 0xA12C ∧ decodeLE8 0xA12C = [1, -3, 3, 1, -1, 1, 3, -1] ∧
    nearestE8 [5 / 8, -5 / 4, 7 / 4, 1 / 4, -3 / 8, 3 / 4, 5 / 4, -7 / 8] = [1, -3, 3, 1, -1, 1, 3, -1] ∧
    satLE8 [13 / 4, 0, 0, 0, 0, 0, 0, 0] (nearestE8 [13 / 4, 0, 0, 0, 0, 0, 0, 0]) = 0x0003 := by decide +kernel
/-- 04, the example of R109: three windows and the shared one; row 20 of fibre 0 is slack. -/
theorem test_windows : (let r : Launch := { placedLaunch with m := 3, n := 3, counts := [20, 40, 24], scount := 12, smask := 7 }
      [quotaAt r 0, quotaAt r 1, quotaAt r 2]) = [0x86780013, 0x86780327, 0x86780817] ∧
    quotaRow 0x86780013 19 = some 19 ∧ quotaRow 0x86780013 20 = none ∧ quotaRow 0x86780013 243 = none ∧ quotaRow 0x86780013 244 = some 240 := by decide +kernel
/-- 17, the example of TRAP: lane 5 traps with info 0x2A; sr.ecause is 0x2A1C, sr.epc the TRAP's own PC. -/
theorem test_trap : let t := run (.trap ⟨false, 1, false⟩ 0x2A) ({ whdl.modFibre ⟨0, 0, 0⟩ (fun f => { f with p := f.p.set! 1 0x20, gangs := f.gangs.map fun g => { g with pc := 0x10 } }) with
      cur := some { f := ⟨0, 0, 0⟩, gang := 0, pc := 0x10 } } : State)
    freg t (·.ecause) = some 0x2A1C ∧ freg t (·.emask) = some 0x20 ∧ freg t (·.epc) = some 0x10 ∧ freg t (·.hmode) = some true ∧
      (freg t fun f => f.gangs.map (·.pc)) = some [64] := by decide +kernel
/-- 07, the example of a walk: the indices of 0x12_3456_789A_BCDE, and the leaf of 2 MiB at level 4. -/
theorem test_walk : (upTo 5).map (fun i => walkIndex (i + 1) 0x123456789ABCDE) = [0x48D, 0x2B3, 0xC, 0x4, 0x1A] ∧
    (let m := putBytes (putBytes (putBytes (putBytes [] 0x40002468 (leBytes 8 0x40020001)) 0x40021598 (leBytes 8 0x40030081)) 0x400300E0 (leBytes 8 0x40030101)) 0x40030120
       (leBytes 8 0x005000410060000F)
     ({ wbase with mem := m, keys := [(5, 1)] } : State).walk 0 { placedCtx with ptroot := 0x40000000 } 0x123456789ABCDE) = .leaf 4 0x005000410060000F := by decide +kernel
/-- 17, the example of the save area: 21 granules. -/
theorem test_granules : granulesOf { placedLaunch with k := 2, n := 4, m := 2, shape := .s22 } = 21 := by decide +kernel
/-- 10, the example of LPART and LCHAIN: element (row 20, column 3) of l2, and element (1, 2) of sub-tile 3 of l3. -/
theorem test_partition : let l1 := wl 2 7 [⟨8, 1, 0, 0⟩, ⟨32, 8, 0, 0⟩]
    let l2 := wl 2 1 [⟨8, 1, 0, 0⟩, ⟨16, 8, 2, 0⟩]
    let l4 := wl 3 7 [⟨8, 1, 0, 0⟩, ⟨8, 8, 0, 0⟩, ⟨2, 64, 2, 128⟩]
    (((wts l1 wlbad 0 0 0).modFibre ⟨0, 0, 0⟩ fun f => f).fibres.map fun f => layOf (f.l[1]!)) = [l1] ∧
    (freg (run (.lpart false true 1 2 1 16) (wts l1 wlbad 0 0 0)) fun f => layOf (f.l[2]!)) = some l2 ∧
    l2.eval [3, 20] = (1, 35) ∧ (chain l2 l4).any (fun l => l.mode 2 == ⟨2, 64, 2, 0⟩ && l.dm == 2 && l.eval [2, 1, 3] == (1, 74)) = true := by decide +kernel
/-- 01, the example of R26: an address of the cluster space one byte past a team's 48 KiB traps SegmentLimit. -/
theorem test_cluster_space : ({ base := 0, limit := 0xC000 } : Seg).limit = 0xC000 ∧
    ((wat 0x40C000).view?.any fun v => !v.inSegment .cl 0x40C000 4) = true ∧ ((wat 0x100).view?.any fun v => v.inSegment .cl 0x100 4) = true := by decide +kernel
/-- 03, the example of a chunk: 2^24 + 1 rounds to even. -/
theorem test_rounds_to_even : quietly (roundFp 0 0 .f32 .rne (.fin false (2 ^ 24 + 1))) = 0x4B800000 := by decide +kernel
/-- 02, the register table of R49: a 64-bit result goes to a pair, the low half in the even register. -/
theorem test_pair_order : let t := run (.imul (o2 6 2 4) .n64) (wrow 2 0x80000000 (wrow 4 4 wbase))
    vreg t 6 0 = some 0 ∧ vreg t 7 0 = some 2 := by decide +kernel
/-- 00 R5: the byte at the next-lowest address of a word is its bits 15:8. -/
theorem test_store_is_little_endian : ((run (.st hd none .one .gl .n8 (so 4) (so 5) 0) (wfib fun f => wone (wscal 4 0x1001 (wscal 5 0x44 f)))).copies.any fun c =>
    c.word == 0x400 && c.val == 0x4400) = true := by decide +kernel

end Sys2Proof.Tests
end

section
/-! ### The memories of a state and their canonical form (R5, log entry 1) -/

namespace Sys2Proof.Machine

open Sys2Proof

/-- What the device's memories hold: home memory and, team by team, the scratchpads. -/
structure Memories where
  home : Memory
  pads : List Memory

/-- Every memory is in canonical form. -/
def Memories.Canon (m : Memories) : Prop := Memory.wf m.home = true ∧ ∀ p ∈ m.pads, Memory.wf p = true

/-- The part of the state that `State.memOk` speaks of. -/
def State.memories : State → Memories
  | { mem, teams, .. } => ⟨mem, teams.map (·.pad)⟩

/-- A state written field by field shows its memories. -/
@[simp] theorem State.memories_mk : type_of% @State.memories.eq_1 := @State.memories.eq_1

variable (s : State)

@[simp] theorem State.memories_eta : (⟨s.mem, s.teams.map (·.pad)⟩ : Memories) = s.memories := rfl

theorem State.memories_canon : s.memories.Canon ↔ Memory.wf s.mem = true ∧ ∀ t ∈ s.teams, Memory.wf t.pad = true := by
  simp only [Memories.Canon, State.memories, List.forall_mem_map]

theorem State.canon_mem {s : State} (h : s.memories.Canon) : Memory.wf s.mem = true := (s.memories_canon.1 h).1

/-- A change of home memory that keeps its canonical form. -/
theorem State.canon_of_mem {s t : State} (h : s.memories.Canon) (hm : Memory.wf t.mem = true) (ht : t.teams = s.teams) :
    t.memories.Canon := t.memories_canon.2 ⟨hm, ht ▸ (s.memories_canon.1 h).2⟩

theorem State.memOk_iff : s.memOk = true ↔ s.memories.Canon := by
  simp [State.memOk, State.memories_canon]

@[simp] theorem State.ite_memories (c : Prop) [Decidable c] (a b : State) :
    (if c then a else b).memories = if c then a.memories else b.memories := apply_ite ..

@[simp] theorem Memories.canon_ite (c : Prop) [Decidable c] (a b : Memories) :
    (if c then a else b).Canon = if c then a.Canon else b.Canon := apply_ite ..

@[simp] theorem fst_ite_memories {α : Type} (c : Prop) [Decidable c] (a b : State × α) :
    (if c then a else b).1.memories = if c then a.1.memories else b.1.memories := apply_ite (fun x : State × α => x.1.memories) ..

/-- A run of operations that leave the memories as they are. -/
@[simp] theorem State.foldl_memories {α : Type} {f : State → α → State} (hf : ∀ s x, (f s x).memories = s.memories) (l : List α) :
    (l.foldl f s).memories = s.memories := by
  induction l generalizing s with
  | nil => rfl
  | cons x xs ih => rw [List.foldl_cons, ih, hf]

@[simp] theorem State.foldl_fst_memories {α β : Type} (a : State × β) {f : State × β → α → State × β}
    (hf : ∀ a x, (f a x).1.memories = a.1.memories) (l : List α) : (l.foldl f a).1.memories = a.1.memories := by
  induction l generalizing a with
  | nil => rfl
  | cons x xs ih => rw [List.foldl_cons, ih, hf]

/-- A run of operations that keep the canonical form. -/
@[simp] theorem State.foldl_canon {α : Type} {f : State → α → State} (hf : ∀ s x, s.memories.Canon → (f s x).memories.Canon) (l : List α)
    {s : State} (h : s.memories.Canon) : (l.foldl f s).memories.Canon := by
  induction l generalizing s with
  | nil => exact h
  | cons x xs ih => exact ih (hf s x h)

/-- The same where the operations carry more than the state. -/
@[simp] theorem State.foldl_fst_canon {α β : Type} {f : State × β → α → State × β}
    (hf : ∀ a x, a.1.memories.Canon → (f a x).1.memories.Canon) (l : List α) {a : State × β} (h : a.1.memories.Canon) :
    (l.foldl f a).1.memories.Canon := by
  induction l generalizing a with
  | nil => exact h
  | cons x xs ih => exact ih (hf a x h)

/-! ### Operations that leave the memories as they are -/

@[simp] theorem State.modTeam_pads (cl rank : Nat) {u : Team → Team} (h : ∀ t, (u t).pad = t.pad) :
    (s.modTeam cl rank u).teams.map (·.pad) = s.teams.map (·.pad) := by
  simp only [State.modTeam, List.map_map]
  refine List.map_congr_left fun t _ => ?_
  simp only [Function.comp_apply]
  split
  · exact h t
  · rfl

/-- A change of a team that spares its scratchpad. -/
@[simp] theorem State.modTeam_memories (cl rank : Nat) {u : Team → Team} (h : ∀ t, (u t).pad = t.pad) :
    (s.modTeam cl rank u).memories = s.memories := congrArg (Memories.mk s.mem) (s.modTeam_pads cl rank h)

@[simp] theorem State.modFibre_memories (r u) : (s.modFibre r u).memories = s.memories := (rfl)
@[simp] theorem State.modSlot_memories (f u) : (s.modSlot f u).memories = s.memories := (rfl)
@[simp] theorem State.modCluster_memories (cl u) : (s.modCluster cl u).memories = s.memories := (rfl)
@[simp] theorem State.modKernel_memories (k u) : (s.modKernel k u).memories = s.memories := (rfl)
@[simp] theorem State.modCtx_memories (a u) : (s.modCtx a u).memories = s.memories := (rfl)
@[simp] theorem State.note_memories (n) : (s.note n).memories = s.memories := (rfl)
@[simp] theorem State.contextError_memories (a pa) : (s.contextError a pa).memories = s.memories := (rfl)

@[simp] theorem State.consume_memories (v us) : (s.consume v us).memories = s.memories := by simp [State.consume]
@[simp] theorem State.upd_memories (f u) : (s.upd f u).memories = s.memories := by unfold State.upd; split <;> simp
@[simp] theorem State.upds_memories (f us) : (s.upds f us).memories = s.memories := by simp [State.upds]
@[simp] theorem State.orFlags_memories (f x y) : (s.orFlags f x y).memories = s.memories := by simp [State.orFlags]
@[simp] theorem State.defer_memories (f o) : (s.defer f o).memories = s.memories := (rfl)
@[simp] theorem State.noteDead_memories (v us) : (s.noteDead v us).memories = s.memories := by simp [State.noteDead]
@[simp] theorem State.enliven_memories (v us) : (s.enliven v us).memories = s.memories := by simp [State.enliven]
@[simp] theorem State.unpend_memories (f r) : (s.unpend f r).memories = s.memories := (rfl)
@[simp] theorem State.retire_memories (v sw len) : (s.retire v sw len).memories = s.memories := (rfl)
@[simp] theorem State.contextFault_memories (f t) : (s.contextFault f t).memories = s.memories := (rfl)
@[simp] theorem State.setRngs_memories (v rs) : (s.setRngs v rs).memories = s.memories := by simp [State.setRngs]
@[simp] theorem laneEffect_memories (long sc w d v rs) : (laneEffect long sc w d v rs s).memories = s.memories := by simp [laneEffect]
@[simp] theorem State.bank_memories (f g pc) : (s.bank f g pc).memories = s.memories := by unfold State.bank; split <;> simp

@[simp] theorem State.returnOut_memories (r id) : (s.returnOut r id).memories = s.memories := by
  unfold State.returnOut
  split
  · rfl
  · split <;> simp

@[simp] theorem State.takeTrap_memories (r g t) : (s.takeTrap r g t).memories = s.memories := by
  unfold State.takeTrap
  split
  next f _ =>
    rw [← s.bank_memories f g t.epc]
    dsimp only
    split
    · rfl
    · split_ifs <;> rfl
  next =>
    dsimp only
    split
    · rfl
    · split_ifs <;> rfl

@[simp] theorem State.meetAfterExit_memories (r) : (s.meetAfterExit r).memories = s.memories := by
  unfold State.meetAfterExit
  split
  · rfl
  · split <;> simp

end Sys2Proof.Machine
end

section
/-! ### Writes of home memory and scratchpads, copies and their levels -/

namespace Sys2Proof.Machine

open Sys2Proof

section
variable (s : State)

@[simp] theorem State.modCmp_memories (die line u) : (s.modCmp die line u).memories = s.memories := (rfl)
@[simp] theorem State.readBlock_memories (die pa) : (s.readBlock die pa).1.memories = s.memories := (rfl)
@[simp] theorem State.writeBlock_memories (die pa) : (s.writeBlock die pa).memories = s.memories := (rfl)
@[simp] theorem State.countReads_memories (ms) : (s.countReads ms).memories = s.memories := by simp [State.countReads]
@[simp] theorem State.countWrites_memories (ms) : (s.countWrites ms).memories = s.memories := by simp [State.countWrites]
@[simp] theorem State.atHome_memories (lv write ms) : (s.atHome lv write ms).memories = s.memories := by simp [State.atHome]
@[simp] theorem State.putCopy_memories (c) : (s.putCopy c).memories = s.memories := (rfl)
@[simp] theorem State.dropSc_memories (core f) : (s.dropSc core f).memories = s.memories := (rfl)
@[simp] theorem State.bring_memories (a pos m line) : (s.bring a pos m line).memories = s.memories := (rfl)
@[simp] theorem State.discard_memories (a lv f) : (s.discard a lv f).memories = s.memories := (rfl)
@[simp] theorem State.fenceAcq_memories (a sc) : (s.fenceAcq a sc).memories = s.memories := (rfl)
@[simp] theorem State.settleCopies_memories (a lv w x p) : (s.settleCopies a lv w x p).memories = s.memories := (rfl)
@[simp] theorem State.softErrors_memories (who x c n) : (s.softErrors who x c n).memories = s.memories := (rfl)
@[simp] theorem State.roomSc_memories (core line) : (s.roomSc core line).memories = s.memories := by simp [State.roomSc]
@[simp] theorem State.memError_memories (pa) : (s.memError pa).memories = s.memories := by unfold State.memError; split <;> simp

@[simp] theorem State.strike_memories (x) : (s.strike x).memories = s.memories := by
  cases x with
  | copy p w =>
    cases p <;> simp [State.strike]
  | pad cl team w =>
    simp only [State.strike]
    split <;> simp
  | home | code | corrected | uncorrected | record => simp [State.strike]

end

variable {s : State} (h : s.memories.Canon)
include h

/-! Home -/

@[simp] theorem State.putHome_canon (w x p) : (s.putHome w x p).memories.Canon :=
  State.canon_of_mem h (State.putHome_wf (State.canon_mem h) _ _ _) rfl
@[simp] theorem State.putHomeBytes_canon (pa bs) : (s.putHomeBytes pa bs).memories.Canon :=
  State.canon_of_mem h (State.putHomeBytes_wf (State.canon_mem h) _ _) rfl

@[simp] theorem State.relock_canon (k u) : (s.relock k u).memories.Canon :=
  State.canon_of_mem h (State.relock_wf (State.canon_mem h) _ _) (by unfold State.relock; split <;> rfl)

@[simp] theorem State.putHomeAs_canon (k w x p) : (s.putHomeAs k w x p).memories.Canon := State.putHome_canon (State.relock_canon h _ _) _ _ _

@[simp] theorem State.writeHome_canon (m x p) : (s.writeHome m x p).memories.Canon := by
  simpa [State.writeHome] using State.putHomeAs_canon h _ _ _ _

@[simp] theorem State.writePlace_canon (pa die k cp x) : (s.writePlace pa die k cp x).memories.Canon := by
  simpa [State.writePlace] using State.putHomeAs_canon h _ _ _ _

@[simp] theorem State.clearHome_canon (pa n) : (s.clearHome pa n).memories.Canon :=
  State.canon_of_mem h (State.clearHome_wf (State.canon_mem h) _ _) rfl

/-! Scratchpads -/

/-- A change of a team that keeps the canonical form of its scratchpad. -/
theorem State.modTeam_canon (cl rank) {u : Team → Team} (hu : ∀ t, Memory.wf t.pad = true → Memory.wf (u t).pad = true) :
    (s.modTeam cl rank u).memories.Canon := by
  rw [State.memories_canon] at h ⊢
  refine ⟨h.1, fun t ht => ?_⟩
  obtain ⟨x, hx, rfl⟩ := List.mem_map.1 ht
  split
  · exact hu x (h.2 x hx)
  · exact h.2 x hx

@[simp] theorem State.putPad_canon (cl team off bs) : (s.putPad cl team off bs).memories.Canon :=
  State.modTeam_canon h _ _ fun _ ht => putBytes_wf ht _ _

/-! Writing through to home -/

@[simp] theorem State.throughDcWord_canon (die w) : (s.throughDcWord die w).memories.Canon := by
  unfold State.throughDcWord
  split
  · split_ifs <;> simp [h]
  · exact h

@[simp] theorem State.throughDcs_canon (die ws) : (s.throughDcs die ws).memories.Canon := by
  simp +contextual [State.throughDcs, h]

@[simp] theorem State.throughDc_canon (die w) : (s.throughDc die w).memories.Canon := State.throughDcs_canon h _ _
@[simp] theorem State.evictDc_canon (die line) : (s.evictDc die line).memories.Canon := State.throughDcs_canon h _ _

@[simp] theorem State.roomDc_canon (die line) : (s.roomDc die line).memories.Canon := by
  unfold State.roomDc
  dsimp only
  split
  · exact h
  · exact State.foldl_canon (fun _ _ h => State.evictDc_canon h _ _) _ h

@[simp] theorem State.putDc_canon (die c) : (s.putDc die c).memories.Canon := State.roomDc_canon h _ _

@[simp] theorem State.throughL1_canon (a w) : (s.throughL1 a w).memories.Canon := by
  unfold State.throughL1
  split
  · split
    · exact State.putDc_canon (s := s.putCopy _) h _ _
    · exact h
  · exact h

@[simp] theorem State.foldl_throughL1_canon (a) (ws : List Nat) : (ws.foldl (fun s w => State.throughL1 s a w) s).memories.Canon :=
  State.foldl_canon (fun _ _ h => State.throughL1_canon h _ _) _ h

@[simp] theorem State.evictL1_canon (a line) : (s.evictL1 a line).memories.Canon := State.foldl_throughL1_canon h _ _

@[simp] theorem State.roomL1_canon (a line) : (s.roomL1 a line).memories.Canon := by
  unfold State.roomL1
  dsimp only
  split
  · exact h
  · exact State.foldl_canon (fun _ _ h => State.evictL1_canon h _ _) _ h

@[simp] theorem State.putL1_canon (a c) : (s.putL1 a c).memories.Canon := by
  unfold State.putL1
  dsimp only
  split <;> simp [h]

/-! Fills -/

@[simp] theorem State.fillDc_canon (die m line) : (s.fillDc die m line).memories.Canon := by
  unfold State.fillDc
  dsimp only
  split
  · exact h
  · split <;> exact State.roomDc_canon h _ _

@[simp] theorem State.fillL1_canon (a m line) : (s.fillL1 a m line).memories.Canon := by
  unfold State.fillL1
  split
  · exact State.fillDc_canon h _ _ _
  · exact State.fillDc_canon (State.roomL1_canon h _ _) _ _ _

@[simp] theorem State.fillSc_canon (a m line) : (s.fillSc a m line).memories.Canon := by
  have room : (s.roomSc a.core line).memories.Canon := by simpa using h
  exact State.fillDc_canon room _ _ _

/-! Levels -/

@[simp] theorem State.throughWords_canon (a lv ws) : (s.throughWords a lv ws).memories.Canon := by
  cases lv with
  | l1 => exact h
  | dc => exact State.foldl_throughL1_canon h _ _
  | home => exact State.throughDcs_canon (State.foldl_throughL1_canon h _ _) _ _

@[simp] theorem State.through_canon (a lv w) : (s.through a lv w).memories.Canon := by
  cases lv with
  | l1 => exact h
  | dc => exact State.throughL1_canon h _ _
  | home => exact State.throughDc_canon (State.throughL1_canon h _ _) _ _

@[simp] theorem State.throughAll_canon (a lv f) : (s.throughAll a lv f).memories.Canon := by
  have near : (if lv == .l1 then s else
      (s.wordsIn (.l1 a.core) fun c => c.dirty && f c).foldl (fun s w => s.throughL1 a w) s).memories.Canon := by
    split
    · exact h
    · exact State.foldl_throughL1_canon h _ _
  unfold State.throughAll
  dsimp only
  split
  · exact State.throughDcs_canon near _ _
  · exact near

@[simp] theorem State.fenceRel_canon (a sc) : (s.fenceRel a sc).memories.Canon := State.throughAll_canon h _ _ _

@[simp] theorem State.flushLine_canon (line) : (s.flushLine line).memories.Canon :=
  State.foldl_canon (fun _ _ h => State.throughDcs_canon h _ _) _ (State.foldl_canon (fun _ _ h => State.throughL1_canon h _ _) _ h)

/-! Words -/

@[simp] theorem State.valueAtLevel_canon (a lv m) : (s.valueAtLevel a lv m).1.memories.Canon := by
  cases lv with
  | l1 =>
    have fill : (if (s.copy? (.l1 a.core) (m.pa / 4)).isNone then s.fillL1 a m (m.pa / 4 / 32) else s).memories.Canon := by
      split
      · exact State.fillL1_canon h _ _ _
      · exact h
    simp only [State.valueAtLevel]
    split <;> exact fill
  | dc =>
    have near := State.through_canon h a .dc (m.pa / 4)
    simp only [State.valueAtLevel]
    split <;>
    · dsimp only
      split
      · exact State.fillDc_canon near _ _ _
      · exact near
  | home => simp [State.valueAtLevel, h]

@[simp] theorem State.loadWord_canon (a t sc) : (s.loadWord a t sc).1.memories.Canon := by
  cases t with
  | pad cl team off =>
    simp only [State.loadWord]
    split <;> exact h
  | mem m =>
    cases sc with
    | none => exact State.valueAtLevel_canon h _ _ _
    | some sc => exact State.valueAtLevel_canon h a (s.loadLevel a m sc) m

@[simp] theorem State.storeWord_canon (a t n x) : (s.storeWord a t n x).memories.Canon := by
  cases t with
  | pad cl team off => exact State.modTeam_canon h _ _ fun _ ht => putBytes_wf ht _ _
  | mem m =>
    simp only [State.storeWord]
    refine State.putL1_canon ?_ _ _
    split
    · exact State.fillL1_canon h _ _ _
    · exact h

@[simp] theorem State.storesThrough_canon (a ts sc) : (s.storesThrough a ts sc).memories.Canon := by simp [State.storesThrough, h]

/-! Atomics -/

@[simp] theorem State.forBase_canon (lv m) : (s.forBase lv m).memories.Canon := by
  unfold State.forBase
  split
  · exact State.flushLine_canon h _
  · exact h

@[simp] theorem State.rmwWord_canon (a lv m x) : (s.rmwWord a lv m x).memories.Canon := by
  cases lv <;> simp [State.rmwWord, h]

@[simp] theorem State.atomicWords_canon (a m m1 sc f) : (s.atomicWords a m m1 sc f).1.memories.Canon := by
  unfold State.atomicWords
  have base := State.forBase_canon h (atomLevel m sc) m
  cases m1 with
  | none =>
    have val := State.valueAtLevel_canon base a (atomLevel m sc) m
    dsimp only
    split <;> simp [val]
  | some m1 =>
    have base1 := State.forBase_canon base (atomLevel m sc) m1
    have val := State.valueAtLevel_canon base1 a (atomLevel m sc) m
    have val1 := State.valueAtLevel_canon val a (atomLevel m sc) m1
    dsimp only
    split <;> simp [val1]

@[simp] theorem State.atomic_canon (a t n sc f) : (s.atomic a t n sc f).1.memories.Canon := by
  cases t with
  | pad cl team off =>
    simp only [State.atomic]
    split <;> simp [h]
  | mem m => simp [State.atomic, h]

@[simp] theorem State.atomicPieces_canon (a ps sc f) : (s.atomicPieces a ps sc f).1.memories.Canon := by
  have read := State.foldl_fst_canon (α := Mapped × Nat) (β := List (Mapped × Nat × Word × Bool) × Bool)
    (f := fun acc p =>
      let r := (acc.1.forBase (atomLevel p.1 sc) p.1).valueAtLevel a (atomLevel p.1 sc) p.1
      (r.1, acc.2.1 ++ [(p.1, p.2, r.2)], acc.2.2 || r.2.2))
    (fun acc p hs => State.valueAtLevel_canon (State.forBase_canon hs _ _) _ _ _) ps (a := (s, [], false)) h
  unfold State.atomicPieces
  dsimp only
  split
  · simp +contextual [read]
  · simpa using read

@[simp] theorem State.atomicParts_canon (a ps n sc f) : (s.atomicParts a ps n sc f).1.memories.Canon := by
  unfold State.atomicParts
  split
  · split <;> simp [h]
  · simp [h]

end Sys2Proof.Machine
end

section
/-! ### Answers and computations that keep the canonical form -/

namespace Sys2Proof.Machine

open Sys2Proof

/-- The answer's next state, if it has one, has canonical memories. -/
def CanonNext : Result → Prop
  | .next s => s.memories.Canon
  | .fault _ | .refused _ => True

/-- The state that a stop carries, if it carries one, has canonical memories. -/
def Stop.Canon : Stop → Prop
  | .trap (some s) _ | .freeze s _ | .wait s _ | .again s => s.memories.Canon
  | .trap none _ | .hold | .stall | .fault _ | .refuse _ => True

/-- A computation that may stop ends with a value of which `P` holds, or with a stop whose state has canonical memories. -/
def CanonChk {α : Type} (P : α → Prop) : Chk α → Prop
  | .ok a => P a
  | .error e => e.Canon

section
variable (s : State)

@[simp] theorem canonNext_next : CanonNext (.next s) = s.memories.Canon := rfl
@[simp] theorem canonNext_fault (r) : CanonNext (.fault r) := trivial
@[simp] theorem canonNext_refused (r) : CanonNext (.refused r) := trivial
@[simp] theorem canonNext_ite (c : Prop) [Decidable c] (a b : Result) : CanonNext (if c then a else b) = if c then CanonNext a else CanonNext b := apply_ite ..

@[simp] theorem Stop.canon_trap_none (t) : (Stop.trap none t).Canon := trivial
@[simp] theorem Stop.canon_trap (t) : (Stop.trap (some s) t).Canon = s.memories.Canon := rfl
@[simp] theorem Stop.canon_freeze (fr) : (Stop.freeze s fr).Canon = s.memories.Canon := rfl
@[simp] theorem Stop.canon_wait (w) : (Stop.wait s w).Canon = s.memories.Canon := rfl
@[simp] theorem Stop.canon_again : (Stop.again s).Canon = s.memories.Canon := rfl
@[simp] theorem Stop.canon_hold : Stop.hold.Canon := trivial
@[simp] theorem Stop.canon_stall : Stop.stall.Canon := trivial
@[simp] theorem Stop.canon_fault (r) : (Stop.fault r).Canon := trivial
@[simp] theorem Stop.canon_refuse (r) : (Stop.refuse r).Canon := trivial
@[simp] theorem View.stop_canon (v : View) (code m x info) : (v.stop code m x info).Canon := trivial
end

section
variable {α β : Type} {P : α → Prop} {Q : β → Prop}

@[simp] theorem canonChk_ok (a : α) : CanonChk P (.ok a) = P a := rfl
@[simp] theorem canonChk_pure (a : α) : CanonChk P (pure a) = P a := rfl
@[simp] theorem canonChk_error (e : Stop) : CanonChk P (.error e) = e.Canon := rfl
@[simp] theorem canonChk_throw (e : Stop) : CanonChk P (throw e) = e.Canon := rfl
@[simp] theorem canonChk_ite (c : Prop) [Decidable c] (a b : Chk α) :
    CanonChk P (if c then a else b) = if c then CanonChk P a else CanonChk P b := apply_ite ..

@[simp] theorem canonChk_bind_error (e : Stop) (f : α → Chk β) : CanonChk Q (.error e >>= f) = e.Canon := rfl
@[simp] theorem canonChk_bind_ok (a : α) (f : α → Chk β) : CanonChk Q (.ok a >>= f) = CanonChk Q (f a) := rfl
@[simp] theorem canonChk_map (f : α → β) (m : Chk α) : CanonChk Q (f <$> m) = CanonChk (fun a => Q (f a)) m := by cases m <;> rfl

theorem CanonChk.bind {m : Chk α} {f : α → Chk β} (hm : CanonChk P m) (hf : ∀ a, P a → CanonChk Q (f a)) : CanonChk Q (m >>= f) := by
  cases m with
  | error e => exact hm
  | ok a => exact hf a hm

/-- A computation that stops with no state of its own: checks, and the preparation of accesses. -/
abbrev ChecksOnly (m : Chk α) : Prop := CanonChk (fun _ => True) m

theorem ChecksOnly.error {m : Chk α} {e : Stop} (hm : ChecksOnly m) (he : m = .error e) : e.Canon := by
  subst he
  exact hm

/-- After a check. -/
@[simp] theorem canonChk_check {m : Chk α} {f : α → Chk β} (hm : ChecksOnly m) :
    CanonChk Q (m >>= f) ↔ ∀ a, m = .ok a → CanonChk Q (f a) := by
  cases m with
  | error e => exact ⟨fun _ _ e => (nomatch e), fun _ => hm⟩
  | ok a => exact ⟨fun h _ e => by cases e; exact h, fun h => h a rfl⟩

/-- After a computation that answers a state with canonical memories. -/
@[simp] theorem canonChk_bind_state {m : Chk State} {f : State → Chk β} (hm : CanonChk (fun s => s.memories.Canon) m) :
    CanonChk Q (m >>= f) ↔ ∀ s, m = .ok s → s.memories.Canon → CanonChk Q (f s) := by
  cases m with
  | error e => exact ⟨fun _ _ e => (nomatch e), fun _ => hm⟩
  | ok a => exact ⟨fun h _ e _ => by cases e; exact h, fun h => h a rfl hm⟩

@[simp] theorem canonChk_bind_fst {m : Chk (State × α)} {f : State × α → Chk β} (hm : CanonChk (fun p => p.1.memories.Canon) m) :
    CanonChk Q (m >>= f) ↔ ∀ p, m = .ok p → p.1.memories.Canon → CanonChk Q (f p) := by
  cases m with
  | error e => exact ⟨fun _ _ e => (nomatch e), fun _ => hm⟩
  | ok a => exact ⟨fun h _ e _ => by cases e; exact h, fun h => h a rfl hm⟩

@[simp] theorem canonChk_bind_snd {m : Chk (α × State)} {f : α × State → Chk β} (hm : CanonChk (fun p => p.2.memories.Canon) m) :
    CanonChk Q (m >>= f) ↔ ∀ p, m = .ok p → p.2.memories.Canon → CanonChk Q (f p) := by
  cases m with
  | error e => exact ⟨fun _ _ e => (nomatch e), fun _ => hm⟩
  | ok a => exact ⟨fun h _ e _ => by cases e; exact h, fun h => h a rfl hm⟩

theorem CanonChk.ite {c : Prop} [Decidable c] {a b : Chk α} (ha : CanonChk P a) (hb : CanonChk P b) : CanonChk P (if c then a else b) := by
  split
  · exact ha
  · exact hb

/-- One continuation after the two branches of a condition. -/
theorem CanonChk.ite_bind {c : Prop} [Decidable c] {a b : Chk α} {f : α → Chk β} (ha : CanonChk P a) (hb : CanonChk P b)
    (hf : ∀ x, P x → CanonChk Q (f x)) : CanonChk Q (if c then a >>= f else b >>= f) := by
  split
  · exact ha.bind hf
  · exact hb.bind hf

/-- A condition under which a computation stops. -/
theorem canonChk_stopIf {c : Prop} [Decidable c] {e : Stop} {f : Unit → Chk β} (he : e.Canon) (hf : CanonChk Q (f ())) :
    CanonChk Q (if c then .error e >>= f else f ()) := by
  split
  · exact he
  · exact hf

/-- A run of computations each of which keeps `P`. -/
theorem CanonChk.foldlM {f : α → β → Chk α} (hf : ∀ a x, P a → CanonChk P (f a x)) (l : List β) {a : α} (h : P a) :
    CanonChk P (l.foldlM f a) := by
  induction l generalizing a with
  | nil => exact h
  | cons x xs ih => exact CanonChk.bind (hf a x h) fun _ => ih

@[simp] theorem View.require_checks (v : View) (code b x) : ChecksOnly (v.require code b x) := by simp [View.require]
@[simp] theorem View.trapIf_checks (v : View) (code m x) : ChecksOnly (v.trapIf code m x) := by simp [View.trapIf]
@[simp] theorem View.checkUses_checks (v : View) (us) : ChecksOnly (v.checkUses us) := by simp [View.checkUses]
@[simp] theorem View.checks_checks (v : View) (k us) : ChecksOnly (v.checks k us) := by simp [View.checks]
@[simp] theorem View.checkTargets_checks (v : View) (m a) : ChecksOnly (v.checkTargets m a) := by simp [View.checkTargets]
@[simp] theorem View.sysop_checks (v : View) : ChecksOnly v.sysop := by simp [View.sysop]
@[simp] theorem View.checkAcc_checks (v : View) (sp as) : ChecksOnly (v.checkAcc sp as) := by simp [View.checkAcc]
@[simp] theorem View.checkTags_checks (v : View) (s rs) : ChecksOnly (v.checkTags s rs) := by simp [View.checkTags]
@[simp] theorem View.refuseConst_checks (v : View) (sp as) : ChecksOnly (v.refuseConst sp as) := by simp [View.refuseConst]
@[simp] theorem View.holdRemote_checks (v : View) (o) : ChecksOnly (v.holdRemote o) := by simp [View.holdRemote]
@[simp] theorem View.holdXfence_checks (v : View) : ChecksOnly v.holdXfence := by simp [View.holdXfence]
@[simp] theorem View.prepare_checks (v : View) (s sp need na as) : ChecksOnly (v.prepare s sp need na as) := by
  simp only [View.prepare]
  refine CanonChk.bind (v.checkAcc_checks sp as) fun _ _ => ?_
  split <;> simp
end

/-- What a stop makes of a state with canonical memories. -/
@[simp] theorem Stop.outcome_canon {s : State} (h : s.memories.Canon) {e : Stop} (he : e.Canon) (v sw) : CanonNext (e.outcome s v sw) := by
  cases e with
  | trap s' t =>
    cases s' with
    | none => simpa [Stop.outcome] using h
    | some s' => simpa [Stop.outcome] using he
  | freeze | wait | again => simpa [Stop.outcome] using he
  | hold | stall => simpa [Stop.outcome] using h
  | fault | refuse => simp [Stop.outcome]

section
variable {s : State} (h : s.memories.Canon)
include h

/-- An instruction over the wrapper whose body keeps the canonical form. -/
theorem issueAs_canon {k sw len us} {body : View → State → Chk State}
    (hb : ∀ v s, s.memories.Canon → CanonChk (fun s => s.memories.Canon) (body v s)) : CanonNext (issueAs k sw len us body s) := by
  unfold issueAs
  split
  · simp
  next v _ =>
    have run : CanonChk (fun s => s.memories.Canon) (do v.checks k (us v); body v (s.consume v (us v))) :=
      CanonChk.bind (v.checks_checks k _) fun _ _ => hb v _ (by simpa using h)
    split
    · simp_all
    · simp_all

theorem issueBranch_canon {hd len us} {body : View → State → Chk (State × (Nat → VA))}
    (hb : ∀ v s, s.memories.Canon → CanonChk (fun p => p.1.memories.Canon) (body v s)) : CanonNext (issueBranch hd len us body s) := by
  unfold issueBranch
  split
  · simp
  next v _ =>
    have run : CanonChk (fun p => p.1.memories.Canon) (do v.checks ⟨false, false⟩ (us v); body v (s.consume v (us v))) :=
      CanonChk.bind (v.checks_checks _ _) fun _ _ => hb v _ (by simpa using h)
    split
    · simp_all
    · simp_all

theorem issueMemAs_canon {k sw len us} {body : MemBody}
    (hb : ∀ v s rep, s.memories.Canon → CanonChk (fun p => p.1.s.memories.Canon) (body v s rep)) :
    CanonNext (issueMemAs k sw len us body s) := by
  unfold issueMemAs
  split
  · trivial
  next v0 _ =>
    extract_lets rep s1
    clear_value rep
    have h1 : s1.memories.Canon := by
      unfold s1
      split
      · simpa using h
      · exact h
    clear_value s1
    split
    · trivial
    next v _ =>
      have run : CanonChk (fun p : Performed × List Nat => p.1.s.memories.Canon) (do
          v.checks k (us v)
          if v.f.fenced then .error .hold
          body v s1 rep) := by
        refine CanonChk.bind (v.checks_checks k _) fun _ _ => ?_
        dsimp only
        split
        · trivial
        · exact hb v s1 _ h1
      dsimp only at run ⊢
      split <;> rename_i hr <;> simp only [hr, canonChk_error, canonChk_ok] at run
      · exact Stop.outcome_canon h1 run _ _
      · exact Stop.outcome_canon h1 run _ _
      · exact Stop.outcome_canon h1 (by simpa using run) _ _
      · exact Stop.outcome_canon h1 run _ _
      · split <;> simpa using run
      · exact Stop.outcome_canon h1 (by simpa using run) _ _

theorem issue_canon {sw len us} {body : View → State → Chk State}
    (hb : ∀ v s, s.memories.Canon → CanonChk (fun s => s.memories.Canon) (body v s)) : CanonNext (issue sw len us body s) :=
  issueAs_canon h hb

theorem issueColl_canon {sw len us} {body : View → State → Chk State}
    (hb : ∀ v s, s.memories.Canon → CanonChk (fun s => s.memories.Canon) (body v s)) : CanonNext (issueColl sw len us body s) :=
  issueAs_canon h hb

theorem issuePriv_canon {sw len us} {body : View → State → Chk State}
    (hb : ∀ v s, s.memories.Canon → CanonChk (fun s => s.memories.Canon) (body v s)) : CanonNext (issuePriv sw len us body s) :=
  issueAs_canon h hb

theorem issueMem_canon {sw len us} {body : MemBody}
    (hb : ∀ v s rep, s.memories.Canon → CanonChk (fun p => p.1.s.memories.Canon) (body v s rep)) :
    CanonNext (issueMem sw len us body s) := issueMemAs_canon h hb

@[simp] theorem laneOp_canon (long hd len sc w d srcs f) : CanonNext (laneOp long hd len sc w d srcs f s) :=
  issue_canon h fun _ _ h => by simpa using h

@[simp] theorem predOp_canon (hd len sc q srcs f fl) : CanonNext (predOp hd len sc q srcs f fl s) :=
  issue_canon h fun _ _ h => by simpa using h

end

end Sys2Proof.Machine
end

section
/-! ### Operations of the chapters that leave the memories as they are -/

namespace Sys2Proof.Machine

open Sys2Proof

variable (s : State)

/-! Translation, ports and requests -/

@[simp] theorem State.keepXlat_memories (a e) : (s.keepXlat a e).memories = s.memories := by simp [State.keepXlat]
@[simp] theorem State.keepAll_memories (a p) : (s.keepAll a p).memories = s.memories := by simp [State.keepAll]
@[simp] theorem State.modPort_memories (n u) : (s.modPort n u).memories = s.memories := by
  unfold State.modPort
  split <;> simp
@[simp] theorem State.framed_memories (p bytes) : (s.framed p bytes).memories = s.memories := by
  unfold State.framed
  split <;> simp
@[simp] theorem State.say_memories (m) : (s.say m).memories = s.memories := by
  unfold State.say
  dsimp only
  repeat' split <;> simp
@[simp] theorem State.flushOutbox_memories : s.flushOutbox.memories = s.memories := by simp [State.flushOutbox]
@[simp] theorem State.send_memories (f lanes limit dst mc r p use) : (s.send f lanes limit dst mc r p use).memories = s.memories := by
  simp [State.send]
@[simp] theorem State.remoteError_memories (r asid t) : (s.remoteError r asid t).memories = s.memories := by
  unfold State.remoteError
  split <;> simp
@[simp] theorem State.gatherErrors_memories (r asid id) : (s.gatherErrors r asid id).memories = s.memories := by
  unfold State.gatherErrors
  split
  · split <;> simp
  · rfl
@[simp] theorem State.holdErrors_memories (v ids es) : (s.holdErrors v ids es).memories = s.memories := by
  unfold State.holdErrors
  split <;> simp

/-! Bindings, groups and barriers -/

@[simp] theorem State.bound_memories (die c o) : (s.bound die c o).1.memories = s.memories := by
  unfold State.bound
  split <;> simp
@[simp] theorem completes_memories : (completes s).1.s.memories = s.memories := (rfl)
@[simp] theorem View.acquire_memories (v : View) (sc o) : (v.acquire sc o s).memories = s.memories := by simp [View.acquire]
@[simp] theorem State.releaseBar_memories (cl team slot b) : (s.releaseBar cl team slot b).memories = s.memories := by
  unfold State.releaseBar
  split <;> simp
@[simp] theorem State.countBar_memories (f b) : (s.countBar f b).memories = s.memories := by simp [State.countBar]
@[simp] theorem State.modGroup_memories (k id u) : (s.modGroup k id u).memories = s.memories := (rfl)
@[simp] theorem State.completePhase_memories (k id) : (s.completePhase k id).memories = s.memories := (rfl)
@[simp] theorem State.checkPhase_memories (k id) : (s.checkPhase k id).memories = s.memories := by
  unfold State.checkPhase
  split <;> simp
@[simp] theorem State.leaveGroups_memories (f) : (s.leaveGroups f).memories = s.memories := by
  unfold State.leaveGroups
  refine State.foldl_memories _ (fun s j => ?_) _
  split <;> simp
@[simp] theorem State.countArrival_memories (k id kind x) : (s.countArrival k id kind x).memories = s.memories := by
  simp [State.countArrival]
@[simp] theorem View.acquireAfter_memories (v : View) (nf sc) : (v.acquireAfter nf sc s).memories = s.memories := by
  simp [View.acquireAfter]
@[simp] theorem State.putTag_memories (p on) : (s.putTag p on).memories = s.memories := by
  unfold State.putTag
  split <;> simp
@[simp] theorem State.stirBar_memories (p) : (s.stirBar p).memories = s.memories := (rfl)
@[simp] theorem View.barError_memories (v : View) (sp a) : (v.barError sp a s).1.s.memories = s.memories := (rfl)
@[simp] theorem completesFence_memories : (completesFence s).1.s.memories = s.memories := (rfl)
@[simp] theorem State.arm_memories (v die left) : (s.arm v die left).1.memories = s.memories := by
  unfold State.arm
  refine State.foldl_fst_memories _ (fun a x => ?_) _
  split
  · rfl
  · split <;> simp
@[simp] theorem State.disarm_memories (f g) : (s.disarm f g).memories = s.memories := (rfl)
@[simp] theorem State.setLcd_memories (v ds) : (s.setLcd v ds).memories = s.memories := (rfl)

/-! Matrix array and jobs -/

@[simp] theorem State.modArr_memories (cl team u) : (s.modArr cl team u).memories = s.memories := by simp [State.modArr]
@[simp] theorem State.enter_memories (f pc op) : (s.enter f pc op).memories = s.memories := by simp [State.enter]
@[simp] theorem State.holdTrap_memories (kind r t) : (s.holdTrap kind r t).memories = s.memories := by
  unfold State.holdTrap
  split <;> simp
@[simp] theorem State.answered_memories (r id ups) : (s.answered r id ups).memories = s.memories := (rfl)
@[simp] theorem Team.unblock_pad (t : Team) : t.unblock.pad = t.pad := (rfl)
@[simp] theorem Team.completeJob_pad (t : Team) (id) : (t.completeJob id).pad = t.pad := by unfold Team.completeJob; split <;> simp
@[simp] theorem Team.followed_pad (t : Team) (id) : (t.followed id).pad = t.pad := by unfold Team.followed; split <;> simp
@[simp] theorem State.finish_memories (cl team c ups) : (s.finish cl team c ups).memories = s.memories := by simp [State.finish]
@[simp] theorem State.modJob_memories (cl team id u) : (s.modJob cl team id u).memories = s.memories := by simp [State.modJob]
@[simp] theorem State.faultJob_memories (cl team j cause addr) : (s.faultJob cl team j cause addr).memories = s.memories := by
  simp [State.faultJob]
@[simp] theorem State.spoil_memories (cl team c addr) : (s.spoil cl team c addr).memories = s.memories := by
  unfold State.spoil
  dsimp only
  repeat' split <;> simp
@[simp] theorem State.refresh_memories (cl team) : (s.refresh cl team).memories = s.memories := by simp [State.refresh]
@[simp] theorem View.entered_memories (v : View) (used op store) : (v.entered s used op store).1.s.memories = s.memories := by
  simp [View.entered]
@[simp] theorem frozen_memories (frames) : (frozen s frames).1.s.memories = s.memories := (rfl)
@[simp] theorem View.awaits_memories (v : View) (rows op) : (v.awaits s rows op).memories = s.memories := by simp [View.awaits]
@[simp] theorem State.jobSend_memories (v key op) : (s.jobSend v key op).memories = s.memories := by
  unfold State.jobSend
  dsimp only
  repeat' split <;> simp
@[simp] theorem State.acquireTags_memories (a asid t mask) : (s.acquireTags a asid t mask).memories = s.memories := by
  simp [State.acquireTags]

/-! Launch, kernels and queues -/

@[simp] theorem State.dropXlat_memories (asid die rng) : (s.dropXlat asid die rng).memories = s.memories := (rfl)
@[simp] theorem State.unpark_memories (r) : (s.unpark r).memories = s.memories := by
  unfold State.unpark
  dsimp only
  repeat' split <;> simp
@[simp] theorem State.overtake_memories (die c) : (s.overtake die c).memories = s.memories := by simp [State.overtake]
@[simp] theorem State.firstOn_memories (k core) : (s.firstOn k core).memories = s.memories := by
  unfold State.firstOn
  split <;> simp
@[simp] theorem State.contextRuns_memories (a) : (s.contextRuns a).memories = s.memories := (rfl)
@[simp] theorem State.endWait_memories (r g ups acq) : (s.endWait r g ups acq).memories = s.memories := by
  unfold State.endWait
  dsimp only
  repeat' split <;> simp
@[simp] theorem State.freeMonitors_memories (r g left) : (s.freeMonitors r g left).memories = s.memories := (rfl)
@[simp] theorem State.tellWork_memories (c) : (s.tellWork c).memories = s.memories := by simp [State.tellWork]
@[simp] theorem State.wakeOut_memories (r) : (s.wakeOut r).memories = s.memories := by
  unfold State.wakeOut
  dsimp only
  repeat' split <;> simp
@[simp] theorem State.afterSaves_memories : s.afterSaves.memories = s.memories := (rfl)
@[simp] theorem State.settleContext_memories (a) : (s.settleContext a).memories = s.memories := by
  unfold State.settleContext
  dsimp only
  repeat' split <;> simp
@[simp] theorem State.renumber_memories (cl team slots) : (s.renumber cl team slots).memories = s.memories := (rfl)
@[simp] theorem State.moveTeam_memories (cl rank core unit slots) : (s.moveTeam cl rank core unit slots).memories = s.memories := by
  simp [State.moveTeam]
@[simp] theorem State.dropClean_memories (core) : (s.dropClean core).memories = s.memories := (rfl)
@[simp] theorem State.modQueue_memories (q u) : (s.modQueue q u).memories = s.memories := by
  unfold State.modQueue
  split <;> simp
@[simp] theorem State.watch_memories (q) : (s.watch q).memories = s.memories := by simp [State.watch]
@[simp] theorem State.answer_memories (ok data) : (s.answer ok data).memories = s.memories := (rfl)
@[simp] theorem State.settleQueue_memories (q) : (s.settleQueue q).memories = s.memories := by simp [State.settleQueue]
@[simp] theorem View.holdDst_memories (v : View) (d) : (v.holdDst s d).memories = s.memories := (rfl)

/-! Arrivals, commit groups and requests -/

@[simp] theorem State.withArrival_memories (a id) : (s.withArrival a id).memories = s.memories := by simp [State.withArrival]
@[simp] theorem State.modArrival_memories (a id u) : (s.modArrival a id u).memories = s.memories := (rfl)
@[simp] theorem State.modStaged_memories (cgid a u) : (s.modStaged cgid a u).memories = s.memories := (rfl)
@[simp] theorem State.stage_memories (sdev cgid a r) : (s.stage sdev cgid a r).memories = s.memories := by simp [State.stage]
@[simp] theorem State.freeReplies_memories (r) : (s.freeReplies r).memories = s.memories := (rfl)
@[simp] theorem State.keepReply_memories (r rep) : (s.keepReply r rep).memories = s.memories := by
  unfold State.keepReply
  split <;> simp
@[simp] theorem State.replyTo_memories (r rep) : (s.replyTo r rep).memories = s.memories := by
  unfold State.replyTo
  split <;> simp
@[simp] theorem State.discardStaged_memories (cgid a) : (s.discardStaged cgid a).memories = s.memories := (rfl)
@[simp] theorem State.stagingErrors_memories (n) : (s.stagingErrors n).memories = s.memories := by simp [State.stagingErrors]
@[simp] theorem State.prepareAt_memories (cgid a obj n crc) : (s.prepareAt cgid a obj n crc).1.memories = s.memories := by
  unfold State.prepareAt
  split
  · rfl
  next c _ =>
    split_ifs
    · rfl
    · rfl
    · split
      · rfl
      · split
        · rfl
        · split <;> simp
@[simp] theorem State.discardFrom_memories (dev) : (s.discardFrom dev).memories = s.memories := (rfl)
@[simp] theorem State.modCg_memories (cgid u) : (s.modCg cgid u).memories = s.memories := (rfl)
@[simp] theorem State.sayAbort_memories (cgid d) : (s.sayAbort cgid d).memories = s.memories := by simp [State.sayAbort]
@[simp] theorem State.abortHeard_memories (id) : (s.abortHeard id).memories = s.memories := by simp [State.abortHeard]
@[simp] theorem State.settleAborts_memories : s.settleAborts.memories = s.memories := by simp [State.settleAborts]
@[simp] theorem State.freeGroups_memories : s.freeGroups.memories = s.memories := (rfl)
@[simp] theorem State.dropObjects_memories (a) : (s.dropObjects a).memories = s.memories := (rfl)
@[simp] theorem State.noteRecord_memories (cgid dev asid bs lost) : (s.noteRecord cgid dev asid bs lost).memories = s.memories := (rfl)
@[simp] theorem State.dropRequest_memories (id) : (s.dropRequest id).memories = s.memories := (rfl)
@[simp] theorem State.modRequest_memories (id u) : (s.modRequest id u).memories = s.memories := (rfl)
@[simp] theorem State.modUpds_memories (f out u) : (s.modUpds f out u).memories = s.memories := (rfl)
@[simp] theorem State.laneEnds_memories (q) : (s.laneEnds q).memories = s.memories := by
  unfold State.laneEnds
  dsimp only
  split <;> simp
@[simp] theorem State.failRequest_memories (q code info) : (s.failRequest q code info).memories = s.memories := by
  unfold State.failRequest
  dsimp only
  split
  · simp
  · simp
  · split <;> split <;> simp
@[simp] theorem State.learn_memories (dev inc) : (s.learn dev inc).memories = s.memories := by
  unfold State.learn
  split <;> simp
@[simp] theorem State.forget_memories (dev) : (s.forget dev).memories = s.memories := (rfl)
@[simp] theorem State.endBurst_memories (n) : (s.endBurst n).memories = s.memories := by
  unfold State.endBurst
  split <;> simp
@[simp] theorem State.failColl_memories (c rep) : (s.failColl c rep).memories = s.memories := by
  unfold State.failColl
  split <;> simp
@[simp] theorem State.retryMember_memories (q dev) : (s.retryMember q dev).memories = s.memories := (rfl)
@[simp] theorem State.breakRequest_memories (id code info) : (s.breakRequest id code info).memories = s.memories := (rfl)
@[simp] theorem State.resend_memories (q) : (s.resend q).memories = s.memories := by
  unfold State.resend
  split
  · simp
  · split
    · split <;> simp
    · simp
@[simp] theorem View.linkLost_memories (v : View) (va) : (v.linkLost va s).memories = s.memories := by simp [View.linkLost]
@[simp] theorem State.keepSending_memories (v x) : (s.keepSending v x).memories = s.memories := (rfl)

/-! Links -/

@[simp] theorem State.modColl_memories (id u) : (s.modColl id u).memories = s.memories := (rfl)
@[simp] theorem State.setPort_memories (n st) : (s.setPort n st).memories = s.memories := by simp [State.setPort]
@[simp] theorem State.goDown_memories (n) : (s.goDown n).memories = s.memories := by simp [State.goDown]
@[simp] theorem State.train_memories (n) : (s.train n).memories = s.memories := by simp [State.train]
@[simp] theorem State.setPlane_memories (p st) : (s.setPlane p st).memories = s.memories := by
  unfold State.setPlane
  split <;> simp

/-! Pages, contexts, dies -/

@[simp] theorem State.forgetTable_memories (table) : (s.forgetTable table).memories = s.memories := (rfl)
@[simp] theorem State.begin_memories (a base size old mig) : (s.begin_ a base size old mig).memories = s.memories := (rfl)
@[simp] theorem State.settleOwed_memories (a) : (s.settleOwed a).memories = s.memories := by
  unfold State.settleOwed
  split <;> simp
@[simp] theorem State.unreplicate_memories (pa n) : (s.unreplicate pa n).memories = s.memories := (rfl)
@[simp] theorem State.movePlaces_memories (old size new die) : (s.movePlaces old size new die).memories = s.memories := (rfl)
@[simp] theorem State.thaw_memories (c) : (s.thaw c).memories = s.memories := (rfl)
@[simp] theorem State.endMove_memories (asid va) : (s.endMove asid va).memories = s.memories := (rfl)
@[simp] theorem State.dropKernels_memories (a) : (s.dropKernels a).memories = s.memories := (rfl)
@[simp] theorem State.modDie_memories (d u) : (s.modDie d u).memories = s.memories := by
  unfold State.modDie
  split <;> simp
@[simp] theorem State.settleHalt_memories (d) : (s.settleHalt d).memories = s.memories := by simp [State.settleHalt]
@[simp] theorem State.modPdie_memories (p u) : (s.modPdie p u).memories = s.memories := by
  unfold State.modPdie
  split <;> simp
@[simp] theorem State.admitDie_memories (d) : (s.admitDie d).memories = s.memories := by simp [State.admitDie]
@[simp] theorem State.changeFreq_memories (d freq) : (s.changeFreq d freq).memories = s.memories := by simp [State.changeFreq]
@[simp] theorem State.releaseHeld_memories (d) : (s.releaseHeld d).memories = s.memories := by simp [State.releaseHeld]
@[simp] theorem State.settleClocks_memories : s.settleClocks.memories = s.memories := by simp [State.settleClocks]
@[simp] theorem State.setAmps_memories (d amps) : (s.setAmps d amps).memories = s.memories := by simp [State.setAmps]
@[simp] theorem State.setVolt_memories (d mv) : (s.setVolt d mv).memories = s.memories := by simp [State.setVolt]
@[simp] theorem State.respond_memories (n x) : (s.respond n x).memories = s.memories := (rfl)

/-! What settles by itself -/

@[simp] theorem State.settleFlags_memories (x) : (s.settleFlags x).memories = s.memories := by
  unfold State.settleFlags
  split <;> simp
@[simp] theorem State.passSlot_memories (x) : (s.passSlot x).memories = s.memories := by
  unfold State.passSlot
  split <;> simp
@[simp] theorem State.settleTeam_memories (t) : (s.settleTeam t).memories = s.memories := by
  unfold State.settleTeam
  split
  · rfl
  · dsimp only
    split
    · rfl
    · split
      · split <;> simp
      · split <;> simp
@[simp] theorem State.gridEnd_memories (k) : (s.gridEnd k).memories = s.memories := (rfl)
@[simp] theorem State.settleIdle_memories : s.settleIdle.memories = s.memories := (rfl)
@[simp] theorem State.tick_memories : s.tick.memories = s.memories := by simp [State.tick]
@[simp] theorem State.turnTo_memories (f) : (s.turnTo f).memories = s.memories := (rfl)
@[simp] theorem State.channelFails_memories (ch) : (s.channelFails ch).memories = s.memories := by simp [State.channelFails]
@[simp] theorem State.pass_memories : s.pass.memories = s.memories := by simp [State.pass]

end Sys2Proof.Machine
end

section
/-! ### Instructions on registers, control and memory -/

namespace Sys2Proof.Machine

open Sys2Proof

variable {s : State} (h : s.memories.Canon)
include h

theorem execDbnz_canon (hd sc d off) : CanonNext (execDbnz hd sc d off s) := by
  unfold execDbnz
  cases sc with
  | true =>
    dsimp only
    split
    · trivial
    · exact issueBranch_canon h fun v s h => by simp [h]
  | false => exact issueBranch_canon h fun v s h => by simp [h]
@[simp] theorem execRegang_canon (sw a) : CanonNext (execRegang sw a s) := by
  unfold execRegang
  split
  · trivial
  · split
    next he => exact Stop.outcome_canon h (ChecksOnly.error (by simp) he) _ _
    next => simp [h]

@[simp] theorem State.sendAll_canon (v dst mc rs) : CanonChk (fun p => p.1.memories.Canon) (State.sendAll v dst mc rs s) := by
  refine CanonChk.foldlM (fun a x ha => ?_) rs h
  split <;> simp [ha]

@[simp] theorem State.loadParts_canon (a sc ps) : (s.loadParts a sc ps).1.memories.Canon := by simp +contextual [State.loadParts, h]

@[simp] theorem State.storeParts_canon (a sc ps ws) : (s.storeParts a sc ps ws).memories.Canon :=
  State.storesThrough_canon (State.foldl_canon (fun _ _ h => State.storeWord_canon h _ _ _ _) _ h) _ _ _

@[simp] theorem ldRemote_canon (hd scf acq cnt ty d a c v rep) :
   CanonChk (fun p => p.1.s.memories.Canon) (ldRemote hd scf acq cnt ty d a c v s rep) := by
  simp +contextual [ldRemote, h]

@[simp] theorem stRemote_canon (hd rel cnt ty a b c v rep) :
   CanonChk (fun p => p.1.s.memories.Canon) (stRemote hd rel cnt ty a b c v s rep) := by
  simp +contextual [stRemote, h]

@[simp] theorem execLd_canon (hd scf acq cnt sp ty d a c) : CanonNext (execLd hd scf acq cnt sp ty d a c s) := by
  refine issueMem_canon h fun v s rep h => ?_
  split
  · exact ldRemote_canon h ..
  · simp +contextual [h]

@[simp] theorem execSt_canon (hd rel cnt sp ty a b c) : CanonNext (execSt hd rel cnt sp ty a b c s) := by
  refine issueMem_canon h fun v s rep h => ?_
  split
  · exact stRemote_canon h ..
  · simp +contextual [h]


@[simp] theorem execExit_canon (hd) : CanonNext (execExit hd s) := by
  unfold execExit
  split
  · trivial
  · split
    next he => exact Stop.outcome_canon h (ChecksOnly.error (by simp) he) _ _
    next => split <;> simp [h]

@[simp] theorem execRtt_canon (sw) : CanonNext (execRtt sw s) := by
  unfold execRtt
  split
  · trivial
  · split
    next he => exact Stop.outcome_canon h (ChecksOnly.error (by simp) he) _ _
    next => simp [h]

@[simp] theorem withBitmap_checks {α : Type} {x : Chk α} (hx : ChecksOnly x) (v cb m) : ChecksOnly (withBitmap s v cb m x) := by
  unfold withBitmap
  split
  · simpa using h
  · exact hx

@[simp] theorem execGath_canon (hd cont sx sp ty d a b cb) : CanonNext (execGath hd cont sx sp ty d a b cb s) := by
  refine issueMem_canon h fun v s rep h => ?_
  simp +contextual [h]

@[simp] theorem execScat_canon (hd cont sx sp ty d a b cb) : CanonNext (execScat hd cont sx sp ty d a b cb s) := by
  refine issueMem_canon h fun v s rep h => ?_
  simp +contextual [h]

@[simp] theorem execPref_canon (hd lvl sp a c) : CanonNext (execPref hd lvl sp a c s) := by
  refine issue_canon h fun v s h => ?_
  split
  · trivial
  · refine State.foldl_canon (fun s l h => ?_) _ h
    dsimp only
    split
    · split
      · split <;> simp [h]
      · exact h
    · exact h

@[simp] theorem lineOp_canon (discard hd sc sp a c) : CanonNext (lineOp discard hd sc sp a c s) := by
  refine issueMem_canon h fun v s rep h => ?_
  split
  · exact h
  · refine (canonChk_check (by simp)).2 fun p _ => ?_
    refine State.foldl_canon (fun s r h => ?_) _ (by simpa using h)
    split
    · split <;> simp [h]
    · exact h

@[simp] theorem execCinv_canon (hd sc sp a c) : CanonNext (execCinv hd sc sp a c s) := lineOp_canon h ..
@[simp] theorem execCwb_canon (hd sc sp a c) : CanonNext (execCwb hd sc sp a c s) := lineOp_canon h ..

@[simp] theorem View.atomLanes_canon (v : View) (op ty sc b d rs) : (v.atomLanes op ty sc b d rs s).1.memories.Canon := by
  simp +contextual [View.atomLanes, h]

@[simp] theorem execAtom_canon (hd op sp ty sc ord d a b) : CanonNext (execAtom hd op sp ty sc ord d a b s) :=
  issueMem_canon h fun v s rep h => by simp +contextual [h]

@[simp] theorem execRed_canon (hd op sp ty sc rel a b) : CanonNext (execRed hd op sp ty sc rel a b s) :=
  issueMem_canon h fun v s rep h => by simp +contextual [h]

@[simp] theorem State.fenceWork_canon (a m sc) : (s.fenceWork a m sc).memories.Canon := by
  unfold State.fenceWork
  split <;> simp [h]

@[simp] theorem execFence_canon (sw m sc) : CanonNext (execFence sw m sc s) := by
  refine issueMem_canon h fun v s rep h => ?_
  rw [canonChk_ok]
  simp [h]

/-! Bindings -/

@[simp] theorem State.putBind_canon (c i e) : (s.putBind c i e).memories.Canon := by
  unfold State.putBind
  split <;> simp [h]

@[simp] theorem execBind_canon (sw i a b c) : CanonNext (execBind sw i a b c s) :=
  issueMem_canon h fun v s rep h => by simp +contextual [h]

@[simp] theorem execUnbind_canon (sw i) : CanonNext (execUnbind sw i s) :=
  issueMem_canon h fun v s rep h => by simp +contextual [h]

@[simp] theorem execUnbindObj_canon (sw a) : CanonNext (execUnbindObj sw a s) := by
  refine issueMem_canon h fun v s rep h => ?_
  rw [canonChk_ok, completes_memories]
  refine State.foldl_canon (fun s i h => ?_) _ h
  split
  · split <;> simp [h]
  · exact h

@[simp] theorem View.releaseRegions_canon (v : View) (sc o) : (v.releaseRegions sc o s).memories.Canon := by
  simp [View.releaseRegions, h]

@[simp] theorem execAcq_canon (hd op sc d a) : CanonNext (execAcq hd op sc d a s) := by
  refine issueMem_canon h fun v s rep h => ?_
  refine (canonChk_check (by simp)).2 fun p _ => ?_
  cases op with
  | ld =>
    simp only [canonChk_pure, State.foldl_memories, View.acquire_memories, implies_true]
    refine State.foldl_fst_canon (fun a r h => ?_) _ (by simpa using h)
    split <;> simp [h]
  | cas b c =>
    refine (canonChk_check (by simp)).2 fun _ _ => ?_
    simp only [canonChk_pure, State.foldl_memories, View.acquire_memories, implies_true]
    refine State.foldl_fst_canon (fun a r h => ?_) _ (by simpa using h)
    split <;> simp [h]

@[simp] theorem State.putObject_canon (a sc t x) : (s.putObject a sc t x).memories.Canon := by
  cases t with
  | pad => exact h
  | mem m =>
    simp only [State.putObject]
    split
    · simpa using h
    · rw [State.atHome_memories]
      exact State.rmwWord_canon (State.rmwWord_canon (State.through_canon (State.through_canon (State.forBase_canon h ..) ..) ..) ..) ..

@[simp] theorem State.addObject_canon (a sc t x) : (s.addObject a sc t x).memories.Canon := by
  unfold State.addObject
  dsimp only
  split
  · split <;> simp [h]
  · simp [h]

@[simp] theorem execRels_canon (hd op sc a b) : CanonNext (execRels hd op sc a b s) := by
  refine issueMem_canon h fun v s rep h => ?_
  refine (canonChk_check (by simp)).2 fun p _ => (canonChk_check (by simp)).2 fun _ _ => ?_
  have regions : ((objectsOf p.ready).foldl (fun s o => v.releaseRegions sc o s) (s.keepAll v.agent p)).memories.Canon :=
    State.foldl_canon (fun _ _ h => View.releaseRegions_canon h ..) _ (by simpa using h)
  dsimp only
  split
  · exact h
  · refine State.foldl_canon (fun s r h => ?_) _ regions
    split
    · exact h
    · split <;> simp [h]

/-! Slots and groups -/

@[simp] theorem execFbarArrivalCount_canon (f) : CanonNext (execFbarArrivalCount f s) := by
  unfold execFbarArrivalCount
  split
  · exact h
  · split
    · split <;> simp [h]
    · exact h

@[simp] theorem execDeferredFpostApply_canon (f) : CanonNext (execDeferredFpostApply f s) := by
  unfold execDeferredFpostApply
  split
  · exact h
  · split
    · split <;> simp [h]
    · exact h

omit h in
@[simp] theorem View.groupEntry_checks (v : View) (g) : ChecksOnly (v.groupEntry g) := by
  unfold View.groupEntry
  split <;> simp

@[simp] theorem View.arrive_canon (v : View) (g nf kind x) : CanonChk (fun p => p.2.memories.Canon) (v.arrive s g nf kind x) := by
  refine (canonChk_check (by simp)).2 fun e _ => ?_
  dsimp only
  repeat' split
  all_goals simp [h]

@[simp] theorem State.tailWork_canon (f x) : (s.tailWork f x).memories.Canon := by simp [State.tailWork, h]

@[simp] theorem execResultReturn_canon (f n) : CanonNext (execResultReturn f n s) := by
  unfold execResultReturn
  split
  · exact h
  · split
    · split
      · split <;> simp [h]
      · exact h
    · exact h

@[simp] theorem View.waitPhase_canon (v : View) (e phase nf) :
    CanonChk (fun s => s.memories.Canon) (v.waitPhase s e phase nf) := by simp [View.waitPhase, h]

@[simp] theorem execGarv_canon (sw nf d g) : CanonNext (execGarv sw nf d g s) :=
  issueColl_canon h fun v s h => by simp +contextual [h]

@[simp] theorem execGwait_canon (sw nf g b) : CanonNext (execGwait sw nf g b s) :=
  issueColl_canon h fun v s h => by simp +contextual [h]

@[simp] theorem execGbar_canon (sw nf g) : CanonNext (execGbar sw nf g s) :=
  issueColl_canon h fun v s h => by simp +contextual [h]

@[simp] theorem execGred_canon (sw nf op ty d g b) : CanonNext (execGred sw nf op ty d g b s) := by
  refine issueColl_canon h fun v s h => ?_
  refine (canonChk_bind_snd (View.arrive_canon h ..)).2 fun p _ h => ?_
  dsimp only
  split
  · split <;> simp [h]
  · exact h

@[simp] theorem execGqry_canon (sw q d g) : CanonNext (execGqry sw q d g s) :=
  issueColl_canon h fun v s h => by simp +contextual [h]

/-! Barrier words -/

@[simp] theorem State.putBar_canon (p x) : (s.putBar p x).memories.Canon := by
  unfold State.putBar
  split <;> simp [h]

@[simp] theorem View.barPlace_canon (v : View) (sp a rep) : CanonChk (fun p => p.1.memories.Canon) (v.barPlace s sp a rep) := by
  refine (canonChk_check (by simp)).2 fun p _ => ?_
  split <;> simp [h]

theorem barOp_canon {sw sp a us} {body : View → State → Target → Place → Chk (Performed × List Nat)}
    (hb : ∀ v s t p, s.memories.Canon → CanonChk (fun p => p.1.s.memories.Canon) (body v s t p)) :
    CanonNext (barOp sw sp a us body s) := by
  refine issueMem_canon h fun v s rep h => ?_
  refine (canonChk_bind_fst (View.barPlace_canon h ..)).2 fun x _ h => ?_
  dsimp only
  split
  · rw [canonChk_ite]
    split
    · simpa using h
    · exact hb _ _ _ _ h
  · exact h

@[simp] theorem execBinit_canon (sw sp a b) : CanonNext (execBinit sw sp a b s) := by
  refine barOp_canon h fun v s t p h => ?_
  refine (canonChk_check (by simp)).2 fun _ _ => ?_
  cases p <;> simp [h]


end Sys2Proof.Machine
end

section
/-! ### Barriers that wait, layouts and tiles -/

namespace Sys2Proof.Machine

open Sys2Proof

@[simp] theorem View.laySrc_checks (v : View) (n) : ChecksOnly (v.laySrc n) := by simp [View.laySrc]

variable {s : State} (h : s.memories.Canon)
include h

@[simp] theorem execBarv_canon (sw nf sp sc d a) : CanonNext (execBarv sw nf sp sc d a s) := by
  refine barOp_canon h fun v s t p h => ?_
  refine (canonChk_check (by simp)).2 fun _ _ => ?_
  split
  · simpa using h
  · refine (canonChk_check (by simp)).2 fun _ _ => ?_
    repeat' split
    all_goals simp [h]

@[simp] theorem execBwait_canon (sw nf sp sc a b) : CanonNext (execBwait sw nf sp sc a b s) := by
  refine barOp_canon h fun v s t p h => ?_
  refine (canonChk_check (by simp)).2 fun _ _ => ?_
  repeat' split
  all_goals simp [h]

@[simp] theorem execBdrop_canon (sw sp a) : CanonNext (execBdrop sw sp a s) := by
  refine barOp_canon h fun v s t p h => ?_
  refine (canonChk_check (by simp)).2 fun _ _ => ?_
  dsimp only
  split <;> simp [h]

@[simp] theorem State.syncWords_canon (a die n left) : (s.syncWords a die n left).memories.Canon := by
  refine State.foldl_canon (fun s x h => ?_) _ h
  split
  · refine State.foldl_canon (fun s i h => ?_) _ h
    dsimp only
    split <;> simp [h]
  · exact h

@[simp] theorem execWaitcmp_canon (hd cc acq ty sc d a b) : CanonNext (execWaitcmp hd cc acq ty sc d a b s) := by
  refine issueMem_canon h fun v s rep h => ?_
  refine (canonChk_check (by simp)).2 fun p _ => ?_
  have synced (a die n left) : ((s.keepAll v.agent p).syncWords a die n left).memories.Canon :=
    State.syncWords_canon (by simpa using h) ..
  dsimp only
  split
  · exact h
  · split
    · simp [synced]
    · split <;> simp [synced]

/-! Layouts -/

theorem layOp_canon {f : View → Lay → Chk Lay} (hf : ∀ v l, ChecksOnly (f v l)) (sw len d a us) :
    CanonNext (layOp sw len d a us f s) :=
  issue_canon h fun v s h => by simp [hf, h]

@[simp] theorem View.wideLoad_canon (v : View) (sp addr n al rep) :
    CanonChk (fun p => p.1.memories.Canon) (v.wideLoad s sp addr n al rep) := by
  refine (canonChk_check (by simp)).2 fun p _ => ?_
  dsimp only
  split
  · exact h
  · split <;> simp [h]

@[simp] theorem execLst_canon (sw sp a b) : CanonNext (execLst sw sp a b s) := by
  refine issueMem_canon h fun v s rep h => ?_
  refine (canonChk_check (by simp)).2 fun p _ => ?_
  dsimp only
  split
  · exact h
  · refine (canonChk_check (by simp)).2 fun _ _ => ?_
    split <;> simp [h]

@[simp] theorem execLslice_canon (sw mode d a b c imm) : CanonNext (execLslice sw mode d a b c imm s) := by
  refine issue_canon h fun v s h => ?_
  simp [h]

@[simp] theorem execHset_canon (sw f d val) : CanonNext (execHset sw f d val s) := by
  refine issue_canon h fun v s h => ?_
  split <;> simp [h]

theorem withTable_canon {run : State → Result} (hr : CanonNext (run s)) (sw t) : CanonNext (withTable sw t run s) := by
  unfold withTable
  split
  · split
    · exact hr
    · simp [h]
  · exact hr

@[simp] theorem execPermx_canon (sw t d a) : CanonNext (execPermx sw t d a s) := by
  refine withTable_canon h (issueColl_canon h fun v s h => ?_) sw t
  dsimp only
  split <;> simp [h]

/-! Tiles -/

@[simp] theorem State.loadUnits_canon (a us) : (s.loadUnits a us).1.memories.Canon := by simp +contextual [State.loadUnits, h]

omit h in
@[simp] theorem View.tileAccept_checks (v : View) (t st i0) : ChecksOnly (v.tileAccept t st i0) := by
  unfold View.tileAccept
  dsimp only
  split <;> simp

omit h in
@[simp] theorem View.vrAligned_checks (v : View) (t us) : ChecksOnly (v.vrAligned t us) := by
  unfold View.vrAligned
  split <;> simp

omit h in
@[simp] theorem View.tileTags_checks (v : View) (us) : ChecksOnly (v.tileTags s us) := by simp [View.tileTags]

omit h in
@[simp] theorem View.prepareTile_checks (v : View) (need na k al us) : ChecksOnly (v.prepareTile s need na k al us) := by
  unfold View.prepareTile
  extract_lets spots fail
  have fails (c p) : ChecksOnly (fail c p) := by
    simp only [fail]
    split <;> simp
  clear_value fail
  refine (canonChk_check (fails ..)).2 fun _ _ => (canonChk_check (fails ..)).2 fun _ _ => ?_
  split
  · simp
  · split
    · exact (canonChk_check (fails ..)).2 fun _ _ => trivial
    · trivial

@[simp] theorem execLdl_canon (sw k d t b) : CanonNext (execLdl sw k d t b s) := by
  refine issueMemAs_canon h fun v s rep h => ?_
  refine (canonChk_check (by simp)).2 fun x _ => ?_
  dsimp only
  split
  · simp [h]
  · refine (canonChk_check (by simp)).2 fun p _ => ?_
    split <;> simp [h]

@[simp] theorem State.storeUnit_canon (a ps x) : (s.storeUnit a ps x).memories.Canon :=
  State.foldl_fst_canon (fun _ _ h => State.storeParts_canon h ..) _ h

@[simp] theorem execStl_canon (sw k t b c) : CanonNext (execStl sw k t b c s) := by
  refine issueMemAs_canon h fun v s rep h => ?_
  refine (canonChk_check (by simp)).2 fun x _ => (canonChk_check (by simp)).2 fun p _ => ?_
  dsimp only
  split
  · exact h
  · refine (canonChk_check (by simp)).2 fun _ _ => ?_
    simp +contextual [h]

end Sys2Proof.Machine
end

section
/-! ### Matrix arrays -/

namespace Sys2Proof.Machine

open Sys2Proof

section Checks
variable {s : State} (v : View)

@[simp] theorem View.failAt_canon (c a) : (v.failAt c a).Canon := trivial

@[simp] theorem View.placeEach_checks (na rs) : ChecksOnly (v.placeEach s na rs) := by
  unfold View.placeEach
  extract_lets fail spots frames xs meets
  have fails (c bad) : ChecksOnly (fail c bad) := by simp [fail]
  clear_value fail
  refine (canonChk_check (fails ..)).2 fun _ _ => (canonChk_check (fails ..)).2 fun _ _ => ?_
  split
  · trivial
  · exact (canonChk_check (fails ..)).2 fun _ _ => (canonChk_check (fails ..)).2 fun _ _ => trivial

@[simp] theorem View.placeAll_checks (need na rs) : ChecksOnly (v.placeAll s need na rs) := v.placeEach_checks na _

@[simp] theorem View.feedRows_checks (t l more na) : ChecksOnly (v.feedRows s t l more na) := by simp [View.feedRows]

@[simp] theorem View.array_checks : ChecksOnly v.array := by
  unfold View.array
  split <;> simp

@[simp] theorem View.feedAccept_checks (e hd l) : ChecksOnly (v.feedAccept e hd l) := by
  unfold View.feedAccept
  split <;> simp

@[simp] theorem View.laneAccept_checks (st hd l) : ChecksOnly (v.laneAccept st hd l) := by
  unfold View.laneAccept
  split <;> simp

end Checks

variable {s : State} (h : s.memories.Canon)
include h

@[simp] theorem State.readPiece_canon (a sc p) : (s.readPiece a sc p).1.memories.Canon := by simp +contextual [State.readPiece, h]

@[simp] theorem State.loadScale_canon (a t) : (s.loadScale a t).1.memories.Canon := by
  cases t with
  | pad => exact State.loadWord_canon h ..
  | mem m =>
    simp only [State.loadScale]
    split <;> simp [h]

@[simp] theorem State.readScale_canon (a p) : (s.readScale a p).1.memories.Canon := by simp +contextual [State.readScale, h]

@[simp] theorem State.writePiece_canon (a p x) : (s.writePiece a p x).memories.Canon :=
  State.storesThrough_canon (State.foldl_fst_canon (fun _ _ h => State.storeWord_canon h ..) _ h) ..

@[simp] theorem State.readPieces_canon (a ps) : (s.readPieces a ps).1.memories.Canon := by simp +contextual [State.readPieces, h]

@[simp] theorem State.readScales_canon (a ps) : (s.readScales a ps).1.memories.Canon := by simp +contextual [State.readScales, h]

@[simp] theorem State.readUnits_canon (a grain us) : (s.readUnits a grain us).1.memories.Canon := by
  refine State.foldl_fst_canon (fun x u h => ?_) _ h
  cases u with
  | imm => exact h
  | mem p half => exact State.readPiece_canon h ..

@[simp] theorem State.readRow_canon (a grain r) : (s.readRow a grain r).1.memories.Canon :=
  State.readScales_canon (State.readUnits_canon h ..) ..

@[simp] theorem State.commitRow_canon (ag arr c) : (s.commitRow ag arr c).1.memories.Canon := by
  unfold State.commitRow
  split
  · dsimp only
    split
    · simp [h]
    · split <;> simp [h]
  · split
    · exact h
    · dsimp only
      split <;> simp [h]
  · split
    · exact h
    · dsimp only
      split
      · simp [h]
      · exact State.foldl_canon (fun _ _ h => State.writePiece_canon h ..) _ (State.readScales_canon h ..)
  · exact h

@[simp] theorem execArrayDeferredAct_canon (cl team) : CanonNext (execArrayDeferredAct cl team s) := by
  unfold execArrayDeferredAct
  dsimp only
  split
  · simpa using h
  · split
    · simpa using h
    · split
      · simpa using h
      · split <;> simp [h]
      · split <;> simp [h]

@[simp] theorem execWeightLoadComplete_canon (cl team) : CanonNext (execWeightLoadComplete cl team s) := by
  unfold execWeightLoadComplete
  dsimp only
  split
  · simpa using h
  · split
    · split
      · split <;> simp +contextual [h]
      · simpa using h
    · simpa using h

@[simp] theorem execStreamRowCommit_canon (cl team) : CanonNext (execStreamRowCommit cl team s) := by
  unfold execStreamRowCommit
  dsimp only
  split
  · simpa using h
  · split
    · simpa using h
    · split <;> simp [h]

/-! Instructions -/

@[simp] theorem View.bmcColumns_canon (v : View) (t k n na) : CanonChk (fun p => p.1.memories.Canon) (v.bmcColumns s t k n na) := by
  refine (canonChk_check (by simp)).2 fun p _ => ?_
  dsimp only
  split
  · exact h
  · refine (canonChk_check (by simp)).2 fun p _ => ?_
    split
    · simp [h]
    · refine (canonChk_check (by simp)).2 fun p _ => ?_
      simp [h]

@[simp] theorem execMwld_canon (sw bmc t) : CanonNext (execMwld sw bmc t s) := by
  refine issueMemAs_canon h fun v s rep h => (canonChk_check (by simp)).2 fun _ _ => ?_
  dsimp only
  split
  · split
    · simp
    · refine (canonChk_check (by simp)).2 fun _ _ => (canonChk_bind_fst (View.bmcColumns_canon h ..)).2 fun p _ h' => ?_
      split <;> simp [frozen, h, h']
  · refine (canonChk_check (by simp)).2 fun _ _ => (canonChk_check (by simp)).2 fun _ _ => (canonChk_check (by simp)).2 fun _ _ => ?_
    split <;> simp [frozen, h]

@[simp] theorem execMcbld_canon (sw sp a) : CanonNext (execMcbld sw sp a s) := by
  refine issueMemAs_canon h fun v s rep h => (canonChk_check (by simp)).2 fun _ _ => (canonChk_check (by simp)).2 fun _ _ => ?_
  dsimp only
  split <;> simp [frozen, h]

@[simp] theorem execMstr_canon (sw init zb d t row0) : CanonNext (execMstr sw init zb d t row0 s) := by
  refine issueMemAs_canon h fun v s rep h => (canonChk_check (by simp)).2 fun _ _ => (canonChk_check (by simp)).2 fun _ _ => ?_
  refine (canonChk_check (by simp)).2 fun _ _ => (canonChk_check (by simp)).2 fun _ _ => ?_
  dsimp only
  split <;> simp [frozen, h]

@[simp] theorem execMzld_canon (sw d t b) : CanonNext (execMzld sw d t b s) := by
  refine issueMemAs_canon h fun v s rep h => (canonChk_check (by simp)).2 fun _ _ => (canonChk_check (by simp)).2 fun _ _ => ?_
  refine (canonChk_check (by simp)).2 fun _ _ => ?_
  dsimp only
  split
  · simp [h]
  · refine (canonChk_check (by simp)).2 fun _ _ => ?_
    split <;> simp [frozen, h]

@[simp] theorem execMzst_canon (sw rm d t b) : CanonNext (execMzst sw rm d t b s) := by
  refine issueMemAs_canon h fun v s rep h => (canonChk_check (by simp)).2 fun _ _ => (canonChk_check (by simp)).2 fun _ _ => ?_
  refine (canonChk_check (by simp)).2 fun _ _ => (canonChk_check (by simp)).2 fun _ _ => ?_
  dsimp only
  split <;> simp [frozen, h]

@[simp] theorem execMqry_canon (sw q d) : CanonNext (execMqry sw q d s) :=
  issueColl_canon h fun v s h => by
    cases q <;> simp [h]

end Sys2Proof.Machine
end

section
/-! ### Computations that give a state, and jobs -/

namespace Sys2Proof.Machine

open Sys2Proof

section
variable {ε α β : Type} {P : α → Prop}

@[simp] theorem satisfiesM_error (e : ε) : SatisfiesM P (.error e : Except ε α) := SatisfiesM_Except_eq.2 fun _ h => nomatch h
@[simp] theorem satisfiesM_ok (a : α) : SatisfiesM P (.ok a : Except ε α) ↔ P a := by simp
@[simp] theorem satisfiesM_none : SatisfiesM P (none : Option α) := SatisfiesM_Option_eq.2 fun _ h => nomatch h
@[simp] theorem satisfiesM_some (a : α) : SatisfiesM P (some a) ↔ P a := by simp

/-- What holds of a computation's value. -/
theorem SatisfiesM.of_ok {m : Except ε α} (h : SatisfiesM P m) {a : α} (e : m = .ok a) : P a := SatisfiesM_Except_eq.1 h a e
theorem SatisfiesM.of_some {m : Option α} (h : SatisfiesM P m) {a : α} (e : m = some a) : P a := SatisfiesM_Option_eq.1 h a e

theorem satisfiesM_foldlM {m : Type → Type} [Monad m] [LawfulMonad m] {f : α → β → m α} (hf : ∀ a x, P a → SatisfiesM P (f a x))
    (l : List β) {a : α} (h : P a) : SatisfiesM P (l.foldlM f a) := by
  induction l generalizing a with
  | nil => exact .pure h
  | cons x xs ih => exact .bind (hf a x h) fun _ => ih

end

/-- A computation that gives a state with canonical memories, or none. -/
abbrev GivesCanon {m : Type → Type} [Functor m] (c : m State) : Prop := SatisfiesM (fun s => s.memories.Canon) c

/-- The same beside another value. -/
abbrev GivesCanonFst {m : Type → Type} [Functor m] {α : Type} (c : m (State × α)) : Prop := SatisfiesM (fun p => p.1.memories.Canon) c

variable {s : State} (h : s.memories.Canon)
include h

theorem State.tableWrite_canon (c w) : GivesCanon (s.tableWrite c w) := by
  unfold State.tableWrite
  split
  · dsimp only
    repeat' split
    all_goals simp [h]
  · simp

theorem State.tableWrites_canon (c ws) : GivesCanon (s.tableWrites c ws) :=
  satisfiesM_foldlM (fun _ _ h => State.tableWrite_canon h ..) _ h

theorem State.jobRead_canon (v rs) : GivesCanonFst (s.jobRead v rs) := by
  unfold State.jobRead
  dsimp only
  split
  · exact satisfiesM_error _
  · refine satisfiesM_foldlM (fun a r h => ?_) _ h
    split
    · split
      · exact .pure h
      · exact satisfiesM_error _
    · refine .bind .trivial fun p _ => ?_
      split
      · exact satisfiesM_error _
      · exact .pure (State.readPiece_canon h ..)

theorem State.jobWrite_canon (v rs bs) : GivesCanon (s.jobWrite v rs bs) := by
  unfold State.jobWrite
  dsimp only
  split
  · exact satisfiesM_error _
  · split
    · split
      · exact .pure h
      · exact satisfiesM_error _
    · refine .bind .trivial fun p _ => ?_
      split
      · exact satisfiesM_error _
      · exact .pure (State.writePiece_canon h ..)

theorem State.jobScale_canon (v t raw) : GivesCanonFst (s.jobScale v t raw) := by
  unfold State.jobScale
  split
  · exact .pure h
  · exact .bind (State.jobRead_canon h ..) fun _ h => .pure h

theorem State.jobElement_canon (v i) : GivesCanonFst (s.jobElement v i) :=
  .bind (State.jobRead_canon h ..) fun _ h => .bind (State.jobScale_canon h ..) fun _ h => .pure h

theorem State.jobUnit_canon (v u) : GivesCanonFst (s.jobUnit v u) := by
  unfold State.jobUnit
  split
  · exact .bind (State.jobRead_canon h ..) fun _ h => .pure h
  · refine .bind (satisfiesM_foldlM (P := fun p => p.1.memories.Canon) (fun a e h => ?_) _ h) fun _ h => ?_
    · exact .bind (State.jobElement_canon h ..) fun _ h => .pure h
    · refine .bind (State.jobScale_canon h ..) fun _ h => ?_
      dsimp only
      split
      · split
        · exact .pure h
        · exact satisfiesM_error _
      · exact .pure h

theorem State.jobStep_canon (v i) : GivesCanon (s.jobStep v i) :=
  .bind (State.jobUnit_canon h ..) fun _ h => State.jobWrite_canon h ..

omit h in
@[simp] theorem State.jobRun_canon (v fuel) {s : State} (h : s.memories.Canon) (i) : (State.jobRun v fuel s i).1.memories.Canon := by
  induction fuel generalizing s i with
  | zero => exact h
  | succ fuel ih =>
    unfold State.jobRun
    split
    · exact h
    · split
      next he => exact ih (SatisfiesM.of_ok (State.jobStep_canon h ..) he) _
      next => exact h

@[simp] theorem State.pump_canon (cl team id) : CanonNext (s.pump cl team id) := by
  unfold State.pump
  split
  · exact h
  · split
    · exact h
    · dsimp only
      split <;> simp [h]

@[simp] theorem execJobStart_canon (cl team tag) : CanonNext (execJobStart cl team tag s) := by
  unfold execJobStart
  split
  · exact State.pump_canon (by simpa using h) ..
  · exact h

@[simp] theorem execJobLanded_canon (cl team tag) : CanonNext (execJobLanded cl team tag s) := by
  unfold execJobLanded
  split <;> simp [h]

@[simp] theorem State.writeRegions_canon (cl team j) : (s.writeRegions cl team j).memories.Canon := by
  unfold State.writeRegions
  split <;> simp [h]

@[simp] theorem State.spoilLanded_canon (cl team j c) : (s.spoilLanded cl team j c).memories.Canon := by simp [State.spoilLanded, h]

@[simp] theorem execJobDone_canon (cl team tag) : CanonNext (execJobDone cl team tag s) := by
  unfold execJobDone
  split
  · split
    · exact h
    · split <;> simp [h]
  · exact h

@[simp] theorem execJobFaulted_canon (cl team tag) : CanonNext (execJobFaulted cl team tag s) := by
  unfold execJobFaulted
  split
  · split <;> simp [h]
  · exact h

@[simp] theorem execJobReplay_canon (cl team tag ans) : CanonNext (execJobReplay cl team tag ans s) := by
  unfold execJobReplay
  split
  · split
    · exact h
    · cases ans with
      | serviced ws =>
        dsimp only
        split
        next ht =>
          dsimp only
          split
          · exact State.pump_canon (by simpa using SatisfiesM.of_some (State.tableWrites_canon h ..) ht) ..
          · exact h
        · exact h
      | noAllocation fr =>
        dsimp only
        split
        · exact State.pump_canon (by simpa using h) ..
        · exact h
  · exact h

@[simp] theorem execCpymFollowOn_canon (cl team tag) : CanonNext (execCpymFollowOn cl team tag s) := by
  unfold execCpymFollowOn
  split
  · exact h
  · split
    · simp [h]
    · split
      · dsimp only
        split
        · split
          · split <;> simp [h]
          · exact h
        · exact h
      · exact h

omit h in
@[simp] theorem View.copyAccept_checks (v : View) (dec dst hd l) : ChecksOnly (v.copyAccept dec dst hd l) := by
  unfold View.copyAccept
  split <;> simp

@[simp] theorem View.copyJob_canon (v : View) (m tag a b addr bs) : CanonChk (fun s => s.memories.Canon) (v.copyJob s m tag a b addr bs) := by
  unfold View.copyJob
  extract_lets bad hx hy lx ly dec onCard
  split
  · rw [pure_bind]
    refine canonChk_stopIf trivial (canonChk_stopIf trivial ?_)
    refine (canonChk_check (by simp)).2 fun x _ => (canonChk_check (by simp)).2 fun y _ => ?_
    cases m
    · simp only [Bool.false_eq_true, if_false]
      refine canonChk_stopIf trivial ((canonChk_check (View.holdRemote_checks ..)).2 fun _ _ => canonChk_stopIf trivial ?_)
      simp [h]
    · simp only [if_true]
      refine (canonChk_check (View.feedAccept_checks ..)).2 fun _ _ => canonChk_stopIf trivial ?_
      refine (canonChk_check (View.array_checks _)).2 fun _ _ => (canonChk_check (View.require_checks ..)).2 fun _ _ => ?_
      refine (canonChk_check (View.holdRemote_checks ..)).2 fun _ _ => canonChk_stopIf trivial ?_
      simp [h]
  · trivial
@[simp] theorem State.loadCard_canon (a ps) : (s.loadCard a ps).1.memories.Canon := by simp +contextual [State.loadCard, h]

@[simp] theorem copyOp_canon (m sw tag sp a b c) : CanonNext (copyOp m sw tag sp a b c s) := by
  refine issueMem_canon h fun v s rep h => (canonChk_check (by simp)).2 fun _ _ => (canonChk_check (by simp)).2 fun p _ => ?_
  dsimp only
  split
  · exact h
  · split
    · simp [h]
    · simp [h]

@[simp] theorem execTwany_canon (sw d a) : CanonNext (execTwany sw d a s) := by
  refine issueColl_canon h fun v s h => ?_
  dsimp only
  split <;> simp [h]

@[simp] theorem execTwall_canon (sw a) : CanonNext (execTwall sw a s) := by
  refine issueColl_canon h fun v s h => ?_
  dsimp only
  split <;> simp [h]

@[simp] theorem execTclr_canon (sw a) : CanonNext (execTclr sw a s) :=
  issue_canon h fun v s h => by simp [h]

@[simp] theorem execJcan_canon (sw a) : CanonNext (execJcan sw a s) :=
  issue_canon h fun v s h => by simp [h]

end Sys2Proof.Machine
end

section
/-! ### System instructions, launches and placement -/

namespace Sys2Proof.Machine

open Sys2Proof

@[simp] theorem View.blockPlaces_checks (v : View) {s : State} (addr need rep) : ChecksOnly (v.blockPlaces s addr need rep) := by
  refine (canonChk_check (by simp)).2 fun _ _ => (canonChk_check (by simp)).2 fun _ _ => (canonChk_check (by simp)).2 fun _ _ => ?_
  dsimp only
  split <;> simp

variable {s : State} (h : s.memories.Canon)
include h

@[simp] theorem execSavectx_canon (sw a) : CanonNext (execSavectx sw a s) := by
  refine issueMemAs_canon h fun v s rep h => (canonChk_check (by simp)).2 fun p _ => ?_
  dsimp only
  split
  · exact h
  · split
    · trivial
    · generalize blockWords .. = ws
      refine (canonChk_check (View.require_checks ..)).2 fun _ _ => ?_
      refine State.foldl_canon (fun s w h => ?_) _ (by simpa using h)
      split <;> simp [h]

@[simp] theorem execLoadctx_canon (sw a) : CanonNext (execLoadctx sw a s) := by
  refine issueMemAs_canon h fun v s rep h => (canonChk_check (by simp)).2 fun p _ => ?_
  dsimp only
  split
  · exact h
  · split
    · trivial
    · split <;> simp [h]

@[simp] theorem takeHeld_canon (k r) : CanonNext (takeHeld k r s) := by
  unfold takeHeld
  dsimp only
  repeat' split <;> simp [h]

@[simp] theorem execFaultServiced_canon (r ans) : CanonNext (execFaultServiced r ans s) := by
  unfold execFaultServiced
  split
  · exact h
  · split
    · exact h
    · dsimp only
      split
      · split
        next ht =>
          have written := SatisfiesM.of_some (State.tableWrites_canon h ..) ht
          split <;> simp [written, h]
        · exact h
      · split <;> simp [h]
      · exact h

/-! Launches -/

@[simp] theorem State.putHome64_canon (m x) : (s.putHome64 m x).memories.Canon := by simp [State.putHome64, h]

theorem State.release_canon (na r) : GivesCanon (s.release na r) := by
  unfold State.release
  split
  · exact .pure h
  · split
    · exact .pure h
    · split
      · split
        · exact .pure (by simpa using h)
        · exact .pure (State.putHome64_canon h ..)
      · exact .pure (by simpa using h)
      · exact satisfiesM_error _

@[simp] theorem State.releaseLater_canon (na r) : (s.releaseLater na r).memories.Canon := by
  unfold State.releaseLater
  split
  next hr => exact SatisfiesM.of_ok (State.release_canon h ..) hr
  next => exact h

@[simp] theorem State.retryIf_canon (na p) : (s.retryIf na p).memories.Canon :=
  State.foldl_canon (fun _ _ h => State.releaseLater_canon h ..) _ h

@[simp] theorem State.retryReleases_canon : s.retryReleases.memories.Canon := State.retryIf_canon h ..
@[simp] theorem State.refuseReleases_canon (asid na) : (s.refuseReleases asid na).memories.Canon := State.retryIf_canon h ..
@[simp] theorem State.failLaunch_canon (k na reason) : (s.failLaunch k na reason).memories.Canon :=
  State.releaseLater_canon (by simpa using h) ..

@[simp] theorem execLaunchLoadComplete_canon (k na) : CanonNext (execLaunchLoadComplete k na s) := by
  unfold execLaunchLoadComplete
  dsimp only
  split
  · exact h
  · split
    · split
      · simpa using h
      · trivial
      · simp [h]
      · split <;> simp [h]
    · simp [h]
    · exact h

/-! Placement -/

@[simp] theorem State.giveUp_canon (core k) : (s.giveUp core k).memories.Canon := by simp [State.giveUp, h]

@[simp] theorem State.placeOn_canon (r k index die cores fit) : (s.placeOn r k index die cores fit).memories.Canon := by
  have taken : (cores.foldl (fun s core => (s.giveUp core r.k).firstOn k.ref core) s).memories.Canon := by
    simp +contextual [h]
  obtain ⟨hm, ht⟩ := (State.memories_canon _).1 taken
  refine (State.memories_canon _).2 ⟨hm, fun t hmem => ?_⟩
  obtain hmem | hmem := List.mem_append.1 hmem
  · exact ht t hmem
  · obtain ⟨x, _, rfl⟩ := List.mem_map.1 hmem
    rfl

@[simp] theorem execClusterPlace_canon (k clu cores) : CanonNext (execClusterPlace k clu cores s) := by
  unfold execClusterPlace
  split
  · exact h
  · split
    · dsimp only
      split
      · split <;> simp [h]
      · exact h
    · exact h

end Sys2Proof.Machine
end

section
/-! ### Waits, saved clusters and queues -/

namespace Sys2Proof.Machine

open Sys2Proof

variable {s : State} (h : s.memories.Canon)
include h

@[simp] theorem State.reread_canon (r g) : (s.reread r g).memories.Canon := by
  unfold State.reread
  split
  · exact h
  · split
    · split
      · dsimp only
        split
        · simp [h]
        · split <;> simp [h]
      · exact h
    · exact h

@[simp] theorem execMonitorFire_canon (f g) : CanonNext (execMonitorFire f g s) := by simp [execMonitorFire, h]
@[simp] theorem execMonitorPoll_canon (f g) : CanonNext (execMonitorPoll f g s) := by simp [execMonitorPoll, h]

/-! Saved clusters -/

@[simp] theorem State.saveTeam_canon (r t pa) : (s.saveTeam r t pa).memories.Canon := by
  refine State.foldl_canon (fun s f h => ?_) _ (State.putHomeBytes_canon h ..)
  split
  · exact State.foldl_canon (fun _ _ h => State.putHomeBytes_canon h ..) _ h
  · exact h

@[simp] theorem State.putEntry_canon (c save x) : (s.putEntry c save x).memories.Canon := State.putHomeBytes_canon h ..

@[simp] theorem State.saveImage_canon (c) : (s.saveImage c).memories.Canon := by
  unfold State.saveImage
  split
  · split
    · exact State.foldl_canon (fun _ _ h => State.saveTeam_canon h ..) _ (State.putHomeBytes_canon (State.putEntry_canon h ..) ..)
    · exact h
  · exact h

@[simp] theorem execPreemptRequest_canon (cl why) : CanonNext (execPreemptRequest cl why s) := by
  unfold execPreemptRequest
  split
  · exact h
  · split
    · exact h
    · split
      · simpa using h
      · split <;> simpa using h

@[simp] theorem execParkedClusterTimeout_canon (cl) : CanonNext (execParkedClusterTimeout cl s) := by
  unfold execParkedClusterTimeout
  split <;> simp [h]

@[simp] theorem execClusterSaveComplete_canon (cl) : CanonNext (execClusterSaveComplete cl s) := by
  unfold execClusterSaveComplete
  split
  · exact h
  next c _ =>
    split
    · have image : (((s.clusterTeams cl).foldl (fun s t => s.throughAll ⟨t.core, c.die⟩ .dc fun _ => true) s).saveImage c).memories.Canon :=
        State.saveImage_canon (State.foldl_canon (fun _ _ h => State.throughAll_canon h ..) _ h) _
      dsimp only
      rw [canonNext_next]
      split <;> simp [Function.comp_def, apply_ite Team.pad, image]
    · exact h

@[simp] theorem State.rearm_canon (cl) : (s.rearm cl).memories.Canon := by simp +contextual [State.rearm, h]

@[simp] theorem State.rereadAll_canon (cl) : (s.rereadAll cl).memories.Canon :=
  State.foldl_canon (fun _ _ h => State.foldl_canon (fun _ _ h => State.reread_canon h ..) _ h) _ h

@[simp] theorem execClusterResume_canon (cl cores) : CanonNext (execClusterResume cl cores s) := by
  unfold execClusterResume
  split
  · exact h
  · split
    · exact h
    · split
      · exact h
      · dsimp only
        split
        · rw [canonNext_ite]
          split
          · refine State.rereadAll_canon ?_ _
            rw [State.contextRuns_memories]
            refine State.rearm_canon ?_ _
            rw [State.modCluster_memories]
            split
            · refine State.putEntry_canon ?_ _ _ _
              simp +contextual [h]
            · simp +contextual [h]
          · exact h
        · exact h

/-! Queues -/

theorem State.homeWrite_canon (c va bs) : GivesCanon (s.homeWrite c va bs) := by
  refine .bind .trivial fun m _ => ?_
  dsimp only
  split
  · exact satisfiesM_error _
  · refine .pure ?_
    simp +contextual [h]

theorem State.writeIndex_canon (c va x) : GivesCanon (s.writeIndex c va x) := State.homeWrite_canon h ..

theorem State.leaveRing_canon (c x slot k hdr) : GivesCanon (s.leaveRing c x slot k hdr) :=
  .bind (State.homeWrite_canon h ..) fun _ h => State.writeIndex_canon h ..

@[simp] theorem execQueueProducerWrite_canon (q) : CanonNext (execQueueProducerWrite q s) := by
  unfold execQueueProducerWrite
  obtain ⟨indices, hi⟩ := exists_eq (a' := s.indices)
  rw [← hi]
  dsimp only
  split
  · split <;> simp [h]
  · exact h

@[simp] theorem State.takePacket_canon (x na ref pkt) : (s.takePacket x na ref pkt).memories.Canon := by simp [State.takePacket, h]

@[simp] theorem execPacketTake_canon (q na) : CanonNext (execPacketTake q na s) := by
  have served : (if (s.heard na).isEmpty then s else s.retryIf (s.heard na) fun r => r.owner.any fun k => k.q == q).memories.Canon := by
    split
    · exact h
    · exact State.retryIf_canon h ..
  unfold execPacketTake
  obtain ⟨head, hh⟩ := exists_eq (a' := State.headOf)
  obtain ⟨observe, ho⟩ := exists_eq (a' := State.observe)
  obtain ⟨leave, hl⟩ := exists_eq (a' := State.leaveRing)
  have left {s : State} (h : s.memories.Canon) (c x slot k hdr) : GivesCanon (leave s c x slot k hdr) :=
    hl ▸ State.leaveRing_canon h ..
  rw [← hh, ← ho, ← hl]
  extract_lets na' s x fail
  have served : s.memories.Canon := served
  have failed {s : State} (h : s.memories.Canon) (k) : CanonNext (fail s k) := by simpa [fail] using h
  clear_value fail
  split
  · split
    · exact served
    · split
      · trivial
      · exact served
      · exact served
      · dsimp only
        split
        · exact served
        · split
          · exact failed served _
          · split
            · trivial
            · exact failed served _
            · split
              · simpa using served
              · split
                next hl =>
                  have kept := SatisfiesM.of_ok (left (by simpa using served) ..) hl
                  simp [kept]
                next => trivial
                next => simpa using served
  · exact served

omit h in
@[simp] theorem canonNext_mailbox (f : State → Result) : CanonNext (mailbox f s) = if s.portRuns 0 then CanonNext (f s) else s.memories.Canon :=
  apply_ite ..

theorem mailbox_canon {f : State → Result} (hf : CanonNext (f s)) : CanonNext (mailbox f s) := by
  rw [canonNext_mailbox]
  split
  · exact hf
  · exact h

@[simp] theorem execQcreate_canon (q asid lsz cap rva pva cva) : CanonNext (execQcreate q asid lsz cap rva pva cva s) := by
  refine mailbox_canon h ?_
  split
  · simpa using h
  · dsimp only
    split
    · simpa using h
    · split
      next hw =>
        have written := SatisfiesM.of_ok (.bind (State.writeIndex_canon h ..) fun _ h => State.writeIndex_canon h ..) hw
        simpa using written
      next => simpa using h

@[simp] theorem execQdestroy_canon (q) : CanonNext (execQdestroy q s) := by
  refine mailbox_canon h ?_
  dsimp only
  split <;> simpa using h

@[simp] theorem execQreset_canon (q) : CanonNext (execQreset q s) := by
  refine mailbox_canon h ?_
  obtain ⟨read, hr⟩ := exists_eq (a' := s.homeRead)
  rw [← hr]
  dsimp only
  split
  · split
    next hw =>
      have written := SatisfiesM.of_ok (.bind .trivial fun p _ => State.writeIndex_canon h ..) hw
      simpa using written
    · trivial
    · simpa using h
  · simpa using h

@[simp] theorem execAclset_canon (i v sdev sasid cap qmask) : CanonNext (execAclset i v sdev sasid cap qmask s) := by
  refine mailbox_canon h ?_
  split <;> simpa using h

/-! Posts -/

@[simp] theorem State.post_canon (q img) : (s.post q img).1.memories.Canon := by
  unfold State.post
  obtain ⟨indices, hi⟩ := exists_eq (a' := s.indices)
  rw [← hi]
  dsimp only
  split
  · exact h
  · split
    · split
      next hp =>
        refine SatisfiesM.of_ok (P := fun p => p.1.memories.Canon) ?_ hp
        refine .bind .trivial fun p _ => ?_
        split
        · exact .pure h
        · refine .bind (State.homeWrite_canon h ..) fun s h => .bind (State.writeIndex_canon h ..) fun s h => .pure (by simpa using h)
      next => exact h
    · exact h

@[simp] theorem View.postImage_canon (v : View) (sp d b sc ok rep) :
    CanonChk (fun p => p.1.memories.Canon) (v.postImage s sp d b sc ok rep) := by
  refine (canonChk_bind_fst (View.wideLoad_canon h ..)).2 fun p _ _ => ?_
  dsimp only
  split
  · exact h
  · refine (canonChk_check (by simp)).2 fun _ _ => ?_
    split <;> simp [h]

@[simp] theorem execQpush_canon (sw sp d a b) : CanonNext (execQpush sw sp d a b s) := by
  unfold execQpush
  obtain ⟨post, hp⟩ := exists_eq (a' := State.post)
  have posted {s : State} (h : s.memories.Canon) (q img) : (post s q img).1.memories.Canon := hp ▸ State.post_canon h q img
  rw [← hp]
  refine issueMem_canon h fun v s rep h => (canonChk_bind_fst (View.postImage_canon h ..)).2 fun p _ h' => ?_
  dsimp only
  repeat' split
  all_goals simp [frozen, h', posted]

end Sys2Proof.Machine
end

section
/-! ### The ingress and the host port -/

namespace Sys2Proof.Machine

open Sys2Proof

@[simp] theorem State.readRange_memories (s : State) (m n) : (s.readRange m n).1.memories = s.memories := by simp [State.readRange]

@[simp] theorem State.hostRead_memories (s : State) (pa n) : (s.hostRead pa n).1.memories = s.memories := by simp [State.hostRead]

variable {s : State} (h : s.memories.Canon)
include h

@[simp] theorem State.putHomeRange_canon (k pa bs) : (s.putHomeRange k pa bs).memories.Canon :=
  State.foldl_canon (fun _ _ h => State.putHomeAs_canon h ..) _ h

@[simp] theorem State.writeRange_canon (m bs) : (s.writeRange m bs).memories.Canon := by simp [State.writeRange, h]

@[simp] theorem State.perform_canon (m op) : (s.perform m op).1.memories.Canon := by
  unfold State.perform
  split
  · exact h
  · split
    · simpa using h
    · split <;> simp [h]
    · dsimp only
      split
      · exact h
      · split <;> simp [h]
    · exact h

@[simp] theorem State.performFor_canon (a m op) : (s.performFor a m op).1.memories.Canon := by
  cases a with
  | none => exact State.perform_canon h ..
  | some a =>
    have near (ws : List Nat) : (ws.foldl (fun s w => s.through a .home w) s).memories.Canon :=
      State.foldl_canon (fun _ _ h => State.through_canon h ..) _ h
    simp [State.performFor, near]

@[simp] theorem State.arrive_canon (a id n) : (s.arrive a id n).memories.Canon := by
  unfold State.arrive
  dsimp only
  split
  · split
    · split <;> simp [h]
    · simpa using h
  · simpa using h

@[simp] theorem State.servePost_canon (e q img) : (s.servePost e q img).1.memories.Canon := by simp [State.servePost, h]

theorem State.serve_canon (c r) : GivesCanonFst (s.serve c r) := by
  unfold State.serve
  extract_lets place
  have placed {k : Mapped → State × Reply} (hk : ∀ m, (k m).1.memories.Canon) : GivesCanonFst (place k) := by
    simp only [place]
    split
    · exact .pure (hk _)
    · exact .pure h
    · exact satisfiesM_error _
  clear_value place
  split
  · exact .pure (State.arrive_canon h ..)
  · dsimp only
    split
    · exact .pure (by simpa using h)
    · exact placed fun m => by simpa using h
  · exact .pure h
  · refine placed fun m => ?_
    dsimp only
    split <;> simp [h]

theorem State.ingress_canon (r) : GivesCanonFst (s.ingress r) := by
  unfold State.ingress
  split
  · exact .pure h
  · split
    · exact .pure h
    · have freed : (s.freeReplies r).memories.Canon := by simpa using h
      dsimp only
      split
      · exact .pure freed
      · have kept {m : Except Nat (State × Reply)} (hm : GivesCanonFst m) :
            GivesCanonFst (m >>= fun p => .ok (p.1.keepReply r p.2, p.2)) := .bind hm fun _ h => .pure (by simpa using h)
        split
        · exact kept (.pure (State.servePost_canon freed ..))
        · split
          · exact kept (.pure freed)
          · split
            · exact kept (.pure freed)
            · split
              · exact kept (.pure freed)
              · exact kept (State.serve_canon freed ..)

@[simp] theorem arriveAs_canon (r) : CanonNext (arriveAs r s) := by
  unfold arriveAs
  split
  · exact h
  · split
    next hi => simpa using SatisfiesM.of_ok (State.ingress_canon h r) hi
    next => trivial

@[simp] theorem execRemoteRequestArrive_canon (r) : CanonNext (execRemoteRequestArrive r s) := by
  unfold execRemoteRequestArrive
  split <;> simp [h]

@[simp] theorem execMulticastPacketArrive_canon (r) : CanonNext (execMulticastPacketArrive r s) := by
  unfold execMulticastPacketArrive
  split <;> simp [h]

@[simp] theorem execXpostArrive_canon (r) : CanonNext (execXpostArrive r s) := by
  unfold execXpostArrive
  split <;> simp [h]

@[simp] theorem execCgRecordArrive_canon (r) : CanonNext (execCgRecordArrive r s) := by
  unfold execCgRecordArrive
  split <;> simp [h]

@[simp] theorem execCounterPacketArrive_canon (asid id n) : CanonNext (execCounterPacketArrive asid id n s) := by
  unfold execCounterPacketArrive
  split <;> simp [h]

/-! The host port -/

@[simp] theorem State.hostWrite_canon (pa bs) : (s.hostWrite pa bs).memories.Canon := by simp [State.hostWrite, h]

@[simp] theorem execHostMemRead_canon (pa n) : CanonNext (execHostMemRead pa n s) := by simp [execHostMemRead, h]

@[simp] theorem execHostMemWrite_canon (pa bs) : CanonNext (execHostMemWrite pa bs s) := by simp +contextual [execHostMemWrite, h]

@[simp] theorem execHostSnoop_canon (pa) : CanonNext (execHostSnoop pa s) := by simp +contextual [execHostSnoop, h]

end Sys2Proof.Machine
end

section
/-! ### Commit groups -/

namespace Sys2Proof.Machine

open Sys2Proof

section Checks
variable {s : State} (v : View)

@[simp] theorem View.commitStop_canon (info) : (v.commitStop info).Canon := trivial

@[simp] theorem View.currentGroup_checks : ChecksOnly (v.currentGroup s) := by
  unfold View.currentGroup
  split
  · trivial
  · split <;> trivial

@[simp] theorem View.namedGroup_checks (cgid) : ChecksOnly (v.namedGroup s cgid) := by
  unfold View.namedGroup
  split
  · split <;> trivial
  · trivial

@[simp] theorem View.stageCheck_checks (dev asid any) : ChecksOnly (v.stageCheck s dev asid any) :=
  (canonChk_check (by simp)).2 fun _ _ => canonChk_stopIf trivial (canonChk_stopIf trivial trivial)

end Checks

variable {s : State} (h : s.memories.Canon)
include h

@[simp] theorem State.applyRecord_canon (c r) : (s.applyRecord c r).1.memories.Canon := by
  unfold State.applyRecord
  split
  · simpa using h
  · split
    · exact h
    · split
      · split
        · simpa using h
        · exact State.writeRange_canon (State.foldl_canon (fun _ _ h => State.flushLine_canon h _) _ h) ..
      · simpa using h
      · simpa using h

@[simp] theorem State.applyStaged_canon (g) : (s.applyStaged g).memories.Canon := by
  unfold State.applyStaged
  dsimp only
  split
  · simpa using h
  · refine State.releaseLater_canon (State.foldl_canon (fun s r h => ?_) _ ?_) ..
    · split <;> simp [h]
    · simp +contextual [h]

@[simp] theorem State.hoistAt_canon (cgid a) : (s.hoistAt cgid a).1.memories.Canon := by
  unfold State.hoistAt
  split <;> simp [h]

@[simp] theorem State.endGroup_canon (g st why dev) : (s.endGroup g st why dev).memories.Canon :=
  State.releaseLater_canon (by simpa using h) ..

@[simp] theorem State.abortGroup_canon (g why dev) : (s.abortGroup g why dev).memories.Canon :=
  State.endGroup_canon (by simpa using h) ..

@[simp] theorem State.prepareReply_canon (cgid i rep) : (s.prepareReply cgid i rep).memories.Canon := by
  unfold State.prepareReply
  split
  · split
    · cases rep <;> simp [h]
    · exact h
  · exact h

@[simp] theorem State.sendPrepare_canon (cgid i) : (s.sendPrepare cgid i).memories.Canon := by
  unfold State.sendPrepare
  split
  · split
    · simp [h]
    · exact h
  · exact h

@[simp] theorem State.retryPrepare_canon (id) : (s.retryPrepare id).memories.Canon := by
  unfold State.retryPrepare
  split <;> simp [h]

@[simp] theorem State.sendPrepares_canon (g) : (s.sendPrepares g).memories.Canon := by
  unfold State.sendPrepares
  split <;> simp +contextual [h]

@[simp] theorem State.closeHoist_canon (cgid) : (s.closeHoist cgid).memories.Canon := by
  unfold State.closeHoist
  split
  · split
    · exact h
    · split <;> simp [h]
  · exact h

@[simp] theorem State.applyAck_canon (cgid i ok) : (s.applyAck cgid i ok).memories.Canon := State.closeHoist_canon (by simpa using h) _

@[simp] theorem State.hoistGroup_canon (g) : (s.hoistGroup g).memories.Canon := by
  refine State.closeHoist_canon (State.foldl_canon (fun s d h => ?_) _ (by simpa using h)) _
  simp [h]

@[simp] theorem State.settleGroup_canon (g) : (s.settleGroup g).memories.Canon := by
  unfold State.settleGroup
  split
  · split
    · simp [h]
    · split <;> simp [h]
  · simp +contextual [h]
  · exact h

@[simp] theorem State.settleGroups_canon : s.settleGroups.memories.Canon := by simp +contextual [State.settleGroups, h]

@[simp] theorem State.abandonGroups_canon (p) : (s.abandonGroups p).memories.Canon := by simp +contextual [State.abandonGroups, h]

/-! Events and instructions -/

@[simp] theorem execCgPrepareReply_canon (cgid dst rep) : CanonNext (execCgPrepareReply cgid dst rep s) := State.prepareReply_canon h ..

@[simp] theorem execCgPrepareArrive_canon (sdev cgid asid obj n crc) : CanonNext (execCgPrepareArrive sdev cgid asid obj n crc s) := by
  simp [execCgPrepareArrive, h]

@[simp] theorem execCgWindowExpire_canon (cgid) : CanonNext (execCgWindowExpire cgid s) := by
  unfold execCgWindowExpire
  split <;> simp [h]

@[simp] theorem execCgAbortArrive_canon (cgid asid) : CanonNext (execCgAbortArrive cgid asid s) := by simp [execCgAbortArrive, h]

@[simp] theorem execCgHoistArrive_canon (cgid asid) : CanonNext (execCgHoistArrive cgid asid s) := by simp [execCgHoistArrive, h]

@[simp] theorem execCgApplyAck_canon (cgid dst applied) : CanonNext (execCgApplyAck cgid dst applied s) := State.applyAck_canon h ..

@[simp] theorem execCgHoldExpire_canon (cgid asid) : CanonNext (execCgHoldExpire cgid asid s) := by
  unfold execCgHoldExpire
  split <;> simp [h]

@[simp] theorem execCgDecisionAnswer_canon (cgid asid ans) : CanonNext (execCgDecisionAnswer cgid asid ans s) := by
  unfold execCgDecisionAnswer
  split
  · exact h
  · split
    · exact h
    · split <;> simp [h]

@[simp] theorem execCgopen_canon (sw d a b) : CanonNext (execCgopen sw d a b s) := by
  refine issue_canon h fun v s h => (canonChk_check (by simp)).2 fun _ _ => (canonChk_check (by simp)).2 fun _ _ => ?_
  exact canonChk_stopIf trivial (canonChk_stopIf trivial (by simpa using h))

@[simp] theorem execCgopenJoin_canon (sw d a) : CanonNext (execCgopenJoin sw d a s) := by
  refine issue_canon h fun v s h => ?_
  dsimp only
  split
  · exact (canonChk_check (by simp)).2 fun _ _ => by simpa using h
  · simpa using h

@[simp] theorem execCgprep_canon (sw d) : CanonNext (execCgprep sw d s) := by
  refine issue_canon h fun v s h => (canonChk_check (by simp)).2 fun g _ => ?_
  cases g.st <;> simp [h]

@[simp] theorem execCghoist_canon (sw d) : CanonNext (execCghoist sw d s) := by
  refine issue_canon h fun v s h => (canonChk_check (by simp)).2 fun g _ => ?_
  cases g.st <;> simp [h]

@[simp] theorem execCgabort_canon (sw) : CanonNext (execCgabort sw s) := by
  refine issue_canon h fun v s h => (canonChk_check (by simp)).2 fun g _ => ?_
  cases g.st <;> simp [h]

@[simp] theorem execCgqry_canon (sw q d a) : CanonNext (execCgqry sw q d a s) := by
  refine issue_canon h fun v s h => ?_
  dsimp only
  split
  · exact (canonChk_check (by simp)).2 fun _ _ => by simpa using h
  · exact (canonChk_check (by simp)).2 fun _ _ => by simpa using h

end Sys2Proof.Machine
end

section
/-! ### The fabric: replies, transfers and collectives -/

namespace Sys2Proof.Machine

open Sys2Proof

section Checks
variable {α : Type} {s : State} (v : View)

@[simp] theorem View.wide_checks {x : Chk α} (hx : ChecksOnly x) : ChecksOnly (v.wide x) := by
  unfold View.wide
  split
  next st _ =>
    cases st with
    | none => trivial
    | some st => exact hx
  next => exact hx

@[simp] theorem View.localParts_memories (sp need addr n rep) :
    CanonChk (fun p => p.1.memories = s.memories) (v.localParts s sp need addr n rep) :=
  (canonChk_check (by simp)).2 fun _ _ => by simp

@[simp] theorem View.checkTransfer_checks (sp here there len source) : ChecksOnly (v.checkTransfer sp here there len source) := by
  simp [View.checkTransfer]

end Checks

variable {s : State} (h : s.memories.Canon)
include h

/-! Replies -/

@[simp] theorem State.putPlace_canon (asid p x) : (s.putPlace asid p x).memories.Canon := by
  cases p <;> simp [State.putPlace, h]

@[simp] theorem State.putPlaces_canon (asid ps ws) : (s.putPlaces asid ps ws).memories.Canon :=
  State.foldl_canon (fun _ _ h => State.putPlace_canon h ..) _ h

@[simp] theorem State.deliver_canon (q data status) : CanonNext (s.deliver q data status) := by
  unfold State.deliver
  split
  · simpa using h
  · simpa using h
  · simpa using h
  · simpa using h
  · simpa using h
  · simp [h]
  · exact State.pump_canon (by simpa using h) ..

@[simp] theorem State.memberReply_canon (q rep src) : CanonNext (s.memberReply q rep src) := by
  unfold State.memberReply
  extract_lets s1
  have marked : s1.memories.Canon := by
    simp only [s1]
    cases rep <;> simp [h]
  split
  · split
    · simpa using marked
    · exact State.deliver_canon marked ..
  · exact marked

@[simp] theorem execRemoteReply_canon (id rep src) : CanonNext (execRemoteReply id rep src s) := by
  unfold execRemoteReply
  split
  · split <;> simp [h]
  next q _ =>
    split
    · exact h
    · extract_lets s1 s2
      have marked : s2.memories.Canon := by
        have ended : s1.memories.Canon := by
          simp only [s1]
          split <;> simp [h]
        simp [s2, ended]
      clear_value s2
      split
      · exact State.memberReply_canon marked ..
      · cases rep with
        | errDeny =>
          simp only [canonNext_next]
          split <;> simp [marked]
        | _ => simp [marked]

@[simp] theorem execRnrRetry_canon (id) : CanonNext (execRnrRetry id s) := by
  unfold execRnrRetry
  split
  · simp [h]
  · split
    · exact h
    · split <;> simp [h]

/-! Packets -/

/-- What an instruction notes of its packets leaves the memories as they are. -/
def Packets.Spares (p : Packets) : Prop := ∀ i s, (p.noted i s).memories = s.memories ∧ (p.lost i s).memories = s.memories

omit h in
theorem View.emit_memories (v : View) {p : Packets} (hp : p.Spares) (base n i) (s : State) :
    (v.emit p base n i s).1.memories = s.memories := by
  induction n generalizing i s with
  | zero => rfl
  | succ n ih =>
    unfold View.emit
    dsimp only
    split
    · simp [ih, (hp i _).1]
    · simp [ih, (hp i _).2]
    · rfl

omit h in
theorem View.packets_spares (v : View) (x) : (v.packets x).Spares := by
  intro i s
  unfold View.packets
  dsimp only
  split <;> simp

theorem View.sendOne_canon (v : View) {p : Packets} (hp : p.Spares) : CanonChk (fun s => s.memories.Canon) (v.sendOne p s) := by
  have sent := v.emit_memories hp s.nextId 1 0 s
  unfold View.sendOne
  split
  next he =>
    rw [he] at sent
    simpa [sent] using h
  next => trivial

@[simp] theorem View.sendRest_canon (v : View) (x) : CanonChk (fun s => s.memories.Canon) (v.sendRest x s) := by
  simp [View.sendRest, v.emit_memories (v.packets_spares x), h]

@[simp] theorem transfer_canon (mc sw cg arv sp a b c) : CanonNext (transfer mc sw cg arv sp a b c s) := by
  refine issueMem_canon h fun v s rep h => ?_
  split
  · exact (canonChk_bind_state (View.sendRest_canon h ..)).2 fun s _ h => h
  · have group (m : Chk CommitGroup) (hm : ChecksOnly m) : ChecksOnly (do let g ← m; pure (some g.cgid)) := by simp [hm]
    refine CanonChk.ite_bind (group _ (View.stageCheck_checks ..)) trivial fun group _ => ?_
    refine (canonChk_check (View.checkTransfer_checks ..)).2 fun _ _ => CanonChk.bind (v.localParts_memories ..) fun p hp => ?_
    have h : p.1.memories.Canon := hp ▸ h
    refine .ite h ((canonChk_check (View.holdXfence_checks v)).2 fun _ _ => ?_)
    have loaded (a sc ps) : ((p.1.throughAll v.agent .home a).loadParts v.agent sc ps).1.memories.Canon :=
      State.loadParts_canon (State.throughAll_canon h ..) ..
    dsimp only
    refine .ite (loaded ..) ?_
    exact (canonChk_bind_state (View.sendRest_canon (loaded ..) ..)).2 fun s _ h => h

@[simp] theorem execXget_canon (sw sp a b c) : CanonNext (execXget sw sp a b c s) := by
  refine issueMem_canon h fun v s rep h => ?_
  dsimp only
  split
  · exact (canonChk_bind_state (View.sendRest_canon h ..)).2 fun s _ h => h
  · refine (canonChk_check (by simp)).2 fun _ _ => CanonChk.bind (v.localParts_memories ..) fun p hp => ?_
    split
    · simpa [frozen, hp] using h
    · refine (canonChk_check (by simp)).2 fun _ _ => (canonChk_check (by simp)).2 fun _ _ => ?_
      exact (canonChk_bind_state (View.sendRest_canon (by simpa [hp] using h) ..)).2 fun s _ h => h

@[simp] theorem execXatom_canon (sw cg rel f a b c) : CanonNext (execXatom sw cg rel f a b c s) := by
  refine issueMem_canon h fun v s rep h => (canonChk_check (by simp)).2 fun _ _ => ?_
  dsimp only
  split
  · trivial
  · split
    · refine (canonChk_check (by simp)).2 fun g _ => ?_
      exact (canonChk_bind_state (View.sendOne_canon h v (by intro i s; simp))).2 fun s _ h => h
    · exact (canonChk_bind_state (View.sendOne_canon h v (by intro i s; simp))).2 fun s _ h => h
    · refine (canonChk_check (by simp)).2 fun _ _ => (canonChk_check (by simp)).2 fun _ _ => ?_
      exact (canonChk_bind_state (View.sendOne_canon h v (by intro i s; simp))).2 fun s _ h => h

@[simp] theorem execXpost_canon (sw sp d a b) : CanonNext (execXpost sw sp d a b s) := by
  refine issueMem_canon h fun v s rep h => (canonChk_bind_fst (View.postImage_canon h ..)).2 fun p _ h => ?_
  dsimp only
  split
  · exact h
  · split
    · exact h
    · refine (canonChk_check (by simp)).2 fun _ _ => ?_
      exact (canonChk_bind_state (View.sendOne_canon h v (by intro i s; simp))).2 fun s _ h => h

@[simp] theorem execArvset_canon (sw clr a b c) : CanonNext (execArvset sw clr a b c s) :=
  issueMem_canon h fun v s rep h => by simp [h]

@[simp] theorem execArvwait_canon (sw nf a) : CanonNext (execArvwait sw nf a s) :=
  issueMem_canon h fun v s rep h => by simp [h]

/-! Collectives -/

@[simp] theorem View.collRegion_canon (v : View) (need na va n) : CanonChk (fun p => p.1.memories.Canon) (v.collRegion s need na va n) := by
  refine (canonChk_check (by simp)).2 fun _ _ => (canonChk_check (by simp)).2 fun _ _ => ?_
  dsimp only
  split
  · trivial
  · refine (canonChk_check (by simp)).2 fun _ _ => (canonChk_check (by simp)).2 fun _ _ => ?_
    refine State.foldl_canon (fun s x h => ?_) _ h
    split <;> simp [h]

@[simp] theorem State.readWords_canon (a ms) : (s.readWords a ms).1.memories.Canon := by simp +contextual [State.readWords, h]

@[simp] theorem execColl_canon (sw a) : CanonNext (execColl sw a s) := by
  refine issueMem_canon h fun v s rep h => (canonChk_check (View.require_checks ..)).2 fun _ _ => ?_
  refine (canonChk_bind_fst (View.wideLoad_canon h ..)).2 fun p _ h => .ite h (.ite h ?_)
  split
  · rw [pure_bind]
    refine (canonChk_bind_fst (View.collRegion_canon h ..)).2 fun src _ h => ?_
    refine (canonChk_bind_fst (View.collRegion_canon h ..)).2 fun dst _ h => ?_
    refine CanonChk.ite_bind (View.collRegion_canon h ..) (by exact h) fun res h => ?_
    refine .ite h ((canonChk_check (View.holdXfence_checks v)).2 fun _ _ => ?_)
    dsimp only
    split <;> simp [h]
  · trivial

@[simp] theorem State.endColl_canon (c) : (s.endColl c).memories.Canon := by
  unfold State.endColl
  refine State.arrive_canon (?_ : State.memories _ |>.Canon) ..
  split <;> simp [h]

@[simp] theorem State.exchange_canon (c ws) : (s.exchange c ws).memories.Canon := by
  unfold State.exchange
  dsimp only
  rw [State.modColl_memories, State.foldl_memories _ (by simp)]
  split <;> simp [h]

@[simp] theorem execCollResultArrive_canon (id parts) : CanonNext (execCollResultArrive id parts s) := by
  unfold execCollResultArrive
  split
  · exact h
  · split
    · exact h
    · split <;> simp [h]

@[simp] theorem execLeaderExchangeArrive_canon (id data) : CanonNext (execLeaderExchangeArrive id data s) := by
  unfold execLeaderExchangeArrive
  split <;> simp [h]

end Sys2Proof.Machine
end

section
/-! ### Pages: mapping, requests page by page, shootdowns and migrations -/

namespace Sys2Proof.Machine

open Sys2Proof

@[simp] theorem State.releaseFrames_memories (s : State) (a entry base size) : (s.releaseFrames a entry base size).memories = s.memories := by
  simp [State.releaseFrames, Function.comp_def, apply_ite Team.pad]

@[simp] theorem State.restartWaits_memories (s : State) (asid pa n) : (s.restartWaits asid pa n).memories = s.memories := by
  simp only [State.restartWaits]
  rw [State.foldl_memories _ fun _ _ => State.watch_memories .., State.foldl_memories]
  intro s f
  split
  · rfl
  · refine State.foldl_memories s (fun s g => ?_) _
    split
    · split <;> simp
    · rfl

variable {s : State} (h : s.memories.Canon)
include h

omit h in
theorem State.mapDown_canon (va level leaf fuel) {s : State} (h : s.memories.Canon) (lv table ts) :
    GivesCanonFst (s.mapDown va level leaf fuel lv table ts) := by
  induction fuel generalizing s lv table ts with
  | zero => exact satisfiesM_none
  | succ fuel ih =>
    unfold State.mapDown
    dsimp only
    split
    · exact satisfiesM_none
    · split
      · split
        · refine .pure (State.putHomeBytes_canon ?_ _ _)
          split <;> simpa using h
        · exact satisfiesM_none
      · split
        · split
          · exact satisfiesM_none
          · exact ih h ..
        · split
          · exact satisfiesM_none
          · split
            · exact satisfiesM_none
            · exact ih (State.putHomeBytes_canon (State.clearHome_canon h ..) ..) ..

theorem State.mapAll_canon (c va level pas tier home attr ts) : GivesCanon (s.mapAll c va level pas tier home attr ts) := by
  unfold State.mapAll
  split
  · exact satisfiesM_none
  · refine .bind (satisfiesM_foldlM (P := fun p => p.1.memories.Canon) (fun acc p h => ?_) _ h) fun _ h => .pure h
    dsimp only
    split
    · exact satisfiesM_none
    · exact State.mapDown_canon _ _ _ _ h ..

theorem State.pageStep_canon (c r) : GivesCanonFst (s.pageStep c r) := by
  unfold State.pageStep
  split
  · exact .pure h
  · dsimp only
    split
    · exact satisfiesM_none
    · split
      · exact .pure h
      · split <;> exact .pure (by simp [h])
      · split
        · exact satisfiesM_none
        · exact .pure (by simp [h])
      · split
        · exact satisfiesM_none
        · split
          · exact .pure h
          · exact .pure (by simp [h])
      · split
        · exact satisfiesM_none
        · exact .pure (by simpa using h)
      · exact .pure h
      · exact .pure h

omit h in
@[simp] theorem State.pageRun_canon (n) {s : State} (h : s.memories.Canon) (a r) : (State.pageRun n s a r).1.memories.Canon := by
  induction n generalizing s r with
  | zero => exact h
  | succ n ih =>
    unfold State.pageRun
    split
    · exact h
    · split
      · exact h
      · split
        · exact h
        · split
          · exact h
          next hp => exact ih (SatisfiesM.of_some (State.pageStep_canon h ..) hp) _

omit h in
@[simp] theorem State.pumpWork_canon (n) {s : State} (h : s.memories.Canon) (a) : (State.pumpWork n s a).memories.Canon := by
  induction n generalizing s with
  | zero => exact h
  | succ n ih =>
    have owed : (s.settleOwed a).memories.Canon := by simpa using h
    unfold State.pumpWork
    split
    · exact h
    · dsimp only
      split
      · exact owed
      · split
        · exact owed
        · split
          · exact owed
          · split
            · exact ih (by simpa using h)
            · split
              · split
                next hm => exact ih (by simpa using SatisfiesM.of_some (State.mapAll_canon owed ..) hm)
                next => exact ih (by simpa using h)
              · exact ih (by simpa using h)
              · exact ih (by simpa using h)
              · have run (k r) : (State.pageRun k (s.settleOwed a) a r).1.memories.Canon := State.pageRun_canon k owed a r
                split <;> split
                · split <;> (refine ih ?_; simp [run])
                · simp [run]
                · split <;> (refine ih ?_; simp [run])
                · simp [run]

@[simp] theorem State.pumpAll_canon : s.pumpAll.memories.Canon := by simp +contextual [State.pumpAll, h]

@[simp] theorem pageRequest_canon (asid op va len) : CanonNext (pageRequest asid op va len s) := by
  refine mailbox_canon h ?_
  split <;> simp [h]

/-! Shootdowns and migrations -/

@[simp] theorem State.drain_canon (pa n) : (s.drain pa n).memories.Canon :=
  State.foldl_canon (fun _ _ h => State.throughDcs_canon h ..) _ (State.foldl_canon (fun _ _ h => State.throughL1_canon h ..) _ h)

@[simp] theorem execShootdownComplete_canon (asid va) : CanonNext (execShootdownComplete asid va s) := by
  unfold execShootdownComplete
  split
  · exact h
  · split
    · exact h
    · split
      · exact h
      · refine State.pumpWork_canon _ ?_ _
        simp [h]

@[simp] theorem State.relockRange_canon (k pa n) : (s.relockRange k pa n).memories.Canon := by simp +contextual [State.relockRange, h]

@[simp] theorem State.copyRange_canon (k old new n) : (s.copyRange k old new n).memories.Canon :=
  State.canon_of_mem (State.relockRange_canon h k old n) (State.copyRange_wf (State.canon_mem h) ..) rfl

@[simp] theorem State.wakeMonitor_canon (o) : (s.wakeMonitor o).memories.Canon := by
  cases o <;> simp [State.wakeMonitor, h]

@[simp] theorem State.wakePage_canon (pa n) : (s.wakePage pa n).memories.Canon :=
  State.foldl_canon (fun _ _ h => State.wakeMonitor_canon h _) _ h

@[simp] theorem State.remapped_canon (asid pa n) : (s.remapped asid pa n).memories.Canon := by
  unfold State.remapped
  split <;> simp [h]

@[simp] theorem execMigrationCopyComplete_canon (asid va) : CanonNext (execMigrationCopyComplete asid va s) := by
  unfold execMigrationCopyComplete
  split
  · exact h
  · dsimp only
    split
    · exact h
    · exact State.remapped_canon (by simp [h]) ..

@[simp] theorem execMigrationCopyError_canon (asid va) : CanonNext (execMigrationCopyError asid va s) := by
  unfold execMigrationCopyError
  split <;> simp [h]

@[simp] theorem execLineReplacement_canon (core die line) : CanonNext (execLineReplacement core die line s) := by
  cases core <;> simp [execLineReplacement, h]

end Sys2Proof.Machine
end

section
/-! ### Contexts, dies and the fetch -/

namespace Sys2Proof.Machine

open Sys2Proof

variable {s : State} (h : s.memories.Canon)

include h

/-! Contexts -/

@[simp] theorem execKernelRetire_canon (k na) : CanonNext (execKernelRetire k na s) := by
  unfold execKernelRetire
  dsimp only
  split
  · exact h
  next x _ =>
    have through : (x.cores.foldl (fun s core => s.throughAll ⟨core, core / 40⟩ .home fun _ => true) s).memories.Canon :=
      State.foldl_canon (fun _ _ h => State.throughAll_canon h ..) _ h
    split
    · exact h
    · split
      · trivial
      · exact through
      next he =>
        have released := SatisfiesM.of_ok (State.release_canon through ..) he
        simp [released]

@[simp] theorem execCtxcreate_canon (c) : CanonNext (execCtxcreate c s) := by simp [execCtxcreate, h]

@[simp] theorem execCtxrestore_canon (a) : CanonNext (execCtxrestore a s) := by
  refine mailbox_canon h ?_
  split
  · simp [h]
  · dsimp only
    split <;> simp [h]

@[simp] theorem execCtxevict_canon (a) : CanonNext (execCtxevict a s) := by
  refine mailbox_canon h ?_
  split <;> simp [h]

@[simp] theorem State.dropClusters_canon (a) : (s.dropClusters a).memories.Canon := by
  obtain ⟨hm, ht⟩ := s.memories_canon.1 h
  exact (State.memories_canon _).2 ⟨hm, fun t hmem => ht t (List.mem_of_mem_filter hmem)⟩

@[simp] theorem State.dropPages_canon (c) : (s.dropPages c).memories.Canon := by simp [State.dropPages, h]

@[simp] theorem execCtxclose_canon (a) : CanonNext (execCtxclose a s) := by
  refine mailbox_canon h ?_
  split
  · simp [h]
  · split
    · simp [h]
    · have dropped : ((s.dropClusters a).dropKernels a).memories.Canon := by simp [h]
      have abandoned := State.abandonGroups_canon dropped fun g => g.asid == a
      simp [abandoned]

@[simp] theorem execCtxquery_canon (a) : CanonNext (execCtxquery a s) := by
  refine mailbox_canon h ?_
  split <;> simp [h]

@[simp] theorem execDread_canon (a r off n) : CanonNext (execDread a r off n s) := by
  refine mailbox_canon h ?_
  split <;> simp [h]

@[simp] theorem execDwrite_canon (a r off bs) : CanonNext (execDwrite a r off bs s) := by
  refine mailbox_canon h ?_
  split <;> simp [h]

@[simp] theorem execDcont_canon (r) : CanonNext (execDcont r s) := by
  refine mailbox_canon h ?_
  split
  · simp [h]
  · split <;> simp [h]

/-! Dies -/

@[simp] theorem State.deviceReset_canon (rails life) : (s.deviceReset rails life).memories.Canon :=
  (State.memories_canon _).2 ⟨filter_wf _ (State.canon_mem h), by simp [State.deviceReset, State.reset]⟩

@[simp] theorem execRailPowerLoss_canon (r) : CanonNext (execRailPowerLoss r s) := by simp [execRailPowerLoss, h]

@[simp] theorem execDieMeasurement_canon (d g ok) : CanonNext (execDieMeasurement d g ok s) := by
  unfold execDieMeasurement
  split
  · exact h
  · split <;> simp [h]

@[simp] theorem execUcieTrained_canon (d) : CanonNext (execUcieTrained d s) := by
  cases d <;> simp [execUcieTrained, h]

omit h in
@[simp] theorem State.beginWarm_memories (n) (s : State) : (s.beginWarm n).memories = s.memories := by
  induction n generalizing s with
  | zero => rfl
  | succ n ih =>
    unfold State.beginWarm
    split
    · rfl
    · simp [ih]

omit h in
@[simp] theorem State.endWarm_memories (s : State) : s.endWarm.memories = s.memories := by simp [State.endWarm]

@[simp] theorem State.quiesceWrites_canon (d) : (s.quiesceWrites d).memories.Canon :=
  State.foldl_canon (fun _ _ h => State.throughDcs_canon h ..) _
    (State.foldl_canon (fun _ _ h => State.foldl_canon (fun _ _ h => State.throughL1_canon h ..) _ h) _ h)

@[simp] theorem State.rearmDie_canon (d) : (s.rearmDie d).memories.Canon :=
  State.foldl_canon (fun _ _ h => State.wakeMonitor_canon h _) _ h

/-! The fetch -/

@[simp] theorem View.fetchPlace_canon (v : View) : CanonChk (fun p => p.1.memories.Canon) (v.fetchPlace s) := by
  unfold View.fetchPlace
  split <;> simp [h]

@[simp] theorem View.fetch_canon (v : View) : CanonChk (fun p => p.1.memories.Canon) (v.fetch s) := by
  refine .bind (View.fetchPlace_canon h v) fun p h => ?_
  dsimp only
  refine canonChk_stopIf (by simp) ?_
  split
  · simp
  · refine .bind (View.require_checks ..) fun _ _ => ?_
    split
    · exact h
    · simp

@[simp] theorem execUnassignedOpcode_canon (op len) : CanonNext (execUnassignedOpcode op len s) := by
  unfold execUnassignedOpcode
  split <;> simp [h]

end Sys2Proof.Machine
end

section
/-! ### Every instruction and event -/

namespace Sys2Proof.Machine

open Sys2Proof

variable {s : State} (h : s.memories.Canon)

include h

theorem carryOp_canon (o ty q ci f) : CanonNext (carryOp o ty q ci f s) := issue_canon h fun _ _ h => by simpa using h

theorem latticeOp_canon (o us f) : CanonNext (latticeOp o us f s) := issue_canon h fun _ _ h => by simp [h]

/-! Layouts and pattern tables -/

theorem execLchain_canon (sw d a b) : CanonNext (execLchain sw d a b s) :=
  layOp_canon h (fun v _ => .bind (v.laySrc_checks b) fun _ _ => by split <;> trivial) ..

theorem execLpart_canon (sw die m d a t) : CanonNext (execLpart sw die m d a t s) :=
  layOp_canon h (fun v _ => .bind (v.require_checks ..) fun _ _ => by split <;> simp) ..

theorem execLtrans_canon (sw d a p) : CanonNext (execLtrans sw d a p s) :=
  layOp_canon h (fun v _ => .bind (v.require_checks ..) fun _ _ => by simp) ..

theorem execLflat_canon (sw byMode m d a) : CanonNext (execLflat sw byMode m d a s) := by
  refine layOp_canon h (fun v l => ?_) ..
  cases byMode with
  | false =>
    refine .bind (v.require_checks ..) fun _ _ => ?_
    dsimp only
    split <;> trivial
  | true =>
    refine .bind (v.require_checks ..) fun _ _ => ?_
    dsimp only
    split
    · split <;> trivial
    · trivial

theorem execLswz_canon (sw d a b) : CanonNext (execLswz sw d a b s) :=
  layOp_canon h (fun v _ => .bind (v.require_checks ..) fun _ _ => by simp) ..

theorem execPtld_canon (sw sp t a) : CanonNext (execPtld sw sp t a s) := by
  refine withTable_canon h (issueMem_canon h fun v s rep h => ?_) sw t
  exact .bind (View.wideLoad_canon h ..) fun _ h => h

/-! Single events of the fibres and the fabric -/

theorem execRequota_canon (sw a b) : CanonNext (execRequota sw a b s) :=
  issueColl_canon h fun v s h => by
    dsimp only
    split
    · exact h
    · split
      · trivial
      · simp [h]

theorem execForcedRotation_canon (f) : CanonNext (execForcedRotation f s) := by
  unfold execForcedRotation
  split
  · exact h
  · split <;> simp [h]

theorem execGangTurnLimit_canon (f) : CanonNext (execGangTurnLimit f s) := by
  unfold execGangTurnLimit
  split <;> simp [h]

theorem execPortTrained_canon (p lanes far inc) : CanonNext (execPortTrained p lanes far inc s) := by
  unfold execPortTrained
  dsimp only
  split
  · exact h
  · split <;> simp [h]

theorem execPortTrainingFail_canon (p) : CanonNext (execPortTrainingFail p s) := by
  unfold execPortTrainingFail
  split <;> simp [h]

theorem execLinkset_canon (r) : CanonNext (execLinkset r s) := by
  refine mailbox_canon h ?_
  cases r <;> simp [h]

theorem execLinkquery_canon (r) : CanonNext (execLinkquery r s) := by
  refine mailbox_canon h ?_
  cases r <;> simp [h]

theorem execPlaneset_canon (p r) : CanonNext (execPlaneset p r s) := by
  refine mailbox_canon h ?_
  split
  · simp [h]
  · split <;> simp [h]

/-- An instruction or event keeps the memories in canonical form. -/
theorem exec_canon (i : Instr) : CanonNext (exec i s) := by
  cases i with dsimp only [exec]
  | movi | lea | cvtp | cvtu | cbq => simp [execMovi, execLea, execCvtp, execCvtu, execCbq, h]
  | mov | iadd | isub | imul | imulh | imad | imin | imax | iabs | ineg | and | or | xor | not | shl | shr | shra | rot | popc
  | clz | brev | bfe | bfi | sel | ballot | shfl | prmt | fadd | fsub | fmul | ffma | fmin | fmax | frcp | frsq | fsqrt | fexp2
  | flog2 | fsin | fcos | ftanh | fscale | frnd | fclass | ffma2 | fadd2 | fmul2 | fdot2 | fdot4 | cvt | bscale | qparm
  | qapply | dq => exact laneOp_canon h ..
  | icmp | plop | vote | fcmp => exact predOp_canon h ..
  | iaddc | isubb => exact carryOp_canon h ..
  | qle8 | dle8 | rle8 | ule8 => exact latticeOp_canon h ..
  | nop | yield | trap | bkpt | rdsr | wrsr | getseg | rdcyc | v2s | lset | lqry | hmk | hqry | lmov | tffr | jqry | xfence =>
    exact issue_canon h fun v s h => by simp +contextual [h]
  | setseg | tlbinv => exact issuePriv_canon h fun v s h => by simp +contextual [h]
  | bra | brx | call | callx | ret => exact issueBranch_canon h fun v s h => by simp +contextual [h]
  | fbar | fpost | fwait | mwsw | mrel | mzero | mzmvTo | mzmvFrom | mresc | tred =>
    exact issueColl_canon h fun v s h => by simp +contextual [h]
  | lld => exact issueMem_canon h fun v s rep h => by simp +contextual [h]
  | cpy | cpym => exact copyOp_canon h ..
  | xfer | xmc => exact transfer_canon h ..
  | map | unmap | protect | migrate | pin | unpin | translate => exact pageRequest_canon h ..
  | asyncDataError | matrixDataError | jobFaultSignal | remoteErrorTrap => exact takeHeld_canon h ..
  | lifetimeCommit | lifeget | getVersion | getCapabilities | negotiateAlgorithms | getDigests | getCertificate | challenge |
  getMeasurements | orderlyPowerDown | droopEvent | lifetimeMinute =>
    exact h
  | quiesceComplete | coreResetComplete | planeDrainComplete | laneLost | replayLimit | flitCrcError | portDown | frameAck |
  siroccoKeyRollover | powerOnReset | operatingPointGrant | diewarm | dieRetrainComplete | mgmtCoreStart | portDieFail |
  railPowerGood | frequencyChange | linkWidthReduction | spanset | devid | dhalt | dresume | liferead | powerset |
  mailboxUnsupported | mctpPowerset | keyload | keyExchange | finish | endSession | yardarmRouteReport =>
    simp [execQuiesceComplete, execCoreResetComplete, execPlaneDrainComplete, execLaneLost, execReplayLimit, execFlitCrcError,
      execPortDown, execFrameAck, execSiroccoKeyRollover, execPowerOnReset, execOperatingPointGrant, execDiewarm,
      execDieRetrainComplete, execMgmtCoreStart, execPortDieFail, execRailPowerGood, execFrequencyChange,
      execLinkWidthReduction, execSpanset, execDevid, execDhalt, execDresume, execLiferead, execPowerset,
      execMailboxUnsupported, execMctpPowerset, execKeyload, execKeyExchange, execFinish, execEndSession,
      execYardarmRouteReport, h]
  | regang => exact execRegang_canon h ..
  | exit => exact execExit_canon h ..
  | rtt => exact execRtt_canon h ..
  | dbnz => exact execDbnz_canon h ..
  | savectx => exact execSavectx_canon h ..
  | loadctx => exact execLoadctx_canon h ..
  | gbar => exact execGbar_canon h ..
  | garv => exact execGarv_canon h ..
  | gwait => exact execGwait_canon h ..
  | gred => exact execGred_canon h ..
  | gqry => exact execGqry_canon h ..
  | binit => exact execBinit_canon h ..
  | barv => exact execBarv_canon h ..
  | bwait => exact execBwait_canon h ..
  | bdrop => exact execBdrop_canon h ..
  | waitcmp => exact execWaitcmp_canon h ..
  | ld => exact execLd_canon h ..
  | st => exact execSt_canon h ..
  | ldl => exact execLdl_canon h ..
  | stl => exact execStl_canon h ..
  | gath => exact execGath_canon h ..
  | scat => exact execScat_canon h ..
  | atom => exact execAtom_canon h ..
  | red => exact execRed_canon h ..
  | fence => exact execFence_canon h ..
  | bind => exact execBind_canon h ..
  | unbind => exact execUnbind_canon h ..
  | unbindObj => exact execUnbindObj_canon h ..
  | acq => exact execAcq_canon h ..
  | rels => exact execRels_canon h ..
  | pref => exact execPref_canon h ..
  | cinv => exact execCinv_canon h ..
  | cwb => exact execCwb_canon h ..
  | lst => exact execLst_canon h ..
  | lslice => exact execLslice_canon h ..
  | hset => exact execHset_canon h ..
  | permx => exact execPermx_canon h ..
  | mwld => exact execMwld_canon h ..
  | mstr => exact execMstr_canon h ..
  | mzld => exact execMzld_canon h ..
  | mzst => exact execMzst_canon h ..
  | mcbld => exact execMcbld_canon h ..
  | mqry => exact execMqry_canon h ..
  | twany => exact execTwany_canon h ..
  | twall => exact execTwall_canon h ..
  | tclr => exact execTclr_canon h ..
  | jcan => exact execJcan_canon h ..
  | xget => exact execXget_canon h ..
  | xatom => exact execXatom_canon h ..
  | xpost => exact execXpost_canon h ..
  | arvset => exact execArvset_canon h ..
  | arvwait => exact execArvwait_canon h ..
  | coll => exact execColl_canon h ..
  | cgopen => exact execCgopen_canon h ..
  | cgopenJoin => exact execCgopenJoin_canon h ..
  | cgprep => exact execCgprep_canon h ..
  | cghoist => exact execCghoist_canon h ..
  | cgabort => exact execCgabort_canon h ..
  | cgqry => exact execCgqry_canon h ..
  | qpush => exact execQpush_canon h ..
  | unassignedOpcode => exact execUnassignedOpcode_canon h ..
  | resultReturn => exact execResultReturn_canon h ..
  | deferredFpostApply => exact execDeferredFpostApply_canon h ..
  | fbarArrivalCount => exact execFbarArrivalCount_canon h ..
  | faultServiced => exact execFaultServiced_canon h ..
  | migrationCopyComplete => exact execMigrationCopyComplete_canon h ..
  | migrationCopyError => exact execMigrationCopyError_canon h ..
  | shootdownComplete => exact execShootdownComplete_canon h ..
  | lineReplacement => exact execLineReplacement_canon h ..
  | monitorFire => exact execMonitorFire_canon h ..
  | monitorPoll => exact execMonitorPoll_canon h ..
  | queueProducerWrite => exact execQueueProducerWrite_canon h ..
  | packetTake => exact execPacketTake_canon h ..
  | launchLoadComplete => exact execLaunchLoadComplete_canon h ..
  | clusterPlace => exact execClusterPlace_canon h ..
  | preemptRequest => exact execPreemptRequest_canon h ..
  | parkedClusterTimeout => exact execParkedClusterTimeout_canon h ..
  | clusterSaveComplete => exact execClusterSaveComplete_canon h ..
  | clusterResume => exact execClusterResume_canon h ..
  | kernelRetire => exact execKernelRetire_canon h ..
  | jobStart => exact execJobStart_canon h ..
  | jobLanded => exact execJobLanded_canon h ..
  | jobDone => exact execJobDone_canon h ..
  | jobFaulted => exact execJobFaulted_canon h ..
  | jobReplay => exact execJobReplay_canon h ..
  | cpymFollowOn => exact execCpymFollowOn_canon h ..
  | weightLoadComplete => exact execWeightLoadComplete_canon h ..
  | streamRowCommit => exact execStreamRowCommit_canon h ..
  | arrayDeferredAct => exact execArrayDeferredAct_canon h ..
  | remoteRequestArrive => exact execRemoteRequestArrive_canon h ..
  | remoteReply => exact execRemoteReply_canon h ..
  | rnrRetry => exact execRnrRetry_canon h ..
  | counterPacketArrive => exact execCounterPacketArrive_canon h ..
  | multicastPacketArrive => exact execMulticastPacketArrive_canon h ..
  | xpostArrive => exact execXpostArrive_canon h ..
  | collResultArrive => exact execCollResultArrive_canon h ..
  | leaderExchangeArrive => exact execLeaderExchangeArrive_canon h ..
  | hostMemRead => exact execHostMemRead_canon h ..
  | hostMemWrite => exact execHostMemWrite_canon h ..
  | hostSnoop => exact execHostSnoop_canon h ..
  | cgRecordArrive => exact execCgRecordArrive_canon h ..
  | cgPrepareArrive => exact execCgPrepareArrive_canon h ..
  | cgPrepareReply => exact execCgPrepareReply_canon h ..
  | cgWindowExpire => exact execCgWindowExpire_canon h ..
  | cgAbortArrive => exact execCgAbortArrive_canon h ..
  | cgHoistArrive => exact execCgHoistArrive_canon h ..
  | cgApplyAck => exact execCgApplyAck_canon h ..
  | cgHoldExpire => exact execCgHoldExpire_canon h ..
  | cgDecisionAnswer => exact execCgDecisionAnswer_canon h ..
  | dieMeasurement => exact execDieMeasurement_canon h ..
  | ucieTrained => exact execUcieTrained_canon h ..
  | railPowerLoss => exact execRailPowerLoss_canon h ..
  | ctxcreate => exact execCtxcreate_canon h ..
  | ctxrestore => exact execCtxrestore_canon h ..
  | ctxevict => exact execCtxevict_canon h ..
  | ctxclose => exact execCtxclose_canon h ..
  | ctxquery => exact execCtxquery_canon h ..
  | qcreate => exact execQcreate_canon h ..
  | qdestroy => exact execQdestroy_canon h ..
  | qreset => exact execQreset_canon h ..
  | aclset => exact execAclset_canon h ..
  | dread => exact execDread_canon h ..
  | dwrite => exact execDwrite_canon h ..
  | dcont => exact execDcont_canon h ..
  | requota => exact execRequota_canon h ..
  | forcedRotation => exact execForcedRotation_canon h ..
  | gangTurnLimit => exact execGangTurnLimit_canon h ..
  | portTrained => exact execPortTrained_canon h ..
  | portTrainingFail => exact execPortTrainingFail_canon h ..
  | linkset => exact execLinkset_canon h ..
  | linkquery => exact execLinkquery_canon h ..
  | planeset => exact execPlaneset_canon h ..
  | lchain => exact execLchain_canon h ..
  | lpart => exact execLpart_canon h ..
  | ltrans => exact execLtrans_canon h ..
  | lflat => exact execLflat_canon h ..
  | lswz => exact execLswz_canon h ..
  | ptld => exact execPtld_canon h ..

end Sys2Proof.Machine
end

section
/-! ### What settles, and the step -/

namespace Sys2Proof.Machine

open Sys2Proof

/-! What comes about by itself -/

@[simp] theorem State.settleOut_memories (s : State) (c) : (s.settleOut c).memories = s.memories := by
  unfold State.settleOut
  split
  · rfl
  · split <;> simp

@[simp] theorem State.exitFibre_memories (s : State) (f) : (s.exitFibre f).memories = s.memories := by simp [State.exitFibre]

@[simp] theorem State.settleExit_memories (s : State) (f) : (s.settleExit f).memories = s.memories := by
  unfold State.settleExit
  split
  · rfl
  · split <;> simp

variable {s : State} (h : s.memories.Canon)

include h

@[simp] theorem State.finishWait_canon (f g w) : (s.finishWait f g w).memories.Canon := by
  cases w with
  | tagsAny | tagsAll =>
    simp only [State.finishWait, State.endWait_memories]
    split <;> simp [h]
  | _ => simp [State.finishWait, h]

@[simp] theorem State.settleWait_canon (r g) : (s.settleWait r g).memories.Canon := by
  unfold State.settleWait
  split
  · exact h
  · split <;> simp [h]

@[simp] theorem State.settleFibre_canon (r) : (s.settleFibre r).memories.Canon := by
  unfold State.settleFibre
  split
  · exact h
  · split
    · exact h
    · split
      · simp [h]
      · split
        · simp [h]
        · dsimp only
          have waits (s : State) (h : s.memories.Canon) (gs : List Gang) : (gs.foldl (fun s g => s.settleWait r g.id) s).memories.Canon :=
            State.foldl_canon (fun _ _ h => State.settleWait_canon h ..) _ h
          split <;> simp [h, waits]

@[simp] theorem State.settleCluster_canon (c) : (s.settleCluster c).memories.Canon := by
  obtain ⟨hm, ht⟩ := s.memories_canon.1 h
  unfold State.settleCluster
  split
  · rw [State.gridEnd_memories]
    exact (State.memories_canon _).2 ⟨hm, fun t hmem => ht t (List.mem_of_mem_filter hmem)⟩
  · exact h

@[simp] theorem State.settle_canon : s.settle.memories.Canon := by
  unfold State.settle
  extract_lets pumped flags fibres teams clusters out ctxs queues halts
  have hp : pumped.memories.Canon := by
    simpa only [pumped, State.flushOutbox_memories] using
      State.retryReleases_canon (State.settleGroups_canon (State.pumpAll_canon h))
  clear_value pumped
  have hf : fibres.memories.Canon := State.foldl_canon (fun _ _ h => State.settleFibre_canon h _) _ (by simpa [flags] using hp)
  clear_value fibres
  have hc : clusters.memories.Canon := State.foldl_canon (fun _ _ h => State.settleCluster_canon h _) _ (by simpa [teams] using hf)
  clear_value clusters
  simpa [halts, queues, ctxs, out] using hc

/-! The step -/

@[simp] theorem State.issueNow_canon : CanonNext s.issueNow := by
  unfold State.issueNow
  split
  · exact h
  next v _ =>
    have fetched := View.fetch_canon h v
    split
    next he => 
      rw [he] at fetched
      exact exec_canon fetched _
    next he =>
      rw [he] at fetched
      exact Stop.outcome_canon h fetched _ _

@[simp] theorem State.issueFor_canon (r) : CanonNext (s.issueFor r) := by
  unfold State.issueFor
  split <;> simp [h]

omit h in
theorem finishStep_canon {o : Result} (ho : CanonNext o) : CanonNext (finishStep o) := by
  cases o with
  | next s => exact State.settle_canon ho
  | fault => trivial
  | refused => trivial

@[simp] theorem State.take_canon (t) : CanonNext (s.take t) := by
  unfold State.take
  split <;> simp [h, exec_canon]

@[simp] theorem State.advance_canon (t) : CanonNext (s.advance t) := by
  cases t <;> exact finishStep_canon (State.take_canon (by simpa using h) _)

@[simp] theorem step_canon : CanonNext (step s) := by
  unfold step
  split <;> simp [h]

end Sys2Proof.Machine

open Sys2Proof Sys2Proof.Machine

/-- Settles O60: the canonical form of the memories holds of what every instruction, every event and what settles after it leave. -/
theorem stepKeepsMemoriesCanonical : Obligations.StepKeepsMemoriesCanonical := by
  unfold Obligations.StepKeepsMemoriesCanonical
  intro s s' h hs
  have next : CanonNext (step s) := step_canon (s.memOk_iff.1 h)
  rw [hs] at next
  exact s'.memOk_iff.2 next

end

section
/-! ### Instruction words and their bytes (R37 to R40, R67 step 4) -/

namespace Sys2Proof.Laws.Encoding

theorem statement (i : Instr) : Statement i := by
  exact i.casesOn nop bra brx call callx ret regang exit yield trap bkpt rtt rdsr wrsr setseg getseg rdcyc dbnz savectx loadctx tlbinv mov movi iadd
    isub imul imulh imad imin imax iabs ineg and or xor not shl shr shra rot popc clz brev bfe bfi lea icmp sel plop vote ballot v2s iaddc isubb
    shfl prmt fadd fsub fmul ffma fmin fmax fcmp frcp frsq fsqrt fexp2 flog2 fsin fcos ftanh fscale frnd fclass ffma2 fadd2 fmul2 fdot2 fdot4 cvt
    cvtp cvtu bscale qparm qapply dq qle8 dle8 rle8 ule8 cbq requota fbar fpost fwait gbar garv gwait gred gqry binit barv bwait bdrop waitcmp ld st
    ldl stl gath scat atom red fence bind unbind unbindObj acq rels pref cinv cwb lld lst lset lchain lpart ltrans lflat lslice lswz lqry hmk hset
    hqry permx ptld lmov mwld mwsw mrel mstr mzero mzld mzst mzmvTo mzmvFrom mresc mcbld mqry tred cpy cpym twany twall tffr tclr jqry jcan xfer
    xget xatom xpost xmc arvset arvwait coll xfence cgopen cgopenJoin cgprep cghoist cgabort cgqry qpush unassignedOpcode resultReturn
    deferredFpostApply fbarArrivalCount forcedRotation gangTurnLimit asyncDataError matrixDataError jobFaultSignal remoteErrorTrap faultServiced
    migrationCopyComplete migrationCopyError shootdownComplete lineReplacement monitorFire monitorPoll queueProducerWrite packetTake
    launchLoadComplete clusterPlace preemptRequest parkedClusterTimeout clusterSaveComplete clusterResume kernelRetire quiesceComplete
    coreResetComplete jobStart jobLanded jobDone jobFaulted jobReplay cpymFollowOn weightLoadComplete streamRowCommit arrayDeferredAct
    remoteRequestArrive remoteReply rnrRetry counterPacketArrive multicastPacketArrive xpostArrive collResultArrive leaderExchangeArrive
    planeDrainComplete portTrained portTrainingFail laneLost replayLimit flitCrcError portDown frameAck siroccoKeyRollover hostMemRead hostMemWrite
    hostSnoop cgRecordArrive cgPrepareArrive cgPrepareReply cgWindowExpire cgAbortArrive cgHoistArrive cgApplyAck cgHoldExpire cgDecisionAnswer
    powerOnReset dieMeasurement ucieTrained operatingPointGrant diewarm dieRetrainComplete mgmtCoreStart portDieFail railPowerGood railPowerLoss
    frequencyChange linkWidthReduction lifetimeCommit ctxcreate ctxrestore ctxevict ctxclose ctxquery map unmap protect migrate pin unpin translate
    qcreate qdestroy qreset aclset linkset linkquery planeset spanset devid dhalt dresume dread dwrite dcont liferead powerset mailboxUnsupported
    mctpPowerset lifeget keyload getVersion getCapabilities negotiateAlgorithms getDigests getCertificate challenge getMeasurements keyExchange
    finish endSession yardarmRouteReport orderlyPowerDown droopEvent lifetimeMinute

end Sys2Proof.Laws.Encoding

namespace Sys2Proof

/-- What stands above bit 63 has room in the bytes that the length gives (R40). -/
def Fields.ExtFits (f : Fields) : Prop := f.ext.toNat < 256 ^ (f.len.bytes - 8)

theorem Fields.extFits_of_zero {f : Fields} (h : f.ext = 0) : f.ExtFits := by
  simp [Fields.ExtFits, h]

theorem Fields.extFits_of_l96 {f : Fields} (h : f.len = .l96) (hx : f.ext.toNat < 2 ^ 32) : f.ExtFits := by
  simpa [Fields.ExtFits, h, Len.bytes] using hx

theorem Fields.extFits_of_l128 {f : Fields} (h : f.len = .l128) : f.ExtFits := by
  simpa [Fields.ExtFits, h, Len.bytes] using f.ext.isLt

theorem toNat_setWidth_lt_imm {n : Nat} (x : BitVec n) (hn : n ≤ 32) : (x.setWidth 64).toNat < 2 ^ 32 := by
  rw [BitVec.toNat_setWidth_of_le (hn.trans (by decide))]
  exact x.isLt.trans_le (Nat.pow_le_pow_right (by decide) hn)

theorem Instr.extFits {i : Instr} (hw : i.wf = true) {f : Fields} (hf : i.toFields = some f) : f.ExtFits := by
  cases i with
  | bra _ x | call _ _ x | dbnz _ _ _ x | lea _ _ _ x | lpart _ _ _ _ _ x | ltrans _ _ _ x | lslice _ _ _ _ _ _ x | mstr _ _ _ _ _ x =>
    obtain rfl := Option.some.inj hf
    exact Fields.extFits_of_l96 rfl (toNat_setWidth_lt_imm x (by decide))
  | lset | hmk =>
    obtain rfl := Option.some.inj hf
    exact Fields.extFits_of_l128 rfl
  | hset _ _ _ v =>
    cases v <;> obtain rfl := Option.some.inj hf <;> exact Fields.extFits_of_l128 rfl
  | movi _ _ t _ v =>
    obtain rfl := Option.some.inj hf
    have small : (t.is64 || decide (v.toNat < 2 ^ 32)) = true := (Bool.and_eq_true_iff.1 hw).2
    cases ht : t.is64 with
    | false => exact Fields.extFits_of_l96 rfl (by simpa [ht] using small)
    | true => exact Fields.extFits_of_l128 rfl
  | tlbinv _ _ x | cvtu _ _ _ x | acq _ x | xatom _ _ _ x =>
    cases x <;> obtain rfl := Option.some.inj hf <;> exact Fields.extFits_of_zero rfl
  | _ => cases hf <;> exact Fields.extFits_of_zero rfl

@[simp] theorem leBytes_length (n v : Nat) : (leBytes n v).length = n := by
  induction n generalizing v with
  | zero => rfl
  | succ n ih => simp [leBytes, ih]

theorem leNat_leBytes (n v : Nat) : leNat (leBytes n v) = v % 256 ^ n := by
  induction n generalizing v with
  | zero => simp [leBytes, leNat, Nat.mod_one]
  | succ n ih =>
    rw [leBytes, leNat, ih, BitVec.toNat_ofNat, Nat.pow_succ' (n := n), Nat.mod_mul]

theorem leBytes_leNat (bs : List Byte) : leBytes bs.length (leNat bs) = bs := by
  induction bs with
  | nil => rfl
  | cons b bs ih =>
    have digit : (b.toNat + 256 * leNat bs) / 256 = leNat bs := by omega
    have low : BitVec.ofNat 8 (b.toNat + 256 * leNat bs) = b := by
      apply BitVec.eq_of_toNat_eq
      simp only [BitVec.toNat_ofNat]
      omega
    simp only [List.length_cons, leNat, leBytes, digit, low, ih]

theorem leNat_lt (bs : List Byte) : leNat bs < 256 ^ bs.length := by
  induction bs with
  | nil => simp [leNat]
  | cons b bs ih =>
    simp only [leNat, List.length_cons, Nat.pow_succ]
    omega

theorem bit_getLsbD {n : Nat} (w : BitVec n) (k : Nat) : bit (w.getLsbD k) = w.extractLsb' k 1 := by
  ext i hi
  obtain rfl : i = 0 := by omega
  simp [bit]

theorem Fields.low_eq_cast (f : Fields) : f.low = BitVec.cast (by decide)
    (f.hi ++ f.ty ++ f.lo ++ bit f.xb ++ bit f.xa ++ bit f.lc ++ bit f.lb ++ bit f.la ++ f.c ++ f.b ++ f.a ++ f.d ++ f.op ++
      bit f.pn ++ f.pg ++ bit f.sw ++ f.len.code) := rfl

theorem extractLsb'_cast {n m : Nat} (h : n = m) (x : BitVec n) (i k : Nat) : (x.cast h).extractLsb' i k = x.extractLsb' i k := by
  subst h; rfl

theorem Fields.code_low (f : Fields) : f.low.extractLsb' 0 2 = f.len.code := by
  rw [Fields.low_eq_cast, extractLsb'_cast, BitVec.extractLsb'_append_eq_right]

theorem getLsbD_bit (b : Bool) : (bit b).getLsbD 0 = b := by cases b <;> rfl

theorem Fields.ofLow_low (f : Fields) (x : DWord) : Fields.ofLow f.len f.low x = { f with ext := x } := by
  simp (disch := decide) only [Fields.ofLow, Fields.low_eq_cast, extractLsb'_cast, BitVec.getLsbD_cast, BitVec.extractLsb'_append_eq_of_le,
    BitVec.extractLsb'_append_eq_of_add_le, BitVec.getLsbD_append, BitVec.extractLsb'_eq_self, Nat.reduceSub, Nat.reduceLT, if_true, if_false,
    getLsbD_bit]

theorem Fields.low_ofLow (len : Len) (w : BitVec 64) (x : DWord) (h : w.extractLsb' 0 2 = len.code) : (Fields.ofLow len w x).low = w := by
  simp only [Fields.low, Fields.ofLow, bit_getLsbD, ← h]
  simp (disch := decide) only [BitVec.extractLsb'_append_extractLsb'_eq_extractLsb']
  exact BitVec.extractLsb'_eq_self

/-- What a field record decodes to: the instruction that it encodes, well formed, or the row of unassigned opcodes. -/
theorem Fields.decode_cases {f : Fields} {i : Instr} (h : f.decode = some i) :
    (i.toFields = some f ∧ i.wf = true) ∨ (assignedOp f.op.toNat = false ∧ i = .unassignedOpcode f.op f.len.code) := by
  unfold Fields.decode at h
  split at h
  · split at h
    next i' _ =>
      split at h
      next ok =>
        obtain rfl := Option.some.inj h
        exact .inl (by simpa using ok)
      · contradiction
    · contradiction
  next no => exact .inr ⟨by simpa using no, (Option.some.inj h).symm⟩

/-- The bytes of a field record: those of R39, then what stands above bit 63. -/
def Fields.image (f : Fields) : List Byte := leBytes 8 f.low.toNat ++ leBytes (f.len.bytes - 8) f.ext.toNat

theorem Len.bytes_ge (l : Len) : 8 ≤ l.bytes := by cases l <;> decide

@[simp] theorem Fields.image_length (f : Fields) : f.image.length = f.len.bytes := by
  have := f.len.bytes_ge
  simp only [Fields.image, List.length_append, leBytes_length]
  omega

theorem Fields.image_take (f : Fields) (rest : List Byte) : (f.image ++ rest).take 8 = leBytes 8 f.low.toNat := by
  rw [Fields.image, List.append_assoc, List.take_append_of_le_length (by simp), List.take_of_length_le (by simp)]

theorem Fields.image_drop (f : Fields) : f.image.drop 8 = leBytes (f.len.bytes - 8) f.ext.toNat := by
  rw [Fields.image, List.drop_left' (by simp)]

theorem ofNat_leNat_leBytes (x : BitVec 64) {n : Nat} (h : x.toNat < 256 ^ n) : BitVec.ofNat 64 (leNat (leBytes n x.toNat)) = x := by
  rw [leNat_leBytes, Nat.mod_eq_of_lt h, BitVec.ofNat_toNat, BitVec.setWidth_eq]

theorem leBytes_ofNat_leNat (bs : List Byte) (h : bs.length ≤ 8) : leBytes bs.length (BitVec.ofNat 64 (leNat bs)).toNat = bs := by
  have lt : leNat bs < 2 ^ 64 := (leNat_lt bs).trans_le (Nat.pow_le_pow_right (n := 256) (by decide) h)
  rw [BitVec.toNat_ofNat, Nat.mod_eq_of_lt lt, leBytes_leNat]

/-- The image of a field record, with what is above its words cut off, is decoded as the record. -/
theorem decode_image {f : Fields} {x : DWord} (hx : BitVec.ofNat 64 (leNat (leBytes (f.len.bytes - 8) f.ext.toNat)) = x) {i : Instr}
    (hd : ({ f with ext := x } : Fields).decode = some i) (rest : List Byte) : decode (f.image ++ rest) = .ok (i, rest) := by
  have low : BitVec.ofNat 64 (leNat ((f.image ++ rest).take 8)) = f.low := by
    rw [f.image_take, ofNat_leNat_leBytes _ f.low.isLt]
  have ext : BitVec.ofNat 64 (leNat (((f.image ++ rest).take f.len.bytes).drop 8)) = x := by
    rw [List.take_left' f.image_length, f.image_drop, hx]
  have long : ¬(f.image ++ rest).length < 8 := by
    have := f.len.bytes_ge
    simp only [List.length_append, f.image_length]
    omega
  have whole : ¬(f.image ++ rest).length < f.len.bytes := by simp
  simp only [decode, if_neg long, low, f.code_low, Len.ofCode_code, if_neg whole, ext, f.ofLow_low, hd, List.drop_left' f.image_length]

theorem Len.code_of_ofCode : ∀ {c : BitVec 2} {l : Len}, Len.ofCode c = some l → c = l.code := by
  intro c l
  cases l <;> revert c <;> decide

theorem Fields.image_ofLow (len : Len) (w : BitVec 64) (x : DWord) (h : w.extractLsb' 0 2 = len.code) :
    (Fields.ofLow len w x).image = leBytes 8 w.toNat ++ leBytes (len.bytes - 8) x.toNat := by
  rw [Fields.image, Fields.low_ofLow len w x h]
  rfl

theorem decode_ok {bs : List Byte} {i : Instr} {rest : List Byte} (h : decode bs = .ok (i, rest)) :
    ∃ f : Fields, f.image ++ rest = bs ∧ f.decode = some i := by
  simp only [decode] at h
  split at h
  · contradiction
  split at h
  · contradiction
  next len hlen =>
  split at h
  · contradiction
  next long whole =>
  split at h
  next i' hd =>
    simp only [Except.ok.injEq, Prod.mk.injEq] at h
    obtain ⟨rfl, rfl⟩ := h
    refine ⟨_, ?_, hd⟩
    have := len.bytes_ge
    have le16 : len.bytes ≤ 16 := by cases len <;> decide
    have first : (bs.take 8).length = 8 := by simp; omega
    have second : ((bs.take len.bytes).drop 8).length = len.bytes - 8 := by simp; omega
    have low := leBytes_ofNat_leNat (bs.take 8) (by omega)
    have ext := leBytes_ofNat_leNat ((bs.take len.bytes).drop 8) (by omega)
    rw [first] at low
    rw [second] at ext
    rw [Fields.image_ofLow _ _ _ (Len.code_of_ofCode hlen), low, ext]
    conv_rhs => rw [← List.take_append_drop len.bytes bs, ← List.take_append_drop 8 (bs.take len.bytes), List.take_take,
      Nat.min_eq_left len.bytes_ge]
  · contradiction

theorem encode_of_toFields {i : Instr} {f : Fields} (h : i.toFields = some f) : encode i = f.image := by
  simp only [encode, h, Fields.image]

theorem Instr.bytes_of_toFields {i : Instr} {f : Fields} (h : i.toFields = some f) : i.bytes = f.len.bytes := by
  unfold Instr.bytes
  split
  · contradiction
  · simp only [h]

end Sys2Proof

open Sys2Proof

/-- Settles O57: the fields of a word and the word determine each other (R39), and so do a well-formed instruction and its fields. -/
theorem encodingRoundTrip : Obligations.EncodingRoundTrip := by
  unfold Obligations.EncodingRoundTrip
  refine ⟨?_, ?_, ?_⟩
  · intro i rest hw hs
    obtain ⟨f, hf⟩ := Option.isSome_iff_exists.1 hs
    rw [encode_of_toFields hf, i.bytes_of_toFields hf]
    exact ⟨f.image_length, decode_image (ofNat_leNat_leBytes f.ext (Instr.extFits hw hf)) (Laws.Encoding.statement i hw f hf) rest⟩
  · intro bs i rest hd hs
    obtain ⟨f, rfl, hf⟩ := decode_ok hd
    obtain ⟨ht, hw⟩ | ⟨_, rfl⟩ := Fields.decode_cases hf
    · exact ⟨by rw [encode_of_toFields ht], hw⟩
    · contradiction
  · intro f rest hf
    exact decode_image (f := f) rfl (by simp only [Fields.decode, hf, Bool.false_eq_true, if_false]) rest

/-- Settles O58: each word runs through the decoder. -/
theorem decodeWords : Obligations.DecodeWords := by
  unfold Obligations.DecodeWords
  exact ⟨rfl, rfl, rfl, rfl, rfl, rfl, rfl, rfl, rfl, rfl, rfl, rfl⟩

end

section
/-! ### Control, special registers and segment registers (R58, R59, R123, R137 to R142, R388, R390) -/

namespace Sys2Proof.Machine

open Sys2Proof

section
variable (s : State) (h : Hdr) (sw sc lim ord : Bool) (sp : Space) (r : SReg)

theorem exec_nop (len : Len) : exec (.nop h len) s = execNop h len s := rfl
theorem exec_yield : exec (.yield sw) s = execYield sw s := rfl
theorem exec_regang (a : BitVec 8) : exec (.regang sw a) s = execRegang sw a s := rfl
theorem exec_exit : exec (.exit h) s = execExit h s := rfl
theorem exec_trap (n : BitVec 8) : exec (.trap h n) s = execTrap h n s := rfl
theorem exec_bkpt : exec (.bkpt h) s = execBkpt h s := rfl
theorem exec_rtt : exec (.rtt sw) s = execRtt sw s := rfl
theorem exec_rdsr (d : BitVec 8) : exec (.rdsr h sc d r) s = execRdsr h sc d r s := rfl
theorem exec_wrsr (a : Opnd) : exec (.wrsr h r a) s = execWrsr h r a s := rfl
theorem exec_rdcyc (d : BitVec 8) : exec (.rdcyc h sc ord d) s = execRdcyc h sc ord d s := rfl
theorem exec_setseg (a : BitVec 8) : exec (.setseg sw lim sp a) s = execSetseg sw lim sp a s := rfl
theorem exec_getseg (d : BitVec 6) : exec (.getseg sw lim sp d) s = execGetseg sw lim sp d s := rfl
theorem exec_savectx (a : BitVec 8) : exec (.savectx sw a) s = execSavectx sw a s := rfl
theorem exec_loadctx (a : BitVec 8) : exec (.loadctx sw a) s = execLoadctx sw a s := rfl
theorem exec_tlbinv (dev : Bool) (rng : InvRange) : exec (.tlbinv sw dev rng) s = execTlbinv sw dev rng s := rfl
theorem exec_unassignedOpcode (op : BitVec 9) (c : BitVec 2) : exec (.unassignedOpcode op c) s = execUnassignedOpcode op c s := rfl
end

section
variable {s : State} {v : View} {h : Hdr} {sw : Bool}

/-- A stop by a trap of the instruction leaves nothing of the effect. -/
@[simp] theorem View.stop_outcome (code : Trap) (m : Mask) (x : DWord) (n : Byte) (sw : Bool) :
    (v.stop code m x n).outcome s v sw = .next (s.traps v (v.trapRec code m x n)) := rfl

/-- An issue that may run and whose body traps. -/
theorem issueAs_traps {k : Kindly} {len : Nat} {us : View → List Use} {body : View → State → Chk State} {us' : List Use} {code : Trap} {m : Mask}
    {x : DWord} {n : Byte} (hi : s.issuing v k us') (hus : us v = us') (hb : body v (s.consume v us') = .error (v.stop code m x n)) :
    issueAs k sw len us body s = .next (s.traps v (v.trapRec code m x n)) := by
  subst hus
  rw [issueAs_body hi, hb]
  rfl

theorem execRegang_unparted {a : BitVec 8} (hi : s.issuing v perLane (useS a v.g.lanes)) (hg : v.f.gangs.length ≤ 1) :
    execRegang sw a s = .next (s.retire v sw 8) := by
  obtain ⟨hv, hm⟩ := hi
  have whole : v.f.parted = false := by simpa [Fibre.parted] using hg
  simp only [execRegang, hv, View.checks_ok hm, whole, Bool.not_false, if_true]

theorem execExit_idle (hi : s.issuing v perLane []) (hm : v.active h = 0) : execExit h s = .next (s.retire v h.sw 8) := by
  simp only [execExit, hi.1, View.checks_ok hi.2, hm, BEq.rfl, if_true]

theorem execExit_leaves (hi : s.issuing v perLane []) (hm : v.active h ≠ 0) : execExit h s =
    .next ((s.modFibre v.f.ref fun f => f.exitLanes v.iss.gang (v.active h) h.sw).meetAfterExit v.f.ref) := by
  simp only [execExit, hi.1, View.checks_ok hi.2, beq_false_of_ne hm, Bool.false_eq_true, if_false]

theorem execTrap_traps {n : BitVec 8} (hi : s.issuing v perLane []) (hm : v.active h ≠ 0) :
    execTrap h n s = .next (s.traps v (v.trapRec .softTrap (v.active h) 0 n)) := by
  unfold execTrap issue
  exact issueAs_traps hi rfl (by simp only [beq_false_of_ne hm, Bool.false_eq_true, if_false])

theorem execBkpt_traps (hi : s.issuing v perLane []) (hm : v.active h ≠ 0) :
    execBkpt h s = .next (s.traps v (v.trapRec .breakpoint (v.active h) 0 0)) := by
  unfold execBkpt issue
  exact issueAs_traps hi rfl (by simp only [beq_false_of_ne hm, Bool.false_eq_true, if_false])

theorem execTrap_idle {n : BitVec 8} (hi : s.issuing v perLane []) (hm : v.active h = 0) : execTrap h n s = .next (v.after h.sw 8 [] id s) := by
  unfold execTrap issue
  exact issueAs_done hi rfl (by simp only [hm, BEq.rfl, if_true, id])

theorem execBkpt_idle (hi : s.issuing v perLane []) (hm : v.active h = 0) : execBkpt h s = .next (v.after h.sw 8 [] id s) := by
  unfold execBkpt issue
  exact issueAs_done hi rfl (by simp only [hm, BEq.rfl, if_true, id])

end

end Sys2Proof.Machine

open Sys2Proof Sys2Proof.Machine

/-- Settles O11, instruction by instruction, over what an issue that may run answers. -/
theorem plainControlAndTraps : Obligations.PlainControlAndTraps := by
  unfold Obligations.PlainControlAndTraps
  refine ⟨fun s v sw h => ⟨?nop, ?yield, ?regang, ?idle, ?leaves⟩, fun s v h n hi => ⟨?traps, ?none⟩⟩
  case nop => exact fun len hi => (exec_nop s h len).trans (issueAs_done (eff := id) hi rfl rfl)
  case yield =>
    intro hi
    rw [exec_yield]
    unfold execYield issue
    exact issueAs_done hi rfl rfl
  case regang => exact fun a hi hg => (exec_regang s sw a).trans (execRegang_unparted hi hg)
  case idle => exact fun hi hm => (exec_exit s h).trans (execExit_idle hi hm)
  case leaves => exact fun hi hm => (exec_exit s h).trans (execExit_leaves hi hm)
  case traps => exact fun hm => ⟨(exec_trap s h n).trans (execTrap_traps hi hm), (exec_bkpt s h).trans (execBkpt_traps hi hm)⟩
  case none => exact fun hm => ⟨(exec_trap s h n).trans (execTrap_idle hi hm), (exec_bkpt s h).trans (execBkpt_idle hi hm)⟩

end

section
/-! ### Special registers and segment registers (R58, R59, R139 to R142, R390) -/

namespace Sys2Proof.Machine

open Sys2Proof

section
variable {s : State} {v : View} {h : Hdr} {sw sc ord : Bool} {sp : Space} {r : SReg}

theorem execRdsr_next {d : BitVec 8} (hi : s.issuing v perLane (useDst sc r.wide d (v.mask h sc))) :
    execRdsr h sc d r s = .next (v.after h.sw 8 (useDst sc r.wide d (v.mask h sc)) (fun s =>
      s.upds v.f (v.dstUpds sc r.wide d ((v.runs h sc).map fun l => (l, v.readSr s l r)))) s) := by
  unfold execRdsr issue
  exact issueAs_done hi rfl rfl

theorem View.waitsOrd_eq_false (ho : ord = true → v.f.out = [] ∨ v.runs h sc = []) : v.waitsOrd h sc ord = false := by
  unfold View.waitsOrd
  cases ord with
  | false => rfl
  | true => obtain e | e := ho rfl <;> simp [e]

theorem View.waitsOrd_eq_true (ho : v.f.out ≠ []) (hr : v.runs h sc ≠ []) : v.waitsOrd h sc true = true := by
  simp [View.waitsOrd, ho, hr]

theorem execRdcyc_next {d : BitVec 8} (ho : ord = true → v.f.out = [] ∨ v.runs h sc = [])
    (hi : s.issuing v perLane (useDst sc true d (v.mask h sc))) :
    execRdcyc h sc ord d s = .next (v.after h.sw 8 (useDst sc true d (v.mask h sc)) (fun s =>
      s.upds v.f (v.dstUpds sc true d ((v.runs h sc).map fun l => (l, s.cyc[v.core]!)))) s) := by
  have ready := View.waitsOrd_eq_false ho
  unfold execRdcyc issue
  exact issueAs_done hi (by simp only [ready, Bool.false_eq_true, if_false]) (by simp only [ready, Bool.false_eq_true, if_false])

theorem execRdcyc_holds {d : BitVec 8} (ho : v.f.out ≠ []) (hr : v.runs h sc ≠ []) (hi : s.issuing v perLane []) :
    execRdcyc h sc true d s = .next (s.modFibre v.f.ref fun f => { f with st := .parked .results, age := 0 }) := by
  have waits := View.waitsOrd_eq_true (v := v) ho hr
  have hi' : s.issuing v perLane (if v.waitsOrd h sc true then [] else useDst sc true d (v.mask h sc)) := by rwa [waits]
  unfold execRdcyc issue
  rw [issueAs_body (us := fun v => if v.waitsOrd h sc true then [] else useDst sc true d (v.mask h sc)) hi']
  simp only [waits, if_true]
  rfl

section
variable {a : Opnd} (hi : s.issuing v perLane (useSrc false r.wide a (v.active h)))
include hi

theorem execWrsr_idle (hm : v.active h = 0) : execWrsr h r a s = .next (v.after h.sw 8 (useSrc false r.wide a (v.active h)) id s) := by
  unfold execWrsr issue
  exact issueAs_done hi rfl (by simp only [hm, BEq.rfl, if_true, id])

theorem execWrsr_fibre (hm : v.active h ≠ 0) (hr : r ≠ .rng) : execWrsr h r a s = .next (v.after h.sw 8 (useSrc false r.wide a (v.active h))
    (fun s => s.modFibre v.f.ref fun f => f.writeSr r (v.src false (if r.wide then .n64 else .n32) a (lowest (v.active h)))) s) := by
  unfold execWrsr issue
  exact issueAs_done hi rfl (by simp only [beq_false_of_ne hm, beq_false_of_ne hr, Bool.false_eq_true, if_false])

theorem execWrsr_rng (hm : v.active h ≠ 0) (hr : r = .rng) : execWrsr h r a s = .next (v.after h.sw 8 (useSrc false r.wide a (v.active h))
    (fun s => s.modFibre v.f.ref fun f => { f with
      rng := Row.select (v.active h) (mkRow fun l => (v.src false (if r.wide then .n64 else .n32) a l).setWidth 32) f.rng }) s) := by
  unfold execWrsr issue
  exact issueAs_done hi rfl (by simp only [beq_false_of_ne hm, hr, BEq.rfl, Bool.false_eq_true, if_false, if_true])
end

theorem segBase_segOf (sp : Space) (x : VA) : segBase (segOf sp) x = if sp = .cl then 0 else x := by cases sp <;> rfl

section
variable {a : BitVec 8} (hi : s.issuing v privileged (useS a v.g.lanes)) (hs : v.c.sysop = true)
include hi hs

theorem execSetseg_base : execSetseg sw false sp a s = .next (v.after sw 8 (useS a v.g.lanes) (fun s => s.modFibre v.f.ref fun f =>
    { f with seg := f.seg.set! (segOf sp) { f.segment (segOf sp) with base := if sp = .cl then 0 else (v.sval a).setWidth 56 } }) s) := by
  unfold execSetseg issuePriv
  exact issueAs_done hi rfl (by simp only [View.sysop, View.require, hs, if_true, ← segBase_segOf]; rfl)

theorem execSetseg_limit (hx : (v.sval a).toNat ≤ 2 ^ 56) : execSetseg sw true sp a s = .next (v.after sw 8 (useS a v.g.lanes) (fun s =>
    s.modFibre v.f.ref fun f => { f with seg := f.seg.set! (segOf sp) { f.segment (segOf sp) with limit := v.sval a } }) s) := by
  unfold execSetseg issuePriv
  exact issueAs_done hi rfl (by simp only [View.sysop, View.require, hs, if_true, decide_eq_true hx]; rfl)

theorem execSetseg_beyond (hx : 2 ^ 56 < (v.sval a).toNat) : execSetseg sw true sp a s =
    .next (s.traps v (v.trapRec .segmentLimit v.g.lanes (v.sval a) 0)) := by
  unfold execSetseg issuePriv
  exact issueAs_traps hi rfl
    (by simp only [View.sysop, View.require, hs, if_true, decide_eq_false hx.not_ge, Bool.false_eq_true, if_false]; rfl)
end

theorem execGetseg_limit {d : BitVec 6} (hi : s.issuing v perLane (defS d.toNat v.g.lanes)) : execGetseg sw true sp d s =
    .next (v.after sw 8 (defS d.toNat v.g.lanes) (fun s => s.upd v.f (.s d.toNat (v.f.segment (segOf sp)).limit)) s) := by
  unfold execGetseg issue
  exact issueAs_done hi rfl rfl

theorem execGetseg_base {d : BitVec 6} (hi : s.issuing v perLane (defS d.toNat v.g.lanes)) : execGetseg sw false sp d s =
    .next (v.after sw 8 (defS d.toNat v.g.lanes)
      (fun s => s.upd v.f (.s d.toNat (if sp = .cl then 0 else (v.f.segment (segOf sp)).base.setWidth 64))) s) := by
  have base : (segBase (segOf sp) (v.f.segment (segOf sp)).base).setWidth 64 =
      if sp = .cl then 0 else (v.f.segment (segOf sp)).base.setWidth 64 := by
    rw [segBase_segOf]
    split <;> rfl
  unfold execGetseg issue
  exact issueAs_done hi rfl (by simp only [base, Bool.false_eq_true, if_false])

end

/-! What a write of sr.fpm leaves in each field (R97). -/

/-- The word of sr.fpm by its fields lov, the modes of bits 11:4, and rm (R97). -/
def fpmWord (lov : BitVec 2) (modes : BitVec 8) (rm : BitVec 3) : BitVec 32 := 0#18 ++ lov ++ modes ++ 0#1 ++ rm

theorem fpmWord_eq_cast (lov : BitVec 2) (modes : BitVec 8) (rm : BitVec 3) :
    fpmWord lov modes rm = BitVec.cast (by decide) (0#18 ++ lov ++ modes ++ 0#1 ++ rm) := rfl

theorem fpmWord_fields (lov : BitVec 2) (modes : BitVec 8) (rm : BitVec 3) :
    (fpmWord lov modes rm).extractLsb' 4 8 = modes ∧ (fpmWord lov modes rm).extractLsb' 0 3 = rm ∧
    (fpmWord lov modes rm).extractLsb' 12 2 = lov ∧ (fpmWord lov modes rm).getLsbD 3 = false ∧
    (fpmWord lov modes rm).extractLsb' 14 18 = 0#18 := by
  simp (disch := decide) only [fpmWord_eq_cast, extractLsb'_cast, BitVec.getLsbD_cast, BitVec.extractLsb'_append_eq_of_le,
    BitVec.extractLsb'_append_eq_of_add_le, BitVec.getLsbD_append, BitVec.extractLsb'_eq_self, Nat.reduceSub, Nat.reduceLT, if_true, if_false,
    BitVec.getLsbD_zero, and_self]

theorem writeFpm_eq (old x : BitVec 32) : writeFpm old x =
    fpmWord (if x.extractLsb' 12 2 = 3#2 then old.extractLsb' 12 2 else x.extractLsb' 12 2) (x.extractLsb' 4 8)
      (if (x.extractLsb' 0 3).toNat < 6 then x.extractLsb' 0 3 else old.extractLsb' 0 3) := by
  have rm : (if (x.extractLsb' 0 3).toNat < 6 then x.extractLsb' 0 3 else old.extractLsb' 0 3) =
      if 6 ≤ (x.extractLsb' 0 3).toNat then old.extractLsb' 0 3 else x.extractLsb' 0 3 := by
    simp only [← Nat.not_lt, ite_not]
  simp only [writeFpm, fpmWord, rm, beq_iff_eq]
  rfl

theorem Fibre.writeSr_fpm (f : Fibre) (x : DWord) : f.writeSr .fpm x = { f with fpm := writeFpm f.fpm (x.setWidth 32) } := rfl

theorem Fibre.writeSr_xretry (f : Fibre) (x : DWord) : f.writeSr .xretry x =
    { f with xretry := if (x.setWidth 32 : Word) &&& 15#32 = 0 then 1 else (x.setWidth 32 : Word) &&& 15#32 } := by
  simp only [Fibre.writeSr, writeXretry, beq_iff_eq]
  rfl

/-- A register that programs only read, and sr.rng, which is written lane by lane, ignore the write (R7, R59). -/
theorem Fibre.writeSr_ignored (f : Fibre) (x : DWord) {r : SReg} (h : r ∉ [SReg.fps, .le8s, .fp4x, .xretry, .epc, .fpm]) : f.writeSr r x = f := by
  cases r with
  | fps | le8s | fp4x | xretry | epc | fpm => simp at h
  | _ => rfl

end Sys2Proof.Machine

open Sys2Proof Sys2Proof.Machine

/-- Settles O12: what each instruction answers, then what a write leaves in each register. -/
theorem specialRegisters : Obligations.SpecialRegisters := by
  unfold Obligations.SpecialRegisters
  refine ⟨fun s v h sc d r sw sp => ⟨?rdsr, ?rdcyc, ?wrsr, ?setseg, ?getseg⟩, fun f x => ⟨rfl, rfl, rfl, f.writeSr_xretry x, rfl, ?fpm, ?ignored⟩⟩
  case rdsr => exact fun hi => (exec_rdsr s h sc r d).trans (execRdsr_next hi)
  case rdcyc =>
    refine fun ord => ⟨fun ho hi => (exec_rdcyc s h sc ord d).trans (execRdcyc_next ho hi), ?_⟩
    rintro rfl ho hr hi
    exact (exec_rdcyc s h sc true d).trans (execRdcyc_holds ho hr hi)
  case wrsr =>
    intro a hi
    rw [exec_wrsr]
    exact ⟨execWrsr_idle hi, execWrsr_fibre hi, execWrsr_rng hi⟩
  case setseg =>
    intro a hi hs
    rw [exec_setseg, exec_setseg]
    exact ⟨execSetseg_base hi hs, execSetseg_limit hi hs, execSetseg_beyond hi hs⟩
  case getseg =>
    intro d hi
    rw [exec_getseg, exec_getseg]
    exact ⟨execGetseg_limit hi, execGetseg_base hi⟩
  case fpm =>
    obtain ⟨modes, rm, lov, three, rest⟩ := fpmWord_fields
      (if (x.setWidth 32).extractLsb' 12 2 = 3#2 then f.fpm.extractLsb' 12 2 else (x.setWidth 32).extractLsb' 12 2)
      ((x.setWidth 32).extractLsb' 4 8)
      (if ((x.setWidth 32).extractLsb' 0 3).toNat < 6 then (x.setWidth 32).extractLsb' 0 3 else f.fpm.extractLsb' 0 3)
    rw [← writeFpm_eq] at modes rm lov three rest
    exact ⟨writeFpm f.fpm (x.setWidth 32), f.writeSr_fpm x, modes, rm, lov, three, rest⟩
  case ignored => exact fun r hr => f.writeSr_ignored x hr

end

section
/-! ### The order of the checks of R67, steps 5 to 9, and the privileged instructions (R65, R387) -/

namespace Sys2Proof.Machine

open Sys2Proof

theorem getLsbD_maskOf (p : Nat → Bool) {l : Nat} (h : l < 32) : (maskOf p).getLsbD l = p l := by
  unfold maskOf
  rw [BitVec.getLsbD_setWidth, BitVec.getLsbD_ofBoolListLE]
  simp [upTo, h]

theorem getLsbD_unionMask (ms : List Mask) (l : Nat) : (unionMask ms).getLsbD l = ms.any fun m => m.getLsbD l := by
  suffices ∀ a : Mask, (ms.foldl (· ||| ·) a).getLsbD l = (a.getLsbD l || ms.any fun m => m.getLsbD l) by
    simpa [unionMask] using this 0
  induction ms with
  | nil => simp
  | cons m ms ih => simp [ih, Bool.or_assoc]

/-- The lanes that some use of a list puts in a mask. -/
def useLanes (us : List Use) (p : Use → Mask) : Mask := maskOf fun l => us.any fun u => (p u).getLsbD l

theorem unionMask_map (us : List Use) (p : Use → Mask) : unionMask (us.map p) = useLanes us p := by
  apply BitVec.eq_of_getLsbD_eq
  intro l hl
  simp only [getLsbD_unionMask, useLanes, getLsbD_maskOf _ hl, List.any_map, Function.comp_def]

theorem Except.error_bind {ε α β : Type} (e : ε) (f : α → Except ε β) : (Except.error e >>= f) = .error e := rfl
theorem Except.ok_bind {ε α β : Type} (a : α) (f : α → Except ε β) : (Except.ok a >>= f) = f a := rfl

section
variable {s : State} {v : View} {k : Kindly} {us : List Use}

theorem View.require_bind {α : Type} (v : View) (code : Trap) (b : Bool) (f : Unit → Chk α) :
    (v.require code b >>= f) = if b = true then f () else .error (v.stop code v.g.lanes) := by
  cases b <;> rfl

theorem View.trapIf_bind {α : Type} (v : View) (code : Trap) (m : Mask) (f : Unit → Chk α) :
    (v.trapIf code m >>= f) = if m = 0 then f () else .error (v.stop code m) := by
  by_cases h : m = 0 <;> simp only [View.trapIf, beq_iff_eq, h, if_true, if_false] <;> rfl

/-- The checks of steps 5 to 9, each made when those before it have found nothing. -/
theorem View.checks_eq (v : View) (k : Kindly) (us : List Use) : v.checks k us =
    if (!k.priv || v.f.hmode) = true then
      if (!k.coll || !v.f.parted) = true then
        if useLanes us (·.outside v) = 0 then
          if useLanes us (·.hazard v) = 0 then
            if v.c.dbg = true then
              if useLanes us (·.dead v) = 0 then .ok () else .error (v.stop .deadRead (useLanes us (·.dead v)))
            else .ok ()
          else .error (v.stop .markerHazard (useLanes us (·.hazard v)))
        else .error (v.stop .registerBound (useLanes us (·.outside v)))
      else .error (v.stop .collectiveDivergence v.g.lanes)
    else .error (v.stop .permission v.g.lanes) := by
  simp only [View.checks, View.checkUses, View.require_bind, View.trapIf_bind]
  simp only [View.trapIf, unionMask_map, beq_iff_eq] <;> rfl

/-- What R67 says of the outcome `x` of an instruction word with the register uses `us`, where `rest` holds when nothing of steps 5 to 9 is met. -/
def View.Ordered (s : State) (v : View) (k : Kindly) (us : List Use) (x : Result) (rest : Prop) : Prop :=
  let trap := fun code m => x = .next (s.traps v (v.trapRec code m 0 0))
  (k.priv = true → v.f.hmode = false → trap .permission v.g.lanes) ∧
  ((k.priv = true → v.f.hmode = true) →
    (k.coll = true → 1 < v.f.gangs.length → trap .collectiveDivergence v.g.lanes) ∧
    ((k.coll = true → v.f.gangs.length ≤ 1) →
      (useLanes us (·.outside v) ≠ 0 → trap .registerBound (useLanes us (·.outside v))) ∧
      (useLanes us (·.outside v) = 0 →
        (useLanes us (·.hazard v) ≠ 0 → trap .markerHazard (useLanes us (·.hazard v))) ∧
        (useLanes us (·.hazard v) = 0 →
          (v.c.dbg = true → useLanes us (·.dead v) ≠ 0 → trap .deadRead (useLanes us (·.dead v))) ∧
          ((v.c.dbg = true → useLanes us (·.dead v) = 0) → rest)))))

/-- An instruction whose outcome is the trap of its first failing check is ordered. -/
theorem View.ordered {x : Result} {rest : Prop}
    (stop : ∀ code m, v.checks k us = .error (v.stop code m) → x = .next (s.traps v (v.trapRec code m 0 0)))
    (pass : v.checks k us = .ok () → rest) : View.Ordered s v k us x rest := by
  have priv (hp : k.priv = true → v.f.hmode = true) : (!k.priv || v.f.hmode) = true := by
    cases e : k.priv with
    | false => rfl
    | true => exact hp e
  have coll (hc : k.coll = true → v.f.gangs.length ≤ 1) : (!k.coll || !v.f.parted) = true := by
    cases e : k.coll with
    | false => rfl
    | true => simpa [Fibre.parted] using hc e
  refine ⟨fun hp hh => stop _ _ ?_, fun hp => ⟨fun hc hg => stop _ _ ?_, fun hc => ⟨fun ho => stop _ _ ?_, fun ho => ⟨fun hh => stop _ _ ?_,
    fun hh => ⟨fun hd hr => stop _ _ ?_, fun hr => pass ?_⟩⟩⟩⟩⟩
  · rw [View.checks_eq, if_neg (by simp [hp, hh])]
  · rw [View.checks_eq, if_pos (priv hp), if_neg (by simp [Fibre.parted, hc, hg])]
  · rw [View.checks_eq, if_pos (priv hp), if_pos (coll hc), if_neg ho]
  · rw [View.checks_eq, if_pos (priv hp), if_pos (coll hc), if_pos ho, if_neg hh]
  · rw [View.checks_eq, if_pos (priv hp), if_pos (coll hc), if_pos ho, if_pos hh, if_pos hd, if_neg hr]
  · rw [View.checks_eq, if_pos (priv hp), if_pos (coll hc), if_pos ho, if_pos hh]
    split
    next hd => rw [if_pos (hr hd)]
    next => rfl

theorem issueAs_error {sw : Bool} {len : Nat} {us : View → List Use} {body : View → State → Chk State} {e : Stop} (hv : s.view? = some v)
    (hc : v.checks k (us v) = .error e) : issueAs k sw len us body s = e.outcome s v sw := by
  simp only [issueAs, hv, hc, Except.error_bind]

theorem issueAs_ok {sw : Bool} {len : Nat} {us : View → List Use} {body : View → State → Chk State} (hv : s.view? = some v)
    (hc : v.checks k (us v) = .ok ()) : issueAs k sw len us body s = match body v (s.consume v (us v)) with
      | .ok s' => .next ((s'.noteDead v (us v)).retire v sw len)
      | .error e => e.outcome s v sw := by
  simp only [issueAs, hv, hc, Except.ok_bind] <;> rfl

theorem issueAs_ordered (k : Kindly) (sw : Bool) (len : Nat) (us : View → List Use) (body : View → State → Chk State)
    (hv : s.view? = some v) :
    View.Ordered s v k (us v) (issueAs k sw len us body s) (issueAs k sw len us body s = match body v (s.consume v (us v)) with
      | .ok s' => .next ((s'.noteDead v (us v)).retire v sw len)
      | .error e => e.outcome s v sw) :=
  View.ordered (fun _ _ hc => issueAs_error hv hc) fun hc => issueAs_ok hv hc

section
variable {sw : Bool} {len : Nat} {us : View → List Use} {mem : MemBody} (hv : s.view? = some v) (hr : v.replaying = none)
include hv hr

theorem issueMemAs_traps {code : Trap} {m : Mask} (hc : v.checks k (us v) = .error (v.stop code m)) :
    issueMemAs k sw len us mem s = .next (s.traps v (v.trapRec code m 0 0)) := by
  simp only [issueMemAs, hv, hr, hc, Except.error_bind]
  rfl

theorem issueMemAs_holds (hc : v.checks k (us v) = .ok ()) (hf : v.f.fenced = true) :
    issueMemAs k sw len us mem s = .next (s.modFibre v.f.ref fun f => { f with st := .parked .results, age := 0 }) := by
  simp only [issueMemAs, hv, hr, hc, hf, Except.ok_bind, if_true, Except.error_bind]
  rfl

theorem issueMemAs_body_traps {code : Trap} {m : Mask} {x : DWord} (hc : v.checks k (us v) = .ok ()) (hf : v.f.fenced = false)
    (hb : mem v s none = .error (v.stop code m x)) : issueMemAs k sw len us mem s = .next (s.traps v (v.trapRec code m x 0)) := by
  simp only [issueMemAs, hv, hr, hc, hf, hb, Except.ok_bind, Bool.false_eq_true, if_false]
  rfl

theorem issueMemAs_performed {p : Performed} (hc : v.checks k (us v) = .ok ()) (hf : v.f.fenced = false) (hb : mem v s none = .ok (p, [])) :
    issueMemAs k sw len us mem s = .next (v.performed sw len (us v) p) := by
  simp only [issueMemAs, hv, hr, hc, hf, hb, Except.ok_bind, Bool.false_eq_true, if_false, View.performed, firstErr, Option.bind]
  rcases p with ⟨t, now, held, out, done⟩
  cases out <;> rfl

theorem issueMemAs_ordered : View.Ordered s v k (us v) (issueMemAs k sw len us mem s)
    ((v.f.fenced = true → issueMemAs k sw len us mem s = .next (s.modFibre v.f.ref fun f => { f with st := .parked .results, age := 0 })) ∧
     (v.f.fenced = false → ∀ p, mem v s none = .ok (p, []) → issueMemAs k sw len us mem s = .next (v.performed sw len (us v) p))) :=
  View.ordered (fun _ _ hc => issueMemAs_traps hv hr hc) fun hc => ⟨issueMemAs_holds hv hr hc, fun hf _ => issueMemAs_performed hv hr hc hf⟩
end

theorem issueBranch_ordered (h : Hdr) (len : Nat) (us : View → List Use) (br : View → State → Chk (State × (Nat → VA)))
    (hv : s.view? = some v) :
    View.Ordered s v perLane (us v) (issueBranch h len us br s) (∀ t next, br v (s.consume v (us v)) = .ok (t, next) →
      issueBranch h len us br s = .next (v.branched h len (us v) (fun _ => t) next s)) := by
  refine View.ordered (fun code m hc => ?_) fun hc t next hb => ?_
  · simp only [issueBranch, hv, hc, Except.error_bind, View.stop_outcome]
  · simp only [issueBranch, hv, hc, hb, Except.ok_bind]
    rfl

theorem execRegang_ordered (sw : Bool) (a : BitVec 8) (hv : s.view? = some v) :
    View.Ordered s v perLane (useS a v.g.lanes) (execRegang sw a s) (∃ t, execRegang sw a s = .next t) := by
  refine View.ordered (fun code m hc => ?_) fun hc => ?_
  · simp only [execRegang, hv, hc, View.stop_outcome]
  · simp only [execRegang, hv, hc, View.stop_outcome]
    split_ifs <;> exact ⟨_, rfl⟩

theorem execExit_ordered (h : Hdr) (hv : s.view? = some v) :
    View.Ordered s v perLane [] (execExit h s) (∃ t, execExit h s = .next t) := by
  refine View.ordered (fun code m hc => ?_) fun hc => ?_
  · simp only [execExit, hv, hc, View.stop_outcome]
  · simp only [execExit, hv, hc]
    split_ifs <;> exact ⟨_, rfl⟩

theorem execRtt_denied {sw : Bool} {code : Trap} {m : Mask} (hv : s.view? = some v) (hc : v.checks privileged [] = .error (v.stop code m)) :
    execRtt sw s = .next (s.traps v (v.trapRec code m 0 0)) := by
  simp only [execRtt, hv, hc, Except.error_bind, View.stop_outcome]

theorem execRtt_ordered (sw : Bool) (hv : s.view? = some v) :
    View.Ordered s v privileged [] (execRtt sw s) (∃ t, execRtt sw s = .next t) := by
  refine View.ordered (fun _ _ hc => execRtt_denied hv hc) fun hc => ?_
  simp only [execRtt, hv, hc, Except.ok_bind, View.require]
  split_ifs <;> exact ⟨_, rfl⟩

/-! The five privileged instructions. -/

/-- Outside handler mode step 5 is the first check that fails. -/
theorem View.checks_privileged (hh : v.f.hmode = false) (us : List Use) : v.checks privileged us = .error (v.stop .permission v.g.lanes) := by
  rw [View.checks_eq, if_neg (by simp [hh])]

theorem View.sysop_denied (hs : v.c.sysop = false) : v.sysop = .error (v.stop .permission v.g.lanes) := by
  simp only [View.sysop, View.require, hs, Bool.false_eq_true, if_false]

theorem View.blockPlaces_denied (hs : v.c.sysop = false) (t : State) (addr : Nat) (need : Need) (rep : Option Replay) :
    v.blockPlaces t addr need rep = .error (v.stop .permission v.g.lanes) := by
  simp only [View.blockPlaces, View.sysop_denied hs, Except.error_bind]

end

end Sys2Proof.Machine

open Sys2Proof Sys2Proof.Machine

/-- Settles O13: whatever wraps the checks, its outcome is the trap of the first that fails. -/
theorem checksComeInOrder : Obligations.ChecksComeInOrder := by
  unfold Obligations.ChecksComeInOrder
  intro s v k sw len h a us body mem br hv
  exact ⟨issueAs_ordered k sw len us body hv, issueMemAs_ordered hv, issueBranch_ordered h len us br hv, execRegang_ordered sw a hv,
    execExit_ordered h hv, execRtt_ordered sw hv⟩

/-- Settles O14: outside handler mode the check of step 5 traps, in handler mode the first check of step 10. -/
theorem privilegedInstructionsTrap : Obligations.PrivilegedInstructionsTrap := by
  unfold Obligations.PrivilegedInstructionsTrap
  intro s v sw lim dev sp a rng hv
  simp only [exec_rtt, exec_setseg, exec_savectx, exec_loadctx, exec_tlbinv]
  unfold execSetseg execTlbinv issuePriv
  refine ⟨fun hh hr => ?_, fun hs => ⟨?setseg, ?all, ?range, ?block⟩⟩
  · have denied := View.checks_privileged hh
    exact ⟨execRtt_denied hv (denied _), issueAs_error hv (denied _), issueMemAs_traps hv hr (denied _), issueMemAs_traps hv hr (denied _),
      issueAs_error hv (denied _)⟩
  case setseg => exact fun hm => issueAs_traps ⟨hv, hm⟩ rfl (by simp only [View.sysop_denied hs, Except.error_bind])
  case all => exact fun hm => issueAs_traps ⟨hv, hm⟩ rfl (by simp only [View.sysop_denied hs, Except.error_bind])
  case range => exact fun x y hm => issueAs_traps ⟨hv, hm⟩ rfl (by simp only [View.sysop_denied hs, Except.error_bind])
  case block =>
    intro hr hf hm
    have checks := View.checks_ok hm
    exact ⟨issueMemAs_body_traps hv hr checks hf (by simp only [View.blockPlaces_denied hs, Except.error_bind]),
      issueMemAs_body_traps hv hr checks hf (by simp only [View.blockPlaces_denied hs, Except.error_bind])⟩

end

section
/-! ### The fetch and the step (R36 to R38, R64, R67, R199) -/

namespace Sys2Proof.Machine

open Sys2Proof

theorem State.fibre?_ref {s : State} {r : FibreRef} {f : Fibre} (h : s.fibre? r = some f) : f.ref = r := by
  simpa using List.find?_some h

/-- What a view names, it finds in the state. -/
theorem State.view?_eq_some {s : State} {v : View} (h : s.view? = some v) :
    s.cur = some v.iss ∧ s.fibre? v.iss.f = some v.f ∧ v.f.ref = v.iss.f ∧ v.f.gangs.find? (fun g => g.id == v.iss.gang) = some v.g ∧
      s.slot? v.f = some v.sl := by
  simp only [State.view?, State.viewOf, Option.bind_eq_bind, Option.bind_eq_some_iff, Option.some.injEq] at h
  obtain ⟨i, hi, f, hf, g, hg, sl, hsl, tm, -, cl, -, k, -, rcd, -, c, -, rfl⟩ := h
  exact ⟨hi, hf, State.fibre?_ref hf, hg, hsl⟩

section
variable {s : State} {v : View}

/-- Keeping a translation changes nothing that a fetched word depends on. -/
theorem State.codeWord_keepXlat (a b : Agent) (e : TlbEntry) (m : Mapped) (w : Nat) : (s.keepXlat b e).codeWord a m w = s.codeWord a m w := by
  unfold State.keepXlat
  split <;> rfl

theorem State.codeWord_modFibre (r : FibreRef) (u : Fibre → Fibre) (a : Agent) (m : Mapped) (w : Nat) :
    (s.modFibre r u).codeWord a m w = s.codeWord a m w := rfl

theorem State.dirtyCopy_eq_none {w : Nat} (h : ∀ c ∈ s.copies, c.word = w → c.dirty = false) (a : Agent) : s.dirtyCopy a w = none := by
  have own (p : CopyAt) : (s.copies.find? fun c => c.pos == p && c.word == w && c.dirty) = none := by
    simp only [List.find?_eq_none, Bool.and_eq_true, beq_iff_eq, not_and, Bool.not_eq_true]
    exact fun c hc hp => h c hc hp.2
  have any : (s.copies.find? fun c => c.word == w && c.dirty) = none := by
    simp only [List.find?_eq_none, Bool.and_eq_true, beq_iff_eq, not_and, Bool.not_eq_true]
    exact h
  simp only [State.dirtyCopy, own, any]
  rfl

/-- A word of code that no cache holds dirty is home's. -/
theorem State.codeWord_clean {w : Nat} (h : ∀ c ∈ s.copies, c.word = w → c.dirty = false) (a : Agent) (m : Mapped) :
    (s.codeWord a m w).1 = s.homeWordAs m.key w := by
  simp only [State.codeWord, State.dirtyCopy_eq_none h]

/-- The words from the one at the PC to the end of its 32-byte block. -/
def View.codeWords (v : View) (s : State) (m : Mapped) : List (Word × Bool) :=
  (upTo (ceilDiv (32 - v.iss.pc.toNat % 32) 4)).map fun i => s.codeWord v.agent m (m.pa / 4 + i)

/-- Their bytes, lowest address first. -/
def codeBytes (ws : List (Word × Bool)) : List Byte := ws.flatMap fun w => leBytes 4 w.1.toNat

theorem View.fetch_unplaced {e : Stop} (h : v.fetchPlace s = .error e) : v.fetch s = .error e := by
  simp only [View.fetch, h, Except.error_bind]

section
variable {t : State} {m : Mapped} {ws : List (Word × Bool)} (hp : v.fetchPlace s = .ok (t, m)) (hw : v.codeWords t m = ws)
include hp hw

theorem View.fetch_bad (hb : ∃ w ∈ ws, w.2 = true) : v.fetch s = .error (v.stop .dataError v.g.lanes (v.iss.pc.setWidth 64)) := by
  have bad : ws.any (·.2) = true := List.any_eq_true.2 hb
  simp only [← hw, View.codeWords] at bad
  simp only [View.fetch, hp, Except.ok_bind, bad, if_true, Except.error_bind]

variable (hb : ¬∃ w ∈ ws, w.2 = true)
include hb

/-- The bytes are whole: what follows depends on the length code. -/
theorem View.fetch_whole : v.fetch s = match Len.ofCode (((codeBytes ws).headD 0).extractLsb' 0 2) with
    | none => .error (v.stop .illegalLength v.g.lanes)
    | some len => v.require .fetchCross (decide (len.bytes ≤ 32 - v.iss.pc.toNat % 32)) >>= fun _ => match decode (codeBytes ws) with
      | .ok (i, _) => .ok (t, i)
      | .error _ => .error (v.stop .illegalInstruction v.g.lanes) := by
  have good : ws.any (·.2) = false := by simpa using hb
  simp only [← hw, View.codeWords] at good
  simp only [View.fetch, hp, Except.ok_bind, good, Bool.false_eq_true, if_false, ← hw, View.codeWords, codeBytes] <;> rfl

theorem View.fetch_illegalLength (hl : Len.ofCode (((codeBytes ws).headD 0).extractLsb' 0 2) = none) :
    v.fetch s = .error (v.stop .illegalLength v.g.lanes) := by
  simp only [View.fetch_whole hp hw hb, hl]

variable {len : Len} (hl : Len.ofCode (((codeBytes ws).headD 0).extractLsb' 0 2) = some len)
include hl

theorem View.fetch_crosses (hc : 32 - v.iss.pc.toNat % 32 < len.bytes) : v.fetch s = .error (v.stop .fetchCross v.g.lanes) := by
  simp only [View.fetch_whole hp hw hb, hl, View.require_bind, decide_eq_true_eq, if_neg hc.not_ge]

variable (hc : len.bytes ≤ 32 - v.iss.pc.toNat % 32)
include hc

theorem View.fetch_decodes {i : Instr} {rest : List Byte} (hd : decode (codeBytes ws) = .ok (i, rest)) : v.fetch s = .ok (t, i) := by
  simp only [View.fetch_whole hp hw hb, hl, View.require_bind, decide_eq_true_eq, if_pos hc, hd]

theorem View.fetch_illegal {e : DecodeErr} (hd : decode (codeBytes ws) = .error e) :
    v.fetch s = .error (v.stop .illegalInstruction v.g.lanes) := by
  simp only [View.fetch_whole hp hw hb, hl, View.require_bind, decide_eq_true_eq, if_pos hc, hd]
end

end

section
variable {v : View} (s : State) (e : TlbEntry)

/-- The state that a fetch keeps: the translation in the TLBs, and no frame without an allocation for the next fetch. -/
def View.fetched (v : View) (s : State) (e : TlbEntry) : State :=
  (s.keepXlat v.agent e).modFibre v.f.ref fun f => { f with noFetch := [] }

theorem View.codeWords_fetched (m : Mapped) : v.codeWords (v.fetched s e) m = v.codeWords s m := by
  simp only [View.codeWords, View.fetched, State.codeWord_modFibre, State.codeWord_keepXlat]

theorem View.fetchPlace_ok {e : TlbEntry} (h : s.xlatOr v.agent v.c v.f.noFetch v.iss.pc.toNat .exec = .ok e) :
    v.fetchPlace s = .ok (v.fetched s e, e.place v.iss.pc.toNat) := by
  simp only [View.fetchPlace, h, View.fetched]

theorem View.fetch_misses (h : s.xlatOr v.agent v.c v.f.noFetch v.iss.pc.toNat .exec = .replay ∨
    ∃ x, s.xlatOr v.agent v.c v.f.noFetch v.iss.pc.toNat .exec = .unmapped x) : v.fetch s = .error (.freeze s [v.iss.pc.toNat / 2 ^ 16]) := by
  obtain h | ⟨x, h⟩ := h <;> exact View.fetch_unplaced (by simp only [View.fetchPlace, h])

end

theorem Len.ofCode_eq_none {c : BitVec 2} (h : c = 3#2) : Len.ofCode c = none := by
  subst h; rfl

/-! The turns of a step. -/

theorem step_turn {s : State} {t : Turn} {rest : List Turn} (h : s.agenda = t :: rest) :
    step s = finishStep (({ s with agenda := rest } : State).pass.take (some t)) := by
  simp only [step, h, State.advance]

theorem step_idle {s : State} (h : s.agenda = []) : step s = finishStep (s.pass.take s.pass.ownTurn) := by
  simp only [step, h, State.advance]

theorem step_issue {s : State} {r : FibreRef} {rest : List Turn} (h : s.agenda = .issue r :: rest) :
    step s = finishStep (({ s with agenda := rest } : State).pass.issueFor r) := step_turn h

theorem State.take_event {s : State} {e : Instr} (h : isWord e = false) : s.take (some (.event e)) = exec e s := by
  simp only [State.take, h, Bool.false_eq_true, if_false]

theorem State.ownTurn_event {s : State} {e : Instr} (h : s.ownEvent = some e) : s.ownTurn = some (.event e) := by
  simp only [State.ownTurn, h]

theorem State.issueFor_chosen {s : State} {r : FibreRef} {f : Fibre} (hf : s.fibre? r = some f)
    (hc : (s.chosen (s.quadrantOf f)).map (·.ref) = some r) : s.issueFor r = (s.turnTo f).issueNow := by
  obtain ⟨x, hx, hr⟩ := Option.map_eq_some_iff.1 hc
  have chosen : (s.chosen (s.quadrantOf f)).any (fun x => x.ref == r) = true := by simpa [hx] using hr
  simp only [State.issueFor, hf, chosen, if_true]

theorem State.issueNow_fetched {s t : State} {v : View} {i : Instr} (hv : s.view? = some v) (hx : v.fetch s = .ok (t, i)) :
    s.issueNow = exec i t := by
  simp only [State.issueNow, hv, hx]

theorem State.issueNow_stopped {s : State} {v : View} {e : Stop} (hv : s.view? = some v) (hx : v.fetch s = .error e) :
    s.issueNow = e.outcome s v false := by
  simp only [State.issueNow, hv, hx]

end Sys2Proof.Machine

open Sys2Proof Sys2Proof.Machine

/-- Settles O46: the translation decides first, then the words of the block, the length, the block's end and the decoder. -/
theorem fetchTraps : Obligations.FetchTraps := by
  unfold Obligations.FetchTraps
  intro s v hv
  refine ⟨fun h => ?_, fun h => ?_, View.fetch_misses s, fun e he => ?_, fun m w h => s.codeWord_clean h v.agent m, fun op c => ?_⟩
  · exact View.fetch_unplaced (by simp only [View.fetchPlace, h]; rfl)
  · exact View.fetch_unplaced (by simp only [View.fetchPlace, h]; rfl)
  · have place := View.fetchPlace_ok s he
    have words := View.codeWords_fetched (v := v) s e (e.place v.iss.pc.toNat)
    exact ⟨View.fetch_bad place words, fun hb hl => View.fetch_illegalLength place words hb (Len.ofCode_eq_none hl), fun len hb hl =>
      ⟨View.fetch_crosses place words hb hl, fun i rest hc => View.fetch_decodes place words hb hl hc,
        fun e hc => View.fetch_illegal place words hb hl hc⟩⟩
  · simp only [exec_unassignedOpcode, execUnassignedOpcode, hv, View.stop_outcome, beq_iff_eq]
    rfl

/-- Settles O47: the turn, the quadrant's choice and the fetch, each by what the hypotheses say of it. -/
theorem stepRunsDecodedInstruction : Obligations.StepRunsDecodedInstruction := by
  unfold Obligations.StepRunsDecodedInstruction
  refine ⟨?fetched, ?stopped, fun _ _ => rfl, ?event, ?own⟩
  case fetched =>
    intro s r rest f v s' i ha s0 hf hc hv hx
    rw [step_issue ha, State.issueFor_chosen hf hc, State.issueNow_fetched hv hx]
  case stopped =>
    intro s r rest f v ha s0 hf hc hv
    have same : v.f.ref = r := by
      obtain ⟨hcur, -, href, -, -⟩ := State.view?_eq_some hv
      rw [href, ← Option.some.inj hcur, State.fibre?_ref hf]
    refine ⟨fun s' frames hx => ?_, fun t hx => ?_⟩
    · rw [step_issue ha, State.issueFor_chosen hf hc, State.issueNow_stopped hv hx, ← same]
      rfl
    · rw [step_issue ha, State.issueFor_chosen hf hc, State.issueNow_stopped hv hx]
      rfl
  case event =>
    intro s e rest ha hw
    rw [step_turn ha, State.take_event hw]
  case own =>
    intro s e ha he hw
    rw [step_idle ha, State.ownTurn_event he, State.take_event hw]

end

section
/-! ### The lane loop: what it leaves in the fibre and in its slot (R44, R51, R55 to R57, R101, R112, R114) -/

namespace Sys2Proof.Machine

open Sys2Proof

/-! Lists keyed by name, rows and lanes. -/

section
variable {κ α : Type} [DecidableEq κ] (l : List (κ × α)) (k : κ) (x : α)

theorem aget_aset_self : aget (aset l k x) k = some x := by
  unfold aget aset
  split
  next h =>
    rw [find_map_at (fun y : κ × α => y.1 == k) (fun _ => (k, x)) (fun _ _ => by simp) l]
    obtain ⟨y, hy⟩ := Option.isSome_iff_exists.1 (List.find?_isSome.2 (List.any_eq_true.1 h))
    rw [hy]
    rfl
  next h =>
    have new : l.find? (fun y => y.1 == k) = none :=
      List.find?_eq_none.2 fun y hy e => h (List.any_eq_true.2 ⟨y, hy, e⟩)
    simp [new]

theorem aget_aset_other {q : κ} (h : q ≠ k) : aget (aset l k x) q = aget l q := by
  unfold aget aset
  split
  · rw [find_map_other (fun y : κ × α => y.1 == k) (fun y => y.1 == q) (fun _ => (k, x))
      (fun y hy => by rw [beq_iff_eq] at hy; simp [hy, Ne.symm h]) l]
  · simp [Ne.symm h]

theorem aget_adel (q : κ) : aget (adel l k) q = if q = k then none else aget l q := by
  unfold aget adel
  rw [List.find?_filter]
  split
  next h => simp [h]
  next h =>
    congr 2
    funext y
    by_cases hy : y.1 = q <;> simp [hy, h]

end

theorem at_mkRow (f : Nat → Word) {l : Nat} (h : l < 32) : (mkRow f).at l = f l := by
  simp [mkRow, Row.at, Vector.getD, h]

theorem at_select (m : Mask) (x y : Row) {l : Nat} (h : l < 32) :
    (Row.select m x y).at l = if m.getLsbD l = true then x.at l else y.at l := at_mkRow _ h

theorem at_zero (l : Nat) : Row.zero.at l = 0 := by
  by_cases h : l < 32 <;> simp [Row.at, Row.zero, Vector.getD, Array.getD, h]

theorem mem_lanesOf {m : Mask} {l : Nat} (h : l < 32) : l ∈ lanesOf m ↔ m.getLsbD l = true := by
  simp [lanesOf, upTo, lane, h]

/-! The rows of a slot. -/

namespace Slot
variable (sl : Slot) (r : Nat) (m : Mask) (x : Row)

theorem aget_write_self : aget (sl.write r m x).rows r = some (Row.select m x (sl.row r)) := aget_aset_self ..

theorem aget_write_other {q : Nat} (h : q ≠ r) : aget (sl.write r m x).rows q = aget sl.rows q := aget_aset_other _ _ _ h

theorem row_write_self : (sl.write r m x).row r = Row.select m x (sl.row r) := by
  rw [Slot.row, aget_write_self]
  rfl

theorem row_write_other {q : Nat} (h : q ≠ r) : (sl.write r m x).row q = sl.row q := by
  rw [Slot.row, aget_write_other _ _ _ _ h]
  rfl

/-- A write leaves every row as it was in the lanes outside its mask: a row that it makes live holds 0 there. -/
theorem row_write_outside (q : Nat) {l : Nat} (hl : l < 32) (h : m.getLsbD l = false) : ((sl.write r m x).row q).at l = (sl.row q).at l := by
  by_cases e : q = r
  · subst e
    rw [row_write_self, at_select _ _ _ hl, if_neg (by simp [h])]
  · rw [row_write_other _ _ _ _ e]

theorem aget_kills (rs : List Nat) (q : Nat) : aget (rs.foldl Slot.kill sl).rows q = if q ∈ rs then none else aget sl.rows q := by
  induction rs generalizing sl with
  | nil => simp
  | cons r rs ih =>
    rw [List.foldl_cons, ih, Slot.kill, aget_adel]
    by_cases h : q ∈ rs <;> by_cases e : q = r <;> simp [h, e]

theorem row_kills (rs : List Nat) (q l : Nat) : ((rs.foldl Slot.kill sl).row q).at l = if q ∈ rs then 0 else (sl.row q).at l := by
  rw [Slot.row, aget_kills]
  split
  · exact at_zero l
  · rfl

theorem aget_enliven_other {q : Nat} (h : q ≠ r) : aget (sl.enliven r).rows q = aget sl.rows q := by
  unfold Slot.enliven
  split
  · rfl
  · exact aget_write_other _ _ _ _ h

theorem aget_enlivens {rs : List Nat} {q : Nat} (h : q ∉ rs) : aget (rs.foldl Slot.enliven sl).rows q = aget sl.rows q := by
  induction rs generalizing sl with
  | nil => rfl
  | cons r rs ih =>
    obtain ⟨hr, hrs⟩ : q ≠ r ∧ q ∉ rs := by simpa using h
    rw [List.foldl_cons, ih _ hrs, aget_enliven_other _ _ hr]

/-- What a register write does to the slot of its fibre: a vector write to a row, any other nothing. -/
def upd (sl : Slot) : RegUpd → Slot
  | .v r m x => sl.write r m x
  | _ => sl

theorem aget_upds {us : List RegUpd} {q : Nat} (h : q ∉ updRows us) : aget (us.foldl Slot.upd sl).rows q = aget sl.rows q := by
  induction us generalizing sl with
  | nil => rfl
  | cons u us ih =>
    rw [List.foldl_cons]
    cases u with
    | v r m x =>
      obtain ⟨hr, hrs⟩ : q ≠ r ∧ q ∉ updRows us := by simpa [updRows] using h
      rw [ih _ hrs]
      exact aget_write_other _ _ _ _ hr
    | _ => exact ih _ h

end Slot

/-! Changes of the issuing fibre and its slot. -/

theorem map_ite_map_ite {α : Type} (p : α → Bool) {u : α → α} (u' : α → α) (hp : ∀ x, p (u x) = p x) (l : List α) :
    (l.map fun x => if p x then u x else x).map (fun x => if p x then u' x else x) = l.map fun x => if p x then u' (u x) else x := by
  rw [List.map_map]
  refine List.map_congr_left fun x _ => ?_
  by_cases h : p x = true <;> simp [h, hp]

theorem map_ite_id {α : Type} (p : α → Bool) (l : List α) : (l.map fun x => if p x then x else x) = l := by
  simp

/-- `y` with the fields that an instruction of the lane loop may change put back to those of `x`. -/
def Fibre.putBack (y x : Fibre) : Fibre :=
  { y with s := x.s, rng := x.rng, fps := x.fps, le8s := x.le8s, pend := x.pend, out := x.out, nextOut := x.nextOut,
           gangs := x.gangs, turn := x.turn, age := x.age, st := x.st }
def Slot.putBack (y x : Slot) : Slot := { y with rows := x.rows, pend := x.pend }

/-- A change that leaves every other field as it is. -/
def Fibre.Framed (a : Fibre → Fibre) : Prop := ∀ x, (a x).putBack x = x
def Slot.Framed (b : Slot → Slot) : Prop := ∀ x, (b x).putBack x = x

theorem Fibre.Framed.ref {a : Fibre → Fibre} (h : Fibre.Framed a) (x : Fibre) : (a x).ref = x.ref :=
  congrArg (·.ref) (h x)

theorem Fibre.Framed.comp {a a' : Fibre → Fibre} (h' : Fibre.Framed a') (h : Fibre.Framed a) : Fibre.Framed (a' ∘ a) := fun x =>
  calc (a' (a x)).putBack x = ((a' (a x)).putBack (a x)).putBack x := rfl
    _ = (a x).putBack x := by rw [h' (a x)]
    _ = x := h x

theorem Slot.Framed.comp {b b' : Slot → Slot} (h' : Slot.Framed b') (h : Slot.Framed b) : Slot.Framed (b' ∘ b) := fun x =>
  calc (b' (b x)).putBack x = ((b' (b x)).putBack (b x)).putBack x := rfl
    _ = (b x).putBack x := by rw [h' (b x)]
    _ = x := h x

theorem Slot.Framed.is {b : Slot → Slot} (h : Slot.Framed b) (x : Slot) (c t n : Nat) : (b x).is c t n = x.is c t n :=
  congrArg (·.is c t n) (h x)

theorem Slot.Framed.foldl {α : Type} {u : Slot → α → Slot} (hu : ∀ y, Slot.Framed (u · y)) (l : List α) :
    Slot.Framed fun x => l.foldl u x := by
  induction l with
  | nil => exact fun _ => rfl
  | cons y l ih => exact ih.comp (hu y)

/-- `t` is `s` with the fibre `f` changed by `a` and its slot by `b`, in the fields that an instruction of the lane loop may change. -/
structure State.Acts (s t : State) (f : Fibre) (a : Fibre → Fibre) (b : Slot → Slot) : Prop where
  eq : t = (s.modSlot f b).modFibre f.ref a
  framed : Fibre.Framed a
  slotFramed : Slot.Framed b

namespace State.Acts
variable {s t u : State} {f : Fibre} {a a' : Fibre → Fibre} {b b' : Slot → Slot}

theorem ofFibre (ha : Fibre.Framed a) : State.Acts s (s.modFibre f.ref a) f a id where
  eq := by simp only [State.modSlot, id, map_ite_id]
  framed := ha
  slotFramed := fun _ => rfl

theorem ofSlot (hb : Slot.Framed b) : State.Acts s (s.modSlot f b) f id b where
  eq := by simp only [State.modFibre, id, map_ite_id]
  framed := fun _ => rfl
  slotFramed := hb

theorem refl (s : State) (f : Fibre) : State.Acts s s f id id where
  eq := by simp only [State.modFibre, State.modSlot, id, map_ite_id]
  framed := fun _ => rfl
  slotFramed := fun _ => rfl

theorem trans (h : State.Acts s t f a b) (h' : State.Acts t u f a' b') : State.Acts s u f (a' ∘ a) (b' ∘ b) where
  eq := by
    have fibres := map_ite_map_ite (fun x : Fibre => x.ref == f.ref) a' (fun x => by rw [h.framed.ref x]) s.fibres
    have slots := map_ite_map_ite (fun x : Slot => x.is f.ref.cl f.ref.team f.slot) b' (fun x => h.slotFramed.is x _ _ _) s.slots
    rw [h'.eq, h.eq]
    simp only [State.modFibre, State.modSlot, fibres, slots, Function.comp_apply]
  framed := h'.framed.comp h.framed
  slotFramed := h'.slotFramed.comp h.slotFramed

theorem rest (h : State.Acts s t f a b) : { t with fibres := s.fibres, slots := s.slots } = s := by
  rw [h.eq]
  rfl

theorem fibre (h : State.Acts s t f a b) {x : Fibre} (hx : s.fibre? f.ref = some x) : t.fibre? f.ref = some (a x) := by
  rw [h.eq, State.modFibre_at _ _ _ h.framed.ref]
  exact congrArg (Option.map a) hx

theorem fibre_other (h : State.Acts s t f a b) {r : FibreRef} (hr : r ≠ f.ref) : t.fibre? r = s.fibre? r := by
  rw [h.eq, State.modFibre_other _ _ _ _ h.framed.ref hr]
  rfl

theorem slot (h : State.Acts s t f a b) {x : Slot} (hx : s.slot? f = some x) : t.slot? f = some (b x) := by
  rw [h.eq]
  change (s.modSlot f b).slot? f = _
  rw [State.modSlot_at _ _ _ fun y c t n hy => by rwa [h.slotFramed.is], hx]
  rfl

theorem slot_other (h : State.Acts s t f a b) {g : Fibre} (hg : ¬(g.ref.cl = f.ref.cl ∧ g.ref.team = f.ref.team ∧ g.slot = f.slot)) :
    t.slot? g = s.slot? g := by
  rw [h.eq]
  refine find_map_other (fun x : Slot => x.is f.ref.cl f.ref.team f.slot) (fun x => x.is g.ref.cl g.ref.team g.slot) b (fun x hx => ?_) s.slots
  have other : x.is g.ref.cl g.ref.team g.slot = false := by
    simp only [Slot.is, Bool.and_eq_true, beq_iff_eq] at hx
    obtain ⟨⟨hc, ht⟩, hn⟩ := hx
    simp only [Slot.is, Bool.and_eq_false_iff, beq_eq_false_iff_ne]
    by_contra! e
    exact hg ⟨e.1.1.symm.trans hc, e.1.2.symm.trans ht, e.2.symm.trans hn⟩
  exact ⟨other, by rw [h.slotFramed.is, other]⟩

end State.Acts

end Sys2Proof.Machine
end

section
namespace Sys2Proof.Machine

open Sys2Proof

/-! The shared operations of the lane loop, each as a change of the fibre and of its slot. -/

/-- Flags raised in a fibre (R101). -/
def Fibre.orFlags (f : Fibre) (fps le8s : BitVec 32) : Fibre := { f with fps := f.fps ||| fps, le8s := f.le8s ||| le8s }

/-- A result held back in a fibre, and in its slot (R114). -/
def Fibre.defer (f : Fibre) (o : Out) : Fibre :=
  { f with pend := o.regs.foldl addOnce f.pend, out := f.out ++ [{ o with id := f.nextOut }], nextOut := f.nextOut + 1 }
def Slot.defer (sl : Slot) (o : Out) : Slot := o.rows.foldl Slot.enliven { sl with pend := o.rows.foldl addOnce sl.pend }

/-- The random states that the lanes' computations leave. -/
def View.rngs (v : View) (rs : List (Nat × DWord × NumSt)) (f : Fibre) : Fibre :=
  if rs.all fun r => r.2.2.rng == v.f.rng.at r.1 then f
  else { f with rng := mkRow fun l => match rs.find? fun x => x.1 == l with | some r => r.2.2.rng | none => f.rng.at l }

/-- sr.fps.dead after a dead read, in the result that the instruction has added or at once. -/
def View.notesDead (v : View) (us : List Use) (f : Fibre) : Fibre :=
  if v.readsDead us then
    if v.f.out.length < f.out.length then
      { f with out := f.out.take v.f.out.length ++ (f.out.drop v.f.out.length).map fun o => { o with fps := o.fps ||| 0x40 } }
    else { f with fps := f.fps ||| 0x40 }
  else f

/-- The epilogue of an instruction that does not branch. -/
def Fibre.retire (f : Fibre) (g len : Nat) (sw : Bool) : Fibre := (f.advance g len).afterIssue g sw

/-- Writes that a lane loop makes: of rows and of scalar registers. -/
def RegUpd.ofLanes : RegUpd → Bool
  | .v .. | .s .. => true
  | _ => false

/-- What an instruction of the lane loop, whose lanes compute `rs`, makes of its fibre and its slot before it retires. -/
def View.laneFibre (v : View) (long sc w : Bool) (d : BitVec 8) (rs : List (Nat × DWord × NumSt)) (f : Fibre) : Fibre :=
  let us := v.dstUpds sc w d (rs.map fun r => (r.1, r.2.1))
  let fl := laneFlags rs
  if rs.isEmpty then f
  else if long then (v.rngs rs f).defer (Out.of us fl.1 fl.2)
  else (us.foldl Fibre.upd (v.rngs rs f)).orFlags fl.1 fl.2

def View.laneSlot (v : View) (long sc w : Bool) (d : BitVec 8) (rs : List (Nat × DWord × NumSt)) (sl : Slot) : Slot :=
  let us := v.dstUpds sc w d (rs.map fun r => (r.1, r.2.1))
  if rs.isEmpty then sl else if long then sl.defer (Out.of us) else us.foldl Slot.upd sl

/-! The writes of a destination. -/

section
variable (v : View) (sc w : Bool) (d : BitVec 8) (rs : List (Nat × DWord))

theorem View.vecUpds_eq (n : Nat) (h : rs ≠ []) : v.vecUpds w n rs =
    ((quotaRow v.f.quota n).map fun r => RegUpd.v r (lanesMask rs) (mkRow fun l => (laneVal rs l).setWidth 32)).toList ++
      (if w = true then quotaRow v.f.quota (n + 1) else none).toList.map fun r =>
        RegUpd.v r (lanesMask rs) (mkRow fun l => (laneVal rs l).extractLsb' 32 32) := by
  unfold View.vecUpds
  rw [if_neg (by simpa using h)]
  dsimp only
  congr 1
  · cases quotaRow v.f.quota n <;> rfl
  · cases w
    · rfl
    · cases quotaRow v.f.quota (n + 1) <;> rfl

theorem View.dstUpds_scalar (h : rs ≠ []) : v.dstUpds true w d rs = [.s d.toNat (laneVal rs v.lane0)] := by
  simp [View.dstUpds, h]

theorem View.dstUpds_vector : v.dstUpds false w d rs = v.vecUpds w d.toNat rs := by
  unfold View.dstUpds View.vecUpds
  cases rs <;> rfl

/-- The destination is a scalar register in the scalar form, else its row, or its two rows for a pair. -/
theorem View.mem_dstUpds {u : RegUpd} (h : u ∈ v.dstUpds sc w d rs) :
    (sc = true ∧ ∃ x, u = .s d.toNat x) ∨
    (sc = false ∧ ∃ r m x, u = .v r m x ∧ (quotaRow v.f.quota d.toNat = some r ∨ w = true ∧ quotaRow v.f.quota (d.toNat + 1) = some r)) := by
  by_cases e : rs = []
  · simp [e, View.dstUpds] at h
  cases sc with
  | true =>
    rw [View.dstUpds_scalar _ _ _ _ e, List.mem_singleton] at h
    exact .inl ⟨rfl, _, h⟩
  | false =>
    rw [View.dstUpds_vector, View.vecUpds_eq _ _ _ _ e, List.mem_append] at h
    refine .inr ⟨rfl, ?_⟩
    rcases h with h | h
    · obtain ⟨r, hr, rfl⟩ := by simpa using h
      exact ⟨r, _, _, rfl, .inl hr⟩
    · obtain ⟨r, ⟨hw, hr⟩, rfl⟩ := by simpa using h
      exact ⟨r, _, _, rfl, .inr ⟨hw, hr⟩⟩

theorem View.dstUpds_ofLanes : ∀ u ∈ v.dstUpds sc w d rs, u.ofLanes = true := fun u h => by
  obtain ⟨-, x, rfl⟩ | ⟨-, r, m, x, rfl, -⟩ := v.mem_dstUpds sc w d rs h <;> rfl

end

/-! A fibre under the operations of the lane loop. -/

section
variable (f : Fibre)

theorem set_get_self {α : Type} [Inhabited α] {n k : Nat} (x : Vector α n) (y : α) (h : k < n) : (x.set! k y)[k]! = y := by
  simp [getElem!_pos, h]

theorem set_get_other {α : Type} [Inhabited α] {n k j : Nat} (x : Vector α n) (y : α) (h : j ≠ k) : (x.set! k y)[j]! = x[j]! := by
  by_cases hj : j < n
  · simp [getElem!_pos, hj, Vector.getElem_set!_ne, Ne.symm h]
  · simp [getElem!_neg, hj]

/-- Writes of a lane loop change of a fibre the scalar registers that they name. -/
theorem Fibre.upds_is {us : List RegUpd} (h : ∀ u ∈ us, u.ofLanes = true) :
    ∃ x, us.foldl Fibre.upd f = { f with s := x } ∧ ∀ n, (∀ y, .s n y ∉ us) → x[n]! = f.s[n]! := by
  induction us generalizing f with
  | nil => exact ⟨f.s, rfl, fun _ _ => rfl⟩
  | cons u us ih =>
    obtain ⟨hu, hus⟩ := List.forall_mem_cons.1 h
    cases u with
    | v r m y =>
      obtain ⟨x, hx, hn⟩ := ih f hus
      exact ⟨x, hx, fun n hs => hn n fun y hy => hs y (.tail _ hy)⟩
    | s k y =>
      obtain ⟨x, hx, hn⟩ := ih { f with s := f.s.set! k y } hus
      refine ⟨x, hx, fun n hs => ?_⟩
      have other : n ≠ k := fun e => hs y (e ▸ .head _)
      rw [hn n fun y hy => hs y (.tail _ hy), set_get_other _ _ other]
    | _ => simp [RegUpd.ofLanes] at hu

theorem View.rngs_is (v : View) (rs : List (Nat × DWord × NumSt)) : ∃ x, v.rngs rs f = { f with rng := x } := by
  unfold View.rngs
  split
  · exact ⟨f.rng, rfl⟩
  · exact ⟨_, rfl⟩

theorem View.notesDead_is (v : View) (us : List Use) : ∃ o x, v.notesDead us f = { f with out := o, fps := x } := by
  unfold View.notesDead
  split
  · split
    · exact ⟨_, f.fps, rfl⟩
    · exact ⟨f.out, _, rfl⟩
  · exact ⟨f.out, f.fps, rfl⟩

theorem Fibre.passTurn_is : ∃ turn, f.passTurn = { f with gangs := f.gangs.map fun g => { g with count := 0 }, turn := turn } := by
  unfold Fibre.passTurn
  dsimp only
  split
  next g _ => exact ⟨g.id, rfl⟩
  · exact ⟨f.turn, rfl⟩

theorem Fibre.parksForResults_is : ∃ st, (if f.st == .run && !f.out.isEmpty then { f with st := .parked .results } else f) = { f with st := st } := by
  split
  · exact ⟨_, rfl⟩
  · exact ⟨f.st, rfl⟩

/-- Retirement changes gangs, turn, age and state of the fibre; of the gangs the issuing one's PC, beside their counts. -/
theorem Fibre.retire_is (g len : Nat) (sw : Bool) : ∃ gs turn st, f.retire g len sw = { f with gangs := gs, turn := turn, age := 0, st := st } ∧
    gs.map (fun x => (x.id, x.lanes, x.pc, x.st)) =
      f.gangs.map (fun x => (x.id, x.lanes, if x.id = g then x.pc + BitVec.ofNat 56 len else x.pc, x.st)) := by
  cases sw with
  | false =>
    refine ⟨_, _, _, rfl, ?_⟩
    simp only [Fibre.advance, Fibre.modGang, List.map_map]
    refine List.map_congr_left fun x _ => ?_
    by_cases e : x.id = g <;> simp [e]
  | true =>
    obtain ⟨turn, ht⟩ := Fibre.passTurn_is { (f.advance g len).modGang g (fun x => { x with count := x.count + 1 }) with age := 0 }
    obtain ⟨st, hst⟩ := Fibre.parksForResults_is (Fibre.passTurn { (f.advance g len).modGang g (fun x => { x with count := x.count + 1 }) with age := 0 })
    refine ⟨_, turn, st, hst.trans (by rw [ht]; rfl), ?_⟩
    simp only [Fibre.advance, Fibre.modGang, List.map_map]
    refine List.map_congr_left fun x _ => ?_
    by_cases e : x.id = g <;> simp [e]

end

/-! The operations as changes of the issuing fibre and its slot. -/

section
variable (s : State) (v : View) (f : Fibre)

theorem State.upd_acts {u : RegUpd} (h : u.ofLanes = true) : State.Acts s (s.upd f u) f (·.upd u) (·.upd u) := by
  cases u with
  | v r m x => exact .ofSlot fun _ => rfl
  | s n x => exact .ofFibre fun _ => rfl
  | _ => simp [RegUpd.ofLanes] at h

theorem State.upds_acts {us : List RegUpd} (h : ∀ u ∈ us, u.ofLanes = true) :
    State.Acts s (s.upds f us) f (fun g => us.foldl Fibre.upd g) (fun sl => us.foldl Slot.upd sl) := by
  induction us generalizing s with
  | nil => exact .refl s f
  | cons u us ih =>
    obtain ⟨hu, hus⟩ := List.forall_mem_cons.1 h
    exact (s.upd_acts f hu).trans (ih _ hus)

theorem State.orFlags_acts (x y : BitVec 32) : State.Acts s (s.orFlags f x y) f (·.orFlags x y) id := by
  unfold State.orFlags
  split
  next h =>
    obtain ⟨rfl, rfl⟩ : x = 0 ∧ y = 0 := by simpa using h
    have same : (fun g : Fibre => g.orFlags 0 0) = id := funext fun g => by simp [Fibre.orFlags]
    rw [same]
    exact .refl s f
  · exact .ofFibre fun _ => rfl

theorem State.setRngs_acts (rs : List (Nat × DWord × NumSt)) : State.Acts s (s.setRngs v rs) v.f (v.rngs rs) id := by
  unfold State.setRngs View.rngs
  split
  · exact .refl s v.f
  · exact .ofFibre fun _ => rfl

theorem State.defer_acts (o : Out) : State.Acts s (s.defer f o) f (·.defer o) (·.defer o) := by
  have slots : Slot.Framed (·.defer o) :=
    (Slot.Framed.foldl (u := Slot.enliven) (fun r x => by dsimp only [Slot.enliven]; split <;> rfl) o.rows).comp
      (b := fun sl => { sl with pend := o.rows.foldl addOnce sl.pend }) fun _ => rfl
  exact (State.Acts.ofFibre (f := f) (a := (·.defer o)) fun _ => rfl).trans (.ofSlot slots)

theorem State.consume_acts (us : List Use) : State.Acts s (s.consume v us) v.f id (fun sl => (v.killRows us).foldl Slot.kill sl) := by
  unfold State.consume
  cases v.killRows us with
  | nil => exact .refl s v.f
  | cons r rs => exact .ofSlot (Slot.Framed.foldl (u := Slot.kill) (fun _ _ => rfl) (r :: rs))

theorem State.noteDead_acts (us : List Use) : State.Acts s (s.noteDead v us) v.f (v.notesDead us) id := by
  unfold State.noteDead View.notesDead
  split
  · exact .ofFibre fun x => by split <;> rfl
  · exact .refl s v.f

theorem State.retire_acts (sw : Bool) (len : Nat) : State.Acts s (s.retire v sw len) v.f (·.retire v.iss.gang len sw) id :=
  .ofFibre fun x => by
    obtain ⟨gs, turn, st, e, -⟩ := x.retire_is v.iss.gang len sw
    exact (congrArg (·.putBack x) e).trans rfl

theorem laneEffect_acts (long sc w : Bool) (d : BitVec 8) (rs : List (Nat × DWord × NumSt)) :
    State.Acts s (laneEffect long sc w d v rs s) v.f (v.laneFibre long sc w d rs) (v.laneSlot long sc w d rs) := by
  unfold laneEffect View.laneFibre View.laneSlot
  have writes := v.dstUpds_ofLanes sc w d (rs.map fun r => (r.1, r.2.1))
  cases rs.isEmpty with
  | true => exact .refl s v.f
  | false =>
    cases long with
    | true => exact (s.setRngs_acts v rs).trans (State.defer_acts _ v.f _)
    | false => exact ((s.setRngs_acts v rs).trans (State.upds_acts _ v.f writes)).trans (State.orFlags_acts _ v.f _ _)

/-- An instruction of the lane loop changes its fibre and its slot: last uses die, then the lanes' results are written or held back. -/
theorem View.computed_acts (h : Hdr) (len : Nat) (long sc w : Bool) (d : BitVec 8) (us : List Use) (R : Nat → DWord × NumSt) :
    State.Acts s (v.computed h len long sc w d us R s) v.f
      (fun g => (v.notesDead us (v.laneFibre long sc w d ((v.runs h sc).map fun l => (l, R l)) g)).retire v.iss.gang len h.sw)
      (fun sl => v.laneSlot long sc w d ((v.runs h sc).map fun l => (l, R l)) ((v.killRows us).foldl Slot.kill sl)) :=
  (((s.consume_acts v us).trans (laneEffect_acts _ v long sc w d _)).trans (State.noteDead_acts _ v us)).trans (State.retire_acts _ v h.sw len)

end

end Sys2Proof.Machine
end

section
namespace Sys2Proof.Machine

open Sys2Proof

section
variable (v : View) (long sc w : Bool) (d : BitVec 8) (rs : List (Nat × DWord × NumSt))

theorem mem_updRows {us : List RegUpd} {r : Nat} : r ∈ updRows us ↔ ∃ m x, .v r m x ∈ us := by
  simp only [updRows, List.mem_filterMap]
  constructor
  · rintro ⟨u, hu, e⟩
    cases u with
    | v q m x =>
      obtain rfl : q = r := by simpa using e
      exact ⟨m, x, hu⟩
    | _ => simp at e
  · rintro ⟨m, x, h⟩
    exact ⟨_, h, rfl⟩

/-- A row that is not the destination's is none of the rows written. -/
theorem View.notMem_updRows_dstUpds (rs : List (Nat × DWord)) {r : Nat}
    (h : sc = true ∨ (quotaRow v.f.quota d.toNat ≠ some r ∧ (w = true → quotaRow v.f.quota (d.toNat + 1) ≠ some r))) :
    r ∉ updRows (v.dstUpds sc w d rs) := fun hr => by
  obtain ⟨m, x, hu⟩ := mem_updRows.1 hr
  obtain ⟨-, y, e⟩ | ⟨hsc, q, _, _, e, hq⟩ := v.mem_dstUpds sc w d rs hu
  · cases e
  · obtain rfl : r = q := by injection e
    rcases h with h | ⟨low, high⟩
    · simp [h] at hsc
    · rcases hq with hq | ⟨hw, hq⟩
      · exact low hq
      · exact high hw hq

theorem View.laneFibre_keeps (f : Fibre) : (v.laneFibre long sc w d rs f).gangs = f.gangs ∧
    ∀ n, (sc = false ∨ n ≠ d.toNat ∨ long = true) → (v.laneFibre long sc w d rs f).s[n]! = f.s[n]! := by
  obtain ⟨x, rngs⟩ := v.rngs_is f rs
  unfold View.laneFibre
  rw [rngs]
  cases rs.isEmpty with
  | true => exact ⟨rfl, fun _ _ => rfl⟩
  | false =>
    cases long with
    | true => exact ⟨rfl, fun _ _ => rfl⟩
    | false =>
      obtain ⟨y, writes, others⟩ := Fibre.upds_is { f with rng := x } (v.dstUpds_ofLanes sc w d (rs.map fun r => (r.1, r.2.1)))
      refine ⟨congrArg (·.gangs) writes, fun n h => (congrArg (fun g : Fibre => g.s[n]!) writes).trans (others n fun z hz => ?_)⟩
      obtain ⟨hsc, y, e⟩ | ⟨-, q, m, y, e, -⟩ := v.mem_dstUpds sc w d _ hz
      · have : n = d.toNat := by injection e
        simp [hsc, this] at h
      · cases e

theorem View.aget_laneSlot (sl : Slot) {r : Nat}
    (h : sc = true ∨ (quotaRow v.f.quota d.toNat ≠ some r ∧ (w = true → quotaRow v.f.quota (d.toNat + 1) ≠ some r))) :
    aget (v.laneSlot long sc w d rs sl).rows r = aget sl.rows r := by
  have other := v.notMem_updRows_dstUpds sc w d (rs.map fun r => (r.1, r.2.1)) h
  unfold View.laneSlot
  cases rs.isEmpty with
  | true => rfl
  | false =>
    cases long with
    | true => exact Slot.aget_enlivens _ other
    | false => exact Slot.aget_upds _ other

end

/-- Settles O18: an instruction of the lane loop is a change of its fibre and of its slot within the frame, and each of its parts keeps what the
statement names. -/
theorem laneInstructionFrame : Obligations.LaneInstructionFrame := by
  unfold Obligations.LaneInstructionFrame
  intro s v h len long sc w d us R hv t killed
  obtain ⟨-, hf, href, -, hsl⟩ := State.view?_eq_some hv
  have acts := v.computed_acts s h len long sc w d us R
  refine ⟨acts.rest, fun r => acts.fibre_other, fun f => acts.slot_other, ⟨_, acts.fibre (href ▸ hf), acts.framed v.f, ?_⟩,
    ⟨_, acts.slot hsl, acts.slotFramed v.sl, fun r hr hd => ?_⟩⟩
  · generalize (v.runs h sc).map (fun l => (l, R l)) = rs
    obtain ⟨o, x, dead⟩ := v.notesDead_is (v.laneFibre long sc w d rs v.f) us
    obtain ⟨gs, turn, st, retired, gangs⟩ := Fibre.retire_is (v.notesDead us (v.laneFibre long sc w d rs v.f)) v.iss.gang len h.sw
    obtain ⟨sameGangs, scalars⟩ := v.laneFibre_keeps long sc w d rs v.f
    rw [dead] at gangs
    rw [retired, dead]
    exact ⟨scalars, sameGangs ▸ gangs, rfl⟩
  · rw [v.aget_laneSlot long sc w d _ _ hd, Slot.aget_kills]
    exact if_neg hr

end Sys2Proof.Machine
end

section
namespace Sys2Proof.Machine

open Sys2Proof

/-! The results of a set of lanes. -/

section
variable (ls : List Nat) (g : Nat → DWord) {l : Nat}

theorem laneVal_of_mem (h : l ∈ ls) : laneVal (ls.map fun l => (l, g l)) l = g l := by
  unfold laneVal
  induction ls with
  | nil => simp at h
  | cons k ls ih =>
    by_cases e : k = l
    · simp [e]
    · simpa [e] using ih (by simpa [Ne.symm e] using h)

theorem getLsbD_lanesMask (hl : l < 32) : (lanesMask (ls.map fun l => (l, g l))).getLsbD l = decide (l ∈ ls) := by
  rw [lanesMask, getLsbD_maskOf _ hl, Bool.eq_iff_iff]
  simp

/-- A write of lanes' results gives each of the lanes a part of its value and leaves the others as they were. -/
theorem Slot.at_write_lanes (sl : Slot) (r : Nat) (half : DWord → Word) (hl : l < 32) :
    ((sl.write r (lanesMask (ls.map fun l => (l, g l))) (mkRow fun k => half (laneVal (ls.map fun l => (l, g l)) k))).row r).at l =
      if l ∈ ls then half (g l) else (sl.row r).at l := by
  rw [Slot.row_write_self, at_select _ _ _ hl, at_mkRow _ hl, getLsbD_lanesMask _ _ hl]
  by_cases h : l ∈ ls
  · simp [h, laneVal_of_mem ls g h]
  · simp [h]

end

section
variable (v : View) (w : Bool) (d : BitVec 8) (ls : List Nat) (g : Nat → DWord) (sl : Slot) {r l : Nat}

theorem View.row_low_of_vecUpds (n : Nat) (hr : quotaRow v.f.quota n = some r) (hw : w = true → quotaRow v.f.quota (n + 1) ≠ some r)
    (hl : l < 32) : (((v.vecUpds w n (ls.map fun l => (l, g l))).foldl Slot.upd sl).row r).at l =
      if l ∈ ls then (g l).setWidth 32 else (sl.row r).at l := by
  by_cases he : ls = []
  · simp [he, View.vecUpds]
  rw [View.vecUpds_eq _ _ _ _ (by simpa using he), hr, List.foldl_append]
  refine Eq.trans ?_ (Slot.at_write_lanes ls g sl r (fun x => x.setWidth 32) hl)
  congr 1
  cases w with
  | false => rfl
  | true =>
    cases hq : quotaRow v.f.quota (n + 1) with
    | none => rfl
    | some q => exact Slot.row_write_other _ _ _ _ fun e => hw rfl (e ▸ hq)

theorem View.row_high_of_vecUpds (n : Nat) (hr : quotaRow v.f.quota (n + 1) = some r) (hl : l < 32) :
    (((v.vecUpds true n (ls.map fun l => (l, g l))).foldl Slot.upd sl).row r).at l =
      if l ∈ ls then (g l).extractLsb' 32 32 else (sl.row r).at l := by
  by_cases he : ls = []
  · simp [he, View.vecUpds]
  rw [View.vecUpds_eq _ _ _ _ (by simpa using he), hr, List.foldl_append]
  refine (Slot.at_write_lanes ls g _ r (fun x => x.extractLsb' 32 32) hl).trans ?_
  by_cases h : l ∈ ls
  · rw [if_pos h, if_pos h]
  rw [if_neg h, if_neg h]
  cases quotaRow v.f.quota n with
  | none => rfl
  | some q => exact Slot.row_write_outside _ _ _ _ _ hl (by rw [getLsbD_lanesMask _ _ hl, decide_eq_false h])

end

section
variable (v : View) (h : Hdr) (sc w : Bool) (d : BitVec 8) (R : Nat → DWord × NumSt)

/-- A vector result of the short class writes the slot by its register writes. -/
theorem View.laneSlot_vector (sl : Slot) : v.laneSlot false false w d ((v.runs h false).map fun l => (l, R l)) sl =
    (v.vecUpds w d.toNat ((lanesOf (v.active h)).map fun l => (l, (R l).1))).foldl Slot.upd sl := by
  have runs : v.runs h false = lanesOf (v.active h) := rfl
  unfold View.laneSlot
  rw [View.dstUpds_vector, List.map_map, runs]
  cases lanesOf (v.active h) <;> rfl

/-- A scalar result of the short class writes its register. -/
theorem View.laneFibre_scalarForm (f : Fibre) (hg : v.scalarGuard h = true) (hd : d.toNat < 64) :
    (v.laneFibre false true w d ((v.runs h true).map fun l => (l, R l)) f).s[d.toNat]! = (R v.lane0).1 := by
  obtain ⟨x, rngs⟩ := v.rngs_is f ([v.lane0].map fun l => (l, R l))
  have runs : v.runs h true = [v.lane0] := by simp [View.runs, hg]
  unfold View.laneFibre
  rw [runs, rngs, View.dstUpds_scalar _ _ _ _ (by simp)]
  refine (set_get_self f.s _ hd).trans ?_
  exact laneVal_of_mem [v.lane0] (fun l => (R l).1) (by simp)

theorem laneFlags_eq (rs : List (Nat × DWord × NumSt)) :
    laneFlags rs = ((rs.map (·.2.2.fps)).foldl (· ||| ·) 0, (rs.map (·.2.2.le8s)).foldl (· ||| ·) 0) := by
  unfold laneFlags
  generalize (0 : BitVec 32) = a
  suffices ∀ a b : BitVec 32, rs.foldl (fun c r => (c.1 ||| r.2.2.fps, c.2 ||| r.2.2.le8s)) (a, b) =
      ((rs.map (·.2.2.fps)).foldl (· ||| ·) a, (rs.map (·.2.2.le8s)).foldl (· ||| ·) b) from this a a
  induction rs with
  | nil => exact fun _ _ => rfl
  | cons r rs ih => exact fun a b => ih _ _

/-- Results of the short class raise their flags at once. -/
theorem View.laneFibre_flags (rs : List (Nat × DWord × NumSt)) (f : Fibre) :
    (v.laneFibre false sc w d rs f).fps = f.fps ||| (laneFlags rs).1 ∧ (v.laneFibre false sc w d rs f).le8s = f.le8s ||| (laneFlags rs).2 := by
  obtain ⟨x, rngs⟩ := v.rngs_is f rs
  obtain ⟨y, writes, -⟩ := Fibre.upds_is { f with rng := x } (v.dstUpds_ofLanes sc w d (rs.map fun r => (r.1, r.2.1)))
  unfold View.laneFibre
  cases rs with
  | nil => simp [laneFlags]
  | cons r rs =>
    rw [rngs]
    exact ⟨congrArg (·.fps ||| _) writes, congrArg (·.le8s ||| _) writes⟩

/-- Reading no dead register, an instruction records none. -/
theorem View.notesDead_none {us : List Use} (hu : ∀ u ∈ us, u.dead v = 0) (f : Fibre) : v.notesDead us f = f := by
  have none : v.readsDead us = false := by
    rw [View.readsDead, unionMask_zero (by simpa using hu)]
    rfl
  simp [View.notesDead, none]

end

/-! One register write. -/

theorem getLsbD_merge (m x y : Mask) {l : Nat} (hl : l < 32) :
    ((y &&& ~~~m) ||| (x &&& m)).getLsbD l = if m.getLsbD l then x.getLsbD l else y.getLsbD l := by
  simp only [BitVec.getLsbD_or, BitVec.getLsbD_and, BitVec.getLsbD_not, hl, decide_true, Bool.true_and]
  cases m.getLsbD l <;> simp

section
variable {s : State} {f : Fibre}

theorem State.upd_row {sl : Slot} (hsl : s.slot? f = some sl) (r : Nat) (m : Mask) (x : Row) :
    ∃ sl', (s.upd f (.v r m x)).slot? f = some sl' ∧
      (∀ l < 32, (sl'.row r).at l = if m.getLsbD l then x.at l else (sl.row r).at l) ∧ (aget sl'.rows r).isSome = true ∧
      (∀ q, q ≠ r → aget sl'.rows q = aget sl.rows q) ∧ { sl' with rows := sl.rows } = sl ∧
      { s.upd f (.v r m x) with slots := s.slots } = s := by
  refine ⟨_, (s.upd_acts f rfl).slot hsl, fun l hl => ?_, ?_, fun q hq => Slot.aget_write_other _ _ _ _ hq, rfl, rfl⟩
  · exact (congrArg (·.at l) (Slot.row_write_self ..)).trans (at_select _ _ _ hl)
  · exact congrArg Option.isSome (Slot.aget_write_self ..)

theorem State.upd_scalar (hf : s.fibre? f.ref = some f) {n : Nat} (x : DWord) (hn : n < 64) :
    ∃ f', (s.upd f (.s n x)).fibre? f.ref = some f' ∧ (∀ k < 64, f'.s[k]! = if k = n then x else f.s[k]!) ∧
      { f' with s := f.s } = f ∧ { s.upd f (.s n x) with fibres := s.fibres } = s := by
  refine ⟨_, (s.upd_acts f rfl).fibre hf, fun k _ => ?_, rfl, rfl⟩
  split
  next e => exact (congrArg ((f.s.set! n x)[·]!) e).trans (set_get_self f.s x hn)
  next e => exact set_get_other f.s x e

theorem State.upd_pred (hf : s.fibre? f.ref = some f) {n : Nat} (m x : Mask) (hn : n < 7) :
    ∃ f', (s.upd f (.p n m x)).fibre? f.ref = some f' ∧
      (∀ k < 8, ∀ l < 32, (f'.pred k).getLsbD l = if k = n ∧ m.getLsbD l then x.getLsbD l else (f.pred k).getLsbD l) ∧
      { f' with p := f.p } = f ∧ { s.upd f (.p n m x) with fibres := s.fibres } = s := by
  have written : Fibre.upd f (.p n m x) = { f with p := f.p.set! n ((f.p[n]! &&& ~~~m) ||| (x &&& m)) } := if_pos hn
  have found : (s.upd f (.p n m x)).fibre? f.ref = some (f.upd (.p n m x)) := by
    refine (State.modFibre_at s f.ref (·.upd (.p n m x)) fun g => ?_).trans (congrArg (Option.map _) hf)
    dsimp only [Fibre.upd]
    split <;> rfl
  refine ⟨_, found, fun k _ l hl => ?_, ?_, rfl⟩
  · rw [written]
    unfold Fibre.pred
    dsimp only
    by_cases e : k = n
    · subst e
      rw [if_pos hn, if_pos hn, set_get_self _ _ (by omega), getLsbD_merge _ _ _ hl]
      simp
    · rw [set_get_other _ _ e]
      simp [e]
  · rw [written]

theorem State.upd_p7 (m x : Mask) : s.upd f (.p 7 m x) = s := by
  have same : (fun g : Fibre => g.upd (.p 7 m x)) = id := rfl
  exact (congrArg (s.modFibre f.ref) same).trans (by simp only [State.modFibre, id, map_ite_id])

end

/-- Settles O17: single writes by the rules above; an instruction of the short class by what its results leave in the slot and in the fibre, which
retirement keeps. -/
theorem registerWrites : Obligations.RegisterWrites := by
  unfold Obligations.RegisterWrites
  refine ⟨fun s f sl hf hsl => ⟨fun r m x => State.upd_row hsl r m x, fun n x hn => State.upd_scalar hf x hn,
    fun n m x hn => State.upd_pred hf m x hn, fun m x => ⟨State.upd_p7 m x, rfl⟩⟩, ?_⟩
  intro s v h len w d us R hv killed old flags
  obtain ⟨-, hf, href, -, hsl⟩ := State.view?_eq_some hv
  have found := href ▸ hf
  have old_eq (r l : Nat) : (((v.killRows us).foldl Slot.kill v.sl).row r).at l = old r l := Slot.row_kills ..
  have slots := (v.computed_acts s h len false false w d us R).slot hsl
  have fibres (sc : Bool) := (v.computed_acts s h len false sc w d us R).fibre found
  refine ⟨fun r hr hw => ⟨_, slots, fun l hl => ?_⟩, fun r hw hr => ⟨_, slots, fun l hl => ?_⟩, fun hd hg => ⟨_, fibres true, ?_⟩,
    fun sc hu => ⟨_, fibres sc, ?_⟩⟩
  · rw [v.laneSlot_vector, v.row_low_of_vecUpds w _ _ _ _ hr hw hl, old_eq]
    simp only [mem_lanesOf hl]
  · subst hw
    rw [v.laneSlot_vector, v.row_high_of_vecUpds _ _ _ _ hr hl, old_eq]
    simp only [mem_lanesOf hl]
  · generalize hl : v.laneFibre false true w d _ v.f = x
    obtain ⟨o, y, dead⟩ := v.notesDead_is x us
    obtain ⟨gs, turn, st, retired, -⟩ := Fibre.retire_is (v.notesDead us x) v.iss.gang len h.sw
    rw [retired, dead, ← hl]
    exact v.laneFibre_scalarForm h w d R v.f hg hd
  · obtain ⟨gs, turn, st, retired, -⟩ := Fibre.retire_is (v.laneFibre false sc w d ((v.runs h sc).map fun l => (l, R l)) v.f) v.iss.gang len h.sw
    rw [v.notesDead_none hu, retired]
    have raised := v.laneFibre_flags sc w d ((v.runs h sc).map fun l => (l, R l)) v.f
    rw [laneFlags_eq, List.map_map, List.map_map] at raised
    exact raised

end Sys2Proof.Machine
end

section
/-! ### The fibre instructions of a slot (R118, R120, R124 to R127) -/

namespace Sys2Proof.Machine

open Sys2Proof

section
variable (s : State) (r : FibreRef) (sw : Bool) (a b : BitVec 8)

theorem exec_requota : exec (.requota sw a b) s = execRequota sw a b s := rfl
theorem exec_fpost : exec (.fpost sw a b) s = execFpost sw a b s := rfl
theorem exec_fwait : exec (.fwait sw a b) s = execFwait sw a b s := rfl
theorem exec_fbar : exec (.fbar sw a) s = execFbar sw a s := rfl
theorem exec_deferredFpostApply : exec (.deferredFpostApply r) s = execDeferredFpostApply r s := rfl
theorem exec_fbarArrivalCount : exec (.fbarArrivalCount r) s = execFbarArrivalCount r s := rfl
theorem exec_forcedRotation : exec (.forcedRotation r) s = execForcedRotation r s := rfl
theorem exec_gangTurnLimit : exec (.gangTurnLimit r) s = execGangTurnLimit r s := rfl
end

/-! A collective instruction that reads scalar registers only: it ends no row's use and reads no dead row. -/

theorem useS_reg (a : BitVec 8) (m : Mask) : ∀ u ∈ useS a m, ∃ r, u.reg = .r r := by
  unfold useS
  split <;> simp

theorem useS_reg_append (a b : BitVec 8) (m : Mask) : ∀ u ∈ useS a m ++ useS b m, ∃ r, u.reg = .r r := fun u hu =>
  (List.mem_append.1 hu).elim (useS_reg a m u) (useS_reg b m u)

section
variable {s t : State} {v : View} {us : View → List Use} {body : View → State → Chk State} {sw : Bool} {len : Nat}

theorem State.consume_scalars {us : List Use} (hu : ∀ u ∈ us, ∃ r, u.reg = .r r) : s.consume v us = s := by
  have none : v.killRows us = [] := List.filterMap_eq_nil_iff.2 fun u h => by
    obtain ⟨r, e⟩ := hu u h
    simp only [e]
  simp [State.consume, none]

theorem State.noteDead_scalars {us : List Use} (hu : ∀ u ∈ us, ∃ r, u.reg = .r r) : s.noteDead v us = s := by
  have alive : unionMask (us.map (·.dead v)) = 0 := unionMask_zero (List.forall_mem_map.2 fun u h => by
    obtain ⟨r, e⟩ := hu u h
    simp only [Use.dead, e])
  simp [State.noteDead, View.readsDead, alive]

section
variable (hi : s.issuing v collective (us v)) (hu : ∀ u ∈ us v, ∃ r, u.reg = .r r)
include hi hu

theorem issueColl_next (hb : body v s = .ok t) : issueColl sw len us body s = .next (t.retire v sw len) := by
  rw [issueColl, issueAs_body hi, State.consume_scalars hu, hb]
  exact congrArg (fun t : State => Host.Outcome.next (t.retire v sw len)) (State.noteDead_scalars hu)

theorem issueColl_traps {code : Trap} {m : Mask} (hb : body v s = .error (v.stop code m)) :
    issueColl sw len us body s = .next (s.traps v (v.trapRec code m 0 0)) :=
  issueAs_traps hi rfl (by rw [State.consume_scalars hu, hb])
end

end

/-! Flags of a slot (R125, R126). -/

section
variable {s : State} {v : View} {sw : Bool} {a b : BitVec 8} {f n : Nat} (hi : s.issuing v collective (useS a v.g.lanes ++ useS b v.g.lanes))
  (ha : ((v.sval a).setWidth 4).toNat = f) (hb : ((v.sval b).setWidth 8).toNat = n) (hn : n ≠ 0)
include hi hb

theorem execFpost_zero (hn : n = 0) : execFpost sw a b s = .next (s.retire v sw 8) :=
  issueColl_next hi (useS_reg_append a b _) (by simp only [hb, hn, if_true])

theorem execFwait_zero (hn : n = 0) : execFwait sw a b s = .next (s.retire v sw 8) :=
  issueColl_next hi (useS_reg_append a b _) (by simp only [hb, hn, if_true])

include ha hn

theorem execFpost_now (ho : v.f.out = []) (hp : v.f.posts = []) :
    execFpost sw a b s = .next ((s.modSlot v.f fun sl => sl.post f n).retire v sw 8) :=
  issueColl_next hi (useS_reg_append a b _) (by simp only [ha, hb, hn, ho, hp, List.isEmpty_nil, Bool.and_self, if_true, if_false])

theorem execFpost_later (ho : v.f.out ≠ [] ∨ v.f.posts ≠ []) : execFpost sw a b s =
    .next ((s.modFibre v.f.ref fun x => { x with posts := x.posts ++ [(f, n, x.out.map (·.id))] }).retire v sw 8) := by
  have waits : (v.f.out.isEmpty && v.f.posts.isEmpty) = false := by simpa [imp_iff_not_or] using ho
  exact issueColl_next hi (useS_reg_append a b _) (by simp only [ha, hb, hn, waits, Bool.false_eq_true, if_false])

theorem execFwait_now (hq : ∀ q ∈ v.sl.queue, q.1 ≠ f) (hf : n ≤ v.sl.flags[f]!) : execFwait sw a b s =
    .next ((s.modSlot v.f fun sl => { sl with flags := sl.flags.set! f (sl.flags[f]! - n) }).retire v sw 8) := by
  have first : (v.sl.queue.any fun q => q.1 == f) = false := by simpa using hq
  exact issueColl_next hi (useS_reg_append a b _)
    (by simp only [ha, hb, hn, first, hf, decide_true, Bool.not_false, Bool.and_self, if_true, if_false])

theorem execFwait_parks (hw : (∃ q ∈ v.sl.queue, q.1 = f) ∨ v.sl.flags[f]! < n) : execFwait sw a b s =
    .next (((s.modSlot v.f fun sl => { sl with queue := sl.queue ++ [(f, v.f.pos, n)] }).modFibre v.f.ref fun x =>
      { x with st := .parked (.flag f n) }).retire v sw 8) := by
  have waits : (!(v.sl.queue.any fun q => q.1 == f) && decide (n ≤ v.sl.flags[f]!)) = false := by
    rw [Bool.and_eq_false_iff, Bool.not_eq_false', List.any_eq_true, decide_eq_false_iff_not, Nat.not_le]
    simpa only [beq_iff_eq] using hw
  exact issueColl_next hi (useS_reg_append a b _) (by simp only [ha, hb, hn, waits, Bool.false_eq_true, if_false])

end

/-! Fibre barriers (R127). -/

/-- A fibre after the release of barrier `b` of the slot of `f`: one that was parked there is ready once its results have returned. -/
def Fibre.freed (x f : Fibre) (b : Nat) : Fibre :=
  if x.ref.cl = f.ref.cl ∧ x.ref.team = f.ref.team ∧ x.slot = f.slot ∧ x.st = .parked (.barrier b) then { x with st := .parked .results } else x

def State.freeBar (s : State) (f : Fibre) (b : Nat) : State := { s with fibres := s.fibres.map (·.freed f b) }

theorem Fibre.freed_is (x f : Fibre) (b : Nat) : ∃ st, x.freed f b = { x with st := st } := by
  unfold Fibre.freed
  split
  · exact ⟨_, rfl⟩
  · exact ⟨x.st, rfl⟩

theorem Fibre.freed_st_ne (x f : Fibre) (b : Nat) (hc : x.ref.cl = f.ref.cl) (ht : x.ref.team = f.ref.team) (hs : x.slot = f.slot) :
    (x.freed f b).st ≠ .parked (.barrier b) := by
  unfold Fibre.freed
  split
  · nofun
  next h => exact fun e => h ⟨hc, ht, hs, e⟩

theorem State.fibre?_freeBar (s : State) (f : Fibre) (b : Nat) (r : FibreRef) : (s.freeBar f b).fibre? r = (s.fibre? r).map (·.freed f b) := by
  have same : ((fun x : Fibre => x.ref == r) ∘ fun x : Fibre => x.freed f b) = fun x : Fibre => x.ref == r := funext fun x => by
    obtain ⟨st, e⟩ := x.freed_is f b
    simp only [Function.comp_apply, e]
  simp only [State.freeBar, State.fibre?, List.find?_map, same]

theorem State.slotLive_length (s : State) (cl team slot : Nat) : (s.slotLive cl team slot).length =
    s.fibres.countP fun f => f.st != .exited && (f.ref.cl == cl && f.ref.team == team && f.slot == slot) := by
  rw [State.slotLive, State.slotFibres, List.filter_filter, ← List.countP_eq_length_filter]

/-- Fibres that stay in their slot and do not exit: no fewer are live in a slot. -/
theorem State.slotLive_le_modFibre (s : State) (r : FibreRef) {u : Fibre → Fibre}
    (hu : ∀ f, (u f).ref = f.ref ∧ (u f).slot = f.slot ∧ (f.st ≠ .exited → (u f).st ≠ .exited)) (cl team slot : Nat) :
    (s.slotLive cl team slot).length ≤ ((s.modFibre r u).slotLive cl team slot).length := by
  rw [State.slotLive_length, State.slotLive_length, State.modFibre, List.countP_map]
  refine List.countP_mono_left fun f _ hf => ?_
  obtain ⟨href, hslot, hst⟩ := hu f
  rw [Bool.and_eq_true, bne_iff_ne] at hf
  dsimp only [Function.comp_apply]
  split
  · rw [href, hslot, hf.2, bne_iff_ne.2 (hst hf.1), Bool.and_self]
  · rw [hf.2, bne_iff_ne.2 hf.1, Bool.and_self]

/-- A change that leaves the slot and the state of every fibre: as many are live in a slot. -/
theorem State.slotLive_modFibre_length (s : State) (r : FibreRef) {u : Fibre → Fibre}
    (hu : ∀ f, (u f).ref = f.ref ∧ (u f).slot = f.slot ∧ (u f).st = f.st) (cl team slot : Nat) :
    ((s.modFibre r u).slotLive cl team slot).length = (s.slotLive cl team slot).length := by
  rw [State.slotLive_length, State.slotLive_length, State.modFibre, List.countP_map]
  refine List.countP_congr fun f _ => ?_
  obtain ⟨href, hslot, hst⟩ := hu f
  dsimp only [Function.comp_apply]
  split
  · rw [href, hslot, hst]
  · rfl

theorem Slot.of_slot? {s : State} {f : Fibre} {sl : Slot} (h : s.slot? f = some sl) :
    sl.cl = f.ref.cl ∧ sl.team = f.ref.team ∧ sl.slot = f.slot := by
  simpa [Slot.is, and_assoc] using List.find?_some h

/-- The count of a barrier changed. -/
def Slot.modBar (sl : Slot) (b : Nat) (u : Nat → Nat) : Slot := { sl with bars := sl.bars.set! b (u sl.bars[b]!) }

theorem Slot.bar_modBar (sl : Slot) {b : Nat} (u : Nat → Nat) (hb : b < 4) : (sl.modBar b u).bars[b]! = u sl.bars[b]! := set_get_self _ _ hb

theorem Slot.modBar_zero (sl : Slot) (b : Nat) (u : Nat → Nat) : (sl.modBar b u).modBar b (fun _ => 0) = sl.modBar b fun _ => 0 := by
  simp only [Slot.modBar, Vector.set!_eq_setIfInBounds, Vector.setIfInBounds_setIfInBounds]

theorem State.slot?_modBar {s : State} {f : Fibre} {sl : Slot} (hsl : s.slot? f = some sl) (b : Nat) (u : Nat → Nat) :
    (s.modSlot f (·.modBar b u)).slot? f = some (sl.modBar b u) :=
  (s.modSlot_at f (·.modBar b u) fun _ _ _ _ h => h).trans (congrArg (Option.map _) hsl)

/-- An arrival is counted, and releases the barrier when all of the slot's live fibres have arrived. -/
theorem State.countBar_eq {s : State} {f : Fibre} {sl : Slot} {b : Nat} (hsl : s.slot? f = some sl) (hb : b < 4) : s.countBar f b =
    if (s.slotLive f.ref.cl f.ref.team f.slot).length ≤ sl.bars[b]! + 1 then (s.freeBar f b).modSlot f (·.modBar b fun _ => 0)
    else s.modSlot f (·.modBar b (· + 1)) := by
  have counted : s.countBar f b = (s.modSlot f (·.modBar b (· + 1))).releaseBar f.ref.cl f.ref.team f.slot b := rfl
  have found : (s.modSlot f (·.modBar b (· + 1))).slots.find? (fun x => x.is f.ref.cl f.ref.team f.slot) = some (sl.modBar b (· + 1)) :=
    State.slot?_modBar hsl b (· + 1)
  have arrived : ((sl.modBar b (· + 1)).bars[b]! != 0 && decide ((s.slotLive f.ref.cl f.ref.team f.slot).length ≤ (sl.modBar b (· + 1)).bars[b]!)) =
      decide ((s.slotLive f.ref.cl f.ref.team f.slot).length ≤ sl.bars[b]! + 1) := by
    rw [sl.bar_modBar _ hb]
    rfl
  have slots : (s.modSlot f (·.modBar b (· + 1))).slots.map (fun x => if x.is f.ref.cl f.ref.team f.slot then x.modBar b fun _ => 0 else x) =
      s.slots.map fun x => if x.is f.ref.cl f.ref.team f.slot then x.modBar b fun _ => 0 else x :=
    (map_ite_map_ite (fun x : Slot => x.is f.ref.cl f.ref.team f.slot) (u := (·.modBar b (· + 1))) (·.modBar b fun _ => 0) (fun _ => rfl) s.slots).trans
      (by simp only [Slot.modBar_zero])
  have live : (s.modSlot f (·.modBar b (· + 1))).slotLive f.ref.cl f.ref.team f.slot = s.slotLive f.ref.cl f.ref.team f.slot := rfl
  rw [counted, State.releaseBar]
  simp only [found, live, arrived, decide_eq_true_eq]
  refine if_congr Iff.rfl ?_ rfl
  simp only [Bool.and_eq_true, beq_iff_eq, and_assoc]
  exact congrArg (fun l : List Slot => { s.freeBar f b with slots := l }) slots

/-- While the barrier awaits the arrival, it completes the set exactly when it is the last awaited. -/
theorem State.completesBar_eq (s : State) (f : Fibre) (sl : Slot) (b : Nat)
    (h : sl.bars[b]! + 1 + (f.arrivals.filter fun x => x.1 == b).length ≤ (s.slotLive f.ref.cl f.ref.team f.slot).length) :
    s.completesBar f sl b =
      decide (sl.bars[b]! + 1 + (f.arrivals.filter fun x => x.1 == b).length = (s.slotLive f.ref.cl f.ref.team f.slot).length) := by
  unfold State.completesBar
  dsimp only
  rw [Nat.mod_eq_of_lt (by omega), Nat.add_right_comm]
  rfl

section
variable {s : State} {v : View} {sw : Bool} {a : BitVec 8} {b : Nat} (hi : s.issuing v collective (useS a v.g.lanes))
  (ha : ((v.sval a).setWidth 2).toNat = b)
include hi ha

theorem execFbar_eq : execFbar sw a s = .next (State.retire
    (let s' := if s.completesBar v.f v.sl b then s else s.modFibre v.f.ref fun x => { x with st := .parked (.barrier b) }
     if (v.f.out.map (·.id)).isEmpty && v.f.arrivals.isEmpty then s'.countBar v.f b
     else s'.modFibre v.f.ref fun x => { x with arrivals := x.arrivals ++ [(b, v.f.out.map (·.id))] }) v sw 8) :=
  issueColl_next hi (useS_reg a _) (by simp only [ha])

section
variable (hb : b < 4) (ho : v.f.out = []) (hr : v.f.arrivals = [])
include hb ho hr

theorem execFbar_last (hp : (s.slotLive v.f.ref.cl v.f.ref.team v.f.slot).length = v.sl.bars[b]! + 1) :
    execFbar sw a s = .next (((s.freeBar v.f b).modSlot v.f (·.modBar b fun _ => 0)).retire v sw 8) := by
  obtain ⟨-, -, -, -, hsl⟩ := State.view?_eq_some hi.1
  have last : s.completesBar v.f v.sl b = true := by rw [State.completesBar_eq] <;> simp [hr, hp]
  have counted := State.countBar_eq hsl hb
  rw [if_pos hp.le] at counted
  simp only [execFbar_eq hi ha, last, ho, hr, List.map_nil, List.isEmpty_nil, Bool.and_self, if_true, counted]

theorem execFbar_early (hp : v.sl.bars[b]! + 1 < (s.slotLive v.f.ref.cl v.f.ref.team v.f.slot).length) :
    execFbar sw a s = .next (((s.modFibre v.f.ref fun x => { x with st := .parked (.barrier b) }).modSlot v.f (·.modBar b (· + 1))).retire v sw 8) := by
  obtain ⟨-, -, -, -, hsl⟩ := State.view?_eq_some hi.1
  have early : s.completesBar v.f v.sl b = false := by
    rw [State.completesBar_eq] <;> simp [hr, hp.le, hp.ne]
  have more := s.slotLive_le_modFibre v.f.ref (u := fun x => { x with st := .parked (.barrier b) })
    (fun _ => ⟨rfl, rfl, fun _ => nofun⟩) v.f.ref.cl v.f.ref.team v.f.slot
  have counted := State.countBar_eq (s := s.modFibre v.f.ref fun x => { x with st := .parked (.barrier b) }) hsl hb
  rw [if_neg (hp.trans_le more).not_ge] at counted
  simp only [execFbar_eq hi ha, early, ho, hr, List.map_nil, List.isEmpty_nil, Bool.and_self, Bool.false_eq_true, if_true, if_false, counted]
end

section
variable (hl : v.f.out ≠ [] ∨ v.f.arrivals ≠ [])
include hl

theorem execFbar_later_early (hp : v.sl.bars[b]! + 1 + (v.f.arrivals.filter fun x => x.1 == b).length <
      (s.slotLive v.f.ref.cl v.f.ref.team v.f.slot).length) : execFbar sw a s =
    .next (((s.modFibre v.f.ref fun x => { x with st := .parked (.barrier b) }).modFibre v.f.ref fun x =>
      { x with arrivals := x.arrivals ++ [(b, v.f.out.map (·.id))] }).retire v sw 8) := by
  have waits : ((v.f.out.map (·.id)).isEmpty && v.f.arrivals.isEmpty) = false := by simpa [imp_iff_not_or] using hl
  simp only [execFbar_eq hi ha, State.completesBar_eq s v.f v.sl b hp.le, decide_eq_false hp.ne, waits, Bool.false_eq_true, if_false]

theorem execFbar_later_last (hp : v.sl.bars[b]! + 1 + (v.f.arrivals.filter fun x => x.1 == b).length =
      (s.slotLive v.f.ref.cl v.f.ref.team v.f.slot).length) : execFbar sw a s =
    .next ((s.modFibre v.f.ref fun x => { x with arrivals := x.arrivals ++ [(b, v.f.out.map (·.id))] }).retire v sw 8) := by
  have waits : ((v.f.out.map (·.id)).isEmpty && v.f.arrivals.isEmpty) = false := by simpa [imp_iff_not_or] using hl
  simp only [execFbar_eq hi ha, State.completesBar_eq s v.f v.sl b hp.le, decide_eq_true hp, waits, Bool.false_eq_true, if_true, if_false]
end

end

end Sys2Proof.Machine

open Sys2Proof Sys2Proof.Machine

/-- Settles O21: each form of FPOST, FWAIT and FBAR by its own equation. -/
theorem flagsAndBarriers : Obligations.FlagsAndBarriers := by
  unfold Obligations.FlagsAndBarriers
  intro s v sw a b f n bar flag
  simp only [exec_fpost, exec_fwait, exec_fbar]
  refine ⟨fun hi => ⟨fun hn => ⟨execFpost_zero hi rfl hn, execFwait_zero hi rfl hn⟩, fun ho hp hn => execFpost_now hi rfl rfl hn ho hp,
    fun hl hn => execFpost_later hi rfl rfl hn hl, fun hq hf hn => execFwait_now hi rfl rfl hn hq hf,
    fun hw hn => execFwait_parks hi rfl rfl hn hw⟩, fun hi => ?_⟩
  have hb : bar < 4 := ((v.sval a).setWidth 2).isLt
  exact ⟨fun ho hr hp => execFbar_last hi rfl hb ho hr hp, fun ho hr hp => execFbar_early hi rfl hb ho hr hp,
    fun hl _ => ⟨execFbar_later_early hi rfl hl, execFbar_later_last hi rfl hl⟩⟩

end

section
/-! ### Windows given away (R124) -/

namespace Sys2Proof.Machine

open Sys2Proof

/-- What R124 asks of a gift of `g` granules from the window `gq` to the window `tq`. -/
def Quota.fits (gq tq : Quota) (g : Nat) : Prop :=
  g ≤ 32 ∧ tq.pbase + ceilDiv tq.pcount 8 = gq.pbase + gq.plo ∧ gq.plo + g ≤ ceilDiv gq.pcount 8 - 1 ∧
    8 * (ceilDiv tq.pcount 8 + g) ≤ 256 - (if tq.sa then tq.scount else 0)

/-- The rows that change hands, and the slack of the taker. -/
def Quota.given (gq : Quota) (g : Nat) : List Nat := (upTo (8 * g)).map fun i => 8 * (gq.pbase + gq.plo) + i
def Quota.slack (tq : Quota) : List Nat := (upTo (8 * ceilDiv tq.pcount 8 - tq.pcount)).map fun i => 8 * tq.pbase + tq.pcount + i

theorem mem_map_upTo (base n r : Nat) : (r ∈ (upTo n).map fun i => base + i) ↔ base ≤ r ∧ r < base + n := by
  simp only [upTo, List.mem_map, List.mem_range]
  constructor
  · rintro ⟨i, hi, rfl⟩
    omega
  · exact fun ⟨hl, hr⟩ => ⟨r - base, by omega, by omega⟩

theorem Quota.mem_given (gq : Quota) (g r : Nat) : r ∈ gq.given g ↔ 8 * (gq.pbase + gq.plo) ≤ r ∧ r < 8 * (gq.pbase + gq.plo + g) := by
  rw [Quota.given, mem_map_upTo]
  omega

theorem Quota.mem_slack (tq : Quota) (r : Nat) :
    r ∈ tq.slack ↔ 8 * tq.pbase + tq.pcount ≤ r ∧ r < 8 * (tq.pbase + ceilDiv tq.pcount 8) := by
  have granules : tq.pcount ≤ 8 * ceilDiv tq.pcount 8 := by
    unfold ceilDiv
    omega
  rw [Quota.slack, mem_map_upTo]
  omega

theorem Slot.kills_eq (sl : Slot) (rs : List Nat) : rs.foldl Slot.kill sl = { sl with rows := sl.rows.filter fun y => y.1 ∉ rs } := by
  induction rs generalizing sl with
  | nil => simp
  | cons r rs ih =>
    have rows : (adel sl.rows r).filter (fun y => decide (y.1 ∉ rs)) = sl.rows.filter fun y => decide (y.1 ∉ r :: rs) := by
      rw [adel, List.filter_filter]
      refine List.filter_congr fun y _ => ?_
      rw [Bool.eq_iff_iff]
      simp [and_comm]
    rw [List.foldl_cons, ih]
    exact congrArg (fun l => { sl with rows := l }) rows

/-- A slot after a gift: the rows that change hands and the taker's slack are dead. -/
def Slot.afterGift (sl : Slot) (gq tq : Quota) (g : Nat) : Slot :=
  { sl with rows := sl.rows.filter fun y => ¬((8 * (gq.pbase + gq.plo) ≤ y.1 ∧ y.1 < 8 * (gq.pbase + gq.plo + g)) ∨
      (8 * tq.pbase + tq.pcount ≤ y.1 ∧ y.1 < 8 * (tq.pbase + ceilDiv tq.pcount 8))) }

theorem Slot.kills_gift (sl : Slot) (gq tq : Quota) (g : Nat) : (gq.given g ++ tq.slack).foldl Slot.kill sl = sl.afterGift gq tq g := by
  simp only [Slot.kills_eq, Slot.afterGift, List.mem_append, Quota.mem_given, Quota.mem_slack]

/-- The state after a gift of `g` granules from `f` to `tk`. -/
def State.give (s : State) (f tk : Fibre) (g : Nat) : State :=
  ((s.modFibre f.ref fun x => { x with quota := { quotaOf f.quota with plo := (quotaOf f.quota).plo + g }.bits }).modFibre tk.ref fun x =>
    { x with quota := { quotaOf tk.quota with pcount := 8 * (ceilDiv (quotaOf tk.quota).pcount 8 + g) }.bits }).modSlot f
      (·.afterGift (quotaOf f.quota) (quotaOf tk.quota) g)

section
variable {s : State} {v : View} {sw : Bool} {a b : BitVec 8} {t g : Nat} (hi : s.issuing v collective (useS a v.g.lanes ++ useS b v.g.lanes))
  (ha : ((v.sval a).setWidth 6).toNat = t) (hb : ((v.sval b).setWidth 6).toNat = g)
include hi hb

theorem execRequota_zero (hg : g = 0) : execRequota sw a b s = .next (s.retire v sw 8) :=
  issueColl_next hi (useS_reg_append a b _) (by simp only [hb, hg, if_true])

variable (hg : g ≠ 0)
include ha hg

theorem execRequota_noTaker (ht : ∀ x ∈ s.slotLive v.f.ref.cl v.f.ref.team v.f.slot, x.ref.fib = t → x.ref = v.f.ref) :
    execRequota sw a b s = .next (s.traps v (v.trapRec .fibreQuota v.g.lanes 0 0)) := by
  have none : (s.slotLive v.f.ref.cl v.f.ref.team v.f.slot).find? (fun x => x.ref.fib == t && x.ref != v.f.ref) = none := by simpa using ht
  exact issueColl_traps hi (useS_reg_append a b _) (by simp only [ha, hb, hg, none, if_false])

variable {tk : Fibre}
  (ht : (s.slotLive v.f.ref.cl v.f.ref.team v.f.slot).find? (fun x => x.ref.fib == t && x.ref != v.f.ref) = some tk)
include ht

theorem execRequota_misfit (hf : ¬(quotaOf v.f.quota).fits (quotaOf tk.quota) g) :
    execRequota sw a b s = .next (s.traps v (v.trapRec .fibreQuota v.g.lanes 0 0)) := by
  refine issueColl_traps hi (useS_reg_append a b _) ?_
  simp only [ha, hb, hg, ht, if_false, View.require_bind, decide_eq_true_eq, beq_iff_eq, ← ite_and]
  exact if_neg hf

theorem execRequota_pending (hf : (quotaOf v.f.quota).fits (quotaOf tk.quota) g) (hp : ∃ r ∈ v.sl.pend, r ∈ (quotaOf v.f.quota).given g) :
    execRequota sw a b s = .next (s.traps v (v.trapRec .markerHazard v.g.lanes 0 0)) := by
  have met : ((quotaOf v.f.quota).given g).any v.sl.pend.contains = true := by simpa [and_comm] using hp
  obtain ⟨h32, hnext, hkeeps, hroom⟩ := hf
  refine issueColl_traps hi (useS_reg_append a b _) ?_
  simp only [Quota.given] at met
  simp only [ha, hb, hg, ht, if_false, View.require_bind, h32, hnext, hkeeps, hroom, decide_true, BEq.rfl, if_true, met, Bool.not_true,
    Bool.false_eq_true]

theorem execRequota_gives (hf : (quotaOf v.f.quota).fits (quotaOf tk.quota) g) (hp : ∀ r ∈ v.sl.pend, r ∉ (quotaOf v.f.quota).given g) :
    execRequota sw a b s = .next ((s.give v.f tk g).retire v sw 8) := by
  have free : ((quotaOf v.f.quota).given g).any v.sl.pend.contains = false := by
    simpa using fun r hr hm => hp r hm hr
  obtain ⟨h32, hnext, hkeeps, hroom⟩ := hf
  refine issueColl_next hi (useS_reg_append a b _) ?_
  have gift : (fun sl : Slot => ((quotaOf v.f.quota).given g ++ (quotaOf tk.quota).slack).foldl Slot.kill sl) =
      (·.afterGift (quotaOf v.f.quota) (quotaOf tk.quota) g) := funext fun sl => sl.kills_gift ..
  simp only [Quota.given, Quota.slack] at free gift
  simp only [ha, hb, hg, ht, if_false, View.require_bind, h32, hnext, hkeeps, hroom, decide_true, BEq.rfl, if_true, free, Bool.not_false, gift]
  rfl

end

end Sys2Proof.Machine

open Sys2Proof Sys2Proof.Machine

/-- Settles O20: nothing to give, no taker, a window that does not fit, a pending row, or the gift. -/
theorem requotaMovesGranules : Obligations.RequotaMovesGranules := by
  unfold Obligations.RequotaMovesGranules
  intro s v sw a b hi t g gq
  rw [exec_requota]
  refine ⟨execRequota_zero hi rfl, execRequota_noTaker hi rfl rfl, fun tk hg ht => ⟨execRequota_misfit hi rfl rfl hg ht, ?_, ?_⟩⟩
  · exact fun hf ⟨r, hr, hm⟩ => execRequota_pending hi rfl rfl hg ht hf ⟨r, hr, (gq.mem_given g r).2 hm⟩
  · exact fun hf hp => execRequota_gives hi rfl rfl hg ht hf fun r hr hm => hp r hr ((gq.mem_given g r).1 hm)

end

section
/-! ### The events of a slot: what was deferred is counted, and the turn passes (R118, R120, R125, R127) -/

namespace Sys2Proof.Machine

open Sys2Proof

theorem Fibre.returned_iff (f : Fibre) (ids : List Nat) : f.returned ids = true ↔ ∀ i ∈ ids, ∀ o ∈ f.out, o.id ≠ i := by
  simp [Fibre.returned]

theorem Fibre.returned_false_iff (f : Fibre) (ids : List Nat) : f.returned ids = false ↔ ∃ i ∈ ids, ∃ o ∈ f.out, o.id = i := by
  simp [Fibre.returned]

/-! What an arrival that is counted leaves. -/

section
variable {s : State} {f : Fibre} {sl : Slot} {b : Nat} (hsl : s.slot? f = some sl) (hb : b < 4)
include hsl hb

theorem State.slot?_countBar : (s.countBar f b).slot? f =
    some (sl.modBar b fun n => if (s.slotLive f.ref.cl f.ref.team f.slot).length ≤ n + 1 then 0 else n + 1) := by
  rw [State.countBar_eq hsl hb]
  split
  next h => simpa only [Slot.modBar, if_pos h] using State.slot?_modBar (s := s.freeBar f b) hsl b fun _ => 0
  next h => simpa only [Slot.modBar, if_neg h] using State.slot?_modBar hsl b (· + 1)

theorem State.fibre?_countBar {x : Fibre} (hx : s.fibre? f.ref = some x) : ∃ st, (s.countBar f b).fibre? f.ref = some { x with st := st } ∧
    (sl.bars[b]! + 1 < (s.slotLive f.ref.cl f.ref.team f.slot).length → st = x.st) := by
  rw [State.countBar_eq hsl hb]
  split
  next h =>
    obtain ⟨st, e⟩ := x.freed_is f b
    refine ⟨st, ?_, fun early => absurd h early.not_ge⟩
    rw [← e]
    exact (s.fibre?_freeBar f b f.ref).trans (congrArg (Option.map _) hx)
  next => exact ⟨x.st, hx, fun _ => rfl⟩

theorem State.countBar_frees (h : (s.slotLive f.ref.cl f.ref.team f.slot).length ≤ sl.bars[b]! + 1) {y : Fibre} (hy : y ∈ (s.countBar f b).fibres)
    (hc : y.ref.cl = f.ref.cl) (ht : y.ref.team = f.ref.team) (hs : y.slot = f.slot) : y.st ≠ .parked (.barrier b) := by
  rw [State.countBar_eq hsl hb, if_pos h] at hy
  obtain ⟨x, -, rfl⟩ := List.mem_map.1 hy
  obtain ⟨st, e⟩ := x.freed_is f b
  rw [e] at hc ht hs
  exact x.freed_st_ne f b hc ht hs
end

section
variable {s : State} {r : FibreRef} {x : Fibre} (hx : s.fibre? r = some x)
include hx

/-! Deferred posts and arrivals. -/

section
variable {flag n : Nat} {ids : List Nat} {rest : List (Nat × Nat × List Nat)} (hp : x.posts = (flag, n, ids) :: rest)
include hp

theorem execDeferredFpostApply_posts (h : ∀ i ∈ ids, ∀ o ∈ x.out, o.id ≠ i) : execDeferredFpostApply r s =
    .next ((s.modSlot x (·.post flag n)).modFibre r fun x => { x with posts := rest }) := by
  simp only [execDeferredFpostApply, hx, hp, (x.returned_iff ids).2 h, if_true]

theorem execDeferredFpostApply_waits (h : ∃ i ∈ ids, ∃ o ∈ x.out, o.id = i) : execDeferredFpostApply r s = .next s := by
  simp only [execDeferredFpostApply, hx, hp, (x.returned_false_iff ids).2 h, Bool.false_eq_true, if_false]
end

section
variable {b : Nat} {ids : List Nat} {rest : List (Nat × List Nat)} (ha : x.arrivals = (b, ids) :: rest)
include ha

theorem execFbarArrivalCount_counts (h : ∀ i ∈ ids, ∀ o ∈ x.out, o.id ≠ i) : execFbarArrivalCount r s =
    .next ((s.modFibre r fun x => { x with arrivals := rest }).countBar x b) := by
  simp only [execFbarArrivalCount, hx, ha, (x.returned_iff ids).2 h, if_true]

theorem execFbarArrivalCount_waits (h : ∃ i ∈ ids, ∃ o ∈ x.out, o.id = i) : execFbarArrivalCount r s = .next s := by
  simp only [execFbarArrivalCount, hx, ha, (x.returned_false_iff ids).2 h, Bool.false_eq_true, if_false]
end

/-! Forced rotation. -/

/-- The distance of a fibre's position from the slot's holder, or its last holder, in cyclic order. -/
def Slot.distance (sl : Slot) (y : Fibre) : Nat := (y.pos + 3 - (sl.holder.getD sl.last) % 4) % 4

theorem execForcedRotation_eq {sl : Slot} (hsl : s.slot? x = some sl) : execForcedRotation r s =
    if s.urgent sl x = true ∧ ∀ y ∈ s.slotFibres r.cl r.team x.slot, s.urgent sl y = true → sl.distance x ≤ sl.distance y then
      .next (s.modSlot x fun sl => { sl with holder := some x.pos, last := x.pos })
    else .next s := by
  cases h : sl.holder with
  | some p =>
    simp only [execForcedRotation, hx, hsl, h, Bool.and_eq_true, List.all_eq_true, List.mem_filter, and_imp, decide_eq_true_eq, Slot.distance,
      Option.getD_some]
  | none =>
    simp only [execForcedRotation, hx, hsl, h, Bool.and_eq_true, List.all_eq_true, List.mem_filter, and_imp, decide_eq_true_eq, Slot.distance,
      Option.getD_none]

theorem State.urgent_iff {sl : Slot} (hsl : s.slot? x = some sl) (y : Fibre) : s.urgent sl y = true ↔
    (y.st = .run ∧ 128 ≤ y.age) ∧ sl.holder ≠ some y.pos ∧
      ¬∃ z ∈ s.slotFibres r.cl r.team x.slot, sl.holder = some z.pos ∧ z.st = .run ∧ 128 ≤ z.age := by
  obtain ⟨hc, ht, hn⟩ := Slot.of_slot? hsl
  simp [State.urgent, Fibre.aged, hc, ht, hn, State.fibre?_ref hx, and_assoc]

/-! The limit of a gang's turn. -/

theorem execGangTurnLimit_eq : execGangTurnLimit r s =
    if 1 < x.gangs.length ∧ ∃ g ∈ x.gangs, g.id = x.turn ∧ 64 ≤ g.count then .next (s.modFibre r Fibre.passTurn) else .next s := by
  simp [execGangTurnLimit, hx, Fibre.parted]

end

/-! The turn. -/

/-- The gangs in the order in which the turn goes round, the one that has it last. -/
theorem Fibre.passTurn_to {f : Fibre} {before after : List Gang} {g x : Gang} (hn : (f.gangs.map (·.id)).Nodup)
    (hg : f.gangs = before ++ g :: after) (ht : f.turn = g.id) (hx : (after ++ before ++ [g]).find? f.mayTurn = some x) :
    f.passTurn = { f with turn := x.id, gangs := f.gangs.map fun y => { y with count := 0 } } := by
  have at_ : f.gangs.findIdx? (fun y => y.id == f.turn) = some before.length := by
    rw [hg, List.map_append, List.nodup_append] at hn
    obtain ⟨-, -, apart⟩ := hn
    have earlier : before.findIdx? (fun y => y.id == f.turn) = none := by
      simpa [ht] using fun (y : Gang) hy => apart y.id (List.mem_map_of_mem hy) g.id (by simp)
    rw [hg, List.findIdx?_append, earlier]
    simp [List.findIdx?_cons, ht]
  have cyc : f.gangs.drop (before.length + 1) ++ f.gangs.take (before.length + 1) = after ++ before ++ [g] := by
    rw [hg, List.append_cons, List.drop_left' (by simp), List.take_left' (by simp), List.append_assoc]
  have same (h : Gang) : ({ f with gangs := f.gangs.map fun y => { y with count := 0 } } : Fibre).mayTurn h = f.mayTurn h := rfl
  unfold Fibre.passTurn
  simp only [at_, Option.getD_some, cyc, same, hx]

end Sys2Proof.Machine

open Sys2Proof Sys2Proof.Machine

/-- Settles O22: each event by what it finds, and the turn by the first gang, in cyclic order, that may take it. -/
theorem slotEventsComplete : Obligations.SlotEventsComplete := by
  unfold Obligations.SlotEventsComplete
  refine ⟨fun s r x sl hx hsl => ⟨?post, ?arrival, ?rotation, ?limit, ?below⟩, ?turn⟩
  case post =>
    exact fun flag n ids rest hp => ⟨fun h => (exec_deferredFpostApply s r).trans (execDeferredFpostApply_posts hx hp h),
      fun h => (exec_deferredFpostApply s r).trans (execDeferredFpostApply_waits hx hp h)⟩
  case arrival =>
    intro b ids rest ha hb parts
    refine ⟨fun h => ?_, fun h => (exec_fbarArrivalCount s r).trans (execFbarArrivalCount_waits hx ha h)⟩
    obtain rfl := State.fibre?_ref hx
    have live := s.slotLive_modFibre_length x.ref (u := fun x => { x with arrivals := rest }) (fun _ => ⟨rfl, rfl, rfl⟩) x.ref.cl x.ref.team x.slot
    have own : (s.modFibre x.ref fun x => { x with arrivals := rest }).fibre? x.ref = some { x with arrivals := rest } :=
      (s.modFibre_at x.ref (fun x => { x with arrivals := rest }) fun _ => rfl).trans (congrArg (Option.map _) hx)
    obtain ⟨st, found, early⟩ := State.fibre?_countBar (s := s.modFibre x.ref fun x => { x with arrivals := rest }) hsl hb own
    rw [live] at early
    refine ⟨_, _, _, (exec_fbarArrivalCount s x.ref).trans (execFbarArrivalCount_counts hx ha h), State.slot?_countBar hsl hb, found, rfl, rfl, ?_,
      fun c _ hc => set_get_other _ _ hc, fun y hy hp =>
      State.countBar_frees (s := s.modFibre x.ref fun x => { x with arrivals := rest }) hsl hb (live.trans_le hp) hy, early⟩
    rw [Slot.bar_modBar _ _ hb, live]
  case rotation =>
    intro aged urgent first
    have urgent_iff (y : Fibre) : s.urgent sl y = true ↔ urgent y := State.urgent_iff hx hsl y
    simp only [exec_forcedRotation, execForcedRotation_eq hx hsl, urgent_iff]
    refine ⟨fun hu hf => if_pos ⟨hu, hf⟩, fun _ ⟨y, hy, hu, hf⟩ => if_neg fun h => ?_, fun hu => if_neg fun h => hu h.1⟩
    exact (h.2 y hy hu).not_gt hf
  case limit =>
    intro hl hg
    rw [exec_gangTurnLimit, execGangTurnLimit_eq hx, if_pos ⟨hl, hg⟩]
  case below =>
    intro h
    rw [exec_gangTurnLimit, execGangTurnLimit_eq hx, if_neg]
    rintro ⟨hl, g, hg, ht, hc⟩
    rcases h with h | h
    · omega
    · exact (h g hg ht).not_ge hc
  case turn =>
    intro f before after g x hn hg ht hx next
    refine Fibre.passTurn_to hn hg ht (List.find?_eq_some_iff_append.2 ⟨hx, ?_⟩)
    obtain ⟨a, b, rfl, ha⟩ | ⟨hafter, a, b, rfl, ha⟩ | ⟨hothers, rfl⟩ := next
    · exact ⟨a, b ++ before ++ [g], by simp, by simpa using ha⟩
    · exact ⟨after ++ a, b ++ [g], by simp, by simpa [or_imp, forall_and] using ⟨hafter, ha⟩⟩
    · exact ⟨after ++ before, [], rfl, by simpa using hothers⟩

end

section
/-! ### Results held back, and their return (R101, R114, R478) -/

namespace Sys2Proof.Machine

open Sys2Proof

theorem mem_addOnces {α : Type} [DecidableEq α] (xs l : List α) (y : α) : y ∈ xs.foldl addOnce l ↔ y ∈ l ∨ y ∈ xs := by
  induction xs generalizing l with
  | nil => simp
  | cons x xs ih => rw [List.foldl_cons, ih, mem_addOnce, List.mem_cons, or_assoc]

/-! The rows of a result that is held back. -/

namespace Slot
variable (sl : Slot) {q r : Nat} {rs : List Nat}

theorem enliven_self : (aget (sl.enliven r).rows r).isSome = true := by
  unfold Slot.enliven
  split
  next h => exact h
  · exact congrArg Option.isSome (aget_write_self ..)

theorem enliven_keeps (h : (aget sl.rows q).isSome = true) : (aget (sl.enliven r).rows q).isSome = true := by
  by_cases e : q = r
  · exact e ▸ enliven_self sl
  · rwa [aget_enliven_other _ _ e]

theorem enlivens_live (h : (aget sl.rows q).isSome = true ∨ q ∈ rs) : (aget (rs.foldl Slot.enliven sl).rows q).isSome = true := by
  induction rs generalizing sl with
  | nil => simpa using h
  | cons r rs ih =>
    refine ih _ ?_
    rcases h with h | h
    · exact .inl (enliven_keeps sl h)
    · rcases List.mem_cons.1 h with rfl | h
      · exact .inl (enliven_self sl)
      · exact .inr h

theorem enliven_pend : (sl.enliven r).pend = sl.pend := by
  unfold Slot.enliven
  split <;> rfl

theorem enlivens_pend : (rs.foldl Slot.enliven sl).pend = sl.pend := by
  induction rs generalizing sl with
  | nil => rfl
  | cons r rs ih => rw [List.foldl_cons, ih, enliven_pend]

theorem mem_pend_defer (o : Out) : q ∈ (sl.defer o).pend ↔ q ∈ sl.pend ∨ q ∈ o.rows := by
  rw [Slot.defer, enlivens_pend, mem_addOnces]

theorem defer_live {o : Out} (h : q ∈ o.rows) : (aget (sl.defer o).rows q).isSome = true := enlivens_live _ (.inr h)

end Slot

section
variable (v : View) (w : Bool) (d : BitVec 8)

theorem View.mem_updRows_dstUpds {rs : List (Nat × DWord)} {r : Nat} (hr : quotaRow v.f.quota d.toNat = some r) (hne : rs ≠ []) :
    r ∈ updRows (v.dstUpds false w d rs) := by
  rw [v.dstUpds_vector, View.vecUpds_eq _ _ _ _ hne, hr, mem_updRows]
  exact ⟨_, _, .head _⟩

/-- A dead read that an instruction with a held result notes goes with the result. -/
theorem View.notesDead_held (us : List Use) {f : Fibre} {o : Out} (h : f.out = v.f.out ++ [o]) :
    v.notesDead us f = { f with out := v.f.out ++ [{ o with fps := o.fps ||| if v.readsDead us then 0x40 else 0 }] } := by
  unfold View.notesDead
  cases v.readsDead us with
  | true => simp [h]
  | false => simp [← h]

theorem View.laneFibre_long {rs : List (Nat × DWord × NumSt)} (hne : rs ≠ []) (f : Fibre) : v.laneFibre true false w d rs f =
    (v.rngs rs f).defer (Out.of (v.dstUpds false w d (rs.map fun x => (x.1, x.2.1))) (laneFlags rs).1 (laneFlags rs).2) := by
  simp [View.laneFibre, hne]

theorem View.laneSlot_long {rs : List (Nat × DWord × NumSt)} (hne : rs ≠ []) (sl : Slot) : v.laneSlot true false w d rs sl =
    sl.defer (Out.of (v.dstUpds false w d (rs.map fun x => (x.1, x.2.1)))) := by
  simp [View.laneSlot, hne]

/-- What an instruction of the lane loop of the long class adds to its fibre (R101, R114). -/
theorem View.laneFibre_long_outcome {rs : List (Nat × DWord × NumSt)} (hne : rs ≠ []) (us : List Use) (g len : Nat) (sw : Bool) :
    ((v.notesDead us (v.laneFibre true false w d rs v.f)).retire g len sw).out = v.f.out ++
        [{ Out.of (v.dstUpds false w d (rs.map fun x => (x.1, x.2.1))) ((laneFlags rs).1 ||| if v.readsDead us then 0x40 else 0) (laneFlags rs).2
           with id := v.f.nextOut }] ∧
      ((v.notesDead us (v.laneFibre true false w d rs v.f)).retire g len sw).fps = v.f.fps := by
  obtain ⟨x, rngs⟩ := v.rngs_is v.f rs
  obtain ⟨gs, turn, st, retired, -⟩ := Fibre.retire_is (v.notesDead us (v.laneFibre true false w d rs v.f)) g len sw
  rw [retired, v.laneFibre_long w d hne, rngs, v.notesDead_held us rfl]
  exact ⟨rfl, rfl⟩

theorem View.runs_ne_nil {h : Hdr} (ha : v.active h ≠ 0) : v.runs h false ≠ [] := fun e => ha <| by
  refine BitVec.eq_of_getLsbD_eq fun l hl => ?_
  have none : l ∉ lanesOf (v.active h) := by
    rw [show lanesOf (v.active h) = [] from e]
    exact List.not_mem_nil
  rw [mem_lanesOf hl] at none
  simpa using none

end

/-! The return of a result. -/

theorem exec_resultReturn (s : State) (r : FibreRef) (n : Nat) : exec (.resultReturn r n) s = execResultReturn r n s := rfl

/-- The writes of registers and flags that a result makes when it returns: with an error in its data only the flags of sr.fps (R478). -/
def State.writeBack (s : State) (f : Fibre) (o : Out) : State :=
  if o.err.isNone then (s.upds f o.upds).orFlags f o.fps o.le8s else s.orFlags f o.fps 0

/-- A fibre and its slot without the pending result. -/
def Fibre.takeBack (f : Fibre) (o : Out) : Fibre :=
  { f with pend := f.pend.filter (fun x => !o.regs.contains x), out := f.out.filter (fun x => !(x.id == o.id)),
           held := match o.err with | some t => f.held ++ [⟨.data, t⟩] | none => f.held }
def Slot.takeBack (sl : Slot) (o : Out) : Slot := { sl with pend := sl.pend.filter fun x => !o.rows.contains x }

theorem Fibre.takeBack_out (f : Fibre) (o : Out) : (f.takeBack o).out = f.out.filter fun x => x.id ≠ o.id :=
  List.filter_congr fun x _ => by
    rw [Bool.eq_iff_iff]
    simp

theorem State.returnOut_eq {s : State} {r : FibreRef} {f : Fibre} {o : Out} (hf : s.fibre? r = some f)
    (ho : f.out.find? (fun x => x.id == o.id) = some o) :
    s.returnOut r o.id = ((s.writeBack f o).modSlot f (·.takeBack o)).modFibre r (·.takeBack o) := by
  simp only [State.returnOut, hf, ho]
  rfl

theorem Fibre.upds_registers (us : List RegUpd) (f : Fibre) : ∃ a b c d e, us.foldl Fibre.upd f = { f with s := a, p := b, l := c, h := d, cb := e } := by
  induction us generalizing f with
  | nil => exact ⟨f.s, f.p, f.l, f.h, f.cb, rfl⟩
  | cons u us ih =>
    obtain ⟨a, b, c, d, e, hu⟩ := ih (f.upd u)
    refine ⟨a, b, c, d, e, hu.trans ?_⟩
    cases u with
    | p n m x =>
      dsimp only [Fibre.upd]
      split <;> rfl
    | _ => rfl

section
variable (s : State) (f : Fibre)

theorem State.fibre?_upd (u : RegUpd) {g : Fibre} (h : s.fibre? f.ref = some g) : (s.upd f u).fibre? f.ref = some (g.upd u) := by
  have same (g : Fibre) : (g.upd u).ref = g.ref := by
    obtain ⟨a, b, c, d, e, h⟩ := g.upds_registers [u]
    exact congrArg (·.ref) h
  cases u with
  | v | pat => exact h
  | s | p | l | h | cb => exact (s.modFibre_at f.ref _ same).trans (congrArg (Option.map _) h)

theorem State.fibre?_upds (us : List RegUpd) {g : Fibre} (h : s.fibre? f.ref = some g) :
    (s.upds f us).fibre? f.ref = some (us.foldl Fibre.upd g) := by
  induction us generalizing s g with
  | nil => exact h
  | cons u us ih => exact ih (s.upd f u) (s.fibre?_upd f u h)

theorem State.slot?_upds (us : List RegUpd) {sl : Slot} (h : s.slot? f = some sl) : ∃ rows, (s.upds f us).slot? f = some { sl with rows := rows } := by
  induction us generalizing s sl with
  | nil => exact ⟨sl.rows, h⟩
  | cons u us ih =>
    cases u with
    | v r m x =>
      have written : (s.upd f (.v r m x)).slot? f = some (sl.write r m x) :=
        (s.modSlot_at f (·.write r m x) fun _ _ _ _ h => h).trans (congrArg (Option.map _) h)
      exact ih (s.upd f (.v r m x)) (sl := sl.write r m x) written
    | _ => exact ih _ h

theorem State.agentOf_upd (u : RegUpd) : (s.upd f u).agentOf f.ref.cl f.ref.team = s.agentOf f.ref.cl f.ref.team := by
  cases u with
  | pat n x =>
    have core : ((s.upd f (.pat n x)).team? f.ref.cl f.ref.team).map (·.core) = (s.team? f.ref.cl f.ref.team).map (·.core) :=
      (congrArg _ (s.modTeam_at f.ref.cl f.ref.team (fun t => { t with pats := t.pats.set n x }) fun _ => ⟨rfl, rfl⟩)).trans (Option.map_map ..)
    exact congrArg (fun c : Option Nat => Agent.mk (c.getD 0) (((s.cluster? f.ref.cl).map (·.die)).getD 0)) core
  | _ => rfl

theorem State.agentOf_upds (us : List RegUpd) : (s.upds f us).agentOf f.ref.cl f.ref.team = s.agentOf f.ref.cl f.ref.team := by
  induction us generalizing s with
  | nil => rfl
  | cons u us ih => exact (ih (s.upd f u)).trans (s.agentOf_upd f u)

theorem State.agentOf_orFlags (x y : BitVec 32) (cl team : Nat) : (s.orFlags f x y).agentOf cl team = s.agentOf cl team := by
  unfold State.orFlags
  split <;> rfl

theorem State.agentOf_writeBack (o : Out) : (s.writeBack f o).agentOf f.ref.cl f.ref.team = s.agentOf f.ref.cl f.ref.team := by
  unfold State.writeBack
  split
  · rw [State.agentOf_orFlags, State.agentOf_upds]
  · rw [State.agentOf_orFlags]

theorem State.fibre?_writeBack (o : Out) (hf : s.fibre? f.ref = some f) : ∃ g, (s.writeBack f o).fibre? f.ref = some g ∧
    g.out = f.out ∧ g.pend = f.pend ∧ g.held = f.held ∧ g.fps = f.fps ||| o.fps ∧ (o.err = none → g.le8s = f.le8s ||| o.le8s) := by
  unfold State.writeBack
  split
  · obtain ⟨a, b, c, d, e, hu⟩ := f.upds_registers o.upds
    have written := s.fibre?_upds f o.upds hf
    refine ⟨_, (State.orFlags_acts _ f o.fps o.le8s).fibre written, ?_⟩
    rw [hu]
    exact ⟨rfl, rfl, rfl, rfl, fun _ => rfl⟩
  next h => exact ⟨_, (s.orFlags_acts f o.fps 0).fibre hf, rfl, rfl, rfl, rfl, fun e => absurd (by simp [e]) h⟩

theorem State.slot?_writeBack (o : Out) {sl : Slot} (h : s.slot? f = some sl) : ∃ rows, (s.writeBack f o).slot? f = some { sl with rows := rows } ∧
    (o.err ≠ none → rows = sl.rows) := by
  unfold State.writeBack
  split
  next e =>
    obtain ⟨rows, hu⟩ := s.slot?_upds f o.upds h
    exact ⟨rows, (State.orFlags_acts _ f o.fps o.le8s).slot hu, fun ne => absurd (by simpa using e) ne⟩
  · exact ⟨sl.rows, (s.orFlags_acts f o.fps 0).slot h, fun _ => rfl⟩

end

section
variable {s : State} {f : Fibre} {o : Out} (hf : s.fibre? f.ref = some f) (ho : f.out.find? (fun x => x.id == o.id) = some o)
include hf ho

theorem State.fibre?_returnOut {g : Fibre} (hg : (s.writeBack f o).fibre? f.ref = some g) :
    (s.returnOut f.ref o.id).fibre? f.ref = some (g.takeBack o) := by
  rw [State.returnOut_eq hf ho]
  exact (State.modFibre_at _ f.ref (·.takeBack o) fun _ => rfl).trans (congrArg (Option.map _) hg)

theorem State.slot?_returnOut {sl : Slot} (hsl : (s.writeBack f o).slot? f = some sl) :
    (s.returnOut f.ref o.id).slot? f = some (sl.takeBack o) := by
  rw [State.returnOut_eq hf ho]
  exact (State.modSlot_at _ f (·.takeBack o) fun _ _ _ _ h => h).trans (congrArg (Option.map _) hsl)

theorem State.tailWork_returnOut (m : FenceMode) (sc : Scope) : (s.returnOut f.ref o.id).tailWork f (.fence m sc) =
    (s.returnOut f.ref o.id).fenceWork (s.agentOf f.ref.cl f.ref.team) m sc := by
  rw [← s.agentOf_writeBack f o, State.returnOut_eq hf ho]
  rfl

end

theorem find_id_of_unique {l : List Out} {n : Nat} {o : Out} (ho : l[n]? = some o) (unique : ∀ x ∈ l, x.id = o.id → x = o) :
    l.find? (fun x => x.id == o.id) = some o := by
  obtain ⟨x, hx⟩ := Option.isSome_iff_exists.1 ((List.find?_isSome (p := fun x : Out => x.id == o.id)).2 ⟨o, List.mem_of_getElem? ho, by simp⟩)
  rw [hx, unique x (List.mem_of_find?_eq_some hx) (by simpa using List.find?_some hx)]

section
variable {s : State} {r : FibreRef} {f : Fibre} {n : Nat} {o : Out} (hf : s.fibre? r = some f) (ho : f.out[n]? = some o)
include hf ho

theorem execResultReturn_waits (h : o.remote ≠ [] ∨ o.waiter ≠ none) : execResultReturn r n s = .next s := by
  have waits : (o.remote.isEmpty && o.waiter.isNone) = false := by simpa [imp_iff_not_or, Option.isSome_iff_ne_none] using h
  simp only [execResultReturn, hf, ho, waits, Bool.false_eq_true, if_false]

theorem execResultReturn_returns (hr : o.remote = []) (hw : o.waiter = none) : execResultReturn r n s =
    .next (o.tail.elim (s.returnOut r o.id) fun t => (s.returnOut r o.id).tailWork f t) := by
  simp only [execResultReturn, hf, ho, hr, hw, List.isEmpty_nil, Option.isNone_none, Bool.and_self, if_true]
  cases o.tail <;> rfl

end

end Sys2Proof.Machine

open Sys2Proof Sys2Proof.Machine

/-- Settles O19: a long-class result by what the lane loop makes of fibre and slot, its return by what is written back and then taken back. -/
theorem longResultsReturn : Obligations.LongResultsReturn := by
  unfold Obligations.LongResultsReturn
  refine ⟨?held, fun s f n o sl hf hsl ho unique => ⟨?waits, fun hr hw => ?returns⟩⟩
  case held =>
    intro s v h len w d us R r hv ha hd t rs
    obtain ⟨-, hf, href, -, hsl⟩ := State.view?_eq_some hv
    have acts := v.computed_acts s h len true false w d us R
    have some_ : (v.runs h false).map (fun l => (l, R l)) ≠ [] := by simpa using v.runs_ne_nil ha
    have writes : r ∈ updRows (v.dstUpds false w d (((v.runs h false).map fun l => (l, R l)).map fun x => (x.1, x.2.1))) :=
      v.mem_updRows_dstUpds w d hd (by simpa using some_)
    refine ⟨_, _, acts.fibre (href ▸ hf), acts.slot hsl, ?_, ?_, v.laneFibre_long_outcome w d some_ us v.iss.gang len h.sw⟩
    · rw [v.laneSlot_long w d some_, Slot.mem_pend_defer]
      exact .inr writes
    · rw [v.laneSlot_long w d some_]
      exact Slot.defer_live _ writes
  case waits => exact fun h => (exec_resultReturn s f.ref n).trans (execResultReturn_waits hf ho h)
  case returns =>
    have found := find_id_of_unique ho unique
    obtain ⟨g, hg, hout, hpend, hheld, hfps, hle8s⟩ := s.fibre?_writeBack f o hf
    obtain ⟨rows, hs, hrows⟩ := s.slot?_writeBack f o hsl
    refine ⟨s.returnOut f.ref o.id, g.takeBack o, Slot.takeBack { sl with rows := rows } o, ?_, State.fibre?_returnOut hf found hg,
      State.slot?_returnOut hf found hs, ?_, fun x => ?_, fun x => ?_, hfps, fun he => ⟨hle8s he, ?_, ?_⟩, fun e he => ⟨?_, fun q => ?_⟩⟩
    · rw [exec_resultReturn, execResultReturn_returns hf ho hr hw]
      cases o.tail with
      | none => rfl
      | some t =>
        obtain ⟨m, sc⟩ := t
        exact congrArg Host.Outcome.next (State.tailWork_returnOut hf found m sc)
    · rw [Fibre.takeBack_out, hout]
    · simp [Fibre.takeBack, hpend]
    · simp [Slot.takeBack]
    · simp only [Fibre.takeBack, he, hheld]
    · simp only [State.returnOut_eq hf found, State.writeBack, Fibre.takeBack, he]
      rfl
    · simp only [Fibre.takeBack, he, hheld]
    · rw [← hrows (by simp [he])]
      rfl

end

section
/-! ### The integer rows over the lane loop (R145, R146) -/

namespace Sys2Proof.Machine

open Sys2Proof

/-! An instruction of the lane loop, by the number of its sources and what it computes in each lane. -/

section
variable {s : State} {v : View} {ty tb : Ty} {R : Nat → DWord × NumSt}

theorem int1_next {o : Op1} {dw : Bool} {f : DWord → Num DWord} (hi : s.issuing v perLane (v.touch1 o dw ty.is64))
    (hR : ∀ l, runLane v l (f (v.src o.sc ty o.a l)) = R l) : int1 o dw ty f s = .next (v.done1 o false dw ty.is64 R s) := by
  obtain rfl := funext hR
  exact laneOp_next (srcs := uses1 o ty.is64) hi

theorem int2_next {o : Op2} {f : DWord → DWord → Num DWord} (hi : s.issuing v perLane (v.touch2 o ty.is64 ty.is64 tb.is64))
    (hR : ∀ l, runLane v l (f (v.src o.sc ty o.a l) (v.src o.sc tb o.b l)) = R l) :
    int2 o ty tb f s = .next (v.done2 o false ty.is64 ty.is64 tb.is64 R s) := by
  obtain rfl := funext hR
  exact laneOp_next (srcs := uses2 o ty.is64 tb.is64) hi

theorem int3_next {o : Op3} {f : DWord → DWord → DWord → Num DWord} (hi : s.issuing v perLane (v.touch3 o ty.is64 ty.is64 tb.is64 ty.is64))
    (hR : ∀ l, runLane v l (f (v.src o.sc ty o.a l) (v.src o.sc tb o.b l) (v.src o.sc ty o.c l)) = R l) :
    int3 o ty tb f s = .next (v.done3 o false ty.is64 ty.is64 tb.is64 ty.is64 R s) := by
  obtain rfl := funext hR
  exact laneOp_next (srcs := uses3 o ty.is64 tb.is64 ty.is64) hi

end

/-! Integers of a type and their patterns, through the W-bit words (R143, R145). -/

section
variable (ty : Ty)

theorem bits_le : ty.bits ≤ 64 := by cases ty <;> decide

theorem bits_pos : 0 < ty.bits := by cases ty <;> decide

theorem low_eq (x : DWord) : low ty x = (x.setWidth ty.bits).setWidth 64 :=
  BitVec.eq_of_toNat_eq (by simp [low])

theorem wrapTo_eq (i : Int) : wrapTo ty i = (BitVec.ofInt ty.bits i).setWidth 64 :=
  BitVec.eq_of_toNat_eq (by simp [wrapTo])

/-- An integer of the type determines its W-bit pattern. -/
theorem ofInt_asInt (x : DWord) : BitVec.ofInt ty.bits (asInt ty x) = x.setWidth ty.bits := by
  apply BitVec.eq_of_toNat_eq
  rw [BitVec.toNat_ofInt, BitVec.toNat_setWidth, asInt]
  push_cast
  split
  · rw [Int.sub_emod_right, Int.emod_emod]
    rfl
  · rw [Int.emod_emod]
    rfl

theorem setWidth_ofInt (i : Int) : (BitVec.ofInt 64 i).setWidth ty.bits = BitVec.ofInt ty.bits i := by
  apply BitVec.eq_of_toNat_eq
  zify
  rw [BitVec.toNat_setWidth, BitVec.toNat_ofInt, BitVec.toNat_ofInt, Int.natCast_emod, Int.toNat_of_nonneg (Int.emod_nonneg _ (by decide)),
    Int.toNat_of_nonneg (Int.emod_nonneg _ (by positivity))]
  exact Int.emod_emod_of_dvd i (Int.natCast_dvd_natCast.2 (pow_dvd_pow 2 (bits_le ty)))

theorem low_ofInt (i : Int) : low ty (BitVec.ofInt 64 i) = wrapTo ty i := by
  rw [low_eq, wrapTo_eq, setWidth_ofInt]

variable (a b c : DWord)

theorem wrapTo_asInt : wrapTo ty (asInt ty a) = low ty a := by
  rw [wrapTo_eq, low_eq, ofInt_asInt]

theorem wrapTo_add : wrapTo ty (asInt ty a + asInt ty b) = low ty (a + b) := by
  rw [wrapTo_eq, low_eq, BitVec.ofInt_add, ofInt_asInt, ofInt_asInt, BitVec.setWidth_add _ _ (bits_le ty)]

theorem wrapTo_mul : wrapTo ty (asInt ty a * asInt ty b) = low ty (a * b) := by
  rw [wrapTo_eq, low_eq, BitVec.ofInt_mul, ofInt_asInt, ofInt_asInt, BitVec.setWidth_mul _ _ (bits_le ty)]

theorem wrapTo_neg : wrapTo ty (-asInt ty a) = low ty (-a) := by
  rw [wrapTo_eq, low_eq, BitVec.ofInt_neg, ofInt_asInt, BitVec.setWidth_neg_of_le (bits_le ty)]

theorem wrapTo_sub : wrapTo ty (asInt ty a - asInt ty b) = low ty (a - b) := by
  rw [wrapTo_eq, low_eq, Int.sub_eq_add_neg, BitVec.ofInt_add, BitVec.ofInt_neg, ofInt_asInt, ofInt_asInt, BitVec.sub_eq_add_neg,
    BitVec.setWidth_add _ _ (bits_le ty), BitVec.setWidth_neg_of_le (bits_le ty)]

theorem wrapTo_mulAdd : wrapTo ty (asInt ty a * asInt ty b + asInt ty c) = low ty (a * b + c) := by
  rw [wrapTo_eq, low_eq, BitVec.ofInt_add, BitVec.ofInt_mul, ofInt_asInt, ofInt_asInt, ofInt_asInt, BitVec.setWidth_add _ _ (bits_le ty),
    BitVec.setWidth_mul _ _ (bits_le ty)]

theorem wrapTo_min : wrapTo ty (min (asInt ty a) (asInt ty b)) = low ty (if asInt ty a ≤ asInt ty b then a else b) := by
  rw [min_def]
  split <;> exact wrapTo_asInt ty _

theorem wrapTo_max : wrapTo ty (max (asInt ty a) (asInt ty b)) = low ty (if asInt ty a ≤ asInt ty b then b else a) := by
  rw [max_def]
  split <;> exact wrapTo_asInt ty _

theorem wrapTo_abs : wrapTo ty ((asInt ty a).natAbs : Int) = low ty (if asInt ty a < 0 then -a else a) := by
  split
  next h => rw [Int.ofNat_natAbs_of_nonpos h.le, wrapTo_neg]
  next h => rw [Int.natAbs_of_nonneg (not_lt.1 h), wrapTo_asInt]

/-- The complement of a pattern among its W bits. -/
theorem ofNat_complement : BitVec.ofNat 64 (2 ^ ty.bits - 1 - pattern ty a) = low ty (~~~a) := by
  rw [low_eq, BitVec.setWidth_not (bits_le ty)]
  apply BitVec.eq_of_toNat_eq
  have le : 2 ^ ty.bits ≤ 2 ^ 64 := Nat.pow_le_pow_right (by decide) (bits_le ty)
  have fits : 2 ^ ty.bits - 1 - pattern ty a < 2 ^ 64 := by have := Nat.two_pow_pos ty.bits; omega
  rw [BitVec.toNat_setWidth, BitVec.toNat_not, BitVec.toNat_setWidth, BitVec.toNat_ofNat]
  rfl

theorem intMin_le_intMax (sgn : Bool) (w : Nat) : intMin sgn w ≤ intMax sgn w := by
  have pos (n : Nat) : (0 : Int) < 2 ^ n := by positivity
  have := pos w
  have := pos (w - 1)
  cases sgn <;> simp only [intMin, intMax, if_true, if_false, Bool.false_eq_true] <;> omega

end

section
variable (v : View) (l : Nat) (ty : Ty) (i : Int) (a b : DWord)

theorem runLane_flag (x : DWord) (fl : BitVec 32) : runLane v l (do flag fl; pure x) = v.plain l x fl :=
  congrArg (fun y => (x, (⟨v.f.rng.at l, y, 0⟩ : NumSt))) BitVec.zero_or

/-- Under .sat the exact integer is clamped, and the flag says whether it was (R94). -/
theorem runLane_sat : runLane v l (intResult ty true i) = v.plain l (clamped ty i) (clampFlag ty i) := by
  have ordered := intMin_le_intMax ty.signed ty.bits
  simp only [intResult, satInt, clamped, clampFlag, low_ofInt, if_true]
  by_cases below : i < intMin ty.signed ty.bits
  · rw [if_pos below, if_neg (by omega), min_eq_right (by omega), max_eq_left (by omega)]
    exact runLane_flag v l _ flagSat
  by_cases above : intMax ty.signed ty.bits < i
  · rw [if_neg below, if_pos above, if_neg (by omega), min_eq_left (by omega), max_eq_right (by omega)]
    exact runLane_flag v l _ flagSat
  · rw [if_neg below, if_neg above, if_pos (by omega), min_eq_right (by omega), max_eq_right (by omega)]
    rfl

end

section
variable (s : State) (o1 : Op1) (o : Op2) (o3 : Op3) (ty : Ty) (sat : Bool)

theorem exec_mov : exec (.mov o1 ty) s = int1 o1 ty.is64 ty pure s := rfl
theorem exec_iadd : exec (.iadd o ty sat) s = int2 o ty ty (arith ty sat (· + ·)) s := rfl
theorem exec_isub : exec (.isub o ty sat) s = int2 o ty ty (arith ty sat (· - ·)) s := rfl
theorem exec_imul : exec (.imul o ty) s = int2 o ty ty (arith ty false (· * ·)) s := rfl
theorem exec_imulh : exec (.imulh o ty) s = int2 o ty ty (arith ty false fun a b => a * b / 2 ^ ty.bits) s := rfl
theorem exec_imin : exec (.imin o ty) s = int2 o ty ty (arith ty false fun a b => min a b) s := rfl
theorem exec_imax : exec (.imax o ty) s = int2 o ty ty (arith ty false fun a b => max a b) s := rfl
theorem exec_and : exec (.and o ty) s = int2 o ty ty (bits2 (· &&& ·)) s := rfl
theorem exec_or : exec (.or o ty) s = int2 o ty ty (bits2 (· ||| ·)) s := rfl
theorem exec_xor : exec (.xor o ty) s = int2 o ty ty (bits2 (· ^^^ ·)) s := rfl
theorem exec_not : exec (.not o1 ty) s = int1 o1 ty.is64 ty (fun a => pure (BitVec.ofNat 64 (2 ^ ty.bits - 1 - pattern ty a))) s := rfl
theorem exec_iabs : exec (.iabs o1 ty sat) s = int1 o1 ty.is64 ty (fun a => intResult ty sat ((asInt ty a).natAbs : Int)) s := rfl
theorem exec_ineg : exec (.ineg o1 ty sat) s = int1 o1 ty.is64 ty (fun a => intResult ty sat (-asInt ty a)) s := rfl
theorem exec_imad : exec (.imad o3 ty) s =
    int3 o3 ty ty (fun a b c => intResult ty false (asInt ty a * asInt ty b + asInt ty c)) s := rfl

end

/-- A lane whose exact result wraps to `x`. -/
theorem runLane_wraps {v : View} {l : Nat} {ty : Ty} {i : Int} {x : DWord} (h : wrapTo ty i = x) :
    runLane v l (intResult ty false i) = v.plain l x := by rw [← h]; rfl

end Sys2Proof.Machine

open Sys2Proof Sys2Proof.Machine

/-- Settles O1: each row is the lane loop over an exact integer or a pattern, whose low W bits are those of the statement's word. -/
theorem integerArithmetic : Obligations.IntegerArithmetic := by
  unfold Obligations.IntegerArithmetic
  refine ⟨fun s v o ty hi => ⟨?iadd, ?iaddSat, ?isub, ?isubSat, ?imul, ?imulh, ?imin, ?imax⟩, fun s v ty =>
    ⟨fun o hi => ⟨?mov, ?not, ?ineg, ?inegSat, ?iabs, ?iabsSat⟩, fun o hi => ⟨?and, ?or, ?xor⟩, fun o hi => ?imad⟩⟩
  case iadd => exact (exec_iadd s o ty false).trans (int2_next hi fun l => runLane_wraps (wrapTo_add ty _ _))
  case iaddSat => exact (exec_iadd s o ty true).trans (int2_next hi fun l => runLane_sat v l ty _)
  case isub => exact (exec_isub s o ty false).trans (int2_next hi fun l => runLane_wraps (wrapTo_sub ty _ _))
  case isubSat => exact (exec_isub s o ty true).trans (int2_next hi fun l => runLane_sat v l ty _)
  case imul => exact (exec_imul s o ty).trans (int2_next hi fun l => runLane_wraps (wrapTo_mul ty _ _))
  case imulh => exact (exec_imulh s o ty).trans (int2_next hi fun l => runLane_wraps (low_ofInt ty _).symm)
  case imin => exact (exec_imin s o ty).trans (int2_next hi fun l => runLane_wraps (wrapTo_min ty _ _))
  case imax => exact (exec_imax s o ty).trans (int2_next hi fun l => runLane_wraps (wrapTo_max ty _ _))
  case mov => exact (exec_mov s o ty).trans (int1_next hi fun l => rfl)
  case not => exact (exec_not s o ty).trans (int1_next hi fun l => congrArg (v.plain l ·) (ofNat_complement ty _))
  case ineg => exact (exec_ineg s o ty false).trans (int1_next hi fun l => runLane_wraps (wrapTo_neg ty _))
  case inegSat => exact (exec_ineg s o ty true).trans (int1_next hi fun l => runLane_sat v l ty _)
  case iabs => exact (exec_iabs s o ty false).trans (int1_next hi fun l => runLane_wraps (wrapTo_abs ty _))
  case iabsSat => exact (exec_iabs s o ty true).trans (int1_next hi fun l => runLane_sat v l ty _)
  case and => exact (exec_and s o ty).trans (int2_next hi fun l => rfl)
  case or => exact (exec_or s o ty).trans (int2_next hi fun l => rfl)
  case xor => exact (exec_xor s o ty).trans (int2_next hi fun l => rfl)
  case imad => exact (exec_imad s o ty).trans (int3_next hi fun l => runLane_wraps (wrapTo_mulAdd ty _ _ _))

end

section
/-! ### Shifts, bit fields, bit counts, PRMT and SHFL (R146, R147, R155, R156) -/

namespace Sys2Proof.Machine

open Sys2Proof

/-! Shifts and rotates of a pattern as those of the word of its W bits. -/

theorem Ty.isInt_widths {ty : Ty} (h : ty.isInt = true) : (ty.is64 = true ∧ ty.bits = 64) ∨ (ty.is64 = false ∧ ty.bits = 32) := by
  cases ty <;> simp_all [Ty.isInt, Ty.is64, Ty.bits]

section
variable (ty : Ty) (a : DWord) (n : Nat)

theorem pattern_eq : pattern ty a = (a.setWidth ty.bits).toNat := (BitVec.toNat_setWidth ..).symm

theorem low_shiftLeft : BitVec.ofNat 64 (shiftLeft ty (pattern ty a) n) = low ty (a <<< n) := by
  have dvd : 2 ^ ty.bits ∣ 2 ^ 64 := pow_dvd_pow 2 (bits_le ty)
  refine congrArg (BitVec.ofNat 64) ?_
  rw [BitVec.toNat_shiftLeft, Nat.shiftLeft_eq, Nat.mod_mod_of_dvd _ dvd, shiftLeft, pattern]
  split
  next h => exact (Nat.mod_eq_zero_of_dvd (dvd_mul_of_dvd_right (pow_dvd_pow 2 h) _)).symm
  next => exact Nat.mod_mul_mod ..

theorem low_shiftRight : BitVec.ofNat 64 (shiftRight ty (pattern ty a) n) = low ty a >>> n := by
  have fits : pattern ty a < 2 ^ ty.bits := Nat.mod_lt _ (Nat.two_pow_pos _)
  have le : 2 ^ ty.bits ≤ 2 ^ 64 := Nat.pow_le_pow_right (by decide) (bits_le ty)
  apply BitVec.eq_of_toNat_eq
  have small : shiftRight ty (pattern ty a) n = pattern ty a / 2 ^ n := by
    rw [shiftRight]
    split
    next h => exact (Nat.div_eq_of_lt (fits.trans_le (Nat.pow_le_pow_right (by decide) h))).symm
    next => rfl
  rw [small, BitVec.toNat_ofNat, BitVec.toNat_ushiftRight, Nat.shiftRight_eq_div_pow, low, BitVec.toNat_ofNat,
    Nat.mod_eq_of_lt ((Nat.div_le_self ..).trans_lt (fits.trans_le le))]
  exact congrArg (· / 2 ^ n) (Nat.mod_eq_of_lt (fits.trans_le le)).symm

/-- Copies of the top bit come in above the bits that stay. -/
theorem shiftArith_toNat (x : BitVec ty.bits) : shiftArith ty x.toNat n = (x.sshiftRight n).toNat := by
  obtain ⟨m, hm, e⟩ : ∃ m, m ≤ ty.bits ∧ min n ty.bits = m := ⟨_, min_le_right .., rfl⟩
  have stay : x.toNat / 2 ^ m < 2 ^ (ty.bits - m) := by
    rw [Nat.div_lt_iff_lt_mul (Nat.two_pow_pos m), ← pow_add, Nat.sub_add_cancel hm]
    exact x.isLt
  have copies : 2 ^ ty.bits - 2 ^ (ty.bits - m) = 2 ^ (ty.bits - m) * (2 ^ m - 1) := by
    rw [Nat.mul_sub, ← pow_add, Nat.sub_add_cancel hm, Nat.mul_one]
  apply Nat.eq_of_testBit_eq
  intro i
  rw [BitVec.testBit_toNat, BitVec.getLsbD_sshiftRight, BitVec.msb_eq_decide]
  simp only [shiftArith, e]
  split
  next top =>
    rw [Nat.add_comm, copies, Nat.testBit_two_pow_mul_add _ stay, Nat.testBit_two_pow_sub_one, Nat.testBit_div_two_pow, BitVec.testBit_toNat,
      decide_eq_true top]
    by_cases low : n + i < ty.bits
    · obtain rfl : m = n := by omega
      rw [if_pos (by omega), if_pos low, decide_eq_false (by omega), Nat.add_comm i]
      rfl
    · rw [if_neg (by omega), if_neg low, Bool.and_true, ← decide_not, decide_eq_decide]
      omega
  next top =>
    rw [Nat.testBit_div_two_pow, BitVec.testBit_toNat, decide_eq_false top]
    by_cases low : n + i < ty.bits
    · obtain rfl : m = n := by omega
      rw [if_pos low, decide_eq_false (by omega), Nat.add_comm i]
      rfl
    · rw [if_neg low, Bool.and_false, BitVec.getLsbD_of_ge _ _ (by omega)]

/-- What a rotate brings round lies below what it moves up. -/
theorem rotate_parts {w k x : Nat} (hx : x < 2 ^ w) (hk : k ≤ w) : x * 2 ^ k % 2 ^ w + x / 2 ^ (w - k) = x * 2 ^ k % 2 ^ w ||| x / 2 ^ (w - k) := by
  have round : x / 2 ^ (w - k) < 2 ^ k := by
    rwa [Nat.div_lt_iff_lt_mul (Nat.two_pow_pos _), ← pow_add, Nat.add_sub_cancel' hk]
  have up : x * 2 ^ k % 2 ^ w = 2 ^ k * (x % 2 ^ (w - k)) := by
    rw [← Nat.mul_mod_mul_left, ← pow_add, Nat.add_sub_cancel' hk, Nat.mul_comm]
  rw [up, Nat.two_pow_add_eq_or_of_lt round]

theorem rotLeft_toNat (x : BitVec ty.bits) : rotLeft ty x.toNat n = (x.rotateLeft n).toNat := by
  rw [BitVec.toNat_rotateLeft, Nat.shiftLeft_eq, Nat.shiftRight_eq_div_pow]
  exact rotate_parts x.isLt (Nat.mod_lt _ (bits_pos ty)).le

theorem rotateRight_eq_rotateLeft {w : Nat} (hw : 0 < w) (x : BitVec w) : x.rotateRight n = x.rotateLeft (w - n % w) := by
  have lt := Nat.mod_lt n hw
  apply BitVec.eq_of_toNat_eq
  rw [BitVec.toNat_rotateRight, BitVec.toNat_rotateLeft]
  rcases Nat.eq_zero_or_pos (n % w) with h | h
  · simp [h, Nat.mod_eq_of_lt x.isLt, Nat.shiftLeft_eq, Nat.shiftRight_eq_div_pow, Nat.div_eq_of_lt x.isLt]
  · rw [Nat.mod_eq_of_lt (show w - n % w < w by omega), Nat.sub_sub_self lt.le, Nat.or_comm]

theorem ofNat_shiftArith : BitVec.ofNat 64 (shiftArith ty (pattern ty a) n) = ((a.setWidth ty.bits).sshiftRight n).setWidth 64 := by
  rw [pattern_eq, shiftArith_toNat, BitVec.ofNat_toNat]

theorem ofNat_rotLeft : BitVec.ofNat 64 (rotLeft ty (pattern ty a) n) = ((a.setWidth ty.bits).rotateLeft n).setWidth 64 := by
  rw [pattern_eq, rotLeft_toNat, BitVec.ofNat_toNat]

theorem ofNat_rotRight : BitVec.ofNat 64 (rotLeft ty (pattern ty a) (ty.bits - n % ty.bits)) =
    ((a.setWidth ty.bits).rotateRight n).setWidth 64 := by
  rw [ofNat_rotLeft, rotateRight_eq_rotateLeft n (bits_pos ty)]

theorem setWidth_sshiftRight_signExtend (x : Word) : ((x.signExtend 64).sshiftRight n).setWidth 32 = x.sshiftRight n := by
  apply BitVec.eq_of_getLsbD_eq
  intro i hi
  simp only [BitVec.getLsbD_setWidth, BitVec.getLsbD_sshiftRight, BitVec.getLsbD_signExtend, BitVec.msb_eq_getLsbD_last]
  have in32 : ¬32 ≤ i := by omega
  have in64 : ¬64 ≤ i := by omega
  by_cases low : n + i < 32
  · simp [low, in32, in64, hi, show n + i < 64 by omega]
  · by_cases mid : n + i < 64 <;> simp [low, in32, in64, hi, mid]

end

/-! Bit fields (R147). -/

section
variable (ty : Ty) (a b c : DWord)

/-- The field of `k` bits at `p` of a pattern. -/
theorem pattern_field {p k : Nat} (h : p + k ≤ ty.bits) : pattern ty a / 2 ^ p % 2 ^ k = ((a >>> p).setWidth k).toNat := by
  have split_ : 2 ^ ty.bits = 2 ^ p * 2 ^ (ty.bits - p) := by rw [← pow_add, Nat.add_sub_cancel' (by omega)]
  rw [BitVec.toNat_setWidth, BitVec.toNat_ushiftRight, Nat.shiftRight_eq_div_pow, pattern, split_, Nat.mod_mul_right_div_self,
    Nat.mod_mod_of_dvd _ (pow_dvd_pow 2 (by omega))]

theorem wrapTo_natCast {n : Nat} (h : n < 2 ^ ty.bits) : wrapTo ty n = BitVec.ofNat 64 n := by
  have e : ((n : Int) % 2 ^ ty.bits).toNat = n := by
    rw [Int.emod_eq_of_lt (by omega) (by exact_mod_cast h), Int.toNat_natCast]
  rw [wrapTo, e]

/-- A field of `k` bits, widened from its top bit. -/
theorem signed_field {k : Nat} (h : k ≤ ty.bits) (f : BitVec k) :
    (if 2 ^ (k - 1) ≤ f.toNat then wrapTo ty ((f.toNat : Int) - 2 ^ k) else BitVec.ofNat 64 f.toNat) = low ty (f.signExtend 64) := by
  have fits : f.toNat < 2 ^ ty.bits := f.isLt.trans_le (Nat.pow_le_pow_right (by decide) h)
  rw [BitVec.signExtend, low_ofInt, BitVec.toInt_eq_msb_cond, BitVec.msb_eq_decide]
  simp only [decide_eq_true_eq]
  split
  · push_cast
    rfl
  · rw [wrapTo_natCast ty fits]

theorem extract_eq {p k : Nat} (hp : p = min (b.toNat % 256) ty.bits) (hk : k = min (b.toNat / 256 % 256) (ty.bits - p)) :
    extract ty a b = if ty.signed then low ty (((a >>> p).setWidth k).signExtend 64) else ((a >>> p).setWidth k).setWidth 64 := by
  have fieldOf_eq : fieldOf ty b = (p, k) := by rw [fieldOf, ← hp, ← hk]
  have inside : p + k ≤ ty.bits := by omega
  simp only [extract, fieldOf_eq, pattern_field ty a inside]
  generalize (a >>> p).setWidth k = f
  rcases Nat.eq_zero_or_pos k with rfl | pos
  · simp [low, Subsingleton.elim f 0#0]
  rw [if_neg pos.ne']
  cases ty.signed with
  | true => simpa only [Bool.true_and, decide_eq_true_eq, if_true] using signed_field ty (by omega) f
  | false => simp only [Bool.false_and, Bool.false_eq_true, if_false, BitVec.ofNat_toNat]

theorem insert_eq {p k : Nat} (hp : p = min (b.toNat % 256) ty.bits) (hk : k = min (b.toNat / 256 % 256) (ty.bits - p)) :
    insert ty a b c = (a &&& ~~~((BitVec.allOnes k).setWidth 64 <<< p)) ||| ((c <<< p) &&& ((BitVec.allOnes k).setWidth 64 <<< p)) := by
  have fieldOf_eq : fieldOf ty b = (p, k) := by rw [fieldOf, ← hp, ← hk]
  have mask : BitVec.ofNat 64 ((2 ^ k - 1) * 2 ^ p) = (BitVec.allOnes k).setWidth 64 <<< p := by
    apply BitVec.eq_of_toNat_eq
    simp [Nat.shiftLeft_eq]
  simp only [insert, fieldOf_eq, mask]

end

/-! Bit counts and the reversal (R146). -/

section
variable (ty : Ty) (a : DWord)

theorem bitsOf_pattern : bitsOf ty.bits (pattern ty a) = (upTo ty.bits).map a.getLsbD := by
  refine List.map_congr_left fun i hi => ?_
  have lt : i < ty.bits := by simpa [upTo] using hi
  rw [pattern, Nat.testBit_mod_two_pow, decide_eq_true lt, BitVec.testBit_toNat, Bool.true_and]

theorem popc_eq : (bitsOf ty.bits (pattern ty a)).countP id = (upTo ty.bits).countP fun i => a.getLsbD i := by
  rw [bitsOf_pattern, List.countP_map]
  rfl

/-- The zero bits above the highest set bit of a pattern of `w` bits. -/
def leadingZeros (w n : Nat) : Nat := ((bitsOf w n).reverse.takeWhile not).length

theorem leadingZeros_zero (w : Nat) : leadingZeros w 0 = w := by
  have zeros : bitsOf w 0 = List.replicate w false := by simp [bitsOf, upTo]
  simp [leadingZeros, zeros]

theorem leadingZeros_pos {w n : Nat} (hn : n ≠ 0) (h : n < 2 ^ w) : leadingZeros w n = w - 1 - Nat.log2 n := by
  induction w with
  | zero => omega
  | succ w ih =>
    have step : (bitsOf (w + 1) n).reverse = n.testBit w :: (bitsOf w n).reverse := by simp [bitsOf, upTo, List.range_succ]
    rw [leadingZeros, step, List.takeWhile_cons]
    by_cases lt : n < 2 ^ w
    · have log : Nat.log2 n < w := (Nat.log2_lt hn).2 lt
      rw [Nat.testBit_lt_two_pow lt, Bool.not_false, if_pos rfl, List.length_cons, ← leadingZeros, ih lt]
      omega
    · have log : Nat.log2 n = w := (Nat.log2_eq_iff hn).2 ⟨not_lt.1 lt, h⟩
      have top : n.testBit w = true := log ▸ Nat.testBit_log2 hn
      simp [top, log]

theorem clz_eq : (match pattern ty a with | 0 => ty.bits | n => ty.bits - 1 - Nat.log2 n) =
    ((upTo ty.bits).reverse.takeWhile fun i => !a.getLsbD i).length := by
  have zeros : ((upTo ty.bits).reverse.takeWhile fun i => !a.getLsbD i).length = leadingZeros ty.bits (pattern ty a) := by
    rw [leadingZeros, bitsOf_pattern, ← List.map_reverse, List.takeWhile_map, List.length_map]
    rfl
  rw [zeros]
  split
  next h => rw [h, leadingZeros_zero]
  next h => exact (leadingZeros_pos h (Nat.mod_lt _ (Nat.two_pow_pos _))).symm

/-- Bits gathered lowest first come to stand highest first. -/
theorem testBit_gather (l : List Bool) (i : Nat) : (l.foldl (fun acc (b : Bool) => 2 * acc + b.toNat) 0).testBit i = l.reverse.getD i false := by
  induction l using List.reverseRecOn generalizing i with
  | nil => simp
  | append_singleton l b ih =>
    rw [List.foldl_concat, List.reverse_concat]
    cases i with
    | zero => cases b <;> simp
    | succ i =>
      rw [Nat.testBit_succ, List.getD_cons_succ, ← ih]
      congr 1
      have := b.toNat_lt
      omega

theorem brev_eq : BitVec.ofNat 64 ((bitsOf ty.bits (pattern ty a)).foldl (fun acc b => 2 * acc + b.toNat) 0) =
    ((a.setWidth ty.bits).reverse).setWidth 64 := by
  apply BitVec.eq_of_getLsbD_eq
  intro i hi
  rw [BitVec.getLsbD_ofNat, testBit_gather, bitsOf_pattern, BitVec.getLsbD_setWidth, BitVec.getLsbD_reverse, BitVec.getMsbD_eq_getLsbD,
    BitVec.getLsbD_setWidth, List.getD_eq_getElem?_getD]
  by_cases low : i < ty.bits
  · have inside : ty.bits - 1 - i < ty.bits := by omega
    simp [upTo, low, inside]
  · simp [upTo, low]

end

/-! PRMT and SHFL (R155, R156). -/

theorem toNat_append_add {m n : Nat} (x : BitVec m) (y : BitVec n) : (x ++ y).toNat = x.toNat * 2 ^ n + y.toNat := by
  rw [BitVec.toNat_append, ← Nat.shiftLeft_add_eq_or_of_lt y.isLt, Nat.shiftLeft_eq]

/-- The pool of A and C, as one word. -/
def prmtPool (a c : DWord) : DWord := c.setWidth 32 ++ a.setWidth 32

/-- Byte `k` of the result of PRMT from its pool and selector. -/
def prmtSelect (pool sel : DWord) (k : Nat) : BitVec 8 :=
  let x := (pool >>> (8 * (sel >>> (4 * k) % 8).toNat)).setWidth 8
  if sel.getLsbD (4 * k + 3) then (if x.msb then 0xFF#8 else 0x00#8) else x

section
variable (a b c : DWord)

theorem prmtPool_toNat : (prmtPool a c).toNat = a.toNat % 2 ^ 32 + c.toNat % 2 ^ 32 * 2 ^ 32 := by
  rw [Nat.add_comm, ← BitVec.toNat_setWidth, ← BitVec.toNat_setWidth]
  exact toNat_append_add (c.setWidth 32) (a.setWidth 32)

/-- The nibble of the selector that chooses byte `k`: its place in the pool, and whether the byte gives its sign. -/
theorem prmtByte_eq (k : Nat) :
    prmtByte (a.toNat % 2 ^ 32) (c.toNat % 2 ^ 32) (b.toNat / 16 ^ k % 16) = (prmtSelect (prmtPool a c) b k).toNat := by
  have place : (b >>> (4 * k) % 8).toNat = b.toNat / 16 ^ k % 16 % 8 := by
    rw [BitVec.toNat_umod, BitVec.toNat_ushiftRight, Nat.shiftRight_eq_div_pow, pow_mul, Nat.mod_mod_of_dvd _ (by decide)]
    rfl
  have sign : b.getLsbD (4 * k + 3) = decide (8 ≤ b.toNat / 16 ^ k % 16) := by
    rw [← BitVec.testBit_toNat, Nat.add_comm, ← Nat.testBit_div_two_pow, pow_mul, Nat.testBit_eq_decide_div_mod_eq, decide_eq_decide]
    simp only [Nat.reducePow]
    omega
  have byte (m : Nat) : ((prmtPool a c >>> (8 * m)).setWidth 8).toNat = (a.toNat % 2 ^ 32 + c.toNat % 2 ^ 32 * 2 ^ 32) / 256 ^ m % 256 := by
    rw [BitVec.toNat_setWidth, BitVec.toNat_ushiftRight, prmtPool_toNat, Nat.shiftRight_eq_div_pow, pow_mul]
    simp only [Nat.reducePow]
  simp only [prmtByte, prmtSelect, place, sign, BitVec.msb_eq_decide, byte, decide_eq_true_eq]
  split
  · split <;> rfl
  · rw [byte]

/-- Four bytes joined, the first lowest. -/
theorem toNat_bytes (byte : Nat → BitVec 8) : (byte 3 ++ byte 2 ++ byte 1 ++ byte 0 : Word).toNat =
    (((byte 3).toNat * 2 ^ 8 + (byte 2).toNat) * 2 ^ 8 + (byte 1).toNat) * 2 ^ 8 + (byte 0).toNat :=
  (toNat_append_add (byte 3 ++ byte 2 ++ byte 1) (byte 0)).trans
    (by rw [toNat_append_add (byte 3 ++ byte 2) (byte 1), toNat_append_add (byte 3) (byte 2)])

/-- Four digits to a base, the first lowest. -/
theorem sum_digits (digit : Nat → Nat) (base : Nat) : ((upTo 4).map fun k => digit k * base ^ k).foldl (· + ·) 0 =
    ((digit 3 * base + digit 2) * base + digit 1) * base + digit 0 := by
  simp only [upTo, List.range_succ, List.range_zero, List.map_append, List.map_nil, List.map_cons, List.nil_append, List.foldl_append, List.foldl_cons,
    List.foldl_nil]
  ring

theorem ofNat_bytes (byte : Nat → BitVec 8) : BitVec.ofNat 64 (((upTo 4).map fun k => (byte k).toNat * (2 ^ 8) ^ k).foldl (· + ·) 0) =
    (byte 3 ++ byte 2 ++ byte 1 ++ byte 0 : Word).setWidth 64 := by
  rw [sum_digits (fun k => (byte k).toNat), ← toNat_bytes]
  exact BitVec.ofNat_toNat _ _

theorem prmt_eq : prmt a b c = ((prmtSelect (prmtPool a c) b 3 ++ prmtSelect (prmtPool a c) b 2 ++ prmtSelect (prmtPool a c) b 1 ++
    prmtSelect (prmtPool a c) b 0 : Word).setWidth 64) := by
  rw [← ofNat_bytes, prmt]
  refine congrArg (fun l : List Nat => BitVec.ofNat 64 (l.foldl (· + ·) 0)) (List.map_congr_left fun k _ => ?_)
  rw [prmtByte_eq]
  rfl

end

/-- The place, within its part of `w` lanes, whose A a lane of SHFL receives. -/
def shflPlace (m : ShflMode) (w l b : Nat) : Option Nat :=
  match m with
  | .idx => some (b % w)
  | .up => if b ≤ l % w then some (l % w - b) else none
  | .down => if l % w + b < w then some (l % w + b) else none
  | .xor => some ((l % w ^^^ b) % w)

theorem shflFrom_eq (m : ShflMode) (w l b : Nat) : shflFrom m w l b = (shflPlace m w l b).map (l - l % w + ·) := by
  cases m with
  | idx | xor => rfl
  | up | down => simp only [shflFrom, shflPlace, apply_ite (Option.map _), Option.map_some, Option.map_none]

theorem shfl_value {α : Type} (val : Nat → α) (p : Nat → Bool) (base l : Nat) (j : Option Nat) :
    (match j.map (base + ·) with | some j => val (if p j then j else l) | none => val l) =
      match j with | some j => if p (base + j) then val (base + j) else val l | none => val l := by
  cases j with
  | none => rfl
  | some j => exact apply_ite val _ _ _

section
variable (s : State) (o1 : Op1) (o : Op2) (o3 : Op3) (ty : Ty) (right : Bool)

theorem exec_shl : exec (.shl o ty) s = int2 o ty .n32 (shifted ty (shiftLeft ty)) s := rfl
theorem exec_shr : exec (.shr o ty) s = int2 o ty .n32 (shifted ty (shiftRight ty)) s := rfl
theorem exec_shra : exec (.shra o ty) s = int2 o ty .n32 (shifted ty (shiftArith ty)) s := rfl
theorem exec_rot : exec (.rot o ty right) s =
    int2 o ty .n32 (shifted ty fun a n => if right then rotLeft ty a (ty.bits - n % ty.bits) else rotLeft ty a n) s := rfl
theorem exec_bfe : exec (.bfe o ty) s = int2 o ty .n32 (bits2 (extract ty)) s := rfl
theorem exec_bfi : exec (.bfi o3 ty) s = int3 o3 ty .n32 (fun a b c => pure (insert ty a b c)) s := rfl
theorem exec_popc : exec (.popc o1 ty) s =
    int1 o1 false ty (fun a => pure (BitVec.ofNat 64 ((bitsOf ty.bits (pattern ty a)).countP id))) s := rfl
theorem exec_clz : exec (.clz o1 ty) s =
    int1 o1 false ty (fun a => pure (BitVec.ofNat 64 (match pattern ty a with | 0 => ty.bits | n => ty.bits - 1 - Nat.log2 n))) s := rfl
theorem exec_brev : exec (.brev o1 ty) s = int1 o1 ty.is64 ty (fun a => pure (BitVec.ofNat 64
    ((bitsOf ty.bits (pattern ty a)).foldl (fun acc b => 2 * acc + b.toNat) 0))) s := rfl
theorem exec_prmt : exec (.prmt o3) s = int3 o3 .n32 .n32 (fun a b c => pure (prmt a b c)) s := rfl
theorem exec_shfl (m : ShflMode) (w : Fin 6) : exec (.shfl o ty m w) s =
    laneOp true o.h 8 false ty.is64 o.d (uses2 o ty.is64 false)
      (fun v l => pure (match shflFrom m (2 ^ w.val) l (count32 (v.src false .n32 o.b l)) with
        | some j => v.vval ty.is64 o.a.idx.toNat (if lane (v.active o.h) j then j else l)
        | none => v.vval ty.is64 o.a.idx.toNat l)) s := rfl

end

/-! The same words by the two widths of the integer types. -/

section
variable {ty : Ty} (hty : ty.isInt = true) (a : DWord) (n : Nat)
include hty

theorem shiftArith_eq : BitVec.ofNat 64 (shiftArith ty (pattern ty a) n) =
    low ty ((if ty.is64 then a else (a.setWidth 32).signExtend 64).sshiftRight n) := by
  rw [ofNat_shiftArith, low_eq]
  obtain ⟨wide, e⟩ | ⟨wide, e⟩ := Ty.isInt_widths hty
  · rw [e, wide, if_pos rfl]
    simp only [BitVec.setWidth_eq]
  · rw [e, wide, if_neg Bool.false_ne_true, setWidth_sshiftRight_signExtend]

/-- An operation on the W-bit word of an integer type, by its two widths. -/
theorem wordOp_eq (op : (w : Nat) → BitVec w → BitVec w) : (op ty.bits (a.setWidth ty.bits)).setWidth 64 =
    if ty.is64 then op 64 a else (op 32 (a.setWidth 32)).setWidth 64 := by
  obtain ⟨wide, e⟩ | ⟨wide, e⟩ := Ty.isInt_widths hty
  · rw [e, wide, if_pos rfl, BitVec.setWidth_eq, BitVec.setWidth_eq]
  · rw [e, wide, if_neg Bool.false_ne_true]

theorem rotLeft_eq : BitVec.ofNat 64 (rotLeft ty (pattern ty a) n) =
    if ty.is64 then a.rotateLeft n else ((a.setWidth 32).rotateLeft n).setWidth 64 :=
  (ofNat_rotLeft ty a n).trans (wordOp_eq hty a fun _ x => x.rotateLeft n)

theorem rotRight_eq : BitVec.ofNat 64 (rotLeft ty (pattern ty a) (ty.bits - n % ty.bits)) =
    if ty.is64 then a.rotateRight n else ((a.setWidth 32).rotateRight n).setWidth 64 :=
  (ofNat_rotRight ty a n).trans (wordOp_eq hty a fun _ x => x.rotateRight n)

theorem reverse_eq : BitVec.ofNat 64 ((bitsOf ty.bits (pattern ty a)).foldl (fun acc b => 2 * acc + b.toNat) 0) =
    if ty.is64 then a.reverse else ((a.setWidth 32).reverse).setWidth 64 :=
  (brev_eq ty a).trans (wordOp_eq hty a fun _ x => x.reverse)

end

end Sys2Proof.Machine

open Sys2Proof Sys2Proof.Machine

/-- Settles O2: each row is the lane loop over numbers, which are those of the words that the statement names. -/
theorem integerShiftsAndBits : Obligations.IntegerShiftsAndBits := by
  unfold Obligations.IntegerShiftsAndBits
  refine ⟨fun s v ty hty => ⟨fun o hi => ⟨?shl, ?shr, ?shra, ?rotl, ?rotr, ?bfe⟩, fun o hi => ?bfi⟩,
    fun s v ty => ⟨fun o hi => ⟨?popc, ?clz⟩, fun o hty hi => ?brev, fun o hi => ?prmt, fun o m w => ?shfl⟩⟩
  case shl => exact (exec_shl s o ty).trans (int2_next hi fun l => congrArg (v.plain l ·) (low_shiftLeft ty _ _))
  case shr => exact (exec_shr s o ty).trans (int2_next hi fun l => congrArg (v.plain l ·) (low_shiftRight ty _ _))
  case shra => exact (exec_shra s o ty).trans (int2_next hi fun l => congrArg (v.plain l ·) (shiftArith_eq hty _ _))
  case rotl => exact (exec_rot s o ty false).trans (int2_next hi fun l => congrArg (v.plain l ·) (rotLeft_eq hty _ _))
  case rotr => exact (exec_rot s o ty true).trans (int2_next hi fun l => congrArg (v.plain l ·) (rotRight_eq hty _ _))
  case bfe => exact (exec_bfe s o ty).trans (int2_next hi fun l => congrArg (v.plain l ·) (extract_eq ty _ _ rfl rfl))
  case bfi => exact (exec_bfi s o ty).trans (int3_next hi fun l => congrArg (v.plain l ·) (insert_eq ty _ _ _ rfl rfl))
  case popc => exact (exec_popc s o ty).trans (int1_next hi fun l => congrArg (fun n => v.plain l (BitVec.ofNat 64 n)) (popc_eq ty _))
  case clz => exact (exec_clz s o ty).trans (int1_next hi fun l => congrArg (fun n => v.plain l (BitVec.ofNat 64 n)) (clz_eq ty _))
  case brev => exact (exec_brev s o ty).trans (int1_next hi fun l => congrArg (v.plain l ·) (reverse_eq hty _))
  case prmt => exact (exec_prmt s o).trans (int3_next hi fun l => congrArg (v.plain l ·) (prmt_eq _ _ _))
  case shfl =>
    intro us hi
    refine (exec_shfl s o ty m w).trans ((laneOp_next (srcs := uses2 o ty.is64 false) hi).trans ?_)
    refine congrArg (fun R => Host.Outcome.next (v.computed o.h 8 true false ty.is64 o.d us R s)) (funext fun l => congrArg (v.plain l ·) ?_)
    rw [shflFrom_eq]
    exact shfl_value (v.vval ty.is64 o.a.idx.toNat) (lane (v.active o.h)) (l - l % 2 ^ w.val) l (shflPlace m (2 ^ w.val) l _)

end

section
/-! ### Immediates, carries, comparisons, truth tables, votes and V2S (R110, R148 to R154) -/

namespace Sys2Proof.Machine

open Sys2Proof

/-! Carries and comparisons by the patterns of the operands (R150, R151). -/

section
variable (ty : Ty) (a b : DWord) (cin : Nat)

theorem low_toNat : (low ty a).toNat = a.toNat % 2 ^ ty.bits := by
  have le : 2 ^ ty.bits ≤ 2 ^ 64 := Nat.pow_le_pow_right (by decide) (bits_le ty)
  rw [low, BitVec.toNat_ofNat, Nat.mod_eq_of_lt ((Nat.mod_lt _ (Nat.two_pow_pos _)).trans_le le)]

theorem low_ofNat (n : Nat) : low ty (BitVec.ofNat 64 n) = BitVec.ofNat 64 (n % 2 ^ ty.bits) := by
  rw [low, BitVec.toNat_ofNat, Nat.mod_mod_of_dvd _ (pow_dvd_pow 2 (bits_le ty))]

theorem carryOut_eq : carryOut ty a b cin =
    (low ty (BitVec.ofNat 64 ((low ty a).toNat + (low ty b).toNat + cin)), decide (2 ^ ty.bits ≤ (low ty a).toNat + (low ty b).toNat + cin)) := by
  rw [low_ofNat, low_toNat, low_toNat]
  rfl

theorem borrowOut_eq : borrowOut ty a b cin =
    (low ty (BitVec.ofNat 64 (low ty a).toNat - BitVec.ofNat 64 (low ty b).toNat - BitVec.ofNat 64 cin),
      decide ((low ty a).toNat < (low ty b).toNat + cin)) := by
  have difference (x y z : Nat) : BitVec.ofNat 64 x - BitVec.ofNat 64 y - BitVec.ofNat 64 z = BitVec.ofInt 64 ((x : Int) - y - z) := by
    simp only [Int.sub_eq_add_neg, BitVec.ofInt_add, BitVec.ofInt_neg, BitVec.ofInt_natCast, BitVec.sub_eq_add_neg]
  rw [difference, low_ofInt, borrowOut, low_toNat, low_toNat]
  refine congrArg (Prod.mk _) (decide_eq_decide.2 ?_)
  omega

theorem asInt_low : asInt ty (low ty a) = asInt ty a := by
  simp only [asInt, low_toNat, Nat.mod_mod]

theorem asInt_inj : asInt ty a = asInt ty b ↔ low ty a = low ty b := by
  constructor
  · intro h
    rw [← wrapTo_asInt, h, wrapTo_asInt]
  · intro h
    rw [← asInt_low, h, asInt_low]

end

/-! Sets of lanes that vote (R153). -/

section
variable (m bits : Mask)

theorem mem_lanesOf_lt {l : Nat} : l ∈ lanesOf m ↔ l < 32 ∧ m.getLsbD l = true := by
  simp [lanesOf, upTo, lane]

theorem and_eq_zero_iff : m &&& bits = 0 ↔ ∀ l ∈ lanesOf m, bits.getLsbD l = false := by
  constructor
  · intro h l hl
    have both := congrArg (·.getLsbD l) h
    simpa [((mem_lanesOf_lt m).1 hl).2] using both
  · intro h
    apply BitVec.eq_of_getLsbD_eq
    intro l hl
    cases e : m.getLsbD l with
    | false => simp [e]
    | true => simp [h l ((mem_lanesOf_lt m).2 ⟨hl, e⟩)]

theorem vote_none : (m &&& bits == 0) = (lanesOf m).all fun l => !bits.getLsbD l := by
  rw [Bool.eq_iff_iff, beq_iff_eq, and_eq_zero_iff]
  simp

theorem vote_any : (m &&& bits != 0) = (lanesOf m).any bits.getLsbD := by
  rw [bne, vote_none, List.not_all_eq_any_not]
  simp

theorem vote_all : (m &&& ~~~bits == 0) = (lanesOf m).all bits.getLsbD := by
  rw [vote_none, Bool.eq_iff_iff, List.all_eq_true, List.all_eq_true]
  refine forall₂_congr fun l hl => ?_
  simp [((mem_lanesOf_lt m).1 hl).1]

theorem and_eq_maskOf : m &&& bits = maskOf fun l => m.getLsbD l && bits.getLsbD l := by
  apply BitVec.eq_of_getLsbD_eq
  intro l hl
  rw [getLsbD_maskOf _ hl, BitVec.getLsbD_and]

end

/-! Uses in another order, as V2S lists them (R154). -/

section
variable {v : View} {us us' : List Use}

theorem View.mayRun_of_mem {k : Kindly} (h : ∀ u, u ∈ us' ↔ u ∈ us) (hm : v.mayRun k us) : v.mayRun k us' := by
  simpa only [View.mayRun, h] using hm

theorem View.after_congr {sw : Bool} {len : Nat} {eff : State → State} {s : State} (hk : v.killRows us = v.killRows us')
    (hd : v.readsDead us = v.readsDead us') : v.after sw len us eff s = v.after sw len us' eff s := by
  simp only [View.after, State.consume, State.noteDead, hk, hd]

/-- A scalar destination is no use that ends or that reads a dead row. -/
theorem View.after_defS {sw : Bool} {len d : Nat} {m : Mask} {eff : State → State} {s : State} :
    v.after sw len (us ++ defS d m ++ us') eff s = v.after sw len (us ++ us' ++ defS d m) eff s := by
  refine View.after_congr ?_ ?_
  · simp [View.killRows, defS]
  · simp only [View.readsDead, unionMask_map, useLanes, defS, List.any_append, Bool.or_assoc, Bool.or_comm, Bool.or_left_comm]

end

/-- The predicates that PLOP reads (R152). -/
def plopUses (g : PlopG) (pa pb : BitVec 3) (m : Mask) : List Use :=
  useP pa m ++ useP pb m ++ match g with | .none => [] | .and c | .or c | .xor c => useP c m

section
variable (s : State) (h : Hdr) (sc sw : Bool) (o : Op2) (ty : Ty) (q pa pb : BitVec 3) (ci : Option (BitVec 3)) (d : BitVec 8) (a b : Opnd)

theorem exec_movi (x : DWord) : exec (.movi h sc ty d x) s =
    laneOp false h (if ty.is64 then 16 else 12) sc ty.is64 d (fun _ _ => []) (fun _ _ => pure x) s := rfl
theorem exec_lea (sh : BitVec 3) (disp : Word) : exec (.lea o ty sh disp) s =
    laneOp false o.h 12 o.sc true o.d (uses2 o true ty.is64) (fun v l => pure (v.src o.sc .n64 o.a l +
      (BitVec.ofInt 64 (asInt ty (v.src o.sc ty o.b l)) <<< sh.toNat) + disp.signExtend 64)) s := rfl
theorem exec_sel (pc : BitVec 3) : exec (.sel o ty pc) s =
    laneOp false o.h 8 o.sc ty.is64 o.d (fun v m => uses2 o ty.is64 ty.is64 v m ++ useP pc m)
      (fun v l => pure (if lane (v.f.pred pc.toNat) l then v.src o.sc ty o.a l else v.src o.sc ty o.b l)) s := rfl
theorem exec_iaddc : exec (.iaddc o ty q ci) s = carryOp o ty q ci (carryOut ty) s := rfl
theorem exec_isubb : exec (.isubb o ty q ci) s = carryOp o ty q ci (borrowOut ty) s := rfl
theorem exec_icmp (cc : Cond) : exec (.icmp h sc cc ty q a b) s =
    predOp h 8 sc q (fun _ m => useSrc sc ty.is64 a m ++ useSrc sc ty.is64 b m)
      (fun v l => cc.holds (asInt ty (v.src sc ty a l)) (asInt ty (v.src sc ty b l))) (fun _ _ => pure 0) s := rfl
theorem exec_plop (f : BitVec 4) (g : PlopG) : exec (.plop h f g q pa pb) s =
    predOp h 8 false q (fun _ => plopUses g pa pb) (plopBit f g · pa pb ·) (fun _ _ => pure 0) s := rfl
theorem exec_vote (m : VoteMode) : exec (.vote h m q pa) s =
    predOp h 8 false q (fun _ m => useP pa m) (fun v _ => voteBit m (v.active h) (v.f.pred pa.toNat)) (fun _ _ => pure 0) s := rfl
theorem exec_ballot : exec (.ballot h d pa) s =
    laneOp false h 8 false false d (fun _ m => useP pa m) (fun v _ => pure ((v.active h &&& v.f.pred pa.toNat).setWidth 64)) s := rfl

end

section
variable (v : View) (o : Op2) (ty : Ty) (q : BitVec 3) (ci : Option (BitVec 3))

/-- What IADDC and ISUBB touch, and the carry in of a lane (R151). -/
def View.touchCarry : List Use :=
  (useSrc o.sc ty.is64 o.a (v.mask o.h o.sc) ++ useSrc o.sc ty.is64 o.b (v.mask o.h o.sc)) ++
    (match ci with | some c => useP c (v.mask o.h o.sc) | none => []) ++ useDst o.sc ty.is64 o.d (v.mask o.h o.sc) ++
    [⟨.r (.p q.toNat), v.mask o.h o.sc, false, false⟩]

def View.carryIn (l : Nat) : Nat := match ci with | some c => ((v.f.pred c.toNat).getLsbD l).toNat | none => 0

/-- The effect of IADDC and ISUBB, whose lanes compute the values `x` and the carries `c`. -/
def View.carries (x : Nat → DWord) (c : Nat → Bool) (s : State) : State :=
  (s.upds v.f (v.dstUpds o.sc ty.is64 o.d ((v.runs o.h o.sc).map fun l => (l, x l)))).upd v.f (v.predUpd o.h o.sc q c)

variable {v o ty q ci} in
theorem carryOp_next {s : State} {f : DWord → DWord → Nat → DWord × Bool} {x : Nat → DWord} {c : Nat → Bool}
    (hi : s.issuing v perLane (v.touchCarry o ty q ci))
    (hf : ∀ l, f (v.src o.sc ty o.a l) (v.src o.sc ty o.b l) (v.carryIn ci l) = (x l, c l)) :
    carryOp o ty q ci f s = .next (v.after o.h.sw 8 (v.touchCarry o ty q ci) (v.carries o ty q x c) s) := by
  have value : x = fun l => (f (v.src o.sc ty o.a l) (v.src o.sc ty o.b l) (v.carryIn ci l)).1 := funext fun l => by rw [hf]
  have carry : c = fun l => (f (v.src o.sc ty o.a l) (v.src o.sc ty o.b l) (v.carryIn ci l)).2 := funext fun l => by rw [hf]
  subst value carry
  unfold carryOp issue
  exact issueAs_done hi rfl rfl

end

theorem Cond.holds_eq (ty : Ty) (a b : DWord) : Cond.eq.holds (asInt ty a) (asInt ty b) = decide (low ty a = low ty b) := by
  rw [Bool.eq_iff_iff, decide_eq_true_eq, ← asInt_inj]
  exact beq_iff_eq

theorem Cond.holds_ne (ty : Ty) (a b : DWord) : Cond.ne.holds (asInt ty a) (asInt ty b) = decide (low ty a ≠ low ty b) := by
  rw [Bool.eq_iff_iff, decide_eq_true_eq, Ne, ← asInt_inj]
  exact bne_iff_ne

/-- The truth table of f by its four bits (R152). -/
theorem truthTable (f : BitVec 4) (a b : Bool) : f.getLsbD (2 * a.toNat + b.toNat) =
    match a, b with | false, false => f.getLsbD 0 | false, true => f.getLsbD 1 | true, false => f.getLsbD 2 | true, true => f.getLsbD 3 := by
  cases a <;> cases b <;> rfl

/-! V2S (R154). -/

section
variable (v : View) (ty : Ty) (d : BitVec 6) (a : Opnd) (b : BitVec 8)

/-- The lane that V2S selects, what it delivers, and whether its A reaches outside the windows. -/
def View.v2sLane : Nat := (v.sval b).toNat % 32
def View.v2sValue : DWord := if v.g.lanes.getLsbD (v.v2sLane b) then v.vval ty.is64 a.idx.toNat (v.v2sLane b) else 0
def View.v2sOut : Bool := (upTo (if ty.is64 then 2 else 1)).any fun i => (quotaRow v.f.quota (a.idx.toNat + i)).isNone

/-- The lanes of V2S that read A. -/
def View.v2sReads : Mask := if v.v2sOut ty a then v.g.lanes else if v.g.lanes.getLsbD (v.v2sLane b) then 1#32 <<< v.v2sLane b else 0

def View.v2sUses : List Use := useS b v.g.lanes ++ defS d.toNat v.g.lanes ++ useSrc false ty.is64 a (v.v2sReads ty a b)

theorem exec_v2s (s : State) (sw : Bool) : exec (.v2s sw ty d a b) s = issueAs perLane sw 8 (fun v => v.v2sUses ty d a b)
    (fun v s => .ok (s.defer v.f (Out.of [.s d.toNat (v.v2sValue ty a b)]))) s := rfl

theorem View.v2sOut_eq_false : v.v2sOut ty a = false ↔
    ∀ i < (if ty.is64 then 2 else 1), (quotaRow v.f.quota (a.idx.toNat + i)).isSome = true := by
  simp [View.v2sOut, upTo, Option.isSome_iff_ne_none]

variable {v ty d a b}

theorem useLanes_append (us us' : List Use) (p : Use → Mask) : useLanes (us ++ us') p = useLanes us p ||| useLanes us' p := by
  apply BitVec.eq_of_getLsbD_eq
  intro l hl
  simp only [useLanes, BitVec.getLsbD_or, getLsbD_maskOf _ hl, List.any_append]

theorem useLanes_registers {us : List Use} (h : ∀ u ∈ us, ∃ r, u.reg = .r r) : useLanes us (·.outside v) = 0#32 :=
  maskOf_zero fun l _ => List.any_eq_false.2 fun u hu => by
    obtain ⟨r, e⟩ := h u hu
    simp [Use.outside, e]

/-- A run of registers that leaves the windows does so in every lane that reads it. -/
theorem useLanes_useRun {k n : Nat} {m : Mask} {last : Bool} (ho : (upTo k).any (fun i => (quotaRow v.f.quota (n + i)).isNone) = true) :
    useLanes (useRun k n m last) (·.outside v) = m := by
  obtain ⟨i, hi, e⟩ := List.any_eq_true.1 ho
  apply BitVec.eq_of_getLsbD_eq
  intro l hl
  rw [useLanes, getLsbD_maskOf _ hl, useRun, List.any_map, Bool.eq_iff_iff, List.any_eq_true]
  constructor
  · rintro ⟨j, -, hj⟩
    simp only [Function.comp_apply, Use.outside] at hj
    split at hj
    · exact hj
    · simp at hj
  · exact fun hm => ⟨i, hi, by simpa only [Function.comp_apply, Use.outside, e, if_true] using hm⟩

/-- Every issuing lane finds A outside the windows. -/
theorem View.v2sUses_outside (ho : v.v2sOut ty a = true) (hx : a.x = false) : useLanes (v.v2sUses ty d a b) (·.outside v) = v.g.lanes := by
  have scalars : useLanes (useS b v.g.lanes ++ defS d.toNat v.g.lanes) (·.outside v) = 0#32 := useLanes_registers fun u hu => by
    simp only [useS, defS, List.mem_append, List.mem_singleton] at hu
    obtain hu | rfl := hu
    · split at hu
      · exact ⟨_, congrArg Use.reg (List.mem_singleton.1 hu)⟩
      · cases hu
    · exact ⟨_, rfl⟩
  rw [View.v2sUses, useLanes_append, scalars, BitVec.zero_or, View.v2sReads, if_pos ho, useSrc, hx]
  exact useLanes_useRun ho

theorem exec_v2s_traps {s : State} {sw : Bool} (ho : v.v2sOut ty a = true) (hx : a.x = false) (hg : v.g.lanes ≠ 0) (hv : s.view? = some v) :
    exec (.v2s sw ty d a b) s = .next (s.traps v (v.trapRec .registerBound v.g.lanes 0 0)) := by
  have bound : v.checks perLane (v.v2sUses ty d a b) = .error (v.stop .registerBound v.g.lanes) := by
    rw [View.checks_eq, View.v2sUses_outside ho hx, if_pos (by rfl), if_pos (by rfl), if_neg hg]
  exact (exec_v2s ty d a b s sw).trans (issueAs_error (us := fun v => v.v2sUses ty d a b) hv bound)

theorem exec_v2s_next {s : State} {sw : Bool} (ho : v.v2sOut ty a = false)
    (hi : s.issuing v perLane (useS b v.g.lanes ++
      useSrc false ty.is64 a (if v.g.lanes.getLsbD (v.v2sLane b) then 1#32 <<< v.v2sLane b else 0) ++ defS d.toNat v.g.lanes)) :
    exec (.v2s sw ty d a b) s = .next (v.after sw 8 (useS b v.g.lanes ++
      useSrc false ty.is64 a (if v.g.lanes.getLsbD (v.v2sLane b) then 1#32 <<< v.v2sLane b else 0) ++ defS d.toNat v.g.lanes)
      (fun s => s.defer v.f (Out.of [.s d.toNat (v.v2sValue ty a b)])) s) := by
  obtain ⟨hv, hm⟩ := hi
  have reads : v.v2sUses ty d a b = useS b v.g.lanes ++ defS d.toNat v.g.lanes ++
      useSrc false ty.is64 a (if v.g.lanes.getLsbD (v.v2sLane b) then 1#32 <<< v.v2sLane b else 0) := by
    rw [View.v2sUses, View.v2sReads, ho]
    rfl
  have runs : s.issuing v perLane (v.v2sUses ty d a b) := ⟨hv, View.mayRun_of_mem (fun u => by simp [reads, or_comm, or_left_comm]) hm⟩
  rw [exec_v2s, ← View.after_defS, ← reads]
  exact issueAs_next (us := fun v => v.v2sUses ty d a b) runs rfl

end

end Sys2Proof.Machine

open Sys2Proof Sys2Proof.Machine

/-- Settles O3: row by row, over the lane loop, the write of a predicate, the two results with a carry, and V2S. -/
theorem integerCarriesAndPredicates : Obligations.IntegerCarriesAndPredicates := by
  unfold Obligations.IntegerCarriesAndPredicates
  refine ⟨fun s v ty => ⟨?movi, ?lea, ?sel, ?carries⟩, fun s v => ⟨?icmp, ?plop, ?vote, ?ballot, ?v2s⟩⟩
  case movi => exact fun h sc d x hi => (exec_movi s h sc ty d x).trans (laneOp_next (srcs := fun _ _ => []) hi)
  case lea => exact fun o sh disp hi => (exec_lea s o ty sh disp).trans (laneOp_next (srcs := uses2 o true ty.is64) hi)
  case sel =>
    intro o pc us hi
    exact (exec_sel s o ty pc).trans (laneOp_next (srcs := fun v m => uses2 o ty.is64 ty.is64 v m ++ useP pc m) hi)
  case carries =>
    intro o q ci m us A B cin hi
    exact ⟨(exec_iaddc s o ty q ci).trans (carryOp_next hi fun l => carryOut_eq ty _ _ _),
      (exec_isubb s o ty q ci).trans (carryOp_next hi fun l => borrowOut_eq ty _ _ _)⟩
  case icmp =>
    intro h sc cc ty q a b us hi
    refine ((exec_icmp s h sc ty q a b cc).trans
      (predOp_next (srcs := fun _ m => useSrc sc ty.is64 a m ++ useSrc sc ty.is64 b m) hi)).trans ?_
    refine congrArg (fun c => Host.Outcome.next (v.decided h sc q us c s)) (funext fun l => ?_)
    cases cc with
    | eq => exact Cond.holds_eq ty _ _
    | ne => exact Cond.holds_ne ty _ _
    | lt | le | gt | ge => rfl
  case plop =>
    intro h f g q pa pb m us bit hi
    have reads : us = plopUses g pa pb m := by cases g <;> rfl
    rw [reads] at hi ⊢
    refine ((exec_plop s h q pa pb f g).trans (predOp_next (srcs := fun _ => plopUses g pa pb) hi)).trans ?_
    refine congrArg (fun c => Host.Outcome.next (v.decided h false q (plopUses g pa pb m) c s)) (funext fun l => ?_)
    have table := truthTable f (bit pa l) (bit pb l)
    cases g with
    | none => exact table
    | and c => exact congrArg (· && bit c l) table
    | or c => exact congrArg (· || bit c l) table
    | xor c => exact congrArg (· != bit c l) table
  case vote =>
    intro h m q pa hi here bit
    refine ((exec_vote s h q pa m).trans (predOp_next (srcs := fun _ m => useP pa m) hi)).trans ?_
    refine congrArg (fun c => Host.Outcome.next (v.decided h false q (useP pa (v.active h)) c s)) (funext fun l => ?_)
    cases m with
    | any => exact vote_any _ _
    | all => exact vote_all _ _
    | uni => exact (congrArg₂ (· || ·) (vote_none _ _) (vote_all _ _)).trans (Bool.or_comm _ _)
  case ballot =>
    intro h d pa hi
    refine ((exec_ballot s h pa d).trans (laneOp_next (srcs := fun _ m => useP pa m) hi)).trans ?_
    rw [and_eq_maskOf]
    rfl
  case v2s =>
    intro sw ty d a b n inside us
    exact ⟨fun hin hi => exec_v2s_next ((v.v2sOut_eq_false ty a).2 hin) hi,
      fun hout hx hg hv => exec_v2s_traps (Bool.eq_true_of_not_eq_false fun e => hout ((v.v2sOut_eq_false ty a).1 e)) hx hg hv⟩

end

section
/-! ### Branching instructions (R130, R133, R134) -/

namespace Sys2Proof.Machine

open Sys2Proof

section
variable (s : State) (h : Hdr) (a : Opnd) (d : BitVec 8) (off : Word)

theorem exec_bra : exec (.bra h off) s = execBra h off s := rfl
theorem exec_brx : exec (.brx h a) s = execBrx h a s := rfl
theorem exec_ret : exec (.ret h a) s = exec (.brx h a) s := rfl
theorem exec_call : exec (.call h d off) s = execCall h d off s := rfl
theorem exec_callx : exec (.callx h d a) s = execCallx h d a s := rfl
theorem exec_dbnz (sc : Bool) : exec (.dbnz h sc d off) s = execDbnz h sc d off s := rfl

end

/-! The lowest lane of a mask. -/

theorem lowest_eq {m : Mask} {l : Nat} (hl : m.getLsbD l = true) (below : ∀ k < l, m.getLsbD k = false) : lowest m = l := by
  have lt : l < 32 := BitVec.lt_of_getLsbD hl
  have found : (upTo 32).find? (lane m) = some l := by
    rw [upTo, List.find?_range_eq_some]
    exact ⟨hl, by simpa using lt, fun k hk => by simp [lane, below k hk]⟩
  rw [lowest, lanesOf, List.headD_eq_head?_getD, List.head?_filter, found, Option.getD_some]

theorem lanesOf_eq_cons {m : Mask} (h : m ≠ 0) : ∃ ls, lanesOf m = lowest m :: ls := by
  cases e : lanesOf m with
  | nil =>
    refine absurd ?_ h
    apply BitVec.eq_of_getLsbD_eq
    intro l hl
    have out : l ∉ lanesOf m := by simp [e]
    simpa using fun hm => out ((mem_lanesOf hl).2 hm)
  | cons l ls => exact ⟨ls, by rw [lowest, e, List.headD_cons]⟩

theorem lowest_mem {m : Mask} (h : m ≠ 0) : m.getLsbD (lowest m) = true := by
  obtain ⟨ls, e⟩ := lanesOf_eq_cons h
  exact ((mem_lanesOf_lt m).1 (e ▸ List.mem_cons_self)).2

/-! The targets held in registers (R133). -/

section
variable {s : State} {v : View} {h : Hdr} {m : Mask} {a : Opnd}

/-- The lanes of `m` whose target is no multiple of 4. -/
def View.badTargets (v : View) (m : Mask) (a : Opnd) : Mask :=
  maskOf fun k => m.getLsbD k && (v.src false .n64 a k).extractLsb' 0 2 != 0#2

theorem View.target_low (v : View) (a : Opnd) (l : Nat) : (v.target a l).extractLsb' 0 2 = (v.src false .n64 a l).extractLsb' 0 2 :=
  BitVec.extractLsb'_setWidth_of_le (by decide)

theorem View.checkTargets_eq (v : View) (m : Mask) (a : Opnd) : v.checkTargets m a =
    v.trapIf .misaligned (v.badTargets m a) ((v.target a (lowest (v.badTargets m a))).setWidth 64) := by
  have bad : m &&& maskOf (fun l => (v.target a l).extractLsb' 0 2 != 0) = v.badTargets m a := by
    apply BitVec.eq_of_getLsbD_eq
    intro l hl
    rw [View.badTargets, BitVec.getLsbD_and, getLsbD_maskOf _ hl, getLsbD_maskOf _ hl, View.target_low]
    rfl
  rw [View.checkTargets, bad]

theorem View.checkTargets_aligned (ha : ∀ l ∈ lanesOf m, (v.src false .n64 a l).extractLsb' 0 2 = 0#2) : v.checkTargets m a = .ok () := by
  have none_ : v.badTargets m a = 0 := maskOf_zero fun l hl => by
    cases e : m.getLsbD l with
    | false => rfl
    | true => simp [ha l ((mem_lanesOf hl).2 e)]
  rw [View.checkTargets_eq, none_]
  rfl

theorem View.checkTargets_misaligned {l : Nat} (hl : (v.badTargets m a).getLsbD l = true) (below : ∀ k < l, (v.badTargets m a).getLsbD k = false) :
    v.checkTargets m a = .error (v.stop .misaligned (v.badTargets m a) ((v.target a l).setWidth 64)) := by
  have some_ : (v.badTargets m a == 0) = false := beq_false_of_ne fun e => by simp [e] at hl
  rw [View.checkTargets_eq, View.trapIf, some_, lowest_eq hl below]
  rfl

/-- A branching instruction whose body traps. -/
theorem issueBranch_traps {len : Nat} {us : View → List Use} {body : View → State → Chk (State × (Nat → VA))} {us' : List Use} {code : Trap}
    {x : DWord} {n : Byte} (hi : s.issuing v perLane us') (hus : us v = us') (hb : body v (s.consume v us') = .error (v.stop code m x n)) :
    issueBranch h len us body s = .next (s.traps v (v.trapRec code m x n)) := by
  subst hus
  simp only [issueBranch, hi.1, View.checks_ok hi.2, Except.ok_bind, hb, View.stop_outcome]

theorem execBrx_next (hi : s.issuing v perLane (useSrc false true a (v.active h)))
    (ha : ∀ l ∈ lanesOf (v.active h), (v.src false .n64 a l).extractLsb' 0 2 = 0#2) :
    execBrx h a s = .next (v.branched h 8 (useSrc false true a (v.active h)) id (fun l => (v.src false .n64 a l).setWidth 56) s) := by
  unfold execBrx
  exact issueBranch_done hi rfl (by rw [View.checkTargets_aligned ha]; rfl)

theorem execCallx_next {d : BitVec 8} (hi : s.issuing v perLane (useSrc false true a (v.active h) ++ useDst false true d (v.active h)))
    (ha : ∀ l ∈ lanesOf (v.active h), (v.src false .n64 a l).extractLsb' 0 2 = 0#2) :
    execCallx h d a s = .next (v.branched h 8 (useSrc false true a (v.active h) ++ useDst false true d (v.active h))
      (fun s => s.upds v.f (v.vecUpds true d.toNat ((lanesOf (v.active h)).map fun l => (l, (v.iss.pc + 8).setWidth 64))))
      (fun l => (v.src false .n64 a l).setWidth 56) s) := by
  unfold execCallx
  exact issueBranch_done hi rfl (by rw [View.checkTargets_aligned ha]; rfl)

section
variable {l : Nat} (hl : (v.badTargets (v.active h) a).getLsbD l = true) (below : ∀ k < l, (v.badTargets (v.active h) a).getLsbD k = false)
include hl below

theorem execBrx_traps (hi : s.issuing v perLane (useSrc false true a (v.active h))) : execBrx h a s =
    .next (s.traps v (v.trapRec .misaligned (v.badTargets (v.active h) a) ((v.target a l).setWidth 64) 0)) := by
  unfold execBrx
  exact issueBranch_traps hi rfl (by rw [View.checkTargets_misaligned hl below]; rfl)

theorem execCallx_traps {d : BitVec 8} (hi : s.issuing v perLane (useSrc false true a (v.active h) ++ useDst false true d (v.active h))) :
    execCallx h d a s = .next (s.traps v (v.trapRec .misaligned (v.badTargets (v.active h) a) ((v.target a l).setWidth 64) 0)) := by
  unfold execCallx
  exact issueBranch_traps hi rfl (by rw [View.checkTargets_misaligned hl below]; rfl)

end
end

/-! DBNZ (R134). -/

section
variable {s : State} {v : View} {h : Hdr} {d : BitVec 8} {off : Word}

theorem vval_word (v : View) (n l : Nat) : (v.vval false n l).setWidth 32 = (v.vreg n).at l :=
  (BitVec.setWidth_setWidth_of_le _ (by decide)).trans (BitVec.setWidth_eq _)

theorem setWidth_eq_zero (x : Word) : (x.setWidth 64 : DWord) = 0 ↔ x = 0 := by
  constructor
  · intro e
    simpa using congrArg (BitVec.setWidth 32) e
  · rintro rfl
    rfl

theorem execDbnz_vector (hi : s.issuing v perLane (useRun 1 d.toNat (v.active h) false)) :
    execDbnz h false d off s = .next (v.branched h 12 (useRun 1 d.toNat (v.active h) false)
      (fun s => s.upds v.f (v.vecUpds false d.toNat ((lanesOf (v.active h)).map fun l => (l, ((v.vreg d.toNat).at l - 1).setWidth 64))))
      (fun l => if (v.vreg d.toNat).at l - 1 = 0 then v.iss.pc + 12 else v.iss.pc + off.signExtend 56) s) := by
  unfold execDbnz
  refine issueBranch_done hi rfl ?_
  simp only [vval_word, Bool.false_eq_true, if_false, bne_iff_ne, ne_eq, setWidth_eq_zero, ite_not, View.relative]

/-- Only the next PCs of lanes whose guard is true matter. -/
theorem View.branched_congr {len : Nat} {us : List Use} {eff : State → State} {next next' : Nat → VA}
    (hn : ∀ l, lane (v.active h) l = true → next l = next' l) : v.branched h len us eff next s = v.branched h len us eff next' s := by
  have same : (fun l => if lane (v.active h) l then next l else v.iss.pc + BitVec.ofNat 56 len) =
      fun l => if lane (v.active h) l then next' l else v.iss.pc + BitVec.ofNat 56 len := by
    funext l
    split
    next e => exact hn l e
    next => rfl
  simp only [View.branched, same]

theorem View.active_never (v : View) (sw : Bool) : v.active ⟨sw, 7, true⟩ = 0 := by
  simp [View.active, Fibre.pred]

section
variable (hi : s.issuing v perLane [⟨.r (.s d.toNat), v.mask h true, true, false⟩])
include hi

theorem execDbnz_taken (hg : v.scalarGuard h = true) :
    execDbnz h true d off s = .next (v.branched { h with pg := 7, pn := false } 12 [⟨.r (.s d.toNat), v.mask h true, true, false⟩]
      (fun s => s.upd v.f (.s d.toNat (v.f.s[d.toNat]! - 1)))
      (fun _ => if v.f.s[d.toNat]! - 1 = 0 then v.iss.pc + 12 else v.iss.pc + off.signExtend 56) s) := by
  simp only [execDbnz, hi.1, hg]
  refine issueBranch_done hi rfl ?_
  simp only [hg, if_true, bne_iff_ne, ne_eq, ite_not, View.relative]

theorem execDbnz_passed (hg : v.scalarGuard h = false) :
    execDbnz h true d off s = .next (v.branched { h with pg := 7, pn := true } 12 [⟨.r (.s d.toNat), v.mask h true, true, false⟩] id
      (fun _ => v.iss.pc + 12) s) := by
  have taken : execDbnz h true d off s = .next (v.branched { h with pg := 7, pn := true } 12 [⟨.r (.s d.toNat), v.mask h true, true, false⟩] id
      (fun _ => if v.f.s[d.toNat]! - 1 != 0 then v.relative off else v.iss.pc + 12) s) := by
    simp only [execDbnz, hi.1, hg]
    refine issueBranch_done hi rfl ?_
    simp only [hg, Bool.false_eq_true, if_false, if_true, id]
  rw [taken, View.branched_congr fun l hl => absurd hl (by rw [View.active_never]; simp [lane])]

end
end

/-! The gangs by next PC (R130). -/

theorem insertGang_perm (g : Gang) (l : List Gang) : (insertGang g l).Perm (g :: l) := by
  induction l with
  | nil => exact .refl _
  | cons x xs ih =>
    rw [insertGang]
    split
    · exact .refl _
    · exact (ih.cons x).trans (.swap g x xs)

theorem sortGangs_perm (l : List Gang) : (sortGangs l).Perm l := by
  induction l with
  | nil => exact .refl _
  | cons x xs ih => exact (insertGang_perm x _).trans (ih.cons x)

theorem addOnces_head {α : Type} [BEq α] (xs : List α) (p : α) (l : List α) : ∃ ps, xs.foldl addOnce (p :: l) = p :: ps := by
  induction xs generalizing l with
  | nil => exact ⟨l, rfl⟩
  | cons x xs ih =>
    rw [List.foldl_cons, addOnce]
    split
    · exact ih l
    · exact ih (l ++ [x])

section
variable (lanes : Mask) (next : Nat → VA)

theorem nextPcs_eq : nextPcs lanes next = ((lanesOf lanes).map next).foldl addOnce [] := List.foldl_map.symm

theorem mem_nextPcs (q : VA) : q ∈ nextPcs lanes next ↔ ∃ l ∈ lanesOf lanes, next l = q := by
  simp [nextPcs_eq, mem_addOnces]

/-- The next PC of the lowest lane comes first. -/
theorem nextPcs_head (h : lanes ≠ 0) : ∃ ps, nextPcs lanes next = next (lowest lanes) :: ps := by
  obtain ⟨ls, e⟩ := lanesOf_eq_cons h
  rw [nextPcs_eq, e]
  exact addOnces_head (ls.map next) (next (lowest lanes)) []

end

section
variable (f : Fibre) (g : Gang) (next : Nat → VA)

/-- The lanes of a gang whose next PC is `q`. -/
def Gang.lanesTo (q : VA) : Mask := maskOf fun l => lane g.lanes l && next l == q

/-- The gangs that keep their names, of which `g` goes on to `p`; and the new ones, one for each PC of `ps`. -/
def Fibre.keptGangs (p : VA) : List Gang := f.gangs.map fun x => if x.id == g.id then { x with lanes := g.lanesTo next p, pc := p } else x
def Fibre.newGangs (ps : List VA) : List Gang :=
  ps.mapIdx fun i q => { id := f.nextGang + i, lanes := g.lanesTo next q, pc := q, st := .run, count := 0 }

theorem Gang.getLsbD_lanesTo (q : VA) {l : Nat} (h : l < 32) : (g.lanesTo next q).getLsbD l = (g.lanes.getLsbD l && next l == q) :=
  getLsbD_maskOf _ h

variable {f g next}

theorem Fibre.part_eq {p : VA} {ps : List VA} (h : nextPcs g.lanes next = p :: ps) : f.part g next =
    { f with gangs := sortGangs (f.keptGangs g next p ++ f.newGangs g next ps), nextGang := f.nextGang + ps.length } := by
  simp only [Fibre.part, h]
  rfl

theorem Fibre.mem_part {p : VA} {ps : List VA} (h : nextPcs g.lanes next = p :: ps) (x : Gang) :
    x ∈ (f.part g next).gangs ↔ x ∈ f.keptGangs g next p ∨ x ∈ f.newGangs g next ps := by
  rw [Fibre.part_eq h, (sortGangs_perm _).mem_iff, List.mem_append]

theorem Fibre.keptGangs_self (hg : g ∈ f.gangs) (p : VA) : { g with lanes := g.lanesTo next p, pc := p } ∈ f.keptGangs g next p :=
  List.mem_map.2 ⟨g, hg, if_pos BEq.rfl⟩

theorem Fibre.keptGangs_other {x : Gang} (hx : x ∈ f.gangs) (h : x.id ≠ g.id) (p : VA) : x ∈ f.keptGangs g next p :=
  List.mem_map.2 ⟨x, hx, if_neg (by simpa using h)⟩

theorem Fibre.keptGangs_ids (p : VA) : (f.keptGangs g next p).map (·.id) = f.gangs.map (·.id) := by
  rw [Fibre.keptGangs, List.map_map]
  refine List.map_congr_left fun x _ => ?_
  by_cases h : x.id = g.id <;> simp [h]

theorem Fibre.newGangs_ids (ps : List VA) : (f.newGangs g next ps).map (·.id) = (List.range ps.length).map (f.nextGang + ·) := by
  apply List.ext_getElem <;> simp [Fibre.newGangs]

theorem Fibre.mem_newGangs {ps : List VA} {q : VA} (hq : q ∈ ps) : ∃ x ∈ f.newGangs g next ps, f.nextGang ≤ x.id ∧ x.pc = q ∧
    x.lanes = g.lanesTo next q := by
  obtain ⟨i, hi, rfl⟩ := List.mem_iff_getElem.1 hq
  exact ⟨_, List.mem_mapIdx.2 ⟨i, hi, rfl⟩, Nat.le_add_right .., rfl, rfl⟩

theorem Fibre.part_ids_nodup {p : VA} {ps : List VA} (h : nextPcs g.lanes next = p :: ps) (hn : (f.gangs.map (·.id)).Nodup)
    (old : ∀ x ∈ f.gangs, x.id < f.nextGang) : ((f.part g next).gangs.map (·.id)).Nodup := by
  rw [Fibre.part_eq h, ((sortGangs_perm _).map _).nodup_iff, List.map_append, Fibre.keptGangs_ids, Fibre.newGangs_ids, List.nodup_append]
  refine ⟨hn, List.nodup_range.map (add_right_injective f.nextGang), fun a ha b hb => ?_⟩
  obtain ⟨x, hx, rfl⟩ := List.mem_map.1 ha
  obtain ⟨i, -, rfl⟩ := List.mem_map.1 hb
  have := old x hx
  omega

/-- Each lane goes to a gang at its next PC, with the lanes of the old gang that go there too. -/
theorem Fibre.part_lane (hg : g ∈ f.gangs) {l : Nat} (hl : l < 32) (hm : g.lanes.getLsbD l = true) :
    ∃ x ∈ (f.part g next).gangs, (x.id = g.id ∨ f.nextGang ≤ x.id) ∧ x.pc = next l ∧
      ∀ k < 32, x.lanes.getLsbD k = (g.lanes.getLsbD k && next k == next l) := by
  have goes : next l ∈ nextPcs g.lanes next := (mem_nextPcs _ _ _).2 ⟨l, (mem_lanesOf hl).2 hm, rfl⟩
  cases e : nextPcs g.lanes next with
  | nil => simp [e] at goes
  | cons p ps =>
    rw [e, List.mem_cons] at goes
    obtain rfl | hq := goes
    · exact ⟨_, (Fibre.mem_part e _).2 (.inl (Fibre.keptGangs_self hg _)), .inl rfl, rfl, fun k hk => g.getLsbD_lanesTo next _ hk⟩
    · obtain ⟨x, hx, hid, hpc, hlanes⟩ := Fibre.mem_newGangs (f := f) (g := g) (next := next) hq
      exact ⟨x, (Fibre.mem_part e _).2 (.inr hx), .inr hid, hpc, fun k hk => by rw [hlanes, g.getLsbD_lanesTo next _ hk]⟩

end

end Sys2Proof.Machine

open Sys2Proof Sys2Proof.Machine

/-- Settles O9: the branching instructions by what their bodies answer, the trap by the lowest misaligned lane, and the gangs by the list of next PCs. -/
theorem branchesSortLanes : Obligations.BranchesSortLanes := by
  unfold Obligations.BranchesSortLanes
  refine ⟨fun s v h => ⟨?bra, ?brx, ?call, ?callx, ?dbnz, ?dbnzScalar⟩, ?misaligned, ?part⟩
  case bra => exact fun off hi => (exec_bra s h off).trans (issueBranch_done (eff := id) hi rfl rfl)
  case brx => exact fun a hi ha => ⟨(exec_brx s h a).trans (execBrx_next hi ha), exec_ret s h a⟩
  case call => exact fun d off hi => (exec_call s h d off).trans (issueBranch_done hi rfl rfl)
  case callx => exact fun d a hi ha => (exec_callx s h a d).trans (execCallx_next hi ha)
  case dbnz => exact fun d off hi => (exec_dbnz s h d off false).trans (execDbnz_vector hi)
  case dbnzScalar =>
    intro d off us c hi
    exact ⟨fun hg => (exec_dbnz s h d off true).trans (execDbnz_taken hi hg), fun hg => (exec_dbnz s h d off true).trans (execDbnz_passed hi hg)⟩
  case misaligned =>
    intro s v h a d l m bad t hl below
    exact ⟨fun hi => ⟨(exec_brx s h a).trans (execBrx_traps hl below hi), (exec_ret s h a).trans ((exec_brx s h a).trans (execBrx_traps hl below hi))⟩,
      fun hi => (exec_callx s h a d).trans (execCallx_traps hl below hi)⟩
  case part =>
    intro f g next hg hlanes hn old f'
    obtain ⟨ps, pcs⟩ := nextPcs_head g.lanes next hlanes
    refine ⟨fun l => Fibre.part_lane hg, ⟨_, (Fibre.mem_part pcs _).2 (.inl (Fibre.keptGangs_self hg _)), rfl, ?_⟩,
      fun x hx hid => (Fibre.mem_part pcs _).2 (.inl (Fibre.keptGangs_other hx hid _)), Fibre.part_ids_nodup pcs hn old, ?_, ?_⟩
    · rw [g.getLsbD_lanesTo next _ (BitVec.lt_of_getLsbD (lowest_mem hlanes)), lowest_mem hlanes, BEq.rfl]
      rfl
    · exact congrArg (·.turn) (Fibre.part_eq pcs)
    · exact congrArg (fun x : Fibre => { x with gangs := f.gangs, nextGang := f.nextGang }) (Fibre.part_eq pcs)

end

section
/-! ### REGANG of a parted fibre (R137) -/

namespace Sys2Proof.Machine

open Sys2Proof

/-! What the gangs of a fibre wait for. -/

/-- Two gangs wait at one rendezvous. -/
def Gang.alike (x y : Gang) : Bool :=
  match x.st, y.st with
  | .rendezvous i, .rendezvous j => decide (i = j ∧ x.pc = y.pc)
  | _, _ => false

theorem Gang.alike_iff {x y : Gang} : x.alike y = true ↔ x.meet.isSome = true ∧ x.meet = y.meet := by
  unfold Gang.alike Gang.meet
  cases x.st <;> cases y.st <;> simp

theorem Gang.pc_eq_of_alike {x y : Gang} (h : x.alike y = true) : x.pc = y.pc := by
  unfold Gang.alike at h
  split at h
  · exact (of_decide_eq_true h).2
  · cases h

theorem Gang.meet_isSome (g : Gang) : g.meet.isSome = match g.st with | .rendezvous _ => true | _ => false := by
  unfold Gang.meet
  cases g.st <;> rfl

section
variable {f : Fibre}

/-- All gangs wait at one rendezvous just when every two of them do. -/
theorem Fibre.allMatch_iff : f.allMatch = true ↔ ∀ x ∈ f.gangs, ∀ y ∈ f.gangs, x.alike y = true := by
  simp only [Fibre.allMatch, List.all_eq_true, Bool.and_eq_true, beq_iff_eq, Gang.alike_iff]
  constructor
  · intro h x hx y hy
    exact ⟨(h x hx).1, (h x hx).2.trans (h y hy).2.symm⟩
  · intro h x hx
    cases e : f.gangs with
    | nil => simp [e] at hx
    | cons g gs =>
      have first : g ∈ f.gangs := by simp [e]
      exact h x hx g first

theorem Fibre.allMeet_of_allMatch (h : f.allMatch = true) : f.allMeet = true := by
  simp only [Fibre.allMatch, Fibre.allMeet, List.all_eq_true, Bool.and_eq_true] at h ⊢
  exact fun x hx => (h x hx).1

/-- The merged fibre: one gang past the REGANG of the first. -/
theorem Fibre.merge_eq {g : Gang} {gs : List Gang} (h : f.gangs = g :: gs) (id : Nat) : ∃ st, f.merge id =
    { f with gangs := [{ id := id, lanes := unionMask (f.gangs.map (·.lanes)), pc := g.pc + 8, st := .run, count := 0 }], turn := id, st := st } := by
  rw [Fibre.merge, h]
  exact ⟨_, rfl⟩

/-- The turn stays, or goes to one of the gangs. -/
theorem Fibre.passTurn_turn (f : Fibre) : f.passTurn.turn = f.turn ∨ ∃ g ∈ f.gangs, f.passTurn.turn = g.id := by
  unfold Fibre.passTurn
  dsimp only
  split
  next g e =>
    refine .inr ⟨g, ?_, rfl⟩
    obtain h | h := List.mem_append.1 (List.mem_of_find?_eq_some e)
    · exact List.mem_of_mem_drop h
    · exact List.mem_of_mem_take h
  · exact .inl rfl

/-- Changes of counts leave what gangs are named, hold and do. -/
theorem map_counts {u : Gang → Gang} (hu : ∀ x, ∃ n, u x = { x with count := n }) (gs : List Gang) :
    (gs.map u).map (fun x => (x.id, x.lanes, x.pc, x.st)) = gs.map (fun x => (x.id, x.lanes, x.pc, x.st)) := by
  rw [List.map_map]
  refine List.map_congr_left fun x _ => ?_
  obtain ⟨n, e⟩ := hu x
  rw [Function.comp_apply, e]

/-- An issue of gang `g` is counted. -/
def Fibre.counted (f : Fibre) (g : Nat) : Fibre := { f.modGang g (fun x => { x with count := x.count + 1 }) with age := 0 }

theorem Fibre.counted_gangs (f : Fibre) (g : Nat) : (f.counted g).gangs.map (fun x => (x.id, x.lanes, x.pc, x.st)) =
    f.gangs.map (fun x => (x.id, x.lanes, x.pc, x.st)) :=
  map_counts (fun x => by
    split
    · exact ⟨_, rfl⟩
    · exact ⟨x.count, rfl⟩) f.gangs

/-- After an issue the fibre is what it was but for turn, age and state and the counts of its gangs. -/
theorem Fibre.afterIssue_is (f : Fibre) (g : Nat) (sw : Bool) : ∃ gs turn st, f.afterIssue g sw =
    { f with gangs := gs, turn := turn, age := 0, st := st } ∧
    gs.map (fun x => (x.id, x.lanes, x.pc, x.st)) = f.gangs.map (fun x => (x.id, x.lanes, x.pc, x.st)) ∧
    (turn = f.turn ∨ ∃ x ∈ gs, turn = x.id) := by
  cases sw with
  | false => exact ⟨_, _, _, rfl, f.counted_gangs g, .inl rfl⟩
  | true =>
    obtain ⟨turn, passed⟩ := (f.counted g).passTurn_is
    obtain ⟨st, parked⟩ := (f.counted g).passTurn.parksForResults_is
    refine ⟨(f.counted g).gangs.map fun x => { x with count := 0 }, turn, st, parked.trans (by rw [passed]; rfl),
      (map_counts (fun x => ⟨0, rfl⟩) _).trans (f.counted_gangs g), ?_⟩
    have holder := (f.counted g).passTurn_turn
    rw [passed] at holder
    exact holder.imp_right fun ⟨x, hx, e⟩ => ⟨_, List.mem_map_of_mem hx, e⟩

/-- The only gang of a fibre keeps the turn. -/
theorem Fibre.afterIssue_single {f : Fibre} {x : Gang} (g : Nat) (sw : Bool) (hg : f.gangs = [x]) (ht : f.turn = x.id) :
    ∃ n, (f.afterIssue g sw).gangs = [{ x with count := n }] ∧ (f.afterIssue g sw).turn = x.id := by
  obtain ⟨gs, turn, st, e, same, holder⟩ := f.afterIssue_is g sw
  rw [hg, List.map_singleton, List.map_eq_singleton_iff] at same
  obtain ⟨y, rfl, hy⟩ := same
  obtain ⟨hid, hlanes, hpc, hst⟩ : y.id = x.id ∧ y.lanes = x.lanes ∧ y.pc = x.pc ∧ y.st = x.st := by simpa using hy
  rw [e]
  refine ⟨y.count, ?_, ?_⟩
  · rw [← hid, ← hlanes, ← hpc, ← hst]
  · obtain h | ⟨z, hz, h⟩ := holder
    · exact h.trans ht
    · rw [List.mem_singleton.1 hz] at h
      exact h.trans hid

theorem Fibre.merge_ref (f : Fibre) (id : Nat) : (f.merge id).ref = f.ref := by
  unfold Fibre.merge
  split <;> rfl

theorem Fibre.afterIssue_ref (f : Fibre) (g : Nat) (sw : Bool) : (f.afterIssue g sw).ref = f.ref := by
  obtain ⟨gs, turn, st, e, -, -⟩ := f.afterIssue_is g sw
  rw [e]

theorem Fibre.parkIfIdle_is (f : Fibre) : ∃ st, f.parkIfIdle = { f with st := st } := by
  unfold Fibre.parkIfIdle
  split
  · exact ⟨_, rfl⟩
  · exact ⟨f.st, rfl⟩

/-- The fibre with gang `g` waiting at the rendezvous `id`. -/
def Fibre.arrive (f : Fibre) (g : Nat) (id : Byte) : Fibre := f.modGang g fun x => { x with st := .rendezvous id }

theorem Fibre.beginWait_rendezvous (f : Fibre) (g : Nat) (id : Byte) (sw : Bool) : ∃ turn st, f.beginWait g (.rendezvous id) sw =
    { f with gangs := (f.arrive g id).gangs.map fun x => { x with count := 0 }, turn := turn, st := st } := by
  obtain ⟨turn, passed⟩ := (f.arrive g id).passTurn_is
  have waits : f.beginWait g (.rendezvous id) sw = if sw && (f.arrive g id).passTurn.st == .run && !(f.arrive g id).passTurn.out.isEmpty then
      { (f.arrive g id).passTurn with st := .parked .results } else (f.arrive g id).passTurn.parkIfIdle := rfl
  rw [waits, passed]
  split
  · exact ⟨turn, _, rfl⟩
  · obtain ⟨st, idle⟩ := Fibre.parkIfIdle_is { f.arrive g id with gangs := (f.arrive g id).gangs.map fun x => { x with count := 0 }, turn := turn }
    exact ⟨turn, st, idle⟩

end

/-! REGANG by what the gangs wait for once the issuing one has arrived. -/

section
variable {s : State} {v : View} {sw : Bool} {a : BitVec 8}

/-- The issuing fibre with its gang arrived. -/
def View.there (v : View) (a : BitVec 8) : Fibre := v.f.arrive v.iss.gang ((v.sval a).setWidth 8)

theorem View.there_gangs (v : View) (a : BitVec 8) : (v.there a).gangs =
    v.f.gangs.map fun g => if g.id = v.iss.gang then { g with st := .rendezvous ((v.sval a).setWidth 8) } else g := by
  simp [View.there, Fibre.arrive, Fibre.modGang]

theorem View.there_lanes (v : View) (a : BitVec 8) : (v.there a).gangs.map (·.lanes) = v.f.gangs.map (·.lanes) := by
  rw [View.there_gangs, List.map_map]
  refine List.map_congr_left fun g _ => ?_
  by_cases h : g.id = v.iss.gang <;> simp [h]

variable (hi : s.issuing v perLane (useS a v.g.lanes)) (parted : 1 < v.f.gangs.length)
include hi parted

theorem execRegang_parted : execRegang sw a s =
    if (v.there a).allMeet && !(v.there a).allMatch then .next (s.traps v (v.trapRec .collectiveDivergence v.g.lanes 0 0))
    else if (v.there a).allMatch then .next (s.modFibre v.f.ref fun f =>
      ((f.arrive v.iss.gang ((v.sval a).setWidth 8)).merge v.iss.gang).afterIssue v.iss.gang sw)
    else .next (s.modFibre v.f.ref fun f => { f.beginWait v.iss.gang (.rendezvous ((v.sval a).setWidth 8)) sw with age := 0 }) := by
  have apart : v.f.parted = true := decide_eq_true parted
  simp only [execRegang, hi.1, View.checks_ok hi.2, apart, Bool.not_true, Bool.false_eq_true, if_false, View.stop_outcome]
  rfl

theorem execRegang_diverges (all : (v.there a).allMeet = true) (unlike : (v.there a).allMatch = false) :
    execRegang sw a s = .next (s.traps v (v.trapRec .collectiveDivergence v.g.lanes 0 0)) := by
  rw [execRegang_parted hi parted, all, unlike]
  rfl

theorem execRegang_merges (all : (v.there a).allMatch = true) : execRegang sw a s = .next (s.modFibre v.f.ref fun f =>
    ((f.arrive v.iss.gang ((v.sval a).setWidth 8)).merge v.iss.gang).afterIssue v.iss.gang sw) := by
  rw [execRegang_parted hi parted, all, Fibre.allMeet_of_allMatch all]
  rfl

theorem execRegang_waits (some_ : (v.there a).allMeet = false) : execRegang sw a s = .next (s.modFibre v.f.ref fun f =>
    { f.beginWait v.iss.gang (.rendezvous ((v.sval a).setWidth 8)) sw with age := 0 }) := by
  have unlike : (v.there a).allMatch = false := by
    by_contra h
    simp [Fibre.allMeet_of_allMatch (Bool.eq_true_of_not_eq_false h)] at some_
  rw [execRegang_parted hi parted, some_, unlike]
  rfl

theorem execRegang_merged (all : (v.there a).allMatch = true) : ∃ t f', execRegang sw a s = .next t ∧ t.fibre? v.f.ref = some f' ∧
    ∃ g, f'.gangs = [g] ∧ g.id = v.iss.gang ∧ f'.turn = v.iss.gang ∧ g.st = .run ∧ (∀ x ∈ (v.there a).gangs, g.pc = x.pc + 8) ∧
      g.lanes = unionMask (v.f.gangs.map (·.lanes)) := by
  obtain ⟨-, hf, href, -, -⟩ := State.view?_eq_some hi.1
  have here : s.fibre? v.f.ref = some v.f := href ▸ hf
  obtain ⟨x, xs, arrived⟩ : ∃ x xs, (v.there a).gangs = x :: xs := by
    refine List.exists_cons_of_ne_nil fun e => ?_
    have none_ : v.f.gangs = [] := by simpa [View.there_gangs] using e
    simp [none_] at parted
  obtain ⟨st, merged⟩ := Fibre.merge_eq arrived v.iss.gang
  obtain ⟨n, only, turn⟩ := Fibre.afterIssue_single (f := (v.there a).merge v.iss.gang) v.iss.gang sw (congrArg (·.gangs) merged)
    (congrArg (·.turn) merged)
  have same (y : Gang) (hy : y ∈ (v.there a).gangs) : x.pc = y.pc :=
    Gang.pc_eq_of_alike (Fibre.allMatch_iff.1 all x (arrived ▸ List.mem_cons_self) y hy)
  refine ⟨_, _, execRegang_merges hi parted all, (s.modFibre_at _ _ fun f => ?_).trans (congrArg (Option.map _) here),
    _, only, rfl, turn, rfl, fun y hy => congrArg (· + 8) (same y hy), congrArg unionMask (v.there_lanes a)⟩
  rw [Fibre.afterIssue_ref, Fibre.merge_ref]
  rfl

theorem execRegang_waiting (some_ : (v.there a).allMeet = false) : ∃ t f', execRegang sw a s = .next t ∧ t.fibre? v.f.ref = some f' ∧
    f'.gangs.map (fun g => (g.id, g.lanes, g.pc, g.st)) = (v.there a).gangs.map (fun g => (g.id, g.lanes, g.pc, g.st)) := by
  obtain ⟨-, hf, href, -, -⟩ := State.view?_eq_some hi.1
  have here : s.fibre? v.f.ref = some v.f := href ▸ hf
  have waits (f : Fibre) := f.beginWait_rendezvous v.iss.gang ((v.sval a).setWidth 8) sw
  refine ⟨_, _, execRegang_waits hi parted some_, (s.modFibre_at _ _ fun f => ?_).trans (congrArg (Option.map _) here), ?_⟩
  · obtain ⟨turn, st, e⟩ := waits f
    rw [e]
  · obtain ⟨turn, st, e⟩ := waits v.f
    exact (congrArg (fun f : Fibre => f.gangs.map fun g => (g.id, g.lanes, g.pc, g.st)) e).trans (map_counts (fun x => ⟨0, rfl⟩) _)

end

end Sys2Proof.Machine

open Sys2Proof Sys2Proof.Machine

/-- Settles O10: by whether all gangs wait, and all at one rendezvous, once the issuing gang has arrived. -/
theorem regangMeets : Obligations.RegangMeets := by
  unfold Obligations.RegangMeets
  intro s v sw a hi parted there waits alike
  have gangs : (v.there a).gangs = there := v.there_gangs a
  have meet : (v.there a).allMeet = there.all waits := by
    rw [Fibre.allMeet, gangs]
    exact congrArg there.all (funext Gang.meet_isSome)
  have matches_ : (v.there a).allMatch = true ↔ ∀ x ∈ there, ∀ y ∈ there, alike x y = true := by
    rw [Fibre.allMatch_iff, gangs]
    rfl
  rw [exec_regang]
  refine ⟨fun all unlike => ?_, fun all => ?_, fun some_ => ?_⟩
  · refine execRegang_diverges hi parted (meet.trans all) (Bool.eq_false_of_not_eq_true fun h => ?_)
    obtain ⟨x, hx, y, hy, e⟩ := unlike
    simp [matches_.1 h x hx y hy] at e
  · exact gangs ▸ execRegang_merged hi parted (matches_.2 all)
  · exact gangs ▸ execRegang_waiting hi parted (meet.trans some_)

end

section
/-! ### The floating-point rows over the lane loop (R157 to R172) -/

namespace Sys2Proof.Machine

open Sys2Proof

/-! An instruction of the lane loop with one, two or three source fields, by what its lanes compute. -/

section
variable {s : State} {v : View} {long wd wa wb wc : Bool} {f : View → Nat → Num DWord} {R : Nat → DWord × NumSt}

/-- The lane loop, whose lanes compute `R`. -/
theorem laneOp_lanes {h : Hdr} {len : Nat} {sc w : Bool} {d : BitVec 8} {srcs : View → Mask → List Use}
    (hi : s.issuing v perLane (srcs v (v.mask h sc) ++ useDst sc w d (v.mask h sc))) (hR : ∀ l, runLane v l (f v l) = R l) :
    laneOp long h len sc w d srcs f s = .next (v.computed h len long sc w d (srcs v (v.mask h sc) ++ useDst sc w d (v.mask h sc)) R s) := by
  obtain rfl := funext hR
  exact laneOp_next hi

theorem lanes1_next {o : Op1} (hi : s.issuing v perLane (v.touch1 o wd wa)) (hR : ∀ l, runLane v l (f v l) = R l) :
    laneOp long o.h 8 o.sc wd o.d (uses1 o wa) f s = .next (v.done1 o long wd wa R s) := laneOp_lanes (srcs := uses1 o wa) hi hR

theorem lanes2_next {o : Op2} (hi : s.issuing v perLane (v.touch2 o wd wa wb)) (hR : ∀ l, runLane v l (f v l) = R l) :
    laneOp long o.h 8 o.sc wd o.d (uses2 o wa wb) f s = .next (v.done2 o long wd wa wb R s) := laneOp_lanes (srcs := uses2 o wa wb) hi hR

theorem lanes3_next {o : Op3} (hi : s.issuing v perLane (v.touch3 o wd wa wb wc)) (hR : ∀ l, runLane v l (f v l) = R l) :
    laneOp long o.h 8 o.sc wd o.d (uses3 o wa wb wc) f s = .next (v.done3 o long wd wa wb wc R s) :=
  laneOp_lanes (srcs := uses3 o wa wb wc) hi hR

end

section
variable (s : State) (o1 : Op1) (o : Op2) (o3 : Op3) (ty : Ty) (rm : RMode) (nan : Bool)

theorem exec_fadd : exec (.fadd o rm) s = fp2 o (fun v a b => v.addTo .f32 rm a b) s := rfl
theorem exec_fsub : exec (.fsub o rm) s = fp2 o (fun v a b => v.addTo .f32 rm a b.neg) s := rfl
theorem exec_fmul : exec (.fmul o rm) s = fp2 o (fun v a b => v.mulTo .f32 rm a b) s := rfl
theorem exec_ffma : exec (.ffma o3 rm) s = fp3 o3 (fun v a b c => v.fmaTo .f32 rm a b c) s := rfl
theorem exec_fmin : exec (.fmin o nan) s = fp2 o (fun v a b => v.pick false nan a b) s := rfl
theorem exec_fmax : exec (.fmax o nan) s = fp2 o (fun v a b => v.pick true nan a b) s := rfl
theorem exec_fcmp (h : Hdr) (sc : Bool) (cc : FCond) (q : BitVec 3) (a b : Opnd) : exec (.fcmp h sc cc q a b) s =
    predOp h 8 sc q (fun _ m => useSrc sc false a m ++ useSrc sc false b m)
      (fun v l => fcondHolds cc (v.fp sc .f32 a l) (v.fp sc .f32 b l)) (fun _ _ => pure 0) s := rfl
theorem exec_fscale : exec (.fscale o rm) s = laneOp false o.h 8 o.sc false o.d (uses2 o false false) (fun v l => do
    pure (wide (← v.round .f32 rm (scaleX (asInt .i32 (v.src o.sc .i32 o.b l)) (v.fp o.sc .f32 o.a l))))) s := rfl
theorem exec_frnd : exec (.frnd o1 rm) s =
    fp1 false o1 (fun v _ x => do pure (quietly (roundFp 0 0 .f32 .rne (← frndX v.f.fpm rm x)))) s := rfl
theorem exec_fclass : exec (.fclass o1 ty) s = laneOp false o1.h 8 o1.sc false o1.d (uses1 o1 false)
    (fun v l => pure (BitVec.ofNat 64 (2 ^ classBit ty (v.src o1.sc ty o1.a l).toNat))) s := rfl
theorem exec_fadd2 : exec (.fadd2 o ty rm) s = laneOp false o.h 8 o.sc false o.d (uses2 o false false) (fun v l =>
    pack2 fun e => v.addTo ty rm (v.pfp o.sc ty o.a l e) (v.pfp o.sc ty o.b l e)) s := rfl
theorem exec_fmul2 : exec (.fmul2 o ty rm) s = laneOp false o.h 8 o.sc false o.d (uses2 o false false) (fun v l =>
    pack2 fun e => v.mulTo ty rm (v.pfp o.sc ty o.a l e) (v.pfp o.sc ty o.b l e)) s := rfl
theorem exec_ffma2 : exec (.ffma2 o3 ty rm) s = laneOp false o3.h 8 o3.sc false o3.d (uses3 o3 false false false) (fun v l =>
    pack2 fun e => v.fmaTo ty rm (v.pfp o3.sc ty o3.a l e) (v.pfp o3.sc ty o3.b l e) (v.pfp o3.sc ty o3.c l e)) s := rfl

/-- A dot product of `n` elements in the lane loop, rounded once (R172). -/
def dotOp (n : Nat) (o : Op3) (ta tb : Ty) (rm : RMode) (s : State) : Result :=
  laneOp false o.h 8 o.sc false o.d (uses3 o false false false) (fun v l => do
    pure (wide (← v.dot rm ((upTo n).map fun e => (v.pfp o.sc ta o.a l e, v.pfp o.sc tb o.b l e)) (v.fp o.sc .f32 o.c l)))) s

theorem exec_fdot2 : exec (.fdot2 o3 ty rm) s = dotOp 2 o3 ty ty rm s := rfl
theorem exec_fdot4 : exec (.fdot4 o3 ty rm false) s = dotOp 4 o3 ty ty rm s := rfl
theorem exec_fdot4_mixed : exec (.fdot4 o3 ty rm true) s = dotOp 4 o3 ty (otherFp8 ty) rm s := rfl

end

/-- What FMIN and FMAX keep, NaN by NaN (R164). -/
theorem pickX_eq (max nan : Bool) (a b : XVal) : pickX max nan a b =
    if a.isNan && b.isNan then .nan
    else if a.isNan then (if nan then .nan else b)
    else if b.isNan then (if nan then .nan else a)
    else if !max then (if b.less a then b else a) else (if a.less b then b else a) := by
  unfold pickX
  cases a.isNan <;> cases b.isNan <;> cases nan <;> cases max <;> rfl

/-- The conditions of FCMP by what is ordered, equal up to the sign of a zero, and less (R165). -/
theorem fcondHolds_eq (cc : FCond) (x y : XVal) : fcondHolds cc x y =
    (let ord := !x.isNan && !y.isNan
     let same := x == y || (x.isZero && y.isZero)
     match cc with
     | .eq => ord && same | .ne => !(ord && same)
     | .lt => ord && !same && x.less y | .le => ord && (same || x.less y)
     | .gt => ord && !same && y.less x | .ge => ord && (same || y.less x)
     | .num => ord | .nan => !ord) := by
  unfold fcondHolds
  generalize (!x.isNan && !y.isNan) = ord
  generalize (x == y || (x.isZero && y.isZero)) = same
  cases cc <;> cases ord <;> cases same <;> simp

/-- The products of a dot product, taken one by one. -/
theorem View.dot_map (v : View) (rm : RMode) (n : Nat) (x y : Nat → XVal) (c : XVal) :
    v.dot rm ((upTo n).map fun e => (x e, y e)) c = (do
      let ps ← (upTo n).mapM fun e => xmul (x e) (y e)
      v.round .f32 rm (zeroSign v.f.fpm rm (← exactSum (ps ++ [c])))) := by
  rw [View.dot, List.mapM_map]
  rfl

section
variable {s : State} {v : View}

theorem dotOp_next {o : Op3} {n : Nat} {ta tb : Ty} {rm : RMode} (hi : s.issuing v perLane (v.touch3 o false false false false)) :
    dotOp n o ta tb rm s = .next (v.done3 o false false false false false (fun l => runLane v l (do
      let ps ← (upTo n).mapM fun e => xmul (v.pfp o.sc ta o.a l e) (v.pfp o.sc tb o.b l e)
      let t ← exactSum (ps ++ [v.fp o.sc .f32 o.c l])
      pure (wide (← v.round .f32 rm (zeroSign v.f.fpm rm t))))) s) :=
  lanes3_next hi fun l => by
    rw [View.dot_map]
    rfl

/-- FMIN and FMAX, whose lanes keep `p`. -/
theorem pick_next {o : Op2} {max nan : Bool} {p : Nat → XVal} (hi : s.issuing v perLane (v.touch2 o false false false))
    (hp : ∀ l, pickX max nan (v.fp o.sc .f32 o.a l) (v.fp o.sc .f32 o.b l) = p l) :
    fp2 o (fun v a b => v.pick max nan a b) s = .next (v.done2 o false false false false (fun l =>
      v.plain l (wide (quietly (roundFp v.f.fpm 0 .f32 .rne (p l))))) s) := by
  obtain rfl := funext hp
  exact lanes2_next hi fun _ => rfl

end

end Sys2Proof.Machine

open Sys2Proof Sys2Proof.Machine

/-- Settles O4, row by row over the lane loop: a result is rounded once, after the exact operation that the statement names. -/
theorem floatArithmetic : Obligations.FloatArithmetic := by
  unfold Obligations.FloatArithmetic
  refine ⟨fun s v rm => ⟨fun o hi => ⟨?fadd, ?fsub, ?fmul⟩, fun o hi => ?ffma⟩,
    fun s v => ⟨?minMax, ?fcmp, fun o rm hi => ?fscale, fun o rm hi => ?frnd, fun o ty hi => ?fclass⟩,
    fun s v ty rm => ⟨fun o hi => ⟨?fadd2, ?fmul2⟩, fun o hi => ⟨?ffma2, ?fdot2, ?fdot4, ?mixedE4m3, ?mixedE5m2⟩⟩⟩
  case fadd => exact (exec_fadd s o rm).trans (lanes2_next hi fun _ => rfl)
  case fsub => exact (exec_fsub s o rm).trans (lanes2_next hi fun _ => rfl)
  case fmul => exact (exec_fmul s o rm).trans (lanes2_next hi fun _ => rfl)
  case ffma => exact (exec_ffma s o rm).trans (lanes3_next hi fun _ => rfl)
  case minMax =>
    intro o nan hi a b pick t
    exact ⟨(exec_fmin s o nan).trans (pick_next hi fun l => pickX_eq false nan _ _),
      (exec_fmax s o nan).trans (pick_next hi fun l => pickX_eq true nan _ _)⟩
  case fcmp =>
    intro h sc cc q a b us hi
    refine ((exec_fcmp s h sc cc q a b).trans
      (predOp_next (srcs := fun _ m => useSrc sc false a m ++ useSrc sc false b m) hi)).trans ?_
    exact congrArg (fun c => Host.Outcome.next (v.decided h sc q us c s)) (funext fun l => fcondHolds_eq cc _ _)
  case fscale => exact (exec_fscale s o rm).trans (lanes2_next hi fun _ => rfl)
  case frnd => exact (exec_frnd s o rm).trans (lanes1_next hi fun _ => rfl)
  case fclass => exact (exec_fclass s o ty).trans (lanes1_next hi fun _ => rfl)
  case fadd2 => exact (exec_fadd2 s o ty rm).trans (lanes2_next hi fun _ => rfl)
  case fmul2 => exact (exec_fmul2 s o ty rm).trans (lanes2_next hi fun _ => rfl)
  case ffma2 => exact (exec_ffma2 s o ty rm).trans (lanes3_next hi fun _ => rfl)
  case fdot2 => exact (exec_fdot2 s o ty rm).trans (dotOp_next hi)
  case fdot4 => exact (exec_fdot4 s o ty rm).trans (dotOp_next hi)
  case mixedE4m3 => exact (exec_fdot4_mixed s o .e4m3 rm).trans (dotOp_next hi)
  case mixedE5m2 => exact (exec_fdot4_mixed s o .e5m2 rm).trans (dotOp_next hi)

end

section
/-! ### The roots and the transcendental functions (R169, R170) -/

namespace Sys2Proof.Machine

open Sys2Proof

section
variable (s : State) (o : Op1) (rm : RMode)

theorem exec_frcp : exec (.frcp o rm) s = fp1 true o (fun v _ x => do v.round .f32 rm (← rcpX x)) s := rfl
theorem exec_fsqrt : exec (.fsqrt o rm) s = fp1 true o (fun v _ x => do v.round .f32 rm (← sqrtX x)) s := rfl

/-- A function whose exact result is `f x`, given as one of its neighbours under the opcode's number (R169). -/
def faithfulOp (op : Nat) (o : Op1) (f : XVal → Num XVal) (s : State) : Result :=
  fp1 true o (fun v a x => do faithful v.f.fpm op a (← f x)) s

theorem exec_frsq : exec (.frsq o) s = faithfulOp 0x088 o rsqX s := rfl
theorem exec_fexp2 : exec (.fexp2 o) s = faithfulOp 0x08A o (fun x => pure (exp2X x)) s := rfl
theorem exec_flog2 : exec (.flog2 o) s = faithfulOp 0x08B o log2X s := rfl
theorem exec_fsin : exec (.fsin o) s = faithfulOp 0x08C o sinX s := rfl
theorem exec_fcos : exec (.fcos o) s = faithfulOp 0x08D o cosX s := rfl
theorem exec_ftanh : exec (.ftanh o) s = faithfulOp 0x08E o (fun x => pure (tanhX x)) s := rfl

end

/-- The neighbour of a value away from zero, or the one towards zero. -/
def neighbour (fpm : BitVec 32) (up : Bool) (y : XVal) : Num (BitVec 32) :=
  roundFp fpm 0 .f32 (if up then (if y.negative then .rdn else .rup) else .rz) y

/-- A faithful result is one of the two neighbours of the exact value. -/
theorem faithful_is_neighbour (fpm : BitVec 32) (op : Nat) (a : Word) (y : XVal) : ∃ up, faithful fpm op a y = neighbour fpm up y :=
  ⟨_, rfl⟩

/-- So it is whatever computation gives the exact value, since that gives one value. -/
theorem runLane_faithful (v : View) (l op : Nat) (a : Word) (y : Num XVal) : ∃ up : Bool,
    runLane v l (do pure (wide (← faithful v.f.fpm op a (← y)))) = runLane v l (do pure (wide (← neighbour v.f.fpm up (← y)))) := by
  obtain ⟨up, h⟩ := faithful_is_neighbour v.f.fpm op a (y.run ⟨v.f.rng.at l, 0, 0⟩).1
  exact ⟨up, congrArg (fun n : Num (BitVec 32) =>
    (do pure (wide (← n)) : Num DWord).run (y.run ⟨v.f.rng.at l, 0, 0⟩).2) h⟩

theorem faithfulOp_next {s : State} {v : View} {o : Op1} (op : Nat) (f : XVal → Num XVal) (hi : s.issuing v perLane (v.touch1 o false false)) :
    ∃ R, faithfulOp op o f s = .next (v.done1 o true false false R s) ∧
      ∀ l, ∃ up : Bool, R l = runLane v l (do pure (wide (← neighbour v.f.fpm up (← f (v.fp o.sc .f32 o.a l))))) :=
  ⟨_, lanes1_next hi fun _ => rfl, fun l => runLane_faithful v l op _ _⟩

end Sys2Proof.Machine

open Sys2Proof Sys2Proof.Machine

/-- Settles O5: FRCP and FSQRT are rows of the lane loop, and the other functions choose a neighbour of the one exact value of a lane. -/
theorem floatElementary : Obligations.FloatElementary := by
  unfold Obligations.FloatElementary
  intro s v o rm hi x t near
  refine ⟨?frcp, ?fsqrt, ?frsq, ?fexp2, ?flog2, ?fsin, ?fcos, ?ftanh⟩
  case frcp => exact (exec_frcp s o rm).trans (lanes1_next hi fun _ => rfl)
  case fsqrt => exact (exec_fsqrt s o rm).trans (lanes1_next hi fun _ => rfl)
  case frsq => exact exec_frsq s o ▸ faithfulOp_next 0x088 rsqX hi
  case fexp2 => exact exec_fexp2 s o ▸ faithfulOp_next 0x08A _ hi
  case flog2 => exact exec_flog2 s o ▸ faithfulOp_next 0x08B log2X hi
  case fsin => exact exec_fsin s o ▸ faithfulOp_next 0x08C sinX hi
  case fcos => exact exec_fcos s o ▸ faithfulOp_next 0x08D cosX hi
  case ftanh => exact exec_ftanh s o ▸ faithfulOp_next 0x08E _ hi

end

section
/-! ### The nearest entry of a codebook (R186) -/

namespace Sys2Proof.Machine

open Sys2Proof

/-! Decoded values have magnitudes. -/

theorem pow2_pos (e : Int) : 0 < pow2 e := by
  unfold pow2
  split
  · positivity
  · rw [Rat.mkRat_eq_div]
    positivity

theorem FpFmt.magnitude_nonneg (f : FpFmt) (c : Nat) : 0 ≤ f.magnitude c := by
  unfold FpFmt.magnitude
  dsimp only
  split <;> exact mul_nonneg (Nat.cast_nonneg _) (pow2_pos _).le

/-- A sign and a magnitude. -/
def XVal.Proper : XVal → Prop
  | .fin _ m => 0 ≤ m
  | _ => True

theorem FpFmt.value_proper (f : FpFmt) (c : Nat) : (f.value c).Proper := by
  unfold FpFmt.value
  dsimp only
  split_ifs
  · exact f.magnitude_nonneg _
  · trivial
  · trivial

theorem flushed_proper {on : Bool} {f : FpFmt} {x : XVal} (h : x.Proper) : (flushed on f x).Proper := by
  cases x with
  | fin n m =>
    simp only [flushed]
    split_ifs
    · exact le_refl (0 : ℚ)
    · exact h
  | nan | inf => trivial

theorem decodeFp_proper (fpm : BitVec 32) (x4 : BitVec 16) (t : Ty) (c : Nat) : (decodeFp fpm x4 t c).Proper := by
  unfold decodeFp
  split_ifs
  · exact le_refl (0 : ℚ)
  · exact flushed_proper (FpFmt.value_proper _ _)
  · exact flushed_proper (FpFmt.value_proper _ _)

/-! The first of the least, over a list of places in increasing order. -/

/-- From place `i`, go through the places of a list and change to each that is better. -/
def walkBest (better : Nat → Nat → Bool) (i : Nat) (l : List Nat) : Nat := l.foldl (fun b j => if better j b then j else b) i

theorem walkBest_cons (better : Nat → Nat → Bool) (i j : Nat) (l : List Nat) :
    walkBest better i (j :: l) = walkBest better (if better j i then j else i) l := rfl

/-- Walking up the places and changing only for a lesser key ends at the first place of the least key. -/
theorem walkBest_first_least {α : Type} [LinearOrder α] {key : Nat → α} {better : Nat → Nat → Bool} {i : Nat} {l : List Nat}
    (up : (i :: l).Pairwise (· < ·)) (hb : ∀ j ∈ i :: l, ∀ k ∈ i :: l, better j k = true ↔ key j < key k) :
    walkBest better i l ∈ i :: l ∧ (∀ j ∈ i :: l, key (walkBest better i l) ≤ key j) ∧
      ∀ j ∈ i :: l, j < walkBest better i l → key (walkBest better i l) < key j := by
  induction l generalizing i with
  | nil => simp [walkBest]
  | cons j l ih =>
    obtain ⟨hi, hl⟩ := List.pairwise_cons.1 up
    obtain ⟨hj, tail⟩ := List.pairwise_cons.1 hl
    have step := hb j (by simp) i (by simp)
    rw [walkBest_cons]
    by_cases less : key j < key i
    · rw [if_pos (step.2 less)]
      obtain ⟨mem, least, first⟩ := ih hl fun x hx y hy => hb x (List.mem_cons_of_mem _ hx) y (List.mem_cons_of_mem _ hy)
      have below := (least j (by simp)).trans_lt less
      exact ⟨List.mem_cons_of_mem _ mem, List.forall_mem_cons.2 ⟨below.le, least⟩, List.forall_mem_cons.2 ⟨fun _ => below, first⟩⟩
    · rw [if_neg (mt step.1 less)]
      have sub : i :: l ⊆ i :: j :: l := List.cons_subset_cons i (List.subset_cons_self j l)
      obtain ⟨mem, least, first⟩ := ih (List.pairwise_cons.2 ⟨fun k hk => hi k (List.mem_cons_of_mem _ hk), tail⟩)
        fun x hx y hy => hb x (sub hx) y (sub hy)
      obtain ⟨atI, rest⟩ := List.forall_mem_cons.1 least
      obtain ⟨fromI, fromRest⟩ := List.forall_mem_cons.1 first
      exact ⟨sub mem, List.forall_mem_cons.2 ⟨atI, List.forall_mem_cons.2 ⟨atI.trans (not_lt.1 less), rest⟩⟩,
        List.forall_mem_cons.2 ⟨fromI, List.forall_mem_cons.2
          ⟨fun h => (fromI ((hi j (by simp)).trans h)).trans_le (not_lt.1 less), fromRest⟩⟩⟩

/-- Place `i` of a codebook holds the first best entry that is no NaN. -/
structure FirstBest (better : XVal → XVal → Bool) (es : List XVal) (i : Nat) : Prop where
  lt : i < es.length
  num : (es.getD i .nan).isNan = false
  best : ∀ j < es.length, (es.getD j .nan).isNan = false → ¬better (es.getD j .nan) (es.getD i .nan) = true
  first : ∀ j < i, (es.getD j .nan).isNan = false → better (es.getD i .nan) (es.getD j .nan) = true

/-- The places of the entries that are no NaN, in increasing order. -/
def numPlaces (es : List XVal) : List Nat := (upTo es.length).filter fun i => !(es.getD i .nan).isNan

section
variable {es : List XVal} {j : Nat}

theorem mem_numPlaces : j ∈ numPlaces es ↔ j < es.length ∧ (es.getD j .nan).isNan = false := by
  simp [numPlaces, upTo]

theorem numPlaces_increasing (es : List XVal) : (numPlaces es).Pairwise (· < ·) := List.Pairwise.filter _ List.pairwise_lt_range

theorem getD_mem (h : j < es.length) : es.getD j .nan ∈ es := by
  rw [List.getD_eq_getElem _ _ h]
  exact List.getElem_mem h

theorem argBest_cons {better : XVal → XVal → Bool} {i : Nat} {is : List Nat} (h : numPlaces es = i :: is) :
    argBest better es = walkBest (fun j b => better (es.getD j .nan) (es.getD b .nan)) i is := by
  unfold numPlaces at h
  simp only [argBest, h]
  rfl

end

theorem argBest_firstBest {α : Type} [LinearOrder α] {better : XVal → XVal → Bool} {es : List XVal} (key : XVal → α)
    (hb : ∀ y ∈ es, ∀ z ∈ es, y.isNan = false → z.isNan = false → (better y z = true ↔ key y < key z))
    (he : ∃ i < es.length, (es.getD i .nan).isNan = false) : FirstBest better es (argBest better es) := by
  have up := numPlaces_increasing es
  have mem (j : Nat) := mem_numPlaces (es := es) (j := j)
  obtain ⟨k, hk⟩ := he
  obtain ⟨i, is, e⟩ := List.exists_cons_of_ne_nil (List.ne_nil_of_mem ((mem k).2 hk))
  rw [e] at up mem
  have keys (j : Nat) (hj : j ∈ i :: is) (k : Nat) (hk : k ∈ i :: is) :=
    hb _ (getD_mem ((mem j).1 hj).1) _ (getD_mem ((mem k).1 hk).1) ((mem j).1 hj).2 ((mem k).1 hk).2
  obtain ⟨hm, least, first⟩ := walkBest_first_least (key := fun j => key (es.getD j .nan)) up keys
  rw [← argBest_cons e] at hm least first
  obtain ⟨lt, num⟩ := (mem _).1 hm
  refine ⟨lt, num, fun j hj hn => ?_, fun j hj hn => ?_⟩
  · have at_ := (mem j).2 ⟨hj, hn⟩
    exact mt (keys j at_ _ hm).1 (not_lt.2 (least j at_))
  · have at_ := (mem j).2 ⟨hj.trans lt, hn⟩
    exact (keys _ hm j at_).2 (first j at_ hj)

/-! The order of the values that are no NaN, and the distance to a finite one. -/

/-- Of two finite values, zeros of either sign being equal, the lesser is the lesser number. -/
theorem XVal.less_fin_iff {n m : Bool} {p q : ℚ} (hp : 0 ≤ p) (hq : 0 ≤ q) :
    ((XVal.fin n p).less (.fin m q) && !(p == 0 && q == 0)) = true ↔ (XVal.fin n p).toRat < (XVal.fin m q).toRat := by
  by_cases lt : (XVal.fin n p).toRat < (XVal.fin m q).toRat
  · have apart : p = 0 → ¬q = 0 := by
      rintro rfl rfl
      cases n <;> cases m <;> simp [XVal.toRat] at lt
    simpa [XVal.less, lt, ← imp_iff_not_or] using apart
  · have zeros : (XVal.fin n p).toRat = (XVal.fin m q).toRat → n = true → m = false → p = 0 ∧ q = 0 := by
      rintro same rfl rfl
      have sum : -p = q := same
      constructor <;> linarith
    simpa [XVal.less, lt] using zeros

/-- The place of a value on the extended line. -/
def XVal.place : XVal → WithBot (WithTop ℚ)
  | .inf true => ⊥
  | .inf false => ⊤
  | x => ((x.toRat : WithTop ℚ) : WithBot (WithTop ℚ))

theorem XVal.place_fin (n : Bool) (m : ℚ) : (XVal.fin n m).place = (((XVal.fin n m).toRat : WithTop ℚ) : WithBot (WithTop ℚ)) := rfl

theorem XVal.place_fin_lt_inf (n : Bool) (m : ℚ) : (XVal.fin n m).place < (XVal.inf false).place := WithBot.coe_lt_coe.2 (WithTop.coe_lt_top _)

/-- Of two values, zeros of either sign being equal, the lesser lies further down. -/
theorem XVal.less_iff_place {y z : XVal} (hy : y.Proper) (hz : z.Proper) (ny : y.isNan = false) (nz : z.isNan = false) :
    (y.less z && !(y.isZero && z.isZero)) = true ↔ y.place < z.place := by
  cases y with
  | nan => contradiction
  | inf n =>
    cases z with
    | nan => contradiction
    | inf m => cases n <;> cases m <;> simp [XVal.less, XVal.place, XVal.isZero]
    | fin m q =>
      cases n with
      | true => simp [XVal.less, XVal.place, XVal.isZero]
      | false => simpa [XVal.less, XVal.isZero] using (XVal.place_fin_lt_inf m q).le
  | fin n p =>
    cases z with
    | nan => contradiction
    | inf m =>
      cases m with
      | true => simp [XVal.less, XVal.place, XVal.isZero]
      | false => simpa [XVal.less, XVal.isZero] using XVal.place_fin_lt_inf n p
    | fin m q =>
      rw [XVal.place_fin, XVal.place_fin, WithBot.coe_lt_coe, WithTop.coe_lt_coe]
      exact XVal.less_fin_iff hy hz

/-- The distance of a finite value from the number `a`; the others lie beyond every distance. -/
def XVal.distance (a : ℚ) : XVal → WithTop ℚ
  | .fin n m => ((ratAbs (a - (XVal.fin n m).toRat) : ℚ) : WithTop ℚ)
  | _ => ⊤

/-! CBQ by the order in which it takes entries. -/

/-- Whether CBQ takes the entry `x` before the entry `y` for the value `a`. -/
def cbqBetter (a x y : XVal) : Bool :=
  match a with
  | .inf false => y.less x && !(x.isZero && y.isZero)
  | .inf true => x.less y && !(x.isZero && y.isZero)
  | a => decide (x.distance a.toRat < y.distance a.toRat)

/-- The order of CBQ in the words of R186. -/
theorem cbqBetter_iff (a y z : XVal) : a.isNan = false → (cbqBetter a y z = true ↔ match a with
    | .inf false => z.less y = true ∧ ¬(z.isZero = true ∧ y.isZero = true)
    | .inf true => y.less z = true ∧ ¬(y.isZero = true ∧ z.isZero = true)
    | _ => ((∃ n m, y = XVal.fin n m) ∧ ¬∃ n m, z = XVal.fin n m) ∨ ((∃ n m, y = XVal.fin n m) ∧ (∃ n m, z = XVal.fin n m) ∧
      ratAbs (a.toRat - y.toRat) < ratAbs (a.toRat - z.toRat))) := by
  intro num
  cases a with
  | nan => contradiction
  | inf n =>
    cases n with
    | true => simp [cbqBetter, imp_iff_not_or]
    | false => simp [cbqBetter, imp_iff_not_or, or_comm]
  | fin => cases y <;> cases z <;> simp [cbqBetter, XVal.distance]

theorem cbqIndex_nan {a : XVal} {es : List XVal} (h : a.isNan = true ∨ es.all XVal.isNan = true) :
    cbqIndex a es = (do flag flagIv; pure 0) := by
  unfold cbqIndex
  rw [if_pos (by simpa using h)]

theorem cbqIndex_num {a : XVal} {es : List XVal} (ha : a.isNan = false) (he : es.all XVal.isNan = false) :
    cbqIndex a es = pure (argBest (cbqBetter a) es) := by
  unfold cbqIndex
  rw [if_neg (by simp [ha, he])]
  cases a with
  | nan => contradiction
  | inf n => cases n <;> rfl
  | fin n m =>
    refine congrArg (fun b => pure (argBest b es)) (funext₂ fun x y => ?_)
    cases x <;> cases y <;> simp [cbqBetter, XVal.distance]

/-- The entry that CBQ gives is the first best one in its order. -/
theorem cbq_firstBest {a : XVal} {es : List XVal} (ha : a.isNan = false) (he : ∃ i < es.length, (es.getD i .nan).isNan = false)
    (hp : ∀ e ∈ es, e.Proper) : FirstBest (cbqBetter a) es (argBest (cbqBetter a) es) := by
  cases a with
  | nan => contradiction
  | inf n =>
    cases n with
    | true => exact argBest_firstBest XVal.place (fun y hy z hz => XVal.less_iff_place (hp y hy) (hp z hz)) he
    | false =>
      refine argBest_firstBest (OrderDual.toDual ∘ XVal.place) (fun y hy z hz ny nz => ?_) he
      rw [cbqBetter, Bool.and_comm y.isZero]
      exact XVal.less_iff_place (hp z hz) (hp y hy) nz ny
  | fin n m => exact argBest_firstBest (XVal.distance (XVal.fin n m).toRat) (fun y _ z _ _ _ => decide_eq_true_iff) he

theorem View.codebook_length (v : View) (b : Opnd) (l : Nat) : (v.codebook b l).length = 16 := by
  simp [View.codebook, upTo]

theorem View.codebook_proper (v : View) (b : Opnd) (l : Nat) : ∀ e ∈ v.codebook b l, e.Proper := by
  simp only [View.codebook, List.forall_mem_map]
  exact fun i _ => decodeFp_proper _ _ _ _

theorem exec_cbq (s : State) (h : Hdr) (d : BitVec 8) (a b : Opnd) : exec (.cbq h d a b) s = laneOp true h 8 false false d
    (fun _ m => useSrc false false a m ++ (if b.x then (upTo 4).flatMap fun i => useS (BitVec.ofNat 8 (b.idx.toNat + i)) m
      else useRun 8 b.idx.toNat m b.last))
    (fun v l => do pure (BitVec.ofNat 64 (← cbqIndex (v.fp false .f32 a l) (v.codebook b l)))) s := rfl

end Sys2Proof.Machine

open Sys2Proof Sys2Proof.Machine

/-- Settles O8: the index of a lane is the first best place in the order of distance, or in that of the values when A is infinite. -/
theorem codebookIndices : Obligations.CodebookIndices := by
  unfold Obligations.CodebookIndices
  intro s v h d a b m us hi
  refine ⟨_, (exec_cbq s h d a b).trans (laneOp_next (srcs := fun _ m => useSrc false false a m ++
    (if b.x then (upTo 4).flatMap fun i => useS (BitVec.ofNat 8 (b.idx.toNat + i)) m else useRun 8 b.idx.toNat m b.last)) hi), fun l => ?_⟩
  intro x e finite below nearer
  have len := v.codebook_length b l
  refine ⟨fun none_ => ?_, fun hx he => ?_⟩
  · have nans : x.isNan = true ∨ (v.codebook b l).all XVal.isNan = true := by
      refine none_.imp_right fun h => List.all_eq_true.2 fun y hy => ?_
      obtain ⟨i, hi, rfl⟩ := List.mem_iff_getElem.1 hy
      exact List.getD_eq_getElem _ _ hi ▸ h i (len ▸ hi)
    rw [cbqIndex_nan nans]
    exact runLane_flag v l 0 flagIv
  · have some_ : (v.codebook b l).all XVal.isNan = false := by
      obtain ⟨i, hi, num⟩ := he
      exact List.all_eq_false.2 ⟨e i, getD_mem (len ▸ hi), by simp [num]⟩
    obtain ⟨lt, num, best, first⟩ := cbq_firstBest hx (len ▸ he) (v.codebook_proper b l)
    rw [cbqIndex_num hx some_]
    rw [len] at lt best
    exact ⟨_, lt, rfl, num,
      fun j hj nj => mt (cbqBetter_iff _ _ _ hx).2 (best j hj nj),
      fun j hj nj => (cbqBetter_iff _ _ _ hx).1 (first j hj nj)⟩

end

section
/-! ### Computations of a lane whose value does not depend on random state and flags -/

namespace Sys2Proof.Machine

open Sys2Proof

/-- A computation gives one value, whatever the random state and the flags before it. -/
def Num.Steady {α : Type} (n : Num α) : Prop := ∀ st, (n.run st).1 = quietly n

section
variable {α β : Type} {n m : Num α} {f : α → Num β}

theorem steady_pure (a : α) : Num.Steady (pure a) := fun _ => rfl
theorem steady_modify (g : NumSt → NumSt) : Num.Steady (modify g) := fun _ => rfl
theorem steady_flag (fl : BitVec 32) : Num.Steady (flag fl) := fun _ => rfl

theorem steady_bind (hn : Num.Steady n) (hf : ∀ a, Num.Steady (f a)) : Num.Steady (n >>= f) := fun st =>
  calc ((f (n.run st).1).run (n.run st).2).1 = quietly (f (n.run st).1) := hf _ _
    _ = quietly (f (quietly n)) := by rw [hn st]
    _ = quietly (n >>= f) := (hf _ _).symm

theorem steady_ite (c : Prop) [Decidable c] (hn : Num.Steady n) (hm : Num.Steady m) : Num.Steady (if c then n else m) := by
  split
  · exact hn
  · exact hm

theorem quietly_bind (hf : ∀ a, Num.Steady (f a)) : quietly (n >>= f) = quietly (f (quietly n)) := hf _ _

/-- Values that are given one after the other. -/
theorem steady_mapM {g : β → Num α} (hg : ∀ b, Num.Steady (g b)) (l : List β) :
    Num.Steady (l.mapM g) ∧ quietly (l.mapM g) = l.map fun b => quietly (g b) := by
  induction l with
  | nil => exact ⟨fun _ => rfl, rfl⟩
  | cons b l ih =>
    obtain ⟨steady, value⟩ := ih
    rw [List.mapM_cons]
    refine ⟨steady_bind (hg b) fun _ => steady_bind steady fun _ => steady_pure _, ?_⟩
    rw [quietly_bind fun _ => steady_bind steady fun _ => steady_pure _, quietly_bind fun _ => steady_pure _, value]
    rfl

end

/-! Rounding, step by step (R93). -/

section
variable (f : FpFmt) (q : Rat)

/-- The exponent at which a magnitude is rounded. -/
def FpFmt.expo : Int := max (ilog2 q) (1 - (f.bias : Int))

/-- A magnitude in units of the last place, and what it has beyond a whole number of them. -/
def FpFmt.units : Rat := q / pow2 (f.expo q - (f.m : Int))
def FpFmt.rest : Rat := f.units q - (floorNat (f.units q) : Rat)

/-- The code of a magnitude rounded without a random draw. -/
def FpFmt.rounded (rm : RMode) (neg : Bool) : Nat :=
  (f.expo q - (1 - (f.bias : Int))).toNat * 2 ^ f.m +
    if f.rest q ≠ 0 && awayFromZero rm neg (floorNat (f.units q) % 2 == 1) (f.rest q) 0 then floorNat (f.units q) + 1
    else floorNat (f.units q)

end

/-- The result of a rounded code, with its flags. -/
def finishCode (fpm : BitVec 32) (x4 : BitVec 16) (t : Ty) (rm : RMode) (neg inexact tiny : Bool) (code : Nat) : Num (BitVec 32) := do
  if inexact || code > (fpFmt t).maxCode then flag flagNx
  if inexact && tiny then flag flagUf
  if code > (fpFmt t).maxCode then do
    flag (overflowed (fpFmt t) rm neg).2
    pure (signed t x4 neg (overflowed (fpFmt t) rm neg).1)
  else if flushOut fpm t && code ≠ 0 && code < 2 ^ (fpFmt t).m then do
    flag (flagUf ||| flagNx)
    pure (signed t x4 neg 0)
  else pure (signed t x4 neg code)

section
variable {fpm : BitVec 32} {rm : RMode} (h : resolveRm fpm rm ≠ .rst) (x4 : BitVec 16) (t : Ty)
include h

theorem roundFp_nan : roundFp fpm x4 t rm .nan = (do
      if t == .e2m1 then flag flagIv
      pure (BitVec.ofNat 32 (fpFmt t).qnan)) := by
  simp only [roundFp, beq_iff_eq, if_neg h]
  rfl

theorem roundFp_inf (n : Bool) : roundFp fpm x4 t rm (.inf n) = if (fpFmt t).hasInf then pure (signed t x4 n ((fpFmt t).maxCode + 1))
    else (do flag flagSat; pure (signed t x4 n (fpFmt t).maxCode)) := by
  simp only [roundFp, beq_iff_eq, if_neg h]
  rfl

theorem roundFp_zero (n : Bool) : roundFp fpm x4 t rm (.fin n 0) = pure (signed t x4 n 0) := by
  simp only [roundFp, beq_iff_eq, if_neg h, if_true]
  rfl

theorem roundFp_fin (n : Bool) {q : Rat} (hq : q ≠ 0) : roundFp fpm x4 t rm (.fin n q) =
    finishCode fpm x4 t (resolveRm fpm rm) n ((fpFmt t).rest q ≠ 0) (q < (fpFmt t).minNormal)
      ((fpFmt t).rounded q (resolveRm fpm rm) n) := by
  unfold roundFp
  rw [if_neg (by simpa using h)]
  exact if_neg hq

end

theorem finishCode_steady (fpm : BitVec 32) (x4 : BitVec 16) (t : Ty) (rm : RMode) (neg inexact tiny : Bool) (code : Nat) :
    Num.Steady (finishCode fpm x4 t rm neg inexact tiny code) := by
  unfold finishCode
  extract_lets last mid
  have steadyLast (u : Unit) : Num.Steady (last u) :=
    steady_ite _ (steady_bind (steady_flag _) fun _ => steady_pure _)
      (steady_ite _ (steady_bind (steady_flag _) fun _ => steady_pure _) (steady_pure _))
  have steadyMid (u : Unit) : Num.Steady (mid u) := steady_ite _ (steady_bind (steady_flag _) steadyLast) (steadyLast ())
  exact steady_ite _ (steady_bind (steady_flag _) steadyMid) (steadyMid ())

/-- Rounding in a mode that draws no random number gives one value. -/
theorem roundFp_steady {fpm : BitVec 32} {rm : RMode} (h : resolveRm fpm rm ≠ .rst) (x4 : BitVec 16) (t : Ty) (x : XVal) :
    Num.Steady (roundFp fpm x4 t rm x) := by
  cases x with
  | nan =>
    rw [roundFp_nan h]
    exact steady_ite _ (steady_bind (steady_flag _) fun _ => steady_pure _) (steady_pure _)
  | inf n =>
    rw [roundFp_inf h]
    exact steady_ite _ (steady_pure _) (steady_bind (steady_flag _) fun _ => steady_pure _)
  | fin n q =>
    by_cases hq : q = 0
    · rw [hq, roundFp_zero h]
      exact steady_pure _
    · rw [roundFp_fin h _ _ _ hq]
      exact finishCode_steady _ _ _ _ _ _ _ _

theorem xadd_steady (a b : XVal) : Num.Steady (xadd a b) := by
  cases a with
  | nan => exact steady_pure _
  | inf n =>
    cases b with
    | inf m => exact steady_ite _ (steady_pure _) (steady_bind (steady_flag _) fun _ => steady_pure _)
    | nan | fin => exact steady_pure _
  | fin n p => cases b <;> exact steady_pure _

theorem quantLE8_steady (fpm : BitVec 32) (xs : List XVal) : Num.Steady (quantLE8 fpm xs) := by
  unfold quantLE8
  extract_lets x p jp
  have tail (u : Unit) : Num.Steady (jp u) := by
    simp only [jp]
    split
    · exact steady_pure _
    · split
      · exact steady_pure _
      · exact steady_bind (steady_modify _) fun _ => steady_pure _
      · exact steady_pure _
  exact steady_ite _ (steady_bind (steady_modify _) tail) (tail ())

end Sys2Proof.Machine
end

section
/-! ### The lattice instructions (R181 to R185) -/

namespace Sys2Proof.Machine

open Sys2Proof

theorem any_lane (ls : List Nat) (p : Nat → Bool) (l : Nat) : (ls.any fun k => k == l && p k) = (ls.contains l && p l) := by
  rw [Bool.eq_iff_iff]
  simp only [List.any_eq_true, Bool.and_eq_true, beq_iff_eq, List.contains_iff_mem]
  constructor
  · rintro ⟨k, hk, rfl, hp⟩
    exact ⟨hk, hp⟩
  · rintro ⟨hl, hp⟩
    exact ⟨l, hl, rfl, hp⟩

/-- A mask that is zero holds no lane. -/
theorem maskOf_eq_zero {p : Nat → Bool} : maskOf p = 0 ↔ ∀ l < 32, p l = false := by
  constructor
  · intro h l hl
    rw [← getLsbD_maskOf p hl, h]
    simp
  · intro h
    apply BitVec.eq_of_getLsbD_eq
    intro l hl
    rw [getLsbD_maskOf p hl, h l hl]
    simp

/-- What a lattice instruction with the register uses `us` answers, whose lanes give the points `codes`, where `none` is a point outside
the shell, and write the registers `ups`. -/
def View.LatticeRule (v : View) (s : State) (o : LatOp) (r : Result) (us : List Use) (codes : Nat → Option (BitVec 16)) (ups : List RegUpd) :
    Prop :=
  let here := lanesOf (v.active o.h)
  s.issuing v perLane us →
    (here = [] → r = .next (v.after o.h.sw 8 us id s)) ∧
    (here ≠ [] → (∀ l ∈ here, (codes l).isSome) → ∃ fl : BitVec 32 × BitVec 32,
      r = .next (v.after o.h.sw 8 us (fun s => s.defer v.f (Out.of ups fl.1 fl.2)) s)) ∧
    ((∃ l ∈ here, codes l = none) →
      r = .next (s.traps v (v.trapRec .shellOverflow (maskOf fun l => here.contains l && (codes l).isNone) 0 0)))

theorem View.LatticeRule.of_eq {v : View} {s : State} {o : LatOp} {r r' : Result} {us : List Use} {codes : Nat → Option (BitVec 16)}
    {ups : List RegUpd} (hr : v.LatticeRule s o r us codes ups) (h : r' = r) : v.LatticeRule s o r' us codes ups := h ▸ hr

/-- A lane of a lattice instruction: the registers that it writes, unless its point is outside the shell, with its random state and flags. -/
abbrev LatticeLane := Nat × (Option (List (Nat × DWord)) × NumSt)

section
variable (v : View) (rs : List LatticeLane) (s : State)

/-- The lanes outside the shell. -/
def outsideShell : Mask := maskOf fun l => rs.any fun r => r.1 == l && r.2.1.isNone

/-- The writes of the lanes, register by register. -/
def View.latticeUpds : List RegUpd :=
  ((match rs.head? with | some r => (r.2.1.getD []).map (fun (x : Nat × DWord) => x.1) | none => []) : List Nat).flatMap fun n =>
    v.vecUpds false n (rs.map fun r => (r.1, (aget (r.2.1.getD []) n).getD 0))

/-- The flags of the lanes. -/
def latticeFlags : BitVec 32 × BitVec 32 :=
  rs.foldl (fun (a : BitVec 32 × BitVec 32) r => (a.1 ||| r.2.2.fps, a.2 ||| r.2.2.le8s)) (0, 0)

/-- The lanes' results together: a trap, nothing, or a result that returns later. -/
def View.latticeEnd : Chk State :=
  if outsideShell rs != 0 then .error (v.stop .shellOverflow (outsideShell rs))
  else if rs.isEmpty then .ok s
  else .ok (s.defer v.f (Out.of (v.latticeUpds rs) (latticeFlags rs).1 (latticeFlags rs).2))

theorem View.latticeEnd_nil : v.latticeEnd [] s = .ok s := rfl

variable {rs}

theorem View.latticeEnd_outside (h : outsideShell rs ≠ 0) : v.latticeEnd rs s = .error (v.stop .shellOverflow (outsideShell rs)) :=
  if_pos (bne_iff_ne.2 h)

theorem View.latticeEnd_inside (h : outsideShell rs = 0) (some_ : rs ≠ []) :
    v.latticeEnd rs s = .ok (s.defer v.f (Out.of (v.latticeUpds rs) (latticeFlags rs).1 (latticeFlags rs).2)) := by
  rw [View.latticeEnd, h, if_neg (by simp), if_neg (by simpa using some_)]

/-- The lanes of a lattice instruction whose lanes compute `f`. -/
def View.latticeLanes (o : LatOp) (f : View → Nat → Num (Option (List (Nat × DWord)))) : List LatticeLane :=
  (lanesOf (v.active o.h)).map fun l => (l, (f v l).run ⟨v.f.rng.at l, 0, 0⟩)

theorem latticeOp_eq (o : LatOp) (us : View → Mask → List Use) (f : View → Nat → Num (Option (List (Nat × DWord)))) : latticeOp o us f s =
    issue o.h.sw 8 (fun v => us v (v.active o.h)) (fun v s => v.latticeEnd (v.latticeLanes o f) s) s := rfl

end

section
variable {s : State} {v : View} {o : LatOp} {us : View → Mask → List Use} {f : View → Nat → Num (Option (List (Nat × DWord)))}
  {codes : Nat → Option (BitVec 16)} {names : List Nat} {regs : Nat → BitVec 16 → Nat → DWord} {ups : List RegUpd}

/-- Lanes that write the registers `names` with values `regs` write them together. -/
theorem View.latticeUpds_map (v : View) {here : List Nat} {run : Nat → Option (List (Nat × DWord)) × NumSt}
    (hf : ∀ l, (run l).1 = (codes l).map fun c => names.map fun n => (n, regs l c n)) (some_ : here ≠ [])
    (inside : ∀ l ∈ here, (codes l).isSome) : v.latticeUpds (here.map fun l => (l, run l)) =
      names.flatMap fun n => v.vecUpds false n (here.map fun l => (l, regs l ((codes l).getD 0) n)) := by
  have written (l : Nat) (hl : l ∈ here) : (run l).1.getD [] = names.map fun n => (n, regs l ((codes l).getD 0) n) := by
    obtain ⟨c, hc⟩ := Option.isSome_iff_exists.1 (inside l hl)
    rw [hf, hc]
    rfl
  obtain ⟨l, ls, e⟩ := List.exists_cons_of_ne_nil some_
  have head : (here.map fun l => (l, run l)).head? = some (l, run l) := by
    rw [e]
    rfl
  have first : ((run l).1.getD []).map (fun (x : Nat × DWord) => x.1) = names := by
    rw [written l (e ▸ List.mem_cons_self), List.map_map]
    exact List.map_id names
  simp only [View.latticeUpds, head, first]
  refine List.flatMap_congr fun n hn => congrArg (v.vecUpds false n) ?_
  rw [List.map_map]
  refine List.map_congr_left fun k hk => ?_
  simp only [Function.comp_apply, written k hk, aget_map hn, Option.getD_some]

/-- A lattice instruction whose lanes write, of the point they give, the registers `names` with the values `regs`. -/
theorem latticeOp_rule (hf : ∀ l, ((f v l).run ⟨v.f.rng.at l, 0, 0⟩).1 = (codes l).map fun c => names.map fun n => (n, regs l c n))
    (hups : (names.flatMap fun n => v.vecUpds false n ((lanesOf (v.active o.h)).map fun l => (l, regs l ((codes l).getD 0) n))) = ups) :
    v.LatticeRule s o (latticeOp o us f s) (us v (v.active o.h)) codes ups := by
  subst hups
  intro hi
  have outside : outsideShell (v.latticeLanes o f) = maskOf fun l => (lanesOf (v.active o.h)).contains l && (codes l).isNone := by
    refine congrArg maskOf (funext fun l => ?_)
    rw [← any_lane _ fun l => (codes l).isNone]
    simp only [View.latticeLanes, List.any_map, Function.comp_def, hf, Option.isNone_map]
  rw [latticeOp_eq]
  unfold issue
  refine ⟨fun none_ => ?_, fun some_ inside => ?_, fun ⟨l, hl, out⟩ => ?_⟩
  · refine issueAs_done (us := fun v => us v (v.active o.h)) (eff := id) hi rfl ?_
    rw [View.latticeLanes, none_]
    exact v.latticeEnd_nil _
  · have zero : outsideShell (v.latticeLanes o f) = 0 := by
      refine outside.trans (maskOf_eq_zero.2 fun l _ => ?_)
      by_cases hl : l ∈ lanesOf (v.active o.h)
      · simp [Option.isNone_eq_false_iff.2 (inside l hl)]
      · simp [hl]
    refine ⟨latticeFlags (v.latticeLanes o f), issueAs_done (us := fun v => us v (v.active o.h)) hi rfl ?_⟩
    rw [← v.latticeUpds_map hf some_ inside]
    exact v.latticeEnd_inside _ zero (by simpa [View.latticeLanes] using some_)
  · refine issueAs_traps (us := fun v => us v (v.active o.h)) hi rfl ?_
    have apart : outsideShell (v.latticeLanes o f) ≠ 0 := by
      rw [Ne, outside, maskOf_eq_zero]
      intro none_
      simpa [out, hl] using none_ l ((mem_lanesOf_lt _).1 hl).1
    rw [← outside]
    exact v.latticeEnd_outside _ apart

end

theorem run_bind {α β : Type} {n : Num α} {f : α → Num β} (hn : Num.Steady n) (hf : ∀ a, Num.Steady (f a)) (st : NumSt) :
    ((n >>= f).run st).1 = quietly (f (quietly n)) := (steady_bind hn hf st).trans (quietly_bind hf)

theorem mapIdx_map_upTo {α β : Type} (n : Nat) (g : Nat → α) (f : Nat → α → β) :
    ((upTo n).map g).mapIdx f = (upTo n).map fun i => f i (g i) := by
  apply List.ext_getElem <;> simp [upTo]

theorem getD_map_upTo {α : Type} {n i : Nat} (h : i < n) (x : Nat → α) (d : α) : ((upTo n).map x).getD i d = x i := by
  simp [upTo, h]

/-! The points of the lanes and what they write. -/

section
variable (v : View) (o : LatOp)

/-- The target of a coordinate (R182). -/
def View.latTarget (l i : Nat) : XVal := targetOf (v.fpReg (o.a.idx.toNat + i) l) (v.latScale o l)

/-- The code of a lane's eight targets. -/
def View.latCode (l : Nat) : Option (BitVec 16) := quietly (quantLE8 v.f.fpm ((upTo 8).map (v.latTarget o l)))

/-- The value that DLE8 rounds for a coordinate (R183). -/
def View.latProduct (l i : Nat) : XVal :=
  if (v.latScale o l).isNan then .nan
  else v.coordRead ((decodeLE8 (halfOf o.hi (v.src false .n32 o.a l).toNat)).getD i 0) (v.latScale o l)

/-- The residual of a coordinate with the value `a`, the lane's point having the code `c` (R184). -/
def View.residue (l : Nat) (c : BitVec 16) (i : Nat) (a : XVal) : Num (BitVec 32) :=
  if (v.latScale o l).isNan || a.isNan then pure 0x7FC00000
  else do v.round .f32 .rne (← xadd a (coordTimes ((decodeLE8 c).getD i 0) (v.latScale o l)).neg)

/-- The value that RLE8 leaves of a coordinate, the lane's point having the code `c` (R184). -/
def View.latResidual (l : Nat) (c : BitVec 16) (i : Nat) : DWord :=
  if (v.latScale o l).isNan || (v.fpReg (o.a.idx.toNat + i) l).isNan then 0x7FC00000#64
  else Machine.wide (quietly (do
    v.round .f32 .rne (← xadd (v.fpReg (o.a.idx.toNat + i) l) (coordTimes ((decodeLE8 c).getD i 0) (v.latScale o l)).neg)))

/-- The target of a coordinate that ULE8 updates, or the point that it keeps (R185). -/
def View.latUpdated (l i : Nat) : XVal :=
  if (v.ule8Mask o l).testBit i then v.latTarget o l i
  else coordX (if v.coordTiny ((decodeLE8 (halfOf o.hi (v.kept false o.d l))).getD i 0) (v.latScale o l) then 0
    else (decodeLE8 (halfOf o.hi (v.kept false o.d l))).getD i 0)

/-- The code that ULE8 leaves in a lane. -/
def View.latUpdate (l : Nat) : Option (BitVec 16) :=
  if v.ule8Mask o l = 0 then some (halfOf o.hi (v.kept false o.d l))
  else quietly (quantLE8 v.f.fpm ((upTo 8).map (v.latUpdated o l)))

/-- D of a lane with the code `c` in its half. -/
def View.latHalf (l : Nat) (c : BitVec 16) : DWord := BitVec.ofNat 64 (withHalf o.hi (v.kept false o.d l) c)

/-- The write of the codes to D. -/
def View.latPut (codes : Nat → Option (BitVec 16)) : List RegUpd :=
  v.vecUpds false o.d.toNat ((lanesOf (v.active o.h)).map fun l => (l, v.latHalf o l ((codes l).getD 0)))

/-- The writes of eight values to consecutive registers. -/
def View.latEight (base : Nat) (x : Nat → Nat → DWord) : List RegUpd :=
  (upTo 8).flatMap fun i => v.vecUpds false (base + i) ((lanesOf (v.active o.h)).map fun l => (l, x l i))

end

theorem View.round_steady (v : View) (x : XVal) : Num.Steady (v.round .f32 .rne x) := roundFp_steady (by simp [resolveRm]) _ _ _

theorem View.residue_steady (v : View) (o : LatOp) (l : Nat) (c : BitVec 16) (i : Nat) (a : XVal) : Num.Steady (v.residue o l c i a) :=
  steady_ite _ (steady_pure _) (steady_bind (xadd_steady _ _) fun _ => v.round_steady _)

theorem View.wide_residue (v : View) (o : LatOp) (l : Nat) (c : BitVec 16) (i : Nat) :
    Machine.wide (quietly (v.residue o l c i (v.fpReg (o.a.idx.toNat + i) l))) = v.latResidual o l c i := by
  unfold View.residue View.latResidual
  split <;> rfl

/-- A register that holds its own half keeps its value. -/
theorem withHalf_halfOf (hi : Bool) (x : Nat) : withHalf hi x (halfOf hi x) = x := by
  cases hi <;> simp [withHalf, halfOf, putBits] <;> omega

/-- Eight values rounded one after the other, after the writes `ws`. -/
theorem run_eight {g : Nat → Num (BitVec 32)} (hg : ∀ i, Num.Steady (g i)) (base : Nat) (ws : List (Nat × DWord)) (st : NumSt) :
    ((do
      let ys ← (upTo 8).mapM g
      pure (some (ws ++ ys.mapIdx fun i y => (base + i, wide y))) : Num (Option (List (Nat × DWord)))).run st).1 =
      some (ws ++ (upTo 8).map fun i => (base + i, wide (quietly (g i)))) := by
  obtain ⟨steady, value⟩ := steady_mapM hg (upTo 8)
  refine (run_bind steady (fun _ => steady_pure _) st).trans ?_
  rw [value, mapIdx_map_upTo]
  rfl

/-- Consecutive registers by their numbers. -/
theorem map_consecutive {α : Type} (base n : Nat) (x : Nat → α) :
    (((upTo n).map (base + ·)).map fun r => (r, x (r - base))) = (upTo n).map fun i => (base + i, x i) := by
  simp only [List.map_map, Function.comp_def, Nat.add_sub_cancel_left]

section
variable (s : State) (v : View) (o : LatOp)

theorem execQle8_rule : v.LatticeRule s o (execQle8 o s)
    (useRun 8 o.a.idx.toNat (v.active o.h) o.a.last ++ latUses o (v.active o.h) ++ useDst false false o.d (v.active o.h))
    (v.latCode o) (v.latPut o (v.latCode o)) := by
  unfold execQle8
  refine latticeOp_rule (names := [o.d.toNat]) (regs := fun l c _ => v.latHalf o l c) (fun l => ?_) (List.flatMap_singleton ..)
  refine (run_bind (quantLE8_steady _ _) (fun c => ?_) _).trans ?_
  · cases c <;> exact steady_pure _
  · change quietly (match v.latCode o l with | none => _ | some c => _) = _
    cases v.latCode o l <;> rfl

theorem execDle8_rule : v.LatticeRule s o (execDle8 o s)
    (useSrc false false o.a (v.active o.h) ++ latUses o (v.active o.h) ++ defRun 8 o.d.toNat (v.active o.h))
    (fun _ => some 0) (v.latEight o o.d.toNat fun l i => wide (quietly (v.round .f32 .rne (v.latProduct o l i)))) := by
  unfold execDle8
  refine latticeOp_rule (names := (upTo 8).map (o.d.toNat + ·))
    (regs := fun l _ r => wide (quietly (v.round .f32 .rne (v.latProduct o l (r - o.d.toNat))))) (fun l => ?_) ?_
  · refine Eq.trans ?_ (congrArg some (map_consecutive o.d.toNat 8 fun i => wide (quietly (v.round .f32 .rne (v.latProduct o l i)))).symm)
    have eight := run_eight (fun i => v.round_steady (v.latProduct o l i)) o.d.toNat []
    by_cases nan : (v.latScale o l).isNan = true
    · exact (congrArg (fun n : Num _ => (n.run ⟨v.f.rng.at l, 0, 0⟩).1) (if_pos nan)).trans (eight _)
    · exact (congrArg (fun n : Num _ => (n.run ⟨v.f.rng.at l, 0, 0⟩).1) (if_neg nan)).trans (eight _)
  · simp only [List.flatMap_map, Nat.add_sub_cancel_left]
    rfl

theorem execRle8_rule (apart : o.a.idx.toNat ≤ o.d.toNat → o.a.idx.toNat + 7 < o.d.toNat) : v.LatticeRule s o (execRle8 o s)
    (useRun 8 o.a.idx.toNat (v.active o.h) false ++ latUses o (v.active o.h) ++ useDst false false o.d (v.active o.h))
    (v.latCode o) (v.latPut o (v.latCode o) ++ v.latEight o o.a.idx.toNat fun l i => v.latResidual o l ((v.latCode o l).getD 0) i) := by
  have other (i : Nat) (hi : i ∈ upTo 8) : o.a.idx.toNat + i ≠ o.d.toNat := by
    have := List.mem_range.1 hi
    omega
  unfold execRle8
  refine latticeOp_rule (names := o.d.toNat :: (upTo 8).map (o.a.idx.toNat + ·))
    (regs := fun l c r => if r = o.d.toNat then v.latHalf o l c else v.latResidual o l c (r - o.a.idx.toNat)) (fun l => ?_) ?_
  · refine (run_bind (quantLE8_steady _ _) (fun c => ?_) _).trans ?_
    · cases c with
      | none => exact steady_pure _
      | some c => exact steady_bind (steady_mapM (fun i => v.residue_steady o l c i _) _).1 fun _ => steady_pure _
    · rw [List.map_map]
      change quietly (match v.latCode o l with | none => _ | some c => _) = _
      cases v.latCode o l with
      | none => rfl
      | some c =>
        refine (run_eight (fun i => v.residue_steady o l c i _) o.a.idx.toNat [(o.d.toNat, v.latHalf o l c)] ⟨0, 0, 0⟩).trans ?_
        simp only [Option.map_some, List.map_cons, List.map_map, if_true]
        refine congrArg (fun ws => some ((o.d.toNat, v.latHalf o l c) :: ws)) (List.map_congr_left fun i hi => ?_)
        simp only [Function.comp_apply, if_neg (other i hi), Nat.add_sub_cancel_left, ← v.wide_residue,
          getD_map_upTo (List.mem_range.1 hi)]
  · simp only [List.flatMap_cons, List.flatMap_map, if_true]
    refine congrArg _ (List.flatMap_congr fun i hi => ?_)
    simp only [if_neg (other i hi), Nat.add_sub_cancel_left]

theorem execUle8_rule : v.LatticeRule s o (execUle8 o s)
    (latUses o (v.active o.h) ++ [⟨.v o.d.toNat, v.active o.h, true, false⟩] ++ (upTo 8).map fun i =>
      ⟨.v (o.a.idx.toNat + i), v.active o.h &&& maskOf fun l => (v.ule8Mask o l).testBit i, true, o.a.last⟩)
    (v.latUpdate o) (v.latPut o (v.latUpdate o)) := by
  unfold execUle8
  refine latticeOp_rule (names := [o.d.toNat]) (regs := fun l c _ => v.latHalf o l c) (fun l => ?_) (List.flatMap_singleton ..)
  by_cases kept : v.ule8Mask o l = 0
  · simp only [View.latUpdate, kept, if_true, View.latHalf, Option.map_some, withHalf_halfOf]
    rfl
  · have code : v.latUpdate o l = quietly (quantLE8 v.f.fpm ((upTo 8).map (v.latUpdated o l))) := if_neg kept
    simp only [if_neg kept]
    refine (run_bind (quantLE8_steady _ _) (fun c => ?_) _).trans ?_
    · cases c <;> exact steady_pure _
    · change quietly (match quietly (quantLE8 v.f.fpm ((upTo 8).map (v.latUpdated o l))) with | none => _ | some c => _) = _
      rw [← code]
      cases v.latUpdate o l <;> rfl

theorem exec_qle8 : exec (.qle8 o) s = execQle8 o s := rfl
theorem exec_dle8 : exec (.dle8 o) s = execDle8 o s := rfl
theorem exec_rle8 : exec (.rle8 o) s = execRle8 o s := rfl
theorem exec_ule8 : exec (.ule8 o) s = execUle8 o s := rfl

end

end Sys2Proof.Machine

open Sys2Proof Sys2Proof.Machine

/-- Settles O7: each lattice instruction by the points of its lanes, whose values no flag and no random state changes, and by what they write. -/
theorem latticePoints : Obligations.LatticePoints := by
  unfold Obligations.LatticePoints
  intro s v o m here n both k old put target code done rule
  refine ⟨?qle8, ?dle8, fun i x => ?read, ?rle8, ?ule8⟩
  case qle8 => exact (execQle8_rule s v o).of_eq (exec_qle8 s o)
  case dle8 => exact (execDle8_rule s v o).of_eq (exec_dle8 s o)
  case read => rfl
  case rle8 => exact fun apart => (execRle8_rule s v o apart).of_eq (exec_rle8 s o)
  case ule8 => exact (execUle8_rule s v o).of_eq (exec_ule8 s o)

end

section
/-! ### A value of a format rounds to its own code (R77, R93) -/

namespace Sys2Proof.Machine

open Sys2Proof

/-! Powers of two and logarithms of rationals. -/

theorem pow2_eq_zpow (e : Int) : pow2 e = (2 : ℚ) ^ e := by
  unfold pow2
  split
  next h => 
    lift e to ℕ using h
    simp
  next h =>
    obtain ⟨n, rfl⟩ : ∃ n : ℕ, e = -n := ⟨(-e).toNat, by omega⟩
    simp [Rat.mkRat_eq_div]

theorem pow2_add (a b : Int) : pow2 (a + b) = pow2 a * pow2 b := by
  simp only [pow2_eq_zpow]
  exact zpow_add₀ two_ne_zero a b

theorem pow2_lt_iff {a b : Int} : pow2 a < pow2 b ↔ a < b := by
  simp only [pow2_eq_zpow]
  exact zpow_lt_zpow_iff_right₀ one_lt_two

theorem floorNat_natCast (n : Nat) : floorNat (n : ℚ) = n := by
  simp [floorNat]

/-- A quotient of naturals between powers of two. -/
theorem zpow_log2_bounds {n d : Nat} (hn : n ≠ 0) (hd : d ≠ 0) :
    (2 : ℚ) ^ ((Nat.log2 n : Int) - Nat.log2 d - 1) ≤ (n : ℚ) / d ∧ (n : ℚ) / d < (2 : ℚ) ^ ((Nat.log2 n : Int) - Nat.log2 d + 1) := by
  have pos : (0 : ℚ) < d := by positivity
  have n1 : (2 : ℚ) ^ (Nat.log2 n : Int) ≤ n := by exact_mod_cast Nat.log2_self_le hn
  have n2 : (n : ℚ) < 2 ^ ((Nat.log2 n : Int) + 1) := by exact_mod_cast Nat.lt_log2_self (n := n)
  have d1 : (2 : ℚ) ^ (Nat.log2 d : Int) ≤ d := by exact_mod_cast Nat.log2_self_le hd
  have d2 : (d : ℚ) < 2 ^ ((Nat.log2 d : Int) + 1) := by exact_mod_cast Nat.lt_log2_self (n := d)
  constructor
  · rw [le_div_iff₀ pos, show (Nat.log2 n : Int) - Nat.log2 d - 1 = Nat.log2 n - (Nat.log2 d + 1) by ring, zpow_sub₀ two_ne_zero,
      div_mul_eq_mul_div, div_le_iff₀ (by positivity)]
    gcongr
  · rw [div_lt_iff₀ pos, show (Nat.log2 n : Int) - Nat.log2 d + 1 = Nat.log2 n + 1 - Nat.log2 d by ring, zpow_sub₀ two_ne_zero,
      div_mul_eq_mul_div, lt_div_iff₀ (by positivity)]
    exact mul_lt_mul n2 d1 (by positivity) (by positivity)

/-- The exponent of a positive rational. -/
theorem ilog2_spec {q : ℚ} (hq : 0 < q) : pow2 (ilog2 q) ≤ q ∧ q < pow2 (ilog2 q + 1) := by
  have num : q.num.toNat ≠ 0 := by have := Rat.num_pos.2 hq; omega
  have quotient : (q.num.toNat : ℚ) / q.den = q := by
    rw [← Int.cast_natCast, Int.toNat_of_nonneg (Rat.num_nonneg.2 hq.le), Rat.num_div_den]
  obtain ⟨lo, hi⟩ := zpow_log2_bounds num q.den_nz
  rw [quotient, ← pow2_eq_zpow] at lo hi
  unfold ilog2
  dsimp only
  split
  next less => exact ⟨lo, by rwa [Int.sub_add_cancel]⟩
  next not_less => exact ⟨not_lt.1 not_less, hi⟩

theorem ilog2_eq {q : ℚ} {e : Int} (lo : pow2 e ≤ q) (hi : q < pow2 (e + 1)) : ilog2 q = e := by
  obtain ⟨l, h⟩ := ilog2_spec ((pow2_pos e).trans_le lo)
  have a := pow2_lt_iff.1 (lo.trans_lt h)
  have b := pow2_lt_iff.1 (l.trans_lt hi)
  omega

/-! A magnitude of a format in units of its last place. -/

section
variable (f : FpFmt) {q : ℚ}

/-- A whole number of units is exact, and rounds to itself. -/
theorem FpFmt.rounded_whole {n : Nat} (h : f.units q = n) (rm : RMode) (neg : Bool) : f.rest q = 0 ∧
    f.rounded q rm neg = (f.expo q - (1 - (f.bias : Int))).toNat * 2 ^ f.m + n := by
  have exact_ : f.rest q = 0 := by rw [FpFmt.rest, h, floorNat_natCast, sub_self]
  refine ⟨exact_, ?_⟩
  rw [FpFmt.rounded, exact_, h, floorNat_natCast]
  rfl

theorem FpFmt.units_of_expo {e : Int} {n : Nat} (he : f.expo q = e) (hq : q = n * pow2 (e - f.m)) : f.units q = n := by
  rw [FpFmt.units, he, hq, mul_div_cancel_right₀ _ (pow2_pos _).ne']

theorem pow2_sub_mul (e : Int) (m : Nat) : pow2 (e - m) * (2 ^ m : ℕ) = pow2 e := by
  rw [show ((2 ^ m : ℕ) : ℚ) = pow2 m by rw [pow2_eq_zpow]; norm_cast, ← pow2_add, Int.sub_add_cancel]

/-- A subnormal magnitude has the least exponent. -/
theorem FpFmt.expo_subnormal {n : Nat} (hn : 0 < n) (lt : n < 2 ^ f.m) (hq : q = n * pow2 (1 - (f.bias : Int) - f.m)) :
    f.expo q = 1 - f.bias := by
  have pos : 0 < q := hq ▸ mul_pos (by positivity) (pow2_pos _)
  have below : q < pow2 (1 - f.bias) := by
    rw [hq, ← pow2_sub_mul (1 - (f.bias : Int)) f.m, mul_comm]
    exact mul_lt_mul_of_pos_left (Nat.cast_lt.2 lt) (pow2_pos _)
  have := pow2_lt_iff.1 ((ilog2_spec pos).1.trans_lt below)
  exact max_eq_right this.le

/-- A normal magnitude has its own exponent. -/
theorem FpFmt.expo_normal {n : Nat} {e : Int} (le : 2 ^ f.m ≤ n) (lt : n < 2 ^ (f.m + 1)) (he : 1 - (f.bias : Int) ≤ e)
    (hq : q = n * pow2 (e - f.m)) : f.expo q = e := by
  have lo : pow2 e ≤ q := by
    rw [hq, ← pow2_sub_mul e f.m, mul_comm]
    exact mul_le_mul_of_nonneg_right (by exact_mod_cast le) (pow2_pos _).le
  have hi : q < pow2 (e + 1) := by
    rw [hq, ← pow2_sub_mul (e + 1) (f.m + 1), mul_comm, show e + 1 - ((f.m + 1 : ℕ) : Int) = e - f.m by push_cast; ring]
    exact mul_lt_mul_of_pos_left (Nat.cast_lt.2 lt) (pow2_pos _)
  rw [FpFmt.expo, ilog2_eq lo hi, max_eq_left he]

theorem FpFmt.magnitude_zero : f.magnitude 0 = 0 := by simp [FpFmt.magnitude]

/-- The magnitude of a code is a whole number of units, and the code is what it rounds to. -/
theorem FpFmt.rounded_magnitude {c : Nat} (hc : c ≠ 0) (rm : RMode) (neg : Bool) :
    f.magnitude c ≠ 0 ∧ f.rest (f.magnitude c) = 0 ∧ f.rounded (f.magnitude c) rm neg = c := by
  have pos := Nat.two_pow_pos f.m
  have part := Nat.div_add_mod c (2 ^ f.m)
  have small := Nat.mod_lt c pos
  by_cases e0 : c / 2 ^ f.m = 0
  · have code : c % 2 ^ f.m = c := by rw [e0] at part; omega
    have mag : f.magnitude c = (c : ℕ) * pow2 (1 - f.bias - f.m) := by rw [FpFmt.magnitude, e0, code]; rfl
    have expo := f.expo_subnormal (Nat.pos_of_ne_zero hc) (code ▸ small) mag
    obtain ⟨rest, rounded⟩ := f.rounded_whole (f.units_of_expo expo mag) rm neg
    refine ⟨?_, rest, ?_⟩
    · rw [mag]
      exact mul_ne_zero (by exact_mod_cast hc) (pow2_pos _).ne'
    · rw [rounded, expo, sub_self]
      simp
  · obtain ⟨e, he⟩ := Nat.exists_eq_succ_of_ne_zero e0
    have mag : f.magnitude c = (2 ^ f.m + c % 2 ^ f.m : ℕ) * pow2 ((e + 1 : ℕ) - f.bias - f.m) := by
      rw [FpFmt.magnitude, if_neg e0, he]
    rw [he] at part
    generalize c % 2 ^ f.m = r at part small mag
    have expo := f.expo_normal (e := (e + 1 : ℕ) - f.bias) (Nat.le_add_right _ _) (by rw [Nat.pow_succ]; omega) (by push_cast; omega) mag
    obtain ⟨rest, rounded⟩ := f.rounded_whole (f.units_of_expo expo mag) rm neg
    refine ⟨?_, rest, ?_⟩
    · rw [mag]
      exact mul_ne_zero (by positivity) (pow2_pos _).ne'
    · have steps : ((e + 1 : ℕ) - (f.bias : Int) - (1 - (f.bias : Int))).toNat = e := by omega
      rw [rounded, expo, steps, ← part, Nat.succ_eq_add_one]
      ring

end

/-! Rounding of a decoded code. -/

/-- A code whose magnitude fits, with no flush on output, is written as it is. -/
theorem finishCode_exact {fpm : BitVec 32} {t : Ty} {code : Nat} (fits : code ≤ (fpFmt t).maxCode) (keep : flushOut fpm t = false)
    (x4 : BitVec 16) (rm : RMode) (neg tiny : Bool) : finishCode fpm x4 t rm neg false tiny code = pure (signed t x4 neg code) := by
  have noOverflow : ¬code > (fpFmt t).maxCode := not_lt.2 fits
  simp [finishCode, noOverflow, keep]

/-- A magnitude that the format holds rounds to its own code in every mode without a random draw. -/
theorem roundFp_magnitude {fpm : BitVec 32} {rm : RMode} {t : Ty} {mag : Nat} (hrm : resolveRm fpm rm ≠ .rst) (keep : flushOut fpm t = false)
    (fits : mag ≤ (fpFmt t).maxCode) (x4 : BitVec 16) (neg : Bool) :
    roundFp fpm x4 t rm (.fin neg ((fpFmt t).magnitude mag)) = pure (signed t x4 neg mag) := by
  by_cases zero : mag = 0
  · rw [zero, FpFmt.magnitude_zero, roundFp_zero hrm]
  · obtain ⟨ne, rest, rounded⟩ := (fpFmt t).rounded_magnitude zero (resolveRm fpm rm) neg
    rw [roundFp_fin hrm x4 t neg ne, rest, rounded]
    exact finishCode_exact fits keep x4 _ neg _

/-- Sign and magnitude together are the code; E2M1's 0b1000 is left out. -/
theorem signed_parts {t : Ty} {c : Nat} (lt : c < 2 ^ (fpFmt t).w) (noX4 : t = .e2m1 → c ≠ 8) (x4 : BitVec 16) :
    signed t x4 (c / 2 ^ ((fpFmt t).w - 1) % 2 == 1) (c % 2 ^ ((fpFmt t).w - 1)) = BitVec.ofNat 32 c := by
  have twice : 2 ^ (fpFmt t).w = 2 ^ ((fpFmt t).w - 1) * 2 := by cases t <;> rfl
  have pos := Nat.two_pow_pos ((fpFmt t).w - 1)
  have parts := Nat.div_add_mod c (2 ^ ((fpFmt t).w - 1))
  have digit : c / 2 ^ ((fpFmt t).w - 1) < 2 := Nat.div_lt_of_lt_mul (twice ▸ lt)
  have noNegZero : ¬(t = .e2m1 ∧ c / 2 ^ ((fpFmt t).w - 1) = 1 ∧ c % 2 ^ ((fpFmt t).w - 1) = 0) := by
    rintro ⟨rfl, one, zero⟩
    rw [one, zero] at parts
    exact noX4 rfl parts.symm
  unfold signed
  refine congrArg (BitVec.ofNat 32) ?_
  by_cases neg : c / 2 ^ ((fpFmt t).w - 1) = 1
  · have keep : (t == .e2m1 && c % 2 ^ ((fpFmt t).w - 1) == 0) = false := by simpa [neg] using noNegZero
    rw [neg] at parts ⊢
    simp only [keep, Bool.false_and]
    simpa using parts
  · have pos : c / 2 ^ ((fpFmt t).w - 1) = 0 := Nat.lt_one_iff.1 (lt_of_le_of_ne (Nat.le_of_lt_succ digit) neg)
    rw [pos] at parts ⊢
    simpa using parts

/-- The value of a code that is no NaN rounds to the code. -/
theorem roundFp_value {fpm : BitVec 32} {rm : RMode} {t : Ty} {c : Nat} (hrm : resolveRm fpm rm ≠ .rst) (keep : flushOut fpm t = false)
    (lt : c < 2 ^ (fpFmt t).w) (num : ((fpFmt t).value c).isNan = false) (noX4 : t = .e2m1 → c ≠ 8) (x4 : BitVec 16) :
    roundFp fpm x4 t rm ((fpFmt t).value c) = pure (BitVec.ofNat 32 c) := by
  rw [← signed_parts lt noX4 x4]
  unfold FpFmt.value at num ⊢
  dsimp only at num ⊢
  split
  next fits => exact roundFp_magnitude hrm keep fits x4 _
  next beyond =>
    rw [if_neg beyond] at num
    split
    next inf =>
      obtain ⟨has, top⟩ : (fpFmt t).hasInf = true ∧ c % 2 ^ ((fpFmt t).w - 1) = (fpFmt t).maxCode + 1 := by simpa using inf
      rw [roundFp_inf hrm, if_pos has, top]
    next nan =>
      rw [if_neg nan] at num
      contradiction

end Sys2Proof.Machine
end

section
/-! ### Conversions, block scales and grouped parameters over the lane loop (R174 to R180) -/

namespace Sys2Proof.Machine

open Sys2Proof

theorem asInt_wrapTo (ty : Ty) (i : Int) : asInt ty (wrapTo ty i) = asInt ty (BitVec.ofInt 64 i) := by
  rw [← low_ofInt, asInt_low]

/-- Lanes that compute the same with what a computation gives. -/
theorem runLane_congr {α : Type} {v : View} {l : Nat} {n : Num α} {f g : α → DWord}
    (h : f (n.run ⟨v.f.rng.at l, 0, 0⟩).1 = g (n.run ⟨v.f.rng.at l, 0, 0⟩).1) :
    runLane v l (do pure (f (← n))) = runLane v l (do pure (g (← n))) :=
  congrArg (fun x => (x, (n.run ⟨v.f.rng.at l, 0, 0⟩).2)) h

/-- An X8 code has eight bits. -/
theorem bscaleX8_le (ty : Ty) (x : XVal) (st : NumSt) : ((bscaleX8 ty x).run st).1 ≤ 255 := by
  cases x with
  | nan => exact le_refl 255
  | inf n => exact (by decide : 254 ≤ 255)
  | fin n m =>
    simp only [bscaleX8]
    split
    · exact Nat.zero_le 255
    · change (max 0 (min 254 (ilog2 m - emaxOf ty + 127))).toNat ≤ 255
      omega

theorem wide_ofNat {n : Nat} (h : n < 2 ^ 32) : wide (BitVec.ofNat 32 n) = BitVec.ofNat 64 n := by
  apply BitVec.eq_of_toNat_eq
  simp only [wide, BitVec.toNat_setWidth, BitVec.toNat_ofNat]
  omega

/-- The element of a packed operand that CVTU reads. -/
def View.element (v : View) (o : Op1) (src : Ty) (l : Nat) (i : BitVec 3) : XVal :=
  decodeFp v.f.fpm (v.f.fp4x.setWidth 16) src (v.packed o.sc src o.a l i.toNat)

/-- The FP32 code of the inverse of an X8 scale (R177). -/
def bscaleInv (k : Nat) : BitVec 32 :=
  if k == 0xFF then 0x7FC00000 else quietly (roundFp 0 0 .f32 .rne (.fin false (pow2 (127 - (k : Int)))))

theorem wide_bscaleInv (k : Nat) : wide (bscaleInv k) = if k = 255 then 0x7FC00000#64
    else wide (quietly (roundFp 0 0 .f32 .rne (.fin false (pow2 (127 - (k : Int)))))) := by
  simp only [bscaleInv, beq_iff_eq]
  split
  · rfl
  · rfl

section
variable (s : State) (o1 : Op1) (o : Op2) (dst src ty : Ty) (rm : RMode) (sat q8 : Bool) (i : BitVec 3)

theorem exec_cvt : exec (.cvt o1 dst src rm sat) s = laneOp false o1.h 8 o1.sc dst.is64 o1.d (uses1 o1 src.is64)
    (fun v l => v.convert o1.sc dst src rm sat (v.src o1.sc src o1.a l)) s := rfl
theorem exec_cvtp (p : BitVec 2) : exec (.cvtp o dst rm sat p) s = execCvtp o dst rm sat p s := rfl
theorem exec_cvtu : exec (.cvtu o1 src i none) s = laneOp false o1.h 8 o1.sc false o1.d (fun v m => uses1 o1 false v m ++ []) (fun v l =>
    if !src.isFloat then pure (extended false src (asInt src (BitVec.ofNat 64 (v.packed o1.sc src o1.a l i.toNat))))
    else do pure (wide (← v.round .f32 .rne (v.element o1 src l i)))) s := rfl
theorem exec_cvtu_scaled (b : Opnd) : exec (.cvtu o1 src i (some b)) s = laneOp false o1.h 8 o1.sc false o1.d
    (fun v m => uses1 o1 false v m ++ useSrc o1.sc false b m) (fun v l =>
      if !src.isFloat then pure (extended false src (asInt src (BitVec.ofNat 64 (v.packed o1.sc src o1.a l i.toNat))))
      else do pure (wide (← v.round .f32 .rne (← xmul (v.element o1 src l i) (x8Scale ((v.src o1.sc .n32 b l).setWidth 8)))))) s := rfl
theorem exec_bscale : exec (.bscale o1 ty false) s = laneOp false o1.h 8 o1.sc false o1.d (uses1 o1 false) (fun v l => do
    pure (wide (BitVec.ofNat 32 (← bscaleX8 ty (v.fp o1.sc .f32 o1.a l))))) s := rfl
theorem exec_bscale_inv : exec (.bscale o1 ty true) s = laneOp false o1.h 8 o1.sc false o1.d (uses1 o1 false) (fun v l => do
    pure (wide (bscaleInv (← bscaleX8 ty (v.fp o1.sc .f32 o1.a l))))) s := rfl
theorem exec_qparm : exec (.qparm o q8) s = execQparm o q8 s := rfl
theorem exec_qapply : exec (.qapply o q8 rm) s = execQapply o q8 rm s := rfl
theorem exec_dq : exec (.dq o q8 i) s = execDq o q8 i s := rfl

end

end Sys2Proof.Machine

open Sys2Proof Sys2Proof.Machine

/-- Settles O6: each row by what its lanes compute, and the round trip by the exact exponent of a code's magnitude. -/
theorem conversionsRoundOnce : Obligations.ConversionsRoundOnce := by
  unfold Obligations.ConversionsRoundOnce
  refine ⟨fun s v => ⟨?cvt, ?cvtp, ?cvtu, ?bscale, ?qparm, ?qapply, ?dq⟩, ?code⟩
  case cvt =>
    intro o dst src rm sat hi a x t
    rw [exec_cvt]
    refine ⟨fun hs hd => lanes1_next hi fun l => ?_, fun hs hd => lanes1_next hi fun l => ?_, fun hs hd => lanes1_next hi fun l => ?_,
      fun hs hd => lanes1_next hi fun l => ?_⟩
    · simp only [View.convert, hs, hd, if_true]
      rfl
    · simp only [View.convert, hs, hd, if_true, Bool.false_eq_true, if_false]
      rfl
    · simp only [View.convert, hs, hd, if_true, Bool.false_eq_true, if_false]
      rfl
    · simp only [View.convert, hs, hd, Bool.false_eq_true, if_false, asInt_wrapTo]
      rfl
  case cvtp =>
    intro o dst rm sat p m us hi
    exact (exec_cvtp s o dst rm sat p).trans (laneOp_next (srcs := fun v m => uses2 o false false v m ++ useKept o.sc o.d m) hi)
  case cvtu =>
    intro o src i scale m us code x hi
    cases scale with
    | none =>
      refine (exec_cvtu s o src i).trans (laneOp_lanes (srcs := fun v m => uses1 o false v m ++ []) hi fun l => ?_)
      cases src.isFloat <;> rfl
    | some b =>
      refine (exec_cvtu_scaled s o src i b).trans (laneOp_lanes (srcs := fun v m => uses1 o false v m ++ useSrc o.sc false b m) hi fun l => ?_)
      cases src.isFloat <;> rfl
  case bscale =>
    intro o ty hi e
    have small (l : Nat) : ((e l).run ⟨v.f.rng.at l, 0, 0⟩).1 ≤ 255 := bscaleX8_le ty _ _
    exact ⟨(exec_bscale s o ty).trans (lanes1_next hi fun l => runLane_congr (wide_ofNat ((small l).trans_lt (by decide)))),
      (exec_bscale_inv s o ty).trans (lanes1_next hi fun l => runLane_congr (wide_bscaleInv _))⟩
  case qparm => exact fun o q8 hi => (exec_qparm s o q8).trans (lanes2_next hi fun _ => rfl)
  case qapply => exact fun o q8 rm hi => (exec_qapply s o rm q8).trans (lanes2_next hi fun _ => rfl)
  case dq => exact fun o q8 i hi => (exec_dq s o q8 i).trans (lanes2_next hi fun _ => rfl)
  case code =>
    intro t fpm x4 rm c st _ lt hrm keep num noX4
    rw [roundFp_value hrm keep lt num noX4]
    rfl

end

section
/-! ### A line replaced in an L1 takes a line of the full die cache with it (R22, R234, R235, log entry 13) -/

namespace Sys2Proof.Machine

open Sys2Proof

/-! The lines that a cache holds, and the copies that are left when a copy joins it and when it gives up a line. -/

theorem addOnce_append {α : Type} [DecidableEq α] {l : List α} {x : α} (new : x ∉ l) : addOnce l x = l ++ [x] := by
  simp [addOnce, new]

/-- A cache that holds one word of each of the first n lines holds these lines, in that order. -/
theorem State.linesAt_range {s : State} {p : CopyAt} {other : Copy} {line : Nat → Copy} {n : Nat}
    (copies : s.copies = other :: (List.range n).map line) (apart : other.pos ≠ p) (held : ∀ i, (line i).pos = p ∧ (line i).word / 32 = i) :
    s.linesAt p = List.range n := by
  have inOrder : ((List.range n).map line).foldl (fun l c => if c.pos == p then addOnce l (c.word / 32) else l) [] = List.range n := by
    clear copies
    induction n with
    | zero => rfl
    | succ n ih =>
      rw [List.range_succ, List.map_append, List.foldl_append, ih]
      simp [held, addOnce_append (l := List.range n) (x := n) (by simp)]
  simp only [State.linesAt, copies, List.foldl_cons, beq_eq_false_iff_ne.2 apart, Bool.false_eq_true, if_false, inOrder]

theorem State.mem_putCopy {s : State} {c x : Copy} (h : x ∈ (s.putCopy c).copies) : x ∈ s.copies ∨ x = c := by
  simp only [State.putCopy] at h
  split at h
  · obtain ⟨y, hy, rfl⟩ := List.mem_map.1 h
    split
    · exact .inr rfl
    · exact .inl hy
  · simpa using h

theorem State.mem_evictL1 {s : State} {a : Agent} {line : Nat} {x : Copy} (h : x ∈ (s.evictL1 a line).copies) :
    x ∈ ((s.heldWords (.l1 a.core) line).foldl (fun s w => s.throughL1 a w) s).copies := (List.mem_filter.1 h).1

theorem State.evictDc_leaves {s : State} {die line : Nat} {x : Copy} (h : x ∈ (s.evictDc die line).copies) :
    ¬(x.pos = .dc die ∧ x.word / 32 = line) := by
  rintro ⟨pos, on⟩
  have stays := (List.mem_filter.1 h).2
  simp [pos, on] at stays

/-- A die cache without room gives up its oldest line for a line that it does not hold. -/
theorem State.roomDc_full {s : State} {die line oldest : Nat} {ls : List Nat} (lines : s.linesAt (.dc die) = oldest :: ls)
    (full : ls.length + 1 = s.linesFor (.dc die)) (new : line ∉ oldest :: ls) : s.roomDc die line = s.evictDc die oldest := by
  have absent : (oldest :: ls).contains line = false := by simpa using new
  have one : (oldest :: ls).length + 1 - s.linesFor (.dc die) = 1 := by simp [← full]
  simp only [State.roomDc, lines, absent, one, Bool.false_eq_true, if_false]
  rfl

theorem State.putDc_full {s : State} {die oldest : Nat} {ls : List Nat} {c x : Copy} (lines : s.linesAt (.dc die) = oldest :: ls)
    (full : ls.length + 1 = s.linesFor (.dc die)) (new : c.word / 32 ∉ oldest :: ls) (h : x ∈ (s.putDc die c).copies) :
    ¬(x.pos = .dc die ∧ x.word / 32 = oldest) := by
  rw [State.putDc, State.roomDc_full lines full new] at h
  rcases State.mem_putCopy h with h | rfl
  · exact State.evictDc_leaves h
  · rintro ⟨-, at_⟩
    exact new (at_ ▸ List.mem_cons_self)

/-! A full die cache and a dirty line of an L1 that it does not hold. -/

/-- The first word of a line of the die cache of die 0, as it was filled. -/
def cleanLine (i : Nat) : Copy :=
  { pos := .dc 0, word := 32 * i, val := 0, dirty := false, poison := false, asid := 1, va := BitVec.ofNat 56 (128 * i), home := 0, repl := false
    cp := false, key := 0 }

/-- The same word as core 0 holds it after a store. -/
def storedLine (i : Nat) : Copy := { cleanLine i with pos := .l1 0, dirty := true }

/-- Lines 0 to n - 1 in the die cache and line n dirty in the L1 of core 0. -/
def linesHeld (n : Nat) : State := { State.reset with copies := storedLine n :: (List.range n).map cleanLine }

theorem linesHeld_heldWords (n : Nat) : (linesHeld n).heldWords (.l1 0) n = [32 * n] := by
  have clean : ((List.range n).map cleanLine).filter (fun c => c.pos == .l1 0 && c.word / 32 == n) = [] := by
    simp [List.filter_eq_nil_iff, cleanLine]
  simp [State.heldWords, linesHeld, clean, storedLine, cleanLine]

theorem linesHeld_copy? (n : Nat) : (linesHeld n).copy? (.l1 0) (32 * n) = some (storedLine n) := by
  simp [State.copy?, linesHeld, storedLine, cleanLine]

/-- With its word on its way to the die cache the line of the L1 is clean, and no other copy has changed. -/
theorem linesHeld_putCopy (n : Nat) : ((linesHeld n).putCopy { storedLine n with dirty := false }).copies =
    { storedLine n with dirty := false } :: (List.range n).map cleanLine := by
  have found : ((linesHeld n).copy? (storedLine n).pos (storedLine n).word).isSome := Option.isSome_iff_exists.2 ⟨_, linesHeld_copy? n⟩
  simp only [State.putCopy]
  rw [if_pos found]
  simp [linesHeld, storedLine, cleanLine]

theorem linesHeld_linesAt (n : Nat) :
    ((linesHeld (n + 1)).putCopy { storedLine (n + 1) with dirty := false }).linesAt (.dc 0) = 0 :: (List.range n).map (· + 1) := by
  rw [State.linesAt_range (linesHeld_putCopy _) (by simp [storedLine]) fun i => ⟨rfl, by simp [cleanLine]⟩]
  exact List.range_succ_eq_map

/-- LINE_REPLACEMENT of the line of the L1 puts its word into the full die cache, where the oldest line gives way. -/
theorem linesHeld_evictL1 {n : Nat} (full : n + 1 = 524288) : cleanLine 0 ∉ ((linesHeld (n + 1)).evictL1 ⟨0, 0⟩ (n + 1)).copies := by
  intro h
  have h := State.mem_evictL1 h
  rw [linesHeld_heldWords] at h
  simp only [List.foldl_cons, List.foldl_nil, State.throughL1, linesHeld_copy?] at h
  have new : (storedLine (n + 1)).word / 32 ∉ 0 :: (List.range n).map (· + 1) := by simp [storedLine, cleanLine]
  exact State.putDc_full (linesHeld_linesAt n) (by simpa [State.linesFor] using full) new h ⟨rfl, by simp [cleanLine]⟩

end Sys2Proof.Machine

open Sys2Proof Sys2Proof.Machine

/-- Refutes O53 in its clause on LINE_REPLACEMENT, which keeps every copy of another line: when core 0 gives up a dirty line, its word is written
through to the die cache of die 0, and where that holds 524288 lines (64 MiB, R22) its oldest line gives way (log entry 13). -/
theorem not_pageEventsComplete : ¬ Obligations.PageEventsComplete := by
  unfold Obligations.PageEventsComplete
  rintro ⟨-, -, -, -, replaced⟩
  obtain ⟨n, full⟩ : ∃ n, n + 1 = 524288 := ⟨524287, rfl⟩
  obtain ⟨t, ran, -, kept⟩ := replaced (linesHeld (n + 1)) (some 0) 0 (n + 1)
  obtain rfl : (linesHeld (n + 1)).evictL1 ⟨0, 0⟩ (n + 1) = t := Host.Outcome.next.inj ran
  have held : cleanLine 0 ∈ (linesHeld (n + 1)).copies := List.mem_cons_of_mem _ (List.mem_map_of_mem (by simp))
  exact linesHeld_evictL1 full (kept _ held (by simp [cleanLine]))

end

section
/-! ### Loads, gathers and scatters (R216 to R223) -/

namespace Sys2Proof.Machine

open Sys2Proof

/-! What a memory instruction answers, by its body. -/

section
variable {sw : Bool} {len : Nat} {us : View → List Use} {body : MemBody} {s : State} {v : View} {us' : List Use}

/-- A memory instruction whose body performs its lanes: which they are is not asked any more. -/
theorem issueMem_done {p : Performed} {lanes : Mask} (hi : s.issuing v perLane us') (hf : v.fresh) (hus : us v = us')
    (hb : body v s none = .ok ({ p with done := lanes }, [])) : issueMem sw len us body s = .next (v.performed sw len us' p) :=
  issueMemAs_done (p := { p with done := lanes }) hi hf hus hb

/-- A memory instruction whose body stops with a trap in the state that it names. -/
theorem issueMem_traps {t : Option State} {r : TrapRec} (hi : s.issuing v perLane us') (hf : v.fresh) (hus : us v = us')
    (hb : body v s none = .error (.trap t r)) : issueMem sw len us body s = .next ((t.getD s).traps v r) := by
  subst hus
  obtain ⟨fresh, open_⟩ := hf
  simp only [issueMem, issueMemAs, hi.1, fresh, View.checks_ok hi.2, open_, hb, Except.ok_bind, Bool.false_eq_true, if_false]
  rfl

end

/-! The lanes of a list of accesses, and the checks before they are made. -/

/-- The mask of a mask's lanes. -/
theorem maskOf_contains_lanesOf (m : Mask) : maskOf (fun l => (lanesOf m).contains l) = m := by
  refine BitVec.eq_of_getLsbD_eq fun l hl => ?_
  rw [getLsbD_maskOf _ hl, Bool.eq_iff_iff, List.contains_iff_mem, mem_lanesOf hl]

theorem lanesOf_zero : lanesOf 0 = [] := rfl

theorem lanesOf_ne_nil {m : Mask} (h : m ≠ 0) : lanesOf m ≠ [] := by
  obtain ⟨ls, e⟩ := lanesOf_eq_cons h
  simp [e]

section
variable {v : View} {s : State} {sp : Space} {need : Need} {ls : List Nat} {addr : Nat → Nat} {n al : Nat}

/-- The accesses of some lanes at the addresses `addr`. -/
theorem lanesOfAcc_true : lanesOfAcc (ls.map fun l => accessOf l (addr l) n al) (fun _ => true) = maskOf fun l => ls.contains l := by
  simp only [lanesOfAcc, accessOf, List.any_map, Function.comp_def, Bool.and_true, List.any_beq']

theorem readyMask_placed : readyMask (v.placed s sp need (ls.map fun l => accessOf l (addr l) n al)) = maskOf fun l => ls.contains l := by
  simp only [readyMask, View.placed, accessOf, List.map_map, List.any_map, Function.comp_def, List.any_beq']

/-- Accesses to the constant space that pass the segment and alignment checks are refused. -/
theorem View.refuseConst_denied {as : List Access} (hm : lanesOfAcc as (fun _ => true) ≠ 0)
    (ha : ∀ x ∈ as, v.inSegment .ko x.addr x.len = true ∧ x.aligned = true) :
    v.refuseConst .ko as = .error (v.stop .permission (lanesOfAcc as fun _ => true)) := by
  have passes : v.checkAcc .ko as = .ok () := View.checkAcc_ok fun x hx => ⟨by simpa [View.laneInSegment] using (ha x hx).1, (ha x hx).2⟩
  have some_ : (lanesOfAcc as (fun _ => true) == 0) = false := by simpa using hm
  simp only [View.refuseConst, passes, View.trapIf, some_, Except.ok_bind, BEq.rfl, if_true, Bool.false_eq_true, if_false]

theorem View.refuseConst_other (h : sp ≠ .ko) (as : List Access) : v.refuseConst sp as = .ok () := by
  simp [View.refuseConst, h, pure, Except.pure]

theorem View.refuseConst_none (sp : Space) : v.refuseConst sp [] = .ok () := by
  have passes : v.checkAcc sp [] = .ok () := View.checkAcc_ok (by simp)
  have nobody : lanesOfAcc [] (fun _ => true) = 0 := lanesOfAcc_zero (by simp)
  unfold View.refuseConst
  split
  · simp [passes, nobody, View.trapIf, Except.ok_bind, pure, Except.pure]
  · rfl

theorem State.taggedAt_clean {r : Ready} (h : ∀ p ∈ r.parts, s.isTagged p.1 = false) : s.taggedAt r = [] := by
  unfold State.taggedAt
  suffices ∀ a : Nat, (r.parts.foldl (fun acc p => (acc.1 + p.2, if s.isTagged p.1 then acc.2 ++ [acc.1] else acc.2)) (a, ([] : List Nat))).2 = [] from this _
  generalize r.parts = ps at h
  induction ps with
  | nil => exact fun _ => rfl
  | cons p ps ih =>
    intro a
    simpa [h p List.mem_cons_self] using ih (fun q hq => h q (List.mem_cons_of_mem _ hq)) (a + p.2)

/-- No part in a tagged word: no BarrierClobber (R333). -/
theorem View.checkTags_clean {rs : List Ready} (h : ∀ r ∈ rs, ∀ p ∈ r.parts, s.isTagged p.1 = false) : v.checkTags s rs = .ok () := by
  have nobody : maskOf (fun l => (rs.map fun r => (r.lane, s.taggedAt r)).any fun h => h.1 == l && !h.2.isEmpty) = 0 :=
    maskOf_zero fun l _ => by
      simp only [List.any_map, List.any_eq_false, Function.comp_apply]
      intro r hr
      simp [State.taggedAt_clean (h r hr)]
  simp only [View.checkTags, nobody, View.trapIf, BEq.rfl, if_true]
  rfl

theorem View.holdRemote_none {ordered : Bool} (h : ordered = false ∨ ∀ o ∈ v.f.out, o.remote = []) : v.holdRemote ordered = .ok () := by
  have free : (ordered && v.f.out.any fun o => !o.remote.isEmpty) = false := by
    rcases h with rfl | h
    · rfl
    · rw [Bool.and_eq_false_iff]
      exact .inr (List.any_eq_false.2 fun o ho => by simp [h o ho])
  simp only [View.holdRemote, free, Bool.false_eq_true, if_false]
  rfl

end

/-- Requests each of which has a way when its turn comes are all sent. -/
theorem State.sendAll_of_sendEach {v : View} {dst : BitVec 16} {mc : Bool} {rs : List (Mask × RemReq × ReplyUse)} {s t : State} {ids : List Nat}
    (h : s.sendEach v dst mc s.nextId rs = some (t, ids)) : s.sendAll v dst mc rs = .ok (t, ids, []) := by
  suffices ∀ (base : Nat) (u : State) (before ids : List Nat), u.sendEach v dst mc base rs = some (t, ids) →
      rs.foldlM (m := Chk) (fun (acc : State × List Nat × List TrapRec) r => match acc.1.way v.f.ref dst mc r.2.1 base with
        | .go p => .ok (acc.1.send v.f.ref r.1 v.f.xretry dst mc r.2.1 p r.2.2, acc.2.1 ++ [acc.1.nextId], acc.2.2)
        | .later => .error .stall
        | .never => .ok (acc.1, acc.2.1, acc.2.2 ++ [remoteRec .linkDown 0 r.2.1.va r.1])) (u, before, []) = .ok (t, before ++ ids, []) from
    (this s.nextId s [] ids h).trans rfl
  clear h
  induction rs with
  | nil =>
    rintro base u before ids h
    obtain ⟨rfl, rfl⟩ : u = t ∧ [] = ids := by simpa [State.sendEach] using h
    simp [pure, Except.pure]
  | cons r rs ih =>
    intro base u before ids h
    unfold State.sendEach at h
    split at h
    · rename_i p way
      split at h
      · rename_i t' ids' rest
        obtain ⟨rfl, rfl⟩ : t' = t ∧ u.nextId :: ids' = ids := by simpa using h
        simp only [List.foldlM_cons, way, Except.ok_bind]
        simpa using ih base _ (before ++ [u.nextId]) ids' rest
      · simp at h
    · simp at h


/-! LD. -/

@[simp] theorem lanesLeft_none (ls : List Nat) : lanesLeft ls none = ls := rfl
@[simp] theorem noAllocOf_none : noAllocOf none = [] := rfl

theorem View.reaches_nil (v : View) (s : State) (sp : Space) (need : Need) : v.reaches s sp need [] := by simp [View.reaches]
@[simp] theorem View.placed_nil (v : View) (s : State) (sp : Space) (need : Need) : v.placed s sp need [] = [] := rfl
@[simp] theorem View.cached_nil (v : View) (s : State) (sp : Space) (need : Need) : v.cached s sp need [] = s := rfl

/-- A load answers for its lanes, in their order. -/
theorem State.loadLanes_lanes (s : State) (a : Agent) (sc : Option Scope) (rs : List Ready) :
    (s.loadLanes a sc rs).2.map (·.1) = rs.map (·.lane) := by
  suffices ∀ acc : State × List (Nat × List Nat × Bool), (rs.foldl (fun acc r => ((acc.1.loadParts a sc r.parts).1,
      acc.2 ++ [(r.lane, (acc.1.loadParts a sc r.parts).2)])) acc).2.map (·.1) = acc.2.map (·.1) ++ rs.map (·.lane) from this (s, [])
  induction rs with
  | nil => simp
  | cons r rs ih => intro acc; simp [ih]

section
variable {s : State} {v : View} {h : Hdr} {scf : Bool} {acq : Option Scope} {cnt : Count} {sp : Space} {ty : Ty} {d : BitVec 8} {a : Opnd} {c : BitVec 8}

variable (hi : s.issuing v perLane (ldUses h scf cnt sp ty d a c v)) (hf : v.fresh)
include hi hf

/-- A load without a lane that executes. -/
theorem execLd_idle (hsp : sp ≠ .rm) (none_ : v.runs h scf = []) :
    execLd h scf acq cnt sp ty d a c s = .next (v.performed h.sw 8 (ldUses h scf cnt sp ty d a c v) (.plain s [] false)) := by
  obtain ⟨p, prepared, ready, -, frames, kept⟩ := View.prepare_ok (v.reaches_nil s sp .read)
  simp only [View.placed_nil, View.cached_nil] at ready kept
  simp only [execLd, beq_iff_eq, hsp, if_false]
  refine issueMem_done (lanes := 0) hi hf rfl ?_
  simp only [none_, lanesLeft_none, noAllocOf_none, List.map_nil, prepared, Except.ok_bind, ready, kept, frames]
  cases scf <;> rfl

/-- A load in a local space whose accesses reach their places. -/
theorem execLd_local (hsp : sp ≠ .rm) (some_ : v.runs h scf ≠ []) {n : Nat} {accs : List Access} (hn : n = cnt.n * ty.bytes)
    (ha : accs = (v.runs h scf).map fun l => accessOf l (v.addrOf scf sp a (dispOf sp c ty.bytes) l) n n) (reach : v.reaches s sp .read accs)
    {r : State × List (Nat × List Nat × Bool)} (hr : r = (v.cached s sp .read accs).loadLanes v.agent acq (v.placed s sp .read accs)) :
    execLd h scf acq cnt sp ty d a c s = .next (v.performed h.sw 8 (ldUses h scf cnt sp ty d a c v) {
      s := r.1, now := [], done := 0
      held := if scf then [.s d.toNat (extend64 ty ((r.2.map fun x => x.2.1).headD []))] else v.runUpds ty d (runRegs ty cnt) (r.2.map fun x => (x.1, x.2.1))
      out := some { Out.of [] with
        err := dataErr (accs.map fun x => (x.lane, x.addr)) (maskOf fun l => r.2.any fun x => x.1 == l && x.2.2) } }) := by
  obtain ⟨p, prepared, ready, -, frames, kept⟩ := View.prepare_ok reach
  have answers : r.2.map (·.1) = v.runs h scf := by
    rw [hr, State.loadLanes_lanes, ha]
    simp [View.placed, accessOf, Function.comp_def]
  have loaded : p.ready.foldl (fun acc r => ((acc.1.loadParts v.agent acq r.parts).1,
      acc.2 ++ [(r.lane, (acc.1.loadParts v.agent acq r.parts).2.1, (acc.1.loadParts v.agent acq r.parts).2.2)])) (s.keepAll v.agent p, []) = r := by
    rw [hr, ready, kept]
    rfl
  have more : accs.isEmpty = false := by simpa [ha] using some_
  clear hr
  simp only [execLd, beq_iff_eq, hsp, if_false]
  refine issueMem_done (lanes := readyMask p.ready) hi hf rfl ?_
  subst hn
  simp only [lanesLeft_none, noAllocOf_none, ← ha, prepared, Except.ok_bind, loaded, frames, more, Bool.false_and, Bool.false_eq_true, if_false]
  obtain ⟨t, vals⟩ := r
  cases scf with
  | false => rfl
  | true =>
    cases vals with
    | nil => exact absurd answers.symm some_
    | cons x xs => rfl

/-- A load in the remote space each of whose requests has a way. -/
theorem execLd_remote {n : Nat} (hn : n = cnt.n * ty.bytes) {t : State} {ids : List Nat} (hsp : sp = .rm) (open_ : v.f.xfenced = false)
    (ha : ∀ l ∈ v.runs h scf, v.inSegment .rm (v.addrOf scf .rm a 0 l) n = true ∧ v.addrOf scf .rm a 0 l % n = 0)
    (sent : s.sendEach v (v.targetDev c) false s.nextId ((v.runs h scf).map fun l => (maskOf (· == l),
      v.request (v.targetAsid c) (BitVec.ofNat 56 (v.addrOf scf .rm a 0 l)) (.read n) (acq.getD .device),
      v.remoteDst scf ty d (runRegs ty cnt) l)) = some (t, ids)) :
    execLd h scf acq cnt sp ty d a c s = .next (v.performed h.sw 8 (ldUses h scf cnt sp ty d a c v) {
      s := t, now := [], held := [], done := 0
      out := some { Out.of (if (v.runs h scf).isEmpty then [] else if scf then [.s d.toNat 0]
        else v.runUpds ty d (runRegs ty cnt) ((v.runs h scf).map fun l => (l, []))) with remote := ids, fence := acq.isSome } }) := by
  subst hsp hn
  have passes : v.checkAcc .rm ((v.runs h scf).map fun l => accessOf l (v.addrOf scf .rm a 0 l) (cnt.n * ty.bytes) (cnt.n * ty.bytes)) = .ok () :=
    View.checkAcc_ok fun x hx => by
      obtain ⟨l, hl, rfl⟩ := List.mem_map.1 hx
      simpa [accessOf, View.laneInSegment] using ha l hl
  have free : v.holdXfence = .ok () := by simp only [View.holdXfence, open_, Bool.false_eq_true, if_false]; rfl
  simp only [execLd, BEq.rfl, if_true]
  refine issueMem_done (lanes := 0) hi hf rfl ?_
  simp only [ldRemote, passes, free, Except.ok_bind, State.sendAll_of_sendEach sent]
  simp only [keptErrors, ite_self, State.holdErrors, joinErrors]
  rfl

end


/-! GATH and SCAT: the lanes that the bitmap leaves. -/

/-- The bitmap before a first issue. -/
def View.bitmapOf (v : View) (h : Hdr) (cont : Bool) (cb : BitVec 3) : Mask := if cont then v.f.cb[cb.toNat]! else ~~~(v.active h)

theorem View.bitmap_none (v : View) (h : Hdr) (cont : Bool) (cb : BitVec 3) : v.bitmap h cont cb none = v.bitmapOf h cont cb := by
  simp [View.bitmap, View.bitmapOf]

theorem withBitmap_ok {α : Type} (s : State) (v : View) (cb : BitVec 3) (m : Mask) (x : α) : withBitmap s v cb m (.ok x) = .ok x := rfl

theorem withBitmap_stop {α : Type} (s : State) (v : View) (cb : BitVec 3) (m m' : Mask) (code : Trap) :
    withBitmap (α := α) s v cb m (.error (v.stop code m')) = .error (.trap (some (s.upd v.f (.cb cb.toNat m))) (v.trapRec code m' 0 0)) := rfl

/-- With the lanes that were left every lane of P is done. -/
theorem bitmap_done (old m : Mask) : old ||| (m &&& ~~~old) = old ||| m := by
  refine BitVec.eq_of_getLsbD_eq fun l hl => ?_
  simp only [BitVec.getLsbD_or, BitVec.getLsbD_and, BitVec.getLsbD_not, hl, decide_true, Bool.true_and]
  cases old.getLsbD l <;> simp

section
variable {s : State} {v : View} {h : Hdr} {cont sx : Bool} {sp : Space} {ty : Ty} {d : BitVec 8} {a b : Opnd} {cb : BitVec 3}

/-- The lanes that a pass over the elements that are left performs. -/
theorem View.bitmapOf_done (need : Need) : v.bitmapOf h cont cb ||| readyMask (v.placed s sp need (v.elements h sx sp ty a b (v.bitmapOf h cont cb))) =
    v.bitmapOf h cont cb ||| v.active h := by
  rw [View.elements, readyMask_placed, maskOf_contains_lanesOf, bitmap_done]

section
variable (hi : s.issuing v perLane (gathUses h sp a b cb v ++ defRun (runRegs ty .one) d.toNat (v.active h))) (hf : v.fresh)
include hi hf

theorem execGath_idle (hm : v.active h = 0) : execGath h cont sx sp ty d a b cb s =
    .next (v.performed h.sw 8 (gathUses h sp a b cb v ++ defRun (runRegs ty .one) d.toNat (v.active h)) (.plain s [] false)) := by
  refine issueMem_done (lanes := 0) hi hf rfl ?_
  simp only [hm, BEq.rfl, if_true]
  rfl

theorem execGath_gathers (hm : v.active h ≠ 0) {accs : List Access} (ha : accs = v.elements h sx sp ty a b (v.bitmapOf h cont cb))
    (reach : v.reaches s sp .read accs) {r : State × List (Nat × List Nat × Bool)}
    (hr : r = (v.cached s sp .read accs).loadLanes v.agent none (v.placed s sp .read accs)) :
    execGath h cont sx sp ty d a b cb s =
      .next (v.performed h.sw 8 (gathUses h sp a b cb v ++ defRun (runRegs ty .one) d.toNat (v.active h)) {
        s := r.1, now := [.cb cb.toNat (v.bitmapOf h cont cb ||| v.active h)], done := 0
        held := v.runUpds ty d (runRegs ty .one) (r.2.map fun x => (x.1, x.2.1))
        out := some { Out.of [] with
          regs := [.cb cb.toNat], err := dataErr (accs.map fun x => (x.lane, x.addr)) (maskOf fun l => r.2.any fun x => x.1 == l && x.2.2) } }) := by
  obtain ⟨p, prepared, ready, -, frames, kept⟩ := View.prepare_ok reach
  have loaded : p.ready.foldl (fun acc r => ((acc.1.loadParts v.agent none r.parts).1,
      acc.2 ++ [(r.lane, (acc.1.loadParts v.agent none r.parts).2.1, (acc.1.loadParts v.agent none r.parts).2.2)])) (s.keepAll v.agent p, []) = r := by
    rw [hr, ready, kept]
    rfl
  have done : v.bitmapOf h cont cb ||| readyMask p.ready = v.bitmapOf h cont cb ||| v.active h := by rw [ready, ha, View.bitmapOf_done]
  have some_ : (v.active h == 0) = false := by simpa using hm
  clear hr
  refine issueMem_done (lanes := readyMask p.ready) hi hf rfl ?_
  simp only [some_, Bool.false_eq_true, if_false, View.bitmap_none, noAllocOf_none, ← ha, prepared, withBitmap_ok, Except.ok_bind, loaded, frames, done]
  rfl

end

section
variable (hi : s.issuing v perLane (gathUses h sp a b cb v ++ useRun (runRegs ty .one) d.toNat (v.active h) false)) (hf : v.fresh)
include hi hf

theorem execScat_idle (hm : v.active h = 0) : execScat h cont sx sp ty d a b cb s =
    .next (v.performed h.sw 8 (gathUses h sp a b cb v ++ useRun (runRegs ty .one) d.toNat (v.active h) false) (.plain s [] false)) := by
  refine issueMem_done (lanes := 0) hi hf rfl ?_
  simp only [hm, BEq.rfl, if_true]
  rfl

/-- A scatter to the constant space traps with the bitmap as it was at issue. -/
theorem execScat_denied {left : Mask} (hl : left = v.active h &&& ~~~v.bitmapOf h cont cb) (some_ : left ≠ 0) (hsp : sp = .ko)
    (ha : ∀ x ∈ v.elements h sx sp ty a b (v.bitmapOf h cont cb), v.inSegment sp x.addr x.len = true ∧ x.aligned = true) :
    execScat h cont sx sp ty d a b cb s =
      .next ((s.upd v.f (.cb cb.toNat (v.bitmapOf h cont cb))).traps v (v.trapRec .permission left 0 0)) := by
  subst hsp
  have active : (v.active h == 0) = false := by
    rw [beq_eq_false_iff_ne]
    rintro none_
    exact some_ (by rw [hl, none_]; simp)
  have lanes : lanesOfAcc (v.elements h sx .ko ty a b (v.bitmapOf h cont cb)) (fun _ => true) = left := by
    rw [View.elements, lanesOfAcc_true, maskOf_contains_lanesOf, hl]
  have denied := View.refuseConst_denied (lanes.symm ▸ some_) ha
  rw [lanes] at denied
  refine issueMem_traps (t := some (s.upd v.f (.cb cb.toNat (v.bitmapOf h cont cb)))) hi hf rfl ?_
  simp only [active, Bool.false_eq_true, if_false, View.bitmap_none, denied, withBitmap_stop, Except.error_bind]

theorem execScat_scatters (hm : v.active h ≠ 0) {accs : List Access} (ha : accs = v.elements h sx sp ty a b (v.bitmapOf h cont cb))
    (hsp : sp = .ko → v.active h &&& ~~~v.bitmapOf h cont cb = 0) (reach : v.reaches s sp .write accs)
    (clean : ∀ r ∈ v.placed s sp .write accs, ∀ p ∈ r.parts, s.isTagged p.1 = false) :
    execScat h cont sx sp ty d a b cb s =
      .next (v.performed h.sw 8 (gathUses h sp a b cb v ++ useRun (runRegs ty .one) d.toNat (v.active h) false) {
        s := (v.placed s sp .write accs).foldl (fun s r => s.storeParts v.agent none r.parts (v.dataWords ty (runRegs ty .one) ⟨d, false, false⟩ r.lane))
          (v.cached s sp .write accs)
        now := [.cb cb.toNat (v.bitmapOf h cont cb ||| v.active h)], held := [], out := some { Out.of [] with regs := [.cb cb.toNat] }, done := 0 }) := by
  obtain ⟨p, prepared, ready, -, frames, kept⟩ := View.prepare_ok reach
  have done : v.bitmapOf h cont cb ||| readyMask p.ready = v.bitmapOf h cont cb ||| v.active h := by rw [ready, ha, View.bitmapOf_done]
  have some_ : (v.active h == 0) = false := by simpa using hm
  have allowed : v.refuseConst sp accs = .ok () := by
    by_cases e : sp = .ko
    · rw [ha, View.elements, hsp e, lanesOf_zero]
      exact View.refuseConst_none sp
    · exact View.refuseConst_other e accs
  have untagged : v.checkTags s p.ready = .ok () := View.checkTags_clean (by rwa [ready])
  refine issueMem_done (lanes := readyMask p.ready) hi hf rfl ?_
  simp only [some_, Bool.false_eq_true, if_false, View.bitmap_none, noAllocOf_none, ← ha, allowed, prepared, untagged, withBitmap_ok, Except.ok_bind, frames, done]
  rw [ready, kept]
  rfl

end

end

end Sys2Proof.Machine

open Sys2Proof Sys2Proof.Machine

/-- Settles O27: each body after a preparation without faults, with the lanes that the bitmap leaves for GATH and SCAT. -/
theorem loadsAndGathersComplete : Obligations.LoadsAndGathersComplete := by
  unfold Obligations.LoadsAndGathersComplete
  refine ⟨?_, ?_⟩
  · intro s v h scf acq cnt sp ty d a c us n lanes hi hf
    refine ⟨fun none_ hsp => execLd_idle hi hf hsp none_, fun hsp some_ reach => execLd_local hi hf hsp some_ rfl rfl reach rfl,
      fun t ids hsp open_ ha sent => execLd_remote hi hf rfl hsp open_ ha sent⟩
  · intro s v h cont sx sp ty d a b cb m old index accs hf
    refine ⟨?_, ?_⟩
    · intro us hi
      exact ⟨execGath_idle hi hf, fun hm reach => execGath_gathers hi hf hm rfl reach rfl⟩
    · intro us hi
      exact ⟨execScat_idle hi hf, fun some_ hsp ha => execScat_denied hi hf rfl some_ hsp ha,
        fun hm hsp reach clean => execScat_scatters hi hf hm rfl hsp reach clean⟩

end

section
/-! ### Words of home memory through the key of their page (R5, R194) -/

namespace Sys2Proof.Machine

open Sys2Proof

/-! Bytes of a range that is written. -/

theorem byteAt_putBytes {m : Memory} (h : Memory.wf m = true) (a : Nat) (bs : List Byte) (c : Nat) :
    byteAt (putBytes m a bs) c = if a ≤ c ∧ c < a + bs.length then bs.getD (c - a) 0 else byteAt m c := by
  induction bs using List.reverseRecOn with
  | nil =>
    rw [if_neg (by simp)]
    rfl
  | append_singleton bs b ih =>
    have split : putBytes m a (bs ++ [b]) = putByte (putBytes m a bs) (a + bs.length) b := by
      simp [putBytes, upTo, List.range_succ, List.zip_append]
    rw [split, byteAt_putByte (putBytes_wf h a bs), ih]
    by_cases last : c = a + bs.length
    · subst last
      simp [List.getD_eq_getElem?_getD]
    · by_cases inside : a ≤ c ∧ c < a + bs.length
      · have before : c - a < bs.length := by omega
        have still : a ≤ c ∧ c < a + (bs ++ [b]).length := by simp; omega
        rw [if_neg last, if_pos inside, if_pos still, List.getD_eq_getElem?_getD, List.getD_eq_getElem?_getD, List.getElem?_append_left before]
      · have still : ¬(a ≤ c ∧ c < a + (bs ++ [b]).length) := by simp; omega
        simp only [last, inside, still, if_false]

theorem bytesAt_putBytes_within {m : Memory} (h : Memory.wf m = true) (a : Nat) (bs : List Byte) {j n : Nat} (hn : j + n ≤ bs.length) :
    bytesAt (putBytes m a bs) (a + j) n = (bs.drop j).take n := by
  refine List.ext_getElem (by simp [bytesAt, upTo]; omega) fun i hi _ => ?_
  have small : i < n := by simpa [bytesAt, upTo] using hi
  have inside : a ≤ a + j + i ∧ a + j + i < a + bs.length := by omega
  have place : a + j + i - a = j + i := by omega
  simp only [bytesAt, upTo, List.getElem_map, List.getElem_range, byteAt_putBytes h, inside, and_self, if_true, place, List.getElem_take, List.getElem_drop]
  rw [List.getD_eq_getElem?_getD, List.getElem?_eq_getElem (by omega)]
  rfl

theorem bytesAt_putBytes_apart {m : Memory} (h : Memory.wf m = true) (a : Nat) (bs : List Byte) {b n : Nat}
    (apart : b + n ≤ a ∨ a + bs.length ≤ b) : bytesAt (putBytes m a bs) b n = bytesAt m b n := by
  refine List.map_congr_left fun i hi => ?_
  have small : i < n := by simpa [upTo] using hi
  rw [byteAt_putBytes h, if_neg (by omega)]

theorem drop_leBytes (j n v : Nat) : (leBytes (j + n) v).drop j = leBytes n (v / 256 ^ j) := by
  induction j generalizing v with
  | zero => simp
  | succ j ih => rw [Nat.succ_add, leBytes, List.drop_succ_cons, ih, Nat.div_div_eq_div_mul, Nat.pow_succ' (n := j)]

theorem take_leBytes (n k v : Nat) : (leBytes (n + k) v).take n = leBytes n v := by
  induction n generalizing v with
  | zero => simp [leBytes]
  | succ n ih => rw [Nat.succ_add, leBytes, List.take_succ_cons, ih, leBytes]

/-- Bytes within a value that is written. -/
theorem valueAt_putBytes_leBytes {m : Memory} (h : Memory.wf m = true) (a j n k v : Nat) :
    valueAt (putBytes m a (leBytes (j + (n + k)) v)) (a + j) n = v / 256 ^ j % 256 ^ n := by
  rw [valueAt, bytesAt_putBytes_within h _ _ (by simp), drop_leBytes, take_leBytes, leNat_leBytes]

theorem valueAt_putBytes_apart {m : Memory} (h : Memory.wf m = true) (a : Nat) (bs : List Byte) {b n : Nat}
    (apart : b + n ≤ a ∨ a + bs.length ≤ b) : valueAt (putBytes m a bs) b n = valueAt m b n := by
  rw [valueAt, bytesAt_putBytes_apart h a bs apart, valueAt]

/-! A word, under no key. -/

section
variable {s : State} (h : Memory.wf s.mem = true)
include h

theorem State.homeWord_putHome (w : Nat) (x : Word) (p : Bool) (w' : Nat) :
    (s.putHome w x p).homeWord w' = if w' = w then x else s.homeWord w' := by
  split
  · rename_i e
    subst e
    have value := valueAt_putBytes_leBytes h (4 * w') 0 4 0 x.toNat
    simp only [Nat.zero_add, Nat.add_zero, Nat.pow_zero, Nat.div_one] at value
    simp only [State.homeWord, State.putHome, value]
    exact BitVec.eq_of_toNat_eq (by simpa using x.isLt)
  · simp only [State.homeWord, State.putHome]
    rw [valueAt_putBytes_apart h _ _ (by simp; omega)]

end

@[simp] theorem State.lockOf_putHome (s : State) (w : Nat) (x : Word) (p : Bool) (u : Nat) : (s.putHome w x p).lockOf u = s.lockOf u := rfl
@[simp] theorem State.keyAt_putHome (s : State) (w : Nat) (x : Word) (p : Bool) (k : Byte) (u : Nat) : (s.putHome w x p).keyAt k u = s.keyAt k u := rfl

/-! A unit before a write under a key. -/

@[simp] theorem State.keyAt_relock (s : State) (k : Byte) (u : Nat) (k' : Byte) (u' : Nat) : (s.relock k u).keyAt k' u' = s.keyAt k' u' := by
  unfold State.relock
  split <;> rfl

theorem State.relock_locked {s : State} {k : Byte} {u : Nat} (e : s.lockOf u = s.keyAt k u) : s.relock k u = s := by
  rw [State.relock, if_pos (beq_iff_eq.2 e)]

theorem State.relock_mem {s : State} {k : Byte} {u : Nat} (e : s.lockOf u ≠ s.keyAt k u) :
    (s.relock k u).mem = putBytes s.mem (16 * u) (leBytes 16 (s.unitAs k u).toNat) := by
  rw [State.relock, if_neg (by simpa only [beq_iff_eq] using e)]

theorem State.homeWordAs_locked {s : State} {k : Byte} {w : Nat} (e : s.lockOf (w / 4) = s.keyAt k (w / 4)) : s.homeWordAs k w = s.homeWord w := by
  rw [State.homeWordAs, if_pos (beq_iff_eq.2 e)]

theorem State.homeWordAs_unlocked {s : State} {k : Byte} {w : Nat} (e : s.lockOf (w / 4) ≠ s.keyAt k (w / 4)) :
    s.homeWordAs k w = BitVec.ofNat 32 ((s.unitAs k (w / 4)).toNat / 2 ^ (32 * (w % 4))) := by
  rw [State.homeWordAs, if_neg (by simpa only [beq_iff_eq] using e)]

theorem State.lockOf_relock_same (s : State) (k : Byte) (u : Nat) : (s.relock k u).lockOf u = s.keyAt k u := by
  unfold State.relock
  split
  · rename_i e
    simpa using e
  · simp only [State.lockOf]
    split
    · rename_i zero
      rw [aget_adel, if_pos rfl, Option.getD_none]
      exact (beq_iff_eq.1 zero).symm
    · rw [aget_aset_self, Option.getD_some]

theorem State.lockOf_relock_other (s : State) (k : Byte) {u u' : Nat} (hu : u' ≠ u) : (s.relock k u).lockOf u' = s.lockOf u' := by
  unfold State.relock
  split
  · rfl
  · simp only [State.lockOf]
    split
    · rw [aget_adel, if_neg hu]
    · rw [aget_aset_other _ _ _ hu]

/-- What a word reads as under a key depends on its unit's bytes and lock alone. -/
theorem State.homeWordAs_congr {s t : State} {k : Byte} {w : Nat} (lock : t.lockOf (w / 4) = s.lockOf (w / 4)) (key : t.keyAt k (w / 4) = s.keyAt k (w / 4))
    (bytes : valueAt t.mem (16 * (w / 4)) 16 = valueAt s.mem (16 * (w / 4)) 16) (word : t.homeWord w = s.homeWord w) : t.homeWordAs k w = s.homeWordAs k w := by
  simp only [State.homeWordAs, State.unitAs, lock, key, bytes, word]

section
variable {s : State} (h : Memory.wf s.mem = true)
include h

/-- A unit that is enciphered anew reads as before under the key. -/
theorem State.homeWordAs_relock_same (k : Byte) (w : Nat) : (s.relock k (w / 4)).homeWordAs k w = s.homeWordAs k w := by
  by_cases e : s.lockOf (w / 4) = s.keyAt k (w / 4)
  · rw [State.relock_locked e]
  · have locked : (s.relock k (w / 4)).lockOf (w / 4) = (s.relock k (w / 4)).keyAt k (w / 4) := by rw [State.lockOf_relock_same, State.keyAt_relock]
    rw [State.homeWordAs_locked locked, State.homeWordAs_unlocked e, State.homeWord, State.relock_mem e]
    generalize (s.unitAs k (w / 4)).toNat = x
    have value := valueAt_putBytes_leBytes h (16 * (w / 4)) (4 * (w % 4)) 4 (12 - 4 * (w % 4)) x
    have sixteen : 4 * (w % 4) + (4 + (12 - 4 * (w % 4))) = 16 := by omega
    have place : 16 * (w / 4) + 4 * (w % 4) = 4 * w := by omega
    have power : 256 ^ (4 * (w % 4)) = 2 ^ (32 * (w % 4)) := by rw [show 256 = 2 ^ 8 from rfl, ← Nat.pow_mul]; congr 1; omega
    rw [sixteen, place, power] at value
    rw [value]
    exact BitVec.eq_of_toNat_eq (by simp)

theorem State.homeWordAs_relock_other (k : Byte) {u : Nat} (k' : Byte) {w : Nat} (hu : w / 4 ≠ u) :
    (s.relock k u).homeWordAs k' w = s.homeWordAs k' w := by
  have bytes : ∀ b n, b + n ≤ 16 * u ∨ 16 * u + 16 ≤ b → valueAt (s.relock k u).mem b n = valueAt s.mem b n := fun b n apart => by
    by_cases e : s.lockOf u = s.keyAt k u
    · rw [State.relock_locked e]
    · rw [State.relock_mem e, valueAt_putBytes_apart h _ _ (by simpa using apart)]
  refine State.homeWordAs_congr (s.lockOf_relock_other k hu) (s.keyAt_relock ..) (bytes _ _ (by omega)) ?_
  simp only [State.homeWord]
  rw [bytes _ _ (by omega)]

/-- A unit that is enciphered anew under the key that a word of it is read under, or no word of it is read. -/
theorem State.homeWordAs_relock (k : Byte) {u : Nat} {k' : Byte} {w : Nat} (hk : w / 4 = u → k' = k) : (s.relock k u).homeWordAs k' w = s.homeWordAs k' w := by
  by_cases e : w / 4 = u
  · rw [hk e, ← e, State.homeWordAs_relock_same h]
  · exact State.homeWordAs_relock_other h k k' e

/-! A word that is written under a key. -/

theorem State.homeWordAs_putHomeAs_same (k : Byte) (w : Nat) (x : Word) (p : Bool) : (s.putHomeAs k w x p).homeWordAs k w = x := by
  have locked : (s.putHomeAs k w x p).lockOf (w / 4) = (s.putHomeAs k w x p).keyAt k (w / 4) := by
    rw [State.putHomeAs, State.lockOf_putHome, State.keyAt_putHome, State.lockOf_relock_same, State.keyAt_relock]
  rw [State.homeWordAs_locked locked, State.putHomeAs, State.homeWord_putHome (State.relock_wf h _ _), if_pos rfl]

theorem State.homeWordAs_putHomeAs_other {k : Byte} {w : Nat} (x : Word) (p : Bool) {k' : Byte} {w' : Nat} (hw : w' ≠ w) (hk : w' / 4 = w / 4 → k' = k) :
    (s.putHomeAs k w x p).homeWordAs k' w' = s.homeWordAs k' w' := by
  have wf := State.relock_wf h k (w / 4)
  rw [← State.homeWordAs_relock h k hk]
  by_cases unit : w' / 4 = w / 4
  · have locked : (s.relock k (w / 4)).lockOf (w' / 4) = (s.relock k (w / 4)).keyAt k' (w' / 4) := by
      rw [unit, hk unit, State.lockOf_relock_same, State.keyAt_relock]
    rw [State.homeWordAs_locked locked, State.putHomeAs, State.homeWordAs_locked (by exact locked), State.homeWord_putHome wf, if_neg hw]
  · refine State.homeWordAs_congr rfl rfl ?_ (by rw [State.putHomeAs, State.homeWord_putHome wf, if_neg hw])
    exact valueAt_putBytes_apart wf _ _ (by simp; omega)

end

end Sys2Proof.Machine
end

section
/-! ### Atomics (R224 to R226) -/

namespace Sys2Proof.Machine

open Sys2Proof

/-! ATOM and RED where every access reaches its place. -/

theorem foldl_collect {σ ρ α : Type} (g : σ → ρ → σ × α) (rs : List ρ) (s : σ) (l : List α) :
    rs.foldl (fun acc r => ((g acc.1 r).1, acc.2 ++ [(g acc.1 r).2])) (s, l) =
      ((rs.foldl (fun acc r => ((g acc.1 r).1, acc.2 ++ [(g acc.1 r).2])) (s, [])).1,
        l ++ (rs.foldl (fun acc r => ((g acc.1 r).1, acc.2 ++ [(g acc.1 r).2])) (s, [])).2) := by
  induction rs generalizing s l with
  | nil => simp
  | cons r rs ih =>
    simp only [List.foldl_cons]
    rw [ih, ih (g s r).1 ([] ++ [(g s r).2])]
    simp

section
variable (v : View) (op : AtomOp) (ty : Ty) (sc : Scope) (b : Opnd) (d : Nat → Nat)

/-- The atomic of one lane: the lane with the old value and whether it was in error. -/
def View.atomLane (s : State) (r : Ready) : State × Nat × Nat × Bool :=
  let x := s.atomicParts v.agent r.parts (atomBits ty / 8) sc fun old => some (atomNew op ty old (v.atomArg ty b r.lane) (d r.lane))
  (x.1, r.lane, x.2)

/-- Lanes one after another. -/
theorem View.atomLanes_cons (r : Ready) (rs : List Ready) (s : State) :
    v.atomLanes op ty sc b d (r :: rs) s = ((v.atomLanes op ty sc b d rs (v.atomLane op ty sc b d s r).1).1,
      (v.atomLane op ty sc b d s r).2 :: (v.atomLanes op ty sc b d rs (v.atomLane op ty sc b d s r).1).2) :=
  foldl_collect (v.atomLane op ty sc b d) rs (v.atomLane op ty sc b d s r).1 [(v.atomLane op ty sc b d s r).2]

/-- An atomic answers for its lanes, in their order. -/
theorem View.atomLanes_lanes (rs : List Ready) (s : State) : (v.atomLanes op ty sc b d rs s).2.map (·.1) = rs.map (·.lane) := by
  induction rs generalizing s with
  | nil => rfl
  | cons r rs ih => rw [View.atomLanes_cons, List.map_cons, List.map_cons, ih]; rfl

end

section
variable {s : State} {v : View} {h : Hdr} {op : AtomOp} {sp : Space} {ty : Ty} {sc : Scope} {ord : AtomOrd} {rel : Bool} {d : BitVec 8} {a b : Opnd}

/-- The registers that RED reads, and those that ATOM reads and writes. -/
abbrev View.redUses (v : View) (h : Hdr) (sp : Space) (ty : Ty) (a b : Opnd) : List Use :=
  useSrc false sp.wide a (v.active h) ++ useSrc false ty.is64 b (v.active h)
abbrev View.atomUses (v : View) (h : Hdr) (op : AtomOp) (sp : Space) (ty : Ty) (d : BitVec 8) (a b : Opnd) : List Use :=
  v.redUses h sp ty a b ++ (if op = .cas then useRun (runRegs ty .one) d.toNat (v.active h) false else []) ++
    defRun (runRegs ty .one) d.toNat (v.active h)

theorem View.atomAccs_none : v.atomAccs h sp ty a none =
    (lanesOf (v.active h)).map fun l => accessOf l (v.addrOf false sp a 0 l) (atomBits ty / 8) (atomBits ty / 8) := rfl

/-- An atomic on the constant space is refused. -/
theorem View.refuseConst_atom (hm : v.active h ≠ 0) (ha : ∀ l ∈ lanesOf (v.active h), v.inSegment .ko (v.addrOf false .ko a 0 l) (atomBits ty / 8) = true ∧
    v.addrOf false .ko a 0 l % (atomBits ty / 8) = 0) : v.refuseConst .ko (v.atomAccs h .ko ty a none) = .error (v.stop .permission (v.active h)) := by
  have lanes : lanesOfAcc (v.atomAccs h .ko ty a none) (fun _ => true) = v.active h := by
    rw [View.atomAccs_none, lanesOfAcc_true, maskOf_contains_lanesOf]
  have denied := View.refuseConst_denied (v := v) (lanes.symm ▸ hm) fun x hx => by
    obtain ⟨l, hl, rfl⟩ := List.mem_map.1 hx
    simpa [accessOf] using ha l hl
  rwa [lanes] at denied

section
variable (hi : s.issuing v perLane (v.atomUses h op sp ty d a b)) (hf : v.fresh)
include hi hf

theorem execAtom_idle (remote : ∀ o ∈ v.f.out, o.remote = []) (hm : v.active h = 0) :
    execAtom h op sp ty sc ord d a b s = .next (v.performed h.sw 8 (v.atomUses h op sp ty d a b) (.plain s [] false)) := by
  obtain ⟨p, prepared, ready, -, frames, kept⟩ := View.prepare_ok (v.reaches_nil s sp .both)
  have nobody : v.atomAccs h sp ty a none = [] := by rw [View.atomAccs_none, hm, lanesOf_zero, List.map_nil]
  have untagged : v.checkTags s [] = .ok () := View.checkTags_clean (by simp)
  refine issueMem_done (lanes := 0) hi hf (by simp only [beq_iff_eq]) ?_
  simp only [noAllocOf_none, nobody, View.refuseConst_none, prepared, ready, kept, frames, View.placed_nil, View.cached_nil, untagged,
    View.holdRemote_none (.inr remote), Except.ok_bind]
  rfl

theorem execAtom_denied (hsp : sp = .ko) (hm : v.active h ≠ 0) (ha : ∀ l ∈ lanesOf (v.active h),
    v.inSegment .ko (v.addrOf false .ko a 0 l) (atomBits ty / 8) = true ∧ v.addrOf false .ko a 0 l % (atomBits ty / 8) = 0) :
    execAtom h op sp ty sc ord d a b s = .next (s.traps v (v.trapRec .permission (v.active h) 0 0)) := by
  subst hsp
  refine issueMem_traps (t := none) hi hf (by simp only [beq_iff_eq]) ?_
  simp only [View.refuseConst_atom hm ha, Except.error_bind]
  rfl

variable (hsp : sp ≠ .ko) (remote : ∀ o ∈ v.f.out, o.remote = []) {accs : List Access} (haccs : accs = v.atomAccs h sp ty a none)
  (reach : v.reaches s sp .both accs) (clean : ∀ r ∈ v.placed s sp .both accs, ∀ p ∈ r.parts, s.isTagged p.1 = false)
include hsp remote haccs reach clean

theorem execAtom_atomic (hm : v.active h ≠ 0) {r : State × List (Nat × Nat × Bool)} (hr : r = v.atomLanes op ty sc b
      (fun l => (v.vval ty.is64 d.toNat l).toNat) (v.placed s sp .both accs) (v.cached s sp .both accs)) :
    execAtom h op sp ty sc ord d a b s = .next (v.performed h.sw 8 (v.atomUses h op sp ty d a b) {
      s := r.1, now := [], done := 0
      held := v.vecUpds ty.is64 d.toNat (r.2.map fun x => (x.1, BitVec.ofNat 64 x.2.1))
      out := some { Out.of [] with err := dataErr (accs.map fun x => (x.lane, x.addr)) (maskOf fun l => r.2.any fun x => x.1 == l && x.2.2) } }) := by
  obtain ⟨p, prepared, ready, -, frames, kept⟩ := View.prepare_ok reach
  have untagged : v.checkTags s p.ready = .ok () := View.checkTags_clean (by rwa [ready])
  have some_ : accs ≠ [] := by simpa [haccs, View.atomAccs_none] using lanesOf_ne_nil hm
  have answers : r.2.isEmpty = false := by
    have lanes : r.2.map (·.1) = (v.placed s sp .both accs).map (·.lane) := by rw [hr, View.atomLanes_lanes]
    cases e : r.2 with
    | nil => simp [e, View.placed, some_] at lanes
    | cons x xs => rfl
  have more : accs.isEmpty = false := by simpa using some_
  refine issueMem_done (lanes := readyMask p.ready) hi hf (by simp only [beq_iff_eq]) ?_
  simp only [noAllocOf_none, ← haccs, View.refuseConst_other hsp, prepared, untagged, View.holdRemote_none (.inr remote), Except.ok_bind]
  simp only [ready, kept, ← hr, frames, answers, more, Bool.false_and, Bool.false_eq_true, if_false]
  rfl

end

section
variable (hi : s.issuing v perLane (v.redUses h sp ty a b)) (hf : v.fresh)
include hi hf

theorem execRed_denied (hsp : sp = .ko) (hm : v.active h ≠ 0) (ha : ∀ l ∈ lanesOf (v.active h),
    v.inSegment .ko (v.addrOf false .ko a 0 l) (atomBits ty / 8) = true ∧ v.addrOf false .ko a 0 l % (atomBits ty / 8) = 0) :
    execRed h op sp ty sc rel a b s = .next (s.traps v (v.trapRec .permission (v.active h) 0 0)) := by
  subst hsp
  refine issueMem_traps (t := none) hi hf rfl ?_
  simp only [View.refuseConst_atom hm ha, Except.error_bind]
  rfl

/-- RED raises an error for the lanes whose home answers with errors. -/
theorem execRed_atomic (hsp : sp ≠ .ko) (remote : ∀ o ∈ v.f.out, o.remote = []) {accs : List Access} (haccs : accs = v.atomAccs h sp ty a none)
    (reach : v.reaches s sp .both accs) (clean : ∀ r ∈ v.placed s sp .both accs, ∀ p ∈ r.parts, s.isTagged p.1 = false)
    {r : State × List (Nat × Nat × Bool)} (hr : r = v.atomLanes op ty sc b (fun _ => 0) (v.placed s sp .both accs) (v.cached s sp .both accs)) :
    execRed h op sp ty sc rel a b s = .next (v.performed h.sw 8 (v.redUses h sp ty a b) {
      s := r.1, now := [], held := [], done := 0
      out := (dataErr (accs.map fun x => (x.lane, x.addr)) (r.1.goneLanes (v.placed s sp .both accs)
        (maskOf fun l => r.2.any fun x => x.1 == l && x.2.2))).map fun t => { Out.of [] with err := some t } }) := by
  obtain ⟨p, prepared, ready, -, frames, kept⟩ := View.prepare_ok reach
  have untagged : v.checkTags s p.ready = .ok () := View.checkTags_clean (by rwa [ready])
  refine issueMem_done (lanes := readyMask p.ready) hi hf rfl ?_
  simp only [noAllocOf_none, ← haccs, View.refuseConst_other hsp, prepared, untagged, View.holdRemote_none (.inr remote), Except.ok_bind]
  simp only [ready, kept, ← hr, frames]
  rfl

end

end

/-! An addition at a home word that no cache of the agent holds dirty. -/

theorem State.copy?_eq_some {s : State} {p : CopyAt} {w : Nat} {c : Copy} (h : s.copy? p w = some c) : c ∈ s.copies ∧ c.pos = p ∧ c.word = w := by
  have at_ := List.find?_some h
  simp only [Bool.and_eq_true, beq_iff_eq] at at_
  exact ⟨List.mem_of_find?_eq_some h, at_⟩

section
variable {s : State} {w : Nat}

/-- A word that a cache does not hold dirty stays where it is. -/
theorem State.throughL1_clean {a : Agent} (h : ∀ c, s.copy? (.l1 a.core) w = some c → c.dirty = false) : s.throughL1 a w = s := by
  unfold State.throughL1
  split
  · rename_i c found
    simp [h c found]
  · rfl

theorem State.throughDc_clean {die : Nat} (h : ∀ c, s.copy? (.dc die) w = some c → c.dirty = false) : s.throughDc die w = s := by
  have word : s.throughDcWord die w = s := by
    unfold State.throughDcWord
    split
    · rename_i c found
      simp [h c found]
    · rfl
  have noBlock : ([w].filterMap fun w => (s.copy? (.dc die) w).bind fun c =>
      if c.dirty && c.cp && !s.gone (some c.home) (4 * w) then some (c.home, w / 64) else none) = [] := by
    cases found : s.copy? (.dc die) w with
    | none => simp [found]
    | some c => simp [found, h c found]
  simp only [State.throughDc, State.throughDcs, noBlock, List.foldl_cons, List.foldl_nil, word]

theorem State.countReads_is (s : State) (ms : List Mapped) : ∃ cmp, s.countReads ms = { s with cmp := cmp } := by
  unfold State.countReads
  generalize blocksOf _ = bs
  induction bs generalizing s with
  | nil => exact ⟨s.cmp, rfl⟩
  | cons b bs ih => exact ih (s.readBlock b.1 (256 * b.2)).1

theorem State.packed_lt (s : State) (b : Nat) : (s.packed b).toNat < 9 := by
  unfold State.packed
  split
  · decide
  · rw [BitVec.toNat_ofNat]
    omega

/-- A home word that an agent's atomics of device scope act on: it is there, sound, and no cache of the agent holds it dirty. -/
structure State.PlainHome (s : State) (a : Agent) (m : Mapped) : Prop where
  canonical : Memory.wf s.mem = true
  there : s.gone (some m.die) m.pa = false
  sound : s.poison.contains (m.pa / 4) = false
  code : m.cp = true → (s.codeOf (m.pa / 256)).toNat < 9
  clean : ∀ c ∈ s.copies, c.word = m.pa / 4 → c.dirty = true → c.pos ≠ .l1 a.core ∧ c.pos ≠ .dc a.die

variable {a : Agent} {m : Mapped}

/-- It is read at home. -/
theorem State.PlainHome.valueAtLevel (h : s.PlainHome a m) : s.valueAtLevel a .home m = (s, s.homeWordAs m.key (m.pa / 4), false) := by
  have clean : ∀ p, p = .l1 a.core ∨ p = .dc a.die → ∀ c, s.copy? p (m.pa / 4) = some c → c.dirty = false := fun p hp c found => by
    obtain ⟨here, pos, word⟩ := State.copy?_eq_some found
    cases dirty : c.dirty with
    | false => rfl
    | true =>
      obtain ⟨noL1, noDc⟩ := h.clean c here word dirty
      rcases hp with rfl | rfl
      · exact absurd pos noL1
      · exact absurd pos noDc
  have stays : s.through a .home (m.pa / 4) = s := by
    simp only [State.through, State.throughL1_clean (clean _ (.inl rfl)), State.throughDc_clean (clean _ (.inr rfl))]
  have coded : (m.cp && decide (9 ≤ (s.codeOf (m.pa / 256)).toNat)) = false := by
    cases e : m.cp with
    | false => rfl
    | true => simpa using h.code e
  simp only [State.valueAtLevel, stays, State.readHome, h.there, h.sound, coded, Bool.false_eq_true, if_false, Bool.or_self]

theorem State.countWrites_one (there : s.gone (some m.die) m.pa = false) :
    s.countWrites [m] = if m.cp then s.writeBlock m.die (256 * (m.pa / 256)) else s := by
  cases e : m.cp <;> simp [State.countWrites, there, blocksOf, e, addOnce]

/-- What a replica of a word that is written at home becomes (R207). -/
def Copy.replica (w : Nat) (x : Word) (p : Bool) (c : Copy) : Copy := if c.word == w && c.repl && !c.dirty then { c with val := x, poison := p } else c

theorem State.relock_is (s : State) (k : Byte) (u : Nat) : ∃ mem locks, s.relock k u = { s with mem := mem, locks := locks } := by
  unfold State.relock
  split
  · exact ⟨s.mem, s.locks, rfl⟩
  · exact ⟨_, _, rfl⟩

theorem State.putHomeAs_is (s : State) (k : Byte) (w : Nat) (x : Word) (p : Bool) : ∃ mem locks, s.putHomeAs k w x p =
    { s with mem := mem, locks := locks, poison := mark p s.poison w, copies := s.copies.map (Copy.replica w x p) } := by
  obtain ⟨mem, locks, e⟩ := s.relock_is k (w / 4)
  rw [State.putHomeAs, e]
  exact ⟨_, _, rfl⟩

/-- A copy as an access at home leaves it is dirty only where it was. -/
theorem State.clean_rmwWord {c : Copy} {x : Word} (hc : c ∈ (s.rmwWord a .home m x).copies) :
    ∃ y ∈ s.copies, c.pos = y.pos ∧ c.word = y.word ∧ (c.dirty = true → y.dirty = true) := by
  obtain ⟨mem, locks, e⟩ := s.putHomeAs_is m.key (m.pa / 4) x false
  simp only [State.rmwWord, e, State.settleCopies, List.map_map, List.mem_map, Function.comp_apply] at hc
  obtain ⟨y, hy, rfl⟩ := hc
  refine ⟨y, hy, ?_⟩
  unfold Copy.replica
  split <;> split <;> simp

/-- The write of an atomic at home, and of the code of its block. -/
theorem State.PlainHome.rmwWord (h : s.PlainHome a m) (x : Word) :
    ((s.rmwWord a .home m x).atHome .home true [m]).PlainHome a m ∧ ((s.rmwWord a .home m x).atHome .home true [m]).homeWordAs m.key (m.pa / 4) = x := by
  obtain ⟨mem, locks, e⟩ := s.putHomeAs_is m.key (m.pa / 4) x false
  have there : (s.rmwWord a .home m x).gone (some m.die) m.pa = false := by
    simp only [State.rmwWord, e]
    exact h.there
  have sound : (s.rmwWord a .home m x).poison.contains (m.pa / 4) = false := by
    simp only [State.rmwWord, e]
    simp [State.settleCopies, mark]
  have block : 256 * (m.pa / 256) / 256 = m.pa / 256 := by omega
  have counted : (s.rmwWord a .home m x).atHome .home true [m] = if m.cp then (s.rmwWord a .home m x).writeBlock m.die (256 * (m.pa / 256)) else
      s.rmwWord a .home m x := State.countWrites_one there
  have written : (s.rmwWord a .home m x).homeWordAs m.key (m.pa / 4) = x := State.homeWordAs_putHomeAs_same h.canonical m.key (m.pa / 4) x false
  have canonical : Memory.wf (s.rmwWord a .home m x).mem = true := State.putHomeAs_wf h.canonical m.key (m.pa / 4) x false
  have clean : ∀ c ∈ (s.rmwWord a .home m x).copies, c.word = m.pa / 4 → c.dirty = true → c.pos ≠ .l1 a.core ∧ c.pos ≠ .dc a.die :=
      fun c hc word dirty => by
    obtain ⟨y, hy, pos, same, was⟩ := State.clean_rmwWord hc
    exact pos ▸ h.clean y hy (same ▸ word) (was dirty)
  rw [counted]
  cases cp : m.cp with
  | false => exact ⟨⟨canonical, there, sound, fun e => absurd (cp.symm.trans e) (by simp), clean⟩, written⟩
  | true =>
    refine ⟨⟨canonical, there, sound, fun _ => ?_, clean⟩, written⟩
    have coded : (State.writeBlock (s.rmwWord a .home m x) m.die (256 * (m.pa / 256))).codeOf (m.pa / 256) = (s.rmwWord a .home m x).packed (m.pa / 256) := by
      simp only [State.codeOf, State.writeBlock, State.modCmp, block, aget_aset_self, Option.getD_some]
    rw [if_pos rfl, coded]
    exact State.packed_lt _ _

/-- One atomic on it. -/
theorem State.PlainHome.atomicParts (h : s.PlainHome a m) (hms : m.ms = false) {f : Nat → Option Nat} {x : Nat}
    (hx : f (s.homeWordAs m.key (m.pa / 4)).toNat = some x) :
    ∃ t, s.atomicParts a [(.mem m, 4)] 4 .device f = (t, (s.homeWordAs m.key (m.pa / 4)).toNat, false) ∧ t.PlainHome a m ∧
      t.homeWordAs m.key (m.pa / 4) = BitVec.ofNat 32 x := by
  obtain ⟨cmp, counted⟩ := s.countReads_is [m]
  have still : ({ s with cmp := cmp } : State).PlainHome a m := ⟨h.canonical, h.there, h.sound, h.code, h.clean⟩
  have level : atomLevel m .device = .home := by simp [atomLevel, levelOf]
  have base : s.forBase .home m = s := by simp [State.forBase, hms]
  have reads : s.atHome .home false [m] = { s with cmp := cmp } := counted
  obtain ⟨kept, value⟩ := still.rmwWord (BitVec.ofNat 32 x)
  refine ⟨_, ?_, kept, value⟩
  simp [State.atomicParts, State.atomic, State.atomicWords, level, base, h.valueAtLevel, reads, hx]

end

/-- The sum of what the first `k` lanes add. -/
def View.sumOf (v : View) (b : Opnd) (ls : List Nat) (k : Nat) : Nat := ((ls.take k).map fun l => (v.src false .n32 b l).toNat).sum

theorem View.sumOf_zero (v : View) (b : Opnd) (ls : List Nat) : v.sumOf b ls 0 = 0 := by simp [View.sumOf]
theorem View.sumOf_succ (v : View) (b : Opnd) (l : Nat) (ls : List Nat) (k : Nat) :
    v.sumOf b (l :: ls) (k + 1) = (v.src false .n32 b l).toNat + v.sumOf b ls k := by simp [View.sumOf]

/-- Lanes that add to one home word, in order: each finds the sum of those before it. -/
theorem View.atomLanes_add {v : View} {m : Mapped} {b : Opnd} (addr : Nat → Nat) (hms : m.ms = false) (ls : List Nat) {s : State} (h : s.PlainHome v.agent m)
    {r : State × List (Nat × Nat × Bool)} (hr : r = v.atomLanes .add .n32 .device b (fun _ => 0) (ls.map fun l => ⟨l, addr l, [(.mem m, 4)]⟩) s) :
    r.2.map (fun x => x.2.1) = (List.range ls.length).map (fun k => ((s.homeWordAs m.key (m.pa / 4)).toNat + v.sumOf b ls k) % 2 ^ 32) ∧
      (r.1.homeWordAs m.key (m.pa / 4)).toNat = ((s.homeWordAs m.key (m.pa / 4)).toNat + v.sumOf b ls ls.length) % 2 ^ 32 := by
  have small := (s.homeWordAs m.key (m.pa / 4)).isLt
  induction ls generalizing s r with
  | nil =>
    subst hr
    exact ⟨rfl, by simpa [View.atomLanes, View.sumOf] using (Nat.mod_eq_of_lt small).symm⟩
  | cons l ls ih =>
    obtain ⟨t, first, kept, value⟩ := h.atomicParts hms (f := fun old => some (atomNew .add .n32 old (v.atomArg .n32 b l) 0)) rfl
    obtain ⟨olds, last⟩ := ih kept rfl (t.homeWordAs m.key (m.pa / 4)).isLt
    have added : (t.homeWordAs m.key (m.pa / 4)).toNat = ((s.homeWordAs m.key (m.pa / 4)).toNat + (v.src false .n32 b l).toNat) % 2 ^ 32 := by
      rw [value, BitVec.toNat_ofNat, show atomNew .add .n32 (s.homeWordAs m.key (m.pa / 4)).toNat (v.atomArg .n32 b l) 0 =
        ((s.homeWordAs m.key (m.pa / 4)).toNat + (v.src false .n32 b l).toNat) % 2 ^ 32 from rfl, Nat.mod_mod]
    have lane : v.atomLane .add .n32 .device b (fun _ => 0) s ⟨l, addr l, [(.mem m, 4)]⟩ = (t, l, (s.homeWordAs m.key (m.pa / 4)).toNat, false) :=
      congrArg (fun x : State × Nat × Bool => (x.1, l, x.2)) first
    rw [List.map_cons, View.atomLanes_cons, lane] at hr
    subst hr
    constructor
    · rw [List.map_cons, olds, List.length_cons, List.range_succ_eq_map, List.map_cons, View.sumOf_zero, Nat.add_zero, Nat.mod_eq_of_lt small, List.map_map]
      refine congrArg _ (List.map_congr_left fun k _ => ?_)
      rw [added, Function.comp_apply, View.sumOf_succ, Nat.mod_add_mod, Nat.add_assoc]
    · rw [last, added, List.length_cons, View.sumOf_succ, Nat.mod_add_mod, Nat.add_assoc]

end Sys2Proof.Machine

open Sys2Proof Sys2Proof.Machine

/-- Settles O30: each body after a preparation without faults, and one addition at a home word that no cache of the agent holds dirty, lane after lane. -/
theorem atomicsApplyInLaneOrder : Obligations.AtomicsApplyInLaneOrder := by
  unfold Obligations.AtomicsApplyInLaneOrder
  refine ⟨?_, ?_, ?_⟩
  · intro s v h op sp ty sc ord rel d a b m n accs rs src hf reach clean hsp remote
    refine ⟨?_, ?_⟩
    · intro us r bad hi
      exact ⟨execAtom_idle hi hf remote, fun hm => execAtom_atomic hi hf hsp remote rfl reach clean hm rfl⟩
    · intro r lost hi
      exact execRed_atomic hi hf hsp remote rfl reach clean rfl
  · intro s v h op ty sc ord rel d a b m src hf hm ha
    exact ⟨fun hi => execAtom_denied hi hf rfl hm ha, fun hi => execRed_denied hi hf rfl hm ha⟩
  · intro s v m b ls addr canonical _ hms there sound code clean
    exact View.atomLanes_add addr hms ls ⟨canonical, there, sound, code, clean⟩ rfl

end

section
/-! ### What the caches do by themselves: lines that give way and words that are written through (R22, R31, R234, R235) -/

namespace Sys2Proof.Machine

open Sys2Proof

/-! The copies after one change. -/

section
variable {s : State} {c x : Copy} {p : CopyAt} {w : Nat}

theorem State.copy?_isSome_of_mem (hx : x ∈ s.copies) (pos : x.pos = p) (word : x.word = w) : ∃ c, s.copy? p w = some c := by
  rw [← Option.isSome_iff_exists, State.copy?, List.find?_isSome]
  exact ⟨x, hx, by simp [pos, word]⟩

theorem State.copy?_eq_none : s.copy? p w = none ↔ ∀ x ∈ s.copies, ¬(x.pos = p ∧ x.word = w) := by
  simp [State.copy?, List.find?_eq_none]

/-- A copy that joins a cache takes the place of the copies of its word that the cache held. -/
theorem State.mem_putCopy_iff (s : State) (c x : Copy) : x ∈ (s.putCopy c).copies ↔ x = c ∨ x ∈ s.copies ∧ ¬(x.pos = c.pos ∧ x.word = c.word) := by
  simp only [State.putCopy]
  split
  · rename_i held
    obtain ⟨y, found⟩ := Option.isSome_iff_exists.1 held
    obtain ⟨hy, pos, word⟩ := State.copy?_eq_some found
    rw [List.mem_map]
    constructor
    · rintro ⟨z, hz, rfl⟩
      by_cases e : z.pos = c.pos ∧ z.word = c.word
      · simp [e]
      · rw [if_neg (by simpa using e)]
        exact .inr ⟨hz, e⟩
    · rintro (rfl | ⟨hx, e⟩)
      · exact ⟨y, hy, by simp [pos, word]⟩
      · exact ⟨x, hx, by rw [if_neg (by simpa using e)]⟩
  · rename_i absent
    have none_ : s.copy? c.pos c.word = none := by simpa using absent
    rw [List.mem_append, List.mem_singleton, or_comm]
    exact or_congr_right ⟨fun hx => ⟨hx, State.copy?_eq_none.1 none_ x hx⟩, And.left⟩

theorem State.copy?_putCopy_same (s : State) (c : Copy) : (s.putCopy c).copy? c.pos c.word = some c := by
  obtain ⟨y, found⟩ := State.copy?_isSome_of_mem ((s.mem_putCopy_iff c c).2 (.inl rfl)) rfl rfl
  obtain ⟨hy, pos, word⟩ := State.copy?_eq_some found
  rcases (s.mem_putCopy_iff c y).1 hy with rfl | ⟨-, apart⟩
  · exact found
  · exact absurd ⟨pos, word⟩ apart

theorem State.copy?_putCopy_other (apart : ¬(p = c.pos ∧ w = c.word)) : (s.putCopy c).copy? p w = s.copy? p w := by
  have miss : (c.pos == p && c.word == w) = false := by
    by_cases e : c.pos = p
    · have other : c.word ≠ w := fun e' => apart ⟨e.symm, e'.symm⟩
      simp [other]
    · simp [e]
  unfold State.putCopy
  split
  · unfold State.copy?
    refine find_map_other (fun x : Copy => x.pos == c.pos && x.word == c.word) _ (fun _ => c) (fun x hx => ?_) s.copies
    have at_ : x.pos = c.pos ∧ x.word = c.word := by simpa using hx
    rw [at_.1, at_.2]
    exact ⟨miss, miss⟩
  · simp [State.copy?, List.find?_append, miss]

/-- A copy whose word the next level has received. -/
def Copy.cleaned (c : Copy) : Copy := { c with dirty := false }

@[simp] theorem Copy.pos_cleaned (c : Copy) : c.cleaned.pos = c.pos := rfl
@[simp] theorem Copy.word_cleaned (c : Copy) : c.cleaned.word = c.word := rfl
@[simp] theorem Copy.isDirty_cleaned (c : Copy) : c.cleaned.dirty = false := rfl

/-- A change of copies that leaves them where they are. -/
theorem State.copy?_map {t : State} {f : Copy → Copy} (copies : t.copies = s.copies.map f)
    (hf : ∀ x, (f x).pos = x.pos ∧ (f x).word = x.word) (p : CopyAt) (w : Nat) :
    t.copy? p w = (s.copy? p w).map f := by
  simp only [State.copy?, copies, List.find?_map]
  congr 2
  funext x
  simp [hf x]

theorem State.copy?_filter {t : State} {f : Copy → Bool} (copies : t.copies = s.copies.filter f) (keep : ∀ x, x.pos = p → x.word = w → f x = true) :
    t.copy? p w = s.copy? p w := by
  simp only [State.copy?, copies, List.find?_filter]
  congr 1
  funext x
  by_cases e : x.pos = p ∧ x.word = w
  · simp [e, keep x e.1 e.2]
  · have miss : (x.pos == p && x.word == w) = false := by simpa using e
    simp [miss]

section
variable (w : Nat) (v : Word) (b : Bool) (x : Copy)

theorem Copy.replica_is : ∃ val poison, x.replica w v b = { x with val := val, poison := poison } := by
  unfold Copy.replica
  split
  · exact ⟨v, b, rfl⟩
  · exact ⟨x.val, x.poison, rfl⟩

@[simp] theorem Copy.pos_replica : (x.replica w v b).pos = x.pos := by obtain ⟨_, _, e⟩ := x.replica_is w v b; rw [e]
@[simp] theorem Copy.word_replica : (x.replica w v b).word = x.word := by obtain ⟨_, _, e⟩ := x.replica_is w v b; rw [e]
@[simp] theorem Copy.isDirty_replica : (x.replica w v b).dirty = x.dirty := by obtain ⟨_, _, e⟩ := x.replica_is w v b; rw [e]
@[simp] theorem Copy.repl_replica : (x.replica w v b).repl = x.repl := by obtain ⟨_, _, e⟩ := x.replica_is w v b; rw [e]

end

theorem Copy.replica_dirty {v : Word} {b : Bool} (h : x.dirty = true) : x.replica w v b = x := by simp [Copy.replica, h]
theorem Copy.replica_other {v : Word} {b : Bool} (h : x.word ≠ w) : x.replica w v b = x := by simp [Copy.replica, h]

theorem State.putHomeAs_copies (s : State) (k : Byte) (w : Nat) (v : Word) (b : Bool) : (s.putHomeAs k w v b).copies = s.copies.map (Copy.replica w v b) := by
  obtain ⟨mem, locks, e⟩ := s.putHomeAs_is k w v b
  rw [e]

theorem State.copy?_putHomeAs (s : State) (k : Byte) (w : Nat) (v : Word) (b : Bool) (p : CopyAt) (w' : Nat) :
    (s.putHomeAs k w v b).copy? p w' = (s.copy? p w').map (Copy.replica w v b) :=
  State.copy?_map (s.putHomeAs_copies k w v b) (fun x => ⟨x.pos_replica w v b, x.word_replica w v b⟩) p w'

end

/-! The parts of the state that no cache touches. -/

/-- What decides which homes answer and what room the caches have is the same in two states. -/
structure State.CacheFrame (s t : State) : Prop where
  dies : t.dies = s.dies
  pdies : t.pdies = s.pdies
  teams : t.teams = s.teams
  clusters : t.clusters = s.clusters

namespace State.CacheFrame

variable {s t u : State}

theorem refl (s : State) : s.CacheFrame s := ⟨rfl, rfl, rfl, rfl⟩

theorem trans (h : s.CacheFrame t) (h' : t.CacheFrame u) : s.CacheFrame u :=
  ⟨h'.dies.trans h.dies, h'.pdies.trans h.pdies, h'.teams.trans h.teams, h'.clusters.trans h.clusters⟩

theorem gone (h : s.CacheFrame t) (die : Option Nat) (pa : Nat) : t.gone die pa = s.gone die pa := by
  unfold State.gone
  rw [h.dies, h.pdies]

theorem linesFor (h : s.CacheFrame t) (p : CopyAt) : t.linesFor p = s.linesFor p := by
  unfold State.linesFor State.coreTeams
  rw [h.teams, h.clusters]

theorem putCopy (s : State) (c : Copy) : s.CacheFrame (s.putCopy c) := ⟨rfl, rfl, rfl, rfl⟩

theorem filter (s : State) (f : Copy → Bool) : s.CacheFrame { s with copies := s.copies.filter f } := ⟨rfl, rfl, rfl, rfl⟩

theorem contextError (s : State) (a : BitVec 16) (pa : Nat) : s.CacheFrame (s.contextError a pa) := by
  unfold State.contextError State.note State.modCtx
  exact ⟨rfl, rfl, rfl, rfl⟩

theorem putHomeAs (s : State) (k : Byte) (w : Nat) (x : Word) (p : Bool) : s.CacheFrame (s.putHomeAs k w x p) := by
  obtain ⟨mem, locks, e⟩ := s.putHomeAs_is k w x p
  rw [e]
  exact ⟨rfl, rfl, rfl, rfl⟩

end State.CacheFrame

/-! What a die cache does to make room, one change at a time. -/

/-- A change that a die cache makes by itself: a dirty word that it shows goes home or is lost with its home (R235, R466), the code of a block is
written (R208), or a line none of whose words it shows dirty is dropped. -/
inductive State.DcStep (die : Nat) (s : State) : State → Prop
  | home {c : Copy} (shown : s.copy? (.dc die) c.word = some c) (dirty : c.dirty = true) (there : s.gone (some c.home) (4 * c.word) = false) :
    DcStep die s ((s.putCopy c.cleaned).putHomeAs c.key c.word c.val c.poison)
  | lost {c : Copy} (shown : s.copy? (.dc die) c.word = some c) (dirty : c.dirty = true) (gone : s.gone (some c.home) (4 * c.word) = true) :
    DcStep die s (({ s with copies := s.copies.filter fun x => !(x.pos == c.pos && x.word == c.word) } : State).contextError c.asid (4 * c.word))
  | block (d pa : Nat) : DcStep die s (s.writeBlock d pa)
  | drop (line : Nat) (clean : ∀ c w, w / 32 = line → s.copy? (.dc die) w = some c → c.dirty = false) :
    DcStep die s { s with copies := s.copies.filter fun c => !(c.pos == .dc die && c.word / 32 == line) }

theorem State.mem_contextError (s : State) (a : BitVec 16) (pa : Nat) : (s.contextError a pa).mem = s.mem := by
  unfold State.contextError State.note State.modCtx
  rfl

/-- A copy that is still dirty when another has gone home. -/
theorem State.mem_of_dirty_home {s : State} {c x : Copy} {k : Byte} {w : Nat} {v : Word} {p : Bool} (hx : x ∈ ((s.putCopy c.cleaned).putHomeAs k w v p).copies)
    (dirty : x.dirty = true) : x ∈ s.copies ∧ ¬(x.pos = c.pos ∧ x.word = c.word) := by
  rw [State.putHomeAs_copies] at hx
  obtain ⟨y, hy, rfl⟩ := List.mem_map.1 hx
  rw [Copy.isDirty_replica] at dirty
  rw [Copy.replica_dirty dirty]
  rcases (s.mem_putCopy_iff c.cleaned y).1 hy with e | h
  · exact absurd dirty (by rw [e]; simp)
  · exact h

/-- Changes of a die cache one after another. -/
abbrev State.DcSteps (die : Nat) : State → State → Prop := Relation.ReflTransGen (State.DcStep die)

namespace State.DcStep

variable {die : Nat} {s t : State}

theorem frame (h : State.DcStep die s t) : s.CacheFrame t := by
  cases h with
  | home _ _ _ => exact .trans (.putCopy _ _) (.putHomeAs _ _ _ _ _)
  | lost _ _ _ => exact (CacheFrame.filter s _).trans (.contextError _ _ _)
  | block d pa => exact ⟨rfl, rfl, rfl, rfl⟩
  | drop line clean => exact ⟨rfl, rfl, rfl, rfl⟩

theorem canonical (h : State.DcStep die s t) (wf : Memory.wf s.mem = true) : Memory.wf t.mem = true := by
  cases h with
  | home _ _ _ => exact State.putHomeAs_wf (s := s.putCopy _) wf _ _ _ _
  | lost _ _ _ => rwa [State.mem_contextError]
  | block d pa => rwa [State.writeBlock_mem]
  | drop line clean => exact wf

/-- A copy that is dirty afterwards was there before. -/
theorem dirty_mem (h : State.DcStep die s t) {x : Copy} (hx : x ∈ t.copies) (dirty : x.dirty = true) : x ∈ s.copies := by
  cases h with
  | @home c _ _ _ => exact (State.mem_of_dirty_home hx dirty).1
  | lost _ _ _ => exact (List.mem_filter.1 hx).1
  | block d pa => exact hx
  | drop line clean => exact (List.mem_filter.1 hx).1

/-- Elsewhere than in the die cache the copies stay, but for the values of clean replicas. -/
theorem copy?_elsewhere (h : State.DcStep die s t) {p : CopyAt} (hp : p ≠ .dc die) (w : Nat) :
    (s.copy? p w = none → t.copy? p w = none) ∧ ∀ c, s.copy? p w = some c → c.dirty = true → t.copy? p w = some c := by
  suffices ∃ f : Copy → Copy, (∀ c, c.dirty = true → f c = c) ∧ t.copy? p w = (s.copy? p w).map f by
    obtain ⟨f, keeps, e⟩ := this
    exact ⟨fun none_ => by rw [e, none_]; rfl, fun c some_ dirty => by rw [e, some_, Option.map_some, keeps c dirty]⟩
  cases h with
  | @home c shown _ _ =>
    obtain ⟨-, pos, -⟩ := State.copy?_eq_some shown
    refine ⟨Copy.replica c.word c.val c.poison, fun c dirty => Copy.replica_dirty dirty, ?_⟩
    rw [State.copy?_putHomeAs, State.copy?_putCopy_other (c := c.cleaned) fun e => hp (e.1.trans pos)]
  | @lost c shown _ _ =>
    obtain ⟨-, pos, -⟩ := State.copy?_eq_some shown
    refine ⟨id, fun _ _ => rfl, ?_⟩
    rw [Option.map_id, id]
    refine State.copy?_filter (f := fun x => !(x.pos == c.pos && x.word == c.word)) rfl fun x at_ _ => ?_
    simp [at_, pos, hp]
  | block d pa => exact ⟨id, fun _ _ => rfl, by rw [Option.map_id]; rfl⟩
  | drop line clean =>
    refine ⟨id, fun _ _ => rfl, ?_⟩
    rw [Option.map_id, id]
    refine State.copy?_filter (f := fun c => !(c.pos == .dc die && c.word / 32 == line)) rfl fun x at_ _ => ?_
    simp [at_, hp]

end State.DcStep

theorem State.DcSteps.induct {die : Nat} {s t : State} {P : State → Prop} (h : State.DcSteps die s t)
    (step : ∀ s t, State.DcStep die s t → P s → P t) (start : P s) :
    P t := by
  induction h with
  | refl => exact start
  | tail _ last ih => exact step _ _ last ih

namespace State.DcSteps

variable {die : Nat} {s t : State} (h : State.DcSteps die s t)
include h

theorem frame : s.CacheFrame t := h.induct (P := s.CacheFrame) (fun _ _ step before => before.trans step.frame) (.refl s)

theorem canonical (wf : Memory.wf s.mem = true) : Memory.wf t.mem = true := h.induct (P := fun t => Memory.wf t.mem = true) (fun _ _ step wf => step.canonical wf) wf

theorem dirty_mem {x : Copy} (hx : x ∈ t.copies) (dirty : x.dirty = true) : x ∈ s.copies :=
  h.induct (P := fun t => ∀ x ∈ t.copies, x.dirty = true → x ∈ s.copies) (fun _ _ step before x hx dirty => before x (step.dirty_mem hx dirty) dirty)
    (fun _ hx _ => hx) x hx dirty

theorem copy?_elsewhere {p : CopyAt} (hp : p ≠ .dc die) (w : Nat) :
    (s.copy? p w = none → t.copy? p w = none) ∧ ∀ c, s.copy? p w = some c → c.dirty = true → t.copy? p w = some c :=
  h.induct (P := fun t => (s.copy? p w = none → t.copy? p w = none) ∧ ∀ c, s.copy? p w = some c → c.dirty = true → t.copy? p w = some c)
    (fun _ _ step before => ⟨fun none_ => (step.copy?_elsewhere hp w).1 (before.1 none_),
      fun c some_ dirty => (step.copy?_elsewhere hp w).2 c (before.2 c some_ dirty) dirty⟩)
    ⟨id, fun _ some_ _ => some_⟩

end State.DcSteps

/-! The operations of a die cache as such changes. -/

theorem State.throughDcWord_steps (s : State) (die w : Nat) : State.DcSteps die s (s.throughDcWord die w) := by
  unfold State.throughDcWord
  split
  · rename_i c shown
    obtain ⟨-, -, rfl⟩ := State.copy?_eq_some shown
    split
    · rename_i dirty
      split
      · rename_i gone
        exact .single (.lost shown dirty gone)
      · rename_i there
        exact .single (.home shown dirty (by simpa using there))
    · exact .refl
  · exact .refl

theorem State.foldl_steps {α : Type} {die : Nat} {f : State → α → State} (hf : ∀ s x, State.DcSteps die s (f s x)) (l : List α) (s : State) :
    State.DcSteps die s (l.foldl f s) := by
  induction l generalizing s with
  | nil => exact .refl
  | cons x xs ih => exact (hf s x).trans (ih _)

theorem State.writeBlocks_steps (die : Nat) (bs : List (Nat × Nat)) (s : State) :
    State.DcSteps die s (bs.foldl (fun s b => s.writeBlock b.1 (256 * b.2)) s) := 
  State.foldl_steps (fun _ b => .single (.block b.1 (256 * b.2))) bs s

theorem State.throughDcs_steps (s : State) (die : Nat) (ws : List Nat) : State.DcSteps die s (s.throughDcs die ws) :=
  (State.foldl_steps (fun s w => s.throughDcWord_steps die w) ws s).trans (State.writeBlocks_steps ..)

/-- A word that a die cache shows is not dirty. -/
def State.ShowsClean (s : State) (die w : Nat) : Prop := ∀ c, s.copy? (.dc die) w = some c → c.dirty = false

theorem State.DcStep.showsClean {die w : Nat} {s t : State} (h : State.DcStep die s t) (clean : s.ShowsClean die w) : t.ShowsClean die w := by
  cases h with
  | @home c shown dirty _ =>
    intro x hx
    rw [State.copy?_putHomeAs, Option.map_eq_some_iff] at hx
    obtain ⟨y, hy, rfl⟩ := hx
    have other : w ≠ c.word := fun e => absurd (clean c (e ▸ shown)) (by simp [dirty])
    rw [State.copy?_putCopy_other (c := c.cleaned) fun e => other e.2] at hy
    simpa using clean y hy
  | @lost c shown dirty _ =>
    have other : w ≠ c.word := fun e => absurd (clean c (e ▸ shown)) (by simp [dirty])
    intro x hx
    refine clean x (Eq.trans (Eq.symm ?_) hx)
    exact State.copy?_filter (f := fun x => !(x.pos == c.pos && x.word == c.word)) rfl fun x _ at_ => by simp [at_, other]
  | block d pa => exact clean
  | drop line _ =>
    intro x hx
    by_cases on : w / 32 = line
    · obtain ⟨mem, pos, word⟩ := State.copy?_eq_some hx
      have stays := (List.mem_filter.1 mem).2
      simp [pos, word, on] at stays
    · refine clean x (Eq.trans (Eq.symm ?_) hx)
      exact State.copy?_filter (f := fun c => !(c.pos == .dc die && c.word / 32 == line)) rfl fun x _ at_ => by simp [at_, on]

theorem State.throughDcWord_showsClean (s : State) (die w : Nat) : (s.throughDcWord die w).ShowsClean die w := by
  unfold State.throughDcWord
  split
  · rename_i c shown
    obtain ⟨-, pos, rfl⟩ := State.copy?_eq_some shown
    split
    · split
      · intro x hx
        obtain ⟨mem, at_, word⟩ := State.copy?_eq_some hx
        have stays := (List.mem_filter.1 mem).2
        simp [pos, at_, word] at stays
      · intro x hx
        rw [State.copy?_putHomeAs, Option.map_eq_some_iff] at hx
        obtain ⟨y, hy, rfl⟩ := hx
        have put := s.copy?_putCopy_same c.cleaned
        rw [Copy.pos_cleaned, Copy.word_cleaned, pos] at put
        rw [Copy.isDirty_replica, Option.some.inj (hy.symm.trans put), Copy.isDirty_cleaned]
    · rename_i clean
      intro x hx
      obtain rfl := Option.some.inj (shown.symm.trans hx)
      simpa using clean
  · rename_i none_
    intro x hx
    simp [none_] at hx

theorem State.throughDcs_showsClean (s : State) (die : Nat) {ws : List Nat} {w : Nat} (hw : w ∈ ws) : (s.throughDcs die ws).ShowsClean die w := by
  refine (State.writeBlocks_steps die _ _).induct (P := fun t => t.ShowsClean die w) (fun _ _ step => step.showsClean) ?_
  induction ws generalizing s with
  | nil => simp at hw
  | cons x xs ih =>
    rcases List.mem_cons.1 hw with rfl | hw
    · exact (State.foldl_steps (fun s w => s.throughDcWord_steps die w) xs _).induct (P := fun t => t.ShowsClean die w) (fun _ _ step => step.showsClean)
        (s.throughDcWord_showsClean die w)
    · exact ih _ hw

theorem State.evictDc_steps (s : State) (die line : Nat) : State.DcSteps die s (s.evictDc die line) := by
  refine (s.throughDcs_steps die _).tail (.drop line fun c w on shown => ?_)
  by_cases held : w ∈ s.heldWords (.dc die) line
  · exact s.throughDcs_showsClean die held c shown
  · have none_ : s.copy? (.dc die) w = none := State.copy?_eq_none.2 fun x hx at_ => held (List.mem_map.2 ⟨x, List.mem_filter.2 ⟨hx, by simp [at_, on]⟩, at_.2⟩)
    exact (s.throughDcs_steps die _).induct (P := fun t => t.ShowsClean die w) (fun _ _ step => step.showsClean) (fun x hx => by simp [none_] at hx) c shown

theorem State.roomDc_steps (s : State) (die line : Nat) : State.DcSteps die s (s.roomDc die line) := by
  unfold State.roomDc
  dsimp only
  split
  · exact .refl
  · exact State.foldl_steps (fun s l => s.evictDc_steps die l) _ s

end Sys2Proof.Machine
end

section
/-! ### Loads after stores of the word, and what fences publish (R217, R218, R230, R233, R243, R477) -/

namespace Sys2Proof.Machine

open Sys2Proof

/-! What an agent's writes through and evictions keep. -/

/-- What an agent's caches do by themselves: nothing that decides where requests go changes, home stays canonical, and no copy becomes dirty
elsewhere than in the agent's die cache. -/
structure State.Settles (a : Agent) (s t : State) : Prop where
  frame : s.CacheFrame t
  canonical : Memory.wf s.mem = true → Memory.wf t.mem = true
  dirty : ∀ x ∈ t.copies, x.dirty = true → x ∈ s.copies ∨ x.pos = .dc a.die

theorem State.tagged_is (s : State) (c : Copy) : ∃ asid va, s.tagged c = { c with asid := asid, va := va } := ⟨_, _, rfl⟩

/-- A word put into a die cache joins it after the cache has made room. -/
theorem State.putDc_is (s : State) (die : Nat) (c : Copy) :
    ∃ r asid va, State.DcSteps die s r ∧ s.putDc die c = r.putCopy { c with pos := .dc die, asid := asid, va := va } :=
  ⟨_, _, _, s.roomDc_steps die (c.word / 32), rfl⟩

/-- A write through from an L1 does nothing, or moves the dirty word that it shows to the die cache. -/
theorem State.throughL1_cases (s : State) (a : Agent) (w : Nat) :
    (s.throughL1 a w = s ∧ ∀ c, s.copy? (.l1 a.core) w = some c → c.dirty = false) ∨
    ∃ c r asid va, s.copy? (.l1 a.core) w = some c ∧ c.dirty = true ∧ State.DcSteps a.die (s.putCopy c.cleaned) r ∧
      s.throughL1 a w = r.putCopy { c with pos := .dc a.die, asid := asid, va := va } := by
  cases shown : s.copy? (.l1 a.core) w with
  | none => exact .inl ⟨State.throughL1_clean (by simp [shown]), by simp⟩
  | some c =>
    cases dirty : c.dirty with
    | false => exact .inl ⟨State.throughL1_clean (by simp [shown, dirty]), by simp [dirty]⟩
    | true =>
      obtain ⟨r, asid, va, steps, e⟩ := (s.putCopy c.cleaned).putDc_is a.die c
      refine .inr ⟨c, r, asid, va, rfl, dirty, steps, ?_⟩
      rw [← e]
      simp [State.throughL1, shown, dirty, Copy.cleaned]

namespace State.Settles

variable {a : Agent} {s t u : State}

theorem refl (s : State) : s.Settles a s := ⟨.refl s, id, fun _ hx _ => .inl hx⟩

theorem trans (h : s.Settles a t) (h' : t.Settles a u) : s.Settles a u :=
  ⟨h.frame.trans h'.frame, fun wf => h'.canonical (h.canonical wf), fun x hx dirty => (h'.dirty x hx dirty).elim (fun hx => h.dirty x hx dirty) .inr⟩

theorem foldl {α : Type} {f : State → α → State} (hf : ∀ (s : State) x, s.Settles a (f s x)) (l : List α) (s : State) : s.Settles a (l.foldl f s) := by
  induction l generalizing s with
  | nil => exact .refl s
  | cons x xs ih => exact (hf s x).trans (ih _)

theorem filter (s : State) (f : Copy → Bool) : s.Settles a { s with copies := s.copies.filter f } :=
  ⟨.filter s f, id, fun _ hx _ => .inl (List.mem_filter.1 hx).1⟩

theorem ofSteps (h : State.DcSteps a.die s t) : s.Settles a t := ⟨h.frame, h.canonical, fun _ hx dirty => .inl (h.dirty_mem hx dirty)⟩

/-- A copy joins the die cache, or one that is not dirty any cache. -/
theorem putCopy (s : State) {c : Copy} (hc : c.dirty = false ∨ c.pos = .dc a.die) : s.Settles a (s.putCopy c) := by
  refine ⟨.putCopy s c, id, fun x hx dirty => ?_⟩
  rcases (s.mem_putCopy_iff c x).1 hx with rfl | ⟨hx, -⟩
  · exact .inr (hc.resolve_left (by simp [dirty]))
  · exact .inl hx

theorem throughL1 (s : State) (w : Nat) : s.Settles a (s.throughL1 a w) := by
  rcases s.throughL1_cases a w with ⟨e, -⟩ | ⟨c, r, asid, va, -, -, steps, e⟩
  · rw [e]
    exact .refl s
  · rw [e]
    exact ((putCopy s (.inl rfl)).trans (ofSteps steps)).trans (putCopy r (.inr rfl))

theorem evictL1 (s : State) (line : Nat) : s.Settles a (s.evictL1 a line) := (foldl (fun s w => throughL1 s w) _ s).trans (filter _ _)

theorem roomL1 (s : State) (line : Nat) : s.Settles a (s.roomL1 a line) := by
  unfold State.roomL1
  dsimp only
  split
  · exact .refl s
  · exact foldl (fun s l => evictL1 s l) _ s

end State.Settles

theorem State.mem_linesAt {s : State} {c : Copy} {p : CopyAt} {line : Nat} (hc : c ∈ s.copies) (pos : c.pos = p) (on : c.word / 32 = line) : line ∈ s.linesAt p := by
  suffices ∀ (l : List Copy) (acc : List Nat), line ∈ acc ∨ c ∈ l → line ∈ l.foldl (fun l c => if c.pos == p then addOnce l (c.word / 32) else l) acc from
    this _ _ (.inr hc)
  intro l
  induction l with
  | nil => exact fun acc h => h.resolve_right (by simp)
  | cons x xs ih =>
    refine fun acc h => ih _ ?_
    dsimp only
    rcases h with h | h
    · left
      split
      · exact mem_addOnce.2 (.inl h)
      · exact h
    · rcases List.mem_cons.1 h with rfl | h
      · left
        rw [if_pos (by simp [pos])]
        exact mem_addOnce.2 (.inr on.symm)
      · exact .inr h

/-! A word that one cache shows. -/

/-- A cache holds exactly one copy of a word. -/
def State.Shows (s : State) (c : Copy) : Prop := s.copy? c.pos c.word = some c ∧ ∀ x ∈ s.copies, x.pos = c.pos → x.word = c.word → x = c

theorem State.shows_putCopy (s : State) (c : Copy) : (s.putCopy c).Shows c :=
  ⟨s.copy?_putCopy_same c, fun x hx pos word => ((s.mem_putCopy_iff c x).1 hx).elim id fun h => absurd ⟨pos, word⟩ h.2⟩

/-- What a store of a word puts into a cache. -/
structure Copy.Stores (c : Copy) (m : Mapped) (x : Word) : Prop where
  word : c.word = m.pa / 4
  val : c.val = x
  dirty : c.dirty = true
  sound : c.poison = false
  home : c.home = m.die
  cp : c.cp = m.cp
  key : c.key = m.key

/-- An agent's stored word is the newest in its caches: its L1 shows it, or its die cache does, the L1 has no lines
and the L1 level does not hold the word. -/
def State.Newest (s : State) (a : Agent) (m : Mapped) (x : Word) : Prop :=
  ∃ c, c.Stores m x ∧ s.Shows c ∧ (c.pos = .l1 a.core ∨
    c.pos = .dc a.die ∧ s.linesFor (.l1 a.core) = 0 ∧ s.copy? (.l1 a.core) (m.pa / 4) = none ∧ s.copy? (.sc a.core) (m.pa / 4) = none)

/-- The copy that a store of a whole word puts into the caches. -/
def Mapped.stored (m : Mapped) (a : Agent) (x : Word) : Copy :=
  { pos := .l1 a.core, word := m.pa / 4, val := x, dirty := true, poison := false, asid := m.asid, va := BitVec.ofNat 56 m.va.toNat, home := m.die,
    repl := m.rp, cp := m.cp, key := m.key }

theorem Mapped.stored_stores (m : Mapped) (a : Agent) (x : Word) (p : CopyAt) (asid : BitVec 16) (va : VA) :
    ({ m.stored a x with pos := p, asid := asid, va := va } : Copy).Stores m x := ⟨rfl, rfl, rfl, rfl, rfl, rfl, rfl⟩

theorem mergeBytes_whole (old x : Word) : mergeBytes old x 0 4 = x := by
  have all : BitVec.ofNat 32 ((2 ^ (8 * 4) - 1) * 2 ^ (8 * 0)) = BitVec.allOnes 32 := by decide
  rw [mergeBytes, all, Nat.mul_zero, BitVec.shiftLeft_zero, BitVec.not_allOnes, BitVec.and_zero, BitVec.and_allOnes, BitVec.zero_or]

theorem State.storeWord_whole (s : State) (a : Agent) {m : Mapped} (x : Word) (aligned : m.pa % 4 = 0) :
    s.storeWord a (.mem m) 4 x = s.putL1 a (m.stored a x) := by
  simp only [State.storeWord, aligned, mergeBytes_whole]
  simp [Mapped.stored]

section
variable {s : State} {a : Agent} {m : Mapped} {x : Word}

theorem State.copy?_none_of_subset {t : State} {p : CopyAt} {w : Nat} (sub : ∀ c ∈ t.copies, c ∈ s.copies) (none_ : s.copy? p w = none) : t.copy? p w = none :=
  State.copy?_eq_none.2 fun c hc => State.copy?_eq_none.1 none_ c (sub c hc)

theorem State.copy?_filter_none {f : Copy → Bool} {p : CopyAt} {w : Nat} (gone : ∀ c, c.pos = p → c.word = w → f c = false) :
    ({ s with copies := s.copies.filter f } : State).copy? p w = none :=
  State.copy?_eq_none.2 fun c hc at_ => by simpa [gone c at_.1 at_.2] using (List.mem_filter.1 hc).2

/-- A store puts its word into the L1, or into the die cache where the L1 has no line. -/
theorem State.putL1_cases (s : State) (a : Agent) (m : Mapped) (x : Word) : ∃ r c, s.Settles a r ∧ c.Stores m x ∧ s.putL1 a (m.stored a x) = r.putCopy c ∧
    (c.pos = .l1 a.core ∨ c.pos = .dc a.die ∧ r.linesFor (.l1 a.core) = 0 ∧ r.copy? (.l1 a.core) (m.pa / 4) = none ∧ r.copy? (.sc a.core) (m.pa / 4) = none) := by
  have word : (m.stored a x).word = m.pa / 4 := rfl
  unfold State.putL1
  rw [word]
  dsimp only
  split
  · rename_i noLine
    obtain ⟨r, asid, va, steps, e⟩ := State.putDc_is { s.dropSc a.core fun y => y.word == m.pa / 4 with
      copies := (s.dropSc a.core fun y => y.word == m.pa / 4).copies.filter fun y => !(y.pos == CopyAt.l1 a.core && y.word == m.pa / 4) } a.die (m.stored a x)
    refine ⟨r, _, ?_, m.stored_stores a x _ asid va, e, .inr ⟨rfl, ?_, ?_, ?_⟩⟩
    · exact ((State.Settles.filter s _).trans (.filter _ _)).trans (.ofSteps steps)
    · exact (steps.frame.linesFor _).trans (beq_iff_eq.1 noLine)
    · exact (steps.copy?_elsewhere (by simp) _).1 (State.copy?_filter_none fun y pos at_ => by simp [pos, at_])
    · refine (steps.copy?_elsewhere (by simp) _).1 (State.copy?_none_of_subset (fun c hc => (List.mem_filter.1 hc).1) ?_)
      exact State.copy?_filter_none fun y pos at_ => by simp [pos, at_]
  · obtain ⟨asid, va, e⟩ := ((s.dropSc a.core fun y => y.word == m.pa / 4).roomL1 a (m.pa / 4 / 32)).tagged_is (m.stored a x)
    exact ⟨_, _, (State.Settles.filter s _).trans (.roomL1 _ _), m.stored_stores a x _ asid va, congrArg _ e, .inl rfl⟩

/-- A stored word is the newest. -/
theorem State.storeWord_newest (s : State) (a : Agent) (x : Word) (aligned : m.pa % 4 = 0) : (s.storeWord a (.mem m) 4 x).Newest a m x := by
  obtain ⟨r, c, -, stores, e, place⟩ := s.putL1_cases a m x
  rw [s.storeWord_whole a x aligned, e]
  refine ⟨c, stores, r.shows_putCopy c, place.imp_right fun ⟨pos, noLine, noL1, noSc⟩ => ⟨pos, noLine, ?_, ?_⟩⟩
  · rwa [State.copy?_putCopy_other (by simp [pos])]
  · rwa [State.copy?_putCopy_other (by simp [pos])]

theorem State.storeWord_frame (s : State) (a : Agent) (x : Word) (aligned : m.pa % 4 = 0) : s.CacheFrame (s.storeWord a (.mem m) 4 x) ∧
    (Memory.wf s.mem = true → Memory.wf (s.storeWord a (.mem m) 4 x).mem = true) ∧
    ∀ y ∈ (s.storeWord a (.mem m) 4 x).copies, y.dirty = true → y ∈ s.copies ∨ y.pos = .l1 a.core ∨ y.pos = .dc a.die := by
  obtain ⟨r, c, settles, -, e, place⟩ := s.putL1_cases a m x
  rw [s.storeWord_whole a x aligned, e]
  refine ⟨settles.frame.trans (.putCopy r c), settles.canonical, fun y hy dirty => ?_⟩
  rcases (r.mem_putCopy_iff c y).1 hy with rfl | ⟨hy, -⟩
  · exact .inr (place.imp_right And.left)
  · exact (settles.dirty y hy dirty).imp_right .inr

/-- Written through from the L1, it is the newest in the die cache, and no dirty copy of it stays in the L1. -/
theorem State.Newest.throughL1 (h : s.Newest a m x) : ∃ c, c.Stores m x ∧ c.pos = .dc a.die ∧ (s.throughL1 a (m.pa / 4)).Shows c ∧
    ∀ y ∈ (s.throughL1 a (m.pa / 4)).copies, y.word = m.pa / 4 → y.dirty = true → y.pos ≠ .l1 a.core := by
  obtain ⟨c, stores, shows_, pos | ⟨pos, -, noL1, -⟩⟩ := h
  · have held : s.copy? (.l1 a.core) (m.pa / 4) = some c := by rw [← pos, ← stores.word]; exact shows_.1
    rcases s.throughL1_cases a (m.pa / 4) with ⟨-, clean⟩ | ⟨c', r, asid, va, held', -, steps, e⟩
    · exact absurd (clean c held) (by simp [stores.dirty])
    · obtain rfl := Option.some.inj (held.symm.trans held')
      rw [e]
      refine ⟨{ c with pos := .dc a.die, asid := asid, va := va },
        ⟨stores.word, stores.val, stores.dirty, stores.sound, stores.home, stores.cp, stores.key⟩, rfl, r.shows_putCopy _, fun y hy word dirty at_ => ?_⟩
      rcases (r.mem_putCopy_iff _ y).1 hy with rfl | ⟨hy, -⟩
      · exact absurd at_ (by simp)
      · rcases (s.mem_putCopy_iff c.cleaned y).1 (steps.dirty_mem hy dirty) with rfl | ⟨-, apart⟩
        · exact absurd dirty (by simp)
        · exact apart ⟨at_.trans pos.symm, word.trans stores.word.symm⟩
  · have stays : s.throughL1 a (m.pa / 4) = s := State.throughL1_clean (by simp [noL1])
    rw [stays]
    exact ⟨c, stores, pos, shows_, fun y hy word _ at_ => State.copy?_eq_none.1 noL1 y hy ⟨at_, word⟩⟩

theorem State.codeOf_writeBlock (s : State) (d pa : Nat) : (s.writeBlock d pa).codeOf (pa / 256) = s.packed (pa / 256) := by
  simp only [State.codeOf, State.writeBlock, State.modCmp, aget_aset_self, Option.getD_some]

theorem State.throughDc_dirty {c : Copy} {die : Nat} (shown : s.copy? (.dc die) c.word = some c) (dirty : c.dirty = true)
    (there : s.gone (some c.home) (4 * c.word) = false) : s.throughDc die c.word =
      if c.cp then ((s.putCopy c.cleaned).putHomeAs c.key c.word c.val c.poison).writeBlock c.home (256 * (c.word / 64))
      else (s.putCopy c.cleaned).putHomeAs c.key c.word c.val c.poison := by
  have word : s.throughDcWord die c.word = (s.putCopy c.cleaned).putHomeAs c.key c.word c.val c.poison := by
    simp [State.throughDcWord, shown, dirty, there, Copy.cleaned]
  cases cp : c.cp <;> simp [State.throughDc, State.throughDcs, word, shown, dirty, there, cp, addOnce]

/-- Written through from the die cache, it is at home. -/
theorem State.throughDc_stored {c : Copy} (stores : c.Stores m x) (pos : c.pos = .dc a.die) (shows_ : s.Shows c)
    (clean : ∀ y ∈ s.copies, y.word = m.pa / 4 → y.dirty = true → y.pos ≠ .l1 a.core) (aligned : m.pa % 4 = 0)
    (canonical : Memory.wf s.mem = true) (there : s.gone (some m.die) m.pa = false) :
    (s.throughDc a.die (m.pa / 4)).PlainHome a m ∧ (s.throughDc a.die (m.pa / 4)).homeWordAs m.key (m.pa / 4) = x := by
  obtain ⟨word, val, dirty, sound, home, cp, key⟩ := stores
  have place : 4 * (m.pa / 4) = m.pa := by omega
  have shown : s.copy? (.dc a.die) c.word = some c := pos ▸ shows_.1
  have through := State.throughDc_dirty shown dirty (by rw [home, word, place]; exact there)
  rw [word, val, sound, home, cp, key] at through
  generalize ht : (s.putCopy c.cleaned).putHomeAs m.key (m.pa / 4) x false = t at through
  have wf : Memory.wf (s.putCopy c.cleaned).mem = true := canonical
  have canonical' : Memory.wf t.mem = true := ht ▸ State.putHomeAs_wf wf _ _ _ _
  have value : t.homeWordAs m.key (m.pa / 4) = x := ht ▸ State.homeWordAs_putHomeAs_same wf _ _ _ _
  have there' : t.gone (some m.die) m.pa = false := by
    rw [← ht, ((CacheFrame.putCopy s c.cleaned).trans (.putHomeAs ..)).gone]
    exact there
  have sound' : t.poison.contains (m.pa / 4) = false := by
    obtain ⟨mem, locks, e⟩ := (s.putCopy c.cleaned).putHomeAs_is m.key (m.pa / 4) x false
    rw [← ht, e]
    simp [mark]
  have clean' : ∀ y ∈ t.copies, y.word = m.pa / 4 → y.dirty = true → y.pos ≠ .l1 a.core ∧ y.pos ≠ .dc a.die := fun y hy at_ still => by
    obtain ⟨hy, apart⟩ := State.mem_of_dirty_home (ht ▸ hy) still
    exact ⟨clean y hy at_ still, fun e => apart ⟨e.trans pos.symm, at_.trans word.symm⟩⟩
  rw [through]
  cases coded : m.cp with
  | false => exact ⟨⟨canonical', there', sound', fun e => absurd (coded.symm.trans e) (by simp), clean'⟩, value⟩
  | true =>
    refine ⟨⟨canonical', there', sound', fun _ => ?_, clean'⟩, value⟩
    have code := t.codeOf_writeBlock m.die (256 * (m.pa / 4 / 64))
    have block : 256 * (m.pa / 4 / 64) / 256 = m.pa / 256 := by omega
    rw [block] at code
    rw [if_pos rfl, code]
    exact State.packed_lt _ _
/-- Written through to home, it is read there, and the agent's caches hold no dirty copy of it. -/
theorem State.Newest.through_home (h : s.Newest a m x) (aligned : m.pa % 4 = 0) (canonical : Memory.wf s.mem = true) (there : s.gone (some m.die) m.pa = false) :
    (s.through a .home (m.pa / 4)).PlainHome a m ∧ (s.through a .home (m.pa / 4)).homeWordAs m.key (m.pa / 4) = x := by
  obtain ⟨c, stores, pos, shows_, clean⟩ := h.throughL1
  have settles := State.Settles.throughL1 (a := a) s (m.pa / 4)
  exact State.throughDc_stored stores pos shows_ clean aligned (settles.canonical canonical) ((settles.frame.gone _ _).trans there)

theorem State.through_settles (s : State) (a : Agent) (lv : Level) (w : Nat) : s.Settles a (s.through a lv w) := by
  cases lv with
  | l1 => exact .refl s
  | dc => exact .throughL1 s w
  | home => exact (State.Settles.throughL1 s w).trans (.ofSteps (State.throughDcs_steps _ _ _))

theorem State.PlainHome.readHome (h : s.PlainHome a m) : s.readHome m = (s.homeWordAs m.key (m.pa / 4), false) := by
  have coded : (m.cp && decide (9 ≤ (s.codeOf (m.pa / 256)).toNat)) = false := by
    cases e : m.cp with
    | false => rfl
    | true => simpa using h.code e
  simp only [State.readHome, h.there, h.sound, coded, Bool.false_eq_true, if_false, Bool.or_self]

theorem State.copy?_append {t : State} {l : List Copy} {p : CopyAt} {w : Nat} (copies : t.copies = s.copies ++ l)
    (apart : s.copy? p w ≠ none ∨ ∀ c ∈ l, c.pos ≠ p) : t.copy? p w = s.copy? p w := by
  rw [State.copy?, copies, List.find?_append]
  rcases apart with held | apart
  · obtain ⟨c, held⟩ := Option.ne_none_iff_exists'.1 held
    rw [← State.copy?, held, Option.some_or]
  · have none_ : (l.find? fun c => c.pos == p && c.word == w) = none := by
      rw [List.find?_eq_none]
      exact fun c hc => by simp [apart c hc]
    rw [none_, Option.or_none, State.copy?]

/-- A die cache that holds a word of a line fills the rest of it without an eviction. -/
theorem State.copy?_fillDc {die w : Nat} {c : Copy} (held : s.copy? (.dc die) w = some c) (m : Mapped) {p : CopyAt} (hp : p = .dc die → w' = w) :
    (s.fillDc die m (w / 32)).copy? p w' = s.copy? p w' := by
  obtain ⟨here, pos, word⟩ := State.copy?_eq_some held
  have room : s.roomDc die (w / 32) = s := by
    have line : (s.linesAt (.dc die)).contains (w / 32) = true := by simpa using State.mem_linesAt here pos (by rw [word])
    unfold State.roomDc
    rw [if_pos line]
  unfold State.fillDc
  rw [room]
  dsimp only
  split
  · rfl
  · have apart : s.copy? p w' ≠ none ∨ p ≠ .dc die := by
      by_cases e : p = .dc die
      · exact .inl (by rw [e, hp e, held]; simp)
      · exact .inr e
    cases m.cp <;>
      exact State.copy?_append rfl (apart.imp_right fun other c hc => by obtain ⟨w, -, rfl⟩ := List.mem_map.1 hc; exact fun e => other e.symm)

/-- At every level the agent reads the newest word. -/
theorem State.Newest.valueAtLevel (h : s.Newest a m x) (lv : Level) (aligned : m.pa % 4 = 0) (canonical : Memory.wf s.mem = true)
    (there : s.gone (some m.die) m.pa = false) : (s.valueAtLevel a lv m).2 = (x, false) := by
  cases lv with
  | l1 =>
    obtain ⟨c, stores, shows_, pos | ⟨pos, noLine, noL1, noSc⟩⟩ := h
    · have shown := shows_.1
      rw [pos, stores.word] at shown
      simp [State.valueAtLevel, State.nearCopy, shown, stores.val, stores.sound]
    · have shown := shows_.1
      rw [pos, stores.word] at shown
      have stays := fun p hp => State.copy?_fillDc shown m (w' := m.pa / 4) (p := p) hp
      simp [State.valueAtLevel, State.nearCopy, State.fillL1, noLine, noL1, stays, noSc, shown, stores.val, stores.sound]
  | dc =>
    obtain ⟨c, stores, pos, shows_, -⟩ := h.throughL1
    have shown := shows_.1
    rw [pos, stores.word] at shown
    simp [State.valueAtLevel, State.through, shown, stores.val, stores.sound]
  | home =>
    obtain ⟨plain, value⟩ := h.through_home aligned canonical there
    rw [← value]
    exact plain.readHome

/-- A load of a word after the agent's store of it. -/
theorem State.loadWord_storeWord (s : State) (a : Agent) (x : Word) (sc : Option Scope) (canonical : Memory.wf s.mem = true)
    (there : s.gone (some m.die) m.pa = false) (aligned : m.pa % 4 = 0) : ((s.storeWord a (.mem m) 4 x).loadWord a (.mem m) sc).2 = (x, false) := by
  obtain ⟨frame, kept, -⟩ := s.storeWord_frame a x aligned
  have newest := fun lv => (s.storeWord_newest a x aligned).valueAtLevel lv aligned (kept canonical) ((frame.gone _ _).trans there)
  cases sc with
  | none => exact newest .l1
  | some sc => exact newest (State.loadLevel _ a m sc)

/-- The same in a scratchpad. -/
theorem State.loadWord_storeWord_pad {cl rank off : Nat} (a : Agent) (x : Word) (sc : Option Scope) {t : Team} (ht : s.team? cl rank = some t)
    (canonical : Memory.wf t.pad = true) (aligned : off % 4 = 0) : ((s.storeWord a (.pad cl rank off) 4 x).loadWord a (.pad cl rank off) sc).2 = (x, false) := by
  have team : (s.storeWord a (.pad cl rank off) 4 x).team? cl rank =
      some { t with pad := putBytes t.pad off (leBytes 4 x.toNat), padPoison := mark false t.padPoison (off / 4) } := by
    have stored := State.modTeam_at s cl rank (fun t => { t with pad := putBytes t.pad off (leBytes 4 x.toNat), padPoison := mark false t.padPoison (off / 4) })
      fun _ => ⟨rfl, rfl⟩
    rwa [ht] at stored
  have word : off / 4 * 4 = off := by omega
  have value := valueAt_putBytes_leBytes canonical off 0 4 0 x.toNat
  simp only [Nat.zero_add, Nat.add_zero, Nat.pow_zero, Nat.div_one] at value
  simp only [State.loadWord, team, word, value]
  exact Prod.ext (BitVec.eq_of_toNat_eq (by simp [Nat.mod_eq_of_lt x.isLt])) (by simp [mark])

/-- A load at device scope, by any core whose caches hold no newer value, of a word that a store wrote through to home. -/
theorem State.loadWord_storeThrough (s : State) (a b : Agent) {m' : Mapped} (x : Word) (canonical : Memory.wf s.mem = true)
    (there : s.gone (some m.die) m.pa = false) (there' : s.gone (some m'.die) m'.pa = false) (aligned : m.pa % 4 = 0) (pa : m'.pa = m.pa) (key : m'.key = m.key)
    (clean : ∀ c ∈ s.copies, c.word = m.pa / 4 → c.dirty = true → c.pos = .l1 a.core ∨ c.pos = .dc a.die) :
    (((s.storeWord a (.mem m) 4 x).storeThrough a (.mem m) (some .device)).loadWord b (.mem m') (some .device)).2.1 = x := by
  have home : (s.storeWord a (.mem m) 4 x).storeThrough a (.mem m) (some .device) = (s.storeWord a (.mem m) 4 x).through a .home (m.pa / 4) := by
    simp [State.storeThrough, storeLevel, levelOf]
  obtain ⟨frame, kept, dirty⟩ := s.storeWord_frame a x aligned
  obtain ⟨plain, value⟩ := (s.storeWord_newest a x aligned).through_home aligned (kept canonical) ((frame.gone _ _).trans there)
  have settles := (s.storeWord a (.mem m) 4 x).through_settles a .home (m.pa / 4)
  rw [home]
  generalize (s.storeWord a (.mem m) 4 x).through a .home (m.pa / 4) = t at *
  have nowhere : ∀ p c, t.copy? p (m.pa / 4) = some c → c.dirty = false := fun p c shown => by
    obtain ⟨here, -, word⟩ := State.copy?_eq_some shown
    rw [← Bool.not_eq_true]
    intro still
    obtain ⟨noL1, noDc⟩ := plain.clean c here word still
    rcases settles.dirty c here still with before | pos
    · rcases dirty c before still with first | pos | pos
      · exact (clean c first word still).elim noL1 noDc
      · exact noL1 pos
      · exact noDc pos
    · exact noDc pos
  have level : t.loadLevel b m' .device = .home := by
    have clean' : ∀ p, (match t.copy? p (m.pa / 4) with | some c => c.dirty | none => false) = false := fun p => by
      split
      · exact nowhere p _ ‹_›
      · rfl
    simp only [State.loadLevel, levelOf, pa]
    rw [if_neg]
    simp only [Bool.and_eq_true, Bool.or_eq_true, not_and, not_or]
    exact fun _ => ⟨Bool.eq_false_iff.1 (clean' _), Bool.eq_false_iff.1 (clean' _)⟩
  have stays : t.through b .home (m.pa / 4) = t := by
    simp only [State.through, State.throughL1_clean (nowhere _), State.throughDc_clean (nowhere _)]
  have present : t.gone (some m'.die) m.pa = false := by
    rw [(frame.trans settles.frame).gone, ← pa]
    exact there'
  simp [State.loadWord, level, State.valueAtLevel, pa, stays, State.readHome, present, key, value]

end

/-! What a fence publishes. -/

/-- A dirty word that goes home under its key: its home answers, and no dirty copy of its unit of 16 bytes has another key. -/
structure State.Homeward (s : State) (c : Copy) (w : Nat) : Prop where
  canonical : Memory.wf s.mem = true
  there : s.gone (some c.home) (4 * w) = false
  keys : ∀ x ∈ s.copies, x.word / 4 = w / 4 → x.dirty = true → x.key = c.key

/-- The word is dirty in the agent's L1, and elsewhere at most in its die cache. -/
structure State.Waiting (s : State) (a : Agent) (c : Copy) (w : Nat) : Prop where
  shown : s.copy? (.l1 a.core) w = some c
  dirty : c.dirty = true
  only : ∀ x ∈ s.copies, x.word = w → x.dirty = true → x.pos = .l1 a.core ∨ x.pos = .dc a.die

/-- The word is dirty in the agent's die cache alone. -/
structure State.InDc (s : State) (a : Agent) (c : Copy) (w : Nat) : Prop where
  shown : ∃ d, s.Shows d ∧ d.pos = .dc a.die ∧ d.word = w ∧ d.dirty = true ∧ d.val = c.val ∧ d.home = c.home ∧ d.key = c.key
  only : ∀ x ∈ s.copies, x.word = w → x.dirty = true → x.pos = .dc a.die

/-- Home and the replicas hold the word, and it is dirty nowhere. -/
structure State.AtHome (s : State) (c : Copy) (w : Nat) : Prop where
  clean : ∀ x ∈ s.copies, x.word = w → x.dirty = false
  value : s.homeWordAs c.key w = c.val
  replicas : ∀ x ∈ s.copies, x.word = w → x.repl = true → x.val = c.val

section
variable {a : Agent} {c x : Copy} {w : Nat} {s t : State}

theorem State.Shows.putCopy (h : s.Shows c) (apart : c.word ≠ x.word) : (s.putCopy x).Shows c := by
  refine ⟨by rw [State.copy?_putCopy_other fun e => apart e.2]; exact h.1, fun y hy pos word => ?_⟩
  rcases (s.mem_putCopy_iff x y).1 hy with rfl | ⟨hy, -⟩
  · exact absurd word.symm apart
  · exact h.2 y hy pos word

theorem State.Shows.putHomeAs (h : s.Shows c) (dirty : c.dirty = true) {k : Byte} {v : Word} {p : Bool} : (s.putHomeAs k w v p).Shows c := by
  refine ⟨by rw [State.copy?_putHomeAs, h.1, Option.map_some, Copy.replica_dirty dirty], fun y hy pos word => ?_⟩
  rw [State.putHomeAs_copies] at hy
  obtain ⟨z, hz, rfl⟩ := List.mem_map.1 hy
  rw [h.2 z hz (by simpa using pos) (by simpa using word), Copy.replica_dirty dirty]

theorem State.Shows.filter {f : Copy → Bool} (h : s.Shows c) (copies : t.copies = s.copies.filter f)
    (keep : ∀ x, x.pos = c.pos → x.word = c.word → f x = true) : t.Shows c :=
  ⟨by rw [State.copy?_filter copies keep]; exact h.1, fun y hy => h.2 y (List.mem_filter.1 (copies ▸ hy)).1⟩

namespace State.Homeward

theorem putCopy (h : s.Homeward c w) (hx : x.dirty = true → x.word / 4 = w / 4 → x.key = c.key) : (s.putCopy x).Homeward c w := by
  refine ⟨h.canonical, h.there, fun y hy word dirty => ?_⟩
  rcases (s.mem_putCopy_iff x y).1 hy with rfl | ⟨hy, -⟩
  · exact hx dirty word
  · exact h.keys y hy word dirty

theorem dcStep (h : s.Homeward c w) (step : State.DcStep a.die s t) : t.Homeward c w :=
  ⟨step.canonical h.canonical, (step.frame.gone _ _).trans h.there, fun y hy word dirty => h.keys y (step.dirty_mem hy dirty) word dirty⟩

theorem dcSteps (h : s.Homeward c w) (steps : State.DcSteps a.die s t) : t.Homeward c w := steps.induct (P := fun t => t.Homeward c w) (fun _ _ step h => h.dcStep step) h

theorem throughL1 (h : s.Homeward c w) (w' : Nat) : (s.throughL1 a w').Homeward c w := by
  rcases s.throughL1_cases a w' with ⟨e, -⟩ | ⟨d, r, asid, va, held, dirty, steps, e⟩
  · rwa [e]
  · rw [e]
    obtain ⟨here, -, -⟩ := State.copy?_eq_some held
    exact ((h.putCopy (x := d.cleaned) (by simp)).dcSteps steps).putCopy fun _ word => h.keys d here word dirty

end State.Homeward

namespace State.Waiting

theorem dcSteps (h : s.Waiting a c w) (steps : State.DcSteps a.die s t) : t.Waiting a c w :=
  ⟨(steps.copy?_elsewhere (by simp) w).2 c h.shown h.dirty, h.dirty, fun x hx word dirty => h.only x (steps.dirty_mem hx dirty) word dirty⟩

theorem putCopy (h : s.Waiting a c w) (apart : w ≠ x.word) : (s.putCopy x).Waiting a c w := by
  refine ⟨by rw [State.copy?_putCopy_other fun e => apart e.2]; exact h.shown, h.dirty, fun y hy word dirty => ?_⟩
  rcases (s.mem_putCopy_iff x y).1 hy with rfl | ⟨hy, -⟩
  · exact absurd word.symm apart
  · exact h.only y hy word dirty

theorem throughL1_other (h : s.Waiting a c w) {w' : Nat} (other : w ≠ w') : (s.throughL1 a w').Waiting a c w := by
  rcases s.throughL1_cases a w' with ⟨e, -⟩ | ⟨d, r, asid, va, held, -, steps, e⟩
  · rwa [e]
  · rw [e]
    obtain ⟨-, -, word⟩ := State.copy?_eq_some held
    exact ((h.putCopy (x := d.cleaned) (by simpa [word] using other)).dcSteps steps).putCopy (by simpa [word] using other)

/-- The agent writes it through to its die cache. -/
theorem throughL1 (h : s.Waiting a c w) : (s.throughL1 a w).InDc a c w := by
  obtain ⟨-, pos, word⟩ := State.copy?_eq_some h.shown
  rcases s.throughL1_cases a w with ⟨-, clean⟩ | ⟨d, r, asid, va, held, -, steps, e⟩
  · exact absurd (clean c h.shown) (by simp [h.dirty])
  · obtain rfl := Option.some.inj (h.shown.symm.trans held)
    rw [e]
    refine ⟨⟨_, r.shows_putCopy _, rfl, word, h.dirty, rfl, rfl, rfl⟩, fun y hy at_ dirty => ?_⟩
    rcases (r.mem_putCopy_iff _ y).1 hy with rfl | ⟨hy, -⟩
    · rfl
    · rcases (s.mem_putCopy_iff c.cleaned y).1 (steps.dirty_mem hy dirty) with rfl | ⟨hy, apart⟩
      · exact absurd dirty (by simp)
      · exact (h.only y hy at_ dirty).resolve_left fun e => apart ⟨e.trans pos.symm, at_.trans word.symm⟩

end State.Waiting

/-- Home holds the word, or it is on its way in the agent's die cache. -/
def State.Published (s : State) (a : Agent) (c : Copy) (w : Nat) : Prop := s.InDc a c w ∨ s.AtHome c w

theorem State.InDc.filter {f : Copy → Bool} (h : s.InDc a c w) (copies : t.copies = s.copies.filter f)
    (keep : ∀ x, s.copy? (.dc a.die) w = some x → x.dirty = true → x.home = c.home → ∀ y, y.pos = .dc a.die → y.word = w → f y = true) : t.InDc a c w := by
  obtain ⟨⟨d, shows_, pos, word, dirty, val, home, key⟩, only⟩ := h
  have shown : s.copy? (.dc a.die) w = some d := by rw [← pos, ← word]; exact shows_.1
  exact ⟨⟨d, shows_.filter copies fun y at_ of_ => keep d shown dirty home y (at_.trans pos) (of_.trans word), pos, word, dirty, val, home, key⟩,
    fun y hy => only y (List.mem_filter.1 (copies ▸ hy)).1⟩

theorem State.AtHome.subset (h : s.AtHome c w) (sub : ∀ x ∈ t.copies, x ∈ s.copies) (home : t.homeWordAs c.key w = s.homeWordAs c.key w) : t.AtHome c w :=
  ⟨fun x hx => h.clean x (sub x hx), home.trans h.value, fun x hx => h.replicas x (sub x hx)⟩

theorem State.InDc.putCopy (h : s.InDc a c w) (apart : w ≠ x.word) : (s.putCopy x).InDc a c w := by
  obtain ⟨⟨d, shows_, pos, word, rest⟩, only⟩ := h
  refine ⟨⟨d, shows_.putCopy (word ▸ apart), pos, word, rest⟩, fun y hy at_ dirty => ?_⟩
  rcases (s.mem_putCopy_iff x y).1 hy with rfl | ⟨hy, -⟩
  · exact absurd at_.symm apart
  · exact only y hy at_ dirty

theorem State.AtHome.putCopy (h : s.AtHome c w) (apart : w ≠ x.word) : (s.putCopy x).AtHome c w := by
  have old : ∀ y ∈ (s.putCopy x).copies, y.word = w → y ∈ s.copies := fun y hy word =>
    ((s.mem_putCopy_iff x y).1 hy).elim (fun e => absurd (e ▸ word.symm) apart) And.left
  exact ⟨fun y hy word => h.clean y (old y hy word) word, h.value, fun y hy word => h.replicas y (old y hy word) word⟩

/-- Another word goes home. -/
theorem State.InDc.putHomeAs (h : s.InDc a c w) {k : Byte} {v : Word} {p : Bool} {w' : Nat} : (s.putHomeAs k w' v p).InDc a c w := by
  obtain ⟨⟨d, shows_, pos, word, dirty, rest⟩, only⟩ := h
  refine ⟨⟨d, shows_.putHomeAs dirty, pos, word, dirty, rest⟩, fun y hy at_ still => ?_⟩
  rw [State.putHomeAs_copies] at hy
  obtain ⟨z, hz, rfl⟩ := List.mem_map.1 hy
  rw [Copy.pos_replica]
  exact only z hz (by simpa using at_) (by simpa using still)

theorem State.AtHome.putHomeAs (h : s.AtHome c w) (canonical : Memory.wf s.mem = true) {k : Byte} {v : Word} {p : Bool} {w' : Nat} (other : w ≠ w')
    (key : w / 4 = w' / 4 → c.key = k) : (s.putHomeAs k w' v p).AtHome c w := by
  have old : ∀ y ∈ (s.putHomeAs k w' v p).copies, y.word = w → y ∈ s.copies := fun y hy word => by
    rw [State.putHomeAs_copies] at hy
    obtain ⟨z, hz, rfl⟩ := List.mem_map.1 hy
    rwa [Copy.replica_other (by rw [Copy.word_replica] at word; exact word.trans_ne other)]
  exact ⟨fun y hy word => h.clean y (old y hy word) word, (State.homeWordAs_putHomeAs_other canonical v p other key).trans h.value,
    fun y hy word => h.replicas y (old y hy word) word⟩

/-- The word goes home. -/
theorem State.InDc.home (h : s.InDc a c w) {d : Copy} (canonical : Memory.wf s.mem = true) (shown : s.copy? (.dc a.die) w = some d) :
    ((s.putCopy d.cleaned).putHomeAs d.key w d.val d.poison).AtHome c w := by
  obtain ⟨⟨e, shows_, pos, word, dirty, val, -, key⟩, only⟩ := h
  obtain rfl : d = e := Option.some.inj (shown.symm.trans (by rw [← pos, ← word]; exact shows_.1))
  have clean : ∀ y ∈ ((s.putCopy d.cleaned).putHomeAs d.key w d.val d.poison).copies, y.word = w → y.dirty = false := fun y hy at_ => by
    rw [← Bool.not_eq_true]
    intro still
    obtain ⟨hy, apart⟩ := State.mem_of_dirty_home hy still
    exact apart ⟨(only y hy at_ still).trans pos.symm, at_.trans word.symm⟩
  refine ⟨clean, ?_, fun y hy at_ repl => ?_⟩
  · rw [← key, State.homeWordAs_putHomeAs_same (s := s.putCopy d.cleaned) canonical, val]
  · have still := clean y hy at_
    rw [State.putHomeAs_copies] at hy
    obtain ⟨z, -, rfl⟩ := List.mem_map.1 hy
    simp only [Copy.isDirty_replica, Copy.word_replica, Copy.repl_replica] at still at_ repl
    simp [Copy.replica, still, at_, repl, val]

theorem State.copies_contextError (s : State) (a : BitVec 16) (pa : Nat) : (s.contextError a pa).copies = s.copies := by
  unfold State.contextError State.note State.modCtx
  rfl

theorem State.homeWordAs_contextError (s : State) (a : BitVec 16) (pa : Nat) (k : Byte) (w : Nat) : (s.contextError a pa).homeWordAs k w = s.homeWordAs k w := by
  unfold State.contextError State.note State.modCtx
  rfl

namespace State.Published

theorem putCopy (h : s.Published a c w) (apart : w ≠ x.word) : (s.putCopy x).Published a c w := h.imp (·.putCopy apart) (·.putCopy apart)

theorem dcStep (h : s.Published a c w) (way : s.Homeward c w) (step : State.DcStep a.die s t) : t.Published a c w := by
  cases step with
  | @home d shown dirty _ =>
    obtain ⟨here, -, -⟩ := State.copy?_eq_some shown
    by_cases e : w = d.word
    · subst e
      refine .inr (h.elim (fun h => h.home way.canonical shown) fun h => ?_)
      exact absurd (h.clean d here rfl) (by simp [dirty])
    · refine (h.putCopy (x := d.cleaned) e).imp (·.putHomeAs) (·.putHomeAs way.canonical e fun unit => ?_)
      exact (way.keys d here unit.symm dirty).symm
  | @lost d shown dirty gone =>
    obtain ⟨here, -, -⟩ := State.copy?_eq_some shown
    refine h.imp (·.filter (State.copies_contextError _ _ _) fun x held _ home y _ word => ?_)
      (·.subset (fun x hx => (List.mem_filter.1 (State.copies_contextError _ _ _ ▸ hx)).1) (State.homeWordAs_contextError _ _ _ _ _))
    have other : w ≠ d.word := fun e => by
      subst e
      obtain rfl := Option.some.inj (held.symm.trans shown)
      exact absurd (home ▸ gone) (by simp [way.there])
    simp [word, other]
  | block d pa =>
    exact h.imp (fun h => ⟨h.shown, h.only⟩) fun h => ⟨h.clean, h.value, h.replicas⟩
  | drop line clean =>
    refine h.imp (·.filter (f := fun c => !(c.pos == .dc a.die && c.word / 32 == line)) rfl fun x shown dirty _ y _ word => ?_)
      (·.subset (fun x hx => (List.mem_filter.1 hx).1) rfl)
    have off : w / 32 ≠ line := fun e => absurd (clean x w e shown) (by simp [dirty])
    simp [word, off]

/-- Both at once, for what follows one after another. -/
theorem dcSteps (h : s.Homeward c w ∧ s.Published a c w) (steps : State.DcSteps a.die s t) : t.Homeward c w ∧ t.Published a c w :=
  steps.induct (P := fun t => t.Homeward c w ∧ t.Published a c w) (fun _ _ step h => ⟨h.1.dcStep step, h.2.dcStep h.1 step⟩) h

theorem throughL1 (h : s.Published a c w) (way : s.Homeward c w) (w' : Nat) : (s.throughL1 a w').Published a c w := by
  rcases s.throughL1_cases a w' with ⟨e, -⟩ | ⟨d, r, asid, va, held, dirty, steps, e⟩
  · rwa [e]
  · rw [e]
    obtain ⟨here, pos, word⟩ := State.copy?_eq_some held
    have apart : w ≠ d.word := fun e => by
      rcases h with h | h
      · exact absurd (pos.symm.trans (h.only d here e.symm dirty)) (by simp)
      · exact absurd (h.clean d here e.symm) (by simp [dirty])
    obtain ⟨-, moved⟩ := dcSteps ⟨way.putCopy (x := d.cleaned) (by simp), h.putCopy (x := d.cleaned) apart⟩ steps
    exact moved.putCopy apart

/-- Every dirty word of the L1 is written through, the word among them. -/
theorem ofWaiting (h : s.Waiting a c w) (way : s.Homeward c w) {ws : List Nat} (hw : w ∈ ws) :
    (ws.foldl (fun s w => s.throughL1 a w) s).Homeward c w ∧ (ws.foldl (fun s w => s.throughL1 a w) s).Published a c w := by
  have rest : ∀ (ws : List Nat) (s : State), s.Homeward c w ∧ s.Published a c w →
      (ws.foldl (fun s w => s.throughL1 a w) s).Homeward c w ∧ (ws.foldl (fun s w => s.throughL1 a w) s).Published a c w := fun ws => by
    induction ws with
    | nil => exact fun _ h => h
    | cons x xs ih => exact fun s h => ih _ ⟨h.1.throughL1 x, h.2.throughL1 h.1 x⟩
  induction ws generalizing s with
  | nil => simp at hw
  | cons x xs ih =>
    by_cases e : w = x
    · subst e
      exact rest xs _ ⟨way.throughL1 w, .inl h.throughL1⟩
    · exact ih (h.throughL1_other e) (way.throughL1 x) ((List.mem_cons.1 hw).resolve_left e)

end State.Published

/-- A fence.rel at device scope brings the word home. -/
theorem State.AtHome.fenceRel (h : s.Waiting a c w) (way : s.Homeward c w) : (s.fenceRel a .device).AtHome c w := by
  obtain ⟨here, pos, word⟩ := State.copy?_eq_some h.shown
  have listed : w ∈ s.wordsIn (.l1 a.core) fun c => c.dirty && true := List.mem_map.2 ⟨c, List.mem_filter.2 ⟨here, by simp [pos, h.dirty]⟩, word⟩
  obtain ⟨way', first⟩ := State.Published.ofWaiting h way listed
  have unfolded : s.fenceRel a .device = ((s.wordsIn (.l1 a.core) fun c => c.dirty && true).foldl (fun s w => s.throughL1 a w) s).throughDcs a.die
      (((s.wordsIn (.l1 a.core) fun c => c.dirty && true).foldl (fun s w => s.throughL1 a w) s).wordsIn (.dc a.die) fun c => c.dirty && true) := rfl
  rw [unfolded]
  generalize (s.wordsIn (.l1 a.core) fun c => c.dirty && true).foldl (fun s w => s.throughL1 a w) s = t at *
  have steps := t.throughDcs_steps a.die (t.wordsIn (.dc a.die) fun c => c.dirty && true)
  refine (State.Published.dcSteps ⟨way', first⟩ steps).2.resolve_left fun inDc => ?_
  obtain ⟨d, ⟨shown, -⟩, at_, same, dirty, -⟩ := inDc.shown
  rw [at_, same] at shown
  have there := steps.dirty_mem (State.copy?_eq_some shown).1 dirty
  have again : w ∈ t.wordsIn (.dc a.die) fun c => c.dirty && true := List.mem_map.2 ⟨d, List.mem_filter.2 ⟨there, by simp [at_, dirty]⟩, same⟩
  have clean := t.throughDcs_showsClean a.die again d shown
  exact absurd clean (by simp [dirty])

/-- After its own fence.acq a core sees a word as home and the replicas hold it. -/
theorem State.AtHome.seen_fenceAcq (h : s.AtHome c w) (b : Agent) : (s.fenceAcq b .device).seen b.core b.die c.key w = c.val := by
  have kept : ∀ p x, (p = .l1 b.core ∨ p = .sc b.core ∨ p = .dc b.die) → (s.fenceAcq b .device).copy? p w = some x → x.val = c.val := fun p x hp shown => by
    obtain ⟨here, pos, word⟩ := State.copy?_eq_some shown
    obtain ⟨before, stays⟩ := List.mem_filter.1 here
    refine h.replicas x before word ?_
    rcases hp with rfl | rfl | rfl <;> simpa [h.clean x before word, Copy.narrower, Copy.near, levelOf, pos] using stays
  unfold State.seen State.nearCopy
  split
  · rename_i x near
    rcases Option.or_eq_some_iff.1 near with shown | ⟨-, shown⟩
    · exact kept _ x (.inl rfl) shown
    · exact kept _ x (.inr (.inl rfl)) shown
  · split
    · exact kept _ _ (.inr (.inr rfl)) ‹_›
    · exact h.value

end

end Sys2Proof.Machine

open Sys2Proof Sys2Proof.Machine

/-- Settles O29: a stored word is the newest of the agent's caches at each of its levels and comes home when it is written through; a fence.rel brings a
waiting word to the die cache, then home, past every eviction on the way. -/
theorem storedWordsAreRead : Obligations.StoredWordsAreRead := by
  unfold Obligations.StoredWordsAreRead
  refine ⟨⟨?_, ?_, ?_⟩, ?_⟩
  · exact fun s a m x sc canonical there aligned => s.loadWord_storeWord a x sc canonical there aligned
  · exact fun s a cl rank off x sc t ht canonical aligned => s.loadWord_storeWord_pad a x sc ht canonical aligned
  · exact fun s a b m m' x canonical there there' aligned pa key clean => s.loadWord_storeThrough a b x canonical there there' aligned pa key clean
  · intro s a b w c canonical shown dirty there only keys
    exact (State.AtHome.fenceRel ⟨shown, dirty, only⟩ ⟨canonical, there, keys⟩).seen_fenceAcq b

end

section
/-! ### A die cache that is full: a new line takes the oldest with it, whose word goes home (R22, R234, R235, log entry 13) -/

namespace Sys2Proof.Machine

open Sys2Proof

/-! The oldest line gives way and its word is written to a home memory that lists a byte twice. -/

/-- The first word of a line of the die cache of die 0, dirty with the value 0. -/
def dirtyLine (i : Nat) : Copy := { cleanLine i with dirty := true }

/-- One word of each of the first n lines. -/
def dirtyLines (n : Nat) : List Copy := (List.range n).map dirtyLine

/-- The die cache of die 0 is full of dirty lines, nothing else holds a copy, the L1 of core 0 has no line, and home lists byte 0 twice: with the value 0,
then with the value 5. -/
structure State.Full (s : State) (n : Nat) : Prop where
  lines : n + 1 = 524288
  copies : s.copies = dirtyLines (n + 1)
  home : s.mem = [(0, 0), (0, 5)]
  unlocked : s.locks = []
  there : ∀ pa, s.gone (some 0) pa = false
  noL1 : s.linesFor (.l1 0) = 0

/-- No cache holds word 0, and it reads as 5. -/
structure State.Turned (s : State) : Prop where
  nowhere : ∀ c ∈ s.copies, c.word ≠ 0
  value : s.homeWordAs 0 0 = 5

theorem mem_dirtyLines {n : Nat} {c : Copy} : c ∈ dirtyLines n ↔ ∃ i < n, c = dirtyLine i := by
  simp [dirtyLines, eq_comm]

namespace State.Full

variable {s : State} {n : Nat} (h : s.Full n)
include h

theorem mem_copies {c : Copy} (hc : c ∈ s.copies) : ∃ i ≤ n, c = dirtyLine i := by
  rw [h.copies, mem_dirtyLines] at hc
  obtain ⟨i, hi, e⟩ := hc
  exact ⟨i, by omega, e⟩

theorem head : s.copies = dirtyLine 0 :: (List.range n).map fun i => dirtyLine (i + 1) := by
  rw [h.copies, dirtyLines, List.range_succ_eq_map, List.map_cons, List.map_map]
  rfl

theorem shown : s.copy? (.dc 0) 0 = some (dirtyLine 0) := by
  rw [State.copy?, h.head]
  rfl

theorem near_none (core w : Nat) : s.nearCopy core w = none := by
  have none_ : ∀ p, p ≠ .dc 0 → s.copy? p w = none := fun p hp => State.copy?_eq_none.2 fun c hc => by
    obtain ⟨i, -, rfl⟩ := h.mem_copies hc
    exact fun e => hp e.1.symm
  rw [State.nearCopy, none_ _ (by simp), none_ _ (by simp)]
  rfl

theorem linesAt : s.linesAt (.dc 0) = 0 :: (List.range n).map (· + 1) := by
  have skipped : ({ s with copies := { cleanLine 0 with pos := .sc 0 } :: s.copies } : State).linesAt (.dc 0) = s.linesAt (.dc 0) := rfl
  rw [← skipped, State.linesAt_range (line := dirtyLine) (n := n + 1) (congrArg _ h.copies) (by simp)
    fun i => ⟨rfl, by simp [dirtyLine, cleanLine]⟩]
  exact List.range_succ_eq_map

theorem locked : s.lockOf (0 / 4) = s.keyAt 0 (0 / 4) := by simp [State.lockOf, h.unlocked, aget, State.keyAt]

theorem homeWord : s.homeWordAs 0 0 = 0 := by
  rw [State.homeWordAs_locked h.locked, State.homeWord, h.home]
  decide

/-- The write of a byte with the value 0 takes its first entry away, and the second shows. -/
theorem homeWord_putHomeAs (c : Copy) : ((s.putCopy c).putHomeAs 0 0 0 false).homeWordAs 0 0 = 5 := by
  have same : (s.putCopy c).relock 0 (0 / 4) = s.putCopy c := State.relock_locked h.locked
  rw [State.putHomeAs, same, State.homeWordAs_locked (by exact h.locked), State.homeWord]
  change BitVec.ofNat 32 (valueAt (putBytes s.mem 0 (leBytes 4 0)) 0 4) = 5
  rw [h.home]
  decide

/-- Every core of the die sees 0 in word 0. -/
theorem seen : s.seen 1 0 0 0 = 0 := by
  simp only [State.seen, h.near_none, h.shown]
  rfl

theorem settled : s.settledAt 0 0 := by
  intro c hc
  obtain ⟨i, -, rfl⟩ := h.mem_copies hc
  exact ⟨fun _ => h.homeWord.symm, fun _ => rfl⟩

/-- With the oldest line its word leaves the cache and goes home. -/
theorem evictDc : (s.evictDc 0 0).Turned := by
  have held : s.heldWords (.dc 0) 0 = [0] := by simp [State.heldWords, h.head, dirtyLine, cleanLine]
  have through := State.throughDc_dirty (c := dirtyLine 0) h.shown rfl (h.there _)
  have gone : s.evictDc 0 0 = { (s.putCopy (cleanLine 0)).putHomeAs 0 0 0 false with
      copies := ((s.putCopy (cleanLine 0)).putHomeAs 0 0 0 false).copies.filter fun c => !(c.pos == .dc 0 && c.word / 32 == 0) } := by
    simp only [State.evictDc, held]
    rw [show s.throughDcs 0 [0] = (s.putCopy (cleanLine 0)).putHomeAs 0 0 0 false from through]
  refine ⟨fun x hx => ?_, ?_⟩
  · have left := State.evictDc_leaves hx
    rw [gone] at hx
    have before := (List.mem_filter.1 hx).1
    rw [State.putHomeAs_copies] at before
    obtain ⟨z, hz, rfl⟩ := List.mem_map.1 before
    have pos : z.pos = .dc 0 := by
      rcases State.mem_putCopy hz with hz | rfl
      · obtain ⟨i, -, rfl⟩ := h.mem_copies hz
        rfl
      · rfl
    exact fun word => left ⟨by simpa using pos, by rw [word]⟩
  · rw [gone]
    exact h.homeWord_putHomeAs _

theorem roomDc {line : Nat} (new : n < line) : (s.roomDc 0 line).Turned := by
  have absent : line ∉ 0 :: (List.range n).map (· + 1) := by
    simp only [List.mem_cons, List.mem_map, List.mem_range, not_or, not_exists, not_and]
    exact ⟨by omega, fun i hi => by omega⟩
  rw [State.roomDc_full h.linesAt (by simpa [State.linesFor] using h.lines) absent]
  exact h.evictDc

/-- A cache that drops what it does not hold. -/
theorem filter {f : Copy → Bool} (keep : ∀ c, c.pos = .dc 0 → f c = true) : ({ s with copies := s.copies.filter f } : State).Full n := by
  have all : s.copies.filter f = s.copies := List.filter_eq_self.2 fun c hc => by
    obtain ⟨i, -, rfl⟩ := h.mem_copies hc
    exact keep _ rfl
  exact ⟨h.lines, all.trans h.copies, h.home, h.unlocked, h.there, h.noL1⟩

end State.Full

theorem State.Turned.putCopy {s : State} (h : s.Turned) {c : Copy} (word : c.word ≠ 0) : (s.putCopy c).Turned :=
  ⟨fun _ hx => (State.mem_putCopy hx).elim (h.nowhere _) fun e => e ▸ word, h.value⟩

/-- A new line comes to the cache. -/
theorem State.Full.fillDc {s : State} {n : Nat} (h : s.Full n) {m : Mapped} {line : Nat} (new : n < line) (plain : m.cp = false)
    (there : s.gone (some m.die) m.pa = false) : (s.fillDc 0 m line).Turned := by
  have missing : ((lineWords line).filter fun w => (s.copy? (.dc 0) w).isNone).isEmpty = false := by
    have first : s.copy? (.dc 0) (32 * line) = none := State.copy?_eq_none.2 fun c hc => by
      obtain ⟨i, hi, rfl⟩ := h.mem_copies hc
      exact fun e => absurd e.2 (by simp [dirtyLine, cleanLine]; omega)
    have listed : 32 * line ∈ (lineWords line).filter fun w => (s.copy? (.dc 0) w).isNone :=
      List.mem_filter.2 ⟨List.mem_map.2 ⟨0, by decide, rfl⟩, by rw [first]; rfl⟩
    rw [List.isEmpty_eq_false_iff]
    exact List.ne_nil_of_mem listed
  obtain ⟨nowhere, value⟩ := h.roomDc new
  simp only [State.fillDc, missing, there, plain, Bool.or_self, Bool.false_eq_true, if_false]
  refine ⟨fun c hc => ?_, value⟩
  rcases List.mem_append.1 hc with hc | hc
  · exact nowhere c hc
  · obtain ⟨w, hw, rfl⟩ := List.mem_map.1 hc
    obtain ⟨i, -, rfl⟩ := List.mem_map.1 (List.mem_filter.1 hw).1
    simp [State.tagged]
    omega

/-- A word that the agent stores comes to it. -/
theorem State.Full.storeWord {s : State} {n : Nat} (h : s.Full n) {m : Mapped} (x : Word) (aligned : m.pa % 4 = 0) (new : n < m.pa / 4 / 32) :
    (s.storeWord ⟨0, 0⟩ (.mem m) 4 x).Turned := by
  have noLine : ((s.dropSc 0 fun c => c.word == m.pa / 4).linesFor (.l1 0) == 0) = true := by
    rw [beq_iff_eq]
    exact h.noL1
  have full := ((h.filter (f := fun c => !(c.pos == .sc 0 && c.word == m.pa / 4)) (by simp +contextual)).filter
    (f := fun c => !(c.pos == CopyAt.l1 0 && c.word == m.pa / 4)) (by simp +contextual))
  rw [State.storeWord_whole s _ x aligned, State.putL1]
  simp only [Mapped.stored, noLine, if_true]
  refine (full.roomDc new).putCopy ?_
  simp [State.tagged]
  omega

theorem State.Turned.seen {s : State} (h : s.Turned) : s.seen 1 0 0 0 = 5 := by
  have none_ : ∀ p, s.copy? p 0 = none := fun p => State.copy?_eq_none.2 fun c hc e => h.nowhere c hc e.2
  simp only [State.seen, State.nearCopy, none_, Option.or_none, h.value]

/-! A fibre on that die with lane 0 at an address of a page beyond these lines. -/

/-- The page at address 64 MiB, of key id 0, that may be read, written and fetched from. -/
def farEntry : TlbEntry := { asid := 1, base := 0, size := 2 ^ 16, leaf := 0x400001F }

/-- What its address 0 is. -/
def farWord : Mapped := farEntry.place 0

/-- One fibre of a team whose scratchpads leave its core's L1 no line, with p1 true in lane 0; its page 0 lies beyond the lines of the full cache. -/
def crowded (n : Nat) : State :=
  let s := State.reset.placeBytes (leBytes 16 0)
  { s with
    mem := [(0, 0), (0, 5)], locks := [], copies := dirtyLines (n + 1), coreTlb := [(0, farEntry)], cur := some { f := ⟨0, 0, 0⟩, gang := 0, pc := 0 }
    fibres := s.fibres.map fun f => { f with p := f.p.set! 1 1 }, teams := s.teams.map fun t => { t with k := 32 } }

/-- An instruction of lane 0 alone, and the scalar register 4, which holds 0. -/
def lane0Hdr : Hdr := ⟨false, 1, false⟩
def zeroOpnd : Opnd := ⟨4, true, false⟩

theorem crowded_full {n : Nat} (lines : n + 1 = 524288) : (crowded n).Full n where
  lines := lines
  copies := rfl
  home := rfl
  unlocked := rfl
  there := by
    have running : ((crowded 0).dies.getD 0 Die.reset).errs = false ∧ ((crowded 0).pdies.any fun p => p.st == .failed) = false := by decide +kernel
    obtain ⟨answers, ports⟩ : ((crowded n).dies.getD 0 Die.reset).errs = false ∧ ((crowded n).pdies.any fun p => p.st == .failed) = false := running
    exact fun pa => by simp only [State.gone, answers, ports, Bool.false_and, Bool.or_self]
  noL1 := by
    have lines : (crowded n).linesFor (.l1 0) = (crowded 0).linesFor (.l1 0) := rfl
    rw [lines]
    decide +kernel

/-- What the issuing gang is: nothing waits, its core and die, and where the byte and the word of lane 0 lie. -/
structure View.AtFarPage (v : View) : Prop where
  fresh : v.fresh
  agent : v.agent = ⟨0, 0⟩
  asid : v.c.asid = 1
  lanes : lanesOf (v.active lane0Hdr) = [0]
  addr : ∀ u ∈ [1, 4], v.addrOf false .gl zeroOpnd (dispOf .gl 0 u) 0 = 0
  inSegment : ∀ u ∈ [1, 4], v.laneInSegment .gl 0 0 u = true
  spots : ∀ u ∈ [1, 4], v.laneSpots .gl 0 0 u = [(.va 0, u)]

/-- The same as a test. -/
def View.atFarPage (v : View) : Bool :=
  v.replaying.isNone && !v.f.fenced && v.agent == ⟨0, 0⟩ && v.c.asid == 1 && lanesOf (v.active lane0Hdr) == [0] && [1, 4].all fun u =>
    v.addrOf false .gl zeroOpnd (dispOf .gl 0 u) 0 == 0 && v.laneInSegment .gl 0 0 u && v.laneSpots .gl 0 0 u == [(.va 0, u)]

theorem View.atFarPage_spec {v : View} (h : v.atFarPage = true) : v.AtFarPage := by
  simp only [View.atFarPage, Bool.and_eq_true, Option.isNone_iff_eq_none, Bool.not_eq_true', beq_iff_eq, List.all_eq_true] at h
  obtain ⟨⟨⟨⟨⟨replaying, fenced⟩, agent⟩, asid⟩, lanes⟩, bytes⟩ := h
  exact ⟨⟨replaying, fenced⟩, agent, asid, lanes, fun u hu => (bytes u hu).1.1, fun u hu => (bytes u hu).1.2, fun u hu => (bytes u hu).2⟩

theorem crowded_issuing (n : Nat) {us : View → List Use} (hus : (crowded 0).canIssue perLane us = true) :
    ∃ v, (crowded n).issuing v perLane (us v) ∧ v.AtFarPage := by
  have same : (crowded n).canIssue perLane us = (crowded 0).canIssue perLane us := rfl
  obtain ⟨v, hi⟩ := State.canIssue_spec (same.trans hus)
  have all : (match (crowded 0).view? with | some v => v.atFarPage | none => false) = true := by decide +kernel
  have view : (crowded 0).view? = some v := hi.1
  rw [view] at all
  exact ⟨v, hi, View.atFarPage_spec all⟩

theorem crowded_xlat (n : Nat) {c : Context} (asid : c.asid = 1) {need : Need} (allowed : permits farEntry.leaf need = true) :
    (crowded n).xlat ⟨0, 0⟩ c 0 need = .ok farEntry := by
  have tlb : (crowded n).coreTlb = [(0, farEntry)] := rfl
  have hits : farEntry.hits c.asid 0 = true := by simp [TlbEntry.hits, farEntry, asid]
  simp only [State.xlat, tlb, List.find?_cons, hits, allowed]
  rfl

theorem addrUses_zeroOpnd (m : Mask) : addrUses false .gl zeroOpnd 0 m = useS 4 m := by simp [addrUses, useSrc, zeroOpnd]

/-- PREF brings the page's line to the die cache. -/
theorem execPref_crowded {n : Nat} {v : View} (hi : (crowded n).issuing v perLane (addrUses false .gl zeroOpnd 0 (v.active lane0Hdr))) (at_ : v.AtFarPage) :
    execPref lane0Hdr .dc .gl zeroOpnd 0 (crowded n) = .next (((crowded n).fillDc 0 farWord 524288).retire v false 8) := by
  have scalars : ∀ u ∈ addrUses false .gl zeroOpnd 0 (v.active lane0Hdr), ∃ r, u.reg = .r r := by
    rw [addrUses_zeroOpnd]
    exact useS_reg 4 _
  obtain ⟨⟨-, fenced⟩, agent, asid, lanes, addr, inSegment, spots⟩ := at_
  have die : v.die = 0 := congrArg Agent.die agent
  rw [execPref, issue, issueAs_body (us := fun v => addrUses false .gl zeroOpnd 0 (v.active lane0Hdr)) hi]
  simp only [State.consume_scalars scalars, fenced, lanes, List.foldl_cons, List.foldl_nil, addr 1 (by simp), inSegment 1 (by simp), spots 1 (by simp), agent,
    crowded_xlat n asid (show permits farEntry.leaf .read = true by decide), die]
  exact congrArg (fun t : State => Host.Outcome.next (t.retire v false 8)) (State.noteDead_scalars scalars)

section
variable {n : Nat} {v : View}

/-- The page's first word. -/
theorem View.AtFarPage.accesses (h : v.AtFarPage) {u : Nat} (hu : u ∈ [1, 4]) :
    (lanesOf (v.active lane0Hdr)).map (fun l => accessOf l (v.addrOf false .gl zeroOpnd (dispOf .gl 0 u) l) u u) = [⟨0, 0, u, true⟩] := by
  rw [h.lanes, List.map_singleton, h.addr u hu]
  simp [accessOf]

theorem View.AtFarPage.placed (h : v.AtFarPage) {u : Nat} (hu : u ∈ [1, 4]) {need : Need} (allowed : permits farEntry.leaf need = true) :
    v.placed (crowded n) .gl need [⟨0, 0, u, true⟩] = [⟨0, 0, [(.mem farWord, u)]⟩] := by
  have target : v.targetAt (crowded n) need (.va 0) = .mem farWord := by
    simp only [View.targetAt, h.agent]
    rw [show (crowded n).xlat ⟨0, 0⟩ v.c (0 / 2 ^ 16 * 2 ^ 16) need = .ok farEntry from crowded_xlat n h.asid allowed]
    rfl
  simp only [View.placed, List.map_cons, List.map_nil, h.spots u hu, target]

theorem View.AtFarPage.reaches (h : v.AtFarPage) {u : Nat} (hu : u ∈ [1, 4]) {need : Need} (allowed : permits farEntry.leaf need = true) :
    v.reaches (crowded n) .gl need [⟨0, 0, u, true⟩] := by
  intro a ha
  obtain rfl := List.mem_singleton.1 ha
  refine ⟨h.inSegment u hu, rfl, fun y hy => ?_⟩
  rw [h.spots u hu] at hy
  obtain rfl := List.mem_singleton.1 hy
  exact ⟨farEntry, by rw [h.agent]; exact crowded_xlat n h.asid allowed⟩

/-- The translation is in the TLB already. -/
theorem View.AtFarPage.cached (h : v.AtFarPage) {u : Nat} (hu : u ∈ [1, 4]) {need : Need} (allowed : permits farEntry.leaf need = true) :
    v.cached (crowded n) .gl need [⟨0, 0, u, true⟩] = crowded n := by
  have frames : v.framesOf .gl [⟨0, 0, u, true⟩] = [0] := by
    simp only [View.framesOf, List.flatMap_cons, List.flatMap_nil, List.append_nil, h.spots u hu]
    rfl
  have kept : (crowded n).keepXlat ⟨0, 0⟩ farEntry = crowded n := by
    have here : (crowded n).coreTlb = [(0, farEntry)] := rfl
    simp [State.keepXlat, here]
  simp only [View.cached, frames, List.filterMap_cons, List.filterMap_nil, h.agent]
  rw [show (crowded n).xlat ⟨0, 0⟩ v.c (0 * 2 ^ 16) need = .ok farEntry from crowded_xlat n h.asid allowed]
  exact kept

end

/-! What instructions leave of memory as a core sees it. -/

theorem State.Acts.seen {s t : State} {f : Fibre} {a : Fibre → Fibre} {b : Slot → Slot} (h : State.Acts s t f a b) (core die : Nat) (k : Byte) (w : Nat) :
    t.seen core die k w = s.seen core die k w := by
  rw [h.eq]
  rfl

theorem View.performed_seen (v : View) (sw : Bool) (len : Nat) (us : List Use) (s : State) (core die : Nat) (k : Byte) (w : Nat) :
    (v.performed sw len us (.plain s [] false)).seen core die k w = s.seen core die k w :=
  ((State.retire_acts _ v sw len).seen core die k w).trans (((State.noteDead_acts _ v us).seen core die k w).trans ((State.consume_acts s v us).seen core die k w))

/-- A store of a whole word of an ordinary page is a store into the caches. -/
theorem State.storeParts_word (s : State) (a : Agent) {m : Mapped} (plain : m.rp = false) (x : Word) :
    s.storeParts a none [(.mem m, 4)] [x] = s.storeWord a (.mem m) 4 x := by
  simp [State.storeParts, recut, partsLen, State.storesThrough, State.throughWords, storeLevel, plain, Target.mapped?, State.throughDcs]

end Sys2Proof.Machine

open Sys2Proof Sys2Proof.Machine

/-- Refutes O31 in its clause on PREF: the line that PREF brings takes the oldest line of a full die cache with it, whose dirty word goes home as home held
it; home lists a byte of that word twice, and the write of 0 takes the entry 0 away and leaves 5. -/
theorem not_fencesLinesAndObjects : ¬ Obligations.FencesLinesAndObjects := by
  unfold Obligations.FencesLinesAndObjects
  rintro ⟨prefs, -⟩
  obtain ⟨n, lines⟩ : ∃ n, n + 1 = 524288 := ⟨524287, rfl⟩
  have full := crowded_full lines
  obtain ⟨v, hi, at_⟩ := crowded_issuing n (us := fun v => addrUses false .gl zeroOpnd 0 (v.active lane0Hdr)) (by decide +kernel)
  obtain ⟨-, accesses⟩ := prefs (crowded n) v false lane0Hdr .acq .device .gl zeroOpnd 0 .dc at_.fresh
  obtain ⟨⟨t, ran, kept, -⟩, -⟩ := accesses hi
  have same := (execPref_crowded hi at_).symm.trans ran
  obtain rfl := Host.Outcome.next.inj same
  have core : v.core = 0 := congrArg Agent.core at_.agent
  have before := kept 1 0 0 0 (by simp [core]) (fun r hr p hp x hx _ => ?_) (.inr full.settled)
  · have turned := full.fillDc (m := farWord) (line := 524288) (by omega) rfl (full.there _)
    rw [(State.retire_acts _ v false 8).seen, turned.seen, full.seen] at before
    exact absurd before (by decide)
  · rw [at_.accesses (by simp), at_.placed (by simp) (by decide)] at hr
    obtain rfl := List.mem_singleton.1 hr
    obtain rfl := List.mem_singleton.1 hp
    exact Target.mem.inj hx ▸ rfl

/-- Refutes O28: the word that ST stores takes the oldest line of a full die cache with it, whose dirty word goes home as home held it; home lists a byte of
that word twice, and the write of 0 takes the entry 0 away and leaves 5. -/
theorem not_storesComplete : ¬ Obligations.StoresComplete := by
  unfold Obligations.StoresComplete
  intro stores
  obtain ⟨n, lines⟩ : ∃ n, n + 1 = 524288 := ⟨524287, rfl⟩
  have full := crowded_full lines
  obtain ⟨v, hi, at_⟩ := crowded_issuing n (us := fun v => addrUses false .gl zeroOpnd 0 (v.active lane0Hdr) ++ useS 4 (v.active lane0Hdr)) (by decide +kernel)
  obtain ⟨-, reached, -⟩ := stores (crowded n) v lane0Hdr none .one .gl .n32 zeroOpnd zeroOpnd 0 hi at_.fresh (.inl rfl)
  have count : Count.one.n = 1 := rfl
  have bytes : Ty.n32.bytes = 4 := rfl
  simp only [count, bytes, Nat.one_mul] at reached
  rw [at_.accesses (u := 4) (by simp), at_.placed (by simp) (by decide), at_.cached (by simp) (by decide)] at reached
  have word : ∀ r ∈ [(⟨0, 0, [(.mem farWord, 4)]⟩ : Ready)], ∀ p ∈ r.parts, ∀ x, p.1 = .mem x → x = farWord := fun r hr p hp x hx => by
    obtain rfl := List.mem_singleton.1 hr
    obtain rfl := List.mem_singleton.1 hp
    exact (Target.mem.inj hx).symm
  have untagged : ∀ r ∈ [(⟨0, 0, [(.mem farWord, 4)]⟩ : Ready)], ∀ p ∈ r.parts, (crowded n).isTagged p.1 = false := fun r hr p hp => by
    obtain rfl := List.mem_singleton.1 hr
    obtain rfl := List.mem_singleton.1 hp
    rfl
  have core : v.agent.core = 0 := congrArg Agent.core at_.agent
  obtain ⟨-, others, -⟩ := reached (by simp) (by simp) (at_.reaches (by simp) (by decide)) untagged
  have before := others 1 0 0 0 (by simp [core]) ⟨fun r hr p hp x hx _ => word r hr p hp x hx ▸ rfl, .inr full.settled⟩
    fun r hr p hp x hx => word r hr p hp x hx ▸ by decide
  have data : v.dataWords .n32 (runRegs .n32 .one) zeroOpnd 0 = [(scalarValue v.f .n32 4).setWidth 32] := rfl
  have beyond : n < farWord.pa / 4 / 32 := by
    rw [show farWord.pa / 4 / 32 = 524288 from rfl]
    omega
  rw [View.performed_seen, List.foldl_cons, List.foldl_nil, at_.agent, data, State.storeParts_word _ _ rfl, (full.storeWord _ rfl beyond).seen, full.seen] at before
  exact absurd before (by decide)

end

section
/-! ### Layout and handle registers as fields (R251, R255) -/

namespace Sys2Proof.Machine

open Sys2Proof

theorem Mode.bits_eq_cast (m : Mode) : m.bits = BitVec.cast (by decide)
    (BitVec.ofInt 24 m.so ++ BitVec.ofNat 16 m.eo ++ BitVec.ofInt 24 m.si ++ BitVec.ofNat 16 m.ei) := rfl

theorem Lay.bits_eq_cast (l : Lay) : l.bits = BitVec.cast (by decide)
    (0#14 ++ BitVec.ofNat 3 l.nm ++ BitVec.ofNat 3 l.dm ++ BitVec.ofNat 4 l.sb ++ BitVec.ofNat 4 l.sm ++ BitVec.ofNat 4 l.ss ++
      (l.mode 5).bits ++ (l.mode 4).bits ++ (l.mode 3).bits ++ (l.mode 2).bits ++ (l.mode 1).bits ++ (l.mode 0).bits) := (BitVec.cast_eq rfl _).symm

theorem Handle.bits_eq_cast (h : Handle) : h.bits = BitVec.cast (by decide)
    (BitVec.ofNat 48 h.dstride ++ h.tscale ++ h.fp4x ++ BitVec.ofNat 6 h.sshift ++ BitVec.ofNat 56 h.sbase ++ h.asid ++ h.tdev ++
      h.gsize ++ h.fmt ++ h.kind ++ BitVec.ofNat 56 h.base) := (BitVec.cast_eq rfl _).symm

/-- The fields of the mode that 80 bits hold (R251). -/
def modeOf (x : BitVec 80) : Mode :=
  { ei := (x.extractLsb' 0 16).toNat, si := (x.extractLsb' 16 24).toInt, eo := (x.extractLsb' 40 16).toNat, so := (x.extractLsb' 56 24).toInt }

theorem modeOf_bits {m : Mode} (hei : m.ei < 2 ^ 16) (heo : m.eo < 2 ^ 16) (hsi : -2 ^ 23 ≤ m.si ∧ m.si < 2 ^ 23) (hso : -2 ^ 23 ≤ m.so ∧ m.so < 2 ^ 23) :
    modeOf m.bits = m := by
  simp (disch := decide) only [modeOf, Mode.bits_eq_cast, extractLsb'_cast, BitVec.extractLsb'_append_eq_of_le,
    BitVec.extractLsb'_append_eq_of_add_le, BitVec.extractLsb'_eq_self, Nat.reduceSub, BitVec.toNat_ofNat, Nat.mod_eq_of_lt hei, Nat.mod_eq_of_lt heo,
    BitVec.toInt_ofInt_eq_self (show 0 < 24 by decide) hsi.1 hsi.2, BitVec.toInt_ofInt_eq_self (show 0 < 24 by decide) hso.1 hso.2]

theorem bits_modeOf (x : BitVec 80) : (modeOf x).bits = x := by
  simp only [modeOf, Mode.bits, BitVec.ofInt_toInt, BitVec.ofNat_toNat, BitVec.setWidth_eq]
  simp (disch := decide) only [BitVec.extractLsb'_append_extractLsb'_eq_extractLsb']
  exact BitVec.extractLsb'_eq_self

/-- Fields of a field. -/
theorem extractLsb'_extractLsb'_add {w : Nat} (x : BitVec w) {i n j k : Nat} (h : j + k ≤ n) :
    (x.extractLsb' i n).extractLsb' j k = x.extractLsb' (i + j) k := by
  ext b hb
  simp only [BitVec.getElem_extractLsb', BitVec.getLsbD_extractLsb', show j + b < n by omega, decide_true, Bool.true_and, Nat.add_assoc]

/-- A field below one that zeros extend: both are one field that zeros extend. -/
theorem setWidth_append_extractLsb' {w : Nat} (x : BitVec w) {i j m k p : Nat} (hj : j = i + k) :
    (x.extractLsb' j m).setWidth p ++ x.extractLsb' i k = (x.extractLsb' i (m + k)).setWidth (p + k) := by
  ext b hb
  simp only [BitVec.getElem_append, BitVec.getElem_setWidth, BitVec.getElem_extractLsb', BitVec.getLsbD_extractLsb', hj]
  by_cases low : b < k
  · simp [low, show b < m + k by omega]
  · have high : i + k + (b - k) = i + b := by omega
    simp only [low, dite_false, high, show (b - k < m) = (b < m + k) by rw [eq_iff_iff]; omega]

theorem modeOf_extract {w : Nat} (x : BitVec w) (i : Nat) : modeOf (x.extractLsb' i 80) =
    { ei := (x.extractLsb' i 16).toNat, si := (x.extractLsb' (i + 16) 24).toInt, eo := (x.extractLsb' (i + 40) 16).toNat,
      so := (x.extractLsb' (i + 56) 24).toInt } := by
  simp (disch := omega) only [modeOf, extractLsb'_extractLsb'_add, Nat.add_zero]

theorem layOf_modes (x : BitVec 512) : (layOf x).modes = (upTo 6).map fun m => modeOf (x.extractLsb' (80 * m) 80) := by
  simp only [layOf, modeOf_extract]

theorem layOf_mode (x : BitVec 512) {m : Nat} (h : m < 6) : (layOf x).mode m = modeOf (x.extractLsb' (80 * m) 80) := by
  rw [Lay.mode, layOf_modes, getD_map_upTo h]

theorem bits_layOf (x : BitVec 512) : (layOf x).bits = (x.extractLsb' 0 498).setWidth 512 := by
  have zeros : 0#14 ++ x.extractLsb' 495 3 = (x.extractLsb' 495 3).setWidth 17 := by
    rw [BitVec.setWidth_eq_append (by decide), BitVec.cast_eq]
  rw [Lay.bits_eq_cast]
  simp (disch := decide) only [layOf_mode, bits_modeOf]
  simp only [layOf, BitVec.ofNat_toNat, BitVec.setWidth_eq, zeros]
  simp (disch := decide) only [setWidth_append_extractLsb']
  exact BitVec.cast_eq rfl _

theorem Lay.eq_of_fields {l l' : Lay} (hnm : l.nm = l'.nm) (hdm : l.dm = l'.dm) (hsb : l.sb = l'.sb) (hsm : l.sm = l'.sm) (hss : l.ss = l'.ss)
    (hmodes : l.modes = l'.modes) : l = l' := by
  obtain ⟨nm, dm, sb, sm, ss, modes⟩ := l
  subst hnm hdm hsb hsm hss hmodes
  rfl

theorem Lay.bits_mode (l : Lay) {m : Nat} (h : m < 6) : l.bits.extractLsb' (80 * m) 80 = (l.mode m).bits := by
  interval_cases m <;> simp (disch := decide) only [Lay.bits_eq_cast, extractLsb'_cast, Nat.reduceMul, BitVec.extractLsb'_append_eq_of_le,
    BitVec.extractLsb'_append_eq_of_add_le, BitVec.extractLsb'_eq_self, Nat.reduceSub]

theorem Lay.map_mode {l : Lay} {n : Nat} (h : l.modes.length = n) : (upTo n).map l.mode = l.modes := by
  subst h
  exact List.ext_getElem (by simp [upTo]) fun m _ inside => by simp [upTo, Lay.mode, inside]

/-- A layout whose fields hold values of their widths. -/
theorem layOf_bits {l : Lay} (hnm : l.nm < 8) (hdm : l.dm < 8) (hsb : l.sb < 16) (hsm : l.sm < 16) (hss : l.ss < 16) (h6 : l.modes.length = 6)
    (hm : ∀ m ∈ l.modes, modeOf m.bits = m) : layOf l.bits = l := by
  have modes : (layOf l.bits).modes = l.modes := by
    rw [← Lay.map_mode h6, layOf_modes]
    refine List.map_congr_left fun m h => ?_
    have inside : m < 6 := by simpa [upTo] using h
    rw [l.bits_mode inside]
    exact hm _ (Lay.map_mode h6 ▸ List.mem_map_of_mem h)
  refine Lay.eq_of_fields ?_ ?_ ?_ ?_ ?_ modes
  all_goals simp (disch := decide) only [layOf, Lay.bits_eq_cast, extractLsb'_cast, BitVec.extractLsb'_append_eq_of_le,
    BitVec.extractLsb'_append_eq_of_add_le, BitVec.extractLsb'_eq_self, Nat.reduceSub, BitVec.toNat_ofNat]
  · exact Nat.mod_eq_of_lt hnm
  · exact Nat.mod_eq_of_lt hdm
  · exact Nat.mod_eq_of_lt hsb
  · exact Nat.mod_eq_of_lt hsm
  · exact Nat.mod_eq_of_lt hss

theorem bits_handleOf (x : BitVec 256) : (handleOf x).bits = x := by
  simp only [handleOf, Handle.bits, BitVec.ofNat_toNat, BitVec.setWidth_eq]
  simp (disch := decide) only [BitVec.extractLsb'_append_extractLsb'_eq_extractLsb']
  exact BitVec.extractLsb'_eq_self

theorem handleOf_bits {h : Handle} (hd : h.dstride < 2 ^ 48) (hs : h.sshift < 2 ^ 6) (hb : h.sbase < 2 ^ 56) (hx : h.base < 2 ^ 56) :
    handleOf h.bits = h := by
  simp (disch := decide) only [handleOf, Handle.bits_eq_cast, extractLsb'_cast, BitVec.extractLsb'_append_eq_of_le,
    BitVec.extractLsb'_append_eq_of_add_le, BitVec.extractLsb'_eq_self, Nat.reduceSub, BitVec.toNat_ofNat, Nat.mod_eq_of_lt hd, Nat.mod_eq_of_lt hs,
    Nat.mod_eq_of_lt hb, Nat.mod_eq_of_lt hx]

end Sys2Proof.Machine

end

section
/-! ### Instructions that touch no vector register, and those of a source layout (R252, R265) -/

namespace Sys2Proof.Machine

open Sys2Proof

/-- None of the uses is of a vector register. -/
def NoRows (us : List Use) : Prop := ∀ u ∈ us, ∃ r, u.reg = .r r

@[simp] theorem noRows_nil : NoRows [] := by simp [NoRows]
@[simp] theorem noRows_append (us us' : List Use) : NoRows (us ++ us') ↔ NoRows us ∧ NoRows us' := List.forall_mem_append
@[simp] theorem noRows_useS (a : BitVec 8) (m : Mask) : NoRows (useS a m) := useS_reg a m
@[simp] theorem noRows_defS (n : Nat) (m : Mask) : NoRows (defS n m) := by simp [NoRows, defS]
@[simp] theorem noRows_useL (n : Nat) (m : Mask) : NoRows (useL n m) := by simp [NoRows, useL]
@[simp] theorem noRows_defL (n : Nat) (m : Mask) : NoRows (defL n m) := by simp [NoRows, defL]
@[simp] theorem noRows_useH (n : Nat) (m : Mask) : NoRows (useH n m) := by simp [NoRows, useH]
@[simp] theorem noRows_defH (n : Nat) (m : Mask) : NoRows (defH n m) := by simp [NoRows, defH]

section
variable {s t : State} {v : View} {us : View → List Use} {us' : List Use} {body : View → State → Chk State} {sw : Bool} {len : Nat}
  (hi : s.issuing v perLane us') (hus : us v = us') (hu : NoRows us')
include hi hus hu

theorem issue_next (hb : body v s = .ok t) : issue sw len us body s = .next (t.retire v sw len) := by
  subst hus
  rw [issue, issueAs_body hi, State.consume_scalars hu, hb]
  exact congrArg (fun t : State => Host.Outcome.next (t.retire v sw len)) (State.noteDead_scalars hu)

theorem issue_traps {code : Trap} {m : Mask} (hb : body v s = .error (v.stop code m)) :
    issue sw len us body s = .next (s.traps v (v.trapRec code m 0 0)) :=
  issueAs_traps hi hus (by rw [State.consume_scalars hu, hb])

/-- An instruction whose body answers or traps by one condition. -/
theorem issue_decides {P : Prop} [Decidable P] {code : Trap} {m : Mask} (hb : body v s = if P then .ok t else .error (v.stop code m)) :
    (¬P → issue sw len us body s = .next (s.traps v (v.trapRec code m 0 0))) ∧ (P → issue sw len us body s = .next (t.retire v sw len)) :=
  ⟨fun h => issue_traps hi hus hu (by rw [hb, if_neg h]), fun h => issue_next hi hus hu (by rw [hb, if_pos h])⟩
end

theorem View.laySrc_eq (v : View) (n : BitVec 4) : v.laySrc n =
    if (v.lay n).illFormed = true then .error (v.stop .layoutCompose v.g.lanes) else .ok (v.lay n) := by
  simp only [View.laySrc, View.require_bind, Bool.not_eq_true', ← Bool.not_eq_true, ite_not]
  rfl

section
variable {s : State} {v : View} {sw : Bool} {len : Nat} {d a : BitVec 4} {us : View → List Use} {us' : List Use} {f : View → Lay → Chk Lay}
  (hi : s.issuing v perLane (useL a.toNat v.g.lanes ++ us' ++ defL d.toNat v.g.lanes)) (hus : us v = us') (hu : NoRows us')
include hi hus hu

theorem layOp_next {l : Lay} (wf : (v.lay a).illFormed = false) (hf : f v (v.lay a) = .ok l) :
    layOp sw len d a us f s = .next ((s.upd v.f (.l d.toNat l.bits)).retire v sw len) := by
  subst hus
  exact issue_next hi rfl (by simp [hu]) (by simp only [View.laySrc_eq, wf, Bool.false_eq_true, if_false, Except.ok_bind, hf]; rfl)

theorem layOp_illFormed (bad : (v.lay a).illFormed = true) :
    layOp sw len d a us f s = .next (s.traps v (v.trapRec .layoutCompose v.g.lanes 0 0)) := by
  subst hus
  exact issue_traps hi rfl (by simp [hu]) (by simp only [View.laySrc_eq, bad, if_true, Except.error_bind])

theorem layOp_traps {code : Trap} (wf : (v.lay a).illFormed = false) (hf : f v (v.lay a) = .error (v.stop code v.g.lanes)) :
    layOp sw len d a us f s = .next (s.traps v (v.trapRec code v.g.lanes 0 0)) := by
  subst hus
  exact issue_traps hi rfl (by simp [hu]) (by simp only [View.laySrc_eq, wf, Bool.false_eq_true, if_false, Except.ok_bind, hf, Except.error_bind])

/-- A layout instruction whose source is ill-formed, or whose own conditions fail with the same code. -/
theorem layOp_composeTraps (bad : (v.lay a).illFormed = true ∨ f v (v.lay a) = .error (v.stop .layoutCompose v.g.lanes)) :
    layOp sw len d a us f s = .next (s.traps v (v.trapRec .layoutCompose v.g.lanes 0 0)) := by
  by_cases wf : (v.lay a).illFormed = true
  · exact layOp_illFormed hi hus hu wf
  · exact layOp_traps hi hus hu (by simpa using wf) (bad.resolve_left wf)

end

end Sys2Proof.Machine

end

section
/-! ### HMK, HSET, HQRY, LQRY, LMOV and LSLICE (R267, R272, R274 to R276) -/

namespace Sys2Proof.Machine

open Sys2Proof

section
variable (s : State) (sw : Bool) (d a : BitVec 4) (n b : BitVec 8) (q : BitVec 6)

theorem exec_hmk (gs : BitVec 2) (kind : Kind) (fmt : Fmt) (stride : BitVec 48) :
    exec (.hmk sw gs kind fmt d n b stride) s = execHmk sw gs kind fmt d n b stride s := rfl
theorem exec_hset (f : HField) (val : HVal) : exec (.hset sw f d val) s = execHset sw f d val s := rfl
theorem exec_hqry (f : HField) : exec (.hqry sw f q a) s = execHqry sw f q a s := rfl
theorem exec_lqry (k : LQuery) : exec (.lqry sw k q a) s = execLqry sw k q a s := rfl
theorem exec_lmov (hnd : Bool) : exec (.lmov sw hnd d a) s = execLmov sw hnd d a s := rfl
theorem exec_lslice (mode : BitVec 3) (c : BitVec 4) (imm : Word) : exec (.lslice sw mode d a b c imm) s = execLslice sw mode d a b c imm s := rfl
end

section
variable {s : State} {v : View} {sw : Bool} {d a : BitVec 4} {n b : BitVec 8} {q : BitVec 6}

/-- The handle that HMK makes from the target `t` (R275). -/
def View.made (v : View) (gs : BitVec 2) (kind : Kind) (fmt : Fmt) (n : BitVec 8) (t : DWord) (stride : BitVec 48) : Handle :=
  { dstride := stride.toNat, tscale := 0x3F800000, fp4x := 0, sshift := 0, sbase := 0, asid := t.extractLsb' 16 16, tdev := t.setWidth 16, gsize := gs,
    fmt := fmt.code, kind := kind.code, base := (v.sval n).toNat % 2 ^ 56 }

theorem execHmk_next {gs : BitVec 2} {kind : Kind} {fmt : Fmt} {stride : BitVec 48}
    (hi : s.issuing v perLane (useS n v.g.lanes ++ (if kind = .rm then useS b v.g.lanes else []) ++ defH d.toNat v.g.lanes)) :
    execHmk sw gs kind fmt d n b stride s =
      .next ((s.upd v.f (.h d.toNat (v.made gs kind fmt n (if kind = .rm then v.sval b else 0) stride).bits)).retire v sw 16) := by
  have uses : NoRows (useS n v.g.lanes ++ (if kind = .rm then useS b v.g.lanes else []) ++ defH d.toNat v.g.lanes) := by
    split <;> simp
  exact issue_next hi (by simp only [beq_iff_eq]) uses (by simp only [beq_iff_eq]; rfl)

/-! HSET and HQRY. -/

/-- The bits of a handle field. -/
def fieldWidth : HField → Nat
  | .base | .sbase => 56
  | .kind => 3
  | .fmt => 5
  | .gsize => 2
  | .tdev | .asid | .fp4x => 16
  | .sshift => 6
  | .tscale => 32
  | .dstride => 48

/-- A value whose low bits are a reserved code of the field (R256). -/
def reservedIn (f : HField) (x : DWord) : Prop :=
  (f = .kind ∧ 6 ≤ x.toNat % 8) ∨ (f = .fmt ∧ Fmt.ofCode (x.setWidth 5) = none) ∨ (f = .gsize ∧ x.toNat % 4 = 3)

theorem Kind.ofCode_eq_none {c : BitVec 3} : Kind.ofCode c = none ↔ 6 ≤ c.toNat := List.getElem?_eq_none_iff

theorem Handle.set_eq_none (h : Handle) (f : HField) (x : DWord) : h.set f x = none ↔ reservedIn f x := by
  cases f with
  | kind => simp [Handle.set, reservedIn, Kind.ofCode_eq_none]
  | fmt => simp [Handle.set, reservedIn]
  | gsize => simp [Handle.set, reservedIn, ← BitVec.toNat_inj]
  | _ => simp [Handle.set, reservedIn]

/-- A field reads as it was set, and the others stay. -/
theorem Handle.get_set {h h' : Handle} {f : HField} {x : DWord} (hs : h.set f x = some h') :
    h'.get f = x.toNat % 2 ^ fieldWidth f ∧ ∀ g, g ≠ f → h'.get g = h.get g := by
  cases f with
  | kind | fmt | gsize =>
    simp only [Handle.set, Option.ite_none_left_eq_some, Option.ite_none_right_eq_some, Option.some.injEq] at hs
    obtain ⟨-, rfl⟩ := hs
    exact ⟨by simp [Handle.get, fieldWidth], fun g hg => by cases g <;> simp [Handle.get] at hg ⊢⟩
  | _ =>
    simp only [Handle.set, Option.some.injEq] at hs
    subst hs
    exact ⟨by simp [Handle.get, fieldWidth], fun g hg => by cases g <;> simp [Handle.get] at hg ⊢⟩

/-- The value that HSET sets. -/
def View.setValue (v : View) (val : HVal) : DWord := match val with | .reg r => v.sval r | .imm i => i

/-- The scalar register that HSET reads, if any. -/
def setUses (m : Mask) (val : HVal) : List Use := match val with | .reg r => useS r m | .imm _ => []

theorem noRows_hset (n : Nat) (m : Mask) (val : HVal) : NoRows (useH n m ++ setUses m val ++ defH n m) := by
  cases val <;> simp [setUses]

section
variable {f : HField} {val : HVal} (hi : s.issuing v perLane (useH d.toNat v.g.lanes ++ setUses v.g.lanes val ++ defH d.toNat v.g.lanes))
include hi

theorem execHset_traps (hr : reservedIn f (v.setValue val)) :
    execHset sw f d val s = .next (s.traps v (v.trapRec .illegalInstruction v.g.lanes 0 0)) := by
  have none_ := ((v.handle d).set_eq_none f _).2 hr
  cases val <;> exact issue_traps hi rfl (noRows_hset _ _ _) (by dsimp only [View.setValue] at none_ ⊢; rw [none_])

theorem execHset_next {h : Handle} (hs : (v.handle d).set f (v.setValue val) = some h) :
    execHset sw f d val s = .next ((s.upd v.f (.h d.toNat h.bits)).retire v sw 16) := by
  cases val <;> exact issue_next hi rfl (noRows_hset _ _ _) (by dsimp only [View.setValue] at hs ⊢; rw [hs])
end

theorem execHqry_next {f : HField} (hi : s.issuing v perLane (useH a.toNat v.g.lanes ++ defS q.toNat v.g.lanes)) :
    execHqry sw f q a s = .next ((s.upd v.f (.s q.toNat (BitVec.ofNat 64 ((v.handle a).get f)))).retire v sw 8) :=
  issue_next hi rfl (by simp) rfl

theorem execLmov_layout (hi : s.issuing v perLane (useL a.toNat v.g.lanes ++ defL d.toNat v.g.lanes)) :
    execLmov sw false d a s = .next ((s.upd v.f (.l d.toNat (v.f.l.getD a.toNat 0))).retire v sw 8) :=
  issue_next hi rfl (by simp) rfl

theorem execLmov_handle (hi : s.issuing v perLane (useH a.toNat v.g.lanes ++ defH d.toNat v.g.lanes)) :
    execLmov sw true d a s = .next ((s.upd v.f (.h d.toNat (v.f.h.getD a.toNat 0))).retire v sw 8) :=
  issue_next hi rfl (by simp) rfl

/-! LQRY. -/

/-- The handle that a query reads, if any. -/
def queryUses (m : Mask) (k : LQuery) : List Use := match handleOfQuery k with | some h => useH h.toNat m | none => []

theorem execLqry_next {k : LQuery} (hi : s.issuing v perLane (useL a.toNat v.g.lanes ++ queryUses v.g.lanes k ++ defS q.toNat v.g.lanes)) :
    execLqry sw k q a s = .next ((s.upd v.f (.s q.toNat (BitVec.ofNat 64 (layQuery (v.lay a) k v.handle)))).retire v sw 8) := by
  have uses : NoRows (queryUses v.g.lanes k) := by
    unfold queryUses
    split <;> simp
  exact issue_next hi rfl (by simp [uses]) rfl

end

section
variable {e : Engine} {dec st part : Bool} {h : Handle} {l : Lay}

theorem classOf_illFormed (bad : l.illFormed = true) : classOf e dec st part h l = .rejected := by
  unfold classOf
  split <;> simp [bad]

/-- Only where LE8Partial is asked for is it a class. -/
theorem classOf_ne_le8Partial : classOf e dec st false h l ≠ .le8Partial := by
  unfold classOf
  split
  · simp
  · simp only [Bool.false_and, Bool.false_eq_true, if_false]
    split_ifs <;> simp

theorem Class.code_le (c : Class) : c.code ≤ 2 := by cases c <;> decide

theorem Class.code_eq_two {c : Class} (h : c ≠ .le8Partial) : c.code = 2 ↔ c = .rejected := by
  cases c <;> simp_all [Class.code]

end

section
variable {l : Lay} {k : LQuery} {hs : BitVec 4 → Handle}

theorem layQuery_illFormed (bad : l.illFormed = true) : layQuery l k hs = match k with | .cls .. => 2 | _ => 0 := by
  cases k <;> simp [layQuery, bad, classOf_illFormed bad, Class.code]

/-- What a feeder asks beyond the class of the operand (R288). -/
theorem layQuery_cls (e : Engine) (n : BitVec 4) : layQuery l (.cls e n) hs =
    if (e = .wf ∨ e = .af) ∧ ∀ t, (hs n).tensor = some t → t.rowsAligned l = false then 2
    else (classOf e (e == .wf || e == .af) false false (hs n) l).code := by
  have aligned : ((hs n).tensor.any fun t => t.rowsAligned l) = false ↔ ∀ t, (hs n).tensor = some t → t.rowsAligned l = false := by
    cases (hs n).tensor <;> simp
  simp only [layQuery, Bool.and_eq_true, Bool.or_eq_true, beq_iff_eq, Bool.not_eq_true', aligned]

theorem layQuery_cls_le (e : Engine) (n : BitVec 4) : layQuery l (.cls e n) hs ≤ 2 := by
  rw [layQuery_cls]
  split
  · exact Nat.le_refl 2
  · exact Class.code_le _

theorem layQuery_cls_eq_two (e : Engine) (n : BitVec 4) : layQuery l (.cls e n) hs = 2 ↔
    classOf e (e == .wf || e == .af) false false (hs n) l = .rejected ∨
      ((e = .wf ∨ e = .af) ∧ ∀ t, (hs n).tensor = some t → t.rowsAligned l = false) := by
  rw [layQuery_cls]
  split
  next unaligned => exact ⟨fun _ => .inr unaligned, fun _ => rfl⟩
  next aligned => rw [Class.code_eq_two classOf_ne_le8Partial, or_iff_left aligned]

theorem Tensor.degrees_nil {t : Tensor} (htm : t.kind ≠ .tm) (hcl : t.kind ≠ .cl) (us : List TileUnit) : t.degrees us = [] := by
  simp [Tensor.degrees, htm, hcl]

theorem Handle.tensor_kind {h : Handle} {t : Tensor} (ht : h.tensor = some t) : Kind.ofCode h.kind = some t.kind := by
  unfold Handle.tensor at ht
  simp only [Option.bind_eq_bind, Option.bind_eq_some_iff, Option.some.injEq] at ht
  obtain ⟨f, -, k, hk, rfl⟩ := ht
  exact hk

theorem Kind.code_of_ofCode {c : BitVec 3} {k : Kind} (h : Kind.ofCode c = some k) : c = k.code := by
  revert c
  cases k <;> decide

/-- The degree outside the team and cluster spaces (R274). -/
theorem layQuery_deg_zero {n : BitVec 4} (htm : (hs n).kind ≠ Kind.tm.code) (hcl : (hs n).kind ≠ Kind.cl.code) : layQuery l (.deg n) hs = 0 := by
  simp only [layQuery]
  split
  · rfl
  · split
    next t ht =>
      have kind := Kind.code_of_ofCode (Handle.tensor_kind ht)
      rw [Tensor.degrees_nil (fun e => htm (e ▸ kind)) (fun e => hcl (e ▸ kind))]
      rfl
    next => rfl

end

/-! LSLICE (R272). -/

section
variable (l : Lay) (h : Handle) (m co : Nat)

/-- The offset that the coordinate `co` of mode `m` folds into the handle, in elements. -/
def Lay.sliced : Int :=
  (co % extOf (l.mode m).ei : Nat) * (l.mode m).si + (if l.dm = m then 0 else (co / extOf (l.mode m).ei : Nat) * (l.mode m).so)

/-- The same in bytes, with the dies that a die mode's coordinate skips. -/
def Handle.slicedBytes : Int :=
  l.sliced m co * ((Fmt.ofCode h.fmt).elim 8 Fmt.bits : Nat) / 8 + (if l.dm = m then (co / extOf (l.mode m).ei * h.dstride : Nat) else 0)

/-- The conditions under which LSLICE traps no LayoutCompose. -/
abbrev Handle.canSlice : Prop :=
  l.illFormed = false ∧ m < l.nm ∧ co < (l.mode m).extent ∧
    l.sliced m co * ((Fmt.ofCode h.fmt).elim 8 Fmt.bits : Nat) % ((8 * (Fmt.ofCode h.fmt).elim 1 Fmt.grain : Nat) : Int) = 0 ∧
    (h.sbase = 0 ∨ h.slicedBytes l m co % ((2 ^ h.sshift : Nat) : Int) = 0)

/-- The handle with the offset folded in. -/
def Handle.slice : Handle :=
  { h with
    base := ((h.base + h.slicedBytes l m co) % 2 ^ 56).toNat
    sbase := if h.sbase = 0 then 0 else
      ((h.sbase + h.slicedBytes l m co / ((2 ^ h.sshift : Nat) : Int) * ((Fmt.ofCode h.fmt).elim 0 Fmt.scaleSize : Nat)) % 2 ^ 56).toNat
    kind := if l.dm = m ∧ h.kind = Kind.pg.code then Kind.gl.code else h.kind }

/-- The layout without the mode. -/
def Lay.slice : Lay :=
  { l.dropMode m with dm := if l.dm = m then 7 else if l.dm ≠ 7 ∧ m < l.dm then l.dm - 1 else l.dm }

end

section
variable {s : State} {v : View} {sw : Bool} {mode : BitVec 3} {d a : BitVec 4} {b : BitVec 8} {c : BitVec 4} {imm : Word}

/-- The coordinate that LSLICE takes. -/
def View.sliceAt (v : View) (b : BitVec 8) (imm : Word) : Nat := ((v.sval b).setWidth 32 + imm : Word).toNat

/-- LSLICE by its conditions. -/
theorem execLslice_decides (hi : s.issuing v perLane
      (useL a.toNat v.g.lanes ++ useS b v.g.lanes ++ useH c.toNat v.g.lanes ++ defL d.toNat v.g.lanes ++ defH c.toNat v.g.lanes)) :
    (¬(v.handle c).canSlice (v.lay a) mode.toNat (v.sliceAt b imm) →
      execLslice sw mode d a b c imm s = .next (s.traps v (v.trapRec .layoutCompose v.g.lanes 0 0))) ∧
    ((v.handle c).canSlice (v.lay a) mode.toNat (v.sliceAt b imm) →
      execLslice sw mode d a b c imm s = .next (((s.upd v.f (.l d.toNat ((v.lay a).slice mode.toNat).bits)).upd v.f
        (.h c.toNat ((v.handle c).slice (v.lay a) mode.toNat (v.sliceAt b imm)).bits)).retire v sw 12)) := by
  refine issue_decides hi rfl (by simp) ?_
  have coordinate : ((v.sval b).setWidth 32 + imm : Word).toNat = v.sliceAt b imm := rfl
  have pg : Kind.pg.code = 5 := rfl
  have gl : Kind.gl.code = 3 := rfl
  simp only [View.laySrc_eq, View.require_bind, coordinate, Handle.canSlice]
  by_cases wf : (v.lay a).illFormed = true
  · simp only [wf, if_true, Except.error_bind, Bool.true_eq_false, false_and, if_false]
  · rw [Bool.not_eq_true] at wf
    obtain hf | ⟨f, hf⟩ := Option.eq_none_or_eq_some (Fmt.ofCode (v.handle c).fmt)
    all_goals
      simp only [wf, Bool.false_eq_true, if_false, Except.ok_bind, true_and, ite_and, Bool.and_eq_true, Bool.or_eq_true, decide_eq_true_eq,
        beq_iff_eq, bne_iff_ne, Lay.sliced, Lay.slice, Handle.slice, Handle.slicedBytes, hf, Option.elim, pg, gl]
      rfl

end

end Sys2Proof.Machine

open Sys2Proof Sys2Proof.Machine

/-- Settles O32: the fields of a register one by one, then each instruction by what its body answers. -/
theorem layoutAndHandleRegisters : Obligations.LayoutAndHandleRegisters := by
  unfold Obligations.LayoutAndHandleRegisters
  refine ⟨⟨bits_layOf, bits_handleOf, ?layouts, fun h hd hs hb hx => handleOf_bits hd hs hb hx⟩,
    fun s v sw d a n b q => ⟨?hmk, ?hset, ?hqry, ?lqry, ?layout, ?handle, ?lslice⟩⟩
  case layouts =>
    intro l hnm hdm hsb hsm hss h6 hm
    refine layOf_bits hnm hdm hsb hsm hss h6 fun m hin => ?_
    obtain ⟨hei, heo, lsi, usi, lso, uso⟩ := hm m hin
    exact modeOf_bits hei heo ⟨lsi, usi⟩ ⟨lso, uso⟩
  case hmk =>
    intro gs kind fmt stride hi
    refine ⟨_, (exec_hmk s sw d n b gs kind fmt stride).trans (execHmk_next hi), rfl, rfl, rfl, rfl, rfl, rfl, rfl, rfl, rfl, ?_, ?_⟩
    all_goals
      simp only [View.made]
      split <;> rfl
  case hset =>
    intro f val x us reserved width hi
    refine ⟨fun hr => (exec_hset s sw d f val).trans (execHset_traps hi hr), fun hr => ?_⟩
    obtain ⟨h, hs⟩ := Option.ne_none_iff_exists'.1 fun none_ => hr (((v.handle d).set_eq_none f (v.setValue val)).1 none_)
    have fields := Handle.get_set hs
    exact ⟨h, (exec_hset s sw d f val).trans (execHset_next hi hs), fields⟩
  case hqry => exact fun f hi => (exec_hqry s sw a q f).trans (execHqry_next hi)
  case lqry =>
    intro k hi
    refine ⟨layQuery (v.lay a) k v.handle, (exec_lqry s sw a q k).trans (execLqry_next hi), layQuery_illFormed, fun wf => ⟨?_, ?_⟩, ?_, ?_⟩
    · rintro rfl
      simp only [layQuery, wf, Bool.false_eq_true, if_false]
    · rintro rfl
      simp only [layQuery, wf, Bool.false_eq_true, if_false]
    · rintro e h rfl
      exact ⟨layQuery_cls_le e h, layQuery_cls_eq_two e h⟩
    · rintro h rfl - htm hcl
      exact layQuery_deg_zero htm hcl
  case layout => exact fun hi => (exec_lmov s sw d a false).trans (execLmov_layout hi)
  case handle => exact fun hi => (exec_lmov s sw d a true).trans (execLmov_handle hi)
  case lslice =>
    intro mode c imm
    simp only [decide_eq_true_eq]
    exact fun hi => execLslice_decides hi

end

section
/-! ### The map of a layout as a sum over its modes (R253, R254) -/

namespace Sys2Proof.Machine

open Sys2Proof

section
variable (l l' : Lay) (c : List Nat)

/-- What a coordinate `k` of mode `i` adds to the offset. -/
def Lay.offsetAt (i k : Nat) : Int :=
  (k % extOf (l.mode i).ei : Nat) * (l.mode i).si + if i = l.dm then 0 else (k / extOf (l.mode i).ei : Nat) * (l.mode i).so

variable {l l' c}

theorem Lay.used_zip (hl : l.nm ≤ l.modes.length) (hc : c.length = l.nm) :
    (l.used.zip c).zip (upTo l.nm) = (List.range l.nm).map fun i => ((l.mode i, c.getD i 0), i) := by
  have count : l.used.length = l.nm := by simpa [Lay.used] using hl
  refine List.ext_getElem (by simp [upTo, count, hc]) fun i hi _ => ?_
  have inside : i < l.nm := by simpa [upTo, count, hc] using hi
  simp [Lay.used, Lay.mode, upTo, List.getElem?_eq_getElem (show i < l.modes.length by omega),
    List.getElem?_eq_getElem (show i < c.length by omega)]

/-- The die index is the outer coordinate of the die mode, and the offset is the sum of what the coordinates add. -/
theorem Lay.eval_eq (hl : l.nm ≤ l.modes.length) (hc : c.length = l.nm) : l.eval c =
    (if l.dm < l.nm then c.getD l.dm 0 / extOf (l.mode l.dm).ei else 0, ∑ i ∈ Finset.range l.nm, l.offsetAt i (c.getD i 0)) := by
  rw [Lay.eval, Lay.used_zip hl hc, List.foldl_map]
  generalize l.nm = n
  induction n with
  | zero => rfl
  | succ n ih =>
    rw [List.range_succ, List.foldl_append, ih, Finset.sum_range_succ]
    by_cases e : n = l.dm
    · subst e
      simp [Lay.offsetAt]
    · have : (l.dm < n + 1) = (l.dm < n) := by rw [eq_iff_iff]; omega
      simp [Lay.offsetAt, e, this, add_assoc]

/-- Two layouts that differ in mode `m` only: their offsets differ by what that mode adds. -/
theorem Lay.eval_offset {m : Nat} (hm : m < l.nm) (hl : l.nm ≤ l.modes.length) (hl' : l.nm ≤ l'.modes.length) (hn : l'.nm = l.nm)
    (hc : c.length = l.nm) (others : ∀ i < l.nm, i ≠ m → l'.offsetAt i (c.getD i 0) = l.offsetAt i (c.getD i 0)) :
    (l'.eval c).2 + l.offsetAt m (c.getD m 0) = (l.eval c).2 + l'.offsetAt m (c.getD m 0) := by
  have rest : ∑ i ∈ (Finset.range l.nm).erase m, l'.offsetAt i (c.getD i 0) = ∑ i ∈ (Finset.range l.nm).erase m, l.offsetAt i (c.getD i 0) :=
    Finset.sum_congr rfl fun i hi => others i (Finset.mem_range.1 (Finset.mem_of_mem_erase hi)) (Finset.ne_of_mem_erase hi)
  have mem := Finset.mem_range.2 hm
  rw [Lay.eval_eq hl hc, Lay.eval_eq (hn ▸ hl') (hn ▸ hc), hn, ← Finset.add_sum_erase _ _ mem, ← Finset.add_sum_erase _ _ mem, rest]
  simp only
  omega

theorem Lay.mode_setMode {m : Nat} (hm : m < l.modes.length) (x : Mode) (i : Nat) : (l.setMode m x).mode i = if i = m then x else l.mode i := by
  by_cases e : i = m
  · simp [Lay.mode, Lay.setMode, e, hm]
  · simp [Lay.mode, Lay.setMode, e, List.getElem?_set_ne (Ne.symm e)]

/-- Another shape of a mode that is not the die mode keeps every offset when it adds the same. -/
theorem Lay.eval_setMode {m : Nat} {y : Mode} (hm : m < l.nm) (hl : l.nm ≤ l.modes.length) (hc : c.length = l.nm) (hd : l.dm ≠ m)
    (same : (l.setMode m y).offsetAt m (c.getD m 0) = l.offsetAt m (c.getD m 0)) : (l.setMode m y).eval c = l.eval c := by
  have modes := Lay.mode_setMode (l := l) (m := m) (by omega) y
  have length : l.nm ≤ (l.setMode m y).modes.length := by simpa [Lay.setMode] using hl
  have offset := Lay.eval_offset (l' := l.setMode m y) hm hl length rfl hc fun i _ hi => by simp only [Lay.offsetAt, modes, hi, if_false]; rfl
  refine Prod.ext ?_ (by omega)
  rw [Lay.eval_eq hl hc, Lay.eval_eq (l := l.setMode m y) length hc]
  simp only [modes]
  simp only [Lay.setMode, hd, if_false]

/-! A partition of a mode (R268). -/

theorem extOf_pos (e : Nat) : 0 < extOf e := by
  unfold extOf
  split <;> omega

theorem extOf_of_ne {e : Nat} (h : e ≠ 0) : extOf e = e := if_neg h

/-- A coordinate of the inner level adds so many inner steps. -/
theorem Lay.offsetAt_inner {m k : Nat} (hk : k < extOf (l.mode m).ei) : l.offsetAt m k = k * (l.mode m).si := by
  rw [Lay.offsetAt, Nat.mod_eq_of_lt hk, Nat.div_eq_of_lt hk, Nat.cast_zero, zero_mul, ite_self, add_zero]

section
variable {m t : Nat} (hm : m < l.nm) (hl : l.nm ≤ l.modes.length) (hc : c.length = l.nm) (ht : t ≠ 0) (hk : c.getD m 0 < extOf (l.mode m).ei)
include hm hl hc ht hk

/-- A mode split into tiles moves no element. -/
theorem Lay.eval_partition (hd : l.dm ≠ m) (y : Mode) (hy : y = ⟨t, (l.mode m).si, extOf (l.mode m).ei / t, (l.mode m).si * t⟩) :
    (l.setMode m y).eval c = l.eval c := by
  refine Lay.eval_setMode hm hl hc hd ?_
  rw [Lay.offsetAt_inner hk]
  have digits := Nat.mod_add_div (c.getD m 0) t
  generalize c.getD m 0 = k at digits ⊢
  have here : (l.setMode m y).dm = l.dm := rfl
  rw [Lay.offsetAt, Lay.mode_setMode (by omega), if_pos rfl, here, if_neg hd.symm, hy]
  simp only [extOf_of_ne ht]
  calc ((k % t : Nat) : Int) * (l.mode m).si + ((k / t : Nat) : Int) * ((l.mode m).si * t)
      = ((k % t + t * (k / t) : Nat) : Int) * (l.mode m).si := by push_cast; ring
    _ = k * (l.mode m).si := by rw [digits]

/-- A mode split across dies: the die index counts the tiles, and the offset is the one inside the tile. -/
theorem Lay.eval_partition_die (hd : l.dm = 7) (h6 : l.nm ≤ 6) {x y : Mode} (hx : x = l.mode m) (hy : y = ⟨t, x.si, extOf x.ei / t, 0⟩)
    (hn : l'.nm = l.nm) (hd' : l'.dm = m) (hm' : l'.modes = l.modes.set m y) :
    (l'.eval c).1 = c.getD m 0 / t ∧ (l'.eval c).2 + (c.getD m 0 / t * t : Nat) * x.si = (l.eval c).2 := by
  subst hx
  have length : l.nm ≤ l'.modes.length := by simpa [hm'] using hl
  have modes (i : Nat) : l'.mode i = if i = m then y else l.mode i := by
    rw [← Lay.mode_setMode (by omega) y i, Lay.mode, hm']
    rfl
  have offset := Lay.eval_offset hm hl length hn hc fun i hi e => by
    simp only [Lay.offsetAt, modes, e, if_false, hd, hd', show i ≠ 7 by omega]
  constructor
  · rw [Lay.eval_eq (hn ▸ length) (hn ▸ hc), hd', hn, modes, if_pos rfl, hy]
    simp only [hm, if_true, extOf_of_ne ht]
  · rw [Lay.offsetAt_inner hk] at offset
    have digits := Nat.mod_add_div (c.getD m 0) t
    generalize c.getD m 0 = k at digits offset ⊢
    simp only [Lay.offsetAt, modes, hd', hy, if_true, extOf_of_ne ht, add_zero] at offset
    have split : (k : Int) * (l.mode m).si = ((k % t : Nat) : Int) * (l.mode m).si + ((k / t * t : Nat) : Int) * (l.mode m).si := by
      rw [← add_mul, ← Nat.cast_add, Nat.mul_comm (k / t) t, digits]
    omega

end

/-! Two levels merged (R271). -/

/-- What two levels that merge become: the one that is left where the other has extent 1, or both in one run. -/
theorem mergePair_cases {e0 e1 e : Nat} {s0 s1 st : Int} (h : mergePair e0 s0 e1 s1 = some (e, st)) :
    (extOf e0 = 1 ∧ e = e1 ∧ st = s1) ∨ (extOf e1 = 1 ∧ e = e0 ∧ st = s0) ∨
      (extOf e0 = e0 ∧ extOf e1 = e1 ∧ s1 = s0 * e0 ∧ e = e0 * e1 ∧ st = s0) := by
  unfold mergePair at h
  have pair {x y : Nat × Int} (h : some x = some y) : x.1 = y.1 ∧ x.2 = y.2 := by simp [Option.some.inj h]
  split at h
  next one => exact .inl ⟨one, (pair h).1.symm, (pair h).2.symm⟩
  next many0 =>
    split at h
    next one => exact .inr (.inl ⟨one, (pair h).1.symm, (pair h).2.symm⟩)
    next many1 =>
      split at h
      next meet =>
        have used {x : Nat} (h : extOf x ≠ 1) : extOf x = x := extOf_of_ne fun z => h (if_pos z)
        exact .inr (.inr ⟨used many0, used many1, meet.1, (pair h).1.symm, (pair h).2.symm⟩)
      next => contradiction

theorem extOf_mul {a b : Nat} (ha : extOf a = a) (hb : extOf b = b) : extOf (a * b) = a * b :=
  extOf_of_ne (Nat.mul_pos (ha ▸ extOf_pos a) (hb ▸ extOf_pos b)).ne'

/-- A mode with its levels merged has the extent that it had. -/
theorem Mode.extent_merged {x : Mode} {e : Nat} {st : Int} (h : mergePair x.ei x.si x.eo x.so = some (e, st)) : extOf e = x.extent := by
  unfold Mode.extent
  obtain ⟨one, rfl, rfl⟩ | ⟨one, rfl, rfl⟩ | ⟨h0, h1, -, rfl, -⟩ := mergePair_cases h
  · rw [one, Nat.one_mul]
  · rw [one, Nat.mul_one]
  · rw [extOf_mul h0 h1, h0, h1]

/-- Two levels merged move no element. -/
theorem Lay.eval_merged {m e : Nat} {st : Int} (hm : m < l.nm) (hl : l.nm ≤ l.modes.length) (hc : c.length = l.nm) (hd : l.dm ≠ m)
    (h : mergePair (l.mode m).ei (l.mode m).si (l.mode m).eo (l.mode m).so = some (e, st)) (hk : c.getD m 0 < (l.mode m).extent) :
    (l.setMode m ⟨e, st, 0, 0⟩).eval c = l.eval c := by
  refine Lay.eval_setMode hm hl hc hd ?_
  have here : (l.setMode m ⟨e, st, 0, 0⟩).dm = l.dm := rfl
  have extent := Mode.extent_merged h
  rw [Lay.offsetAt, Lay.offsetAt, Lay.mode_setMode (by omega), if_pos rfl, here, if_neg hd.symm, if_neg hd.symm]
  simp only [extent, Nat.mod_eq_of_lt hk, mul_zero, add_zero]
  have digits := Nat.mod_add_div (c.getD m 0) (extOf (l.mode m).ei)
  unfold Mode.extent at hk
  generalize c.getD m 0 = k at hk digits ⊢
  obtain ⟨one, rfl, rfl⟩ | ⟨one, rfl, rfl⟩ | ⟨h0, -, steps, -, rfl⟩ := mergePair_cases h
  · simp [one, Nat.mod_one]
  · rw [one, Nat.mul_one] at hk
    simp [Nat.mod_eq_of_lt hk, Nat.div_eq_of_lt hk]
  · rw [h0] at digits ⊢
    calc (k : Int) * (l.mode m).si = ((k % (l.mode m).ei + (l.mode m).ei * (k / (l.mode m).ei) : Nat) : Int) * (l.mode m).si := by rw [digits]
      _ = ((k % (l.mode m).ei : Nat) : Int) * (l.mode m).si + ((k / (l.mode m).ei : Nat) : Int) * (l.mode m).so := by rw [steps]; push_cast; ring

end

end Sys2Proof.Machine

end

section
/-! ### LSET, LPART, LTRANS, LFLAT, LSWZ and LCHAIN (R266, R268 to R271, R273) -/

namespace Sys2Proof.Machine

open Sys2Proof

section
variable (s : State) (sw : Bool) (mode : BitVec 3) (d a b : BitVec 4)

theorem exec_lset (clr level : Bool) (ext : BitVec 16) (step : BitVec 24) :
    exec (.lset sw clr level mode d ext step) s = execLset sw clr level mode d ext step s := rfl
theorem exec_lpart (die : Bool) (tile : BitVec 16) : exec (.lpart sw die mode d a tile) s = execLpart sw die mode d a tile s := rfl
theorem exec_ltrans (perm : BitVec 18) : exec (.ltrans sw d a perm) s = execLtrans sw d a perm s := rfl
theorem exec_lflat (byMode : Bool) : exec (.lflat sw byMode mode d a) s = execLflat sw byMode mode d a s := rfl
theorem exec_lchain : exec (.lchain sw d a b) s = execLchain sw d a b s := rfl
theorem exec_lswz (c : BitVec 8) : exec (.lswz sw d a c) s = execLswz sw d a c s := rfl
end

section
variable {s : State} {v : View} {sw : Bool} {mode : BitVec 3} {d a b : BitVec 4}

/-! LSET. -/

/-- The layout that LSET starts from. -/
def View.setFrom (v : View) (clr : Bool) (d : BitVec 4) : Lay := if clr then Lay.empty else v.lay d

/-- A mode with one of its levels set. -/
def Mode.setLevel (x : Mode) (level : Bool) (ext : BitVec 16) (step : BitVec 24) : Mode :=
  if level then ⟨x.ei, x.si, ext.toNat, step.toInt⟩ else ⟨ext.toNat, step.toInt, x.eo, x.so⟩

theorem noRows_lset (clr : Bool) (n : Nat) (m : Mask) : NoRows ((if clr then [] else useL n m) ++ defL n m) := by
  split <;> simp

section
variable {clr level : Bool} {ext : BitVec 16} {step : BitVec 24}
  (hi : s.issuing v perLane ((if clr then [] else useL d.toNat v.g.lanes) ++ defL d.toNat v.g.lanes))
include hi

theorem execLset_illFormed (hc : clr = false) (bad : (v.lay d).illFormed = true) :
    execLset sw clr level mode d ext step s = .next (s.traps v (v.trapRec .layoutCompose v.g.lanes 0 0)) := by
  refine issue_traps hi rfl (noRows_lset _ _ _) ?_
  simp only [hc, View.laySrc_eq, bad, Bool.false_eq_true, if_false, if_true, Except.error_bind]

theorem execLset_next (wf : clr = true ∨ (v.lay d).illFormed = false) {l : Lay} (hl : l = v.setFrom clr d) :
    execLset sw clr level mode d ext step s = .next ((s.upd v.f (.l d.toNat
      { l.setMode mode.toNat ((l.mode mode.toNat).setLevel level ext step) with nm := max l.nm (mode.toNat + 1) }.bits)).retire v sw 16) := by
  subst hl
  refine issue_next hi rfl (noRows_lset _ _ _) ?_
  cases clr with
  | true => rfl
  | false =>
    have wf : (v.lay d).illFormed = false := by simpa using wf
    simp only [View.laySrc_eq, View.setFrom, wf, Bool.false_eq_true, if_false, Except.ok_bind]
    rfl
end

/-! LPART. -/

/-- The conditions of R268 under which LPART partitions a mode of a layout that is well-formed. -/
abbrev Lay.canPart (l : Lay) (m t : Nat) (die : Bool) : Prop :=
  m < l.nm ∧ (l.mode m).eo = 0 ∧ t ≠ 0 ∧ extOf (l.mode m).ei % t = 0 ∧
    (if die then l.dm = 7 ∧ extOf (l.mode m).ei / t ≤ 4 else -2 ^ 23 ≤ (l.mode m).si * t ∧ (l.mode m).si * t < 2 ^ 23)

/-- The layout with the mode partitioned. -/
def Lay.parted (l : Lay) (m t : Nat) (die : Bool) : Lay :=
  { l.setMode m ⟨t, (l.mode m).si, extOf (l.mode m).ei / t, if die then 0 else (l.mode m).si * t⟩ with dm := if die then m else l.dm }

theorem execLpart_eq (die : Bool) (tile : BitVec 16) : execLpart sw die mode d a tile s = layOp sw 12 d a (fun _ => []) (fun v l =>
    if l.canPart mode.toNat tile.toNat die then .ok (l.parted mode.toNat tile.toNat die) else .error (v.stop .layoutCompose v.g.lanes)) s := by
  unfold execLpart
  congr 1
  funext v l
  cases die <;> simp only [Lay.canPart, Lay.parted, View.require_bind, ite_and, Bool.and_eq_true, decide_eq_true_eq, beq_iff_eq, bne_iff_ne, fits24,
    Bool.false_eq_true, if_false, if_true] <;> rfl

/-! LTRANS. -/

/-- The place that LTRANS gives to mode `i` of the destination. -/
def permAt (perm : BitVec 18) (i : Nat) : Nat := (perm.extractLsb' (3 * i) 3).toNat

/-- The layout with its modes permuted (R270). -/
def Lay.permuted (l : Lay) (pi : Nat → Nat) : Lay :=
  { l with
    modes := (upTo 6).map fun i => if i < l.nm then l.mode (pi i) else .nil
    dm := if l.dm = 7 then 7 else ((upTo l.nm).map pi).idxOf l.dm }

theorem execLtrans_eq (perm : BitVec 18) : execLtrans sw d a perm s = layOp sw 12 d a (fun _ => []) (fun v l =>
    if ∀ j < l.nm, ∃ i < l.nm, permAt perm i = j then .ok (l.permuted (permAt perm)) else .error (v.stop .layoutCompose v.g.lanes)) s := by
  unfold execLtrans
  congr 1
  funext v l
  have whole : (upTo l.nm).all ((upTo l.nm).map (permAt perm)).contains = true ↔ ∀ j < l.nm, ∃ i < l.nm, permAt perm i = j := by
    simp [upTo]
  have modes : ((upTo 6).map fun i => if i < l.nm then l.mode (((upTo l.nm).map (permAt perm)).getD i 0) else .nil) =
      (upTo 6).map fun i => if i < l.nm then l.mode (permAt perm i) else .nil := by
    refine List.map_congr_left fun i _ => ?_
    split
    next inside => rw [getD_map_upTo inside]
    next => rfl
  refine (View.require_bind ..).trans (ite_congr (propext whole) (fun _ => ?_) fun _ => rfl)
  exact congrArg Except.ok (Lay.eq_of_fields rfl (by simp only [Lay.permuted, beq_iff_eq]; rfl) rfl rfl rfl modes)

section
variable {l : Lay} {pi : Nat → Nat}

theorem Lay.permuted_mode {i : Nat} (h : i < 6) : (l.permuted pi).mode i = if i < l.nm then l.mode (pi i) else .nil :=
  getD_map_upTo h (fun i => if i < l.nm then l.mode (pi i) else .nil) .nil

theorem Lay.permuted_length : (l.permuted pi).modes.length = 6 := by simp [Lay.permuted, upTo]

theorem Lay.permuted_die_none (h : l.dm = 7) : (l.permuted pi).dm = 7 := if_pos h

/-- The die mode of the permuted layout is the one that takes the die mode of the source. -/
theorem Lay.permuted_die (h : l.dm ≠ 7) (inside : l.dm < l.nm) (perm : ∀ j < l.nm, ∃ i < l.nm, pi i = j) :
    (l.permuted pi).dm < l.nm ∧ pi (l.permuted pi).dm = l.dm := by
  have taken : l.dm ∈ (upTo l.nm).map pi := by simpa [upTo] using perm _ inside
  have place : (l.permuted pi).dm = ((upTo l.nm).map pi).idxOf l.dm := if_neg h
  have below := List.idxOf_lt_length_of_mem taken
  have found := List.getElem_idxOf below
  rw [place]
  simp only [upTo, List.getElem_map, List.getElem_range] at found
  exact ⟨by simpa [upTo] using below, found⟩

theorem Lay.die_lt (wf : l.illFormed = false) (h : l.dm ≠ 7) : l.dm < l.nm := by
  simp only [Lay.illFormed, Bool.or_eq_false_iff, Bool.and_eq_false_iff, bne_eq_false_iff_eq, decide_eq_false_iff_not] at wf
  omega

end

theorem View.lay_length (v : View) (n : BitVec 4) : (v.lay n).modes.length = 6 := by simp [View.lay, layOf, upTo]

/-- A well-formed layout register has at most 6 modes. -/
theorem View.lay_nm_le {v : View} {n : BitVec 4} (wf : (v.lay n).illFormed = false) : (v.lay n).nm ≤ 6 := by
  have field : (v.lay n).nm < 8 := BitVec.isLt _
  have seven : (v.lay n).nm ≠ 7 := by
    rintro e
    simp [Lay.illFormed, e] at wf
  omega

/-! LFLAT. -/

/-- The layout with modes `m` and `m + 1` merged into (e, st) (R271). -/
def Lay.flattened (l : Lay) (m e : Nat) (st : Int) : Lay :=
  { (l.setMode m ⟨e, st, 0, 0⟩).dropMode (m + 1) with dm := if l.dm ≠ 7 ∧ m + 1 < l.dm then l.dm - 1 else l.dm }

/-- The pair that the levels of two modes merge to, each mode with one level of extent 2 or more at most. -/
def mergeModes (x y : Mode) : Option (Nat × Int) := x.single.bind fun p => y.single.bind fun q => mergePair p.1 p.2 q.1 q.2

theorem mergeModes_some {x y : Mode} {e0 e1 : Nat} {s0 s1 : Int} (hx : x.single = some (e0, s0)) (hy : y.single = some (e1, s1)) :
    mergeModes x y = mergePair e0 s0 e1 s1 := by
  simp only [mergeModes, hx, hy, Option.bind]

theorem mergeModes_none {x y : Mode} (h : x.single = none ∨ y.single = none ∨
    ∃ e0 s0 e1 s1, x.single = some (e0, s0) ∧ y.single = some (e1, s1) ∧ mergePair e0 s0 e1 s1 = none) : mergeModes x y = none := by
  obtain hx | hy | ⟨e0, s0, e1, s1, hx, hy, apart⟩ := h
  · simp [mergeModes, hx]
  · simp [mergeModes, hy]
  · rw [mergeModes_some hx hy, apart]

/-- A result that is there, under a condition that holds. -/
theorem elim_ok {α β : Type} {o : Option α} {x : α} {P : Prop} [Decidable P] {err : Chk β} {g : α → Chk β} (ho : o = some x) (h : P) :
    (o.elim err fun p => if P then g p else err) = g x := by
  simp only [ho, Option.elim, h, if_true]

/-- No result, or a condition that fails. -/
theorem elim_error {α β : Type} {o : Option α} {P : Prop} [Decidable P] {err : Chk β} {g : α → Chk β} (h : ¬P ∨ o = none) :
    (o.elim err fun p => if P then g p else err) = err := by
  cases o with
  | none => rfl
  | some p => exact if_neg (h.resolve_right nofun)

theorem execLflat_level : execLflat sw false mode d a s = layOp sw 8 d a (fun _ => []) (fun v l =>
    (mergePair (l.mode mode.toNat).ei (l.mode mode.toNat).si (l.mode mode.toNat).eo (l.mode mode.toNat).so).elim (.error (v.stop .layoutFlatten v.g.lanes))
      fun p => if mode.toNat < l.nm ∧ l.dm ≠ mode.toNat then .ok (l.setMode mode.toNat ⟨p.1, p.2, 0, 0⟩) else .error (v.stop .layoutFlatten v.g.lanes)) s := by
  unfold execLflat
  congr 1
  funext v l
  simp only [View.require_bind, Bool.false_eq_true, if_false, Bool.and_eq_true, decide_eq_true_eq, bne_iff_ne]
  cases mergePair (l.mode mode.toNat).ei (l.mode mode.toNat).si (l.mode mode.toNat).eo (l.mode mode.toNat).so with
  | none => exact ite_self _
  | some p => rfl

theorem execLflat_modes : execLflat sw true mode d a s = layOp sw 8 d a (fun _ => []) (fun v l =>
    (mergeModes (l.mode mode.toNat) (l.mode (mode.toNat + 1))).elim (.error (v.stop .layoutFlatten v.g.lanes)) fun p =>
      if mode.toNat + 1 < l.nm ∧ l.dm ≠ mode.toNat ∧ l.dm ≠ mode.toNat + 1 then .ok (l.flattened mode.toNat p.1 p.2)
      else .error (v.stop .layoutFlatten v.g.lanes)) s := by
  unfold execLflat
  congr 1
  funext v l
  simp only [View.require_bind, if_true, Bool.and_eq_true, decide_eq_true_eq, bne_iff_ne, and_assoc]
  unfold mergeModes
  cases (l.mode mode.toNat).single with
  | none => exact ite_self _
  | some p =>
    cases (l.mode (mode.toNat + 1)).single with
    | none => exact ite_self _
    | some q =>
      simp only [Option.bind]
      cases mergePair p.1 p.2 q.1 q.2 with
      | none => exact ite_self _
      | some r => rfl

theorem Lay.mode_dropMode {l : Lay} {k : Nat} (h : k < l.modes.length) (i : Nat) : (l.dropMode k).mode i = if i < k then l.mode i else l.mode (i + 1) := by
  have take : (l.modes.take k).length = k := by simp; omega
  have kept : (l.modes.take k ++ l.modes.drop (k + 1)).length = l.modes.length - 1 := by simp; omega
  simp only [Lay.mode, Lay.dropMode, List.getD_eq_getElem?_getD]
  by_cases low : i < k
  · rw [if_pos low, List.getElem?_append_left (by omega), List.getElem?_append_left (by omega), List.getElem?_take_of_lt low]
  · rw [if_neg low]
    by_cases inside : i + 1 < l.modes.length
    · rw [List.getElem?_append_left (by omega), List.getElem?_append_right (by omega), List.getElem?_drop, take, show k + 1 + (i - k) = i + 1 by omega]
    · rw [List.getElem?_append_right (by omega), kept, List.getElem?_eq_none (l := l.modes) (by omega)]
      by_cases last : i = l.modes.length - 1
      · simp [last]
      · rw [List.getElem?_eq_none (by simp; omega)]

section
variable {l : Lay} {m e : Nat} {st : Int} (h : m + 1 < l.modes.length)
include h

theorem Lay.flattened_mode (i : Nat) : (l.flattened m e st).mode i = if i ≤ m then (if i = m then ⟨e, st, 0, 0⟩ else l.mode i) else l.mode (i + 1) := by
  have drop := Lay.mode_dropMode (l := l.setMode m ⟨e, st, 0, 0⟩) (k := m + 1) (by simpa [Lay.setMode] using h) i
  rw [Lay.mode_setMode (by omega), Lay.mode_setMode (by omega)] at drop
  refine drop.trans ?_
  simp only [Nat.lt_succ_iff]
  split
  · rfl
  · exact if_neg (by omega)

end

theorem Lay.flattened_die {l : Lay} {m e : Nat} {st : Int} (h : l.dm ≠ m) (h' : l.dm ≠ m + 1) :
    (l.flattened m e st).dm = if l.dm = 7 ∨ l.dm < m then l.dm else l.dm - 1 := by
  change (if l.dm ≠ 7 ∧ m + 1 < l.dm then l.dm - 1 else l.dm) = _
  split_ifs <;> omega

/-! LSWZ and LCHAIN. -/

theorem execLswz_eq (c : BitVec 8) : execLswz sw d a c s = layOp sw 8 d a (fun v => useS c v.g.lanes) (fun v l =>
    let ss := ((v.sval c).extractLsb' 0 4).toNat
    let sm := ((v.sval c).extractLsb' 4 4).toNat
    let sb := ((v.sval c).extractLsb' 8 4).toNat
    if sm = 0 ∨ sb + sm ≤ ss then .ok { l with ss := ss, sm := sm, sb := sb } else .error (v.stop .layoutCompose v.g.lanes)) s := by
  unfold execLswz
  congr 1
  funext v l
  have good (ss sm sb : Nat) : (!badBank ss sm sb) = true ↔ sm = 0 ∨ sb + sm ≤ ss := by
    simp [badBank]
  simp only [View.require_bind, good]
  rfl

theorem execLchain_eq : execLchain sw d a b s = layOp sw 8 d a (fun v => useL b.toNat v.g.lanes) (fun v l =>
    (chain l (v.lay b)).elim (.error (v.stop .layoutCompose v.g.lanes)) fun x =>
      if (v.lay b).illFormed = false then .ok x else .error (v.stop .layoutCompose v.g.lanes)) s := by
  unfold execLchain
  congr 1
  funext v l
  rw [View.laySrc_eq]
  cases (v.lay b).illFormed with
  | true => cases chain l (v.lay b) <;> rfl
  | false =>
    cases hc : chain l (v.lay b)
    all_goals
      simp only [Except.ok_bind, hc, if_true, if_false, Bool.false_eq_true]
      rfl

end

end Sys2Proof.Machine

open Sys2Proof Sys2Proof.Machine

/-- Settles O33: each instruction as one of a source layout and of what it makes of it; no offset changes where the changed mode adds the same to it. -/
theorem layoutsAreBuilt : Obligations.LayoutsAreBuilt := by
  unfold Obligations.LayoutsAreBuilt
  refine ⟨fun s v sw mode d a b => ⟨?lset, fun hi => ⟨?lpart, ?ltrans, ?lflat⟩, fun hi => ?lchain, fun c hi => ?lswz⟩, ?partition, ?merge⟩
  case lset =>
    intro clr level ext step hi
    rw [exec_lset]
    refine ⟨fun hc bad => execLset_illFormed hi hc ?_, fun wf => ?_⟩
    · simpa [hc] using bad
    · have wf : clr = true ∨ (v.lay d).illFormed = false := by
        cases clr with
        | true => exact .inl rfl
        | false => simpa using wf
      exact execLset_next hi wf rfl
  case lpart =>
    intro die tile
    rw [exec_lpart, execLpart_eq]
    refine ⟨fun ⟨wf, fits⟩ => layOp_next hi rfl noRows_nil wf (if_pos fits), fun bad => layOp_composeTraps hi rfl noRows_nil ?_⟩
    exact (not_and_or.1 bad).imp (by simp) fun bad => if_neg bad
  case ltrans =>
    intro perm
    rw [exec_ltrans, execLtrans_eq]
    exact ⟨fun wf whole => ⟨(v.lay a).permuted (permAt perm), layOp_next hi rfl noRows_nil wf (if_pos whole), rfl, rfl, rfl, rfl, Lay.permuted_length,
      fun i h => Lay.permuted_mode h, Lay.permuted_die_none, fun h => Lay.permuted_die h (Lay.die_lt wf h) whole⟩,
      fun bad => layOp_composeTraps hi rfl noRows_nil (bad.imp_right fun bad => if_neg bad)⟩
  case lflat =>
    rw [exec_lflat, exec_lflat, execLflat_level, execLflat_modes]
    refine ⟨fun bad => ⟨layOp_illFormed hi rfl noRows_nil bad, layOp_illFormed hi rfl noRows_nil bad⟩,
      fun wf inside die e st merged => layOp_next hi rfl noRows_nil wf (elim_ok merged ⟨inside, die⟩),
      fun wf bad => layOp_traps hi rfl noRows_nil wf (elim_error bad), fun wf inside die die' e0 s0 e1 s1 e st one one' merged => ?_,
      fun wf bad => layOp_traps hi rfl noRows_nil wf (elim_error (bad.imp_right mergeModes_none))⟩
    have six : mode.toNat + 1 < (v.lay a).modes.length := by
      rw [View.lay_length]
      exact inside.trans_le (View.lay_nm_le wf)
    refine ⟨(v.lay a).flattened mode.toNat e st, layOp_next hi rfl noRows_nil wf (elim_ok ((mergeModes_some one one').trans merged) ⟨inside, die, die'⟩), rfl,
      ?_, fun i h => ?_, fun i h _ => ?_, Lay.flattened_die die die'⟩
    · rw [Lay.flattened_mode six, if_pos (Nat.le_refl _), if_pos rfl]
    · rw [Lay.flattened_mode six, if_pos h.le, if_neg h.ne]
    · rw [Lay.flattened_mode six, if_neg h.not_ge]
  case lchain =>
    rw [exec_lchain, execLchain_eq]
    refine ⟨fun l wf wf' composed => layOp_next hi rfl (noRows_useL _ _) wf (elim_ok composed wf'), fun bad => ?_⟩
    exact layOp_composeTraps hi rfl (noRows_useL _ _) (bad.imp_right fun bad => elim_error (bad.imp_left (by simp)))
  case lswz =>
    rw [exec_lswz, execLswz_eq]
    refine ⟨fun wf good => layOp_next hi rfl (noRows_useS _ _) wf (if_pos good), fun bad => ?_⟩
    exact layOp_composeTraps hi rfl (noRows_useS _ _) (bad.imp_right fun bad => if_neg (by omega))
  case partition =>
    intro l c m t hm hl hc hd whole ht tiles hk
    exact ⟨Lay.eval_partition hm hl hc ht hk hd _ rfl, fun none_ h6 => Lay.eval_partition_die hm hl hc ht hk none_ h6 rfl rfl rfl rfl rfl⟩
  case merge =>
    intro l c m e st hm hl hc hd merged hk
    exact ⟨Mode.extent_merged merged, Lay.eval_merged hm hl hc hd merged hk⟩

end

section
/-! ### LST in a space whose addresses differ by lane (R190, R267, R333) -/

namespace Sys2Proof.Machine

open Sys2Proof

/-- The test of a concrete state for accesses that all reach their places. -/
theorem View.reaches_of_canReach {v : View} {s : State} {sp : Space} {need : Need} {as : List Access} (h : v.canReach s sp need as = true) :
    v.reaches s sp need as := by
  simp only [View.canReach, List.all_eq_true, Bool.and_eq_true] at h
  intro a ha
  obtain ⟨⟨inSegment, aligned⟩, pages⟩ := h a ha
  refine ⟨inSegment, aligned, fun y hy => ?_⟩
  have page := pages y hy
  obtain ⟨⟨cl, team, off⟩ | z, n⟩ := y
  · trivial
  · cases translated : s.xlat v.agent v.c (z / 2 ^ 16 * 2 ^ 16) need with
    | ok e => exact ⟨e, translated⟩
    | _ => simp only [translated, Bool.false_eq_true] at page

/-- One fibre of 32 lanes, whose words of the space .prv are interleaved by lane in one page (R190): the 8 bytes of lanes 2 and 3 at its address 0 are
tagged. -/
def striped : State :=
  let s := State.reset.placeBytes (leBytes 16 0)
  { s with
    coreTlb := [(0, farEntry)], cur := some { f := ⟨0, 0, 0⟩, gang := 0, pc := 0 }, tags := [(farWord.pa + 8) / 8]
    fibres := s.fibres.map fun f => { f with seg := f.seg.set! 0 ⟨0, 64⟩ } }

/-- The PCs of all gangs. -/
def State.gangPcs (s : State) : List VA := s.fibres.flatMap fun f => f.gangs.map (·.pc)

/-- The 64 bytes of each lane in that space from address 0, which s4 holds. -/
def View.stripes (v : View) : List Access := v.wideAccs (v.wideAddr .prv 4) 64 64

/-- What LST of layout register 0 to these bytes would leave, if it completed where `r` says. -/
def View.imageStored (v : View) (r : Ready) : State :=
  v.performed false 8 (useS 4 v.g.lanes ++ useL (0 : BitVec 4).toNat v.g.lanes) (.plain
    ((v.cached striped .prv .write v.stripes).storeParts v.agent none r.parts
      ((upTo 16).map fun i => BitVec.ofNat 32 ((v.f.l.getD (0 : BitVec 4).toNat 0).toNat % 2 ^ 498 / 2 ^ (32 * i)))) [] false)

/-- Every lane reaches its bytes, those of the first are untagged, and an LST that completes leaves the PC behind it. -/
def View.atStripes (v : View) : Bool :=
  v.replaying.isNone && !v.f.fenced && v.canReach striped .prv .write v.stripes &&
    (v.placed striped .prv .write v.stripes).head?.any fun r => (r.parts.all fun p => !striped.isTagged p.1) && (v.imageStored r).gangPcs == [8]

theorem striped_view {v : View} (hv : striped.view? = some v) : v.fresh ∧ v.reaches striped .prv .write v.stripes ∧
    ∃ r, (v.placed striped .prv .write v.stripes).head? = some r ∧ (∀ p ∈ r.parts, striped.isTagged p.1 = false) ∧ (v.imageStored r).gangPcs = [8] := by
  have all : striped.view?.any View.atStripes = true := by decide +kernel
  rw [hv] at all
  simp only [Option.any_some, View.atStripes, Bool.and_eq_true, Option.isNone_iff_eq_none, Bool.not_eq_true'] at all
  obtain ⟨⟨⟨replaying, fenced⟩, reach⟩, first⟩ := all
  obtain ⟨r, found, clean⟩ := (Option.any_eq_true ..).1 first
  simp only [Bool.and_eq_true, List.all_eq_true, Bool.not_eq_true', beq_iff_eq] at clean
  exact ⟨⟨replaying, fenced⟩, View.reaches_of_canReach reach, r, found, clean⟩

/-- The tags of lanes 2 and 3 stop the store with BarrierClobber: the PC stays (R333). -/
theorem striped_lst_stays : (match exec (.lst false .prv 4 0) striped with | .next t => t.gangPcs | _ => []) = [0] := by decide +kernel

end Sys2Proof.Machine

open Sys2Proof Sys2Proof.Machine

/-- Refutes O34 in its clause on LST, which names no space: it asks that the words of the first lane be untagged, and in the space .prv, which no LST encodes
(R265), the other lanes have words of their own (R190). Where one of these is tagged, every lane's access being checked, LST traps BarrierClobber
(R333). -/
theorem not_tileAccessesComplete : ¬ Obligations.TileAccessesComplete := by
  unfold Obligations.TileAccessesComplete
  rintro ⟨images, -⟩
  obtain ⟨v, hi⟩ := State.canIssue_spec (s := striped) (k := perLane) (us := fun v => useS 4 v.g.lanes ++ useL (0 : BitVec 4).toNat v.g.lanes)
    (by decide +kernel)
  obtain ⟨fresh, reach, r, first, clean, moves⟩ := striped_view hi.1
  obtain ⟨-, stores, -⟩ := images striped v false .prv 0 0 4 fresh
  have completes : exec (.lst false .prv 4 0) striped = .next (v.imageStored r) := stores r hi reach first clean
  have stays := striped_lst_stays
  rw [completes] at stays
  exact absurd (moves.symm.trans stays) (by decide)

end
